-- ==== Sys2Proof/Word.lean ====
section
/-!
DEFINITION. Word.lean: the words of the Coded State Engine (R4: every multi-byte field is
little-endian; bit 0 is the least significant bit and byte 0 the lowest-addressed byte).
-/

namespace Sys2Proof

/-- One byte. -/
abbrev Byte := BitVec 8
/-- A 16-bit field (node numbers, tags, statuses). -/
abbrev W16 := BitVec 16
/-- A 32-bit register or field. -/
abbrev W32 := BitVec 32
/-- A 64-bit register, packet word or field. -/
abbrev W64 := BitVec 64
/-- A 256-byte line, flit or Basin word: byte i stands in bits 8i+7..8i. -/
abbrev Line := BitVec 2048
/-- A Basin word as stored (R210): eight 36-byte codewords, codeword s in bits 288s+287..288s. -/
abbrev StoredWord := BitVec 2304
/-- A finite table by number: pairs with rising keys; a key that is not listed has the table's
default value, which each accessor names. -/
abbrev Tab (α : Type) := List (Nat × α)

end Sys2Proof
end

