-- ==== Sys2Proof/Syntax.lean ====
section
/-!
DEFINITION. Syntax.lean: the commands of the block, one constructor per row of
spec/opcode_table.json, in the table's order, with the operands each row brings from outside.

A driver command (rows NEGOTIATE to FW_LOAD) names the queue from whose fetch buffer the control
processor takes its packet (R249); the packet itself came in by COMMAND_FETCH. Where the command
reads a parameter list in HOST memory, the operand holds the 64-bit words that read returned; a
list in package memory is read from the State. A fabric row carries the received packet as flits.
-/

namespace Sys2Proof

/-- A packet received on one fabric channel (R17, R18, R74): source node, partition tag, ordering
class, abort mark, and its flits in order. -/
structure RxPacket where
  src   : W16
  ptag  : W16
  cls   : BitVec 2
  abort : Bool
  flits : List Line
deriving DecidableEq, Repr

/-- What the read of one staging-FIFO word met (R108). The check matrix of the SEC-DED code is not in
the spec, so the operand names the outcome of the check. -/
inductive StagingErr where
  | clean
  | single
  | double
deriving DecidableEq, Repr

/-- The host-memory access that failed (R239). -/
inductive HmAccess where
  | fetch (q : Fin 64)
  | reply (q : Fin 64)
  | param (q : Fin 64)
  | event
deriving DecidableEq, Repr

/-- The two queue-pair ports of R20. -/
inductive Port where
  | storage
  | pass
deriving DecidableEq, Repr

/-- The W1C place through which a vector is acknowledged (R23, R308). -/
inductive IrqReg where
  | qctrl (q : Fin 64)
  | status0
  | status1
deriving DecidableEq, Repr

/-- A register-file entry or a storage-port entry (R278, R280). -/
inductive AccEntry where
  | reg (mid : BitVec 8)
  | sto (f : Fin 65)
deriving DecidableEq, Repr

/-- The commands: one constructor per row of spec/opcode_table.json. -/
inductive Instr where
  -- reset and clock
  | powerOnReset
  | warmReset (inProgress : BitVec 12)
  | lockLoss (inProgress : BitVec 12)
  | clockLocked
  | releaseStepDone (lc : BitVec 2) (dbg : BitVec 2) (node : W16)
  -- lanes and staging
  | readSnoop (lane : Fin 12) (line : BitVec 33) (data : Line)
  | codedWrite (lane : Fin 12) (line : BitVec 33) (be : BitVec 256) (new : Line)
  | oldLineReturn (lane : Fin 12) (data : Line)
  | heldWriteRelease (lane : Fin 12)
  | throttleCauseCleared (lane : Fin 12)
  | stagingWordOut (lane : Fin 12) (err : StagingErr)
  | retainedRecordWrite (v : Fin 16)
  | demote
  | egressSend (chan : Fin 12)
  | accDone (line : BitVec 33)
  | inboundRingApply (v : Fin 16) (d : Fin 64)
  -- received transactions
  | deltaAccumulate (p : RxPacket) (rdy : BitVec 256)
  | seal (p : RxPacket)
  | reachReady (p : RxPacket)
  | landingReady (p : RxPacket)
  | close (p : RxPacket)
  | drained (p : RxPacket)
  | resend (p : RxPacket)
  | hopAcknowledge (p : RxPacket)
  | reachFold (p : RxPacket)
  | landingFold (p : RxPacket)
  | crossingFold (p : RxPacket)
  | watershed (p : RxPacket)
  | settleSummary (p : RxPacket)
  | refuse (p : RxPacket)
  | rebuildHop (p : RxPacket)
  | auditCorrection (p : RxPacket)
  | reachDigestCheck (v : Fin 16) (reach : Nat)
  | standinDigests (p : RxPacket)
  | beacon (p : RxPacket)
  | lockstepDigests (p : RxPacket)
  | replicaDigests (p : RxPacket)
  | joinHello (p : RxPacket)
  -- timers of the commit path, the peers and the rebuild
  | resendTimer (v : Fin 16) (d : Fin 64) (reach : Nat)
  | beaconDue (v : Fin 16) (m : Fin 64)
  | peerSilence (v : Fin 16) (m : Fin 64)
  | holdoffEnd (v : Fin 16) (m : Fin 64)
  | suspectGapEnd
  | fenceTimer (v : Fin 16)
  | standinTransferTimeout (v : Fin 16)
  | hopResend (v : Fin 16) (ident : W16)
  | rebuildStall (v : Fin 16) (ident : W16) (successor : Fin 64)
  | helloRepeat (v : Fin 16)
  | joinTimeout (v : Fin 16)
  -- Terraces and export
  | t1Trigger (v : Fin 16)
  | t2Trigger (v : Fin 16)
  | drainStart (v : Fin 16)
  | tileTaken (v : Fin 16)
  | segmentBegin (v : Fin 16)
  | holdupWaitExpired (v : Fin 16)
  | storageCompletion (tag : W16) (status : W16) (data : List W64)
  | passCompletion (tag : W16) (status : W16) (bytes : W32) (data : List W64)
  | portTimeout (port : Port) (tag : W16)
  | asyncCopyDone (v : Fin 16) (data : List Byte)
  | heldSealRelease (v : Fin 16)
  -- host path
  | commandFetch (q : Fin 64) (packet : BitVec 512)
  | hostAccessFail (a : HmAccess)
  -- sideband, debug level and power
  | holdupPoll
  | holdupReading (record : Option W32)
  | sidebandStretchTimeout
  | holdupStale
  | holdupAlert (asserted : Bool)
  | debugLevelChange (lvl : BitVec 2)
  | debugLevel
  | powerAck (ack : BitVec 2)
  | powerReqTimeout
  | retentionFlitDrop
  -- Basin
  | patrolRead (bank : Fin 32) (flips : StoredWord)
  | basinWriteback (bank : Fin 32)
  | bucketLeak
  | candDecay
  | pageOpen (bank : Fin 32)
  | spillPageZero
  | bankUngate (bank : Fin 32)
  | laneGate (lane : Fin 12)
  | drbgReseed (failedTests : Nat)
  -- driver commands
  | negotiate (q : Fin 64)
  | configure (q : Fin 64) (list : List W64)
  | query (q : Fin 64)
  | valleyDefine (q : Fin 64)
  | valleyJoin (q : Fin 64) (table : List W64)
  | valleyLeave (q : Fin 64)
  | regionDefine (q : Fin 64)
  | regionFreeze (q : Fin 64)
  | regionThaw (q : Fin 64)
  | crossingOpen (q : Fin 64)
  | crossingClose (q : Fin 64)
  | reachSeal (q : Fin 64)
  | watershedQuery (q : Fin 64)
  | rollback (q : Fin 64)
  | fence (q : Fin 64)
  | suspectReport (q : Fin 64)
  | rebuildPlan (q : Fin 64)
  | rebuildRun (q : Fin 64) (scope : List W64)
  | standIn (q : Fin 64)
  | standInSpare (q : Fin 64)
  | contract (q : Fin 64) (map : List W64)
  | audit (q : Fin 64) (scope : List W64)
  | digestExchange (q : Fin 64) (partners : List W64)
  | lockstep (q : Fin 64)
  | t1Drain (q : Fin 64)
  | t1Restore (q : Fin 64) (candidates : List W64) (map : List W64)
  | t2Drain (q : Fin 64)
  | t2Restore (q : Fin 64) (candidates : List W64) (seedTable : List W64)
  | seedServe (q : Fin 64)
  | outerExport (q : Fin 64)
  | outerReanchor (q : Fin 64)
  | partitionGrant (q : Fin 64)
  | partitionRevoke (q : Fin 64)
  | scrub (q : Fin 64)
  | powerState (q : Fin 64)
  | keyLoad (q : Fin 64) (blob : List W64)
  | fwLoad (q : Fin 64) (image : List W64)
  -- register accesses with a row of their own
  | registerWrite (mid : BitVec 8) (addr : BitVec 24) (bytes : BitVec 2) (data : W64)
  | qsubDb (mid : BitVec 8) (q : Fin 64) (data : W32)
  | qcplDb (mid : BitVec 8) (q : Fin 64) (data : W32)
  | evtDb (mid : BitVec 8) (data : W32)
  | queueEnable (mid : BitVec 8) (q : Fin 64)
  | queueDisable (mid : BitVec 8) (q : Fin 64)
  | irqAcknowledge (mid : BitVec 8) (reg : IrqReg) (data : W64)
  | wake (mid : BitVec 8) (data : W32)
  | descriptorWord0Stage (mid : BitVec 8) (d : Fin 1024) (data : W64)
  | descriptorWord1Write (mid : BitVec 8) (d : Fin 1024) (data : W64)
  | remapWrite (mid : BitVec 8) (e : Fin 16) (data : W32)
  | accRegWrite (mid : BitVec 8) (entry : AccEntry) (data : W64)
  | rcRead (mid : BitVec 8) (addr : BitVec 24) (bytes : BitVec 2)
  | timestampLatch (mid : BitVec 8)
  | cpHalt (mid : BitVec 8) (halt : Bool)
  | cpStep (mid : BitVec 8)
  | istDataRead (mid : BitVec 8)
  | basinDataLoad (mid : BitVec 8)
  | basinDataStore (mid : BitVec 8) (data : W64)
  | warmResetRelease
  | eventRingEnable (mid : BitVec 8) (data : W32)
deriving DecidableEq, Repr

end Sys2Proof
end

