-- ==== Sys2Proof/Config.lean ====
section
/-!
DEFINITION. Config.lean: what the part fixes from outside the spec's arithmetic. Every constant here is
OPAQUE: nothing in Lean can evaluate it or prove a value of it, so every statement holds for every value.

The published standards that the spec names (AES-256-GCM, HKDF with SHA-384, ECDSA P-384, the CTR_DRBG)
stand as uninterpreted functions (notes/assumptions/4.md); the fuse contents and the free values that the
spec leaves open stand beside them (notes/assumptions/5.md, notes/assumptions/6.md).
-/

namespace Sys2Proof.Config

/-- AES-256-GCM seal: key, IV, additional data, plaintext; the ciphertext (R289). -/
opaque gcmSeal : BitVec 256 → BitVec 96 → List Byte → List Byte → List Byte
/-- AES-256-GCM seal: key, IV, additional data, plaintext; the 128-bit tag (R289). -/
opaque gcmTag : BitVec 256 → BitVec 96 → List Byte → List Byte → BitVec 128
/-- AES-256-GCM open: key, IV, additional data, ciphertext, tag; the plaintext when the tag is good. -/
opaque gcmOpen : BitVec 256 → BitVec 96 → List Byte → List Byte → BitVec 128 → Option (List Byte)
/-- HKDF with SHA-384: input key, salt, info, output length (R283). -/
opaque hkdf : List Byte → List Byte → List Byte → Nat → List Byte
/-- SHA-384 (R261, R262). -/
opaque sha384 : List Byte → List Byte
/-- ECDSA P-384 verification: public key, hash, signature (R261, R262). -/
opaque ecdsaVerify : List Byte → List Byte → List Byte → Bool
/-- Is a pair of coordinates a point of P-384 (R285)? -/
opaque p384Point : List Byte → Bool
/-- The point d·G of P-384 for a scalar d: x, then y (R283). -/
opaque p384Base : Nat → List Byte
/-- The x coordinate of the point d·E of P-384 for a scalar d and a point E (R284). -/
opaque p384Mul : Nat → List Byte → List Byte
/-- The device key in the fuses (R282). -/
opaque fuseDeviceKey : BitVec 256
/-- The image-key hash in the fuses (R262). -/
opaque fuseImageKeyHash : List Byte
/-- The minimum security version in the fuses (R262). -/
opaque fuseMinSecurity : W32
/-- The random bytes that the crypto unit's source gives at its n-th request (R166, R288). -/
opaque randomWord : Nat → W64
/-- The LBA size, in bytes, that an NVMe namespace is formatted with (R169). -/
opaque lbaSize : W32 → Nat
/-- A free value: what the control processor's program counter holds after its n-th single step, since the
spec gives the firmware's instructions no encoding (R312). -/
opaque freePc : Nat → W32
/-- A free value: the n-th 64-bit value that the spec leaves open (notes/assumptions/6.md). -/
opaque freeWord : Nat → W64
/-- A free value: the n-th 256-byte word that the spec leaves open (notes/assumptions/6.md). -/
opaque freeLine : Nat → Line
/-- The memory stack, and so the lane, of a line: how package addresses are spread over the twelve stacks is
not in the spec, so the lane of an engine coded write (R195) is uninterpreted (notes/assumptions/8.md). -/
opaque laneOf : Nat → Fin 12

end Sys2Proof.Config
end

