-- ==== Sys2Proof/Machine/Tab.lean ====
section
/-!
DEFINITION. Machine/Tab.lean: finite tables by number, and the bit-field and byte-order helpers of R4.
-/

namespace Sys2Proof.Machine

/-- The entry at key `k`, or the table's default `d`. -/
def Tab.get {α : Type} (d : α) : Tab α → Nat → α
  | [], _ => d
  | (k', x) :: r, k => if k = k' then x else Tab.get d r k

/-- The entry at key `k`, if the table lists one. -/
def Tab.find {α : Type} : Tab α → Nat → Option α
  | [], _ => none
  | (k', x) :: r, k => if k = k' then some x else Tab.find r k

/-- Set the entry at key `k`, keeping keys in rising order. -/
def Tab.set {α : Type} : Tab α → Nat → α → Tab α
  | [], k, x => [(k, x)]
  | (k', x') :: r, k, x =>
    if k < k' then (k, x) :: (k', x') :: r
    else if k = k' then (k, x) :: r
    else (k', x') :: Tab.set r k x

/-- Remove key `k`. -/
def Tab.del {α : Type} : Tab α → Nat → Tab α
  | [], _ => []
  | (k', x) :: r, k => if k = k' then Tab.del r k else (k', x) :: Tab.del r k

/-- Change the entry at key `k` by `f`, starting from the default `d` where none is listed. -/
def Tab.upd {α : Type} (d : α) (t : Tab α) (k : Nat) (f : α → α) : Tab α :=
  Tab.set t k (f (Tab.get d t k))

/-- Does the table list key `k`? -/
def Tab.has {α : Type} (t : Tab α) (k : Nat) : Bool := (Tab.find t k).isSome

/-- The keys listed. -/
def Tab.keys {α : Type} (t : Tab α) : List Nat := t.map (·.1)

/-- Field [lo + w - 1 : lo] of a word, as a number. -/
def fld {n : Nat} (x : BitVec n) (lo w : Nat) : Nat := (x.extractLsb' lo w).toNat

/-- Bit `i` of a word. -/
def bit {n : Nat} (x : BitVec n) (i : Nat) : Bool := x.getLsbD i

/-- The word with bit `i` set. -/
def setBit {n : Nat} (x : BitVec n) (i : Nat) : BitVec n := x ||| BitVec.ofNat n (2 ^ i)

/-- The word with bit `i` cleared. -/
def clrBit {n : Nat} (x : BitVec n) (i : Nat) : BitVec n := x &&& ~~~ BitVec.ofNat n (2 ^ i)

/-- A Bool as a number. -/
def b2n (b : Bool) : Nat := if b then 1 else 0

/-- Place fields in a 64-bit word: each pair is (lowest bit, value). -/
def pack (fs : List (Nat × Nat)) : W64 :=
  fs.foldl (fun acc f => acc ||| BitVec.ofNat 64 (f.2 * 2 ^ f.1)) 0

/-- The bytes of a word, lowest first (R4). -/
def wordBytes (x : W64) : List Byte := (List.range 8).map fun i => x.extractLsb' (8 * i) 8

/-- The low `n` bytes of a number, lowest first (R4). -/
def natBytes (n x : Nat) : List Byte := (List.range n).map fun i => BitVec.ofNat 8 (x / 256 ^ i)

/-- The number that bytes spell, lowest first (R4). -/
def bytesNat : List Byte → Nat
  | [] => 0
  | b :: r => b.toNat + 256 * bytesNat r

/-- The 64-bit word that (up to) eight bytes spell, lowest first (R4). -/
def bytesWord (bs : List Byte) : W64 := BitVec.ofNat 64 (bytesNat (bs.take 8))

/-- Cut a list into pieces of `n`; `fuel` bounds the number of pieces. -/
def chop {α : Type} (n : Nat) : Nat → List α → List (List α)
  | 0, _ => []
  | _ + 1, [] => []
  | fuel + 1, x :: xs => (x :: xs).take n :: chop n fuel ((x :: xs).drop n)

/-- Bytes as 64-bit words, the last padded with zero bytes (R4). -/
def bytesWords (bs : List Byte) : List W64 := (chop 8 bs.length bs).map bytesWord

/-- Words as bytes (R4). -/
def wordsBytes (ws : List W64) : List Byte := ws.flatMap wordBytes

/-- Bytes padded with zeros to a multiple of `n`. -/
def padTo (n : Nat) (bs : List Byte) : List Byte :=
  bs ++ List.replicate ((n - bs.length % n) % n) 0

/-- Byte `i` of a line (R4). -/
def Line.byte (l : Line) (i : Nat) : Byte := l.extractLsb' (8 * i) 8

/-- The bytes of a line. -/
def Line.bytes (l : Line) : List Byte := (List.range 256).map (Line.byte l)

/-- Bytes spelled as one line, byte 0 lowest; bytes beyond 256 are cut. -/
def Line.ofBytes (bs : List Byte) : Line := BitVec.ofNat 2048 (bytesNat (bs.take 256))

/-- Word `i` of a line. -/
def Line.word (l : Line) (i : Nat) : W64 := l.extractLsb' (64 * i) 64

/-- Words as one line. -/
def Line.ofWords (ws : List W64) : Line := Line.ofBytes (wordsBytes (ws.take 32))

/-- A byte-enable mask spread over the bits of a line. -/
def beMask (be : BitVec 256) : Line :=
  Line.ofBytes ((List.range 256).map fun i => if bit be i then 0xFF else 0)

/-- The bytes of a difference that are not zero, as byte enables. -/
def nzMask (l : Line) : BitVec 256 :=
  (List.range 256).foldl (fun m i => if Line.byte l i = 0 then m else setBit m i) 0

/-- Word `i` of a 64-byte command packet (R240). -/
def pkw (p : BitVec 512) (i : Nat) : W64 := p.extractLsb' (64 * i) 64

/-- Remove every occurrence of `x`. -/
def without {α : Type} [DecidableEq α] (l : List α) (x : α) : List α := l.filter (· ≠ x)

/-- The least number below `n`, from `i` on, that `p` accepts. -/
def leastFrom (p : Nat → Bool) : Nat → Nat → Option Nat
  | 0, _ => none
  | n + 1, i => if p i then some i else leastFrom p n (i + 1)

/-- Add one to a saturating 32-bit counter (R276, R306). -/
def satInc (c : W32) : W32 := if c = 0xFFFFFFFF then c else c + 1

/-- Add `n` to a saturating 32-bit counter. -/
def satAdd (c : W32) (n : Nat) : W32 := BitVec.ofNat 32 (min (c.toNat + n) 0xFFFFFFFF)

/-- Logical indexes whose bit is set in a 64-bit set. -/
def members64 (s : W64) : List Nat := (List.range 64).filter (bit s ·)

end Sys2Proof.Machine
end

