-- ==== Sys2Proof/Machine/Galois.lean ====
section
/-!
DEFINITION. Machine/Galois.lean: the arithmetic of chapters 02 and 08: GF(2^8), the code's
coefficients, GF(2^64) and the reach digest, the Basin's RS(36,32) code, CRC-32C.
-/

namespace Sys2Proof.Machine

/-- Multiplication in GF(2^8) with polynomial 0x11D (R47). -/
def gf8Mul (a b : Byte) : Byte :=
  [7, 6, 5, 4, 3, 2, 1, 0].foldl
    (fun r i =>
      let r2 := if bit r 7 then (r <<< 1) ^^^ (0x1D : Byte) else r <<< 1
      if bit b i then r2 ^^^ a else r2) 0

/-- The inverse a^254 of a non-zero element (R47); zero for zero. -/
def gf8Inv (a : Byte) : Byte :=
  let a2 := gf8Mul a a
  let a4 := gf8Mul a2 a2
  let a8 := gf8Mul a4 a4
  let a16 := gf8Mul a8 a8
  let a32 := gf8Mul a16 a16
  let a64 := gf8Mul a32 a32
  let a128 := gf8Mul a64 a64
  gf8Mul a128 (gf8Mul a64 (gf8Mul a32 (gf8Mul a16 (gf8Mul a8 (gf8Mul a4 a2)))))

/-- Division in GF(2^8). -/
def gf8Div (a b : Byte) : Byte := gf8Mul a (gf8Inv b)

/-- The power of 0x02 (R47). -/
def gf8Exp (n : Nat) : Byte := (List.range (n % 255)).foldl (fun r _ => gf8Mul r 2) 1

/-- The coefficient c'(p, j) = y_j / (p xor y_j) with y_j = 0x10 + j (R48). -/
def coef (p j : Nat) : Byte :=
  let y : Byte := BitVec.ofNat 8 (0x10 + j)
  gf8Div y (BitVec.ofNat 8 p ^^^ y)

/-- Scale each byte of a line by a coefficient (R48, R55). -/
def scaleLine (c : Byte) (l : Line) : Line :=
  if c = 1 then l else if c = 0 then 0 else Line.ofBytes ((Line.bytes l).map (gf8Mul c))

/-- Multiplication in GF(2^64), reduction constant 0x1B (R56). -/
def gf64Mul (a b : W64) : W64 :=
  (List.range 64).foldl
    (fun r i =>
      let r2 := if bit r 63 then (r <<< 1) ^^^ (0x1B : W64) else r <<< 1
      if bit b (63 - i) then r2 ^^^ a else r2) 0

/-- alpha^n by repeated squaring; `fuel` bounds the bits of n. -/
def gf64PowGo : Nat → W64 → Nat → W64 → W64
  | 0, _, _, r => r
  | fuel + 1, a, n, r =>
    if n = 0 then r
    else gf64PowGo fuel (gf64Mul a a) (n / 2) (if n % 2 = 1 then gf64Mul r a else r)

/-- alpha^n in GF(2^64) (R56). -/
def gf64Pow (a : W64) (n : Nat) : W64 := gf64PowGo 64 a n 1

/-- The digest of a line of words whose first word has index `i` in the Reach (R56, R57). -/
def lineDigest (alpha : W64) (i : Nat) (l : Line) : W64 :=
  if l = 0 then 0
  else
    ((List.range 32).foldl
      (fun (acc : W64 × W64) j =>
        let w := Line.word l j
        (if w = 0 then acc.1 else acc.1 ^^^ gf64Mul w acc.2, gf64Mul acc.2 alpha))
      (0, gf64Pow alpha i)).1

/-- The digest of lines from word index `i` on (R56). -/
def linesDigest (alpha : W64) (i : Nat) (ls : List Line) : W64 :=
  ((ls.foldl (fun (acc : W64 × Nat) l => (acc.1 ^^^ lineDigest alpha acc.2 l, acc.2 + 32)) (0, i))).1

/-- The digest of 64-bit words from index 0 (R56, R173). -/
def wordsDigest (alpha : W64) (ws : List W64) : W64 :=
  (ws.foldl (fun (acc : W64 × W64) w => (acc.1 ^^^ gf64Mul w acc.2, gf64Mul acc.2 alpha)) (0, 1)).1

/-- CRC-32C (Castagnoli), as used by iSCSI (R37, R199). -/
def crc32c (bs : List Byte) : W32 :=
  let step (c : W32) (b : Byte) : W32 :=
    (List.range 8).foldl
      (fun c _ => if bit c 0 then (c >>> 1) ^^^ (0x82F63B78 : W32) else c >>> 1)
      (c ^^^ b.setWidth 32)
  ~~~ (bs.foldl step 0xFFFFFFFF)

/-! ## The Basin code (R210, R211) -/

/-- The four check bytes of 32 data bytes: the remainder of m(x)·x^4 by g(x) (R210). -/
def rsCheck (data : List Byte) : List Byte :=
  let step (r : Byte × Byte × Byte × Byte) (d : Byte) : Byte × Byte × Byte × Byte :=
    let (r3, r2, r1, r0) := r
    let f := d ^^^ r3
    (r2 ^^^ gf8Mul f 0x0F, r1 ^^^ gf8Mul f 0x36, r0 ^^^ gf8Mul f 0x78, gf8Mul f 0x40)
  let (r3, r2, r1, r0) := data.foldl step (0, 0, 0, 0)
  [r3, r2, r1, r0]

/-- Codeword `s` of a stored word, as 36 bytes: 32 data bytes, then the check bytes (R210). -/
def codeword (w : StoredWord) (s : Nat) : List Byte :=
  (List.range 36).map fun i => w.extractLsb' (288 * s + 8 * i) 8

/-- The stored form of a Basin word (R210). -/
def storeWord (l : Line) : StoredWord :=
  let bs := (List.range 8).flatMap fun s =>
    let d := (List.range 32).map fun i => Line.byte l (32 * s + i)
    d ++ rsCheck d
  BitVec.ofNat 2304 (bytesNat bs)

/-- Syndrome i: the received polynomial at 0x02^i; byte j is the coefficient of x^(35-j) (R211). -/
def syndrome (cw : List Byte) (i : Nat) : Byte :=
  cw.foldl (fun acc b => gf8Mul acc (gf8Exp i) ^^^ b) 0

/-- Replace byte `i` of a codeword by its XOR with `e`. -/
def xorAt (cw : List Byte) (i : Nat) (e : Byte) : List Byte :=
  cw.zipIdx.map fun (b, j) => if j = i then b ^^^ e else b

/-- What the decoder makes of a codeword: its bytes and whether it corrected, or none when the sub-word
is uncorrectable (R211). One error has S1/S0 = X and S_i = e·X^i; two errors have the locator
x^2 + s1·x + s2 found from the four syndromes. -/
def rsDecode (cw : List Byte) : Option (List Byte × Bool) :=
  let s0 := syndrome cw 0
  let s1 := syndrome cw 1
  let s2 := syndrome cw 2
  let s3 := syndrome cw 3
  if s0 = 0 ∧ s1 = 0 ∧ s2 = 0 ∧ s3 = 0 then some (cw, false)
  else
    let det := gf8Mul s0 s2 ^^^ gf8Mul s1 s1
    if det = 0 then
      -- a locator of degree one: X = S1/S0 must be a position, and S2, S3 must agree
      if s0 = 0 then none
      else
        let x := gf8Div s1 s0
        if gf8Mul s1 x = s2 ∧ gf8Mul s2 x = s3 then
          match (List.range 36).find? fun p => gf8Exp p = x with
          | some p => some (xorAt cw (35 - p) s0, true)
          | none => none
        else none
    else
      -- a locator of degree two: x^2 + a·x + b, with both roots among the positions
      let a := gf8Div (gf8Mul s0 s3 ^^^ gf8Mul s1 s2) det
      let b := gf8Div (gf8Mul s1 s3 ^^^ gf8Mul s2 s2) det
      let roots := (List.range 36).filter fun p =>
        let x := gf8Exp p
        gf8Mul x x ^^^ gf8Mul a x ^^^ b = 0
      match roots with
      | [p1, p2] =>
        let x1 := gf8Exp p1
        let x2 := gf8Exp p2
        let e2 := gf8Div (s1 ^^^ gf8Mul s0 x1) (x1 ^^^ x2)
        let e1 := s0 ^^^ e2
        some (xorAt (xorAt cw (35 - p1) e1) (35 - p2) e2, true)
      | _ => none

/-- The outcome of reading a stored word (R211): the data, how many sub-words were corrected, and the
mask of uncorrectable sub-words. -/
structure WordRead where
  data  : Line
  corr  : Nat
  bad   : Nat
deriving DecidableEq, Repr

/-- Decode every sub-word of a stored word (R211). An uncorrectable sub-word yields zero data. -/
def readWord (w : StoredWord) : WordRead :=
  if w = 0 then { data := 0, corr := 0, bad := 0 }
  else
    let parts := (List.range 8).map fun s => rsDecode (codeword w s)
    { data := Line.ofBytes (parts.flatMap fun
        | some (cw, _) => cw.take 32
        | none => List.replicate 32 0)
      corr := (parts.filter fun | some (_, true) => true | _ => false).length
      bad := (parts.zipIdx.foldl (fun m (p, s) => if p.isNone then m + 2 ^ s else m) 0) }

end Sys2Proof.Machine
end

