-- ==== Sys2Proof/Machine/Blocks.lean ====
section
/-!
DEFINITION. Machine/Blocks.lean: element types and the compression of differences (R39, R40, R52 to R55).
-/

namespace Sys2Proof.Machine

/-- The element width of a type code (R39). -/
def typeWidth (t : Nat) : Nat := if t = 1 then 2 else if t = 2 then 4 else 1

/-- The planes code of a block header for an element width (R52). -/
def planesCode (w : Nat) : Nat := if w = 2 then 1 else if w = 4 then 2 else 0

/-- The plane q of an element width w: the bytes at offsets i with i mod w = q (R53). -/
def plane (w q : Nat) (bs : List Byte) : List Byte :=
  (List.range (256 / w)).map fun i => bs.getD (i * w + q) 0

/-- The mask bytes of a plane: bit b of mask byte B is 1 exactly when plane byte 8B + b is not zero (R53). -/
def planeMask (p : List Byte) : List Byte :=
  (List.range (p.length / 8)).map fun B =>
    (List.range 8).foldl (fun (m : Byte) b => if p.getD (8 * B + b) 0 = 0 then m else setBit m b) 0

/-- The planes body of a difference (R53). -/
def planesBody (w : Nat) (d : Line) : List Byte :=
  let bs := Line.bytes d
  (List.range w).flatMap fun q =>
    let p := plane w q bs
    planeMask p ++ p.filter (· ≠ 0)

/-- A block header (R52). -/
def blockHeader (mode planes len line : Nat) : W64 :=
  pack [(0, mode), (2, planes), (8, len), (24, line)]

/-- Encode a non-zero difference of a region of element width `w` as one block, raw exactly when the
planes body would be 256 bytes or longer (R52, R53). -/
def encodeBlock (w line : Nat) (d : Line) : List Byte :=
  let body := planesBody w d
  if body.length < 256 then
    padTo 8 (wordBytes (blockHeader 1 (planesCode w) body.length line) ++ body)
  else
    padTo 8 (wordBytes (blockHeader 2 (planesCode w) 256 line) ++ Line.bytes d)

/-- The body length a block header names (R52). -/
def blockLen (bs : List Byte) : Nat := fld (bytesWord bs) 8 9

/-- The size of a block with its padding, from its header. -/
def blockSize (bs : List Byte) : Nat := (8 + blockLen bs + 7) / 8 * 8

/-- Split a planes body into (mask, values) for `n` planes of `mb` mask bytes; none when it is too short. -/
def splitPlanes (mb : Nat) : Nat → List Byte → Option (List (List Byte × List Byte))
  | 0, [] => some []
  | 0, _ => none
  | n + 1, bs =>
    let mask := bs.take mb
    let ones := (mask.map fun b => ((List.range 8).filter (bit b ·)).length).sum
    let rest := bs.drop mb
    if mask.length < mb ∨ rest.length < ones then none
    else match splitPlanes mb n (rest.drop ones) with
      | some r => some ((mask, rest.take ones) :: r)
      | none => none

/-- Scale a block for a parity row: header and masks unchanged, value or body bytes multiplied (R55). -/
def scaleBlock (c : Byte) (bs : List Byte) : List Byte :=
  let h := bytesWord bs
  let len := fld h 8 9
  let body := (bs.drop 8).take len
  let w := if fld h 2 2 = 1 then 2 else if fld h 2 2 = 2 then 4 else 1
  let body' :=
    if fld h 0 2 = 1 then
      match splitPlanes (32 / w) w body with
      | some ps => ps.flatMap fun (m, v) => m ++ v.map (gf8Mul c)
      | none => body
    else body.map (gf8Mul c)
  padTo 8 (bs.take 8 ++ body')

/-- Put a plane's values back at the places its mask marks. -/
def scatter : List Byte → Nat → List Byte → List Byte
  | _, 0, _ => []
  | vals, n + 1, mask =>
    let i := 8 * mask.length - (n + 1)
    if bit (mask.getD (i / 8) 0) (i % 8) then
      vals.headD 0 :: scatter vals.tail n mask
    else 0 :: scatter vals n mask

/-- Reconstruct the difference from a block and check it (R54). `w` is the element width of the region
into which the line falls and `lines` the number of lines of the Reach. None: dropped and counted; a raw block whose
length field is not 256 is one of these (DEDUCED, notes/assumptions/67.md: R54 does not list that case). -/
def decodeBlock (w lines : Nat) (bs : List Byte) : Option Line :=
  let h := bytesWord bs
  let mode := fld h 0 2
  let len := fld h 8 9
  let body := (bs.drop 8).take len
  let padding := (bs.take (blockSize bs)).drop (8 + len)
  if fld h 2 2 ≠ planesCode w ∨ ¬ (fld h 24 22 < lines) ∨ padding.any (· ≠ 0) ∨ body.length ≠ len then none
  else if mode = 1 then
    match splitPlanes (32 / w) w body with
    | some ps =>
      let planes := ps.map fun (m, v) => scatter v (256 / w) m
      some (Line.ofBytes ((List.range 256).map fun i => (planes.getD (i % w) []).getD (i / w) 0))
    | none => none
  else if mode = 2 ∧ len = 256 then some (Line.ofBytes body)
  else none

/-- What the lane counts among the elements of a write (R39, R40): non-finite, saturated, zero. -/
structure ElemCount where
  nonfin : Nat
  satur  : Nat
  zeros  : Nat
deriving DecidableEq, Repr

/-- Is an element of type `t` with value `x` non-finite (R39)? -/
def elemNonfinite (t x : Nat) : Bool :=
  if t = 1 then decide ((x &&& 0x7F80) = 0x7F80)
  else if t = 2 then decide ((x &&& 0x7F800000) = 0x7F800000)
  else if t = 3 then decide ((x &&& 0x7F) = 0x7F) else false

/-- Is an element saturated (R39)? -/
def elemSaturated (t x : Nat) : Bool :=
  if t = 1 then decide ((x &&& 0x7FFF) = 0x7F7F)
  else if t = 2 then decide ((x &&& 0x7FFFFFFF) = 0x7F7FFFFF)
  else if t = 3 then decide ((x &&& 0x7F) = 0x7E) else false

/-- Is an element zero (R39)? -/
def elemZero (t x : Nat) : Bool :=
  if t = 1 then decide ((x &&& 0x7FFF) = 0)
  else if t = 2 then decide ((x &&& 0x7FFFFFFF) = 0)
  else if t = 3 then decide ((x &&& 0x7F) = 0) else false

/-- Classify the written elements of a line: an element counts when at least one of its bytes is enabled,
by its value in the new line (R40). -/
def classify (t : Nat) (be : BitVec 256) (new : Line) : ElemCount :=
  if t = 0 then { nonfin := 0, satur := 0, zeros := 0 }
  else
    let w := typeWidth t
    let vals := ((List.range (256 / w)).filter fun e => (List.range w).any fun b => bit be (w * e + b)).map
      fun e => fld new (8 * w * e) (8 * w)
    { nonfin := (vals.filter (elemNonfinite t)).length
      satur := (vals.filter (elemSaturated t)).length
      zeros := (vals.filter (elemZero t)).length }

end Sys2Proof.Machine
end

