-- ==== Sys2Proof/Machine/State.lean ====
section
/-!
DEFINITION. Machine/State.lean: everything the spec gives the engine, as plain data, and the state
right after a power-on reset (R30, R31).

`State` has three parts: the queue of commands that wait at the block (the model's own), package
memory as the engine's lanes and loopback loads see it (R4, R11, R99), and `Eng`, the engine itself.
Every structure's default field values are the reset values: a value the spec states, else the value
the assumption log names (notes/assumptions/2.md).
-/

namespace Sys2Proof.Machine

/-! ## Side domain: clock, release, sideband, levels, timestamp (R7 to R10, R24 to R31) -/

/-- The clock the side domain runs on (R10). -/
inductive SideClk where
  | ref
  | root
deriving DecidableEq, Repr

/-- The step of the release order that is running (R31); `held` while a reset input holds the other
domains (R10, R32), `ready` after step 6. -/
inductive RelStep where
  | waitClock
  | fuses
  | control
  | coreClear
  | fabTables
  | held
  | ready
deriving DecidableEq, Repr

/-- Who waits for a reply (R242, R249): queue, tag, opcode and no-interrupt flag of the packet. -/
structure Cmd where
  q     : Nat
  tag   : W16
  op    : Byte
  noIrq : Bool
deriving DecidableEq, Repr

/-- A POWER_STATE that waits (R29, R296, R298). -/
structure PowerWait where
  cmd   : Cmd
  req   : BitVec 2
deriving DecidableEq, Repr

/-- The side domain: kept by a warm reset and a lock loss (R30). `hBus` is the bus address and the register pointer of the
newest transfer on the sideband bus (R25). -/
structure Side where
  ts          : W64 := 0
  clk         : SideClk := .ref
  pllLock     : Bool := false
  rstLow      : Bool := false
  relStep     : RelStep := .waitClock
  lockLoss    : Bool := false
  lc          : BitVec 2 := 0
  devKey      : BitVec 256 := 0
  devKeyHere  : Bool := false
  dbgLvl      : BitVec 2 := 0
  dbgSeen     : BitVec 2 := 0
  dbgActing   : Bool := false
  pwrReq      : BitVec 2 := 0
  pwrAck      : BitVec 2 := 0
  pwrState    : BitVec 2 := 0
  pwrWait     : Option PowerWait := none
  pwrSince    : W64 := 0
  waking      : Bool := false
  retFlits    : W32 := 0
  hRecord     : W32 := 0
  hFailed     : Bool := false
  hAlert      : Bool := false
  hStale      : Bool := false
  hBusy       : Bool := false
  hBus        : Option (Nat × Nat) := none
  hSampleTs   : W64 := 0
  hPollTs     : W64 := 0
  tsLatch     : Tab W32 := []
  rngFault    : Bool := false
  revoked     : List W16 := []
deriving DecidableEq, Repr

/-! ## Control domain: queues, events, interrupts, firmware, keys (R235 to R247, R261, R282) -/

/-- One command queue (R235 to R239, R308). `messaged`: the newest reply sent the queue's vector, so a failure of its write
takes the message back. `inFlight`: the write of the newest reply may still fail. `finalDue`: the queue has stopped and its
last command has replied; the final QUEUE_FAULT waits until that reply's write can no longer fail (R239). -/
structure Queue where
  baseCmd  : W64 := 0
  baseCpl  : W64 := 0
  want     : Bool := false
  enabled  : Bool := false
  error    : Bool := false
  owner    : Byte := 0
  sub      : Nat := 0
  fetch    : Nat := 0
  cplDone  : Nat := 0
  reply    : Nat := 0
  phase    : Bool := true
  buf      : List (BitVec 512) := []
  out      : Nat := 0
  failFetch : Bool := false
  failReply : Bool := false
  dropped  : Nat := 0
  messaged : Bool := false
  inFlight : Bool := false
  finalDue : Bool := false
deriving DecidableEq, Repr

/-- A running firmware image (R261, R262). -/
structure Image where
  major  : Nat
  minor  : Nat
  secVer : W32
  entry  : W32
deriving DecidableEq, Repr

/-- The job key and the exchange key of one function (R282). -/
structure Keys where
  job  : Option (BitVec 256) := none
  exch : Option (BitVec 256) := none
deriving DecidableEq, Repr

/-- One event record before the ring gives it its phase (R245). -/
structure EvRec where
  code   : W16
  status : W16
  valley : Option Nat
  fn     : Byte
  seq    : Nat
  ts     : W64
  r0     : W64
  r1     : W64
deriving DecidableEq, Repr

/-- The event ring (R244). `messaged`: the vector on which the newest event sent a message, vector 66 apart. -/
structure EvtRing where
  base     : W64 := 0
  ctrl     : W32 := 0xA
  next     : Nat := 0
  consumed : Nat := 0
  phase    : Bool := true
  seq      : Nat := 0
  held     : List EvRec := []
  lost     : Nat := 0
  firstLost : Nat := 0
  stalled  : Bool := false
  messaged : Option Nat := none
deriving DecidableEq, Repr

/-- A merge window for reports about one node (R123, R125): when it closes, and the Valley whose report opened it. -/
structure MergeWin where
  until_   : W64
  opener   : Nat
deriving DecidableEq, Repr

/-- A partition: its tag and the virtual function that holds it (R271). -/
structure Grant where
  ptag : W16
  vf   : Nat
deriving DecidableEq, Repr

/-- A PARTITION_REVOKE between its steps (R272): the step it waits in, how many of the oldest outstanding accumulates
were issued before its step 2, and the ranges (address, bytes) it zeroes. -/
structure RevokeWait where
  cmd    : Cmd
  ptag   : W16
  vf     : Nat
  step   : Nat
  before : Nat
  areas  : List (Nat × Nat)
deriving DecidableEq, Repr

/-- A VALLEY_LEAVE or PARTITION_REVOKE whose reply is the orderly stop (R273): it waits until the spill pages that it
freed read zero. -/
structure StopWait where
  cmd   : Cmd
  pages : List Nat
deriving DecidableEq, Repr

/-- A SCRUB that waits for its accumulates (R99). -/
structure ScrubWait where
  cmd  : Cmd
  left : Nat
  key  : Nat
deriving DecidableEq, Repr

/-- The control domain apart from registers with a place of their own. `turn` is the queue whose packet was taken last, for
the round robin of R249; `resumed` holds, by node, the PEER_RESUMED records of the running ck_ctl cycle: when the peer
was heard, and the Valleys concerned (R125). -/
structure Ctl where
  bootRom    : Bool := false
  nodeFault  : Bool := false
  cfgErr     : Bool := false
  cfgLocked  : Bool := false
  opened     : Bool := false
  node       : W16 := 0
  image      : Option Image := none
  istore     : List W64 := []
  cpHaltBit  : Bool := false
  heldEnds   : List (Cmd × W16 × W64 × W64) := []
  cpPc       : W32 := 0
  istAddr    : W32 := 0
  freeCount  : Nat := 0
  noTake     : Bool := false
  turn       : Nat := 63
  negotiated : Tab Nat := []
  queues     : Tab Queue := []
  keys       : Tab Keys := []
  grants     : List Grant := []
  revokes    : List RevokeWait := []
  scrubs     : List ScrubWait := []
  scrubKey   : Nat := 0
  drbgCount  : Nat := 0
  drbgSeeded : Nat := 0
  rngFails   : Nat := 0
  evt        : EvtRing := {}
  irq        : BitVec 68 := 0
  irq66Ts    : Option W64 := none
  irq66Due   : Bool := false
  winSuspect : Tab MergeWin := []
  winResume  : Tab MergeWin := []
  resumed    : Tab (W64 × List Nat) := []
  stops      : List StopWait := []
  stagedW0   : Option (Nat × W64 × Byte) := none
deriving DecidableEq, Repr

/-- Engine-wide configuration registers, as the register map holds them (group 2, 7, 10), and the
access tables (group 8). -/
structure Regs where
  basinPart  : W64 := 0x00000202_0804040C
  spillBase  : W64 := 0
  spillSize  : W32 := 0
  quotaRet   : W64 := 0x02800000
  quotaPend  : W64 := 0x00D00000
  quotaShad  : W64 := 0x01800000
  quotaCache : W64 := 0x00400000
  flow       : W32 := 0x02000000
  timeouts   : W64 := 0x000003E8_000003E8
  suspectGap : W32 := 0x64
  portTime   : W32 := 0x00640064
  sideband   : W64 := 0x0000000A_03E8002C
  holdup     : W64 := 0x000003E8_01F40004
  laneWm     : Tab W32 := []
  bucket     : W64 := 0x000003E8_00000100
  patrol     : W64 := 0x03E80004_00001000
  remap      : Tab W32 := []
  laneGate   : W32 := 0x1000
  accReg     : Tab W32 := []
  accFab     : Tab W32 := [(0, 0x00010000)]
  accSto     : Tab W64 := []
  basinAddr  : W32 := 0
deriving DecidableEq, Repr

/-- Counters of group 9 and group 7 (R276, R306, R212). -/
structure Counters where
  drop   : Tab W32 := []
  refuse : Tab W32 := []
  bCorr  : W32 := 0
  bUncorr : W32 := 0
deriving DecidableEq, Repr

/-! ## Core domain: lanes, staging, Basin, spill pool (R11 to R15, R96 to R114, R210 to R219) -/

/-- A coded write that a lane holds (R13, R15, R106): `old` is known after the window lookup or the
controller's answer; `engine` marks the engine's own writes (R195), which the controller does not perform. `num` is the
write's place among all coded writes the lanes have accepted, and `inMem` says that the controller has performed it
already, ahead of an accumulate that was issued after it (R16). -/
structure LaneWrite where
  line : Nat
  be   : BitVec 256
  new  : Line
  old  : Option Line
  engine : Bool := false
  num  : Nat := 0
  inMem : Bool := false
deriving DecidableEq, Repr

/-- What a staging descriptor says of one entry (R106): the ring it goes to and the entry. -/
inductive EntryBody where
  | block (seq : W32) (reach : Nat) (line : Nat) (row : Nat) (bytes : List Byte)
  | sealed (reach : Nat) (count : W32) (digest : W64) (step : W64)
deriving DecidableEq, Repr

/-- A staged entry on its way to a ring: Valley slot, distance d, body. -/
structure Staged where
  v    : Nat
  d    : Nat
  body : EntryBody
deriving DecidableEq, Repr

/-- One word of a staging FIFO (R106, R107): its valid 8-byte units, whether it was closed partial,
and the entries whose last byte it holds. `parts` names every Valley with bytes in the word. -/
structure StgWord where
  bytes  : List Byte
  closed : Bool
  ends   : List Staged
  parts  : List Nat
deriving DecidableEq, Repr

/-- A lane (R11 to R16, R106 to R110, R295). `gated` and `gateAcc`: the lane's clock was gated when it had presented
`gateAcc` accumulates; the next one it presents wakes it. -/
structure Lane where
  filters  : Tab W64 := []
  window   : List (Nat × Line) := []
  q        : List LaneWrite := []
  fifo     : List StgWord := []
  fifoHyst : Bool := false
  retCause : Bool := false
  shadCause : Bool := false
  winCause : Bool := false
  rstCause : Bool := false
  wthr     : Bool := false
  hit      : W64 := 0
  miss     : W64 := 0
  stCorr   : W32 := 0
  stUncorr : W32 := 0
  gated    : Bool := false
  gateAcc  : Nat := 0
  idleFrom : W64 := 0
deriving DecidableEq, Repr

/-- Who owns a Basin page (R215). -/
inductive PageOwner where
  | outRing (v d : Nat)
  | inRing (v d : Nat)
  | run (v ident : Nat)
  | work (v kind : Nat)
  | queue (q : Nat)
  | events
  | control (v : Nat)
  | spillStage (v : Nat)
deriving DecidableEq, Repr

/-- The Basin (R96 to R98, R210 to R218). `words` lists the stored codewords that are not all zero,
`valid` the valid bits, `owners` the pages in use; a valid page without an owner is opened stock (R216).
`staged` lists the staged pages of the outbound pool, oldest first (R102). Of a word of a page in use, `words` and `spare`
hold what bit errors have changed in it; the words in `known` hold what a debug store has put there (R281). -/
structure Basin where
  words     : Tab StoredWord := []
  spare     : Tab StoredWord := []
  valid     : Tab Bool := []
  owners    : Tab PageOwner := []
  staged    : List Nat := []
  known     : List Nat := []
  patrolAt  : Tab Nat := []
  patrolTs  : Tab W64 := []
  writeback : Tab Nat := []
  level     : Nat := 0
  leakTs    : W64 := 0
  sinceEvt  : Nat := 0
  cand      : List (Nat × Nat) := []
  candTs    : W64 := 0
  fullRaised : Bool := false
  gated     : BitVec 32 := 0
  buffer    : Line := 0
deriving DecidableEq, Repr

/-- The use classes of the spill pool, in the order of R112. -/
inductive SpillClass where
  | retention
  | pending
  | shadow
  | cache
deriving DecidableEq, Repr

/-- A spill-pool page in use (R111 to R113). -/
structure SPage where
  cls : SpillClass
  v   : Nat
  key : Nat
  ts  : W64
deriving DecidableEq, Repr

/-- The spill pool (R111 to R114): pages in use by page number, pages being zeroed, and the
SPILL_EXHAUSTED marks of the epoch by class and Valley. -/
structure Spill where
  pages   : Tab SPage := []
  zeroing : List Nat := []
  raised  : List (Nat × Nat) := []
deriving DecidableEq, Repr

/-- Why an accumulate request was issued, so that its completion has its effect (R72, R88, R99). -/
inductive AccWhy where
  | plain
  | block (v d reach : Nat) (epoch : W64)
  | merge (v : Nat)
  | scrub (key : Nat)
  | revoke (vf : Nat)
  | zero (page : Nat)
  | record (page offset : Nat)
deriving DecidableEq, Repr

/-- An accumulate request that the controller has not reported done (R16). `after` counts the coded writes that the lanes
had accepted when it was issued: those come before it. -/
structure AccReq where
  line : Nat
  be   : BitVec 256
  data : Line
  why  : AccWhy
  after : Nat := 0
deriving DecidableEq, Repr

/-! ## Regions (R33 to R40, R311) -/

/-- A region descriptor and its counts of the epoch. `frozen` is the value in force (R34, R254). -/
structure Region where
  w0      : W64 := 0
  w1      : W64 := 0
  frozen  : Bool := false
  nonfin  : W32 := 0
  satur   : W32 := 0
  zeros   : W32 := 0
  suppr   : W32 := 0
  evUncr  : Bool := false
  evLate  : Bool := false
  evFroz  : Bool := false
  evNonf  : Bool := false
  evExp   : Bool := false
deriving DecidableEq, Repr

/-! ## Valleys: commit path (R59 to R94) -/

/-- The phases of R59. -/
inductive Phase where
  | idle
  | opened
  | closing
  | halted
  | frozen
deriving DecidableEq, Repr

/-- What a Valley slot is to this engine (R265 to R269). -/
inductive SlotState where
  | undefined
  | defined
  | joining
  | standby
  | spare
  | joined
deriving DecidableEq, Repr

/-- The Valley's configuration registers (group 5). -/
structure VRegs where
  commit  : W32 := 0x00030800
  resend  : W64 := 0x00001388_000001F4
  peer    : W64 := 0x000007D0_000000C8
  hop     : W32 := 0x32
  t1trig  : W64 := 0x00000708_000000C8
  t2trig  : W32 := 0x7D0
  drain   : W64 := 0x00000006_0206000A
  lineage : W32 := 0
  t1ns    : W32 := 0
  t1lba   : W64 := 0
  t1lbas  : W64 := 0
  dmap    : W64 := 0
  expo    : W32 := 0x000C0001
  commitF : W32 := 0x00030800
  drainF  : W64 := 0x00000006_0206000A
deriving DecidableEq, Repr

/-- One entry of the member table (VALLEY_JOIN w5). -/
structure Member where
  node   : W16
  parity : Bool
deriving DecidableEq, Repr

/-- A Reach as seen by its sender (R85). -/
inductive SState where
  | clean
  | written
  | sealed
  | folded
deriving DecidableEq, Repr

/-- The sender's state of one Reach (R57, R61, R85). `issued` counts blocks by distance. -/
structure SReach where
  st       : SState := .clean
  issued   : Tab Nat := []
  pend     : W64 := 0
  comm     : W64 := 0
  held     : Bool := false
  evSealed : Bool := false
  evUnreb  : Bool := false
  unbuilt  : Bool := false
  lastStep : Option W64 := none
  lockEv   : Option W64 := none
deriving DecidableEq, Repr

/-- A seal entry held by a holder (R79), and when it arrived or was last answered by a resend report (R73). -/
structure SealEnt where
  count  : W32
  digest : W64
  step   : W64
  ts     : W64
deriving DecidableEq, Repr

/-- Holder state of one Reach for one epoch: seals and applied counts by distance d (R72, R79, R86). -/
structure HReach where
  seals   : Tab SealEnt := []
  applied : Tab Nat := []
  ready   : Bool := false
deriving DecidableEq, Repr

/-- A retained record (R101): the row sequence numbers, the unscaled block, whether it has been written
and where in the spill pool it lies. -/
structure Retained where
  reach   : Nat
  line    : Nat
  seqs    : List (Option W32)
  block   : List Byte
  written : Bool
  page    : Nat
  offset  : Nat
deriving DecidableEq, Repr

/-- The chain of spill pages that holds one Reach's retained records (R101). -/
structure RetChain where
  pages : List Nat := []
  fill  : Nat := 0
deriving DecidableEq, Repr

/-- An entry of an outbound ring (R101). -/
inductive OutEntry where
  | inline (seq : W32) (reach line row : Nat) (block : List Byte) (page : Nat)
  | ref (seq : W32) (reach line row : Nat)
  | sealed (reach : Nat) (count : W32) (digest step : W64)
deriving DecidableEq, Repr

/-- An outbound stream and its ring (R69, R70, R100, R101, R103): `page` is the staged page that fills, `fill` its bytes,
and `ends` the bytes in the staged pages that are full. -/
structure OutStream where
  next    : W32 := 0
  entries : List OutEntry := []
  page    : Option Nat := none
  fill    : Nat := 0
  ends    : Tab Nat := []
  descs   : List Nat := []
  deficit : Nat := 0
deriving DecidableEq, Repr

/-- A block that waits on an inbound ring (R104). -/
structure InBlock where
  reach : Nat
  line  : Nat
  epoch : W64
  diff  : Line
  size  : Nat
deriving DecidableEq, Repr

/-- An inbound stream (R71, R104): A, the received window, and its ring. -/
structure InStream where
  a       : W32 := 0
  win     : BitVec 256 := 0
  waiting : List InBlock := []
  pages   : List Nat := []
  fill    : Nat := 0
deriving DecidableEq, Repr

/-- A close report at the warden (R87). -/
structure CloseRep where
  step     : W64
  poisoned : Bool
deriving DecidableEq, Repr

/-- The warden's collections (R87). -/
structure Warden where
  landing  : W64 := 0
  readies  : Tab W64 := []
  closes   : Tab CloseRep := []
  drained  : W64 := 0
  landingB : Bool := false
  foldedB  : List Nat := []
  crossB   : Bool := false
  refused  : Option W16 := none
  done     : Bool := false
deriving DecidableEq, Repr

/-- A settle summary (R81, R93). -/
structure Summary where
  sender   : Nat
  epoch    : W64
  first    : W32
  landing  : Bool
  crossing : Bool
  recorded : Bool
  bitmap   : W64
deriving DecidableEq, Repr

/-- A Watershed record (R89). -/
structure WsRecord where
  number : W64
  step   : W64
  ts     : W64
  tag    : W16
  crossing : Bool
  folded : Nat
deriving DecidableEq, Repr

/-- A FENCE that waits (R92, R93). -/
structure FenceWait where
  cmd     : Cmd
  settle  : Bool
  since   : W64
  sent    : Bool
deriving DecidableEq, Repr

/-- A VALLEY_JOIN that waits (R267). -/
structure JoinWait where
  cmd     : Cmd
  since   : W64
  helloTs : W64
  matched : W64
  complete : W64
deriving DecidableEq, Repr

/-- A STAND_IN on the spare that waits (R142, R268). -/
structure SpareWait where
  cmd   : Cmd
  since : W64
  base  : W32
  hello : Bool
  got   : List Nat
  summary : Option Summary
deriving DecidableEq, Repr

/-- What this member knows of a peer (R119 to R125). -/
structure Peer where
  lastHeard : W64 := 0
  watchFrom : W64 := 0
  suspect   : Bool := false
  reported  : Bool := false
  acked     : Bool := false
  holdFrom  : Option W64 := none
  lastSent  : W64 := 0
deriving DecidableEq, Repr

/-! ## Valleys: rebuild, audit, comparison (R129 to R145, R220 to R230) -/

/-- A rebuild plan (R129). -/
structure Plan where
  num  : Nat
  lost : List Nat
  age  : Nat
deriving DecidableEq, Repr

/-- One identity group of a run: its base identity and the members excluded (R132, R139). -/
structure Group where
  ident : Nat
  excl  : List Nat
deriving DecidableEq, Repr

/-- A unit held by a participant: the partial tiles that have arrived, by row (R132, R134). -/
structure RUnit where
  target : Nat
  ident  : Nat
  sender : Nat
  rows   : Tab (List Line)
  ts     : W64
deriving DecidableEq, Repr

/-- A unit kept until an acknowledge covers it (R134, R135, R138). -/
structure Kept where
  target : Nat
  ident  : Nat
  succ   : Nat
  hop    : Nat
  rows   : List (List Line)
  first  : W64
  last   : W64
  upto   : W32
deriving DecidableEq, Repr

/-- What a run is for. -/
inductive RunKind where
  | rebuild
  | audit
  | contract
deriving DecidableEq, Repr

/-- A rebuild run, audit or contraction entry on this participant (R132 to R140, R145, R220). `dest` is the
member that solves, `tgt` the index whose position names a target: the destination, the lost index of a
contraction, or the auditor. `finished` pairs targets with the identity under which they were consumed, `passed` with
the identities under which they were sent; `owed` marks an ended audit whose digests are still to be recomputed. -/
structure Run where
  kind    : RunKind
  cmd     : Option Cmd
  plan    : Nat
  lost    : List Nat
  dest    : Nat
  tgt     : Nat
  groups  : List Group
  epoch   : W64
  scope   : List (Nat × Nat)
  window  : Nat
  demand  : Bool := false
  correct : Bool := false
  digest  : Bool := false
  base    : Nat := 0
  finished : List (Nat × Nat) := []
  passed  : List (Nat × Nat) := []
  owed    : Bool := false
  arrivals : Tab Nat := []
  recv    : List RUnit := []
  kept    : List Kept := []
  acked   : Tab W32 := []
  sent    : Tab W32 := []
  stalled : List Nat := []
  corrections : List (Nat × W64 × W64) := []
  nRecv   : Nat := 0
  nFwd    : Nat := 0
  nDrop   : Nat := 0
  maxRes  : W64 := 0
  maxAck  : W64 := 0
  maxAckBy : Nat := 0
  nDone   : Nat := 0
  nMis    : Nat := 0
  nCorr   : Nat := 0
  nSusp   : Nat := 0
  pages   : List Nat := []
deriving DecidableEq, Repr

/-- A rebuild-hop packet that waits for the egress scheduler (R82, R103). -/
structure HopOut where
  dst    : Nat
  ident  : Nat
  hop    : Nat
  reach  : Nat
  group  : Nat
  parity : Bool
  pos    : Nat
  tile   : List Line
deriving DecidableEq, Repr

/-- A comparison partner (R225, R228). -/
structure Partner where
  node   : W16
  tag    : W16
  index  : Nat
  differ : Nat := 0
  last   : W64 := 0
  raised : Option W64 := none
deriving DecidableEq, Repr

/-- Replica and lock-step comparison of a Valley (R225 to R230). -/
structure Compare where
  running  : Bool := false
  area     : Nat := 0
  partners : List Partner := []
  genStep  : Tab W64 := []
  lock     : Bool := false
  lockArea : Nat := 0
  lockPeer : Option Partner := none
deriving DecidableEq, Repr

/-! ## Valleys: Terraces and export (R151 to R209) -/

/-- A drain record read from, or written to, the drain table (R165), with the drain key that was derived when the nonce
was read or drawn (R283). -/
structure DrainRec where
  number  : Nat
  base    : Nat
  full    : Bool
  ws      : W64
  step    : W64
  lineage : W32
  shape   : W32
  lba     : Nat
  lbas    : Nat
  segs    : Nat
  tiles   : Nat
  nonce   : BitVec 128
  key     : BitVec 256 := 0
deriving DecidableEq, Repr

/-- Where a flash segment stands (R168). -/
inductive SegState where
  | formed
  | payload
  | flush
  | commit
  | done
deriving DecidableEq, Repr

/-- A flash segment of a drain that has been formed or begun (R165, R168, R170): its payload as sealed
and its commit record. A begun segment of an ended drain stands in `Io.oldSegs`. -/
structure Seg where
  num    : Nat
  ns     : W32
  lba    : Nat
  lbas   : Nat
  commit : Nat
  data   : List Byte
  record : List Byte
  digest : Bool
  st     : SegState
  waits  : List Nat
deriving DecidableEq, Repr

/-- A running Terrace 1 drain (R151 to R170). -/
structure T1Run where
  number  : Nat
  full    : Bool
  forT2   : Bool
  base    : Nat
  ws      : W64
  step    : W64
  lineage : W32
  shape   : W32
  nonce   : BitVec 128
  key     : BitVec 256
  ns      : W32
  lba     : Nat
  used    : Nat := 0
  left    : List (Nat × Nat)
  taken   : List (Nat × Nat × List Line) := []
  segs    : List Seg := []
  nextSeg : Nat := 0
  tiles   : Nat := 0
  digests : List (Nat × W64)
  digestMade : Bool := false
  recordTag : Option Nat := none
  waitFrom : Option W64 := none
  paused  : Bool := false
  shadow  : Tab (Nat × BitVec 16) := []
  pages   : List Nat := []
deriving DecidableEq, Repr

/-- What a Terrace job reads from flash: the namespace and log of the area, the drains in reading order, the
outstanding descriptor, and the blocks read so far by LBA. -/
structure FlashRead where
  ns     : W32
  lo     : Nat
  len    : Nat
  recs   : List DrainRec
  want   : List (Nat × Nat) := []
  tag    : Option Nat := none
  blocks : Tab (List W64) := []
deriving DecidableEq, Repr

/-- Terrace 1 orders and triggers of a Valley (R154 to R157, R161 to R164). `table` holds the records of the drain table,
`survey` the reading of their commit records, and `whole`, by drain number, the LBAs of the commit records of each drain
whose every segment has one (R167). -/
structure T1Order where
  standing : Bool := false
  wsCount  : Nat := 0
  timerTs  : W64 := 0
  pending  : Bool := false
  heldOne  : Bool := false
  asked    : Option Bool := none
  ranSince : Bool := false
  curB     : Bool := false
  table    : Option (List DrainRec) := none
  tableTag : Option Nat := none
  workLeft : Bool := false
  survey   : Option FlashRead := none
  whole    : Tab (List Nat) := []
deriving DecidableEq, Repr

/-- A layout entry of a Terrace 2 drain (R172). -/
structure LayoutEnt where
  slot   : Nat
  offset : Nat
  length : Nat
  tensor : W64
  start  : W64
deriving DecidableEq, Repr

/-- A Terrace 2 piece waiting to be put (R173). -/
structure Piece where
  seq    : Nat
  entry  : LayoutEnt
  first  : Nat
  bytes  : Nat
deriving DecidableEq, Repr

/-- A running Terrace 2 drain (R171 to R174). -/
structure T2Run where
  source  : DrainRec
  nonce   : BitVec 128
  srcKey  : BitVec 256
  key     : BitVec 256
  layout  : List LayoutEnt
  read    : FlashRead
  segAt   : Nat := 0
  tiles   : Tab (List Byte) := []
  pieces  : List Piece := []
  ready   : Bool := false
  waits   : List Nat := []
  pages   : List Nat := []
deriving DecidableEq, Repr

/-- Terrace 2 orders of a Valley (R154, R156, R157): the standing order's layout table (address and entries), and
the next drain's source with its layout table. -/
structure T2Order where
  standing : Option (Nat × Nat) := none
  wsCount  : Nat := 0
  pending  : Bool := false
  next     : Option (Nat × Nat × Nat) := none
  held     : Bool := false
deriving DecidableEq, Repr

/-- A destination map entry (R145, R177). -/
structure MapEnt where
  first : Nat
  count : Nat
  dest  : Nat
  base  : Nat
deriving DecidableEq, Repr

/-- A copy entry of a Terrace 2 restore (R178). -/
structure CopyEnt where
  tensor : W64
  start  : W64
  offset : Nat
  count  : Nat
  dest   : Nat
  sdest  : Nat
  typ    : Nat
  sblock : Nat
deriving DecidableEq, Repr

/-- The stage of a restore. -/
inductive RStage where
  | table
  | chain
  | headers
  | chunks
  | copies
deriving DecidableEq, Repr

/-- A chunk of a Terrace 2 object that a load has fetched (R179): the entry whose header names the object, the
chunk, the entry it was last fetched for, its plaintext, and its spill pages of the cached-fragment class. -/
structure Chunk where
  ent   : Nat
  num   : Nat
  use   : Nat
  bytes : List Byte
  pages : List Nat
deriving DecidableEq, Repr

/-- A running restore (R175 to R182). `cand` is the candidate being judged, `alt` counts its chains that were found
incomplete, `entry` the copy entry, or in a Terrace 1 load the segment, that is next; `mask` holds the candidates found
complete, `chains` the complete chain of each (Terrace 1), and `keys` the drain key of each object header read (R283). -/
structure Restore where
  id      : Nat
  terrace : Nat
  self    : Nat
  alpha   : W64 := 0
  probe   : Bool
  cands   : List (W64 × W32)
  map     : List MapEnt := []
  copies  : List CopyEnt := []
  seedAt  : Nat := 0
  seed    : List W64 := []
  node    : W16 := 0
  stage   : RStage
  cand    : Nat := 0
  alt     : Nat := 0
  chains  : Tab (List DrainRec) := []
  keys    : Tab (BitVec 256) := []
  entry   : Nat := 0
  mask    : Nat := 0
  steps   : Tab W64 := []
  read    : Option FlashRead := none
  passTag : Option Nat := none
  want    : List (Nat × Nat) := []
  heads   : Tab (List W64) := []
  chunks  : List Chunk := []
  copied  : Tab (List Byte) := []
  pages   : List Nat := []
deriving DecidableEq, Repr

/-- A seed table written by a completed load (R181). -/
structure SeedTab where
  base  : Nat
  v     : Nat
  ready : Bool
  pages : List Nat := []
deriving DecidableEq, Repr

/-- EXPORT_STATE (R201). -/
inductive ExpState where
  | none
  | running
  | incomplete
  | complete
deriving DecidableEq, Repr

/-- An engine coded write that an export or reanchor still has to make: the line and the bytes that
change in it (R195). `sent`: it has been presented to its lane. -/
structure EngWrite where
  line  : Nat
  bytes : List (Nat × Byte)
  sent  : Bool := false
deriving DecidableEq, Repr

/-- A frame of an export: its number, whether it was sent, and its sealed bytes (R199, R200). -/
structure Frame where
  num    : Nat
  key    : BitVec 256
  bytes  : List Byte
  tag    : Option Nat
  acked  : Bool
deriving DecidableEq, Repr

/-- A running OUTER_EXPORT or OUTER_REANCHOR (R195 to R206). -/
structure ExpJob where
  reanchor : Bool
  rep      : Bool
  round    : W64
  regions  : List Nat
  work     : List EngWrite
  frames   : List Frame
  stats    : Tab (List Nat)
  statAt   : Nat
  failed   : Option Nat := none
  pages    : List Nat := []
deriving DecidableEq, Repr

/-- Outer exchange of a Valley (R201, R205). `jobs` holds the running export, or the running reanchor and any
behind it. `resFrames` pairs each residual Reach with the frames of blocks
whose residual lies in it, `histReach` with the history Reaches of those blocks, for the seals of R198. `posted` gives the
frame number of each put of the round by descriptor tag, and `acks` the frames at or above P whose put has completed with
status 0 (R201). -/
structure Export where
  st     : ExpState := .none
  round  : W64 := 0
  prefixN : Nat := 0
  anchor : W64 := 0
  epoch  : W64 := 0
  resFrames : List (Nat × Nat) := []
  histReach : List (Nat × Nat) := []
  posted : List (Nat × Nat) := []
  acks   : List Nat := []
  jobs   : List ExpJob := []
deriving DecidableEq, Repr

/-- One Valley slot. -/
structure Valley where
  slot     : SlotState := .undefined
  tag      : W16 := 0
  n        : Nat := 0
  k        : Nat := 0
  m        : Nat := 0
  alpha    : W64 := 0
  regs     : VRegs := {}
  fn       : Byte := 0
  -- membership (R265 to R268)
  self     : Nat := 0
  parity   : Bool := false
  area     : Nat := 0
  areaLen  : Nat := 0
  members  : List Member := []
  live     : W64 := 0
  base     : W32 := 0
  firstEpoch : W64 := 0
  joinWait : Option JoinWait := none
  spareWait : Option SpareWait := none
  standIn  : Bool := false
  rmap     : Nat := 0
  -- commit path (R59 to R94)
  phase    : Phase := .idle
  epoch    : W64 := 0
  step     : W64 := 0
  opened   : Bool := false
  openHere : Bool := false
  poisoned : Bool := false
  landFold : Bool := false
  crossFold : Bool := false
  recorded : Bool := false
  ws       : Option WsRecord := none
  refusal  : Option W16 := none
  faulted  : Bool := false
  fenced   : Bool := false
  closeRep : Option CloseRep := none
  drainSent : Bool := false
  landSent : Bool := false
  closeWait : Option Cmd := none
  closeEpoch : W64 := 0
  fenceWait : Option FenceWait := none
  summaries : List Summary := []
  warden   : Warden := {}
  -- streams and Reaches
  reaches  : Tab SReach := []
  hold     : Tab HReach := []
  holdNext : Tab HReach := []
  commHold : Tab (Tab W64) := []
  pend     : Tab Nat := []
  outs     : Tab OutStream := []
  ins      : Tab InStream := []
  retained : List Retained := []
  chains   : Tab RetChain := []
  peers    : Tab Peer := []
  -- rebuild, comparison, Terraces, export
  plans    : List Plan := []
  planAge  : Nat := 0
  runs     : List Run := []
  oldRuns  : List Run := []
  hops     : List HopOut := []
  hopDef   : Tab Nat := []
  cmp      : Compare := {}
  t1       : Option T1Run := none
  t1o      : T1Order := {}
  t2       : Option T2Run := none
  t2o      : T2Order := {}
  restores : List Restore := []
  nextJob  : Nat := 0
  expo     : Export := {}
deriving DecidableEq, Repr

/-! ## Outputs and outstanding port work -/

/-- A digest entry (R83). -/
structure DigEnt where
  reach  : Nat
  tile   : W32
  digest : W64
deriving DecidableEq, Repr

/-- A join hello (R266). -/
structure Hello where
  complete : Bool
  parity   : Bool
  answer   : Bool
  shape    : W32
  base     : W32
  reaches  : W32
  n        : Nat
  k        : Nat
  m        : Nat
  alpha    : W64
deriving DecidableEq, Repr

/-- The content of a control transaction (R80, R81, R83). -/
inductive Msg where
  | reachReady (es : List (Nat × Bool))
  | landingReady (skew : Bool)
  | close (step : W64) (poisoned : Bool)
  | drained
  | resend (a : W32) (win : BitVec 256)
  | hopAck (ident : W16) (lines : W32)
  | reachFold (relay : Bool) (reaches : List Nat)
  | landingFold (relay : Bool)
  | crossingFold (relay : Bool)
  | watershed (step : W64)
  | settle (first : W32) (landing crossing recorded : Bool) (bitmap : W64)
  | refuse (status : W16)
  | digests (kind : Byte) (step : W64) (es : List DigEnt)
  | beacon (step : W64)
  | hello (h : Hello)
deriving DecidableEq, Repr

/-- A control transaction in the command, event and control staging partition (R103, R104). -/
structure CtlOut where
  v    : Nat
  node : W16
  tag  : W16
  from_ : Nat
  dest : Nat
  epoch : W64
  msg  : Msg
deriving DecidableEq, Repr

/-- A packet handed to the fabric (R17, R74); `aborted` marks the abort of R32 step 3. -/
structure TxPacket where
  chan  : Nat
  dst   : W16
  ptag  : W16
  cls   : BitVec 2
  abort : Bool
  flits : List Line
deriving DecidableEq, Repr

/-- What a host-memory write carried. -/
inductive HmSrc where
  | reply (q : Nat)
  | event
  | buffer
deriving DecidableEq, Repr

/-- A write on the host-memory master port: address in host space and 64-bit words. -/
structure HmWrite where
  src  : HmSrc
  addr : W64
  data : List W64
deriving DecidableEq, Repr

/-- Who posted a storage or Pass descriptor. -/
inductive PortOwner where
  | t1Table (v : Nat)
  | t1Survey (v : Nat)
  | t1Seg (v seg : Nat)
  | t1Record (v : Nat)
  | t2Source (v : Nat)
  | t2Piece (v seq : Nat)
  | restore (v idx : Nat)
  | frame (v num : Nat)
deriving DecidableEq, Repr

/-- A storage-port descriptor with its write data (R169). -/
structure StoDesc where
  op    : Byte
  fua   : Bool
  tag   : W16
  ns    : W32
  lba   : W64
  lbas  : W32
  data  : List Byte
  owner : PortOwner
  ts    : W64
deriving DecidableEq, Repr

/-- A Pass descriptor with its write data (R174, R200). -/
structure PassDesc where
  op     : Byte
  tag    : W16
  key    : BitVec 256
  offset : W64
  length : W64
  data   : List Byte
  owner  : PortOwner
  ts     : W64
deriving DecidableEq, Repr

/-- A Feivo asynchronous copy that is outstanding (R182), for the restore with identity `entry`. -/
structure AsyncCopy where
  v     : Nat
  node  : W16
  src   : Nat
  dst   : Nat
  len   : Nat
  entry : Nat
  scale : Bool
deriving DecidableEq, Repr

/-- Ports: what the engine has put out and what it waits for. Lists of past outputs hold the newest
first. `writes` counts the coded writes that the lanes have accepted (R16); `accLane` holds, by lane, how many accumulates
it has presented and when the last (R295). -/
structure Io where
  ctlOut  : List CtlOut := []
  tx      : List TxPacket := []
  hm      : List HmWrite := []
  irqMsg  : List (Nat × Byte) := []
  rsp     : Option (BitVec 2 × W64) := none
  sto     : List StoDesc := []
  stoLog  : List StoDesc := []
  stoTag  : Nat := 0
  oldSegs : List Seg := []
  pass    : List PassDesc := []
  passLog : List PassDesc := []
  passTag : Nat := 0
  copies  : List AsyncCopy := []
  arrived : Nat := 0
  acc     : List AccReq := []
  writes  : Nat := 0
  accLane : Tab (Nat × W64) := []
  drrAt   : Tab Nat := []
deriving DecidableEq, Repr

/-- The engine. -/
structure Eng where
  side    : Side := {}
  ctl     : Ctl := {}
  regs    : Regs := {}
  cnt     : Counters := {}
  lanes   : Tab Lane := []
  basin   : Basin := {}
  spill   : Spill := {}
  regions : Tab Region := []
  valleys : Tab Valley := []
  seeds   : List SeedTab := []
  io      : Io := {}
deriving DecidableEq, Repr

/-- The machine: the waiting commands, first in, first out (the model's own field, see
notes/assumptions/1.md), package memory as sparse bytes, and the engine. -/
structure State where
  pending : List Instr
  mem     : List Host.Cell
  eng     : Eng
deriving DecidableEq, Repr

/-- Reasons a step can stop with a fault. Each is an input that the spec forbids to the part of the
package that drives the port, so that the engine has no described answer to it. -/
inductive Fault where
  /-- Raised by OLD_LINE_RETURN when no old line is asked for on the lane (R13). Safe: the run stops. -/
  | oldLineUnasked
  /-- Raised by ACC_DONE when no accumulate request to the line is outstanding (R16). Safe: the run
  stops. -/
  | accDoneUnasked
  /-- Raised by CODED_WRITE when the lane has no room left for it, against R15 (the controller must not
  present it) and R106. Safe: the run stops. -/
  | laneOverrun
deriving DecidableEq, Repr

/-- Reasons a step can refuse a command. -/
inductive Refusal where
  /-- Raised only by a refused arm of exec: a command without a meaning. Safe: nothing is claimed. -/
  | notModelled (mnemonic : String)
deriving DecidableEq, Repr

/-- The machine right after a power-on reset: every domain in reset, release step 1 running, memory
with nothing listed, no command waiting (R30, R31). -/
def State.reset : State := { pending := [], mem := [], eng := {} }

end Sys2Proof.Machine
end

