-- ==== Sys2Proof/Machine/Operands.lean ====
section
/-!
DEFINITION. Machine/Operands.lean: the fields of packets, registers and descriptors: every operand form.
-/

namespace Sys2Proof.Machine

/-! ## Statuses (R251) -/

def stOK : W16 := 0x0000
def stAccepted : W16 := 0x0001
def stConfigLocked : W16 := 0x0100
def stBadOpcode : W16 := 0x0101
def stBadVersion : W16 := 0x0102
def stOutOfRange : W16 := 0x0103
def stStepSkew : W16 := 0x0200
def stMixed : W16 := 0x0201
def stFrozenWrite : W16 := 0x0202
def stPoisoned : W16 := 0x0203
def stPeerTimeout : W16 := 0x0300
def stFenceTimeout : W16 := 0x0301
def stTooFew : W16 := 0x0302
def stHoldupLow : W16 := 0x0400
def stDenied : W16 := 0x0500
def stRevoked : W16 := 0x0501

/-! ## The command packet's word 0 (R240) -/

def pkOp (p : BitVec 512) : Byte := p.extractLsb' 0 8
def pkVersion (p : BitVec 512) : Nat := fld p 8 4
def pkNoIrq (p : BitVec 512) : Bool := bit p 12
def pkOrdered (p : BitVec 512) : Bool := bit p 13
def pkA (p : BitVec 512) : Bool := bit p 14
def pkB (p : BitVec 512) : Bool := bit p 15
def pkTag (p : BitVec 512) : W16 := p.extractLsb' 16 16
def pkValley (p : BitVec 512) : Nat := fld p 32 4

/-- Field [lo + w - 1 : lo] of parameter word `i`. -/
def pkf (p : BitVec 512) (i lo w : Nat) : Nat := fld (pkw p i) lo w

/-- The command context of a packet taken from queue `q`. -/
def cmdOf (q : Nat) (p : BitVec 512) : Cmd := { q := q, tag := pkTag p, op := pkOp p, noIrq := pkNoIrq p }

/-! ## Address parameters (R241) -/

/-- Does the address name host space? -/
def isHost (a : W64) : Bool := bit a 63

/-- The address without its space bit. -/
def addrOf (a : W64) : Nat := fld a 0 63

/-- May the address be used for `len` bytes at alignment `al`? A package address must be one that package
memory has (notes/assumptions/7.md). -/
def addrOk (a : W64) (al len pkgSize : Nat) : Bool :=
  if isHost a then decide (addrOf a % al = 0)
  else decide (addrOf a % al = 0 ∧ fld a 41 22 = 0 ∧ addrOf a + len ≤ pkgSize)

/-! ## Region descriptors (R33) -/

def Region.base (r : Region) : Nat := 4096 * fld r.w0 0 29
def Region.tiles (r : Region) : Nat := fld r.w0 32 32
def Region.empty (r : Region) : Bool := decide (Region.tiles r = 0)
def Region.valley (r : Region) : Nat := fld r.w1 0 4
def Region.typ (r : Region) : Nat := fld r.w1 8 3
def Region.cls (r : Region) : Nat := fld r.w1 12 3
def Region.frozenBit (r : Region) : Bool := bit r.w1 15
def Region.reachCode (r : Region) : Nat := if fld r.w1 16 4 = 0 then 6 else fld r.w1 16 4
def Region.sblock (r : Region) : Nat := fld r.w1 24 8
def Region.slot (r : Region) : Nat := fld r.w1 32 10
def Region.side (r : Region) : Nat := fld r.w1 48 10

/-- Region classes (R38). -/
def clsState : Nat := 0
def clsLanding : Nat := 1
def clsAnchor : Nat := 2
def clsResidual : Nat := 3
def clsCursor : Nat := 4

/-! ## Valley configuration fields (R66, R149, R184, R208, group 5) -/

/-- Reach fold (false) or crossing fold (true), as in force. -/
def Valley.crossMode (x : Valley) : Bool := bit x.regs.commitF 0
def Valley.reachWindow (x : Valley) : Nat := fld x.regs.commitF 8 7
def Valley.autoSeal (x : Valley) : Bool := bit x.regs.commitF 16
def Valley.guard (x : Valley) : Bool := bit x.regs.commitF 17
/-- Times in nanoseconds. -/
def Valley.resendDelay (x : Valley) : Nat := 1000 * fld x.regs.resend 0 16
def Valley.fenceTimeout (x : Valley) : Nat := 1000 * fld x.regs.resend 32 32
def Valley.peerTimeout (x : Valley) : Nat := 1000 * fld x.regs.peer 0 32
def Valley.suspectHoldoff (x : Valley) : Nat := 1000 * fld x.regs.peer 32 32
def Valley.hopTimeout (x : Valley) : Nat := 1000 * x.regs.hop.toNat
def Valley.t1EveryWs (x : Valley) : Nat := fld x.regs.t1trig 0 16
def Valley.t1EveryTime (x : Valley) : Nat := 1000000000 * fld x.regs.t1trig 32 17
def Valley.t2EveryWs (x : Valley) : Nat := fld x.regs.t2trig 0 20
def Valley.fullEvery (x : Valley) : Nat := fld x.regs.drainF 0 8
def Valley.segTiles (x : Valley) : Nat := 256 * 2 ^ fld x.regs.drainF 16 4
def Valley.segInflight (x : Valley) : Nat := fld x.regs.drain 24 3
def Valley.pieceMax (x : Valley) : Nat := 1048576 * 2 ^ fld x.regs.drainF 32 4
def Valley.drainMap (x : Valley) : Nat := 4096 * fld x.regs.dmap 12 29
def Valley.exportBlock (x : Valley) : Nat := 16 * 2 ^ fld x.regs.expo 0 2
def Valley.frameBlocks (x : Valley) : Nat := 2 ^ fld x.regs.expo 16 5

/-! ## Engine configuration fields (group 2, 7, 10) -/

def Regs.spillBytes (r : Regs) : Nat := 2097152 * fld r.spillSize 0 18
def Regs.spillAddr (r : Regs) : Nat := 2097152 * fld r.spillBase 21 20
def Regs.spillPages (r : Regs) : Nat := 512 * fld r.spillSize 0 18
/-- The quota of a use class in pages (R112). -/
def Regs.quota (r : Regs) : SpillClass → Nat
  | .retention => fld r.quotaRet 0 27
  | .pending => fld r.quotaPend 0 27
  | .shadow => fld r.quotaShad 0 27
  | .cache => fld r.quotaCache 0 27
def Regs.shadowPolicy (r : Regs) : Bool := bit r.flow 0
def Regs.demoteMark (r : Regs) : Nat := fld r.flow 16 13
def Regs.hmTimeout (r : Regs) : Nat := 1000 * fld r.timeouts 0 17
def Regs.joinTimeout (r : Regs) : Nat := 1000000 * fld r.timeouts 32 16
def Regs.suspectGapNs (r : Regs) : Nat := 1000 * fld r.suspectGap 0 14
def Regs.portTimeout (r : Regs) : Port → Nat
  | .storage => 1000000 * fld r.portTime 0 16
  | .pass => 1000000 * fld r.portTime 16 16
def Regs.pollPeriod (r : Regs) : Nat := 1000 * fld r.sideband 16 16
def Regs.staleness (r : Regs) : Nat := 1000000 * fld r.sideband 32 16
def Regs.holdupCost (r : Regs) : Nat := fld r.holdup 0 16
def Regs.holdupMargin (r : Regs) : Nat := fld r.holdup 16 16
def Regs.holdupWait (r : Regs) : Nat := 1000000 * fld r.holdup 32 16
def Regs.wm (r : Regs) (i : Nat) : W32 := Tab.get 0x6040 r.laneWm i
def Regs.wmLow (r : Regs) (i : Nat) : Nat := fld (Regs.wm r i) 0 7
def Regs.wmHigh (r : Regs) (i : Nat) : Nat := fld (Regs.wm r i) 8 7
def Regs.bucketSize (r : Regs) : Nat := fld r.bucket 0 16
def Regs.bucketLeakNs (r : Regs) : Nat := 1000 * fld r.bucket 32 20
def Regs.patrolGap (r : Regs) : Nat := fld r.patrol 0 17
def Regs.remapThresh (r : Regs) : Nat := fld r.patrol 32 4
def Regs.candDecayNs (r : Regs) : Nat := 1000000 * fld r.patrol 48 16
def Regs.laneGateIdle (r : Regs) : Nat := fld r.laneGate 0 17
/-- Bank counts in the order of R97. -/
def Regs.banks (r : Regs) (p : Nat) : Nat := fld r.basinPart (8 * p) 6

/-! ## The transaction header (R74) -/

/-- The common header of a received packet, with its two per-type words. -/
structure Hdr where
  typ     : Nat
  version : Nat
  tag     : W16
  sender  : Nat
  recv    : Nat
  count   : Nat
  flits   : Nat
  epoch   : W64
  w2      : W64
  w3      : W64
deriving DecidableEq, Repr

/-- Read the header from a packet's first flit. -/
def hdrOf (p : RxPacket) : Hdr :=
  let l := p.flits.headD 0
  let w := Line.word l 0
  { typ := fld w 0 8, version := fld w 8 4, tag := w.extractLsb' 16 16, sender := fld w 32 6
    recv := fld w 40 6, count := fld w 48 8, flits := fld w 56 8
    epoch := Line.word l 1, w2 := Line.word l 2, w3 := Line.word l 3 }

/-- The bytes after the header. -/
def bodyOf (p : RxPacket) : List Byte := (p.flits.flatMap Line.bytes).drop 32

/-- Entry `i` of `sz` bytes. -/
def entryAt (body : List Byte) (sz i : Nat) : List Byte := (body.drop (sz * i)).take sz

/-- A number in bytes [lo, lo + n) of an entry (R4). -/
def enum (e : List Byte) (lo n : Nat) : Nat := bytesNat ((e.drop lo).take n)

/-- Header word 0 (R74). -/
def hdrWord0 (typ : Nat) (tag : W16) (sender recv count flits : Nat) : W64 :=
  pack [(0, typ), (8, 1), (16, tag.toNat), (32, sender), (40, recv), (48, count), (56, flits)]

/-- The flits of a transaction: header, then entry bytes, then zeros to the end of the last flit. -/
def flitsOf (typ : Nat) (tag : W16) (sender recv count : Nat) (epoch w2 w3 : W64) (body : List Byte) :
    List Line :=
  let n := (32 + body.length + 255) / 256
  let bs := wordsBytes [hdrWord0 typ tag sender recv count n, epoch, w2, w3] ++ body
  (chop 256 n bs).map Line.ofBytes

/-- Entry `i` (four 16-bit-aligned 64-bit words at most) of a parameter list given as 64-bit words. -/
def lword (ws : List W64) (i : Nat) : W64 := ws.getD i 0

end Sys2Proof.Machine
end

