-- ==== Sys2Proof/Machine/Flags.lean ====
section
/-!
DEFINITION. Machine/Flags.lean: status bits, counters, interrupts and the event ring (R23, R124, R244 to
R246, R276, R305, R306), and accessors of the tables of `Eng`.
-/

namespace Sys2Proof.Machine

/-! ## Accessors -/

def getV (e : Eng) (v : Nat) : Valley := Tab.get {} e.valleys v
def setV (e : Eng) (v : Nat) (x : Valley) : Eng := { e with valleys := Tab.set e.valleys v x }
def updV (e : Eng) (v : Nat) (f : Valley → Valley) : Eng := setV e v (f (getV e v))
def getLane (e : Eng) (i : Nat) : Lane := Tab.get {} e.lanes i
def updLane (e : Eng) (i : Nat) (f : Lane → Lane) : Eng :=
  { e with lanes := Tab.set e.lanes i (f (getLane e i)) }
def getQ (e : Eng) (q : Nat) : Queue := Tab.get {} e.ctl.queues q
def updQ (e : Eng) (q : Nat) (f : Queue → Queue) : Eng :=
  { e with ctl := { e.ctl with queues := Tab.set e.ctl.queues q (f (getQ e q)) } }
def getR (e : Eng) (d : Nat) : Region := Tab.get {} e.regions d
def updR (e : Eng) (d : Nat) (f : Region → Region) : Eng :=
  { e with regions := Tab.set e.regions d (f (getR e d)) }
def updEvt (e : Eng) (f : EvtRing → EvtRing) : Eng := { e with ctl := { e.ctl with evt := f e.ctl.evt } }
def updIo (e : Eng) (f : Io → Io) : Eng := { e with io := f e.io }

/-! ## Counters and GSTATUS bits -/

/-- Count one drop of cause `c` (group 9 DROP[c]). -/
def drop (e : Eng) (c : Nat) : Eng :=
  { e with cnt := { e.cnt with drop := Tab.upd 0 e.cnt.drop c satInc } }

/-- Count `n` drops of cause `c`. -/
def dropN (e : Eng) (c n : Nat) : Eng :=
  { e with cnt := { e.cnt with drop := Tab.upd 0 e.cnt.drop c (satAdd · n) } }

/-- Count one refusal at target `t`: 0 register file, 1 Basin, 2 fabric ingress, 3 storage port (R276). -/
def refuseAt (e : Eng) (t : Nat) : Eng :=
  { e with cnt := { e.cnt with refuse := Tab.upd 0 e.cnt.refuse t satInc } }

/-- Set the configuration-error bit of GSTATUS. -/
def cfgError (e : Eng) : Eng := { e with ctl := { e.ctl with cfgErr := true } }

/-- Set the config-locked bit of GSTATUS (R253). -/
def cfgLock (e : Eng) : Eng := { e with ctl := { e.ctl with cfgLocked := true } }

/-! ## Interrupts (R23, R124) -/

/-- The function that owns a vector: the queue's owner for 0 to 63, else the physical function. -/
def vecOwner (e : Eng) (vec : Nat) : Byte := if vec < 64 then (getQ e vec).owner else 0

/-- Send a message on a vector unless one is unacknowledged (R23). -/
def sendIrq (e : Eng) (vec : Nat) : Eng :=
  if bit e.ctl.irq vec then e
  else { e with ctl := { e.ctl with irq := setBit e.ctl.irq vec }
                io := { e.io with irqMsg := (vec, vecOwner e vec) :: e.io.irqMsg } }

/-- Take the newest message of a vector back, if it is not acknowledged: what it stood for was not written (R238, R239). -/
def withdrawIrq (e : Eng) (vec : Nat) : Eng :=
  if bit e.ctl.irq vec then
    { e with ctl := { e.ctl with irq := clrBit e.ctl.irq vec }
             io := { e.io with irqMsg := e.io.irqMsg.eraseP fun m => decide (m.1 = vec) } }
  else e

/-- Vector 66 is sent at most once per SUSPECT_IRQ_GAP; an event within the gap, or while the vector is
not acknowledged, leaves one message due (R124). -/
def sendIrq66 (e : Eng) : Eng :=
  let inGap : Bool := match e.ctl.irq66Ts with
    | some t => decide ((e.side.ts - t).toNat < Regs.suspectGapNs e.regs)
    | none => false
  if inGap ∨ bit e.ctl.irq 66 then { e with ctl := { e.ctl with irq66Due := true } }
  else
    let e1 := sendIrq e 66
    { e1 with ctl := { e1.ctl with irq66Ts := some e.side.ts, irq66Due := false } }

/-! ## Free values (notes/assumptions/6.md) -/

/-- Take one 64-bit value that the spec leaves open. -/
def freeWord (e : Eng) : W64 × Eng :=
  (Config.freeWord e.ctl.freeCount, { e with ctl := { e.ctl with freeCount := e.ctl.freeCount + 1 } })

/-- Take one 256-byte word that the spec leaves open. -/
def freeLine (e : Eng) : Line × Eng :=
  (Config.freeLine e.ctl.freeCount, { e with ctl := { e.ctl with freeCount := e.ctl.freeCount + 1 } })

/-! ## The event ring (R244, R245) -/

/-- Ring size. -/
def evtSize (e : Eng) : Nat := 2 ^ fld e.ctl.evt.ctrl 0 4

/-- Is the ring enabled (EVT_CTRL [8])? -/
def evtEnabled (e : Eng) : Bool := bit e.ctl.evt.ctrl 8

/-- Does the ring hold all it may: it always keeps one entry free. -/
def evtFull (e : Eng) : Bool :=
  decide ((e.ctl.evt.next + evtSize e - e.ctl.evt.consumed) % evtSize e = evtSize e - 1)

/-- The vector of an event code. -/
def evtVector (code : W16) : Nat :=
  if code = 0x0030 ∨ code = 0x0031 then 66
  else if code = 0x0070 ∨ code = 0x0071 then 65
  else if code.toNat / 16 = 9 then 67 else 64

/-- Write one record into the ring and send its vector. -/
def evtWrite (e : Eng) (r : EvRec) : Eng :=
  let ev := e.ctl.evt
  let w0 := pack [(0, r.code.toNat), (16, r.status.toNat), (32, (r.valley.getD 0)), (36, b2n r.valley.isSome),
    (40, r.fn.toNat), (48, r.seq), (63, b2n ev.phase)]
  let addr := addrOf ev.base + 32 * ev.next
  let nxt := (ev.next + 1) % evtSize e
  let e1 := updIo e fun io =>
    { io with hm := { src := .event, addr := BitVec.ofNat 64 addr, data := [w0, r.ts, r.r0, r.r1] } :: io.hm }
  let v := evtVector r.code
  let e2 := updEvt e1 fun ev =>
    { ev with next := nxt, phase := if nxt = 0 then !ev.phase else ev.phase
              messaged := if v = 66 ∨ bit e.ctl.irq v then none else some v }
  if v = 66 then sendIrq66 e2 else sendIrq e2 v

/-- The record in an event's words. -/
def recOf (ws : List W64) : EvRec :=
  let w := lword ws 0
  { code := w.extractLsb' 0 16, status := w.extractLsb' 16 16, valley := if bit w 36 then some (fld w 32 4) else none
    fn := w.extractLsb' 40 8, seq := fld w 48 15, ts := lword ws 1, r0 := lword ws 2, r1 := lword ws 3 }

/-- May the next record go straight to the ring? In Retention the host-memory port stands still (R296). -/
def evtOpen (e : Eng) : Bool := evtEnabled e && !evtFull e && !e.ctl.evt.stalled && decide (e.side.pwrState ≠ 2)

/-- Give a record its sequence number. -/
def evtNumber (e : Eng) (r : EvRec) : Eng × EvRec :=
  (updEvt e fun ev => { ev with seq := (ev.seq + 1) % 32768 }, { r with seq := e.ctl.evt.seq, ts := e.side.ts })

/-- Write the held records while entries are free, EVENTS_LOST first after any discard (R244). -/
def evtFlush : Nat → Eng → Eng
  | 0, e => e
  | fuel + 1, e =>
    if !evtOpen e then e
    else if e.ctl.evt.lost > 0 then
      let r0 : EvRec := { code := 0x0010, status := 0, valley := none, fn := 0, seq := 0, ts := 0
                          r0 := BitVec.ofNat 64 e.ctl.evt.lost, r1 := BitVec.ofNat 64 e.ctl.evt.firstLost }
      let (e1, r) := evtNumber e r0
      evtFlush fuel (evtWrite (updEvt e1 fun ev => { ev with lost := 0, firstLost := 0 }) r)
    else match e.ctl.evt.held with
      | [] => e
      | r :: rest => evtFlush fuel (evtWrite (updEvt e fun ev => { ev with held := rest }) r)

/-- The events hold of the Basin (R244). -/
def evtHoldMax : Nat := 16384

/-- Produce an event that concerns the partition of function `fn`: to the ring, to the hold, or discarded and counted
(R244, R245). -/
def raiseFn (e : Eng) (fn : Byte) (code status : W16) (valley : Option Nat) (r0 r1 : W64) : Eng :=
  let (e1, r) := evtNumber e
    { code := code, status := status, valley := valley, fn := fn, seq := 0, ts := 0, r0 := r0, r1 := r1 }
  if evtOpen e1 && e1.ctl.evt.held.isEmpty && e1.ctl.evt.lost = 0 then evtWrite e1 r
  else if e1.ctl.evt.held.length < evtHoldMax then
    let e2 := updEvt e1 fun ev => { ev with held := ev.held ++ [r] }
    evtFlush (e2.ctl.evt.held.length + 1) e2
  else
    let e2 := drop e1 27
    updEvt e2 fun ev =>
      { ev with lost := ev.lost + 1, firstLost := if ev.lost = 0 then r.seq else ev.firstLost }

/-- Produce an event of a Valley, which concerns the partition that holds its slot, or of none (R245). -/
def raise (e : Eng) (code status : W16) (valley : Option Nat) (r0 r1 : W64) : Eng :=
  raiseFn e (match valley with
    | some v => (getV e v).fn
    | none => 0) code status valley r0 r1

/-- Event codes. -/
def evQueueFault : W16 := 0x0011
def evWatershed : W16 := 0x0020
def evFrozenWrite : W16 := 0x0021
def evUncrossed : W16 := 0x0022
def evLateLanding : W16 := 0x0023
def evSealedWrite : W16 := 0x0024
def evNonfinite : W16 := 0x0025
def evRefused : W16 := 0x0026
def evFenceExpired : W16 := 0x0027
def evPeerSuspect : W16 := 0x0030
def evPeerResumed : W16 := 0x0031
def evRebuildStall : W16 := 0x0032
def evRebuildMismatch : W16 := 0x0033
def evUnrebuilt : W16 := 0x0034
def evStagingFault : W16 := 0x0040
def evSpillExhausted : W16 := 0x0041
def evDrainAbandoned : W16 := 0x0042
def evDrainDone : W16 := 0x0050
def evHoldupPause : W16 := 0x0051
def evDrainHeld : W16 := 0x0052
def evRestoreDone : W16 := 0x0053
def evOuterDone : W16 := 0x0060
def evOuterNonfinite : W16 := 0x0061
def evExportWrite : W16 := 0x0062
def evBasinCorrected : W16 := 0x0070
def evBasinFault : W16 := 0x0071
def evRowRemapped : W16 := 0x0072
def evRemapFull : W16 := 0x0073
def evStripeSuspect : W16 := 0x0074
def evStripeCorrected : W16 := 0x0075
def evDigestMismatch : W16 := 0x0076
def evJoinMismatch : W16 := 0x0080
def evKeysZeroed : W16 := 0x0090
def evRngFault : W16 := 0x0091
def evPowerMismatch : W16 := 0x0092
def evDebugLevel : W16 := 0x0093

end Sys2Proof.Machine
end

