-- ==== Sys2Proof/Machine/Mem.lean ====
section
/-!
DEFINITION. Machine/Mem.lean: package memory (R4, R11, R16, R99) as a canonical list of address and
byte pairs: addresses strictly rising, no byte listed that equals what an unlisted address reads as.
An unlisted address reads as zero (DESIGN CHOICE, notes/assumptions/3.md).
-/

namespace Sys2Proof.Machine

/-- Package memory. -/
abbrev Mem := List Host.Cell

/-- What an address that nothing lists reads as (notes/assumptions/3.md). -/
def Mem.unlisted : Byte := 0

/-- The size of package memory in bytes: 1,536 GiB (R11, R35). -/
def pkgBytes : Nat := 0x180_0000_0000

/-- The canonical form, from a lowest admissible address on. -/
def Mem.wfFrom : Nat → Mem → Bool
  | _, [] => true
  | lo, (a, b) :: r => decide (lo ≤ a) && decide (b ≠ Mem.unlisted) && Mem.wfFrom (a + 1) r

/-- The canonical form of memory. -/
def Mem.wf (m : Mem) : Bool := Mem.wfFrom 0 m

/-- Read one byte. -/
def Mem.get (m : Mem) (a : Nat) : Byte := Tab.get Mem.unlisted m a

/-- Write one byte, keeping the canonical form. -/
def Mem.put (m : Mem) (a : Nat) (b : Byte) : Mem :=
  if b = Mem.unlisted then Tab.del m a else Tab.set m a b

/-- The cells of one line, so that reads of its bytes look at few cells. -/
def Mem.slice (m : Mem) (a n : Nat) : Mem := m.filter fun c => decide (a ≤ c.1) && decide (c.1 < a + n)

/-- Read `n` bytes from address `a`. -/
def Mem.bytes (m : Mem) (a n : Nat) : List Byte :=
  let c := Mem.slice m a n
  (List.range n).map fun i => Mem.get c (a + i)

/-- Read line `l` (line addresses are byte addresses without their low eight bits, R11). -/
def Mem.line (m : Mem) (l : Nat) : Line := Line.ofBytes (Mem.bytes m (256 * l) 256)

/-- XOR a line's bytes where enabled: the one atomic read-modify-write of R16. -/
def Mem.xorLine (m : Mem) (l : Nat) (be : BitVec 256) (d : Line) : Mem :=
  (List.range 256).foldl
    (fun m i => if bit be i then Mem.put m (256 * l + i) (Mem.get m (256 * l + i) ^^^ Line.byte d i) else m) m

/-- Write a line's bytes where enabled: a coded write as the controller performs it (R11, R14). -/
def Mem.writeLine (m : Mem) (l : Nat) (be : BitVec 256) (x : Line) : Mem :=
  (List.range 256).foldl
    (fun m i => if bit be i then Mem.put m (256 * l + i) (Line.byte x i) else m) m

/-- Write bytes from address `a` on (a Feivo asynchronous copy into the engine's own memory, R182). -/
def Mem.writeBytes (m : Mem) : Nat → List Byte → Mem
  | _, [] => m
  | a, b :: r => Mem.writeBytes (Mem.put m a b) (a + 1) r

end Sys2Proof.Machine
end

