-- ==== Sys2Proof/Machine/Ops.lean ====
section
/-!
DEFINITION. Machine/Ops.lean: the named operations over package memory, host memory, the completion rings
and the Basin's pages. An operation reads package memory `m` but never changes it: the engine writes it
only by accumulate requests (R99), which ACC_DONE performs.
-/

namespace Sys2Proof.Machine

/-! ## Loads and accumulates (R16, R99) -/

/-- The sum of the outstanding accumulate requests to a line. -/
def accSum (acc : List AccReq) (l : Nat) : Line :=
  acc.foldl (fun s r => if r.line = l then s ^^^ (r.data &&& beMask r.be) else s) 0

/-- What a loopback load of line `l` gives once the accumulates already issued to it are performed. -/
def loadLine (m : Mem) (e : Eng) (l : Nat) : Line := Mem.line m l ^^^ accSum e.io.acc l

/-- Issue one accumulate request through the lane of its line: it comes after every coded write that the lanes have
accepted (R16), and the lane is not idle (R295). -/
def accum (e : Eng) (l : Nat) (be : BitVec 256) (d : Line) (why : AccWhy) : Eng :=
  updIo e fun io =>
    { io with acc := io.acc ++ [{ line := l, be := be, data := d, why := why, after := io.writes }]
              accLane := Tab.upd (0, 0) io.accLane (Config.laneOf l).val fun p => (p.1 + 1, e.side.ts) }

/-- Accumulate a difference over its non-zero bytes; a zero difference issues nothing. -/
def accumDiff (e : Eng) (l : Nat) (d : Line) (why : AccWhy) : Eng :=
  if d = 0 then e else accum e l (nzMask d) d why

/-- Change line `l` into `x` where enabled: read c, accumulate c xor x (R99, second way). -/
def setLine (m : Mem) (e : Eng) (l : Nat) (be : BitVec 256) (x : Line) (why : AccWhy) : Eng :=
  accumDiff e l ((loadLine m e l ^^^ x) &&& beMask be) why

/-- Spread bytes from address `a` over lines: line number, byte enables, data. -/
def spread (a : Nat) (bs : List Byte) : List (Nat × BitVec 256 × Line) :=
  if bs = [] then []
  else
    let l0 := a / 256
    let n := (a % 256 + bs.length + 255) / 256
    let all := (List.replicate (a % 256) (0 : Byte)) ++ bs
    let on := (List.replicate (a % 256) false) ++ bs.map fun _ => true
    (List.range n).map fun i =>
      (l0 + i,
       ((on.drop (256 * i)).take 256).zipIdx.foldl (fun (m : BitVec 256) (b, j) => if b then setBit m j else m) 0,
       Line.ofBytes ((all.drop (256 * i)).take 256))

/-- Accumulate bytes from address `a` on, into memory known to read zero or as a known difference (R99). -/
def accumBytes (e : Eng) (a : Nat) (bs : List Byte) (why : AccWhy) : Eng :=
  (spread a bs).foldl (fun e (l, _, d) => accumDiff e l d why) e

/-- Set bytes from address `a` on to given values (R99, second way). -/
def setBytes (m : Mem) (e : Eng) (a : Nat) (bs : List Byte) : Eng :=
  (spread a bs).foldl (fun e (l, be, x) => setLine m e l be x .plain) e

/-- Load bytes as the engine sees them. -/
def loadBytes (m : Mem) (e : Eng) (a n : Nat) : List Byte :=
  if n = 0 then []
  else
    let l0 := a / 256
    let k := (a % 256 + n + 255) / 256
    (((List.range k).flatMap fun i => Line.bytes (loadLine m e (l0 + i))).drop (a % 256)).take n

/-- Load `n` 64-bit words. -/
def loadWords (m : Mem) (e : Eng) (a n : Nat) : List W64 := bytesWords (loadBytes m e a (8 * n))

/-- Load the sixteen lines of a tile at byte address `a`. -/
def loadTile (m : Mem) (e : Eng) (a : Nat) : List Line :=
  (List.range 16).map fun i => loadLine m e (a / 256 + i)

/-- The lines of package memory in [a, a + n) that list a byte or have an accumulate outstanding. -/
def touchedLines (m : Mem) (e : Eng) (a n : Nat) : List Nat :=
  let here (l : Nat) : Bool := decide (a / 256 ≤ l ∧ l < (a + n + 255) / 256)
  ((m.map (·.1 / 256)).filter here ++ (e.io.acc.map (·.line)).filter here).eraseDups

/-- Zero the range [a, a + n): each line is loaded and accumulated into itself (R99). -/
def zeroRange (m : Mem) (e : Eng) (a n : Nat) (why : AccWhy) : Eng :=
  (touchedLines m e a n).foldl (fun e l => accumDiff e l (loadLine m e l) why) e

/-- Does the range [a, a + n) read zero? -/
def readsZero (m : Mem) (e : Eng) (a n : Nat) : Bool := (touchedLines m e a n).all fun l => loadLine m e l = 0

/-! ## Parameter lists and records (R241) -/

/-- A parameter list of `n` words: the words the host read returned, or a load from package memory. -/
def paramWords (m : Mem) (e : Eng) (a : W64) (n : Nat) (host : List W64) : List W64 :=
  if isHost a then (host ++ List.replicate (n - host.length) 0).take n else loadWords m e (addrOf a) n

/-- Write a record of words to an address parameter. -/
def writeParam (m : Mem) (e : Eng) (a : W64) (ws : List W64) : Eng :=
  if isHost a then
    updIo e fun io =>
      { io with hm := { src := .buffer, addr := BitVec.ofNat 64 (addrOf a), data := ws } :: io.hm }
  else setBytes m e (addrOf a) (wordsBytes ws)

/-! ## Queues and replies (R236 to R239, R242, R308) -/

/-- When a disabling queue has no fetched command left, it is disabled: indexes 0, error clear, phase 1. A queue whose final
QUEUE_FAULT is due waits for that. -/
def queueSettle (x : Queue) : Queue :=
  if !x.want && x.enabled && x.out = 0 && x.buf.isEmpty && !x.finalDue then
    { x with enabled := false, error := false, sub := 0, fetch := 0, cplDone := 0, reply := 0, phase := true
             failFetch := false, failReply := false, dropped := 0 }
  else x

/-- Result word 0 of QUEUE_FAULT (R246). -/
def queueFaultWord (q : Nat) (x : Queue) (final : Bool) : W64 :=
  pack [(0, q), (8, b2n x.failFetch), (9, b2n x.failReply), (10, b2n final), (16, x.dropped % 65536)]

/-- QUEUE_FAULT of a queue, which concerns the function that owns it (R239, R245). -/
def queueFault (e : Eng) (q : Nat) (final : Bool) : Eng :=
  raiseFn e (getQ e q).owner evQueueFault stOutOfRange none (queueFaultWord q (getQ e q) final) 0

/-- A stopped queue whose last fetched command has ended raises its final QUEUE_FAULT (R239). -/
def queueFinal (e : Eng) (q : Nat) : Eng :=
  let x := getQ e q
  if x.error && x.out = 0 then queueFault (updQ e q fun x => { x with finalDue := false }) q true else e

/-- The newest reply of a queue is written for good: a final QUEUE_FAULT that waited for it is raised, and a disabling
queue is disabled (R239, R308). -/
def replyWritten (e : Eng) (q : Nat) : Eng :=
  if (getQ e q).inFlight then
    let e1 := updQ e q fun x => { x with inFlight := false }
    updQ (if (getQ e1 q).finalDue then queueFinal e1 q else e1) q queueSettle
  else e

/-- The newest replies of all queues are written for good. -/
def repliesWritten (e : Eng) : Eng := (Tab.keys e.ctl.queues).foldl replyWritten e

/-- Does the control domain run: released (R31), and not stopped in Retention (R296)? -/
def ctlOn (e : Eng) : Bool := decide (e.side.relStep = .ready) && decide (e.side.pwrState ≠ 2)

/-- Is the fab domain out of reset (R31)? -/
def fabOn (e : Eng) : Bool :=
  !e.ctl.nodeFault && (decide (e.side.relStep = .fabTables) || decide (e.side.relStep = .ready))

/-- Does the control processor run (R292)? -/
def cpRuns (e : Eng) : Bool := ctlOn e && !e.ctl.cpHaltBit

/-- Is a Retention entry under way or in force, which keeps every sce_lane_wthr_n low (R296)? -/
def retentionHold (e : Eng) : Bool :=
  decide (e.side.pwrState = 2) || (match e.side.pwrWait with
    | some w => decide (w.req = 2)
    | none => false)

/-- Write a command's reply into its completion ring and send the queue's vector (R238, R242). -/
def writeReply (e : Eng) (c : Cmd) (status : W16) (r0 r1 : W64) : Eng :=
  let x := getQ e c.q
  let w0 := pack [(0, c.tag.toNat), (16, status.toNat), (32, c.q), (40, c.op.toNat), (63, b2n x.phase)]
  let nxt := (x.reply + 1) % 1024
  let e1 := updIo e fun io =>
    { io with hm := { src := .reply c.q, addr := BitVec.ofNat 64 (addrOf x.baseCpl + 32 * x.reply)
                      data := [w0, e.side.ts, r0, r1] } :: io.hm }
  let e2 := updQ e1 c.q fun x =>
    { x with reply := nxt, phase := if nxt = 0 then !x.phase else x.phase, out := x.out - 1
             messaged := !c.noIrq && !bit e.ctl.irq c.q, inFlight := true
             finalDue := x.error && decide (x.out - 1 = 0) }
  updQ (if c.noIrq then e2 else sendIrq e2 c.q) c.q queueSettle

/-- End a command: while the control processor is halted no wait ends, and the reply is held (R292). -/
def reply (e : Eng) (c : Cmd) (status : W16) (r0 r1 : W64) : Eng :=
  if e.ctl.cpHaltBit then { e with ctl := { e.ctl with heldEnds := e.ctl.heldEnds ++ [(c, status, r0, r1)] } }
  else writeReply e c status r0 r1

/-- A reply without result words. -/
def reply0 (e : Eng) (c : Cmd) (status : W16) : Eng := reply e c status 0 0

/-! ## Basin pages (R96 to R98, R105, R216) -/

/-- The banks of partition `p` (order of R97): first bank and count. Command staging (4) comes first, the
others follow in the table's order (R98). -/
def partBanks (r : Regs) (p : Nat) : Nat × Nat :=
  let c := Regs.banks r 4
  match p with
  | 4 => (0, c)
  | 0 => (c, Regs.banks r 0)
  | 1 => (c + Regs.banks r 0, Regs.banks r 1)
  | 2 => (c + Regs.banks r 0 + Regs.banks r 1, Regs.banks r 2)
  | 3 => (c + Regs.banks r 0 + Regs.banks r 1 + Regs.banks r 2, Regs.banks r 3)
  | _ => (c + Regs.banks r 0 + Regs.banks r 1 + Regs.banks r 2 + Regs.banks r 3, Regs.banks r 5)

/-- The partition of a bank. -/
def partOfBank (r : Regs) (b : Nat) : Nat :=
  ((List.range 6).find? fun p =>
    decide ((partBanks r p).1 ≤ b ∧ b < (partBanks r p).1 + (partBanks r p).2)).getD 4

/-- The pages of a partition. -/
def partPages (r : Regs) (p : Nat) : List Nat :=
  (List.range (512 * (partBanks r p).2)).map (· + 512 * (partBanks r p).1)

/-- The remap entry that maps a page (R218, R219). -/
def remapOf (e : Eng) (g : Nat) : Option Nat :=
  (e.regs.remap.find? fun r => bit r.2 14 && decide (fld r.2 0 14 = g)).map (·.1)

/-- Is a page valid (R216)? -/
def pageValid (e : Eng) (g : Nat) : Bool := Tab.get false e.basin.valid g

/-- Is a page free, that is in nobody's use? -/
def pageFree (e : Eng) (g : Nat) : Bool := !Tab.has e.basin.owners g

/-- The free pages of a bank in the order of their use: the stock of opened pages first, then those still to be
opened (R216). -/
def bankFree (e : Eng) (b : Nat) : List Nat :=
  let gs := ((List.range 512).map (· + 512 * b)).filter (pageFree e)
  gs.filter (pageValid e) ++ gs.filter fun g => !pageValid e g

/-- The free pages of a partition in the order of their use: the lowest bank first (R98). -/
def freePages (e : Eng) (p : Nat) : List Nat :=
  (List.range (partBanks e.regs p).2).flatMap fun b => bankFree e ((partBanks e.regs p).1 + b)

/-- How many pages of a partition are free. -/
def freeCount (e : Eng) (p : Nat) : Nat :=
  512 * (partBanks e.regs p).2 -
    (e.basin.owners.filter fun o => decide (partOfBank e.regs (o.1 / 512) = p)).length

/-- The Basin with the words of a page all zero, where they lie: in the page or in its spare page (R216, R218). -/
def zeroWords (e : Eng) (b : Basin) (g : Nat) : Basin :=
  { b with words := b.words.filter fun w => decide (w.1 / 16 ≠ g)
           spare := match remapOf e g with
             | some r => b.spare.filter fun w => decide (w.1 / 16 ≠ r)
             | none => b.spare
           writeback := b.writeback.filter fun w => decide (w.1 / 16 ≠ g)
           known := b.known.filter fun k => decide (k / 16 ≠ g) }

/-- Open a page that is not valid: zero words, then the valid bit (R216). -/
def openWords (e : Eng) (b : Basin) (g : Nat) : Basin :=
  if Tab.get false b.valid g then b
  else { zeroWords e b g with valid := Tab.set b.valid g true }

/-- Put pages to use: a page that was not in the stock is opened (R216); their banks run (R295). -/
def ownPages (e : Eng) (gs : List Nat) (o : PageOwner) : Eng :=
  { e with basin := gs.foldl (fun b g =>
      let b1 := openWords e b g
      { b1 with owners := Tab.set b1.owners g o, gated := clrBit b1.gated (g / 512) }) e.basin }

/-- Free pages: the valid bit falls, and the former contents are never readable again (R216). -/
def freeBasin (e : Eng) (gs : List Nat) : Eng :=
  { e with basin := gs.foldl (fun b g =>
      let b1 := zeroWords e b g
      { b1 with valid := Tab.del b1.valid g, owners := Tab.del b1.owners g, staged := without b1.staged g }) e.basin }

/-- Free every page of an owner. -/
def freeOwner (e : Eng) (o : PageOwner) : Eng :=
  freeBasin e ((e.basin.owners.filter fun x => decide (x.2 = o)).map (·.1))

/-- The page that an allocation takes: from the lowest bank of the partition with a free page (R98), an opened page of
its stock, or else the lowest free one, which is opened for it (R216). -/
def nextPage (e : Eng) (p : Nat) : Option Nat :=
  match leastFrom (pageFree e) (512 * (partBanks e.regs p).2) (512 * (partBanks e.regs p).1) with
  | some g =>
    (match leastFrom (fun h => pageFree e h && pageValid e h) 512 (512 * (g / 512)) with
     | some h => some h
     | none => some g)
  | none => none

/-- Allocate one page of a partition. -/
def allocPage (e : Eng) (p : Nat) (o : PageOwner) : Option (Nat × Eng) :=
  match nextPage e p with
  | some g => some (g, ownPages e [g] o)
  | none => none

/-- The pages of an owner, lowest first. -/
def ownedPages (e : Eng) (o : PageOwner) : List Nat := (e.basin.owners.filter fun x => decide (x.2 = o)).map (·.1)

/-- Reserve `n` pages of a partition (R105). -/
def reservePages (e : Eng) (p n : Nat) (o : PageOwner) : Option (List Nat × Eng) :=
  if freeCount e p < n then none
  else
    let gs := (freePages e p).take n
    some (gs, ownPages e gs o)

/-! ## Descriptor tags of the storage and Pass ports (R20, R169, R174) -/

/-- Room for one more outstanding descriptor on a port (R20); on the way to Retention none is begun (R296). -/
def stoRoom (e : Eng) : Bool := decide (e.io.sto.length < 256) && !retentionHold e
def passRoom (e : Eng) : Bool := decide (e.io.pass.length < 256) && !retentionHold e

end Sys2Proof.Machine
end

