-- ==== Sys2Proof/Machine/Basin.lean ====
section
/-!
DEFINITION. Machine/Basin.lean: the stored words of the Basin and what every read and write of one does (R105, R210 to
R212, R214, R216 to R218): correction, the bucket, the candidates, the remap table, and where the contents of pages lie.

The model holds the content of rings, runs and buffers as data of their own; the stored words of a page in use hold what
bit errors have changed in it. The code is linear (R210), so what the decoder makes of a word's errors does not depend
on its content.
-/

namespace Sys2Proof.Machine

/-! ## Stored words (R210, R212, R218) -/

/-- The stored word `i` of page `g`, in the page itself or in its spare page. -/
def storedAt (e : Eng) (g i : Nat) : StoredWord :=
  match remapOf e g with
  | some r => Tab.get 0 e.basin.spare (16 * r + i)
  | none => Tab.get 0 e.basin.words (16 * g + i)

/-- Put a stored word; a word of zeros is not listed. -/
def putStored (e : Eng) (g i : Nat) (w : StoredWord) : Eng :=
  let put (t : Tab StoredWord) (k : Nat) : Tab StoredWord := if w = 0 then Tab.del t k else Tab.set t k w
  match remapOf e g with
  | some r => { e with basin := { e.basin with spare := put e.basin.spare (16 * r + i) } }
  | none => { e with basin := { e.basin with words := put e.basin.words (16 * g + i) } }

/-- The engine writes a word: it holds no error any more, and a write-back that waits for it is cancelled (R212). -/
def writeWord (e : Eng) (k : Nat) : Eng :=
  let e1 := putStored e (k / 16) (k % 16) 0
  { e1 with basin := { e1.basin with writeback := Tab.del e1.basin.writeback k, known := without e1.basin.known k } }

/-- The engine writes words `first` to `last` of a page. -/
def writeWords (e : Eng) (g first last : Nat) : Eng :=
  (List.range (last + 1 - first)).foldl (fun e i => writeWord e (16 * g + first + i)) e

/-- The engine writes `n` bytes at byte `a` of a page. -/
def writeBytes (e : Eng) (g a n : Nat) : Eng := if n = 0 then e else writeWords e g (a / 256) ((a + n - 1) / 256)

/-! ## The remap table (R217, R218) -/

/-- REMAP_FULL, once until reset; its result words are not in the spec: free values. -/
def remapFull (e : Eng) : Eng :=
  if e.basin.fullRaised then e
  else
    let a := freeWord { e with basin := { e.basin with fullRaised := true } }
    let b := freeWord a.2
    raise b.2 evRemapFull stOutOfRange none a.1 b.1

/-- Copy a page's words, corrected, into spare page `r`; an uncorrectable word is copied as zero. -/
def copySpare (e : Eng) (g r : Nat) : Eng :=
  let spare := (List.range 16).foldl (fun (t : Tab StoredWord) i =>
    let w := readWord (Tab.get 0 e.basin.words (16 * g + i))
    let c := if w.bad = 0 then storeWord w.data else 0
    if c = 0 then Tab.del t (16 * r + i) else Tab.set t (16 * r + i) c) e.basin.spare
  { e with basin := { e.basin with spare := spare, words := e.basin.words.filter fun w => decide (w.1 / 16 ≠ g)
                                   writeback := e.basin.writeback.filter fun w => decide (w.1 / 16 ≠ g) } }

/-- Set entry `r` to map page `g`: copy, set, ROW_REMAPPED (R218). -/
def setRemap (e : Eng) (r g : Nat) : Eng :=
  let e1 := if pageValid e g then copySpare e g r else e
  raise { e1 with regs := { e1.regs with remap := Tab.set e1.regs.remap r (BitVec.ofNat 32 (g + 2 ^ 14)) } }
    evRowRemapped stOK none (pack [(0, g), (16, r)]) 0

/-- Remap a page (R217, R218): once, into the lowest invalid entry. -/
def remapPage (e : Eng) (g : Nat) : Eng :=
  if (remapOf e g).isSome then e
  else match leastFrom (fun r => !bit (Tab.get 0 e.regs.remap r) 14) 16 0 with
    | some r => setRemap e r g
    | none => remapFull e

/-! ## Corrected errors (R212, R214, R217) -/

/-- Add one corrected sub-word to the counter and the bucket. -/
def countCorrected (e : Eng) : Eng :=
  let e1 := { e with cnt := { e.cnt with bCorr := satInc e.cnt.bCorr } }
  let since := min (e.basin.sinceEvt + 1) 0xFFFFFFFF
  if Regs.bucketSize e.regs < e.basin.level + 1 then
    raise { e1 with basin := { e1.basin with level := 0, sinceEvt := 0 } } evBasinCorrected stOK none
      (BitVec.ofNat 64 since) 0
  else { e1 with basin := { e1.basin with level := e.basin.level + 1, sinceEvt := since } }

/-- Count `n` corrected sub-words. -/
def countCorrectedN : Nat → Eng → Eng
  | 0, e => e
  | n + 1, e => countCorrectedN n (countCorrected e)

/-- A corrected read of page `g` raises its candidate count; at REMAP_THRESH the page is remapped. -/
def candidate (e : Eng) (g : Nat) : Eng :=
  let n := ((e.basin.cand.find? fun c => decide (c.1 = g)).map (·.2)).getD 0
  let rest := e.basin.cand.filter fun c => decide (c.1 ≠ g)
  let cand := (g, min (n + 1) 15) :: rest.take 31
  let e1 := { e with basin := { e.basin with cand := cand } }
  if Regs.remapThresh e.regs ≤ n + 1 then remapPage e1 g else e1

/-- A corrected read of word `i` of page `g`: counts, write-back, candidate. -/
def correctedRead (e : Eng) (g i n : Nat) : Eng :=
  let e1 := countCorrectedN n e
  candidate { e1 with basin := { e1.basin with writeback := Tab.set e1.basin.writeback (16 * g + i) (g / 512) } } g

/-! ## The engine's own reads (R211, R212)

A stored word that an engine's read finds in error is one that a patrol read or a debug read has corrected and that waits
for its write-back: errors come into the model with PATROL_READ, which judges the word at once. -/

/-- The engine reads a word that waits for its write-back: it is corrected and counted again. -/
def readAgain (e : Eng) (k : Nat) : Eng :=
  let w := readWord (storedAt e (k / 16) (k % 16))
  if w.bad = 0 ∧ w.corr ≠ 0 then correctedRead e (k / 16) (k % 16) w.corr else e

/-- The engine reads the words that `p` names. -/
def engineReads (e : Eng) (p : Nat → Bool) : Eng := ((Tab.keys e.basin.writeback).filter p).foldl readAgain e

/-- The engine reads every word of some pages. -/
def readPages (e : Eng) (gs : List Nat) : Eng := engineReads e fun k => gs.contains (k / 16)

/-- The engine reads what it holds in the pages of an owner. -/
def readOwned (e : Eng) (o : PageOwner) : Eng := engineReads e fun k => decide (Tab.find e.basin.owners (k / 16) = some o)

/-- The held events are read on their way to the ring. -/
def readHeld (e : Eng) : Eng := if e.ctl.evt.held.isEmpty then e else readOwned e .events

/-! ## Work on the storage and Pass ports (R20, R97, R169, R174) -/

/-- The working set that a descriptor's data pass through. -/
def workOf : PortOwner → PageOwner
  | .t1Table v => .work v 1
  | .t1Survey v => .work v 1
  | .t1Seg v _ => .work v 1
  | .t1Record v => .work v 1
  | .t2Source v => .work v 2
  | .t2Piece v _ => .work v 2
  | .restore v _ => .work v 3
  | .frame v _ => .work v 4

/-- Data pass through a working set: its words are read. -/
def passThrough {α : Type} (e : Eng) (data : List α) (o : PortOwner) : Eng :=
  if data.isEmpty then e else readOwned e (workOf o)

/-- Post a storage descriptor; its tag is the answer. -/
def postSto (e : Eng) (op : Byte) (fua : Bool) (ns : W32) (lba lbas : Nat) (data : List Byte) (o : PortOwner) :
    Eng × Nat :=
  let t := e.io.stoTag
  let d : StoDesc := { op := op, fua := fua, tag := BitVec.ofNat 16 t, ns := ns, lba := BitVec.ofNat 64 lba
                       lbas := BitVec.ofNat 32 lbas, data := data, owner := o, ts := e.side.ts }
  (updIo (passThrough e data o) fun io =>
    { io with sto := io.sto ++ [d], stoLog := d :: io.stoLog, stoTag := (t + 1) % 65536 }, t)

/-- Post a Pass descriptor; its tag is the answer. -/
def postPass (e : Eng) (op : Byte) (key : BitVec 256) (offset length : Nat) (data : List Byte) (o : PortOwner) :
    Eng × Nat :=
  let t := e.io.passTag
  let d : PassDesc := { op := op, tag := BitVec.ofNat 16 t, key := key, offset := BitVec.ofNat 64 offset
                        length := BitVec.ofNat 64 length, data := data, owner := o, ts := e.side.ts }
  (updIo (passThrough e data o) fun io =>
    { io with pass := io.pass ++ [d], passLog := d :: io.passLog, passTag := (t + 1) % 65536 }, t)

/-- Does a put of a running export wait to be posted? It comes before any Terrace 2 descriptor (R200). -/
def putsWait (e : Eng) : Bool :=
  e.valleys.any fun y => match y.2.expo.jobs with
    | j :: _ => j.failed.isNone && j.frames.any fun f => f.tag.isNone
    | [] => false

/-! ## Where contents lie in pages (R71, R101, R105, R135) -/

/-- The word of a queue's two pages that holds the packet of slot `j` of its fetch buffer, four packets to a word. -/
def queueWord (e : Eng) (q j : Nat) : Option Nat :=
  ((ownedPages e (.queue q))[j % 128 / 64]?).map fun g => 16 * g + j % 64 / 4

/-- The place of a page among the pages of its owner. -/
def placeOf (e : Eng) (o : PageOwner) (g : Nat) : Nat := ((ownedPages e o).filter fun h => decide (h < g)).length

/-- Bytes in a staged page of a ring. -/
def OutStream.pageEnd (s : OutStream) (g : Nat) : Nat := if s.page = some g then s.fill else Tab.get 0 s.ends g

/-- Where the inline entries of page `g` lie in it: first byte and size for each entry of the ring, size 0 for the
others. The entries of a page follow one another and end where the page's bytes end; the number beside the list is where
they begin. -/
def entrySpans (g : Nat) : List OutEntry → Nat → List (Nat × Nat) × Nat
  | [], fin => ([], fin)
  | .inline _ _ _ _ b h :: r, fin =>
    let (l, f) := entrySpans g r fin
    if h = g then ((f - (8 + b.length), 8 + b.length) :: l, f - (8 + b.length)) else ((0, 0) :: l, f)
  | _ :: r, fin =>
    let (l, f) := entrySpans g r fin
    ((0, 0) :: l, f)

/-- Does a span of bytes touch word `i` of a page? -/
def spanHits (s : Nat × Nat) (i : Nat) : Bool := decide (s.1 < 256 * i + 256 ∧ 256 * i < s.1 + s.2)

/-- Does the descriptor of entry number `n` of a ring lie in word `i` of the ring's descriptor page number `j`? A word
holds sixteen descriptors of 16 bytes. -/
def descHits (i j n : Nat) : Bool := decide (256 * j + 16 * i ≤ n ∧ n < 256 * j + 16 * i + 16)

/-- Where the waiting blocks of an inbound ring lie in its pages, end to end: first byte and size of each. -/
def blockSpans : List InBlock → Nat → List (Nat × Nat) × Nat
  | [], fin => ([], fin)
  | b :: r, fin =>
    let (l, f) := blockSpans r fin
    ((f - b.size, b.size) :: l, f - b.size)

end Sys2Proof.Machine
end

