-- ==== Sys2Proof/Machine/Geometry.lean ====
section
/-!
DEFINITION. Machine/Geometry.lean: regions, Reaches, tiles, stripes and parity places (R33 to R46, R78,
R100), live sets and wardens (R87, R121), running scopes (R252).
-/

namespace Sys2Proof.Machine

/-! ## Regions and Reaches (R41, R42) -/

/-- Insert into a list kept in rising order of `f`. -/
def insertBy {α : Type} (f : α → Nat) (x : α) : List α → List α
  | [] => [x]
  | y :: r => if f x < f y then x :: y :: r else y :: insertBy f x r

/-- Sort by `f`, rising. -/
def sortBy {α : Type} (f : α → Nat) (l : List α) : List α := l.foldr (insertBy f) []

/-- The non-empty regions of a Valley with their descriptor indexes, in slot order. -/
def valleyRegions (e : Eng) (v : Nat) : List (Nat × Region) :=
  sortBy (fun x => Region.slot x.2)
    (e.regions.filter fun x => !Region.empty x.2 && decide (Region.valley x.2 = v))

/-- One Reach of a Valley: number, region, place in the region, length in tiles (R41). -/
structure ReachInfo where
  num   : Nat
  desc  : Nat
  slot  : Nat
  base  : Nat
  tiles : Nat
  full  : Nat
  cls   : Nat
  typ   : Nat
deriving DecidableEq, Repr

/-- The Reaches of one region, numbered from `n0`. -/
def regionReaches (d : Nat) (r : Region) (n0 : Nat) : List ReachInfo :=
  let size := 256 * 2 ^ Region.reachCode r
  (List.range ((Region.tiles r + size - 1) / size)).map fun i =>
    { num := n0 + i, desc := d, slot := Region.slot r, base := Region.base r + 4096 * size * i
      tiles := min size (Region.tiles r - size * i), full := size, cls := Region.cls r, typ := Region.typ r }

/-- The Reaches of a Valley in number order (R41). -/
def reachList (e : Eng) (v : Nat) : List ReachInfo :=
  (valleyRegions e v).foldl (fun acc (d, r) => acc ++ regionReaches d r acc.length) []

/-- A Reach by number. -/
def reachAt (e : Eng) (v rho : Nat) : Option ReachInfo := (reachList e v)[rho]?

/-- Joined, in standby, or waiting in its VALLEY_JOIN or STAND_IN. -/
def slotBound (x : Valley) : Bool :=
  match x.slot with
  | .undefined => false
  | .defined => false
  | _ => true

/-- Does a region occupy no memory: a region of a Valley in which this member is parity-only (R46)? -/
def placeless (e : Eng) (r : Region) : Bool :=
  let x := getV e (Region.valley r)
  slotBound x && x.parity

/-- The non-empty region that holds a byte address, if any. -/
def regionAt (e : Eng) (a : Nat) : Option (Nat × Region) :=
  e.regions.find? fun x =>
    !Region.empty x.2 && !placeless e x.2 && decide (Region.base x.2 ≤ a ∧ a < Region.base x.2 + 4096 * Region.tiles x.2)

/-- The Reach and the line within it of a byte address in region `d`. -/
def placeAt (e : Eng) (v d a : Nat) : Option (ReachInfo × Nat) :=
  match (reachList e v).find? fun x => decide (x.desc = d ∧ x.base ≤ a ∧ a < x.base + 4096 * x.tiles) with
  | some x => some (x, (a - x.base) / 256)
  | none => none

/-- Groups of a Reach (R42). -/
def groupsOf (k tiles : Nat) : Nat := (tiles + k - 1) / k

/-- Difference of two logical indexes modulo n. -/
def subMod (a b n : Nat) : Nat := (a + n - b % n) % n

/-- The sum of m·G over the Reaches below `rho` (R44). -/
def parityBefore (e : Eng) (v rho : Nat) : Nat :=
  let x := getV e v
  (((reachList e v).take rho).map fun r => x.m * groupsOf x.k r.tiles).sum

/-- All parity tiles that a member holds for a Valley. -/
def parityTotal (e : Eng) (v : Nat) : Nat := parityBefore e v (reachList e v).length

/-- The byte address of parity tile `i` = g·m + p of Reach `rho` on this member (R44). -/
def parityAddr (e : Eng) (v rho i : Nat) : Nat := (getV e v).area + 4096 * (parityBefore e v rho + i)

/-- The member at data position `j` of stripe `r` (R43). -/
def dataMember (n r j : Nat) : Nat := (r + j) % n

/-- The member that holds parity row `p` of stripe `r` (R43). -/
def parityMember (n k r p : Nat) : Nat := (r + k + p) % n

/-- The holder of row `p` for row `j` of member `u` (R61). -/
def holderOf (n k u j p : Nat) : Nat := (subMod u j n + k + p) % n

/-- What a holder makes of a block's line (R78): group, row, stripe and parity row. -/
structure BlockPlace where
  group : Nat
  row   : Nat
  stripe : Nat
  prow  : Nat
  tile  : Nat
  lineIn : Nat
deriving DecidableEq, Repr

/-- Map a block from sender `u` at line `l` for holder `h` (R78). -/
def mapBlock (n k u h l : Nat) : BlockPlace :=
  let t := l / 16
  let j := t % k
  let r := subMod u j n
  { group := t / k, row := j, stripe := r, prow := subMod h (k + r) n, tile := t, lineIn := l % 16 }

/-- The shape check of a Valley (R37). -/
def shapeCheck (e : Eng) (v : Nat) : W32 :=
  crc32c ((valleyRegions e v).flatMap fun (_, r) =>
    let sideSlot := if Region.typ r = 3 then Region.slot (getR e (Region.side r)) else 0
    natBytes 4 (Region.tiles r) ++ natBytes 2 (Region.slot r) ++ [BitVec.ofNat 8 (Region.reachCode r)] ++
    [BitVec.ofNat 8 (Region.typ r + 16 * Region.cls r)] ++ [BitVec.ofNat 8 (Region.sblock r)] ++
    natBytes 2 sideSlot ++ List.replicate 5 0)

/-! ## Live sets (R69, R87, R119, R121) -/

/-- Is member `i` live? -/
def isLive (x : Valley) (i : Nat) : Bool := bit x.live i

/-- The live logical indexes. -/
def liveList (x : Valley) : List Nat := (List.range x.n).filter (isLive x)

/-- The warden: the lowest-numbered live member (R87). -/
def wardenOf (x : Valley) : Nat := (liveList x).headD 0

/-- Is a member parity-only? -/
def isParity (x : Valley) (i : Nat) : Bool :=
  match x.members[i]? with
  | some y => y.parity
  | none => false

/-- The node bound to a logical index. -/
def nodeOf (x : Valley) (i : Nat) : W16 :=
  match x.members[i]? with
  | some y => y.node
  | none => 0

/-- The distances of a member's streams (R69). -/
def distances (x : Valley) : List Nat := (List.range (x.k + x.m - 1)).map (· + 1)

/-- The holder at distance `d` of this member's outbound stream. -/
def outPeer (x : Valley) (d : Nat) : Nat := (x.self + d) % x.n

/-- The sender at distance `d` of this member's inbound stream. -/
def inPeer (x : Valley) (d : Nat) : Nat := subMod x.self d x.n

/-- The watched peers (R119). -/
def watchedPeers (x : Valley) : List Nat :=
  ((distances x).flatMap fun d => [outPeer x d, inPeer x d]).eraseDups.filter
    fun i => isLive x i && decide (i ≠ x.self)

/-- The designated reporter of a peer (R121). -/
def reporterOf (x : Valley) (s : Nat) : Option Nat :=
  match ((distances x).map fun d => (s + d) % x.n).find? (isLive x) with
  | some i => some i
  | none => ((List.range x.n).map fun d => subMod s (d + 1) x.n).find? (isLive x)

/-- The live senders that are not parity-only, by distance (R84). -/
def countedSenders (x : Valley) : List Nat :=
  (distances x).filter fun d => isLive x (inPeer x d) && !isParity x (inPeer x d)

/-! ## Running scopes (R252) -/

def isJoined (x : Valley) : Bool := decide (x.slot = .joined)
def isDefined (x : Valley) : Bool := decide (x.slot ≠ .undefined)

/-- Does any slot run? -/
def anyBound (e : Eng) : Bool := e.valleys.any fun y => slotBound y.2

/-- The engine-wide scope runs (R252). -/
def engineRuns (e : Eng) : Bool := e.ctl.opened || anyBound e

/-- Does a correcting audit of the Valley run here (R153, R220)? -/
def correcting (x : Valley) : Bool := x.runs.any fun r => decide (r.kind = .audit) && r.correct

/-- Is any Valley joined? -/
def anyJoined (e : Eng) : Bool := e.valleys.any fun y => isJoined y.2

/-! ## Places in package memory -/

/-- Do two ranges overlap? -/
def overlaps (a n b k : Nat) : Bool := decide (0 < n ∧ 0 < k ∧ a < b + k ∧ b < a + n)

/-- Does a range overlap a non-empty region other than descriptor `but`? -/
def hitsRegion (e : Eng) (a n : Nat) (but : Option Nat) : Bool :=
  e.regions.any fun x =>
    !Region.empty x.2 && !placeless e x.2 && decide (some x.1 ≠ but) && overlaps a n (Region.base x.2) (4096 * Region.tiles x.2)

/-- Does a range overlap the parity area of a bound Valley other than `but`? -/
def hitsParity (e : Eng) (a n : Nat) (but : Option Nat) : Bool :=
  e.valleys.any fun x =>
    slotBound x.2 && decide (some x.1 ≠ but) && overlaps a n x.2.area (4096 * parityTotal e x.1)

/-- Does a range overlap the spill pool? -/
def hitsSpill (e : Eng) (a n : Nat) : Bool := overlaps a n (Regs.spillAddr e.regs) (Regs.spillBytes e.regs)

/-- May a range serve as a destination: inside package memory, clear of regions, parity and spill pool (R176)? -/
def clearRange (e : Eng) (a n : Nat) : Bool :=
  decide (a + n ≤ pkgBytes) && !hitsRegion e a n none && !hitsParity e a n none && !hitsSpill e a n

/-! ## Functions and partitions (R22, R250, R270, R271) -/

/-- The partition tag of the function that holds a Valley slot (R270). -/
def tagOfFn (e : Eng) (fn : Byte) : W16 :=
  if fn = 0 then 0
  else match e.ctl.grants.find? fun g => decide (BitVec.ofNat 8 (0x40 + g.vf) = fn) with
    | some g => g.ptag
    | none => 0

/-- The key slot and namespace slot of a function: 0 for the physical function, 1 + f for function f. -/
def fnSlot (fn : Byte) : Nat := if fn.toNat < 0x40 then 0 else fn.toNat - 0x3F

/-- The job key and the exchange key of a function's partition (R282). -/
def jobKey (e : Eng) (fn : Byte) : Option (BitVec 256) := (Tab.get {} e.ctl.keys (fnSlot fn)).job
def exchKey (e : Eng) (fn : Byte) : Option (BitVec 256) := (Tab.get {} e.ctl.keys (fnSlot fn)).exch

/-- Does a debug level wait for the key users to end, so that drain starts are held (R293)? -/
def keysEnding (e : Eng) : Bool := e.side.dbgActing

/-- May a triggered drain of a Valley start as far as keys go: a job key is loaded, no change to Invasive is
under way, and the random source is good (R287, R288, R293)? -/
def drainKeyed (e : Eng) (v : Nat) : Bool :=
  (jobKey e (getV e v).fn).isSome && !keysEnding e && !e.side.rngFault

/-- May a function act on Valley slot `v`? -/
def fnHoldsValley (e : Eng) (fn : Byte) (v : Nat) : Bool := decide (fn = 0) || decide ((getV e v).fn = fn)

/-- May a function act on descriptor `d`: one of a Valley of its own? -/
def fnHoldsRegion (e : Eng) (fn : Byte) (d : Nat) : Bool :=
  decide (fn = 0) || (!Region.empty (getR e d) && fnHoldsValley e fn (Region.valley (getR e d)))

end Sys2Proof.Machine
end

