-- ==== Sys2Proof/Machine/Spill.lean ====
section
/-!
DEFINITION. Machine/Spill.lean: the shared spill pool (R99, R111 to R114, R118), control transactions on
their way out, and the end of a Terrace 1 drain, which an eviction can cause (R113, R185).
-/

namespace Sys2Proof.Machine

/-! ## Use, freeing and zeroing -/

/-- The byte address of a spill page. -/
def spillPageAddr (e : Eng) (g : Nat) : Nat := Regs.spillAddr e.regs + 4096 * g

/-- The class's number, in the order of R112. -/
def SpillClass.num : SpillClass → Nat
  | .retention => 0
  | .pending => 1
  | .shadow => 2
  | .cache => 3

/-- Pages that the shadow directories account for: 8 bytes per shadowed tile (R160). -/
def dirPages (e : Eng) : Nat :=
  (e.valleys.map fun x =>
    match x.2.t1 with
    | some r => (8 * r.shadow.length + 4095) / 4096
    | none => 0).sum

/-- A class's use in pages (R112). -/
def classUse (e : Eng) (c : SpillClass) : Nat :=
  (e.spill.pages.filter fun x => decide (x.2.cls = c)).length + (if c = .shadow then dirPages e else 0)

/-- Pages neither in use nor waiting to be zeroed. -/
def spillFree (e : Eng) : Nat :=
  Regs.spillPages e.regs - e.spill.pages.length - e.spill.zeroing.length - dirPages e

/-- Free pages outside the pending-parity reservation (R112). -/
def spillOpen (e : Eng) : Nat :=
  spillFree e - (Regs.quota e.regs .pending - classUse e .pending)

/-- Free spill pages: they become allocatable after they have been zeroed (R99). -/
def freeSpill (e : Eng) (gs : List Nat) : Eng :=
  { e with spill := { e.spill with pages := gs.foldl Tab.del e.spill.pages
                                   zeroing := e.spill.zeroing ++ gs.filter fun g => Tab.has e.spill.pages g } }

/-- Is an accumulate to a line of the page outstanding? -/
def pageBusy (e : Eng) (g : Nat) : Bool :=
  e.io.acc.any fun r => decide (256 * r.line / 4096 = spillPageAddr e g / 4096)

/-- One step of the zeroing of freed pages (R99): the first freed page that no accumulate is under way to is
accumulated into itself, or becomes allocatable when it already reads zero. -/
def zeroSpillPage (m : Mem) (e : Eng) : Eng :=
  match e.spill.zeroing.find? fun g => !pageBusy e g with
  | none => e
  | some g =>
    if readsZero m e (spillPageAddr e g) 4096 then
      { e with spill := { e.spill with zeroing := without e.spill.zeroing g } }
    else zeroRange m e (spillPageAddr e g) 4096 (.zero g)

/-! ## Ends of a drain (R113, R185) -/

/-- The DRAIN_DONE event (R185). -/
def drainDone (e : Eng) (v terrace reason : Nat) (full : Bool) (number : Nat) (ws : W64) : Eng :=
  let st := if reason = 0 ∨ reason = 6 then stOK else if reason = 3 then stHoldupLow else stOutOfRange
  raise e evDrainDone st (some v)
    (pack [(0, v), (4, terrace), (8, reason), (12, b2n full), (32, number)]) ws

/-- Has a segment begun and not ended? -/
def Seg.live (g : Seg) : Bool :=
  match g.st with
  | .formed => false
  | .done => false
  | _ => true

/-- End the running Terrace 1 drain of a Valley with a reason: its shadow pages and its working set are
freed, a begun segment runs to its commit (R170), and DRAIN_DONE is raised. -/
def endT1 (e : Eng) (v reason : Nat) : Eng :=
  match (getV e v).t1 with
  | none => e
  | some r =>
    let e1 := freeSpill e (r.shadow.map fun x => x.2.1)
    let e2 := freeBasin e1 r.pages
    let e3 := updIo e2 fun io => { io with oldSegs := io.oldSegs ++ r.segs.filter Seg.live }
    let e4 := updV e3 v fun x =>
      { x with t1 := none, t1o := { x.t1o with workLeft := x.t1o.workLeft || decide (reason ≠ 0) } }
    drainDone e4 v 1 reason r.full r.number r.ws

/-- Abandon a drain because of its shadows: DRAIN_ABANDONED, then its end (R113, R114, R185). -/
def abandonT1 (e : Eng) (v : Nat) (eviction : Bool) : Eng :=
  match (getV e v).t1 with
  | none => e
  | some r =>
    let e1 := raise e evDrainAbandoned stOK (some v) (pack [(0, b2n eviction), (32, r.number)]) r.ws
    endT1 e1 v (if eviction then 1 else 2)

/-! ## Allocation (R113, R114) -/

/-- The oldest evictable page of another class; of pages allocated at the same ck_ts value the one with the lowest number,
since the pages stand in rising order (DESIGN CHOICE, notes/assumptions/67.md). -/
def evictable (e : Eng) (c : SpillClass) : Option (Nat × SPage) :=
  (e.spill.pages.filter fun x => decide ((x.2.cls = .shadow ∨ x.2.cls = .cache) ∧ x.2.cls ≠ c)).foldl
    (fun best x => match best with
      | none => some x
      | some y => if x.2.ts < y.2.ts then some x else some y) none

/-- The lowest page that may be allocated. -/
def lowestSpill (e : Eng) : Option Nat :=
  leastFrom (fun g => !Tab.has e.spill.pages g && !e.spill.zeroing.contains g) (Regs.spillPages e.regs) 0

/-- Put a page to use. -/
def useSpill (e : Eng) (g : Nat) (c : SpillClass) (v key : Nat) : Eng :=
  { e with spill := { e.spill with
      pages := Tab.set e.spill.pages g { cls := c, v := v, key := key, ts := e.side.ts }
      zeroing := without e.spill.zeroing g } }

/-- The pages of the cached fragment that a page belongs to. -/
def fragmentPages (e : Eng) (p : SPage) : List Nat :=
  (e.spill.pages.filter fun x => decide (x.2.cls = .cache ∧ x.2.v = p.v ∧ x.2.key = p.key)).map (·.1)

/-- Evict a page: a shadow ends its drain, a cached fragment is freed whole; the page itself is zeroed at
once, since it is allocated again (R113). -/
def evictPage (m : Mem) (e : Eng) (g : Nat) (p : SPage) : Eng :=
  let e1 := if p.cls = .shadow then abandonT1 e p.v true else freeSpill e (fragmentPages e p)
  zeroRange m e1 (spillPageAddr e g) 4096 .plain

/-- Raise SPILL_EXHAUSTED once per class and epoch of the Valley (R114). -/
def spillExhausted (e : Eng) (c : SpillClass) (v : Nat) : Eng :=
  if e.spill.raised.contains (c.num, v) then e
  else
    raise { e with spill := { e.spill with raised := (c.num, v) :: e.spill.raised } }
      evSpillExhausted stOutOfRange (some v) (BitVec.ofNat 64 c.num) (BitVec.ofNat 64 (Regs.quota e.regs c))

/-- Allocate a spill page (R113): the page, if any, and the engine afterwards. -/
def allocSpill (m : Mem) (e : Eng) (c : SpillClass) (v key : Nat) : Option Nat × Eng :=
  let room := if c = .pending then decide (0 < spillFree e) else decide (0 < spillOpen e)
  if Regs.quota e.regs c < classUse e c + 1 then (none, spillExhausted e c v)
  else
    match room, lowestSpill e with
    | true, some g => (some g, useSpill e g c v key)
    | _, _ =>
      match evictable e c with
      | some (g, p) => (some g, useSpill (evictPage m e g p) g c v key)
      | none => (none, spillExhausted e c v)

/-- A new epoch of a Valley: SPILL_EXHAUSTED may be raised again (R114). -/
def spillEpoch (e : Eng) (v : Nat) : Eng :=
  { e with spill := { e.spill with raised := e.spill.raised.filter fun x => decide (x.2 ≠ v) } }

/-! ## Control transactions on their way out (R80, R81, R83, R103) -/

/-- Queue a control transaction to a member. -/
def sendCtl (e : Eng) (v dst : Nat) (epoch : W64) (g : Msg) : Eng :=
  let x := getV e v
  updIo e fun io => { io with ctlOut := io.ctlOut ++
    [{ v := v, node := nodeOf x dst, tag := x.tag, from_ := x.self, dest := dst, epoch := epoch, msg := g }] }

/-- Queue a control transaction of the current epoch to every live member, the sender included (R81). -/
def broadcast (e : Eng) (v : Nat) (g : Msg) : Eng :=
  (liveList (getV e v)).foldl (fun e i => sendCtl e v i (getV e v).epoch g) e

/-- Queue a digest transaction to a comparison partner (R226, R229). -/
def sendPartner (e : Eng) (v : Nat) (p : Partner) (epoch : W64) (g : Msg) : Eng :=
  updIo e fun io => { io with ctlOut := io.ctlOut ++
    [{ v := v, node := p.node, tag := p.tag, from_ := (getV e v).self, dest := p.index, epoch := epoch, msg := g }] }

end Sys2Proof.Machine
end

