-- ==== Sys2Proof/Machine/Compare.lean ====
section
/-!
DEFINITION. Machine/Compare.lean: digests of Reaches and tiles, replica comparison and lock-step comparison
(R56, R57, R225 to R230).
-/

namespace Sys2Proof.Machine

/-! ## Per-Reach accessors -/

def getReach (x : Valley) (rho : Nat) : SReach := Tab.get {} x.reaches rho
def setReach (x : Valley) (rho : Nat) (r : SReach) : Valley := { x with reaches := Tab.set x.reaches rho r }
def updReach (e : Eng) (v rho : Nat) (f : SReach → SReach) : Eng :=
  updV e v fun x => setReach x rho (f (getReach x rho))

/-- The digest terms of lines [base, base + n) of package memory as loaded: only lines that are not zero
count (R56). -/
def rangeDigest (m : Mem) (e : Eng) (alpha : W64) (base bytes : Nat) : W64 :=
  (touchedLines m e base bytes).foldl
    (fun d l => d ^^^ lineDigest alpha (32 * (l - base / 256)) (loadLine m e l)) 0

/-- The reach digest of this member's data of a Reach, recomputed from memory (R56, R144, R224). -/
def reachDigest (m : Mem) (e : Eng) (v rho : Nat) : W64 :=
  let x := getV e v
  if x.parity then 0
  else match reachAt e v rho with
    | some r => rangeDigest m e x.alpha r.base (4096 * r.tiles)
    | none => 0

/-- The number of a tile in the Valley's order of R41. -/
def tileNumber (e : Eng) (v rho t : Nat) : Nat := ((((reachList e v).take rho).map (·.tiles)).sum) + t

/-- All tiles of a Valley on a member. -/
def tileTotal (e : Eng) (v : Nat) : Nat := ((reachList e v).map (·.tiles)).sum

/-- A digest entry for a whole Reach (R83). -/
def wholeReach : W32 := 0xFFFFFFFF

/-- Raise DIGEST_MISMATCH (R234). -/
def digestMismatch (e : Eng) (v kind partner rho : Nat) (tile : W32) (step : W64) : Eng :=
  raise e evDigestMismatch stOutOfRange (some v)
    (pack [(0, kind), (2, partner), (8, v), (32, rho)])
    (pack [(0, tile.toNat), (32, fld step 0 32)])

/-! ## Replica comparison (R225 to R227) -/

/-- Where the comparison area holds the digest of a Reach: two generations of 8 bytes per Reach. -/
def cmpAddr (c : Compare) (rho gen : Nat) : Nat := c.area + 16 * rho + 8 * gen

/-- Load one 64-bit word. -/
def loadWord (m : Mem) (e : Eng) (a : Nat) : W64 := bytesWord (loadBytes m e a 8)

/-- Change partner `i`. -/
def updPartner (x : Valley) (i : Nat) (f : Partner → Partner) : Valley :=
  { x with cmp := { x.cmp with partners := x.cmp.partners.zipIdx.map fun (p, j) => if j = i then f p else p } }

/-- After Watershed `w` with step `s`: write the committed digests of every Reach into a generation and send
them to every partner (R226). -/
def replicaSend (m : Mem) (e : Eng) (v : Nat) (w s : W64) : Eng :=
  let x := getV e v
  if !x.cmp.running then e
  else
    let gen := fld w 0 1
    let n := (reachList e v).length
    let e1 := (List.range n).foldl
      (fun e rho => setBytes m e (cmpAddr x.cmp rho gen) (wordBytes (getReach x rho).comm)) e
    let e2 := updV e1 v fun x => { x with cmp := { x.cmp with genStep := Tab.set x.cmp.genStep gen s } }
    let es := (List.range n).map fun rho =>
      ({ reach := rho, tile := wholeReach, digest := (getReach x rho).comm } : DigEnt)
    x.cmp.partners.foldl
      (fun e p => (chop 126 n es).foldl (fun e c => sendPartner e v p w (.digests 4 s c)) e) e2

/-- Received replica digests of partner `i` (R227). -/
def replicaRecv (m : Mem) (e : Eng) (v i : Nat) (s : W64) (es : List DigEnt) : Eng :=
  let x := getV e v
  match [0, 1].find? fun g => decide (Tab.find x.cmp.genStep g = some s) with
  | none => drop e 22
  | some g =>
    let bad := (es.filter fun d =>
      decide (loadWord m e (cmpAddr x.cmp d.reach g) ≠ d.digest)).map (·.reach)
    let e1 := updV e v fun x => updPartner x i fun p => { p with last := s, differ := p.differ + bad.length }
    match (sortBy id bad).head? with
    | none => e1
    | some rho =>
      if (x.cmp.partners[i]?.bind (·.raised)) = some s then e1
      else
        digestMismatch (updV e1 v fun x => updPartner x i fun p => { p with raised := some s }) v 1 i rho
          wholeReach s

/-! ## Lock-step comparison (R228 to R230) -/

/-- Where the lock-step area holds a tile's digest. -/
def lockTileAddr (e : Eng) (v rho t : Nat) : Nat := (getV e v).cmp.lockArea + 8 * tileNumber e v rho t

/-- The byte of the written bitmap that holds a tile's bit: the bitmap follows the digests. -/
def lockBitAddr (e : Eng) (v rho t : Nat) : Nat :=
  (getV e v).cmp.lockArea + 8 * tileTotal e v + tileNumber e v rho t / 8

/-- Set or clear a bit of a byte in package memory by an accumulate. -/
def putBit (m : Mem) (e : Eng) (a i : Nat) (on : Bool) : Eng :=
  let b := (loadBytes m e a 1).headD 0
  if bit b i = on then e else accumBytes e a [BitVec.ofNat 8 (2 ^ i)] .plain

/-- Read a bit of a byte in package memory. -/
def getBit (m : Mem) (e : Eng) (a i : Nat) : Bool := bit ((loadBytes m e a 1).headD 0) i

/-- While lock-step runs, a block's digest terms are accumulated into its tile's digest, and the tile's
written bit is set (R229). -/
def lockBlock (m : Mem) (e : Eng) (v rho line : Nat) (d : Line) : Eng :=
  let x := getV e v
  if !x.cmp.lock then e
  else
    let t := line / 16
    let e1 := accumBytes e (lockTileAddr e v rho t) (wordBytes (lineDigest x.alpha (32 * line) d)) .plain
    putBit m e1 (lockBitAddr e v rho t) (tileNumber e v rho t % 8) true

/-- A Reach folds on the sender: its digest and those of its written tiles go to the lock-step partner (R229). -/
def lockFold (m : Mem) (e : Eng) (v rho : Nat) : Eng :=
  let x := getV e v
  match x.cmp.lock, x.cmp.lockPeer, reachAt e v rho with
  | true, some p, some r =>
    let n0 := tileNumber e v rho 0
    let cells := loadBytes m e (lockBitAddr e v rho 0) (r.tiles / 8 + 2)
    let on (t : Nat) : Bool := bit (cells.getD ((n0 + t) / 8 - n0 / 8) 0) ((n0 + t) % 8)
    let ts := if cells.all (· = 0) then [] else (List.range r.tiles).filter on
    let es : List DigEnt := ({ reach := rho, tile := wholeReach, digest := (getReach x rho).comm } : DigEnt) ::
      ts.map fun t => { reach := rho, tile := BitVec.ofNat 32 t, digest := loadWord m e (lockTileAddr e v rho t) }
    let e1 := (chop 126 es.length es).foldl (fun e c => sendPartner e v p x.epoch (.digests 2 x.step c)) e
    ts.foldl (fun e t => putBit m e (lockBitAddr e v rho t) (tileNumber e v rho t % 8) false) e1
  | _, _, _ => e

/-- Received lock-step digests (R230). -/
def lockRecv (m : Mem) (e : Eng) (v : Nat) (s : W64) (es : List DigEnt) : Eng :=
  let x := getV e v
  let usable (d : DigEnt) : Bool :=
    let r := getReach x d.reach
    decide (d.reach < (reachList e v).length) &&
      decide ((r.st = .folded ∨ r.st = .clean) ∧ r.lastStep = some s)
  let differs (d : DigEnt) : Bool :=
    if d.tile = wholeReach then decide ((getReach x d.reach).comm ≠ d.digest)
    else decide (loadWord m e (lockTileAddr e v d.reach d.tile.toNat) ≠ d.digest)
  let rhos := (es.map (·.reach)).eraseDups
  rhos.foldl (fun e rho =>
    let mine := es.filter fun d => decide (d.reach = rho)
    match mine with
    | [] => e
    | d0 :: _ =>
      if !usable d0 then drop e 22
      else
        let bad := mine.filter differs
        let seen (e : Eng) := updV e v fun x =>
          { x with cmp := { x.cmp with lockPeer := x.cmp.lockPeer.map fun p =>
              { p with last := s, differ := p.differ + (if bad.isEmpty then 0 else 1) } } }
        let e1 := seen e
        if bad.isEmpty ∨ (getReach (getV e v) rho).lockEv = some s then e1
        else
          let tiles := sortBy id ((bad.map fun d => d.tile.toNat).filter fun t => decide (t ≠ wholeReach.toNat))
          let t := BitVec.ofNat 32 (tiles.headD wholeReach.toNat)
          digestMismatch (updReach e1 v rho fun r => { r with lockEv := some s }) v 2 0 rho t s) e

end Sys2Proof.Machine
end

