-- ==== Sys2Proof/Machine/Commit.lean ====
section
/-!
DEFINITION. Machine/Commit.lean: the commit path of a Valley on one member: rings, seals, readiness, the
warden, folds, Watersheds, fences, settling and rollback (R59, R79, R84 to R95, R198, R254).
-/

namespace Sys2Proof.Machine

/-! ## Outbound rings (R100, R101) -/

def getOut (x : Valley) (d : Nat) : OutStream := Tab.get {} x.outs d
def updOut (e : Eng) (v d : Nat) (f : OutStream → OutStream) : Eng :=
  updV e v fun x => { x with outs := Tab.set x.outs d (f (getOut x d)) }

/-- The page of an inline entry. -/
def OutEntry.page? : OutEntry → Option Nat
  | .inline _ _ _ _ _ g => some g
  | _ => none

/-- The Reach of a block entry. -/
def OutEntry.blockReach? : OutEntry → Option Nat
  | .inline _ r _ _ _ _ => some r
  | .ref _ r _ _ => some r
  | .sealed _ _ _ _ => none

/-- Is the entry the seal of a Reach? -/
def OutEntry.isSealOf (rho : Nat) : OutEntry → Bool
  | .sealed r _ _ _ => decide (r = rho)
  | _ => false

/-- A descriptor page holds 256 descriptors of 16 bytes: allocate one when the ring needs it. -/
def growDescs (e : Eng) (v d : Nat) : Eng :=
  let s := getOut (getV e v) d
  if s.entries.length ≤ 256 * s.descs.length then e
  else match allocPage e 0 (.outRing v d) with
    | some (g, e1) => updOut e1 v d fun s => { s with descs := s.descs ++ [g] }
    | none => e

/-- Free the pages of a ring that no entry needs any more. -/
def trimOut (e : Eng) (v d : Nat) : Eng :=
  let s := getOut (getV e v) d
  let nd := (s.entries.length + 255) / 256
  let mine := (e.basin.owners.filter fun o => decide (o.2 = .outRing v d)).map (·.1)
  let used := s.entries.filterMap OutEntry.page?
  let cur := if s.entries.isEmpty then none else s.page
  let gone := mine.filter fun g =>
    !(s.descs.take nd).contains g && !used.contains g && decide (cur ≠ some g)
  freeBasin (updOut e v d fun s =>
    { s with descs := s.descs.take nd, page := cur, fill := if cur = none then 0 else s.fill }) gone

/-- Put an entry at the end of a ring. -/
def appendOut (e : Eng) (v d : Nat) (t : OutEntry) : Eng :=
  growDescs (updOut e v d fun s => { s with entries := s.entries ++ [t] }) v d

/-! ## Retained records (R61, R101) -/

/-- Free the retained records of a Reach: the chain of spill pages goes whole, and a reference entry that
named a freed record leaves its ring. -/
def freeRetained (e : Eng) (v rho : Nat) : Eng :=
  let x := getV e v
  let ch := Tab.get ({} : RetChain) x.chains rho
  let e1 := updV e v fun x =>
    { x with retained := x.retained.filter fun r => decide (r.reach ≠ rho), chains := Tab.del x.chains rho }
  let e2 := freeSpill e1 ch.pages
  (distances x).foldl (fun e d =>
    trimOut (updOut e v d fun s => { s with entries := s.entries.filter fun t => match t with
      | .ref _ r _ _ => decide (r ≠ rho)
      | _ => true }) v d) e2

/-! ## Seals (R79, R85, R198) -/

/-- Must the engine hold the seal of a residual Reach (R198)? -/
def sealHeld (x : Valley) (rho : Nat) : Bool :=
  decide (x.expo.epoch = x.epoch) && decide (x.expo.st ≠ .none) &&
    (x.expo.resFrames.any (fun p => decide (p.1 = rho ∧ x.expo.prefixN ≤ p.2)) ||
      (!x.crossMode &&
        x.expo.histReach.any fun p => decide (p.1 = rho ∧ (getReach x p.2).st ≠ .folded)))

/-- Is the Reach neither sealed nor folded in this epoch? -/
def unsealed (r : SReach) : Bool :=
  match r.st with
  | .clean => true
  | .written => true
  | _ => false

/-- A partial word of every staging FIFO is closed when a seal entry is queued (R107). -/
def closePartials (e : Eng) : Eng :=
  { e with lanes := e.lanes.map fun (i, l) =>
      (i, { l with fifo := l.fifo.map fun w => { w with closed := w.closed || decide (w.bytes.length < 256) } }) }

/-- Seal a Reach: one seal entry on each outbound stream to a live holder; a parity-only member sends none.
An unrebuilt Reach of a stand-in is sealed with count zero and the committed digest (R143). -/
def sealNow (e : Eng) (v rho : Nat) : Eng :=
  let x := getV e v
  let r := getReach x rho
  if !unsealed r then e
  else
    let e1 := updReach e v rho fun r => { r with st := .sealed, held := false }
    if x.parity then e1
    else (distances x).foldl (init := closePartials e1) fun e d =>
      if !isLive x (outPeer x d) then e
      else
        let n := if r.unbuilt then 0 else Tab.get 0 r.issued d
        let g := if r.unbuilt then r.comm else r.pend
        appendOut e v d (.sealed rho (BitVec.ofNat 32 n) g x.step)

/-- A seal by REACH_SEAL or auto-seal, which R198 can hold. -/
def sealReach (e : Eng) (v rho : Nat) : Eng :=
  let x := getV e v
  if unsealed (getReach x rho) && sealHeld x rho then updReach e v rho fun r => { r with held := true }
  else sealNow e v rho

/-- Auto-seal: a non-zero write to Reach `rho` seals every lower unsealed Reach that is not landing (R62). -/
def autoSeal (e : Eng) (v rho : Nat) : Eng :=
  ((reachList e v).filter fun r => decide (r.num < rho ∧ r.cls ≠ clsLanding)).foldl
    (fun e r => sealReach e v r.num) e

/-- Make the held seals whose conditions are met (R198). -/
def releaseSeals (e : Eng) (v : Nat) : Eng :=
  (reachList e v).foldl (fun e r =>
    let x := getV e v
    if (getReach x r.num).held && !sealHeld x r.num then sealNow e v r.num else e) e

/-- The writable Reaches of a Valley in reach fold (R62). A Reach already folded is none of them, so a non-zero write to it is
held (R313, test 3), where R85's table would suppress it (DEDUCED, notes/assumptions/67.md). -/
def writable (e : Eng) (v rho : Nat) : Bool :=
  let x := getV e v
  ((((reachList e v).filter fun r =>
    decide (r.cls ≠ clsLanding ∧ (getReach x r.num).st ≠ .folded)).take x.reachWindow).map (·.num)).contains rho

/-! ## Readiness (R84) -/

def getHold (x : Valley) (rho : Nat) : HReach := Tab.get {} x.hold rho

/-- Does R84 hold for a sender at distance `d` and a Reach? -/
def pairReady (x : Valley) (rho d : Nat) : Bool :=
  match Tab.find (getHold x rho).seals d with
  | some s => decide (Tab.get 0 (getHold x rho).applied d = s.count.toNat)
  | none => false

/-- Is the holder ready for a Reach (R84)? -/
def holderReady (x : Valley) (rho : Nat) : Bool := (countedSenders x).all (pairReady x rho)

/-- Do the sealed steps differ from each other or from the own step (R84)? -/
def holderSkew (x : Valley) (rho : Nat) : Bool :=
  let steps := (countedSenders x).filterMap fun d => (Tab.find (getHold x rho).seals d).map (·.step)
  let all := if x.parity then steps else x.step :: steps
  match all with
  | [] => false
  | s :: r => r.any fun t => decide (t ≠ s)

/-- The landing Reaches of a Valley. -/
def landingReaches (e : Eng) (v : Nat) : List Nat :=
  ((reachList e v).filter fun r => decide (r.cls = clsLanding)).map (·.num)

/-- The other Reaches of a Valley. -/
def otherReaches (e : Eng) (v : Nat) : List Nat :=
  ((reachList e v).filter fun r => decide (r.cls ≠ clsLanding)).map (·.num)

/-- Send every ready that is due, once the own Crossing is open (R84). -/
def sendReadies (e : Eng) (v : Nat) : Eng :=
  let x := getV e v
  if !isJoined x || !x.openHere then e
  else
    let land := landingReaches e v
    let e1 :=
      if x.landSent || x.landFold || !land.all (holderReady x) then e
      else
        sendCtl (updV e v fun x => { x with landSent := true }) v (wardenOf x) x.epoch
          (.landingReady (land.any (holderSkew x)))
    let due := (otherReaches e v).filter fun r =>
      !(getHold x r).ready && decide ((getReach x r).st ≠ .folded) && holderReady x r
    let e2 := updV e1 v fun x =>
      { x with hold := due.foldl (fun h r => Tab.set h r { Tab.get {} h r with ready := true }) x.hold }
    (chop 28 due.length due).foldl
      (fun e rs => sendCtl e v (wardenOf x) x.epoch (.reachReady (rs.map fun r => (r, holderSkew x r)))) e2

/-- Is an accumulate of a fold merge of this Valley outstanding (R88)? -/
def merging (e : Eng) (v : Nat) : Bool := e.io.acc.any fun r => decide (r.why = .merge v)

/-- Are all Reaches of the Valley folded on this member? -/
def allFolded (e : Eng) (v : Nat) : Bool :=
  (reachList e v).all fun r => decide ((getReach (getV e v) r.num).st = .folded)

/-- Send drained once every Reach is folded and every merge is complete (R88). -/
def sendDrained (e : Eng) (v : Nat) : Eng :=
  let x := getV e v
  if !isJoined x || x.drainSent || !allFolded e v || merging e v then e
  else sendCtl (updV e v fun x => { x with drainSent := true }) v (wardenOf x) x.epoch .drained

/-! ## Folds (R88) -/

/-- The key of a pending tile: Reach and tile index (R78). -/
def pendKey (rho i : Nat) : Nat := rho * 1048576 + i

/-- The pending tiles of a Reach: tile index and spill page. -/
def pendTiles (x : Valley) (rho : Nat) : List (Nat × Nat) :=
  (x.pend.filter fun p => decide (p.1 / 1048576 = rho)).map fun p => (p.1 % 1048576, p.2)

/-- Forget the pending tiles of a Reach and free their pages. -/
def dropPending (e : Eng) (v rho : Nat) : Eng :=
  let gs := (pendTiles (getV e v) rho).map (·.2)
  freeSpill (updV e v fun x => { x with pend := x.pend.filter fun p => decide (p.1 / 1048576 ≠ rho) }) gs

/-- Merge the pending tiles of a Reach into committed parity, each then into itself (R88). -/
def mergeReach (m : Mem) (e : Eng) (v rho : Nat) : Eng :=
  let e1 := (pendTiles (getV e v) rho).foldl (fun e (i, g) =>
    (List.range 16).foldl (fun e l =>
      let pl := spillPageAddr e g / 256 + l
      let c := loadLine m e pl
      accumDiff (accumDiff e (parityAddr e v rho i / 256 + l) c (.merge v)) pl c (.merge v)) e) e
  dropPending e1 v rho

/-- Fold one Reach that is not folded yet: as holder and as sender (R88). -/
def foldReach (m : Mem) (e : Eng) (v rho : Nat) : Eng :=
  if (getReach (getV e v) rho).st = .folded then e
  else
    let e1 := mergeReach m e v rho
    let e2 := updV e1 v fun x =>
      let old := Tab.get [] x.commHold rho
      { x with commHold := Tab.set x.commHold rho
                 ((getHold x rho).seals.foldl (fun t s => Tab.set t s.1 s.2.digest) old) }
    let e3 := freeRetained e2 v rho
    let e4 := updV e3 v fun x =>
      let r := getReach x rho
      setReach x rho { r with st := .folded, comm := if r.unbuilt then r.comm else r.pend, held := false
                              lastStep := some x.step }
    lockFold m e4 v rho

/-- Fold several Reaches. -/
def foldReaches (m : Mem) (e : Eng) (v : Nat) (rs : List Nat) : Eng :=
  rs.foldl (fun e r => foldReach m e v r) e

/-! ## The warden (R87) -/

/-- Are all live members in a set? -/
def coversLive (x : Valley) (s : W64) : Bool := (liveList x).all (bit s)

/-- Broadcast a refusal: no further fold this epoch (R87). -/
def wardenRefuse (e : Eng) (v : Nat) (st : W16) : Eng :=
  broadcast (updV e v fun x => { x with warden := { x.warden with refused := some st } }) v (.refuse st)

/-- The landing fold and the reach folds that the warden's collections allow in reach fold. -/
def wardenFolds (e : Eng) (v : Nat) : Eng :=
  let x := getV e v
  if x.crossMode then e
  else
    let e1 :=
      if !x.warden.landingB && !x.landFold && coversLive x x.warden.landing then
        broadcast (updV e v fun x => { x with warden := { x.warden with landingB := true } }) v
          (.landingFold false)
      else e
    let y := getV e1 v
    if !y.warden.landingB then e1
    else
      let due := (otherReaches e1 v).filter fun r =>
        !y.warden.foldedB.contains r && decide ((getReach y r).st ≠ .folded) &&
          coversLive y (Tab.get 0 y.warden.readies r)
      let e2 := updV e1 v fun x => { x with warden := { x.warden with foldedB := x.warden.foldedB ++ due } }
      (chop 28 due.length due).foldl (fun e rs => broadcast e v (.reachFold false rs)) e2

/-- The closing part of the warden's procedure. -/
def wardenClose (e : Eng) (v : Nat) : Eng :=
  let x := getV e v
  let need := (liveList x).filter fun i => !isParity x i
  let cs := need.filterMap fun i => Tab.find x.warden.closes i
  if cs.length ≠ need.length then e
  else if x.guard && x.crossMode && cs.any (·.poisoned) then wardenRefuse e v stPoisoned
  else if cs.any fun c => decide (c.step ≠ (cs.head?.map (·.step)).getD 0) then wardenRefuse e v stStepSkew
  else
    let e1 :=
      if x.crossMode && !x.warden.crossB && !x.crossFold && coversLive x x.warden.landing &&
          (otherReaches e v).all fun r => coversLive x (Tab.get 0 x.warden.readies r) then
        broadcast (updV e v fun x => { x with warden := { x.warden with crossB := true } }) v
          (.crossingFold false)
      else e
    if coversLive x x.warden.drained then
      broadcast (updV e1 v fun x => { x with warden := { x.warden with done := true } }) v
        (.watershed ((cs.head?.map (·.step)).getD x.step))
    else e1

/-- The warden's procedure after a report. Only the warden of the live set runs it. -/
def wardenRun (e : Eng) (v : Nat) (skew : Bool) : Eng :=
  let x := getV e v
  if x.warden.done || x.warden.refused.isSome then e
  else if skew then wardenRefuse e v stStepSkew
  else
    let e1 := wardenFolds e v
    if (getV e1 v).warden.refused.isSome then e1 else wardenClose e1 v

/-- A report reaches the warden: it is collected, and the procedure runs. A member that is not the warden,
or a report of another epoch, leaves the collections alone. -/
def wardenReport (e : Eng) (v sender : Nat) (epoch : W64) (skew : Bool) (f : Warden → Warden) : Eng :=
  let x := getV e v
  if x.self ≠ wardenOf x ∨ epoch ≠ x.epoch ∨ !isJoined x ∨ sender ≥ 64 then e
  else if x.warden.done || x.warden.refused.isSome then e
  else wardenRun (updV e v fun x => { x with warden := f x.warden }) v skew

/-! ## Latches and Watersheds (R89, R254, R311) -/

/-- The latch of a Valley: pending epoch-latched values take effect, and the counts of its regions return to
zero (R254, R311). -/
def latch (e : Eng) (v : Nat) : Eng :=
  let e1 := updV e v fun x =>
    { x with regs := { x.regs with commitF := x.regs.commit, drainF := x.regs.drain } }
  { e1 with regions := e1.regions.map fun (d, r) =>
      if !Region.empty r && decide (Region.valley r = v) then
        (d, { r with frozen := Region.frozenBit r, nonfin := 0, satur := 0, zeros := 0, suppr := 0 })
      else (d, r) }

/-- A new epoch or a new join: every event of a region that is raised once may be raised again (R95, R264). -/
def clearEvents (e : Eng) (v : Nat) : Eng :=
  { e with regions := e.regions.map fun (d, r) =>
      if !Region.empty r && decide (Region.valley r = v) then
        (d, { r with evUncr := false, evLate := false, evFroz := false, evNonf := false, evExp := false })
      else (d, r) }

/-- May a held Terrace 1 start be made at the Watershed recorded now: nothing that held it is left (R155, R157, R287)? -/
def heldFree (e : Eng) (x : Valley) (v : Nat) : Bool := x.t1.isNone && !correcting x && drainKeyed e v

/-- Record the Watershed of the current epoch and enter the next (R89, R86). A start that was held is made at it
(R155, R287). -/
def recordWatershed (m : Mem) (e : Eng) (v : Nat) (step : W64) : Eng :=
  let x := getV e v
  let folded := ((reachList e v).filter fun r => decide ((getReach x r.num).st = .folded)).length
  let w := x.epoch
  let rec_ : WsRecord :=
    { number := w, step := step, ts := e.side.ts, tag := x.tag, crossing := x.crossMode, folded := folded }
  let e1 := updV e v fun x => { x with ws := some rec_ }
  let e2 := raise e1 evWatershed stOK (some v) w step
  let e3 := match x.closeWait, x.fenceWait with
    | some c, none => updV (reply e2 c stOK w step) v fun x => { x with closeWait := none }
    | _, _ => e2
  let e4 := clearEvents (latch e3 v) v
  let e5 := updV e4 v fun x =>
    { x with
      epoch := w + 1
      phase := if x.phase = .frozen then .frozen else .idle
      opened := false, openHere := false, poisoned := false, landFold := false, crossFold := false
      recorded := true, refusal := none, closeRep := none, drainSent := false, landSent := false
      warden := {}
      reaches := x.reaches.map fun (i, r) =>
        (i, { r with st := .clean, issued := [], held := false, evSealed := false, evUnreb := false })
      hold := x.holdNext, holdNext := []
      summaries := x.summaries.filter fun s => decide (s.epoch ≠ w)
      t1o := { x.t1o with wsCount := x.t1o.wsCount + 1
                          pending := x.t1o.pending || (x.t1o.heldOne && heldFree e x v)
                          heldOne := x.t1o.heldOne && !heldFree e x v }
      t2o := { x.t2o with wsCount := x.t2o.wsCount + 1, held := x.t2o.held && !drainKeyed e v } }
  replicaSend m (spillEpoch e5 v) v w step

/-! ## Settling and fences (R92, R93) -/

/-- The settle summary of a member (R93): lowest unfolded Reach and the bitmap from it. -/
def settleOf (e : Eng) (v : Nat) : Nat × W64 :=
  let x := getV e v
  let n := (reachList e v).length
  let fo (r : Nat) : Bool := decide (r < n) && decide ((getReach x r).st = .folded)
  let f := (leastFrom (fun r => !fo r) n 0).getD n
  (f, (List.range 64).foldl (fun b i => if fo (f + i) then setBit b i else b) 0)

/-- Send a settle summary to one member. -/
def sendSummary (e : Eng) (v dst : Nat) : Eng :=
  let x := getV e v
  let s := settleOf e v
  sendCtl e v dst x.epoch (.settle (BitVec.ofNat 32 s.1) x.landFold x.crossFold x.recorded s.2)

/-- Send the settle summary to every live member. -/
def sendSummaries (e : Eng) (v : Nat) : Eng :=
  (liveList (getV e v)).foldl (fun e i => sendSummary e v i) e

/-- The pairs of distance and Reach that fail R84 over the live set (QUERY item 0x03). -/
def failingPairs (e : Eng) (v : Nat) : List (Nat × Nat) :=
  let x := getV e v
  (reachList e v).flatMap fun r =>
    ((countedSenders x).filter fun d => !pairReady x r.num d).map fun d => (r.num, d)

/-- Re-send the close and drained reports to the warden of the live set (R92). -/
def resendReports (e : Eng) (v : Nat) : Eng :=
  let x := getV e v
  let e1 := match x.closeRep with
    | some c => sendCtl e v (wardenOf x) x.epoch (.close c.step c.poisoned)
    | none => e
  if x.drainSent then sendCtl e1 v (wardenOf x) x.epoch .drained else e1

/-- A waiting CROSSING_CLOSE replies when the FENCE ends (R93). -/
def closeAfterFence (e : Eng) (v : Nat) : Eng :=
  let x := getV e v
  match x.closeWait with
  | none => e
  | some c =>
    let e1 := updV e v fun x => { x with closeWait := none }
    match x.ws with
    | some w => if w.number = x.closeEpoch then reply e1 c stOK w.number w.step else reply0 e1 c stPeerTimeout
    | none => reply0 e1 c stPeerTimeout

/-- End the waiting FENCE with a status (R92). The settle summaries kept for it are forgotten, whatever the status and
whatever their epoch (DEDUCED, notes/assumptions/67.md). -/
def endFence (e : Eng) (v : Nat) (st : W16) : Eng :=
  match (getV e v).fenceWait with
  | none => e
  | some f =>
    let e1 := updV e v fun x =>
      { x with fenceWait := none, fenced := decide (st = stOK), summaries := [] }
    let e2 :=
      if st = stOK then resendReports e1 v
      else raise e1 evFenceExpired stFenceTimeout (some v) (getV e1 v).epoch
        (BitVec.ofNat 64 (failingPairs e1 v).length)
    reply0 (closeAfterFence e2 v) f.cmd st

/-- The union of folds over the summaries of the current epoch (R93). -/
def applyUnion (m : Mem) (e : Eng) (v : Nat) : Eng :=
  let x := getV e v
  let ss := x.summaries.filter fun s => decide (s.epoch = x.epoch) && isLive x s.sender
  let all := (reachList e v).map (·.num)
  if ss.any (·.crossing) then
    updV (foldReaches m e v all) v fun x => { x with landFold := true, crossFold := true }
  else
    let e1 :=
      if ss.any (·.landing) && !x.landFold then
        updV (foldReaches m e v (landingReaches e v)) v fun x => { x with landFold := true }
      else e
    foldReaches m e1 v (all.filter fun r => ss.any fun s =>
      decide (r < s.first.toNat) || (decide (s.first.toNat ≤ r) && bit s.bitmap (r - s.first.toNat)))

/-- Does the fence's wait of R92 step 4 hold: R84 for every Reach that holds a seal of a live member? -/
def fenceCounts (e : Eng) (v : Nat) : Bool :=
  let x := getV e v
  (reachList e v).all fun r =>
    !((getHold x r.num).seals.any fun s => isLive x (inPeer x s.1)) || holderReady x r.num

/-- A waiting FENCE goes on (R92, R93). -/
def runFence (m : Mem) (e : Eng) (v : Nat) : Eng :=
  match (getV e v).fenceWait with
  | none => e
  | some f =>
    if !f.sent && !fenceCounts e v then e
    else if !f.settle then endFence e v stOK
    else
      let e1 :=
        if f.sent then e
        else sendSummaries (updV e v fun x => { x with fenceWait := some { f with sent := true } }) v
      let x1 := getV e1 v
      let e2 :=
        if x1.summaries.any fun s => decide (s.epoch = x1.epoch + 1) && isLive x1 s.sender then
          sendSummaries (recordWatershed m e1 v ((x1.closeRep.map (·.step)).getD x1.step)) v
        else e1
      let x2 := getV e2 v
      if (liveList x2).all fun i => x2.summaries.any fun s => decide (s.sender = i ∧ s.epoch = x2.epoch) then
        endFence (applyUnion m e2 v) v stOK
      else e2

/-- After counts, seals or folds have changed: readies and drained that are due go out, and a waiting FENCE
goes on. -/
def commitStep (m : Mem) (e : Eng) (v : Nat) : Eng := runFence m (sendDrained (sendReadies e v) v) v

/-! ## Received commit transactions (R81, R85, R87 to R90, R93) -/

/-- Would the fold be ignored: it arrives in HALTED (R88)? -/
def ignored (x : Valley) : Bool := decide (x.phase = .halted)

/-- A reach fold (R88): each Reach already folded is counted as an ignored fold, and so is a number that names no Reach
(DEDUCED, notes/assumptions/67.md). -/
def onReachFold (m : Mem) (e : Eng) (v : Nat) (rs : List Nat) : Eng :=
  let x := getV e v
  if ignored x then drop e 19
  else
    let n := (reachList e v).length
    rs.foldl (fun e r =>
      if n ≤ r ∨ (getReach (getV e v) r).st = .folded then drop e 19 else foldReach m e v r) e

/-- The landing fold (R88). -/
def onLandingFold (m : Mem) (e : Eng) (v : Nat) : Eng :=
  let x := getV e v
  if ignored x ∨ x.landFold then drop e 19
  else updV (foldReaches m e v (landingReaches e v)) v fun x => { x with landFold := true }

/-- The crossing fold (R88). -/
def onCrossingFold (m : Mem) (e : Eng) (v : Nat) : Eng :=
  let x := getV e v
  if ignored x ∨ x.crossFold then drop e 19
  else
    updV (foldReaches m e v ((reachList e v).map (·.num))) v fun x =>
      { x with landFold := true, crossFold := true }

/-- The watershed fold (R89); on a FROZEN member the step is that of its own close (R93). -/
def onWatershed (m : Mem) (e : Eng) (v : Nat) (step : W64) : Eng :=
  let x := getV e v
  if ignored x then drop e 19
  else if x.phase = .frozen then
    let e1 := recordWatershed m e v ((x.closeRep.map (·.step)).getD x.step)
    match x.fenceWait with
    | some f => if f.sent then sendSummaries e1 v else e1
    | none => e1
  else recordWatershed m e v step

/-- A refuse fold (R90). In IDLE, of which R90 does not speak, the refusal is raised and remembered and the phase stays
(DEDUCED, notes/assumptions/67.md). -/
def onRefuse (e : Eng) (v sender : Nat) (st : W16) : Eng :=
  let x := getV e v
  if ignored x ∨ x.refusal.isSome then drop e 19
  else
    let e1 := updV e v fun x =>
      { x with refusal := some st
               phase := match x.phase with
                 | .opened => .halted
                 | .closing => .halted
                 | p => p }
    let e2 := raise e1 evRefused st (some v) x.epoch (BitVec.ofNat 64 sender)
    match x.closeWait with
    | some c => updV (reply0 e2 c st) v fun x => { x with closeWait := none }
    | none => e2

/-- Keep a settle summary, the newest of its sender and epoch (R93). -/
def keepSummary (e : Eng) (v : Nat) (s : Summary) : Eng :=
  updV e v fun x =>
    { x with summaries := (x.summaries.filter fun t =>
        !decide (t.sender = s.sender ∧ t.epoch = s.epoch)) ++ [s] }

/-- Deliver a transaction of the commit path that has passed its checks: to the warden, or to a member. A fold, refuse or
watershed of the next epoch, which R76 admits, has no effect at a member that is still in its own epoch (DEDUCED,
notes/assumptions/67.md). -/
def deliver (m : Mem) (e : Eng) (v sender : Nat) (epoch : W64) (g : Msg) : Eng :=
  let now (f : Eng → Eng) : Eng := if epoch = (getV e v).epoch then f e else e
  let e1 := match g with
    | .reachReady es =>
      wardenReport e v sender epoch (es.any (·.2)) fun w =>
        { w with readies := es.foldl (fun t x => Tab.upd 0 t x.1 fun s => setBit s sender) w.readies }
    | .landingReady skew =>
      wardenReport e v sender epoch skew fun w => { w with landing := setBit w.landing sender }
    | .close step p =>
      wardenReport e v sender epoch false fun w =>
        { w with closes := Tab.set w.closes sender { step := step, poisoned := p } }
    | .drained => wardenReport e v sender epoch false fun w => { w with drained := setBit w.drained sender }
    | .reachFold _ rs => now fun e => onReachFold m e v rs
    | .landingFold _ => now fun e => onLandingFold m e v
    | .crossingFold _ => now fun e => onCrossingFold m e v
    | .watershed step => now fun e => onWatershed m e v step
    | .refuse st => now fun e => onRefuse e v sender st
    | .settle first l c r b =>
      keepSummary e v { sender := sender, epoch := epoch, first := first, landing := l, crossing := c
                        recorded := r, bitmap := b }
    | _ => e
  commitStep m e1 v

/-! ## Own reports (R87) -/

/-- Is the message one that the member sends to itself? -/
def ownMail (e : Eng) (c : CtlOut) : Bool := decide (c.dest = c.from_ ∧ c.dest = (getV e c.v).self) &&
  decide (c.tag = (getV e c.v).tag)

/-- The transactions that a member addresses to itself reach it internally (R87), in order. -/
def selfMail (m : Mem) : Nat → Eng → Eng
  | 0, e => e
  | fuel + 1, e =>
    match e.io.ctlOut.find? (ownMail e) with
    | none => e
    | some c =>
      let e1 := updIo e fun io => { io with ctlOut := io.ctlOut.erase c }
      selfMail m fuel (deliver m e1 c.v c.from_ c.epoch c.msg)

/-- Commit-path consequences of a change in Valley `v`, with the member's own mail. -/
def settleV (m : Mem) (e : Eng) (v : Nat) : Eng := selfMail m 100000 (commitStep m e v)

/-! ## Rollback (R94) -/

/-- Empty the recent-read window of every lane. -/
def emptyWindows (e : Eng) : Eng := { e with lanes := e.lanes.map fun (i, l) => (i, { l with window := [] }) }

/-- The Reaches of the current epoch that are not folded. -/
def unfoldedReaches (e : Eng) (v : Nat) : List ReachInfo :=
  (reachList e v).filter fun r => decide ((getReach (getV e v) r.num).st ≠ .folded)

/-- Has no Reach of the current epoch folded? -/
def noneFolded (e : Eng) (v : Nat) : Bool :=
  (reachList e v).all fun r => decide ((getReach (getV e v) r.num).st ≠ .folded)

/-- Outstanding accumulates of a Valley's blocks that `p` names by Reach count no longer: their counts are
forgotten (R94, R269). -/
def forgetBlocks (e : Eng) (v : Nat) (p : Nat → Bool) : Eng :=
  updIo e fun io => { io with acc := io.acc.map fun r => match r.why with
    | .block w _ rho _ => if w = v ∧ p rho then { r with why := .plain } else r
    | _ => r }

/-- Roll back one unfolded Reach: retained blocks are applied to the own data again, the committed digest
returns, pending parity is discarded and seals and counts are forgotten (R94). -/
def rollReach (e : Eng) (v : Nat) (r : ReachInfo) : Eng :=
  let x := getV e v
  let mine := x.retained.filter fun t => decide (t.reach = r.num)
  let w := typeWidth r.typ
  let e1 := mine.foldl (fun e t =>
    match decodeBlock w (16 * r.tiles) t.block with
    | some d => accumDiff e (r.base / 256 + t.line) d .plain
    | none => e) e
  let e2 := freeRetained e1 v r.num
  let e3 := updReach e2 v r.num fun s =>
    { s with st := .clean, issued := [], pend := s.comm, held := false }
  let e4 := dropPending e3 v r.num
  let e5 := forgetBlocks e4 v fun rho => decide (rho = r.num)
  updV e5 v fun x => { x with hold := Tab.del x.hold r.num, holdNext := Tab.del x.holdNext r.num }

/-- The digest terms of the retained blocks enter the tile digests again while lock-step runs (R229). -/
def rollLock (m : Mem) (e : Eng) (v : Nat) (r : ReachInfo) : Eng :=
  ((getV e v).retained.filter fun t => decide (t.reach = r.num)).foldl (fun e t =>
    match decodeBlock (typeWidth r.typ) (16 * r.tiles) t.block with
    | some d => lockBlock m e v r.num t.line d
    | none => e) e

/-- What the warden forgets (R87). -/
def rollWarden (x : Valley) (none_ : Bool) (folded : List Nat) : Warden :=
  if none_ then {}
  else
    { x.warden with
      readies := x.warden.readies.filter fun t => folded.contains t.1
      foldedB := x.warden.foldedB.filter fun r => folded.contains r
      landing := if x.landFold then x.warden.landing else 0
      landingB := x.landFold
      crossB := x.crossFold
      closes := [], drained := 0, done := false }

/-- Is anything of one Reach left to roll back? -/
def rollLeftReach (x : Valley) (rho : Nat) : Bool :=
  let s := getReach x rho
  decide (s.st ≠ .clean) || !s.issued.isEmpty || decide (s.pend ≠ s.comm) || s.held ||
    Tab.has x.hold rho || Tab.has x.holdNext rho || !(pendTiles x rho).isEmpty ||
    x.retained.any (fun t => decide (t.reach = rho)) || Tab.has x.chains rho

/-- Is anything left to roll back (R94)? -/
def rollLeft (e : Eng) (v : Nat) : Bool :=
  let x := getV e v
  let fo := ((reachList e v).filter fun r => decide ((getReach x r.num).st = .folded)).map (·.num)
  (unfoldedReaches e v).any (fun r => rollLeftReach x r.num) ||
    decide (x.warden ≠ rollWarden x fo.isEmpty fo) || x.closeRep.isSome || x.drainSent || (x.landSent && !x.landFold) ||
    (fo.isEmpty && (x.opened || x.openHere || x.poisoned || x.refusal.isSome))

/-- Carry out ROLLBACK on a member (R94). -/
def rollBack (m : Mem) (e : Eng) (v : Nat) : Eng :=
  let un := unfoldedReaches e v
  let e1 := un.foldl (fun e r => rollReach (rollLock m e v r) v r) e
  let e2 := emptyWindows e1
  let fo := ((reachList e2 v).filter fun r => decide ((getReach (getV e2 v) r.num).st = .folded)).map (·.num)
  let none_ := fo.isEmpty
  let e3 := updV e2 v fun x =>
    { x with warden := rollWarden x none_ fo, closeRep := none, drainSent := false
             landSent := x.landSent && x.landFold }
  if none_ then
    latch (updV e3 v fun x =>
      { x with opened := false, openHere := false, poisoned := false, refusal := none }) v
  else e3

/-- ROLLBACK on a member: with nothing left to roll back, it changes nothing (R94). -/
def rollback (m : Mem) (e : Eng) (v : Nat) : Eng := if rollLeft e v then rollBack m e v else e

end Sys2Proof.Machine
end

