-- ==== Sys2Proof/Machine/Lanes.lean ====
section
/-!
DEFINITION. Machine/Lanes.lean: the lanes: recent-read window, old lines, the judgement of coded writes,
suppression, coding into blocks, copy-on-write, the staging FIFO and the throttle (R11 to R15, R59 to R65,
R105 to R110, R159, R161, R195, R313).
-/

namespace Sys2Proof.Machine

/-! ## The recent-read window (R12 to R14) -/

/-- Lines that a window keeps. -/
def windowLines : Nat := 8192

/-- Enter a line as the most recent one (R12). -/
def winPut (w : List (Nat × Line)) (l : Nat) (x : Line) : List (Nat × Line) :=
  ((l, x) :: w.filter fun p => decide (p.1 ≠ l)).take windowLines

/-- Look a line up. -/
def winGet (w : List (Nat × Line)) (l : Nat) : Option Line := Tab.find w l

/-- Change the value of a line that the window holds, without changing its age. -/
def winFix (w : List (Nat × Line)) (l : Nat) (f : Line → Line) : List (Nat × Line) :=
  w.map fun p => if p.1 = l then (l, f p.2) else p

/-- Is a lane's clock gated: gated by LANE_GATE, and no accumulate presented since (R295)? -/
def laneGated (e : Eng) (i : Nat) : Bool :=
  (getLane e i).gated && decide ((Tab.get (0, 0) e.io.accLane i).1 = (getLane e i).gateAcc)

/-- Do the lanes run: after step 6 of the release order (R15, R31)? -/
def lanesRun (e : Eng) : Bool := decide (e.side.relStep = .ready)

/-! ## Copy-on-write (R159) and drain maps (R161) -/

/-- The key of a tile in a shadow directory. -/
def tileKey (rho t : Nat) : Nat := rho * 1048576 + t

/-- Is a tile in the drain set and not yet taken (R158)? -/
def untaken (r : T1Run) (rho t : Nat) : Bool := r.left.contains (rho, t)

/-- The number of a tile among the drained regions, for the drain map (R161). -/
def mapNumber (e : Eng) (v rho t : Nat) : Nat :=
  ((((reachList e v).take rho).filter fun r => decide (r.cls ≠ clsLanding)).map (·.tiles)).sum + t

/-- Tiles of the drained regions of a Valley (R151). -/
def mapTiles (e : Eng) (v : Nat) : Nat :=
  (((reachList e v).filter fun r => decide (r.cls ≠ clsLanding)).map (·.tiles)).sum

/-- Bytes of one drain map: a bit per tile, rounded up to whole 4 KiB pages. -/
def mapBytes (e : Eng) (v : Nat) : Nat := (mapTiles e v + 32767) / 32768 * 4096

/-- Base of drain map A (false) or B (true). -/
def mapBase (e : Eng) (v : Nat) (b : Bool) : Nat :=
  Valley.drainMap (getV e v) + (if b then mapBytes e v else 0)

/-- Set the bit of a written tile in the current drain map, if the Valley has one (R161). -/
def mapSet (m : Mem) (e : Eng) (v : Nat) (r : ReachInfo) (t : Nat) : Eng :=
  let x := getV e v
  if Valley.drainMap x = 0 ∨ r.cls = clsLanding then e
  else
    let n := mapNumber e v r.num t
    putBit m e (mapBase e v x.t1o.curB + n / 8) (n % 8) true

/-- Why a write waits in its lane (R110). -/
inductive LaneWait where
  | window
  | retention
  | shadow
  | room
deriving DecidableEq, Repr

/-- Copy-on-write of a line before a write with non-zero difference is accepted (R159): the engine
afterwards, or a wait for a shadow page. -/
def shadowLine (m : Mem) (e : Eng) (v : Nat) (r : ReachInfo) (line : Nat) (old : Line) : Eng × Bool :=
  match (getV e v).t1 with
  | none => (e, true)
  | some run =>
    let t := line / 16
    let key := tileKey r.num t
    let ent := Tab.find run.shadow key
    let bits := match ent with
      | some p => p.2
      | none => 0
    if !untaken run r.num t || bit bits (line % 16) then (e, true)
    else
      let place : Option Nat × Eng := match ent with
        | some p => (some p.1, e)
        | none => allocSpill m e .shadow v key
      match place with
      | (some g, e1) =>
        let e2 := accumDiff e1 (spillPageAddr e1 g / 256 + line % 16) old .plain
        (updV e2 v fun x =>
          { x with t1 := x.t1.map fun q =>
              { q with shadow := Tab.set q.shadow key (g, setBit bits (line % 16)) } }, true)
      | (none, e1) =>
        if Regs.shadowPolicy e.regs then (abandonT1 e1 v false, true) else (e1, false)

/-! ## Suppression (R60, R313) -/

/-- Count a suppressed write against its region and raise its event once per epoch. -/
def supprRegion (e : Eng) (v d : Nat) (seen : Region → Bool) (mark : Region → Region) (code st : W16)
    (epoch : W64) : Eng :=
  let r := getR e d
  let e1 := updR e d fun r => mark { r with suppr := satInc r.suppr }
  if seen r then e1 else raise e1 code st (some v) (BitVec.ofNat 64 d) epoch

/-- The same for the events that are raised once per Reach (R62, R143). -/
def supprReach (e : Eng) (v d rho : Nat) (seen : SReach → Bool) (mark : SReach → SReach) (code : W16) : Eng :=
  let x := getV e v
  let e1 := updReach (updR e d fun r => { r with suppr := satInc r.suppr }) v rho mark
  if seen (getReach x rho) then e1 else raise e1 code stOutOfRange (some v) (BitVec.ofNat 64 rho) x.epoch

/-- What the Valley's phase makes of a coded write with non-zero difference (R59). -/
inductive PhaseVerdict where
  | coded
  | uncrossed
  | late
deriving DecidableEq, Repr

/-- The table of R59; a Valley handled under R108 acts as in HALTED. -/
def phaseVerdict (x : Valley) (landing : Bool) : PhaseVerdict :=
  if x.faulted then .uncrossed
  else match x.phase, landing with
    | .idle, true => .coded
    | .idle, false => .uncrossed
    | .opened, true => .late
    | .opened, false => .coded
    | .closing, true => .late
    | .closing, false => .uncrossed
    | .halted, _ => .uncrossed
    | .frozen, _ => .uncrossed

/-! ## Coding (R61, R65) -/

/-- Count the elements of a write and raise NONFINITE under the guard (R65). -/
def countElems (e : Eng) (v d : Nat) (be : BitVec 256) (new : Line) : Eng :=
  let r := getR e d
  let x := getV e v
  let c := classify (Region.typ r) be new
  let e1 := updR e d fun r =>
    { r with nonfin := satAdd r.nonfin c.nonfin, satur := satAdd r.satur c.satur
             zeros := satAdd r.zeros c.zeros }
  if c.nonfin = 0 ∨ !x.guard then e1
  else
    let e2 := if x.crossMode then updV e1 v fun x => { x with poisoned := true } else e1
    if r.evNonf then e2
    else
      raise (updR e2 d fun r => { r with evNonf := true }) evNonfinite stOK (some v)
        (BitVec.ofNat 64 d) x.epoch

/-- The rows of a tile whose holders are live: row, distance, next sequence number (R61). -/
def liveRows (x : Valley) (j : Nat) : List (Nat × Nat × W32) :=
  ((List.range x.m).map fun p =>
    let h := holderOf x.n x.k x.self j p
    (p, subMod h x.self x.n, h)).filterMap fun (p, d, h) =>
      if isLive x h then some (p, d, (getOut x d).next) else none

/-- The entry of a row: the 8-byte prefix of R77 and the block scaled for the row (R55). -/
def entryBytes (seq : W32) (rho : Nat) (c : Byte) (block : List Byte) : List Byte :=
  wordBytes (pack [(0, seq.toNat), (32, rho)]) ++ scaleBlock c block

/-- The entries of a write for its live rows. -/
def entriesOf (x : Valley) (v rho line : Nat) (block : List Byte) : List Staged :=
  let j := line / 16 % x.k
  (liveRows x j).map fun (p, d, q) =>
    { v := v, d := d, body := .block q rho line p (entryBytes q rho (coef p j) block) }

/-- The bytes of a staged entry. -/
def Staged.bytes (s : Staged) : List Byte :=
  match s.body with
  | .block _ _ _ _ bs => bs
  | .sealed _ _ _ _ => []

/-- Pack entry bytes into the words of a staging FIFO: an open partial last word is filled first (R106). -/
def packBytes : Nat → List StgWord → Nat → List Byte → List StgWord
  | 0, ws, _, _ => ws
  | fuel + 1, ws, v, bs =>
    if bs.isEmpty then ws
    else
      match ws.getLast? with
      | some w =>
        if w.closed ∨ 256 ≤ w.bytes.length then
          packBytes fuel (ws ++ [{ bytes := [], closed := false, ends := [], parts := [] }]) v bs
        else
          let n := 256 - w.bytes.length
          packBytes fuel
            (ws.dropLast ++ [{ w with bytes := w.bytes ++ bs.take n
                                      parts := if w.parts.contains v then w.parts else w.parts ++ [v] }])
            v (bs.drop n)
      | none => packBytes fuel [{ bytes := [], closed := false, ends := [], parts := [] }] v bs

/-- Put one entry into the FIFO; the word that takes its last byte carries the entry. -/
def pushEntry (ws : List StgWord) (s : Staged) : List StgWord :=
  let r := packBytes 16 ws s.v s.bytes
  match r.getLast? with
  | some w => r.dropLast ++ [{ w with ends := w.ends ++ [s] }]
  | none => r

/-- Set the FIFO of a lane and its hysteresis (R109). -/
def setFifo (r : Regs) (i : Nat) (l : Lane) (ws : List StgWord) : Lane :=
  { l with fifo := ws
           fifoHyst := if Regs.wmHigh r i ≤ ws.length then true
                       else if ws.length ≤ Regs.wmLow r i then false else l.fifoHyst }

/-- Room for a retained record: its page and offset in the chain of its Reach (R101, R113). -/
def placeRecord (m : Mem) (e : Eng) (v rho size : Nat) : Option (Nat × Nat) × Eng :=
  let ch := Tab.get ({} : RetChain) (getV e v).chains rho
  let put (e : Eng) (ch : RetChain) : Option (Nat × Nat) × Eng :=
    (some (ch.pages.getD (ch.fill / 4096) 0, ch.fill % 4096),
     updV e v fun x => { x with chains := Tab.set x.chains rho { ch with fill := ch.fill + size } })
  if ch.fill + size ≤ 4096 * ch.pages.length then put e ch
  else match allocSpill m e .retention v rho with
    | (some g, e1) => put e1 { ch with pages := ch.pages ++ [g] }
    | (none, e1) => (none, e1)

/-- Code a write (R61): counts, digest, blocks for the live rows, sequence numbers, issued counts, the
retained record, the drain map and lock-step; or a wait. -/
def codeWrite (m : Mem) (e : Eng) (lane v d : Nat) (r : ReachInfo) (line : Nat) (be : BitVec 256)
    (new δ : Line) : Eng × Option LaneWait :=
  let x := getV e v
  let w := typeWidth r.typ
  let block := encodeBlock w line δ
  let es := entriesOf x v r.num line block
  let ws := es.foldl pushEntry (getLane e lane).fifo
  if 128 < ws.length then (e, some .room)
  else
    match placeRecord m e v r.num (16 + block.length) with
    | (none, e1) => (e1, some .retention)
    | (some (g, off), e1) =>
      let e2 := countElems e1 v d be new
      let e3 := updReach e2 v r.num fun s =>
        { s with st := if s.st = .clean then .written else s.st
                 pend := s.pend ^^^ lineDigest x.alpha (32 * line) δ
                 issued := es.foldl (fun t s => Tab.upd 0 t s.d (· + 1)) s.issued }
      let e4 := es.foldl (fun e s => updOut e v s.d fun o => { o with next := o.next + 1 }) e3
      let rows := liveRows x (line / 16 % x.k)
      let rec_ : Retained :=
        { reach := r.num, line := line, block := block, written := false, page := g, offset := off
          seqs := (List.range x.m).map fun p => (rows.find? fun t => decide (t.1 = p)).map (·.2.2) }
      let e5 := updV e4 v fun x => { x with retained := x.retained ++ [rec_] }
      let e6 := updLane e5 lane fun l => setFifo e5.regs lane l ws
      (lockBlock m (mapSet m e6 v r (line / 16)) v r.num line δ, none)

/-! ## The judgement of a coded write (R313) -/

/-- What the judgement says of a write. -/
inductive Verdict where
  | wait (w : LaneWait)
  | suppressed
  | performed
deriving DecidableEq, Repr

/-- Does a running export or reanchor name a region (R197)? -/
def exportNames (x : Valley) (d : Nat) : Bool := x.expo.jobs.any fun j => j.regions.contains d

/-- Tests 3 to 8 of R313, after copy-on-write: the Reach is known and the phase codes the write. -/
def judgeCoded (m : Mem) (e : Eng) (lane v d : Nat) (r : ReachInfo) (line : Nat) (be : BitVec 256)
    (new δ : Line) (engine : Bool) : Eng × Verdict :=
  let x0 := getV e v
  let reachFold := decide (x0.phase = .opened) && !x0.crossMode && decide (r.cls ≠ clsLanding)
  let e1 := if reachFold && x0.autoSeal then autoSeal e v r.num else e
  if reachFold && !writable e1 v r.num then (e1, .wait .window)
  else
    let x := getV e1 v
    let s := getReach x r.num
    if s.unbuilt then
      (supprReach e1 v d r.num (·.evUnreb) (fun s => { s with evUnreb := true }) evUnrebuilt, .suppressed)
    else if !engine && exportNames x d then
      (supprRegion e1 v d (·.evExp) (fun r => { r with evExp := true }) evExportWrite stOutOfRange x.epoch,
       .suppressed)
    else if (getR e1 d).frozen then
      (supprRegion e1 v d (·.evFroz) (fun r => { r with evFroz := true }) evFrozenWrite stFrozenWrite x.epoch,
       .suppressed)
    else if !unsealed s then
      (supprReach e1 v d r.num (·.evSealed) (fun s => { s with evSealed := true }) evSealedWrite, .suppressed)
    else
      match codeWrite m e1 lane v d r line be new δ with
      | (e2, some w) => (e2, .wait w)
      | (e2, none) => (e2, .performed)

/-- Judge a coded write (R313). `δ` is the difference over the enabled bytes. -/
def judge (m : Mem) (e : Eng) (lane line : Nat) (be : BitVec 256) (old new δ : Line) (engine : Bool) :
    Eng × Verdict :=
  if δ = 0 then (e, .performed)
  else match regionAt e (256 * line) with
    | none => (e, .performed)
    | some (d, reg) =>
      let v := Region.valley reg
      let x := getV e v
      if !isJoined x then
        (supprRegion e v d (·.evUncr) (fun r => { r with evUncr := true }) evUncrossed stOutOfRange 0,
         .suppressed)
      else match placeAt e v d (256 * line) with
        | none => (e, .performed)
        | some (r, l) =>
          match shadowLine m e v r l old with
          | (e0, false) => (e0, .wait .shadow)
          | (e0, true) =>
            match phaseVerdict (getV e0 v) (decide (r.cls = clsLanding)) with
            | .uncrossed =>
              (supprRegion e0 v d (·.evUncr) (fun r => { r with evUncr := true }) evUncrossed stOutOfRange
                 x.epoch, .suppressed)
            | .late =>
              (supprRegion e0 v d (·.evLate) (fun r => { r with evLate := true }) evLateLanding stOutOfRange
                 x.epoch, .suppressed)
            | .coded => judgeCoded m e0 lane v d r l be new δ engine

/-! ## A lane at work -/

/-- The line after a write: the enabled bytes are new, the others keep the old value (R14). -/
def mergeLine (be : BitVec 256) (old new : Line) : Line := (old &&& ~~~ beMask be) ||| (new &&& beMask be)

/-- Clear the causes that belong to the write at the head of the lane. -/
def clearWaits (l : Lane) : Lane := { l with retCause := false, shadCause := false, winCause := false }

/-- Does any throttle cause hold for a lane (R110)? -/
def anyCause (l : Lane) : Bool :=
  l.fifoHyst || decide (4 ≤ l.q.length) || l.winCause || l.retCause || l.shadCause || l.rstCause

/-- sce_lane_wthr_n falls when a cause holds (R110). -/
def throttle (l : Lane) : Lane := if anyCause l then { l with wthr := false } else l

/-- Set the cause of a wait. -/
def setWait (l : Lane) (w : LaneWait) : Lane :=
  match w with
  | .window => { l with winCause := true }
  | .retention => { l with retCause := true }
  | .shadow => { l with shadCause := true }
  | .room => l

/-- After a suppressed write the window holds the old line again in place of the new one (R60). A later write that the
lane has accepted keeps the old line that R13 gave it, and the window then holds the line as memory will hold it once the
restoring request and that write are done (DEDUCED, notes/assumptions/66.md). -/
def restoreOld (l : Lane) (line : Nat) (old δ : Line) : Lane :=
  let later := l.q.any fun w => decide (w.line = line)
  { l with window := winFix l.window line fun x => if later then x ^^^ δ else old }

/-- The controller performs a coded write that the lane is through with, unless it has performed it before (R16); an
engine coded write changes its line by an accumulate only (R195). -/
def performWrite (m : Mem) (w : LaneWrite) : Mem :=
  if w.inMem || w.engine then m else Mem.writeLine m w.line w.be w.new

/-- Take the writes at the head of a lane one after another, until one must wait (R13, R61, R106). -/
def pumpLane (i : Nat) : Nat → Mem → Eng → Mem × Eng
  | 0, m, e => (m, e)
  | fuel + 1, m, e =>
    match (getLane e i).q with
    | [] => (m, updLane e i clearWaits)
    | w :: rest =>
      match w.old with
      | none => (m, e)
      | some old =>
        let δ := (old ^^^ w.new) &&& beMask w.be
        let e0 := updLane e i clearWaits
        match judge m e0 i w.line w.be old w.new δ w.engine with
        | (e1, .wait c) => (m, updLane e1 i fun l => setWait l c)
        | (e1, .performed) =>
          let e2 := updLane e1 i fun l => { l with q := rest }
          pumpLane i fuel (performWrite m w) (if w.engine then accumDiff e2 w.line δ .plain else e2)
        | (e1, .suppressed) =>
          let e2 := updLane e1 i fun l => restoreOld { l with q := rest } w.line old δ
          pumpLane i fuel (performWrite m w) (if w.engine then e2 else accumDiff e2 w.line δ .plain)

/-- Pump a lane and set its throttle. -/
def runLane (m : Mem) (e : Eng) (i : Nat) : Mem × Eng :=
  let r := pumpLane i 9 m e
  (r.1, updLane r.2 i throttle)

/-- A read snoop enters its line (R12). -/
def snoop (e : Eng) (i line : Nat) (data : Line) : Eng :=
  if !lanesRun e then e
  else updLane e i fun l =>
    { l with window := winPut l.window line data, gated := false, idleFrom := e.side.ts }

/-- The lane accepts a coded write, the controller's or the engine's own: window lookup, hit or miss, and the new line in
the window (R13, R195). -/
def takeWrite (e : Eng) (i line : Nat) (be : BitVec 256) (new : Line) (engine : Bool) : Eng :=
  let old := winGet (getLane e i).window line
  let e1 := updLane e i fun l =>
    { l with
      hit := if old.isSome then l.hit + 1 else l.hit
      miss := if old.isSome then l.miss else l.miss + 1
      window := winPut l.window line (match old with
        | some o => mergeLine be o new
        | none => new)
      q := l.q ++ [{ line := line, be := be, new := new, old := old, engine := engine, num := e.io.writes }]
      gated := false, idleFrom := e.side.ts }
  updIo e1 fun io => { io with writes := io.writes + 1 }

/-- The lane accepts a coded write of the controller (R13). -/
def acceptWrite (e : Eng) (i line : Nat) (be : BitVec 256) (new : Line) : Eng := takeWrite e i line be new false

/-- The first write of a lane that has asked for its old line. -/
def firstUnknown : List LaneWrite → Option LaneWrite
  | [] => none
  | w :: r => if w.old = none then some w else firstUnknown r

/-- The old line arrives for the first write that waits for one (R13). -/
def giveOld (data : Line) : List LaneWrite → List LaneWrite
  | [] => []
  | w :: r => if w.old = none then { w with old := some data } :: r else w :: giveOld data r

/-- Changes of package memory and engine by one lane command. -/
def laneResult (s : State) (r : Mem × Eng) : State := { s with mem := r.1, eng := r.2 }

/-! ## Engine coded writes (R195) -/

/-- Is an engine coded write to the line still in its lane? -/
def engineInLane (e : Eng) (line : Nat) : Bool :=
  (getLane e (Config.laneOf line).val).q.any fun w => w.engine && decide (w.line = line)

/-- Present one engine coded write to the lane of its line, its new line formed from the engine's own load (R195), and
let the lane work on it. The lane is empty, so no other write is performed. -/
def engineWrite (m : Mem) (e : Eng) (w : EngWrite) : Eng :=
  let old := loadLine m e w.line
  let be : BitVec 256 := w.bytes.foldl (fun b x => setBit b x.1) 0
  let new := Line.ofBytes ((List.range 256).map fun i => Tab.get (Line.byte old i) w.bytes i)
  let i := (Config.laneOf w.line).val
  (runLane m (takeWrite e i w.line be new true) i).2

/-- May the engine present a write to the lane of a line: the lane holds no write? -/
def engineRoom (e : Eng) (line : Nat) : Bool := (getLane e (Config.laneOf line).val).q.isEmpty

/-! ## Writes before accumulates (R16) -/

/-- Coded writes of one lane that come before an accumulate: to its line, accepted before it was issued, and not performed
yet. A write that waits for a shadow page, and those behind it, have not been accepted in the sense of R159. -/
def writesBefore (l : Lane) (r : AccReq) : List LaneWrite :=
  if l.shadCause then [] else l.q.filter fun w => decide (w.line = r.line ∧ w.num < r.after) && !w.inMem && !w.engine

/-- Mark the writes that come before an accumulate as performed. -/
def markBefore (l : Lane) (r : AccReq) : Lane :=
  if l.shadCause then l
  else { l with q := l.q.map fun w => if w.line = r.line ∧ w.num < r.after then { w with inMem := true } else w }

/-- Before an accumulate is done, the controller has performed every coded write to its line that the lanes accepted
before it was issued (R16). -/
def performBefore (m : Mem) (e : Eng) (r : AccReq) : Mem × Eng :=
  (e.lanes.foldl (fun m l => (writesBefore l.2 r).foldl (fun m w => Mem.writeLine m w.line w.be w.new) m) m,
   { e with lanes := e.lanes.map fun (i, l) => (i, markBefore l r) })

end Sys2Proof.Machine
end

