-- ==== Sys2Proof/Machine/Command.lean ====
section
/-!
DEFINITION. Machine/Command.lean: how driver commands are taken and checked (R236, R237, R240, R247 to R250).
-/

namespace Sys2Proof.Machine

/-! ## Opcodes (R248, R258 and the tables of chapter 09) -/

/-- The opcodes of the family table. -/
def listedOps : List Nat :=
  [0x01, 0x02, 0x03, 0x10, 0x11, 0x12, 0x18, 0x19, 0x1A, 0x20, 0x21, 0x22, 0x23, 0x24, 0x28, 0x30, 0x31, 0x32, 0x33,
   0x34, 0x38, 0x39, 0x3A, 0x40, 0x41, 0x44, 0x45, 0x46, 0x50, 0x51, 0x60, 0x61, 0x68, 0x70, 0x78, 0x7E]

/-- The opcodes that only the physical function issues (R250). -/
def physicalOps : List Nat := [0x60, 0x61, 0x68, 0x70, 0x78, 0x7E]

/-- Does a packet name a Valley in its word 0? QUERY does for the items 0x02 to 0x07 (R258). -/
def namesValley (p : BitVec 512) : Bool :=
  let o := (pkOp p).toNat
  (decide (0x10 ≤ o ∧ o ≤ 0x51) && !decide (0x18 ≤ o ∧ o ≤ 0x1A)) ||
    (decide (o = 0x03) && decide (2 ≤ pkf p 1 0 8 ∧ pkf p 1 0 8 ≤ 7))

/-! ## Versions (R247, R261) -/

/-- The highest version implemented: major and minor. The boot ROM implements 1.0. -/
def highestVersion (e : Eng) : Nat × Nat :=
  match e.ctl.image with
  | some i => (i.major, i.minor)
  | none => (1, 0)

/-- A version in the layout of NEGOTIATE's w1. -/
def versionWord (v : Nat × Nat) : W64 := pack [(0, v.1), (4, v.2)]

/-- The version chosen for an offer of at least 1.0: the highest one implemented that does not exceed it. -/
def chooseVersion (hi offer : Nat × Nat) : Nat × Nat :=
  if hi.1 < offer.1 then hi else if offer.1 = hi.1 then (hi.1, min hi.2 offer.2) else (1, 0)

/-- Commands of a function from doorbell to reply, on every queue of it (R247). -/
def outstanding (e : Eng) (fn : Byte) : Nat :=
  ((e.ctl.queues.filter fun x => decide (x.2.owner = fn)).map fun x =>
    (x.2.sub + 2048 - x.2.fetch - x.2.buf.length) % 1024 + x.2.out).sum

/-- Commands outstanding on all queues (R262). -/
def outstandingAll (e : Eng) : Nat :=
  (e.ctl.queues.map fun x => (x.2.sub + 2048 - x.2.fetch - x.2.buf.length) % 1024 + x.2.out).sum

/-! ## Checks of R250, steps 1 to 4 -/

/-- Is the partition of a function being revoked (R272)? -/
def revoking (e : Eng) (fn : Byte) : Bool :=
  e.ctl.revokes.any fun r => decide (BitVec.ofNat 8 (0x40 + r.vf) = fn)

/-! ### Address ranges of other partitions (R250 step 4)

The ranges of a partition that the engine knows are its Valleys' regions, parity areas and drain maps (R272). -/

/-- Does a range touch one that belongs to a Valley of another function? -/
def foreignRange (e : Eng) (fn : Byte) (a n : Nat) : Bool :=
  (e.regions.any fun r => !Region.empty r.2 && !placeless e r.2 && decide ((getV e (Region.valley r.2)).fn ≠ fn) &&
    overlaps a n (Region.base r.2) (4096 * Region.tiles r.2)) ||
  e.valleys.any fun y => decide (y.2.fn ≠ fn) &&
    (overlaps a n y.2.area y.2.areaLen ||
      (isDefined y.2 && decide (Valley.drainMap y.2 ≠ 0) &&
        overlaps a n (Valley.drainMap y.2) (2 * mapBytes e y.1)))

/-- The ranges that a packet names itself: address word and bytes. -/
def namedRanges (e : Eng) (p : BitVec 512) : List (W64 × Nat) :=
  let v := pkValley p
  let x := getV e v
  let reaches := (reachList e v).length
  match (pkOp p).toNat with
  | 0x02 => [(pkw p 1, 16 * pkf p 2 0 9)]
  | 0x03 => [(pkw p 3, pkf p 4 0 32)]
  | 0x11 => [(pkw p 2, 4096 * parityTotal e v), (pkw p 5, 8 * x.n)]
  | 0x18 => [(BitVec.ofNat 64 (Region.base { w0 := pkw p 2, w1 := pkw p 3 }),
              4096 * Region.tiles { w0 := pkw p 2, w1 := pkw p 3 })]
  | 0x23 => if pkw p 1 = 0 then [] else [(pkw p 1, 32)]
  | 0x33 => if pkA p then [(pkw p 5, (tileTotal e v + parityTotal e v + 7) / 8)] else []
  | 0x34 => [(pkw p 2, 32 * pkf p 3 0 7)]
  | 0x39 => [(pkw p 2, 16 * reaches), (pkw p 3, 8 * (pkf p 1 8 3 + 1))]
  | 0x3A => [(pkw p 2, 8 * tileTotal e v + (tileTotal e v + 32767) / 32768 * 4096)]
  | 0x41 => [(pkw p 2, 16 * pkf p 1 8 4), (pkw p 3, 32 * pkf p 4 0 7)]
  | 0x44 => [(pkw p 3, 32 * pkf p 4 0 25)]
  | 0x45 => [(pkw p 2, 16 * pkf p 1 8 4), (pkw p 3, 64 * pkf p 4 0 25)] ++
      (if pkA p || pkw p 6 = 0 then [] else [(pkw p 6, 64 * (1 + pkf p 4 0 25))])
  | 0x46 => [(pkw p 1, 64)]
  | 0x50 => [(pkw p 4, 64 * pkf p 5 0 21), (pkw p 6, 131072)]
  | 0x51 => [(pkw p 4, 64 * pkf p 5 0 21)]
  | _ => []

/-- Does a virtual function name a range of another partition? -/
def namesForeign (e : Eng) (fn : Byte) (p : BitVec 512) : Bool :=
  decide (fn ≠ 0) && (namedRanges e p).any fun r => !isHost r.1 && foreignRange e fn (addrOf r.1) r.2

/-- The first of the checks 1 to 4 of R250 that fails, if any. -/
def preCheck (e : Eng) (q : Nat) (p : BitVec 512) : Option W16 :=
  let fn := (getQ e q).owner
  let o := (pkOp p).toNat
  let ver := Tab.find e.ctl.negotiated fn.toNat
  if o ≠ 0x01 ∧ ver.map (· % 16) ≠ some (pkVersion p) then some stBadVersion
  else if o = 0x01 ∧ pkf p 1 0 4 = 0 then some stBadVersion
  else if !listedOps.contains o then some stBadOpcode
  else if e.ctl.bootRom ∧ o ≠ 0x01 ∧ o ≠ 0x7E then some stBadOpcode
  else if revoking e fn then some stRevoked
  else if fn ≠ 0 ∧ physicalOps.contains o then some stDenied
  else if namesValley p && !fnHoldsValley e fn (pkValley p) then some stDenied
  else if namesForeign e fn p then some stDenied
  else none

/-! ## Taking a command (R249) -/

/-- The packet at the head of a queue's fetch buffer, unless it waits there: the ordered flag waits for every earlier
reply, and then all commands without a reply stand in the buffer. -/
def headPacket (x : Queue) : Option (BitVec 512) :=
  match x.buf with
  | [] => none
  | p :: _ => if pkOrdered p && decide (x.out ≠ x.buf.length) then none else some p

/-- How many turns of the round robin pass from queue `t` to queue `q`: 0 for the queue behind `t`, 63 for `t` itself. -/
def turnsTo (t q : Nat) : Nat := (q + 127 - t % 64) % 64

/-- Is it queue `q`'s turn (R249): no other queue with a packet to take comes before it in the round robin? -/
def inTurn (e : Eng) (q : Nat) : Bool :=
  e.ctl.queues.all fun x => (headPacket x.2).isNone || decide (turnsTo e.ctl.turn q ≤ turnsTo e.ctl.turn x.1)

/-- The packet that the control processor takes next, if it stands at the head of queue `q`. -/
def headReady (e : Eng) (q : Nat) : Option (BitVec 512) :=
  if !cpRuns e || e.ctl.noTake || !inTurn e q then none else headPacket (getQ e q)

/-- The head packet leaves the fetch buffer; the next turn is that of the queue behind (R249). -/
def dropHead (e : Eng) (q : Nat) : Eng :=
  let e1 := updQ e q fun x => { x with buf := x.buf.drop 1, fetch := (x.fetch + 1) % 1024 }
  { e1 with ctl := { e1.ctl with turn := q } }

/-- Read the word of the fetch buffer that holds the head packet (R211, R215). -/
def readHead (e : Eng) (q : Nat) : Eng :=
  engineReads e fun k => decide (queueWord e q (getQ e q).fetch = some k)

/-- Take the head packet: it is read from its word, and leaves the fetch buffer. -/
def popHead (e : Eng) (q : Nat) : Eng := dropHead (readHead e q) q

/-- The queue whose turn it is, if any has a packet to take. -/
def nextQueue (e : Eng) : Option Nat := (Tab.keys e.ctl.queues).find? fun q => (headReady e q).isSome

/-- Take packets in turn as long as no row of the command table has their opcode: each is answered. -/
def answerUnlisted : Nat → Eng → Eng
  | 0, e => e
  | fuel + 1, e =>
    match nextQueue e with
    | none => e
    | some q =>
      match headReady e q with
      | none => e
      | some p =>
        if listedOps.contains (pkOp p).toNat then e
        else
          let e1 := dropHead e q
          answerUnlisted fuel (reply0 e1 (cmdOf q p) ((preCheck e1 q p).getD stBadOpcode))

/-- Answer them until a command of the table has its turn. -/
def answerAll (e : Eng) : Eng := answerUnlisted 8192 e

/-- Take the command at the head of queue `q` when it has the row's opcode, check it, and run its entry. With
another command at the head, or none ready, the row's occasion does not hold and nothing changes. -/
def runCmd (q op : Nat) (s : State) (f : Eng → Cmd → BitVec 512 → Eng) : State :=
  match headReady s.eng q with
  | none => s
  | some p =>
    if (pkOp p).toNat ≠ op then s
    else
      let e1 := popHead s.eng q
      let c := cmdOf q p
      let e2 := match preCheck e1 q p with
        | some st => reply0 e1 c st
        | none => f e1 c p
      { s with eng := answerAll e2 }

/-- The function that issues the commands of a queue. -/
def fnOf (e : Eng) (c : Cmd) : Byte := (getQ e c.q).owner

end Sys2Proof.Machine
end

