-- ==== Sys2Proof/Machine/Crypto.lean ====
section
/-!
DEFINITION. Machine/Crypto.lean: the keys and messages that the crypto unit derives, seals and opens (R166, R200,
R283, R289, R290), over the uninterpreted functions of Config.
-/

namespace Sys2Proof.Machine

/-- The bytes of an ASCII string, with no terminator (R283). -/
def ascii (s : String) : List Byte := s.toList.map fun c => BitVec.ofNat 8 c.toNat

/-- A 256-bit key from 32 bytes. -/
def keyOf (bs : List Byte) : BitVec 256 := BitVec.ofNat 256 (bytesNat (bs.take 32))

/-- The group order q of P-384 (R283 names the curve; the number is the published standard's, notes/assumptions/4.md). -/
def p384Order : Nat :=
  0xFFFFFFFFFFFFFFFFFFFFFFFFFFFFFFFFFFFFFFFFFFFFFFFFC7634D81F4372DDF581A0DB248B0A77AECEC196ACCC52973

/-- The agreement scalar d of a device key (R283). -/
def agreementScalar (dev : BitVec 256) : Nat :=
  bytesNat (Config.hkdf (natBytes 32 dev.toNat) [] (ascii "SCE agreement") 48) % (p384Order - 1) + 1

/-- The agreement public key Q = d·G (R283). -/
def agreementKey (dev : BitVec 256) : List Byte := Config.p384Base (agreementScalar dev)

/-- Z, the x coordinate of d·E (R284). -/
def agreementZ (dev : BitVec 256) (point : List Byte) : List Byte := Config.p384Mul (agreementScalar dev) point

/-- The drain key of a nonce (R283). -/
def drainKey (job : BitVec 256) (nonce : BitVec 128) : BitVec 256 :=
  keyOf (Config.hkdf (natBytes 32 job.toNat) (natBytes 16 nonce.toNat) (ascii "SCE drain") 32)

/-- The round key of an export (R283). -/
def roundKey (exch : BitVec 256) (round : W64) (tag : W16) (member : Nat) : BitVec 256 :=
  keyOf (Config.hkdf (natBytes 32 exch.toNat) (wordBytes round)
    (ascii "SCE round" ++ natBytes 2 tag.toNat ++ natBytes 1 member) 32)

/-- An IV: kind, number, chunk (R166). -/
def ivOf (kind number chunk : Nat) : BitVec 96 := BitVec.ofNat 96 (kind * 2 ^ 88 + number * 2 ^ 56 + chunk * 2 ^ 24)

/-- The drain nonce: 8 random bytes, then the timestamp (R166); the request is counted for the reseed (R288). -/
def drawNonce (e : Eng) : BitVec 128 × Eng :=
  (BitVec.ofNat 128 ((Config.randomWord e.ctl.drbgCount).toNat + 2 ^ 64 * e.side.ts.toNat),
   { e with ctl := { e.ctl with drbgCount := e.ctl.drbgCount + 1 } })

/-- A record of `n` bytes with an authenticated header: the words, zeros, then the tag over all before it. -/
def sealRecord (key : BitVec 256) (iv : BitVec 96) (n : Nat) (ws : List W64) : List Byte :=
  let body := (wordsBytes ws ++ List.replicate n 0).take (n - 16)
  body ++ natBytes 16 (Config.gcmTag key iv body []).toNat

/-- Is the tag of such a record good? -/
def recordGood (key : BitVec 256) (iv : BitVec 96) (bs : List Byte) : Bool :=
  (Config.gcmOpen key iv (bs.take (bs.length - 16)) []
    (BitVec.ofNat 128 (bytesNat (bs.drop (bs.length - 16))))).isSome

end Sys2Proof.Machine
end

