-- ==== Sys2Proof/Machine/Quant.lean ====
section
/-!
DEFINITION. Machine/Quant.lean: the arithmetic of one export block (R188 to R194): fp32 and bf16 values as
exact multiples of 2^-149, rounding to nearest even, the E4M3 encoding, the choice of the scale and the
generator of stochastic rounding.
-/

namespace Sys2Proof.Machine

/-! ## fp32 values, exactly -/

/-- A finite fp32 value: its sign and its magnitude in units of 2^-149, the spacing of the subnormals. -/
structure Fp where
  neg : Bool
  mag : Nat
deriving DecidableEq, Repr

/-- A finite fp32 bit pattern as an exact value; none when it is not finite (R39). -/
def fpOf (x : W32) : Option Fp :=
  let ex := fld x 23 8
  let f := fld x 0 23
  if ex = 255 then none
  else some { neg := bit x 31, mag := if ex = 0 then f else (2 ^ 23 + f) * 2 ^ (ex - 1) }

/-- An element of type bf16 or fp32 from its bytes, converted to fp32 exactly (R189). -/
def elemFp (typ : Nat) (bs : List Byte) : Option Fp :=
  let n := bytesNat bs
  if typ = 1 then fpOf (BitVec.ofNat 32 (n * 65536)) else fpOf (BitVec.ofNat 32 n)

/-- A magnitude rounded to nearest even with `p` significant bits; numbers below 2^p are exact. -/
def roundMag (p a : Nat) : Nat :=
  if a < 2 ^ p then a
  else
    let sh := Nat.log2 a + 1 - p
    let q := a / 2 ^ sh
    let r := a % 2 ^ sh
    (if 2 ^ sh < 2 * r ∨ (2 * r = 2 ^ sh ∧ q % 2 = 1) then q + 1 else q) * 2 ^ sh

/-- The first magnitude beyond fp32: 2^128. -/
def fpLimit : Nat := 2 ^ 277

/-- The sum of two values rounded to nearest even in fp32, subnormals kept (R189); none when it is not finite. A zero
sum is negative only when both addends are. -/
def fpAdd (x y : Fp) : Option Fp :=
  let s : Fp :=
    if x.neg = y.neg then { neg := x.neg, mag := x.mag + y.mag }
    else if y.mag < x.mag then { neg := x.neg, mag := x.mag - y.mag }
    else if x.mag < y.mag then { neg := y.neg, mag := y.mag - x.mag }
    else { neg := false, mag := 0 }
  let a := roundMag 24 s.mag
  if fpLimit ≤ a then none else some { s with mag := a }

/-- The opposite value. -/
def Fp.opp (x : Fp) : Fp := { x with neg := !x.neg }

/-- The bit pattern of a value that fp32 holds exactly. -/
def fpBits (x : Fp) : Nat :=
  (if x.neg then 2 ^ 31 else 0) +
    (if x.mag < 2 ^ 24 then x.mag
     else
       let sh := Nat.log2 x.mag - 23
       sh * 2 ^ 23 + x.mag / 2 ^ sh)

/-- A value stored in the residual type (R194): its bytes, and whether it was saturated. bf16 rounds to nearest
even, and a magnitude beyond 0x7F7F is stored as 0x7F7F. -/
def storeFp (typ : Nat) (x : Fp) : List Byte × Bool :=
  let b := fpBits x
  if typ = 1 then
    let s := b / 2 ^ 31 * 2 ^ 15
    let a := b % 2 ^ 31
    let q := a / 65536
    let r := a % 65536
    let q' := if 32768 < r ∨ (r = 32768 ∧ q % 2 = 1) then q + 1 else q
    if 0x7F7F < q' then (natBytes 2 (s + 0x7F7F), true) else (natBytes 2 (s + q'), false)
  else (natBytes 4 b, false)

/-! ## Scale and rounding (R188, R189, R192, R193) -/

/-- The code of the true scale of a largest magnitude: the smallest code c ≥ 1, so exponent c - 127 ≥ -126, with
M ≤ 448 · 2^(c - 127) (R188, R189). -/
def trueCode (mag : Nat) : Nat := (leastFrom (fun c => decide (mag ≤ 448 * 2 ^ (c + 22))) 254 1).getD 254

/-- The mixing function of R193. -/
def mix64 (z : W64) : W64 :=
  let a := (z ^^^ (z >>> 31)) * 0x9F3B5C21E6A47D13
  let b := (a ^^^ (a >>> 29)) * 0xC2D841A73B95E06F
  b ^^^ (b >>> 32)

/-- The 24-bit value of stochastic rounding (R193). -/
def rho (seed step tensor block : W64) (e : Nat) : Nat :=
  let h := mix64 (mix64 (mix64 (mix64 block ^^^ tensor) ^^^ step) ^^^ seed)
  fld (mix64 (h ^^^ BitVec.ofNat 64 e)) 0 24

/-- A quantised magnitude: `k` spacings of 2^(`eu` - 9), with `eu` from 0. -/
structure Quant where
  k  : Nat
  eu : Nat
deriving DecidableEq, Repr

/-- Quantise a magnitude under the scale code `c` (R192): `some r` rounds stochastically against `r`. With s = c - 127,
|x| = mag · 2^(-149 - s), and u = 2^(eu - 9) is `2 ^ sh` in the units of `mag`. -/
def quantise (mag c : Nat) (sr : Option Nat) : Quant :=
  -- 2^(-6) stands at bit c + 16 of the magnitude's units
  let eu := Nat.log2 mag - (c + 16)
  let sh := c + 13 + eu
  let lo := mag / 2 ^ sh
  let r := mag % 2 ^ sh
  let up : Bool := match sr with
    | none => decide (2 ^ sh < 2 * r ∨ (2 * r = 2 ^ sh ∧ lo % 2 = 1))
    | some ρ => decide (ρ * 2 ^ sh < r * 2 ^ 24)
  { k := if up then lo + 1 else lo, eu := eu }

/-- The E4M3 magnitude code of a quantised value: subnormals, normals and the carry into the next binade alike. -/
def Quant.code (q : Quant) : Nat := 8 * q.eu + q.k

/-- The value q · 2^s in units of 2^-149. -/
def Quant.mag (q : Quant) (c : Nat) : Nat := q.k * 2 ^ (c + 13 + q.eu)

/-! ## One block (R189 to R194) -/

/-- The prediction of a history entry in a round: a scale code, 0 for none (R188). The code 255 stands for no scale and
never appears in a frame: an entry that holds it predicts none (DEDUCED, notes/assumptions/68.md). -/
def prediction (h : W32) (round : W64) : Nat :=
  let c := if fld h 16 16 = fld round 0 16 then fld h 8 8 else fld h 0 8
  if c = 255 then 0 else c

/-- The fixed parameters of an export. -/
structure ExpParams where
  seed   : W64
  step   : W64
  round  : W64
  sparse : Int
  stoch  : Bool
deriving DecidableEq, Repr

/-- What becomes of a block. `values` is empty unless the block is present. -/
structure BlockOut where
  faulted  : Bool := false
  present  : Bool := false
  scale    : Nat := 0
  values   : List Byte := []
  residual : List Byte := []
  history  : W32 := 0
  counts   : List Nat := []
deriving DecidableEq, Repr

/-- An element's W, A and R, each none when it is not finite. -/
abbrev ElemIn := Option Fp × Option Fp × Option Fp

/-- d of an element: t = W - A, then d = t + R (R189). -/
def elemD (x : ElemIn) : Option Fp := do
  let w ← x.1
  let a ← x.2.1
  let r ← x.2.2
  let t ← fpAdd w a.opp
  fpAdd t r

/-- How many elements satisfy a test. -/
def countOf {α : Type} (p : α → Bool) (l : List α) : Nat := (l.filter p).length

/-- Compute one block (R189 to R194) of tensor `tensor` at logical block `blk`, with the residual of type `rt`. The
counts are words 0 to 10 of the statistics record (R206). -/
def blockOut (g : ExpParams) (tensor blk : W64) (rt : Nat) (hist : W32) (els : List ElemIn) : BlockOut :=
  let ds := els.map elemD
  let dZero := countOf (fun d => match d with | some y => decide (y.mag = 0) | none => false) ds
  if ds.any (·.isNone) then
    { faulted := true
      counts := [els.length, 0, 0, 1, 0, dZero, countOf (·.isNone) ds, 0, 0, 0, 0] }
  else
    let xs : List Fp := ds.filterMap id
    let top := xs.foldl (fun a x => max a x.mag) 0
    let t := trueCode top
    let p := prediction hist g.round
    let fits : Bool := decide (p ≠ 0 ∧ t ≤ p)
    let c := if fits then p else t
    let again := b2n (decide (p ≠ 0) && !fits)
    let h' : W32 := BitVec.ofNat 32 (t + p * 256 + fld g.round 0 16 * 65536)
    if top = 0 ∨ (t : Int) - 127 < g.sparse then
      let rs := xs.map (storeFp rt)
      { residual := rs.flatMap (·.1), history := h'
        counts := [els.length, 0, 1, 0, again, dZero, 0, 0, 0, countOf (fun r => decide (bytesNat r.1 % 2 ^ (8 * r.1.length - 1) = 0)) rs,
                   countOf (·.2) rs] }
    else
      let qs : List (Fp × Quant) := xs.zipIdx.map fun (x, i) =>
        (x, quantise x.mag c (if g.stoch then some (rho g.seed g.step tensor blk i) else none))
      let vals : List Nat := qs.map fun (x, q) =>
        (if x.neg ∧ x.mag ≠ 0 then 128 else 0) + q.code
      let rest : List Fp := qs.filterMap fun (x, q) =>
        fpAdd x { neg := !(x.neg && decide (x.mag ≠ 0)), mag := q.mag c }
      let rs := rest.map (storeFp rt)
      { present := true, scale := c, values := vals.map fun n => BitVec.ofNat 8 n
        residual := rs.flatMap (·.1), history := h'
        counts := [els.length, 1, 0, 0, again, dZero, 0, countOf (fun n => decide (n % 128 = 0)) vals,
                   countOf (fun n => decide (n % 128 = 0x7E)) vals,
                   countOf (fun r => decide (bytesNat r.1 % 2 ^ (8 * r.1.length - 1) = 0)) rs,
                   countOf (·.2) rs] }

end Sys2Proof.Machine
end

