-- ==== Sys2Proof/Machine/Export.lean ====
section
/-!
DEFINITION. Machine/Export.lean: the outer exchange (R186 to R209): the export table and its checks, the two
passes over the blocks, frames, statistics, the engine's writes, and the ends of an export or a reanchor.
-/

namespace Sys2Proof.Machine

/-! ## The export table (R186, R187) -/

/-- One entry of the export table. -/
structure ExpEnt where
  src    : Nat
  anchor : Nat
  resid  : Nat
  hist   : Nat
  offs   : Nat × Nat × Nat × Nat
  count  : Nat
  tensor : W64
  first  : Nat
deriving DecidableEq, Repr

/-- The table of `n` entries at package address `a`. -/
def expTable (m : Mem) (e : Eng) (a n : Nat) : List ExpEnt :=
  (List.range n).map fun i =>
    let ws := loadWords m e (a + 64 * i) 8
    let f (lo : Nat) := fld (lword ws 0) lo 10
    let n (j : Nat) := (lword ws j).toNat
    { src := f 0, anchor := f 10, resid := f 20, hist := f 30, offs := (n 1, n 2, n 3, n 4), count := n 5
      tensor := lword ws 6, first := n 7 }

/-- A region of a Valley by its slot. -/
def slotRegion (e : Eng) (v slot : Nat) : Option (Nat × Region) :=
  (valleyRegions e v).find? fun x => decide (Region.slot x.2 = slot)

/-- The four regions of an entry: descriptor indexes and descriptors. -/
structure EntRegions where
  src    : Nat × Region
  anchor : Nat × Region
  resid  : Nat × Region
  hist   : Nat × Region
deriving DecidableEq, Repr

def entRegions (e : Eng) (v : Nat) (t : ExpEnt) : Option EntRegions :=
  match slotRegion e v t.src, slotRegion e v t.anchor, slotRegion e v t.resid, slotRegion e v t.hist with
  | some s, some a, some r, some h => some { src := s, anchor := a, resid := r, hist := h }
  | _, _, _, _ => none

/-- The ranges of an entry: slot, offset, bytes; source, anchor, residual, history. -/
def entRanges (b : Nat) (t : ExpEnt) (g : EntRegions) : List (Nat × Nat × Nat) :=
  [(t.src, t.offs.1, t.count * typeWidth (Region.typ g.src.2)),
   (t.anchor, t.offs.2.1, t.count * typeWidth (Region.typ g.src.2)),
   (t.resid, t.offs.2.2.1, t.count * typeWidth (Region.typ g.resid.2)),
   (t.hist, t.offs.2.2.2, 4 * (t.count / b))]

/-- The rules of R187 for one entry. -/
def entOk (b : Nat) (t : ExpEnt) (g : EntRegions) (export_ : Bool) : Bool :=
  let ws := typeWidth (Region.typ g.src.2)
  let wr := typeWidth (Region.typ g.resid.2)
  let inside (r : Region) (o n : Nat) : Bool := decide (o + n ≤ 4096 * Region.tiles r)
  decide (t.src < t.hist ∧ t.hist < t.resid ∧ t.resid < t.anchor) &&
  decide (Region.cls g.src.2 = clsState ∧ (Region.typ g.src.2 = 1 ∨ Region.typ g.src.2 = 2)) &&
  decide (Region.cls g.anchor.2 = clsAnchor ∧ Region.typ g.anchor.2 = Region.typ g.src.2) &&
  decide (Region.cls g.resid.2 = clsResidual) &&
  decide (Region.cls g.hist.2 = clsState ∧ Region.typ g.hist.2 = 0) &&
  decide (t.count ≠ 0 ∧ t.count % b = 0) &&
  decide (t.offs.1 % (b * ws) = 0 ∧ t.offs.2.1 % (b * ws) = 0 ∧ t.offs.2.2.1 % (b * wr) = 0 ∧
    t.offs.2.2.2 % 4 = 0) &&
  inside g.src.2 t.offs.1 (t.count * ws) && inside g.anchor.2 t.offs.2.1 (t.count * ws) &&
  inside g.resid.2 t.offs.2.2.1 (t.count * wr) && inside g.hist.2 t.offs.2.2.2 (4 * (t.count / b)) &&
  (!export_ || (!g.resid.2.frozen && !g.hist.2.frozen))

/-- Are the elements of a list pairwise compatible? -/
def pairwiseOk {α : Type} (p : α → α → Bool) : List α → Bool
  | [] => true
  | x :: r => r.all (p x) && pairwiseOk p r

/-- Does the whole table satisfy R187? -/
def tableOk (e : Eng) (v : Nat) (ts : List ExpEnt) (export_ : Bool) : Bool :=
  let b := (getV e v).exportBlock
  ts.all (fun t => match entRegions e v t with
    | some g => entOk b t g export_
    | none => false) &&
  pairwiseOk (fun t u =>
    (match entRegions e v t, entRegions e v u with
     | some g, some h =>
       (entRanges b t g).all fun x => (entRanges b u h).all fun y =>
         decide (x.1 ≠ y.1) || !overlaps x.2.1 x.2.2 y.2.1 y.2.2
     | _, _ => false) &&
    (decide (t.tensor ≠ u.tensor) || !overlaps t.first (t.count / b) u.first (u.count / b))) ts

/-! ## Blocks of an entry (R187 to R196, R203) -/

/-- A computed block: its logical index, whether it is passed over (R203), the Reaches of its residual and of
its history entry, the addresses of both, and its outcome. -/
structure ExpBlock where
  blk    : Nat
  passed : Bool
  rReach : Nat
  hReach : Nat
  rAddr  : Nat
  hAddr  : Nat
  out    : BlockOut
deriving DecidableEq, Repr

/-- The Reach of an address of a region. -/
def reachOf (e : Eng) (v d a : Nat) : Nat :=
  match placeAt e v d a with
  | some (r, _) => r.num
  | none => 0

/-- Load `n` elements of a type from an address. -/
def loadElems (m : Mem) (e : Eng) (typ a n : Nat) : List (Option Fp) :=
  let w := typeWidth typ
  (chop w n (loadBytes m e a (w * n))).map (elemFp typ)

/-- Compute the blocks of one entry, in ascending order. In a repeat, a block whose residual lies in a folded
Reach is passed over (R203). -/
def entBlocks (m : Mem) (e : Eng) (v : Nat) (p : ExpParams) (rep : Bool) (t : ExpEnt) (g : EntRegions) : List ExpBlock :=
  let x := getV e v
  let b := x.exportBlock
  let st := Region.typ g.src.2
  let rt := Region.typ g.resid.2
  let ws := typeWidth st
  let wr := typeWidth rt
  (List.range (t.count / b)).map fun i =>
    let ra := Region.base g.resid.2 + t.offs.2.2.1 + i * b * wr
    let ha := Region.base g.hist.2 + t.offs.2.2.2 + 4 * i
    let rr := reachOf e v g.resid.1 ra
    let passed := rep && decide ((getReach x rr).st = .folded)
    { blk := t.first + i, passed := passed, rReach := rr, hReach := reachOf e v g.hist.1 ha, rAddr := ra, hAddr := ha
      out :=
        if passed then {}
        else
          let w := loadElems m e st (Region.base g.src.2 + t.offs.1 + i * b * ws) b
          let a := loadElems m e st (Region.base g.anchor.2 + t.offs.2.1 + i * b * ws) b
          let r := loadElems m e rt ra b
          let h := BitVec.ofNat 32 (bytesNat (loadBytes m e ha 4))
          blockOut p t.tensor (BitVec.ofNat 64 (t.first + i)) rt h (List.zip w (List.zip a r)) }

/-- Put a byte range into a list of engine writes: the range's bytes join the last write when they fall in its
line. -/
def addWrite (ws : List EngWrite) (a : Nat) (bs : List Byte) : List EngWrite :=
  bs.zipIdx.foldl (fun ws (b, i) =>
    let l := (a + i) / 256
    let o := (a + i) % 256
    match ws with
    | w :: r => if w.line = l then { w with bytes := w.bytes ++ [(o, b)] } :: r
                else { line := l, bytes := [(o, b)] } :: w :: r
    | [] => [{ line := l, bytes := [(o, b)] }]) ws

/-- The engine writes of byte ranges, one per line of each run of ranges, in order (R195). -/
def lineWrites (rs : List (Nat × List Byte)) : List EngWrite := (rs.foldl (fun ws r => addWrite ws r.1 r.2) []).reverse

/-- The history writes of pass 1 for one entry. -/
def histWrites (bs : List ExpBlock) : List EngWrite :=
  lineWrites ((bs.filter fun b => !b.passed && !b.out.faulted).map fun b => (b.hAddr, natBytes 4 b.out.history.toNat))

/-- The residual writes of pass 2 for one entry. -/
def residWrites (bs : List ExpBlock) : List EngWrite :=
  lineWrites ((bs.filter fun b => !b.passed && !b.out.faulted).map fun b => (b.rAddr, b.out.residual))

/-! ## Frames (R199, R200) -/

/-- The blocks of an entry by frame: runs of equal ⌊block / F⌋. -/
def frameRuns (f : Nat) (bs : List ExpBlock) : List (List ExpBlock) :=
  bs.foldr (fun b acc => match acc with
    | [] => [[b]]
    | [] :: r => [b] :: r
    | (c :: cs) :: r => if b.blk / f = c.blk / f then (b :: c :: cs) :: r else [b] :: (c :: cs) :: r) []

/-- The body of a frame. -/
def frameBody (bs : List ExpBlock) : List Byte :=
  let here := bs.filter (·.out.present)
  let bitmap := (chop 8 bs.length bs).map fun g =>
    g.zipIdx.foldl (fun (m : Byte) (b, i) => if b.out.present then setBit m i else m) 0
  padTo 8 bitmap ++ padTo 8 (here.map fun b => BitVec.ofNat 8 b.out.scale) ++ padTo 8 (here.flatMap (·.out.values))

/-- The header of a frame with a given CRC field. -/
def frameHeader (x : Valley) (p : ExpParams) (tensor : W64) (st num : Nat) (bs : List ExpBlock) (crc : Nat) : List Byte :=
  wordsBytes
    [pack [(0, 0x10), (8, 1), (12, fld x.regs.expo 0 2), (14, b2n p.stoch), (16, x.tag.toNat), (32, x.self), (40, st)],
     p.round, p.step, tensor, BitVec.ofNat 64 ((bs.head?.map (·.blk)).getD 0),
     pack [(0, bs.length), (32, countOf (·.out.present) bs)], pack [(0, countOf (·.out.faulted) bs), (32, num)],
     pack [(0, crc)]]

/-- Build and seal a frame: header, ciphertext, tag; its Pass key names tensor, round, first block and
EXCHANGE_ID. -/
def makeFrame (x : Valley) (p : ExpParams) (key : BitVec 256) (exId : W32) (tensor : W64) (st num : Nat)
    (bs : List ExpBlock) : Frame :=
  let body := frameBody bs
  let h0 := frameHeader x p tensor st num bs 0
  let hdr := frameHeader x p tensor st num bs (crc32c (h0 ++ body)).toNat
  let iv := ivOf 6 num 0
  let first := BitVec.ofNat 64 ((bs.head?.map (·.blk)).getD 0)
  { num := num
    key := keyOf (wordsBytes [tensor, p.round, first] ++ natBytes 4 exId.toNat ++ natBytes 4 0)
    bytes := hdr ++ Config.gcmSeal key iv hdr body ++ natBytes 16 (Config.gcmTag key iv hdr body).toNat
    tag := none, acked := false }

/-! ## The ends of a job (R201, R204, R206, R209) -/

/-- Change the job at the front. -/
def updJob (e : Eng) (v : Nat) (f : ExpJob → ExpJob) : Eng :=
  updV e v fun x => { x with expo := { x.expo with jobs := match x.expo.jobs with
    | [] => []
    | j :: r => f j :: r } }

/-- Is an export, or a reanchor, running? -/
def exportRunning (x : Valley) : Bool := x.expo.jobs.any fun j => !j.reanchor

/-- Add the statistics of an export to its area by accumulate (R206). -/
def addStats (e : Eng) (j : ExpJob) : Eng :=
  j.stats.foldl (fun e (slot, cs) =>
    accumBytes e (j.statAt + 128 * slot) (wordsBytes (cs.map (BitVec.ofNat 64 ·) ++ [j.round])) .plain) e

/-- End the job at the front with a reason: its statistics are added, its pages freed, its state kept, and
OUTER_DONE is raised (R201, R205, R206, R209). -/
def endJob (e : Eng) (v reason : Nat) : Eng :=
  let x := getV e v
  match x.expo.jobs with
  | [] => e
  | j :: rest =>
    let e1 := freeBasin (addStats e j) j.pages
    let e2 := updV e1 v fun x =>
      { x with expo := { x.expo with
          jobs := rest
          st := if j.reanchor then x.expo.st else if reason = 0 then .complete else .incomplete
          anchor := if j.reanchor && decide (reason = 0) then j.round else x.expo.anchor } }
    raise e2 evOuterDone (if reason = 0 then stOK else stOutOfRange) (some v)
      (pack [(0, v), (4, reason), (8, b2n j.reanchor), (9, b2n j.rep),
        (32, if j.reanchor then 0 else x.expo.prefixN)]) j.round

/-- The frames of a job whose Pass completion is outstanding. -/
def framesOut (j : ExpJob) : Bool := j.frames.any fun f => f.tag.isSome && !f.acked

/-! ## A job at work -/

/-- Make the engine writes of the job at the front, one after another, until one must wait (R195): the write at the
front is presented once its lane is empty, and the next one follows when the lane is through with it. -/
def pumpWrites (m : Mem) (v : Nat) : Nat → Eng → Eng
  | 0, e => e
  | fuel + 1, e =>
    match (getV e v).expo.jobs with
    | [] => e
    | j :: _ =>
      match j.work with
      | [] => e
      | w :: rest =>
        if w.sent then
          if engineInLane e w.line then e else pumpWrites m v fuel (updJob e v fun j => { j with work := rest })
        else if engineRoom e w.line then
          pumpWrites m v fuel
            (engineWrite m (updJob e v fun j => { j with work := { w with sent := true } :: rest }) w)
        else e

/-- Post the frames that have not been posted, in order, while the port has room (R200). -/
def postFrames (v : Nat) : List Frame → Eng → Eng
  | [], e => e
  | f :: r, e =>
    if f.tag.isSome then postFrames v r e
    else if !passRoom e then e
    else
      let q := postPass e 0x13 f.key 0 f.bytes.length f.bytes (.frame v f.num)
      let e1 := updV q.1 v fun x => { x with expo := { x.expo with posted := Tab.set x.expo.posted q.2 f.num } }
      postFrames v r (updJob e1 v fun j =>
        { j with frames := j.frames.map fun g => if g.num = f.num then { g with tag := some q.2 } else g })

/-- The jobs of a Valley go on: writes, frames, and the end of a job that has nothing left to do. A job that
a FENCE has ended waits for its outstanding completions only (R204). -/
def runJobs (m : Mem) (v : Nat) : Nat → Eng → Eng
  | 0, e => e
  | fuel + 1, e =>
    match (getV e v).expo.jobs with
    | [] => e
    | j :: _ =>
      match j.failed with
      | some r => if framesOut j then e else runJobs m v fuel (endJob e v r)
      | none =>
        let e1 := pumpWrites m v (2 * j.work.length + 1) (postFrames v j.frames e)
        match (getV e1 v).expo.jobs with
        | [] => e1
        | j1 :: _ =>
          if j1.work.isEmpty && j1.frames.all (·.acked) then runJobs m v fuel (endJob e1 v 0) else e1

/-- The jobs of a Valley go on. -/
def runExport (m : Mem) (e : Eng) (v : Nat) : Eng := runJobs m v ((getV e v).expo.jobs.length + 1) e

/-- The jobs of every Valley go on. -/
def runExports (m : Mem) (e : Eng) : Eng :=
  (Tab.keys e.valleys).foldl (fun e v => if (getV e v).expo.jobs.isEmpty then e else runExport m e v) e

/-- A FENCE ends the jobs of a Valley with reason 1 once their outstanding Pass completions have arrived (R204). -/
def fenceExport (m : Mem) (e : Eng) (v : Nat) : Eng :=
  runExport m (updV e v fun x =>
    { x with expo := { x.expo with jobs := x.expo.jobs.map fun j => { j with failed := some 1, work := [] } } }) v

/-- VALLEY_LEAVE ends the jobs with reason 1 and resets the export's state (R204). -/
def leaveExport (e : Eng) (v : Nat) : Eng :=
  let e1 := (getV e v).expo.jobs.foldl (fun e _ => endJob e v 1) e
  updV e1 v fun x => { x with expo := {} }

/-- The export prefix moves over the frames whose completion it has had (R201). -/
def advancePrefix (acks : List Nat) : Nat → Nat → Nat
  | 0, p => p
  | fuel + 1, p => if acks.contains p then advancePrefix acks fuel (p + 1) else p

/-- A frame has had a Pass completion with status 0 (R201). -/
def ackFrame (x : Export) (num : Nat) : Export :=
  let acks := num :: x.acks
  let n := advancePrefix acks acks.length x.prefixN
  { x with prefixN := n, acks := acks.filter fun a => decide (n ≤ a) }

/-- A Pass completion of a put of a frame (R201). One of the Valley's round counts for P, be its export running or
ended; any other status ends the export that posted the put, with reason 2, if it still runs. -/
def frameDone (m : Mem) (e : Eng) (v tag num : Nat) (good : Bool) : Eng :=
  let x := getV e v
  if !decide (Tab.find x.expo.posted tag = some num) then e
  else
    let own (f : Frame) : Bool := decide (f.tag = some tag)
    let mine := (x.expo.jobs.head?.map fun j => j.frames.any own).getD false
    let e1 := updV e v fun x => { x with expo := { x.expo with posted := Tab.del x.expo.posted tag } }
    let e2 := if mine then
        updJob e1 v fun j => { j with frames := j.frames.map fun f => if own f then { f with acked := true } else f }
      else e1
    let failed := (x.expo.jobs.head?.bind (·.failed)).isSome
    if good then runExport m (updV e2 v fun x => { x with expo := ackFrame x.expo num }) v
    else if mine && !failed then endJob e2 v 2
    else runExport m e2 v

/-! ## Starts (R186 to R206) -/

/-- The descriptors that a table names. -/
def namedRegions (e : Eng) (v : Nat) (ts : List ExpEnt) : List Nat :=
  (ts.flatMap fun t => match entRegions e v t with
    | some g => [g.src.1, g.anchor.1, g.resid.1, g.hist.1]
    | none => []).eraseDups

/-- Sum the counts of blocks word by word. -/
def sumCounts (a b : List Nat) : List Nat := (List.range 11).map fun i => a.getD i 0 + b.getD i 0

/-- Raise OUTER_NONFINITE once per source region with a faulted block (R190). Its result words are not in the spec: free values. -/
def raiseNonfinite (v : Nat) : List Nat → Eng → Eng
  | [], e => e
  | _ :: r, e =>
    let a := freeWord e
    let b := freeWord a.2
    raiseNonfinite v r (raise b.2 evOuterNonfinite stOK (some v) a.1 b.1)

/-- The counts of the computed blocks by source slot (R206). -/
def statsOf (all : List (ExpEnt × EntRegions × List ExpBlock)) : Tab (List Nat) :=
  all.foldl (fun st x =>
    x.2.2.foldl (fun st b => if b.passed then st else Tab.upd [] st x.1.src (sumCounts b.out.counts)) st) []

/-- Start an export (R189 to R206): every block is computed, frames below P are left out, and both passes'
writes stand in order. -/
def startExport (m : Mem) (e : Eng) (v : Nat) (p : ExpParams) (exId : W32) (rep : Bool) (key : BitVec 256)
    (ts : List ExpEnt) (statAt : Nat) (pages : List Nat) : Eng :=
  let x := getV e v
  let all : List (ExpEnt × EntRegions × List ExpBlock) := ts.filterMap fun t =>
    (entRegions e v t).map fun g => (t, g, entBlocks m e v p rep t g)
  let p0 := if rep then x.expo.prefixN else 0
  let runs := all.flatMap fun (t, g, bs) => (frameRuns x.frameBlocks bs).map fun r => (t, g, r)
  let nums := runs.zipIdx
  let frames := (nums.filter fun (_, i) => decide (p0 ≤ i)).map fun ((t, g, r), i) =>
    makeFrame x p key exId t.tensor (Region.typ g.src.2) i r
  let blocks := nums.flatMap fun ((_, _, r), i) => (r.filter (!·.passed)).map fun b => (b, i)
  let job : ExpJob :=
    { reanchor := false, rep := rep, round := p.round, regions := namedRegions e v ts
      work := all.flatMap (fun x => histWrites x.2.2) ++ all.flatMap (fun x => residWrites x.2.2)
      frames := frames
      stats := statsOf all
      statAt := statAt, pages := pages }
  let e1 := updV e v fun x =>
    { x with expo := { x.expo with
        st := .running, round := p.round, prefixN := p0, epoch := x.epoch
        resFrames := (blocks.map fun b => (b.1.rReach, b.2)).eraseDups
        histReach := ((if x.expo.epoch = x.epoch then x.expo.histReach else []) ++
          blocks.map fun b => (b.1.rReach, b.1.hReach)).eraseDups
        posted := if rep then x.expo.posted else [], acks := if rep then x.expo.acks else []
        jobs := x.expo.jobs ++ [job] } }
  let bad := ((all.filter fun x => x.2.2.any (·.out.faulted)).map fun x => x.1.src).eraseDups
  runExport m (raiseNonfinite v bad e1) v

/-- Start a reanchor (R205): every anchor range becomes its source range. -/
def startReanchor (m : Mem) (e : Eng) (v : Nat) (round : W64) (ts : List ExpEnt) : Eng :=
  let work := ts.flatMap fun t => match entRegions e v t with
    | some g =>
      let n := t.count * typeWidth (Region.typ g.src.2)
      lineWrites [(Region.base g.anchor.2 + t.offs.2.1, loadBytes m e (Region.base g.src.2 + t.offs.1) n)]
    | none => []
  let job : ExpJob :=
    { reanchor := true, rep := false, round := round, regions := namedRegions e v ts, work := work, frames := []
      stats := [], statAt := 0 }
  runExport m (updV e v fun x => { x with expo := { x.expo with jobs := x.expo.jobs ++ [job] } }) v

end Sys2Proof.Machine
end

