-- ==== Sys2Proof/Machine/Streams.lean ====
section
/-!
DEFINITION. Machine/Streams.lean: from the staging FIFO to the rings and from an inbound packet to pending
parity: staging words, retained records, demotion, resends, delta-accumulate and seal entries, applied counts
(R71 to R73, R77 to R79, R85, R86, R101, R102, R104, R106 to R108).
-/

namespace Sys2Proof.Machine

/-! ## Staging words and staged pages (R101, R106 to R108) -/

/-- Insert a block entry before a seal entry of its Reach that already stands in the ring (R101). -/
def insertEntry (rho : Nat) (t : OutEntry) : List OutEntry → List OutEntry
  | [] => [t]
  | y :: r => if y.isSealOf rho then t :: y :: r else y :: insertEntry rho t r

/-- Place a block's entry in a staged page of the outbound pool; none when no page is free. -/
def placeInline (e : Eng) (v d : Nat) (seq : W32) (reach line row : Nat) (bytes : List Byte) : Option Eng :=
  let s := getOut (getV e v) d
  let put (e : Eng) (g fill : Nat) : Eng :=
    growDescs (updOut (writeBytes e g (fill - bytes.length) bytes.length) v d fun s =>
      { s with entries := insertEntry reach (.inline seq reach line row (bytes.drop 8) g) s.entries
               page := some g, fill := fill
               ends := match s.page with
                 | some h => if h = g then s.ends else Tab.set s.ends h s.fill
                 | none => s.ends }) v d
  let fresh : Option Eng := match allocPage e 0 (.outRing v d) with
    | some (g, e1) =>
      some (put { e1 with basin := { e1.basin with staged := e1.basin.staged ++ [g] } } g bytes.length)
    | none => none
  match s.page with
  | some g => if s.fill + bytes.length ≤ 4096 then some (put e g (s.fill + bytes.length)) else fresh
  | none => fresh

/-- Place every entry that ends in a word; entries of a Valley that no longer runs, or for a
holder that a FENCE has removed, are dropped. -/
def placeEnds : List Staged → Eng → Option Eng
  | [], e => some e
  | s :: r, e =>
    match s.body with
    | .sealed _ _ _ _ => placeEnds r e
    | .block q rho line row bs =>
      let x := getV e s.v
      if !isJoined x || x.faulted || !isLive x (outPeer x s.d) then placeEnds r e
      else match placeInline e s.v s.d q rho line row bs with
        | some e1 => placeEnds r e1
        | none => none

/-- Handle a Valley as after an uncorrectable staging word: sending stops and its regions behave as in
HALTED (R108, R215). -/
def silence (e : Eng) (v : Nat) : Eng := updV e v fun x => { x with faulted := true }

/-- A mask with one bit for each number. -/
def maskOf (l : List Nat) : Nat := (l.eraseDups.map fun i => 2 ^ i).sum

/-- A staging FIFO delivers its first word (R106 to R108). -/
def stagingOut (e : Eng) (i : Nat) (err : StagingErr) : Eng :=
  let l := getLane e i
  match l.fifo with
  | [] => e
  | w :: rest =>
    match err with
    | .double =>
      let e1 := updLane e i fun l => setFifo e.regs i { l with stUncorr := satInc l.stUncorr } rest
      let e2 := w.parts.foldl silence e1
      raise e2 evStagingFault stOutOfRange none (pack [(0, i), (16, maskOf w.parts)])
        (BitVec.ofNat 64 (getLane e1 i).stUncorr.toNat)
    | _ =>
      match placeEnds w.ends e with
      | none => e
      | some e1 =>
        updLane e1 i fun l =>
          setFifo e.regs i
            { l with stCorr := match err with
                | .single => satInc l.stCorr
                | _ => l.stCorr } rest

/-! ## Retained records (R101) -/

/-- The bytes of a retained record: the sequence numbers of rows 0 to 3, then the unscaled block. -/
def recordBytes (r : Retained) : List Byte :=
  ((List.range 4).flatMap fun p => natBytes 4 (((r.seqs.getD p none).getD 0).toNat)) ++ r.block

/-- Write the first retained record that is not yet written into its spill pages. -/
def writeRecord (e : Eng) (v : Nat) : Eng :=
  let x := getV e v
  match x.retained.find? fun r => !r.written with
  | none => e
  | some r =>
    let bs := recordBytes r
    let n := 4096 - r.offset
    let next := ((Tab.get ({} : RetChain) x.chains r.reach).pages.dropWhile (fun g => decide (g ≠ r.page))).getD 1 0
    let why : AccWhy := .record r.page r.offset
    let e1 := accumBytes (readOwned e (.spillStage v)) (spillPageAddr e r.page + r.offset) (bs.take n) why
    let e2 := if bs.length ≤ n then e1 else accumBytes e1 (spillPageAddr e next) (bs.drop n) why
    updV e2 v fun x =>
      { x with retained := x.retained.map fun t => if t = r then { t with written := true } else t }

/-- The retained record of a block entry. -/
def recordOf (x : Valley) (rho line row : Nat) (seq : W32) : Option Retained :=
  x.retained.find? fun r => decide (r.reach = rho ∧ r.line = line ∧ r.seqs.getD row none = some seq)

/-! ## Demotion (R102) -/

/-- Turn the inline entries of a staged page into reference entries. -/
def demoteEntry (g : Nat) : OutEntry → OutEntry
  | .inline q rho line row b h => if h = g then .ref q rho line row else .inline q rho line row b h
  | t => t

/-- Has a retained record's write completed: issued, and none of its accumulates outstanding? -/
def recordWritten (e : Eng) (r : Retained) : Bool :=
  r.written && !e.io.acc.any fun a => decide (a.why = .record r.page r.offset)

/-- Is the record of a ring entry that stands in page `g` written? -/
def entryWritten (e : Eng) (x : Valley) (g : Nat) : OutEntry → Bool
  | .inline q rho line row _ h =>
    decide (h ≠ g) || (match recordOf x rho line row q with
      | some r => recordWritten e r
      | none => false)
  | _ => true

/-- May a staged page be demoted: the write of every record of its entries has completed? -/
def pageWritten (e : Eng) (x : Valley) (s : OutStream) (g : Nat) : Bool := s.entries.all (entryWritten e x g)

/-- Turn a staged page into reference entries and free it. -/
def demotePage (e : Eng) (g : Nat) : Eng :=
  match Tab.find e.basin.owners g with
  | some (.outRing v d) =>
    let e1 := updOut e v d fun s =>
      { s with entries := s.entries.map (demoteEntry g)
               page := if s.page = some g then none else s.page
               fill := if s.page = some g then 0 else s.fill }
    freeBasin e1 [g]
  | _ => e

/-- Demote the oldest staged page that may be demoted, when free pages are below DEMOTE_MARK. -/
def demote (e : Eng) : Eng :=
  if Regs.demoteMark e.regs ≤ freeCount e 0 then e
  else
    match e.basin.staged.find? fun g => match Tab.find e.basin.owners g with
      | some (.outRing v d) => pageWritten e (getV e v) (getOut (getV e v) d) g
      | _ => false with
    | some g => demotePage e g
    | none => e

/-! ## Resends (R73) -/

/-- A resend report reaches the sender: every retained block of the stream in the window whose bit is clear
goes out again with its sequence number; a block that still waits in the ring is not queued twice. -/
def resendBlocks (e : Eng) (v d : Nat) (a : W32) (win : BitVec 256) : Eng :=
  let x := getV e v
  let h := outPeer x d
  let waiting (q : W32) : Bool := (getOut x d).entries.any fun t => match t with
    | .inline s _ _ _ _ _ => decide (s = q)
    | .ref s _ _ _ => decide (s = q)
    | .sealed _ _ _ _ => false
  let again := x.retained.flatMap fun r =>
    ((List.range x.m).filter fun p => decide (holderOf x.n x.k x.self (r.line / 16 % x.k) p = h)).filterMap
      fun p => match r.seqs.getD p none with
        | some q =>
          if (q - a).toNat < 256 ∧ !bit win (q - a).toNat ∧ !waiting q then
            some (OutEntry.ref q r.reach r.line p)
          else none
        | none => none
  again.foldl (fun e t => appendOut e v d t) e

/-! ## Inbound streams (R71, R72, R78, R104) -/

def getIn (x : Valley) (d : Nat) : InStream := Tab.get {} x.ins d
def updIn (e : Eng) (v d : Nat) (f : InStream → InStream) : Eng :=
  updV e v fun x => { x with ins := Tab.set x.ins d (f (getIn x d)) }

/-- What R71 says of a sequence number. -/
inductive SeqVerdict where
  | duplicate
  | beyond
  | fresh (i : Nat)
deriving DecidableEq, Repr

/-- Judge a sequence number against A and the received window (R71). -/
def seqVerdict (s : InStream) (q : W32) : SeqVerdict :=
  let i := (q - s.a).toNat
  if 2 ^ 31 ≤ i then .duplicate
  else if 256 ≤ i then .beyond
  else if bit s.win i then .duplicate
  else .fresh i

/-- Shift the window down while bit 0 is set. -/
def slide : Nat → InStream → InStream
  | 0, s => s
  | n + 1, s => if bit s.win 0 then slide n { s with a := s.a + 1, win := s.win >>> 1 } else s

/-- Mark a sequence number as received (R71). -/
def markSeq (s : InStream) (i : Nat) : InStream := slide 256 { s with win := setBit s.win i }

/-- The pending tile of a Reach, allocated when the first block reaches it (R78, R85, R113). -/
def pendPage (m : Mem) (e : Eng) (v rho i : Nat) : Option Nat × Eng :=
  match Tab.find (getV e v).pend (pendKey rho i) with
  | some g => (some g, e)
  | none =>
    match allocSpill m e .pending v (pendKey rho i) with
    | (some g, e1) => (some g, updV e1 v fun x => { x with pend := Tab.set x.pend (pendKey rho i) g })
    | (none, e1) => (none, e1)

/-- Issue a block's accumulate into pending parity. -/
def issueBlock (e : Eng) (v d : Nat) (b : InBlock) (g : Nat) : Eng :=
  accum e (spillPageAddr e g / 256 + b.line) (nzMask b.diff) b.diff (.block v d b.reach b.epoch)

/-- The tile index m·g + p and the line within the tile, packed into the line number of an `InBlock`. -/
def tileOfLine (l : Nat) : Nat := l / 16

/-- Apply a block whose pending tile is allocated: `line` counts lines of the Reach's pending allocation. -/
def applyBlock (e : Eng) (v d : Nat) (b : InBlock) : Eng :=
  match Tab.find (getV e v).pend (pendKey b.reach (tileOfLine b.line)) with
  | some g => issueBlock e v d { b with line := b.line % 16 } g
  | none => e

/-- The engine writes `n` bytes at byte `a` of a ring's pages, which follow one another. -/
def writeRing (e : Eng) (pages : List Nat) (a n : Nat) : Eng :=
  pages.zipIdx.foldl (fun e (g, j) =>
    let lo := max a (4096 * j)
    writeBytes e g (lo - 4096 * j) (min (a + n) (4096 * j + 4096) - lo)) e

/-- The engine reads the words of a ring's pages that hold `n` bytes at byte `a`. -/
def readRing (e : Eng) (pages : List Nat) (a n : Nat) : Eng :=
  engineReads e fun k => pages.zipIdx.any fun (g, j) =>
    decide (g = k / 16) && spanHits (a, n) (16 * j + k % 16)

/-- Queue a block on its inbound ring; none when the inbound pool has no free page (R104). -/
def queueBlock (e : Eng) (v d : Nat) (b : InBlock) : Option Eng :=
  let s := getIn (getV e v) d
  let put (e : Eng) : Eng :=
    updIn (writeRing e (getIn (getV e v) d).pages s.fill b.size) v d fun s =>
      { s with waiting := s.waiting ++ [b], fill := s.fill + b.size }
  if s.fill + b.size ≤ 4096 * s.pages.length then some (put e)
  else match allocPage e 1 (.inRing v d) with
    | some (g, e1) => some (put (updIn e1 v d fun s => { s with pages := s.pages ++ [g] }))
    | none => none

/-- Drop the blocks that wait on an inbound ring, under cause 20, and free its pages (R92). -/
def dropWaiting (e : Eng) (v d : Nat) : Eng :=
  let s := getIn (getV e v) d
  if s.waiting.isEmpty then e
  else
    dropN (freeBasin (updIn e v d fun s => { s with waiting := [], pages := [], fill := 0 }) s.pages) 20 s.waiting.length

/-- The lane accepts the next block of an inbound ring (R104). The ring's pages are freed when it is empty (DEDUCED,
notes/assumptions/67.md: R104 does not say when). -/
def ringApply (e : Eng) (v d : Nat) : Eng :=
  let s := getIn (getV e v) d
  match s.waiting with
  | [] => e
  | b :: rest =>
    let e1 := applyBlock (readRing e s.pages ((blockSpans s.waiting s.fill).2) b.size) v d b
    if rest.isEmpty then
      freeBasin (updIn e1 v d fun s => { s with waiting := [], pages := [], fill := 0 }) s.pages
    else updIn e1 v d fun s => { s with waiting := rest }

/-- Is the Reach READY or FOLDED on the holder in its own epoch (R85)? -/
def holderClosed (x : Valley) (rho : Nat) (landing : Bool) : Bool :=
  decide ((getReach x rho).st = .folded) || (if landing then x.landSent else (getHold x rho).ready)

/-- One block entry of a received packet (R54, R71, R78, R85, R104, R114). `rdy` says whether the lane of the
pending line accepts a request now. -/
def blockIn (m : Mem) (e : Eng) (v sender : Nat) (epoch : W64) (entry : List Byte) (rdy : Bool) : Eng :=
  let x := getV e v
  let pre := bytesWord entry
  let q : W32 := pre.extractLsb' 0 32
  let rho := fld pre 32 17
  let block := entry.drop 8
  let d := subMod x.self sender x.n
  match reachAt e v rho with
  | none => drop e 15
  | some r =>
    match decodeBlock (typeWidth r.typ) (16 * r.tiles) block with
    | none => drop e 12
    | some diff =>
      let pl := mapBlock x.n x.k sender x.self (fld (bytesWord block) 24 22)
      if x.m ≤ pl.prow ∨ r.tiles ≤ pl.tile then drop e 15
      else match seqVerdict (getIn x d) q with
        | .duplicate => drop e 13
        | .beyond => drop e 14
        | .fresh i =>
          if epoch = x.epoch && holderClosed x rho (decide (r.cls = clsLanding)) then drop e 16
          else
            let t := pl.group * x.m + pl.prow
            match pendPage m e v rho t with
            | (none, e1) => drop e1 18
            | (some g, e1) =>
              let b : InBlock :=
                { reach := rho, line := 16 * t + pl.lineIn, epoch := epoch, diff := diff, size := entry.length }
              let mark (e : Eng) : Eng := updIn e v d fun s => markSeq s i
              if (getIn x d).waiting.isEmpty && rdy then
                mark (issueBlock e1 v d { b with line := pl.lineIn } g)
              else match queueBlock e1 v d b with
                | some e2 => mark e2
                | none => drop e1 17

/-- The entries of a delta-accumulate packet, one after another. -/
def blocksIn (m : Mem) (v sender : Nat) (epoch : W64) (rdy : BitVec 256) : Nat → Nat → List Byte → Eng → Eng
  | 0, _, _, e => e
  | n + 1, i, body, e =>
    let size := 8 + blockSize (body.drop 8)
    blocksIn m v sender epoch rdy n (i + 1) (body.drop size)
      (blockIn m e v sender epoch (body.take size) (bit rdy i))

/-- One seal entry (R79, R85, R86). A live sender that has no stream to this member is dropped under cause 15 (DEDUCED,
notes/assumptions/67.md). -/
def sealIn (e : Eng) (v sender : Nat) (epoch step : W64) (rho : Nat) (count : W32) (digest : W64) : Eng :=
  let x := getV e v
  let d := subMod x.self sender x.n
  if (reachList e v).length ≤ rho ∨ !(distances x).contains d then drop e 15
  else
    let own := decide (epoch = x.epoch)
    let h := Tab.get ({} : HReach) (if own then x.hold else x.holdNext) rho
    if Tab.has h.seals d then drop e 13
    else
      let h' := { h with seals := Tab.set h.seals d { count := count, digest := digest, step := step, ts := e.side.ts } }
      updV e v fun x =>
        if own then { x with hold := Tab.set x.hold rho h' } else { x with holdNext := Tab.set x.holdNext rho h' }

/-- A block's accumulate has completed: the applied count of its stream, Reach and epoch rises (R72). -/
def blockDone (e : Eng) (v d rho : Nat) (epoch : W64) : Eng :=
  updV e v fun x =>
    let up (t : Tab HReach) : Tab HReach :=
      Tab.upd {} t rho fun h => { h with applied := Tab.upd 0 h.applied d (· + 1) }
    if epoch = x.epoch then { x with hold := up x.hold }
    else if epoch = x.epoch + 1 then { x with holdNext := up x.holdNext }
    else x

/-- The resend timer of a stream and Reach (R73): while a held seal's count is not reached RESEND_DELAY after
the seal or the last report, a resend report goes to the sender. A seal of the next epoch sends none until that epoch is
entered (DEDUCED, notes/assumptions/67.md). -/
def resendTimer (e : Eng) (v d rho : Nat) : Eng :=
  let x := getV e v
  let h := getHold x rho
  match Tab.find h.seals d with
  | none => e
  | some s =>
    if isJoined x && isLive x (inPeer x d) && decide (Tab.get 0 h.applied d < s.count.toNat) &&
        decide (x.resendDelay ≤ (e.side.ts - s.ts).toNat) then
      let t := getIn x d
      let e1 := updV e v fun x =>
        { x with hold := Tab.upd {} x.hold rho fun h =>
                   { h with seals := Tab.set h.seals d { s with ts := e.side.ts } } }
      sendCtl e1 v (inPeer x d) x.epoch (.resend t.a t.win)
    else e

end Sys2Proof.Machine
end

