-- ==== Sys2Proof/Machine/Peers.lean ====
section
/-!
DEFINITION. Machine/Peers.lean: hearing, suspicion, reports and beacons (R119 to R125), and joining: hellos,
standby and the state transfer of a stand-in (R141, R142, R266 to R268, R275).
-/

namespace Sys2Proof.Machine

/-! ## Peers -/

def getPeer (x : Valley) (i : Nat) : Peer := Tab.get {} x.peers i
def updPeer (e : Eng) (v i : Nat) (f : Peer → Peer) : Eng :=
  updV e v fun x => { x with peers := Tab.set x.peers i (f (getPeer x i)) }

/-- The moment from which a peer's silence is timed: the later of the last hearing and the start of watching. -/
def silentSince (p : Peer) : W64 := if p.lastHeard.toNat < p.watchFrom.toNat then p.watchFrom else p.lastHeard

/-- Nanoseconds since a moment. -/
def since (e : Eng) (t : W64) : Nat := (e.side.ts - t).toNat

/-- Has a watched peer been silent for PEER_TIMEOUT without its bit being set (R120)? -/
def silenceDue (e : Eng) (v i : Nat) : Bool :=
  let x := getV e v
  isJoined x && (watchedPeers x).contains i && !(getPeer x i).suspect &&
    decide (x.peerTimeout ≤ since e (silentSince (getPeer x i)))

/-- Is this member the designated reporter of a peer (R121)? -/
def designated (x : Valley) (i : Nat) : Bool := decide (reporterOf x i = some x.self)

/-- Set the suspicion bit of a peer; the designated reporter reports, another member holds the report (R122). -/
def suspectBit (e : Eng) (v i : Nat) : Eng :=
  let x := getV e v
  updPeer e v i fun p => { p with suspect := true, holdFrom := if designated x i then none else some e.side.ts }

/-- The strongest kind of report (R123): asserted, designated, relayed. -/
def strongest (a b : Nat) : Nat := if a = 3 ∨ b = 3 then 3 else if a = 1 ∨ b = 1 then 1 else 2

/-- Is a merge window about a node open? -/
def windowOpen (e : Eng) (t : Tab MergeWin) (node : W16) : Bool :=
  match Tab.find t node.toNat with
  | some w => decide (e.side.ts.toNat < w.until_.toNat)
  | none => false

/-- A new merge window of the length that the Valley's SUSPECT_HOLDOFF gives. -/
def newWindow (e : Eng) (v : Nat) : MergeWin :=
  { until_ := e.side.ts + BitVec.ofNat 64 (getV e v).suspectHoldoff, opener := v }

/-- Does an open window take in a report of Valley `v` without an event: it was opened by another Valley's (R123;
DEDUCED, notes/assumptions/70.md)? -/
def windowTakes (e : Eng) (t : Tab MergeWin) (node : W16) (v : Nat) : Bool :=
  match Tab.find t node.toNat with
  | some w => decide (e.side.ts.toNat < w.until_.toNat ∧ w.opener ≠ v)
  | none => false

/-- Set a window for a node unless one is open. -/
def openWindow (e : Eng) (t : Tab MergeWin) (node : W16) (v : Nat) : Tab MergeWin :=
  if windowOpen e t node then t else Tab.set t node.toNat (newWindow e v)

/-- The function whose partition an event about several Valleys concerns: theirs, if it is one (R245). -/
def fnOfValleys (e : Eng) (vs : List Nat) : Byte :=
  match vs with
  | [] => 0
  | v :: r => if r.all fun w => decide ((getV e w).fn = (getV e v).fn) then (getV e v).fn else 0

/-- Write a PEER_SUSPECT or PEER_RESUMED record over the Valleys of a mask (R123). -/
def peerEvent (e : Eng) (code st : W16) (node : W16) (vs : List Nat) (kind : Nat) (heard : W64) : Eng :=
  let one := match vs with
    | [v] => some v
    | _ => none
  raiseFn e (fnOfValleys e vs) code st one (pack [(0, node.toNat), (16, maskOf vs), (32, kind)]) heard

/-- The earliest of several moments. -/
def earliest (ts : List W64) : W64 :=
  match ts with
  | [] => 0
  | t :: r => r.foldl (fun a b => if b.toNat < a.toNat then b else a) t

/-- Does the designated report about a peer fall due now (R122)? -/
def silentNow (e : Eng) (v i : Nat) : Bool := silenceDue e v i && designated (getV e v) i

/-- Does the holdoff of a held report end now (R122)? -/
def holdoffDue (e : Eng) (v i : Nat) : Bool :=
  match (getPeer (getV e v) i).holdFrom with
  | some t => decide ((getV e v).suspectHoldoff ≤ since e t)
  | none => false

/-- Is a report whose holdoff ends made: the bit is set and the designated reporter is suspected too (R122)? -/
def relays (x : Valley) (i : Nat) : Bool :=
  (getPeer x i).suspect && !(getPeer x i).reported && (match reporterOf x i with
    | some r => (getPeer x r).suspect
    | none => false)

/-- The peers of other Valleys at the same node whose report falls due now, designated or relayed (R123). -/
def dueTogether (e : Eng) (v : Nat) (node : W16) : List (Nat × Nat) :=
  (e.valleys.filter fun y => decide (y.1 ≠ v)).flatMap fun (w, x) =>
    ((watchedPeers x).filter fun i => decide (nodeOf x i = node) && !(getPeer x i).acked &&
      (silentNow e w i || (isJoined x && holdoffDue e w i && relays x i))).map fun i => (w, i)

/-- Report a suspicion about peer `i` of Valley `v` (R123). -/
def reportSuspect (e : Eng) (v i kind : Nat) : Eng :=
  let x := getV e v
  let node := nodeOf x i
  if (getPeer x i).acked then e
  else
    let e1 := updPeer e v i fun p => { p with reported := true, holdFrom := none }
    if windowTakes e e.ctl.winSuspect node v then e1
    else
      let more := if windowOpen e e.ctl.winSuspect node then [] else dueTogether e v node
      let e2 := more.foldl (fun e (w, j) =>
        updPeer (if silentNow e w j then suspectBit e w j else e) w j fun p =>
          { p with reported := true, holdFrom := none }) e1
      let e3 := { e2 with ctl := { e2.ctl with winSuspect := openWindow e2 e2.ctl.winSuspect node v } }
      let heard := earliest ((getPeer x i).lastHeard :: more.map fun (w, j) => (getPeer (getV e w) j).lastHeard)
      peerEvent e3 evPeerSuspect stPeerTimeout node (v :: (more.map (·.1)).eraseDups)
        (more.foldl (fun k t => strongest k (if silentNow e t.1 t.2 then 1 else 2)) kind) heard

/-- A watched peer has been silent for PEER_TIMEOUT (R120, R122). -/
def peerSilence (e : Eng) (v i : Nat) : Eng :=
  if !silenceDue e v i then e
  else
    let e1 := suspectBit e v i
    if designated (getV e v) i then reportSuspect e1 v i 1 else e1

/-- The holdoff of a report ends (R122). -/
def holdoffEnd (e : Eng) (v i : Nat) : Eng :=
  if !holdoffDue e v i then e
  else
    let e1 := updPeer e v i fun p => { p with holdFrom := none }
    if relays (getV e v) i then reportSuspect e1 v i 2 else e1

/-- A reported peer is heard again (R125): PEER_RESUMED falls due. Its record names every Valley in which the peer is
resumed in the same ck_ctl cycle, so it is written when that cycle is over (DEDUCED, notes/assumptions/70.md). -/
def resume (e : Eng) (v : Nat) (node : W16) : Eng :=
  let due := e.ctl.resumed
  match Tab.find due node.toNat with
  | some r => { e with ctl := { e.ctl with resumed := Tab.set due node.toNat (r.1, (r.2 ++ [v]).eraseDups) } }
  | none =>
    if windowTakes e e.ctl.winResume node v then e
    else
      let win := openWindow e e.ctl.winResume node v
      { e with ctl := { e.ctl with winResume := win, resumed := Tab.set due node.toNat (e.side.ts, [v]) } }

/-- The ck_ctl cycle is over: the PEER_RESUMED records of its hearings are written (R123, R125). -/
def writeResumed (e : Eng) : Eng :=
  e.ctl.resumed.foldl (fun e r => peerEvent e evPeerResumed stOK (BitVec.ofNat 16 r.1) r.2.2 0 r.2.1)
    { e with ctl := { e.ctl with resumed := [] } }

/-- A peer is heard (R120, R125). -/
def heard (e : Eng) (v i : Nat) : Eng :=
  let x := getV e v
  let p := getPeer x i
  let e1 := updPeer e v i fun p =>
    { p with lastHeard := e.side.ts, suspect := false, reported := false, holdFrom := none }
  if !p.reported || p.acked then e1 else resume e1 v (nodeOf x i)

/-- A beacon falls due towards a watched peer (R119). -/
def beaconDue (e : Eng) (v i : Nat) : Eng :=
  let x := getV e v
  if isJoined x && !x.faulted && decide (e.side.pwrReq ≠ 2) && (watchedPeers x).contains i &&
      decide (x.peerTimeout ≤ 4 * since e (getPeer x i).lastSent) then
    sendCtl (updPeer e v i fun p => { p with lastSent := e.side.ts }) v i x.epoch (.beacon x.step)
  else e

/-- Has SUSPECT_IRQ_GAP passed since the last message on vector 66 (R124)? -/
def gapOver (e : Eng) : Bool :=
  match e.ctl.irq66Ts with
  | some t => decide (Regs.suspectGapNs e.regs ≤ since e t)
  | none => true

/-- Send the message on vector 66 that is due, once the gap is over and the vector is acknowledged (R124). -/
def flushIrq66 (e : Eng) : Eng :=
  if e.ctl.irq66Due && gapOver e && !bit e.ctl.irq 66 then sendIrq66 e else e

/-- A FENCE forgets all of a removed peer but its last hearing, and every acknowledgement ends (R120, R125). -/
def fencePeers (x : Valley) (live : W64) : Tab Peer :=
  x.peers.map fun p => (p.1, if bit live p.1 then { p.2 with acked := false } else { lastHeard := p.2.lastHeard })

/-! ## Slots -/

/-- A Valley slot that is defined and no more: what a failed join and VALLEY_LEAVE leave. Pending epoch-latched values
take effect (R254); the own index, the epoch, the step and the latest Watershed record stay readable (R258); the place of
the parity area stays known (R269, R272); restores go on. -/
def bareValley (x : Valley) : Valley :=
  { slot := .defined, tag := x.tag, n := x.n, k := x.k, m := x.m, alpha := x.alpha, fn := x.fn
    self := x.self, parity := x.parity, area := x.area, areaLen := x.areaLen
    regs := { x.regs with commitF := x.regs.commit, drainF := x.regs.drain }
    epoch := x.epoch, step := x.step, ws := x.ws, restores := x.restores, nextJob := x.nextJob }

/-- A slot in standby: the rings and the node map are bound, and the parity area is recorded (R268). -/
def standbyValley (x : Valley) : Valley :=
  { bareValley x with slot := .standby
                      members := x.members, base := x.base, firstEpoch := x.firstEpoch, epoch := x.firstEpoch, step := 0 }

/-- Every stream starts at a value (R70, R142, R267). -/
def startStreams (x : Valley) (s : W32) : Valley :=
  { x with outs := (distances x).map fun d => (d, { next := s })
           ins := (distances x).map fun d => (d, { a := s }) }

/-! ## Hellos (R266 to R268) -/

/-- The hello of a member. -/
def helloOf (e : Eng) (v : Nat) (complete answer : Bool) (base : W32) : Hello :=
  let x := getV e v
  { complete := complete, parity := x.parity, answer := answer, shape := shapeCheck e v, base := base
    reaches := BitVec.ofNat 32 (reachList e v).length, n := x.n, k := x.k, m := x.m, alpha := x.alpha }

/-- The differences of a hello, as bits 17 to 23 of JOIN_MISMATCH (R275). -/
def helloDiff (e : Eng) (v sender : Nat) (epoch expected : W64) (base : W32) (h : Hello) : List (Nat × Nat) :=
  let x := getV e v
  let o := helloOf e v false false base
  [(17, b2n (decide (h.n ≠ x.n ∨ h.k ≠ x.k ∨ h.m ≠ x.m))), (18, b2n (decide (h.shape ≠ o.shape))),
   (19, b2n (decide (h.reaches ≠ o.reaches))), (20, b2n (decide (h.alpha ≠ x.alpha))),
   (21, b2n (decide (h.base ≠ base))), (22, b2n (decide (h.parity ≠ isParity x sender))),
   (23, b2n (decide (epoch ≠ expected)))]

/-- Does a hello match? -/
def helloMatches (ds : List (Nat × Nat)) : Bool := ds.all fun d => decide (d.2 = 0)

/-- Raise JOIN_MISMATCH (R275). -/
def joinMismatch (e : Eng) (v sender : Nat) (ds : List (Nat × Nat)) (h : Hello) : Eng :=
  raise e evJoinMismatch stOutOfRange (some v) (pack ((0, sender) :: ds))
    (pack [(0, h.shape.toNat), (32, (shapeCheck e v).toNat)])

/-- The other live members. -/
def othersLive (x : Valley) : List Nat := (liveList x).filter fun i => decide (i ≠ x.self)

/-- Empty and unbind a Valley's rings and discard its pending parity and retained records. -/
def unbind (e : Eng) (v : Nat) : Eng :=
  let gs := (e.spill.pages.filter fun x =>
    decide (x.2.v = v ∧ (x.2.cls = .retention ∨ x.2.cls = .pending))).map (·.1)
  let e1 := freeSpill e gs
  let mine := (e1.basin.owners.filter fun o => match o.2 with
    | .outRing w _ => decide (w = v)
    | .inRing w _ => decide (w = v)
    | .run w _ => decide (w = v)
    | .control w => decide (w = v)
    | .spillStage w => decide (w = v)
    | _ => false).map (·.1)
  updV (forgetBlocks (freeBasin e1 mine) v fun _ => true) v bareValley

/-- End a join without success: rings and node map are unbound before the reply (R267). -/
def endJoin (e : Eng) (v : Nat) (st : W16) : Eng :=
  match (getV e v).joinWait with
  | none => e
  | some w => reply0 (unbind e v) w.cmd st

/-- Watching starts for every peer (R120). -/
def startWatch (e : Eng) (v : Nat) : Eng :=
  (watchedPeers (getV e v)).foldl (fun e i => updPeer e v i fun p => { p with watchFrom := e.side.ts }) e

/-- A join returns OK (R157, R267). -/
def joinOk (e : Eng) (v : Nat) (w : JoinWait) : Eng :=
  let e1 := updV e v fun x =>
    { x with slot := .joined, joinWait := none, phase := .idle
             t1o := { x.t1o with timerTs := e.side.ts } }
  reply0 (startWatch (clearEvents e1 v) v) w.cmd stOK

/-- Send the hello of a joining member to every other live member (R267). -/
def sendHellos (e : Eng) (v : Nat) : Eng :=
  let x := getV e v
  match x.joinWait with
  | none => e
  | some w =>
    let full := (othersLive x).all (bit w.matched)
    let e1 := (othersLive x).foldl (fun e i =>
      sendCtl e v i x.firstEpoch (.hello (helloOf e v full false x.base))) e
    updV e1 v fun x => { x with joinWait := some { w with helloTs := e.side.ts } }

/-- The repeat of the hellos, every quarter of PEER_TIMEOUT. -/
def helloRepeat (e : Eng) (v : Nat) : Eng :=
  let x := getV e v
  match x.joinWait with
  | none => e
  | some w => if x.peerTimeout ≤ 4 * since e w.helloTs then sendHellos e v else e

/-- JOIN_TIMEOUT elapses (R267). -/
def joinTimeout (e : Eng) (v : Nat) : Eng :=
  match (getV e v).joinWait with
  | none => e
  | some w => if Regs.joinTimeout e.regs ≤ since e w.since then endJoin e v stPeerTimeout else e

/-- Undo a STAND_IN on the spare: the slot stands in standby again (R142, R268). -/
def endSpare (e : Eng) (v : Nat) (st : W16) : Eng :=
  match (getV e v).spareWait with
  | none => e
  | some w => reply0 (updV e v standbyValley) w.cmd st

/-- The transfer timeout of STAND_IN on the spare (R142). -/
def spareTimeout (e : Eng) (v : Nat) : Eng :=
  let x := getV e v
  match x.spareWait with
  | none => e
  | some w => if x.fenceTimeout ≤ since e w.since then endSpare e v stFenceTimeout else e

/-- The state transfer is complete: STAND_IN on the spare returns OK (R142). -/
def spareDone (m : Mem) (e : Eng) (v : Nat) : Eng :=
  let x := getV e v
  match x.spareWait with
  | none => e
  | some w =>
    match w.summary with
    | none => e
    | some s =>
      let rs := (reachList e v).map (·.num)
      if !rs.all (w.got.contains ·) then e
      else
        let fo (r : Nat) : Bool :=
          decide (r < s.first.toNat) || (decide (s.first.toNat ≤ r) && bit s.bitmap (r - s.first.toNat))
        let e1 := updV e v fun x =>
          { x with
            slot := .joined, spareWait := none, fenced := true, openHere := true
            landFold := s.landing || s.crossing, crossFold := s.crossing, recorded := false
            warden := { x.warden with landingB := s.landing || s.crossing, crossB := s.crossing }
            opened := s.landing || s.crossing || rs.any fo
            reaches := rs.foldl (fun t r =>
              Tab.upd {} t r fun y => { y with st := if fo r then .folded else .clean }) x.reaches
            t1o := { x.t1o with timerTs := e.side.ts } }
        settleV m (reply0 (startWatch (clearEvents e1 v) v) w.cmd stOK) v

/-- A join hello that has passed its checks (R267, R268). -/
def onHello (e : Eng) (v sender : Nat) (epoch : W64) (h : Hello) : Eng :=
  let x := getV e v
  match x.slot with
  | .joining =>
    match x.joinWait with
    | none => e
    | some w =>
      let ds := helloDiff e v sender epoch x.firstEpoch x.base h
      if !helloMatches ds then endJoin (joinMismatch e v sender ds h) v stOutOfRange
      else
        let w1 := { w with matched := setBit w.matched sender
                           complete := if h.complete then setBit w.complete sender else w.complete }
        let e1 := updV e v fun x => { x with joinWait := some w1 }
        if (othersLive x).all (bit w1.complete) then joinOk e1 v w1 else e1
  | .joined =>
    if h.answer then e
    else sendCtl e v sender x.firstEpoch (.hello (helloOf e v true true x.base))
  | .spare =>
    match x.spareWait with
    | none => e
    | some w =>
      let ds := helloDiff e v sender epoch x.epoch w.base h
      if !helloMatches ds then endSpare (joinMismatch e v sender ds h) v stOutOfRange
      else updV e v fun x => { x with spareWait := some { w with hello := true } }
  | _ => e

/-- The committed digests of the lost index reach its stand-in (R142). -/
def onStandinDigests (m : Mem) (e : Eng) (v : Nat) (es : List DigEnt) : Eng :=
  let x := getV e v
  match x.spareWait with
  | none => e
  | some w =>
    let e1 := updV e v fun x =>
      { x with spareWait := some { w with got := (w.got ++ es.map (·.reach)).eraseDups }
               reaches := es.foldl (fun t d =>
                 Tab.upd {} t d.reach fun y => { y with comm := d.digest, pend := d.digest }) x.reaches }
    spareDone m e1 v

/-- The settle summary of the transfer (R142). -/
def onSpareSummary (m : Mem) (e : Eng) (v : Nat) (s : Summary) : Eng :=
  match (getV e v).spareWait with
  | none => e
  | some w => spareDone m (updV e v fun x => { x with spareWait := some { w with summary := some s } }) v

/-- The state transfer that the designated reporter sends to the spare (R142, R268). -/
def sendTransfer (e : Eng) (v u : Nat) (s : W32) : Eng :=
  let x := getV e v
  let d := subMod x.self u x.n
  let es := (List.range (reachList e v).length).map fun r =>
    ({ reach := r, tile := wholeReach, digest := Tab.get 0 (Tab.get [] x.commHold r) d } : DigEnt)
  let e1 := sendCtl e v u x.epoch (.hello (helloOf e v true true s))
  let e2 := (chop 126 es.length es).foldl (fun e c => sendCtl e v u x.epoch (.digests 1 x.step c)) e1
  sendSummary e2 v u

end Sys2Proof.Machine
end

