-- ==== Sys2Proof/Machine/Rebuild.lean ====
section
/-!
DEFINITION. Machine/Rebuild.lean: rebuild plans, units and hops, solving, stand-in Reaches, contraction and
stripe audits (R129 to R145, R220 to R224).
-/

namespace Sys2Proof.Machine

/-! ## Stripes, targets and rings (R43, R130, R131, R221) -/

/-- A position of a stripe: data position or parity row, and the member that holds it. -/
structure Pos where
  parity : Bool
  idx    : Nat
  mem    : Nat
deriving DecidableEq, Repr

/-- The positions of stripe `r` of group `g` whose tiles exist, data first (R42, R43). -/
def stripePos (x : Valley) (tiles g r : Nat) : List Pos :=
  (((List.range x.k).filter fun j => decide (g * x.k + j < tiles)).map fun j =>
    ({ parity := false, idx := j, mem := dataMember x.n r j } : Pos)) ++
  (List.range x.m).map fun p => { parity := true, idx := p, mem := parityMember x.n x.k r p }

/-- The coefficient h(p, i) of R132. -/
def hopCoef (p : Nat) (i : Pos) : Byte := if i.parity then (if i.idx = p then 1 else 0) else coef p i.idx

/-- A target: Reach, group, stripe, and the position that names it. -/
structure Target where
  num    : Nat
  reach  : Nat
  group  : Nat
  stripe : Nat
  parity : Bool
  pos    : Nat
deriving DecidableEq, Repr

/-- The targets of index `u` in one Reach, in plan order, numbered from `n0` (R130). -/
def reachTargets (x : Valley) (u : Nat) (r : ReachInfo) (n0 : Nat) : List Target :=
  (List.range (groupsOf x.k r.tiles)).flatMap fun g =>
    let rows := min x.k (r.tiles - g * x.k)
    ((List.range rows).map fun j =>
      ({ num := n0 + g * (x.k + x.m) + j, reach := r.num, group := g, stripe := subMod u j x.n
         parity := false, pos := j } : Target)) ++
    (List.range x.m).map fun p =>
      { num := n0 + g * (x.k + x.m) + rows + p, reach := r.num, group := g
        stripe := subMod u (x.k + p) x.n, parity := true, pos := p }

/-- Targets of a member in one Reach. -/
def targetsIn (x : Valley) (r : ReachInfo) : Nat := r.tiles + x.m * groupsOf x.k r.tiles

/-- Targets of a member below a Reach. -/
def targetsBefore (e : Eng) (v rho : Nat) : Nat := (((reachList e v).take rho).map (targetsIn (getV e v))).sum

/-- The position that names stripe `r` for index `u`: a data position, or k less than the place as a row. -/
def namePos (x : Valley) (u r : Nat) : Bool × Nat :=
  let q := subMod u r x.n
  if q < x.k then (false, q) else (true, q - x.k)

/-- The stripe that a position names for index `u` (R132). -/
def stripeOf (x : Valley) (u : Nat) (parity : Bool) (pos : Nat) : Nat :=
  subMod u (if parity then x.k + pos else pos) x.n

/-- The stripes of one Reach as targets of an audit, numbered from `n0` (R221). -/
def reachStripes (x : Valley) (u : Nat) (r : ReachInfo) (n0 : Nat) : List Target :=
  (List.range (groupsOf x.k r.tiles)).flatMap fun g =>
    (List.range x.n).map fun s =>
      { num := n0 + g * x.n + s, reach := r.num, group := g, stripe := s
        parity := (namePos x u s).1, pos := (namePos x u s).2 }

/-- The Reaches of a scope, ascending. -/
def scopeReaches (e : Eng) (v : Nat) (scope : List (Nat × Nat)) : List ReachInfo :=
  (reachList e v).filter fun r => scope.any fun s => decide (s.1 ≤ r.num ∧ r.num < s.1 + s.2)

/-- The targets of a run in plan order (R130, R145, R221). -/
def runTargets (e : Eng) (v : Nat) (run : Run) : List Target :=
  let x := getV e v
  (scopeReaches e v run.scope).flatMap fun r =>
    match run.kind with
    | .rebuild => reachTargets x run.tgt r (targetsBefore e v r.num)
    | .contract => (reachTargets x run.tgt r (targetsBefore e v r.num)).filter fun t => !t.parity
    | .audit =>
      reachStripes x run.tgt r ((((reachList e v).take r.num).map fun q => x.n * groupsOf x.k q.tiles).sum)

/-- The positions of a target's stripe. -/
def targetPos (e : Eng) (v : Nat) (t : Target) : List Pos :=
  match reachAt e v t.reach with
  | some r => stripePos (getV e v) r.tiles t.group t.stripe
  | none => []

/-- The unknowns of a target under an identity group (R136). -/
def unknowns (run : Run) (excl : List Nat) (ps : List Pos) : List Pos :=
  match run.kind with
  | .audit => []
  | _ => ps.filter fun i => run.lost.contains i.mem || excl.contains i.mem

/-- The senders of a target's ring in hop order; the destination comes after them (R131, R221). -/
def ringOf (e : Eng) (v : Nat) (run : Run) (excl : List Nat) (t : Target) : List Nat :=
  let ps := targetPos e v t
  let un := unknowns run excl ps
  ((ps.filter fun i => !un.contains i).map (·.mem)).filter fun i => decide (i ≠ run.dest)

/-! ## Runs -/

/-- The live run of a Valley that has an identity among its groups (R140). -/
def runAt (x : Valley) (ident : Nat) : Option Run :=
  x.runs.find? fun r => r.groups.any fun g => decide (g.ident = ident / 4 * 4)

/-- The run, live or ended, that has an identity. -/
def anyRunAt (x : Valley) (ident : Nat) : Option Run :=
  match runAt x ident with
  | some r => some r
  | none => x.oldRuns.find? fun r => r.groups.any fun g => decide (g.ident = ident / 4 * 4)

/-- A run's own identity. -/
def Run.ident (r : Run) : Nat := (r.groups.head?.map (·.ident)).getD 0

/-- Replace a live run. -/
def putRun (e : Eng) (v : Nat) (r : Run) : Eng :=
  updV e v fun x => { x with runs := x.runs.map fun q => if q.ident = r.ident then r else q }

/-- The exclusions of an identity group. -/
def exclOf (r : Run) (ident : Nat) : List Nat :=
  match r.groups.find? fun g => decide (g.ident = ident) with
  | some g => g.excl
  | none => []

/-- Has a target been consumed under any identity? -/
def Run.did (r : Run) (num : Nat) : Bool := r.finished.any fun f => decide (f.1 = num)

/-- The done bit of a target in the rebuild map (R136, R142). -/
def doneBit (m : Mem) (e : Eng) (v num : Nat) : Bool := getBit m e ((getV e v).rmap + num / 8) (num % 8)

/-- Is a target of a run done on its destination already? -/
def targetDone (m : Mem) (e : Eng) (v : Nat) (r : Run) (t : Target) : Bool :=
  match r.kind with
  | .rebuild => (getV e v).standIn && doneBit m e v t.num
  | _ => false

/-- Does this member take part in a target under some group: as a sender, or as the destination? -/
def takesPart (e : Eng) (v : Nat) (r : Run) (t : Target) : Bool :=
  let self := (getV e v).self
  decide (self = r.dest) || r.groups.any fun g => (ringOf e v r g.excl t).contains self

/-- Is this member excluded by the newest group? -/
def excludedHere (x : Valley) (r : Run) : Bool :=
  match r.groups.getLast? with
  | some g => g.excl.contains x.self
  | none => false

/-- The participant's turn (R135): the lowest target that it has still to handle. A member that a resume has excluded
has none: it only passes on what it holds. -/
def turnOf (e : Eng) (v : Nat) (r : Run) : Option Target :=
  if excludedHere (getV e v) r then none
  else (runTargets e v r).find? fun t => !r.did t.num && takesPart e v r t

/-- Does a unit come too late to be written: its target is done here, or was consumed under another identity (R136,
R139)? Only the destination drops such a unit; a forwarder passes it on. -/
def lateHere (m : Mem) (e : Eng) (v : Nat) (r : Run) (t : Target) : Bool :=
  decide ((getV e v).self = r.dest) && (r.did t.num || targetDone m e v r t)

/-- The key of the line counts towards or from a member under an identity. -/
def countKey (mem ident : Nat) : Nat := mem * 65536 + ident

/-- Lines of one unit. -/
def unitLines (x : Valley) : Nat := 16 * x.m

/-- A unit has been consumed: count its lines and acknowledge them to its sender (R134). -/
def consume (e : Eng) (v : Nat) (r : Run) (sender ident lines : Nat) : Eng × Run :=
  let key := countKey sender ident
  let r1 := { r with acked := Tab.upd 0 r.acked key (· + BitVec.ofNat 32 lines) }
  (sendCtl (putRun e v r1) v sender (getV e v).epoch
    (.hopAck (BitVec.ofNat 16 ident) (Tab.get 0 r1.acked key)), r1)

/-- Acknowledge again with the current count. -/
def ackAgain (e : Eng) (v : Nat) (r : Run) (sender ident : Nat) : Eng :=
  sendCtl e v sender (getV e v).epoch (.hopAck (BitVec.ofNat 16 ident) (Tab.get 0 r.acked (countKey sender ident)))

/-- Drop rebuild-hop packets: each counts in cause 21 (R133). -/
def dropPackets (e : Eng) (n : Nat) : Eng := dropN e 21 n

/-! ## Tiles -/

/-- A member's own tile at a position of a stripe, as committed (R132). -/
def ownTile (m : Mem) (e : Eng) (v : Nat) (t : Target) (i : Pos) : List Line :=
  if i.parity then loadTile m e (parityAddr e v t.reach (t.group * (getV e v).m + i.idx))
  else if (getV e v).parity then List.replicate 16 0
  else match reachAt e v t.reach with
    | some r => loadTile m e (r.base + 4096 * (t.group * (getV e v).k + i.idx))
    | none => List.replicate 16 0

/-- XOR of two tiles. -/
def xorTile (a b : List Line) : List Line := (List.range 16).map fun i => a.getD i 0 ^^^ b.getD i 0

/-- A tile scaled by a field element. -/
def scaleTile (c : Byte) (a : List Line) : List Line := a.map (scaleLine c)

/-- Add this member's term to every partial row (R132). -/
def addTerm (m : Mem) (e : Eng) (v : Nat) (t : Target) (rows : List (List Line)) : List (List Line) :=
  let x := getV e v
  match (targetPos e v t).find? fun i => decide (i.mem = x.self) with
  | some i =>
    let own := ownTile m e v t i
    rows.zipIdx.map fun (z, p) => xorTile z (scaleTile (hopCoef p i) own)
  | none => rows

/-- Partial rows of zero. -/
def zeroRows (x : Valley) : List (List Line) := (List.range x.m).map fun _ => List.replicate 16 0

/-! ## Sending units (R132, R135, R138, R139) -/

/-- The packets of a unit. -/
def unitPackets (dst ident hop : Nat) (t : Target) (rows : List (List Line)) : List HopOut :=
  rows.zipIdx.map fun (z, p) =>
    { dst := dst, ident := ident + p, hop := hop, reach := t.reach, group := t.group, parity := t.parity
      pos := t.pos, tile := z }

/-- The place in the ring after this member: next member, its identity and this member's hop number. A next
hop that a later group excludes is passed over under that group's identity (R139). -/
def nextHop (e : Eng) (v : Nat) (r : Run) (t : Target) : List Group → Nat → Nat × Nat × Nat
  | [], ident => (r.dest, ident, 0)
  | g :: gs, _ =>
    let self := (getV e v).self
    let ring := ringOf e v r g.excl t
    let hop := (ring.takeWhile fun i => decide (i ≠ self)).length
    let nxt := ((ring.dropWhile fun i => decide (i ≠ self)).drop 1).headD r.dest
    if gs.any fun h => h.excl.contains nxt then nextHop e v r t gs g.ident
    else (nxt, g.ident, hop)

/-- The groups from an identity on. -/
def groupsFrom (r : Run) (ident : Nat) : List Group := r.groups.dropWhile fun g => decide (g.ident ≠ ident)

/-- Drop a whole unit: its packets count in cause 21, the unit once in the run (R133). -/
def dropUnit (e : Eng) (v : Nat) (r : Run) : Eng × Run :=
  let r1 := { r with nDrop := r.nDrop + 1 }
  (dropPackets (putRun e v r1) (getV e v).m, r1)

/-- Send a unit and keep it until an acknowledge covers it (R134). A unit that two resumes have led to one identity is
sent once: the second is dropped. -/
def sendUnit (e : Eng) (v : Nat) (r : Run) (t : Target) (ident : Nat) (rows : List (List Line)) : Eng × Run :=
  let x := getV e v
  let (nxt, id', hop) := nextHop e v r t (groupsFrom r ident) ident
  if r.passed.contains (t.num, id') then dropUnit e v r
  else
    let key := countKey nxt id'
    let upto := Tab.get 0 r.sent key + BitVec.ofNat 32 (unitLines x)
    let k : Kept := { target := t.num, ident := id', succ := nxt, hop := hop, rows := rows, first := e.side.ts
                      last := e.side.ts, upto := upto }
    let r1 := { r with kept := r.kept ++ [k], sent := Tab.set r.sent key upto, passed := (t.num, id') :: r.passed }
    (updV (putRun e v r1) v fun x => { x with hops := x.hops ++ unitPackets nxt id' hop t rows }, r1)

/-- Would a unit go to a stalled successor? -/
def stalledTo (e : Eng) (v : Nat) (r : Run) (t : Target) (ident : Nat) : Bool :=
  r.stalled.contains (nextHop e v r t (groupsFrom r ident) ident).1

/-- Does another run, whose scope came from a demand list, have units in flight here (R135)? -/
def demandBusy (x : Valley) (r : Run) : Bool :=
  x.runs.any fun q => q.demand && decide (q.ident ≠ r.ident) && (!q.kept.isEmpty || !q.recv.isEmpty)

/-! ## Solving (R136) -/

/-- Swap the first row whose head is not zero to the front. -/
def pivotRow : List (List Byte) → Option (List Byte × List (List Byte))
  | [] => none
  | r :: rs =>
    if r.headD 0 ≠ 0 then some (r, rs)
    else match pivotRow rs with
      | some (p, q) => some (p, r :: q)
      | none => none

/-- Gauss-Jordan elimination on rows of an augmented matrix: each round takes a pivot column off the front.
`done` rows are already reduced; the answer is the right-hand part. -/
def gaussGo : Nat → List (List Byte) → List (List Byte) → Option (List (List Byte))
  | 0, done, _ => some done
  | n + 1, done, rows =>
    match pivotRow rows with
    | none => none
    | some (p, rest) =>
      let inv := gf8Inv (p.headD 0)
      let p1 := p.map (gf8Mul inv)
      let clear (r : List Byte) : List Byte :=
        ((r.zip p1).map fun (a, b) => a ^^^ gf8Mul (r.headD 0) b).drop 1
      gaussGo n (done.map clear ++ [p1.drop 1]) (rest.map clear)

/-- The inverse of a square matrix over GF(2^8). -/
def gaussInv (a : List (List Byte)) : Option (List (List Byte)) :=
  let n := a.length
  gaussGo n [] (a.zipIdx.map fun (r, i) => r ++ (List.range n).map fun j => if i = j then (1 : Byte) else 0)

/-- The solving rows of R136 step 1. -/
def solvingRows (x : Valley) (un : List Pos) : List Nat :=
  let first := (List.range x.m).filter fun q => un.any fun i => i.parity && decide (i.idx = q)
  (first ++ (List.range x.m).filter fun q => !first.contains q).take un.length

/-- Linear combination of tiles. -/
def combine (cs : List Byte) (zs : List (List Line)) : List Line :=
  (cs.zip zs).foldl (fun a (c, z) => xorTile a (scaleTile c z)) (List.replicate 16 0)

/-- Solve a unit: the unknown tiles in the order of `un`, or none when a check row fails (R136). -/
def solveUnit (x : Valley) (un : List Pos) (rows : List (List Line)) : Option (List (List Line)) :=
  let sr := solvingRows x un
  match gaussInv (sr.map fun q => un.map fun i => hopCoef q i) with
  | none => none
  | some inv =>
    let zs := sr.map fun q => rows.getD q []
    let tiles := inv.map fun cs => combine cs zs
    let check := ((List.range x.m).filter fun q => !sr.contains q).all fun q =>
      decide (combine (un.map fun i => hopCoef q i) tiles = (rows.getD q []))
    if check then some tiles else none

/-- Where a solved target lies: the own data or parity tile, or the map of a contraction (R136, R145). -/
def targetAddr (e : Eng) (v : Nat) (r : Run) (t : Target) : Option Nat :=
  let x := getV e v
  match r.kind with
  | .contract =>
    let before := (((scopeReaches e v r.scope).filter fun q => decide (q.num < t.reach)).map (·.tiles)).sum
    some (r.base + 4096 * (before + t.group * x.k + t.pos))
  | _ =>
    if t.parity then some (parityAddr e v t.reach (t.group * x.m + t.pos))
    else if x.parity then none
    else (reachAt e v t.reach).map fun q => q.base + 4096 * (t.group * x.k + t.pos)

/-- Set the sixteen lines of a tile (R99). -/
def setTile (m : Mem) (e : Eng) (a : Nat) (tile : List Line) : Eng := setBytes m e a (tile.flatMap Line.bytes)

/-- The destination solves a complete unit, checks the spare rows and sets its target (R136). -/
def solveTarget (m : Mem) (e : Eng) (v : Nat) (r : Run) (t : Target) (ident : Nat) (rows : List (List Line)) :
    Eng × Run :=
  let x := getV e v
  let ps := targetPos e v t
  let un := unknowns r (exclOf r ident) ps
  let mismatch : Eng × Run :=
    (raise e evRebuildMismatch stOutOfRange (some v) (BitVec.ofNat 64 t.reach) (BitVec.ofNat 64 t.num),
     { r with nMis := r.nMis + 1 })
  match solveUnit x un rows with
  | none => mismatch
  | some tiles =>
    match (un.zip tiles).find? fun p => decide (p.1.mem = r.tgt) with
    | none => mismatch
    | some (_, tile) =>
      let e1 := match targetAddr e v r t with
        | some a => setTile m e a tile
        | none => e
      let e2 := if r.kind = .rebuild ∧ x.standIn then putBit m e1 (x.rmap + t.num / 8) (t.num % 8) true else e1
      (e2, { r with nDone := r.nDone + 1 })

/-! ## Stripe audits (R221 to R223) -/

/-- Byte `b` of a tile. -/
def tileByte (z : List Line) (b : Nat) : Byte := Line.byte (z.getD (b / 256) 0) (b % 256)

/-- The error that position `i` would explain at a byte, if it does (R222). -/
def pointsTo (m : Nat) (z : Nat → Byte) (i : Pos) : Option Byte :=
  match (List.range m).find? fun p => decide (hopCoef p i ≠ 0) with
  | none => none
  | some p =>
    let err := gf8Div (z p) (hopCoef p i)
    if err ≠ 0 ∧ (List.range m).all fun q => decide (z q = gf8Mul (hopCoef q i) err) then some err else none

/-- The bytes with a non-zero syndrome: only bytes of lines that are not zero are looked at. -/
def badBytes (rows : List (List Line)) : List Nat :=
  ((List.range 16).filter fun l => rows.any fun z => decide (z.getD l 0 ≠ 0)).flatMap fun l =>
    ((List.range 256).map fun j => 256 * l + j).filter fun b => rows.any fun z => decide (tileByte z b ≠ 0)

/-- The unique wrong tile of a stripe and its error, if there is one (R222). -/
def wrongTile (x : Valley) (ps : List Pos) (rows : List (List Line)) (bad : List Nat) : Option (Pos × List Line) :=
  if x.m = 1 then none
  else
    let cand (b : Nat) : List (Pos × Byte) := ps.filterMap fun i =>
      (pointsTo x.m (fun p => tileByte (rows.getD p []) b) i).map fun c => (i, c)
    match bad.map cand with
    | [] => none
    | c0 :: rest =>
      match c0 with
      | [(i, _)] =>
        if rest.all fun c => match c with
          | [(j, _)] => decide (j = i)
          | _ => false then
          let errs : Tab Byte := bad.zip ((c0 :: rest).map fun c => (c.headD (i, 0)).2)
          some (i, (List.range 16).map fun l =>
            if bad.any fun b => decide (b / 256 = l) then
              Line.ofBytes ((List.range 256).map fun j => Tab.get 0 errs (256 * l + j))
            else 0)
        else none
      | _ => none

/-- Result word 0 of STRIPE_SUSPECT and STRIPE_CORRECTED (R223). -/
def stripeWord (t : Target) (i : Option Pos) : W64 :=
  match i with
  | some i => pack [(0, t.reach), (32, t.group % 65536), (48, t.stripe), (54, b2n i.parity), (55, i.idx), (61, 1)]
  | none => pack [(0, t.reach), (32, t.group % 65536), (48, t.stripe)]

/-- Apply a correction to an own tile: accumulate, and set the drain-map bit of a data tile (R223). -/
def applyCorrection (m : Mem) (e : Eng) (v : Nat) (t : Target) (i : Pos) (err : List Line) : Eng :=
  let x := getV e v
  match reachAt e v t.reach with
  | none => e
  | some r =>
    let a := if i.parity then parityAddr e v t.reach (t.group * x.m + i.idx)
             else r.base + 4096 * (t.group * x.k + i.idx)
    let e1 := if x.parity && !i.parity then e
              else err.zipIdx.foldl (fun e (l, j) => accumDiff e (a / 256 + j) l .plain) e
    if i.parity then e1 else mapSet m e1 v r (t.group * x.k + i.idx)

/-- The auditor judges a stripe (R221 to R223). -/
def auditStripe (m : Mem) (e : Eng) (v : Nat) (r : Run) (t : Target) (rows : List (List Line)) : Eng × Run :=
  let x := getV e v
  let bad := badBytes rows
  let r0 := { r with nDone := r.nDone + 1 }
  if bad.isEmpty then (e, r0)
  else
    let w1 := BitVec.ofNat 64 bad.length
    match wrongTile x (targetPos e v t) rows bad with
    | none =>
      (raise e evStripeSuspect stOutOfRange (some v) (stripeWord t none) w1, { r0 with nSusp := r0.nSusp + 1 })
    | some (i, err) =>
      if !r.correct then
        (raise e evStripeSuspect stOutOfRange (some v) (stripeWord t (some i)) w1,
         { r0 with nSusp := r0.nSusp + 1 })
      else if i.mem = x.self then
        (raise (applyCorrection m e v t i err) evStripeCorrected stOK (some v) (stripeWord t (some i)) w1,
         { r0 with nCorr := r0.nCorr + 1 })
      else
        let key := countKey i.mem r.ident
        let upto := Tab.get 0 r.sent key + 16
        let k : Kept := { target := t.num, ident := r.ident, succ := i.mem, hop := 255, rows := [err]
                          first := e.side.ts, last := e.side.ts, upto := upto }
        (updV e v fun x => { x with hops := x.hops ++ unitPackets i.mem r.ident 255 t [err] },
         { r0 with kept := r0.kept ++ [k], sent := Tab.set r0.sent key upto
                   corrections := r0.corrections ++ [(t.num, stripeWord t (some i), w1)] })

/-! ## Progress of a run -/

/-- The rows of a complete unit in row order. -/
def unitRows (x : Valley) (u : RUnit) : Option (List (List Line)) :=
  if (List.range x.m).all fun p => Tab.has u.rows p then
    some ((List.range x.m).map fun p => Tab.get [] u.rows p)
  else none

/-- The pages of the units at some places of a run: a unit has m of them, one tile each (R135). The entries of a CONTRACT
share one reservation. -/
def unitPages (x : Valley) (r : Run) (place : Nat) : List Nat :=
  let ps := if r.pages.isEmpty then
      ((x.runs.find? fun q => decide (q.kind = .contract ∧ q.cmd = r.cmd) && !q.pages.isEmpty).map (·.pages)).getD []
    else r.pages
  (ps.drop (x.m * place)).take x.m

/-- Handle a received complete unit of a target: forward it, or, at the destination, solve or judge it, or drop it when
it comes too late (R134, R136, R139). -/
def handleUnit (m : Mem) (e0 : Eng) (v : Nat) (r : Run) (t : Target) (u : RUnit) (rows : List (List Line)) : Eng :=
  let x := getV e0 v
  let e := readPages e0 (unitPages x r (r.recv.takeWhile (fun w => decide (w ≠ u))).length)
  let res := since e u.ts
  let r1 := { r with recv := without r.recv u, finished := (t.num, u.ident) :: r.finished
                     maxRes := if x.self ≠ r.dest ∧ r.maxRes.toNat < res then BitVec.ofNat 64 res else r.maxRes }
  if lateHere m e v r t then
    let (e1, r2) := dropUnit e v r1
    (consume e1 v r2 u.sender u.ident (unitLines x)).1
  else if x.self = r.dest then
    let rows1 := match r.kind with
      | .rebuild => rows
      | .audit => addTerm m e v t rows
      | .contract =>
        if (unknowns r (exclOf r u.ident) (targetPos e v t)).any fun i => decide (i.mem = x.self) then rows
        else addTerm m e v t rows
    let (e1, r2) := match r.kind with
      | .audit => auditStripe m e v r1 t rows1
      | _ => solveTarget m e v r1 t u.ident rows1
    (consume (putRun e1 v r2) v r2 u.sender u.ident (unitLines x)).1
  else
    let (e1, r2) := sendUnit (putRun e v r1) v { r1 with nFwd := r1.nFwd + 1 } t u.ident (addTerm m e v t rows)
    (consume e1 v r2 u.sender u.ident (unitLines x)).1

/-- May a held unit be handled now (R134, R135, R139)? It is complete; its target is the turn's or lies below it; its
sender has no earlier unit of the identity held here, so that the cumulative count covers a prefix of what it sent; and
a forwarder has room for it and a successor that takes it. -/
def unitReady (e : Eng) (v : Nat) (r : Run) (turn : Option Target) (t : Target) (u : RUnit) : Bool :=
  let x := getV e v
  (unitRows x u).isSome &&
  (match turn with
   | some a => decide (t.num ≤ a.num)
   | none => true) &&
  !r.recv.any (fun w => decide (w.sender = u.sender ∧ w.ident = u.ident ∧ w.target < u.target)) &&
  (decide (x.self = r.dest) || (decide (r.kept.length < r.window) && !stalledTo e v r t u.ident))

/-- The held unit that is handled next: the lowest target first, and of one target the unit that was complete first. -/
def readyUnit (e : Eng) (v : Nat) (r : Run) : Option (Target × RUnit × List (List Line)) :=
  let turn := turnOf e v r
  (sortBy (fun u => u.target * 2 ^ 64 + u.ts.toNat) r.recv).findSome? fun u =>
    match (runTargets e v r).find? (fun t => decide (t.num = u.target)), unitRows (getV e v) u with
    | some t, some rows => if unitReady e v r turn t u then some (t, u, rows) else none
    | _, _ => none

/-- The target that this member may start as first hop now (R131, R135). -/
def startable (e : Eng) (v : Nat) (r : Run) : Option Target :=
  let x := getV e v
  match turnOf e v r, r.groups.getLast? with
  | some t, some g =>
    if decide ((ringOf e v r g.excl t).head? = some x.self) && decide (r.kept.length < r.window) &&
        !demandBusy x r && !stalledTo e v r t g.ident && !r.recv.any (fun u => decide (u.target = t.num)) then some t
    else none
  | _, _ => none

/-- One run goes on: units are forwarded or solved, and first hops start, until nothing is possible. -/
def runOn (m : Mem) (v ident : Nat) : Nat → Eng → Eng
  | 0, e => e
  | fuel + 1, e =>
    let x := getV e v
    match runAt x ident with
    | none => e
    | some r =>
      match readyUnit e v r with
      | some (t, u, rows) => runOn m v ident fuel (handleUnit m e v r t u rows)
      | none =>
        match startable e v r with
        | none => e
        | some t =>
          let g := (r.groups.getLast?.map (·.ident)).getD 0
          let r1 := { r with finished := (t.num, g) :: r.finished }
          runOn m v ident fuel (sendUnit (putRun e v r1) v r1 t g (addTerm m e v t (zeroRows x))).1

/-! ## Ends of a run (R133, R137, R145, R224) -/

/-- The result words of an ended run on this participant (R137, R224). -/
def runWords (m : Mem) (e : Eng) (v : Nat) (r : Run) : Nat × Nat × Nat × Nat :=
  let x := getV e v
  let total := (runTargets e v r).length
  if x.self ≠ r.dest then (r.nFwd, 0, 0, 0)
  else match r.kind with
    | .rebuild =>
      let done := ((runTargets e v r).filter (targetDone m e v r)).length
      (done, total - done, r.nMis, 0)
    | .contract => (r.nDone, total - r.nDone, r.nMis, 0)
    | .audit => (r.nDone, total - r.nDone, r.nCorr, r.nSusp)

/-- Recompute the reach digests of an audit's scope and compare them with the committed ones (R224). -/
def auditDigests (m : Mem) (e : Eng) (v : Nat) (r : Run) : Eng :=
  if !r.digest then e
  else (scopeReaches e v r.scope).foldl (fun e q =>
    let c := (getReach (getV e v) q.num).comm
    if reachDigest m e v q.num = c then e
    else digestMismatch e v 0 0 q.num wholeReach (getV e v).step) e

/-- An audit's run is over on this participant: with the digest flag set its digests are recomputed (R224). Only the
auditor, and a member of an audit that corrects nothing, knows that every correction of the audit has been made; another
member owes the recomputation until no correction can come any more (DEDUCED, notes/assumptions/73.md). -/
def auditOver (m : Mem) (e : Eng) (v : Nat) (r : Run) : Eng × Run :=
  if r.correct && r.digest && decide ((getV e v).self ≠ r.dest) then (e, { r with owed := true })
  else (auditDigests m e v r, r)

/-- The recomputations that this member owes are made: its epoch or phase ends, and with it every correction (R223,
R224). -/
def payAudits (m : Mem) (e : Eng) (v : Nat) : Eng :=
  let due := (getV e v).oldRuns.filter (·.owed)
  due.foldl (fun e r => auditDigests m e v r)
    (updV e v fun x => { x with oldRuns := x.oldRuns.map fun r => { r with owed := false } })

/-- End a run: its packets and pages go, its counters stay readable, and its command replies. The entries of
one CONTRACT share one reservation, which the last of them frees, and reply together, summed (R145). -/
def endRun (m : Mem) (e : Eng) (v : Nat) (r : Run) (st : W16) : Eng :=
  let ids := r.groups.map (·.ident)
  let ended := { r with recv := [], kept := [], pages := [] }
  let heir := (getV e v).runs.find? fun q => decide (q.ident ≠ r.ident ∧ q.kind = .contract ∧ q.cmd = r.cmd)
  let e1 := updV e v fun x =>
    { x with runs := (x.runs.filter fun q => decide (q.ident ≠ r.ident)).map fun q =>
               if some q.ident = heir.map Run.ident then { q with pages := r.pages ++ q.pages } else q
             oldRuns := ended :: x.oldRuns.filter fun q => decide (q.ident ≠ r.ident)
             hops := x.hops.filter fun h => !ids.contains (h.ident / 4 * 4) }
  let e2 := if heir.isSome then e1 else freeBasin e1 r.pages
  match r.cmd with
  | none => e2
  | some c =>
    match r.kind with
    | .contract =>
      if (getV e2 v).runs.any fun q => decide (q.cmd = some c) then e2
      else
        let parts := ((getV e2 v).oldRuns.filter fun q => decide (q.cmd = some c)).map (runWords m e2 v)
        let sum (f : Nat × Nat × Nat × Nat → Nat) : Nat := (parts.map f).sum
        let e3 := updV e2 v fun x =>
          { x with oldRuns := x.oldRuns.map fun q => if q.cmd = some c then { q with cmd := none } else q }
        reply e3 c st (pack [(0, sum (·.1)), (32, sum (·.2.1))]) (pack [(0, sum (·.2.2.1))])
    | _ =>
      let w := runWords m e2 v r
      reply e2 c st (pack [(0, w.1), (32, w.2.1)]) (pack [(0, w.2.2.1), (32, w.2.2.2)])

/-- Has a run nothing left to do on this participant? A member that a resume has excluded waits for no more packets of
the units that its predecessors now send past it. -/
def runOver (e : Eng) (v : Nat) (r : Run) : Bool :=
  let x := getV e v
  (turnOf e v r).isNone && r.kept.isEmpty && r.corrections.isEmpty &&
  !r.recv.any fun u => !excludedHere x r || (unitRows x u).isSome

/-- One run goes on and ends when it is over. -/
def stepRun (m : Mem) (e : Eng) (v ident : Nat) : Eng :=
  let e1 := runOn m v ident 100000 e
  match runAt (getV e1 v) ident with
  | some r =>
    if runOver e1 v r then
      let (e2, r1) := auditOver m e1 v r
      endRun m e2 v r1 stOK
    else e1
  | none => e1

/-- Every run of the Valley goes on, those of a demand list first and twice: a demand run that has nothing in flight any
more lets the others start (R135). -/
def stepRuns (m : Mem) (e : Eng) (v : Nat) : Eng :=
  let runs := (getV e v).runs
  let demand := (runs.filter (·.demand)).map Run.ident
  (demand ++ demand ++ (runs.filter fun r => !r.demand).map Run.ident).foldl (fun e i => stepRun m e v i) e

/-- End every run of the Valley (R128, R133). -/
def endRuns (m : Mem) (e : Eng) (v : Nat) (st : W16) : Eng :=
  (getV e v).runs.foldl (fun e r => endRun m e v r st) (payAudits m e v)

/-! ## Received packets (R134, R135, R223) -/

/-- A received rebuild-hop packet. -/
structure HopIn where
  sender : Nat
  ident  : Nat
  hop    : Nat
  reach  : Nat
  group  : Nat
  parity : Bool
  pos    : Nat
  tile   : List Line
deriving DecidableEq, Repr

/-- The target that a packet names in a run, if the scope holds it. -/
def hopTarget (e : Eng) (v : Nat) (r : Run) (p : HopIn) : Option Target :=
  let s := stripeOf (getV e v) r.tgt p.parity p.pos
  (runTargets e v r).find? fun t => decide (t.reach = p.reach ∧ t.group = p.group ∧ t.stripe = s) &&
    (decide (r.kind = .audit) || (decide (t.parity = p.parity) && decide (t.pos = p.pos)))

/-- A correction reaches the owner of the wrong tile (R223). -/
def correctionIn (m : Mem) (e : Eng) (v : Nat) (p : HopIn) : Eng :=
  let x := getV e v
  let base := p.ident / 4 * 4
  match anyRunAt x p.ident with
  | none => dropPackets e 1
  | some r =>
    let fit := decide (r.kind = .audit ∧ r.epoch = x.epoch ∧ (x.phase = .idle ∨ x.phase = .frozen)) && x.t1.isNone
    match fit, hopTarget e v r p with
    | true, some t =>
      match (targetPos e v t).find? fun i => decide (i.mem = x.self) with
      | none => dropPackets e 1
      | some i =>
        if r.finished.contains (t.num, base + 65536) then ackAgain e v r p.sender base
        else
          let e1 := applyCorrection m e v t i p.tile
          let r1 := { r with finished := (t.num, base + 65536) :: r.finished
                             acked := Tab.upd 0 r.acked (countKey p.sender base) (· + 16) }
          let e2 := updV e1 v fun x =>
            { x with runs := x.runs.map fun q => if q.ident = r.ident then r1 else q
                     oldRuns := x.oldRuns.map fun q => if q.ident = r.ident then r1 else q }
          ackAgain e2 v r1 p.sender base
    | _, _ => dropPackets e 1

/-- Drop a packet of a unit of a live run: the run counts the unit once, on its row-0 packet (R133). -/
def dropUnitPacket (e : Eng) (v : Nat) (r : Run) (row : Nat) : Eng :=
  dropPackets (if row = 0 then putRun e v { r with nDrop := r.nDrop + 1 } else e) 1

/-- Row `row` of the unit at a place is written into its page. -/
def writeRow (e : Eng) (v : Nat) (r : Run) (place row : Nat) : Eng :=
  match (unitPages (getV e v) r place)[row]? with
  | some g => writeWords e g 0 15
  | none => e

/-- A packet of a unit (R134, R135, R136). -/
def unitIn (m : Mem) (e : Eng) (v : Nat) (p : HopIn) : Eng :=
  let x := getV e v
  let base := p.ident / 4 * 4
  let row := p.ident % 4
  match runAt x p.ident with
  | none =>
    match x.oldRuns.find? fun r => r.groups.any fun g => decide (g.ident = base) with
    | none => dropPackets e 1
    | some r =>
      let key := countKey p.sender base
      let r1 := { r with acked := Tab.upd 0 r.acked key (· + 16), nDrop := if row = 0 then r.nDrop + 1 else r.nDrop }
      let e1 := updV (dropPackets e 1) v fun x =>
        { x with oldRuns := x.oldRuns.map fun q => if q.ident = r.ident then r1 else q }
      ackAgain e1 v r1 p.sender base
  | some r =>
    match hopTarget e v r p with
    | none => dropUnitPacket e v r row
    | some t =>
      if x.m ≤ row then dropPackets e 1
      else if r.finished.contains (t.num, base) then ackAgain e v r p.sender base
      else
        let held := r.recv.find? fun u => decide (u.target = t.num ∧ u.ident = base)
        match held with
        | some u =>
          if Tab.has u.rows row then e
          else
            let u1 := { u with rows := Tab.set u.rows row p.tile, ts := e.side.ts }
            let place := (r.recv.takeWhile fun w => decide (w ≠ u)).length
            stepRuns m (putRun (writeRow e v r place row) v
              { r with recv := r.recv.map fun w => if w = u then u1 else w
                       nRecv := if (unitRows x u1).isSome then r.nRecv + 1 else r.nRecv }) v
        | none =>
          let turn := decide ((turnOf e v r).map (·.num) = some t.num)
          if !turn && decide (r.window ≤ r.recv.length) then dropUnitPacket e v r row
          else
            let u : RUnit := { target := t.num, ident := base, sender := p.sender, rows := [(row, p.tile)], ts := e.side.ts }
            stepRuns m (putRun (writeRow e v r r.recv.length row) v
              { r with recv := r.recv ++ [u]
                       nRecv := if (unitRows x u).isSome then r.nRecv + 1 else r.nRecv }) v

/-- A completed packet adds one to the arrival counter of its identity, in the run that has it (R82). -/
def countArrival (e : Eng) (v ident : Nat) : Eng :=
  let bump (r : Run) : Run :=
    if r.groups.any fun g => decide (g.ident = ident / 4 * 4) then
      { r with arrivals := Tab.upd 0 r.arrivals ident (· + 1) }
    else r
  updV e v fun x =>
    if (runAt x ident).isSome then { x with runs := x.runs.map bump } else { x with oldRuns := x.oldRuns.map bump }

/-- A received rebuild-hop packet (R82): hop number 0xFF marks a correction. -/
def hopIn (m : Mem) (e : Eng) (v : Nat) (p : HopIn) : Eng :=
  let e1 := countArrival e v p.ident
  if p.hop = 255 then correctionIn m e1 v p else unitIn m e1 v p

/-- A hop acknowledge frees the kept units that it covers (R134, R138, R223). -/
def onHopAck (m : Mem) (e : Eng) (v sender ident : Nat) (lines : W32) : Eng :=
  match runAt (getV e v) ident with
  | none => e
  | some r =>
    let base := ident / 4 * 4
    let covered (k : Kept) : Bool :=
      decide (k.succ = sender ∧ k.ident = base ∧ (lines - k.upto).toNat < 2 ^ 31)
    let freed := r.kept.filter covered
    let kept := r.kept.filter fun k => !covered k
    let wait := (freed.map fun k => since e k.first).foldl max 0
    let fixed := (freed.filter fun k => decide (k.hop = 255)).map (·.target)
    let r1 := { r with
      kept := kept
      stalled := if freed.isEmpty || kept.any (fun k => decide (k.succ = sender)) then r.stalled
                 else without r.stalled sender
      maxAck := if r.maxAck.toNat < wait then BitVec.ofNat 64 wait else r.maxAck
      maxAckBy := if r.maxAck.toNat < wait then sender else r.maxAckBy
      nCorr := r.nCorr + fixed.length
      corrections := r.corrections.filter fun c => !fixed.contains c.1 }
    let e1 := (r.corrections.filter fun c => fixed.contains c.1).foldl (fun e c =>
      raise e evStripeCorrected stOK (some v) c.2.1 c.2.2) (putRun e v r1)
    stepRuns m e1 v

/-! ## Timers (R135, R138) -/

/-- The target of a kept unit. -/
def keptTarget (e : Eng) (v : Nat) (r : Run) (k : Kept) : Option Target :=
  (runTargets e v r).find? fun t => decide (t.num = k.target)

/-- Re-send the kept units of an identity whose quarter of HOP_TIMEOUT has passed (R135). -/
def hopResend (e : Eng) (v ident : Nat) : Eng :=
  let x := getV e v
  match runAt x ident with
  | none => e
  | some r =>
    let due (k : Kept) : Bool := decide (k.ident = ident / 4 * 4) && !r.stalled.contains k.succ &&
      decide (x.hopTimeout ≤ 4 * since e k.last)
    let outs := (r.kept.filter due).flatMap fun k => match keptTarget e v r k with
      | some t => unitPackets k.succ k.ident k.hop t k.rows
      | none => []
    let read := (r.kept.zipIdx.filter fun k => due k.1).flatMap fun k => unitPages x r (r.window + 1 + k.2)
    updV (putRun (readPages e read) v { r with kept := r.kept.map fun k => if due k then { k with last := e.side.ts } else k }) v
      fun x => { x with hops := x.hops ++ outs }

/-- HOP_TIMEOUT expires on an unacknowledged unit (R138). -/
def rebuildStall (e : Eng) (v ident succ : Nat) : Eng :=
  let x := getV e v
  match runAt x ident with
  | none => e
  | some r =>
    let mine := r.kept.filter fun k => decide (k.succ = succ)
    if r.stalled.contains succ || !mine.any fun k => decide (x.hopTimeout ≤ since e k.first) then e
    else
      raise (putRun e v { r with stalled := succ :: r.stalled }) evRebuildStall stPeerTimeout (some v)
        (pack [(0, succ), (16, r.ident)]) (BitVec.ofNat 64 mine.length)

/-- When every target of a Reach is done, the destination recomputes the reach digest (R144). -/
def reachDigestCheck (m : Mem) (e : Eng) (v rho : Nat) : Eng :=
  let x := getV e v
  match reachAt e v rho with
  | none => e
  | some r =>
    let s := getReach x rho
    let n0 := targetsBefore e v rho
    if !x.standIn || !isJoined x || !s.unbuilt ||
        !(List.range (targetsIn x r)).all fun i => doneBit m e v (n0 + i) then e
    else if reachDigest m e v rho = s.comm then updReach e v rho fun s => { s with unbuilt := false }
    else
      raise e evRebuildMismatch stOutOfRange (some v) (BitVec.ofNat 64 rho) (BitVec.ofNat 64 0xFFFFFFFF)

/-! ## Plans, reservations and resumes (R129, R135, R139) -/

/-- Does any stripe hold more than m unknown positions? Parity-row positions and data positions count alike. -/
def tooFew (x : Valley) (un : List Nat) : Bool :=
  (List.range x.n).any fun r =>
    decide (x.m < ((stripePos x (x.k + 1) 0 r).filter fun i => un.contains i.mem).length)

/-- Pages that a run reserves (R135). -/
def runPages (x : Valley) (window : Nat) : Nat := x.m * (2 * window + 1)

/-- Accept a resume (R139): the new group joins the run, and kept units whose successor is excluded go out
under the new identity. -/
def resumeRun (m : Mem) (e : Eng) (v : Nat) (r : Run) (ident excl : Nat) : Eng :=
  let old := (r.groups.getLast?.map (·.excl)).getD []
  let g : Group := { ident := ident, excl := old ++ [excl] }
  let again := r.kept.filter fun k => decide (k.succ = excl)
  let r1 := { r with groups := r.groups ++ [g], kept := r.kept.filter fun k => decide (k.succ ≠ excl)
                     stalled := without r.stalled excl }
  let e1 := updV (putRun e v r1) v fun x =>
    { x with hops := x.hops.filter fun h => !(decide (h.dst = excl) && again.any fun k =>
        decide (k.ident = h.ident / 4 * 4)) }
  let e2 := again.foldl (fun e k =>
    match runAt (getV e v) r.ident with
    | none => e
    | some q => match keptTarget e v q k with
      | some t => (sendUnit e v q t ident k.rows).1
      | none => e) e1
  stepRuns m e2 v

end Sys2Proof.Machine
end

