-- ==== Sys2Proof/Machine/CrossingCmds.lean ====
section
/-!
DEFINITION. Machine/CrossingCmds.lean: CROSSING_OPEN, CROSSING_CLOSE, REACH_SEAL, WATERSHED_QUERY, ROLLBACK and
FENCE (R59, R63, R85, R89 to R94, R126 to R128, R204).
-/

namespace Sys2Proof.Machine

/-! ## CROSSING_OPEN (R59, R63, R94, R127) -/

/-- Is any landing or cursor Reach of a stand-in unrebuilt (R127)? -/
def demandUnbuilt (e : Eng) (v : Nat) : Bool :=
  (reachList e v).any fun r =>
    decide (r.cls = clsLanding ∨ r.cls = clsCursor) && (getReach (getV e v) r.num).unbuilt

/-- May a Crossing open now (R59, R63, R127)? -/
def mayOpen (e : Eng) (v : Nat) (step : W64) (resume : Bool) : Bool :=
  let x := getV e v
  isJoined x && !demandUnbuilt e v && (x.crossMode || !(landingReaches e v).isEmpty) &&
    (if resume then decide (x.phase = .frozen) && decide (step = x.step)
     else decide (x.phase = .idle) || (decide (x.phase = .frozen) && !x.opened))

/-- Open a Crossing: the step is recorded, non-landing Reaches that have not folded are unsealed with counts zero,
and every landing Reach is sealed (R63). Rebuild runs end (R133). -/
def openCrossing (m : Mem) (e : Eng) (v : Nat) (step : W64) : Eng :=
  let e1 := endRuns m e v stOK
  let others := otherReaches e1 v
  let e2 := updV e1 v fun x =>
    { x with
      step := step, phase := .opened, opened := true, openHere := true, fenced := false
      warden := { x.warden with landingB := x.warden.landingB || x.landFold }
      reaches := x.reaches.map fun (i, r) =>
        if others.contains i && decide (r.st ≠ .folded) then (i, { r with st := .clean, issued := [], held := false })
        else (i, r) }
  let e3 := (landingReaches e2 v).foldl (fun e r => sealNow e v r) e2
  { e3 with ctl := { e3.ctl with opened := true } }

/-- CROSSING_OPEN (R63). -/
def execCrossingOpen (q : Fin 64) (s : State) : Host.Outcome State Fault Refusal :=
  .next (runCmd q.val 0x20 s fun e c p =>
    let v := pkValley p
    if !mayOpen e v (pkw p 1) (pkA p) then reply0 e c stOutOfRange
    else settleV s.mem (reply0 (openCrossing s.mem e v (pkw p 1)) c stOK) v)

/-! ## CROSSING_CLOSE and REACH_SEAL (R85, R87, R90, R198, R204) -/

/-- Seal every unsealed Reach; no seal is held here (R198). -/
def sealAll (e : Eng) (v : Nat) : Eng := (reachList e v).foldl (fun e r => sealNow e v r.num) e

/-- Does an export keep a Crossing from closing (R204)? -/
def exportKeeps (x : Valley) : Bool :=
  decide (x.expo.st = .running) || (decide (x.expo.st = .incomplete) && decide (x.expo.epoch = x.epoch))

/-- Close the Crossing: seal, report to the warden, wait for the Watershed. -/
def closeCrossing (e : Eng) (v : Nat) (c : Cmd) : Eng :=
  let e1 := sealAll (closePartials e) v
  let x := getV e1 v
  let e2 := updV e1 v fun x =>
    { x with phase := .closing, closeWait := some c, closeEpoch := x.epoch
             closeRep := some { step := x.step, poisoned := x.poisoned } }
  sendCtl e2 v (wardenOf x) x.epoch (.close x.step x.poisoned)

/-- CROSSING_CLOSE (R87, R90). -/
def execCrossingClose (q : Fin 64) (s : State) : Host.Outcome State Fault Refusal :=
  .next (runCmd q.val 0x21 s fun e c p =>
    let v := pkValley p
    let x := getV e v
    if isJoined x ∧ x.phase = .halted then reply0 e c (x.refusal.getD stOutOfRange)
    else if !isJoined x || decide (x.phase ≠ .opened) || exportKeeps x then reply0 e c stOutOfRange
    else settleV s.mem (closeCrossing e v c) v)

/-- REACH_SEAL (R85): held seals follow R198. -/
def execReachSeal (q : Fin 64) (s : State) : Host.Outcome State Fault Refusal :=
  .next (runCmd q.val 0x22 s fun e c p =>
    let v := pkValley p
    let x := getV e v
    let first := pkf p 1 0 32
    let count := pkf p 2 0 32
    if !isJoined x || decide (x.phase ≠ .opened) || decide (count = 0) || decide ((reachList e v).length < first + count) then
      reply0 e c stOutOfRange
    else
      let rs := (otherReaches e v).filter fun r => decide (first ≤ r ∧ r < first + count)
      settleV s.mem (reply0 (rs.foldl (fun e r => sealReach e v r) e) c stOK) v)

/-! ## WATERSHED_QUERY (R89) -/

/-- The Watershed record in its layout. -/
def wsWords (w : WsRecord) : List W64 :=
  [w.number, w.step, w.ts, pack [(0, w.tag.toNat), (16, b2n w.crossing), (32, w.folded)]]

/-- WATERSHED_QUERY (R89). -/
def execWatershedQuery (q : Fin 64) (s : State) : Host.Outcome State Fault Refusal :=
  .next (runCmd q.val 0x23 s fun e c p =>
    let a := pkw p 1
    match (getV e (pkValley p)).ws with
    | none => reply0 e c stOutOfRange
    | some w =>
      if a = 0 then reply e c stOK w.number w.step
      else if !addrOk a 8 32 pkgBytes then reply0 e c stOutOfRange
      else reply (writeParam s.mem e a (wsWords w)) c stOK w.number w.step)

/-! ## ROLLBACK (R94, R127, R133) -/

/-- May the thaw flag be set (R94, R127)? -/
def mayThaw (e : Eng) (v : Nat) : Bool := noneFolded e v && !((getV e v).standIn && demandUnbuilt e v)

/-- ROLLBACK (R94). -/
def execRollback (q : Fin 64) (s : State) : Host.Outcome State Fault Refusal :=
  .next (runCmd q.val 0x24 s fun e c p =>
    let v := pkValley p
    let x := getV e v
    if !isJoined x || decide (x.phase ≠ .frozen) || !x.fenced || (pkA p && !mayThaw e v) then reply0 e c stOutOfRange
    else
      let e1 := rollback s.mem (endRuns s.mem e v stOK) v
      let e2 := if pkA p then updV e1 v fun x => { x with phase := .idle, fenced := false } else e1
      settleV s.mem (reply0 e2 c stOK) v)

/-! ## FENCE (R92, R93, R120, R128, R204) -/

/-- Discard the outbound entries to removed members, and the beacons and resend reports to them (R128), and drop the
blocks of removed members that still wait on their inbound rings (R92). -/
def dropRemoved (e : Eng) (v : Nat) (live : W64) : Eng :=
  let gone := (distances (getV e v)).filter fun d => !bit live (outPeer (getV e v) d)
  let lost := (distances (getV e v)).filter fun d => !bit live (inPeer (getV e v) d)
  let e0 := gone.foldl (fun e d => trimOut (updOut e v d fun s => { s with entries := [] }) v d) e
  let e1 := lost.foldl (fun e d => dropWaiting e v d) e0
  updIo e1 fun io => { io with ctlOut := io.ctlOut.filter fun o =>
    !(decide (o.v = v) && decide (o.tag = (getV e v).tag) && !bit live o.dest && match o.msg with
      | .beacon _ => true
      | .resend _ _ => true
      | _ => false) }

/-- Begin a FENCE (R92): freeze, take the new live set, end runs and exports, seal what the open Crossing left
unsealed, and wait. -/
def beginFence (m : Mem) (e : Eng) (v : Nat) (live : W64) (settle : Bool) (c : Cmd) : Eng :=
  let e1 := dropRemoved e v live
  let e2 := endRuns m e1 v stPeerTimeout
  let e3 := updV e2 v fun x =>
    { x with phase := .frozen, live := live, fenced := false, peers := fencePeers x live
             fenceWait := some { cmd := c, settle := settle, since := e.side.ts, sent := false } }
  let e4 := if (getV e3 v).opened then sealAll (closePartials e3) v else e3
  fenceExport m e4 v

/-- May a live set be fenced: a subset of the current one that holds this member? -/
def mayFence (x : Valley) (live : W64) : Bool :=
  isJoined x && x.fenceWait.isNone && decide (live &&& ~~~ x.live = 0) && bit live x.self

/-- FENCE (R92). -/
def execFence (q : Fin 64) (s : State) : Host.Outcome State Fault Refusal :=
  .next (runCmd q.val 0x28 s fun e c p =>
    let v := pkValley p
    if !mayFence (getV e v) (pkw p 1) then reply0 e c stOutOfRange
    else settleV s.mem (beginFence s.mem e v (pkw p 1) (pkA p) c) v)

end Sys2Proof.Machine
end

