-- ==== Sys2Proof/Machine/Flash.lean ====
section
/-!
DEFINITION. Machine/Flash.lean: the Terrace 1 area, its drain records and commit records, reading drains back from
flash, and which drains are complete (R164 to R168).
-/

namespace Sys2Proof.Machine

/-! ## The area and its records (R164, R165, R167) -/

/-- Does the Valley have a Terrace 1 area? -/
def hasArea (x : Valley) : Bool := decide (x.regs.t1ns ≠ 0 ∧ x.regs.t1lbas ≠ 0)

/-- Does the storage-port table give the namespace of the area to the partition that holds the Valley (R276, R280)? -/
def nsAllowed (e : Eng) (v : Nat) : Bool :=
  let x := getV e v
  let t := Tab.get 0 e.regs.accSto (fnSlot x.fn)
  bit t 32 && decide (fld t 0 32 = x.regs.t1ns.toNat)

/-- The log of the area: first LBA and length. -/
def logLo (x : Valley) : Nat := x.regs.t1lba.toNat + 256
def logLen (x : Valley) : Nat := x.regs.t1lbas.toNat - 256

/-- LBA `l + n`, circular in a log. -/
def lbaAdd (lo len l n : Nat) : Nat := lo + (l - lo + n) % len

/-- The LBA before `l`, circular in a log. -/
def lbaPrev (lo len l : Nat) : Nat := if l ≤ lo then lo + len - 1 else l - 1

/-- Do two circular runs of a log overlap? -/
def lbaHits (len a n b k : Nat) : Bool :=
  decide (0 < n ∧ 0 < k) && (decide ((a + len - b % len) % len < k) || decide ((b + len - a % len) % len < n))

/-- Cut a circular run of LBAs into descriptors of at most 65,536 LBAs that do not wrap. -/
def lbaRuns (lo len : Nat) : Nat → Nat → Nat → List (Nat × Nat)
  | 0, _, _ => []
  | fuel + 1, l, n =>
    if n = 0 then []
    else
      let k := min n (min 65536 (lo + len - l))
      (l, k) :: lbaRuns lo len fuel (lbaAdd lo len l k) (n - k)

/-- Read a drain record from the 512 words of a drain-table slot, if its tag is good (R165, R167). -/
def drainRecOf (job : BitVec 256) (tag : W16) (self slot : Nat) (ws : List W64) : Option DrainRec :=
  let w (i : Nat) : W64 := ws.getD i 0
  let nonce : BitVec 128 := BitVec.ofNat 128 ((w 8).toNat + 2 ^ 64 * (w 9).toNat)
  let fit := decide (ws.length = 512 ∧ fld (w 0) 0 8 = 2 ∧ fld (w 0) 8 4 = 1 ∧ fld (w 0) 16 16 = tag.toNat ∧
    fld (w 0) 32 6 = self ∧ fld (w 1) 0 32 % 256 = slot)
  if fit && recordGood (drainKey job nonce) (ivOf 3 0 0) (wordsBytes ws) then
    some { number := fld (w 1) 0 32, base := fld (w 1) 32 32, full := bit (w 0) 40, ws := w 2, step := w 3
           lineage := BitVec.ofNat 32 (fld (w 4) 0 32), shape := BitVec.ofNat 32 (fld (w 4) 32 32)
           lba := (w 5).toNat, lbas := fld (w 6) 0 32, segs := fld (w 6) 32 32, tiles := fld (w 7) 0 32
           nonce := nonce, key := drainKey job nonce }
  else none

/-- The bytes of a drain record (R165). -/
def drainRecBytes (tag : W16) (self : Nat) (key : BitVec 256) (r : DrainRec) : List Byte :=
  sealRecord key (ivOf 3 0 0) 4096
    [pack [(0, 2), (8, 1), (16, tag.toNat), (32, self), (40, b2n r.full)], pack [(0, r.number), (32, r.base)],
     r.ws, r.step, pack [(0, r.lineage.toNat), (32, r.shape.toNat)], BitVec.ofNat 64 r.lba,
     pack [(0, r.lbas), (32, r.segs)], pack [(0, r.tiles)],
     BitVec.ofNat 64 r.nonce.toNat, BitVec.ofNat 64 (r.nonce.toNat / 2 ^ 64)]

/-- The valid records of the whole drain table. -/
def tableOf (job : BitVec 256) (x : Valley) (ws : List W64) : List DrainRec :=
  (chop 512 256 ws).zipIdx.filterMap fun (b, s) => drainRecOf job x.tag x.self s b

/-! ## Reading drains from flash (R165, R167) -/

/-- What a segment's commit record says of it (R165). -/
structure SegHead where
  num    : Nat
  first  : Nat
  dirs   : Nat
  runs   : Nat
  tiles  : Nat
  digest : Bool
  ptag   : BitVec 128
deriving DecidableEq, Repr

/-- The payload LBAs of a segment. -/
def SegHead.lbas (h : SegHead) : Nat := if h.digest then (16 * h.tiles + 4095) / 4096 else h.dirs + h.tiles

/-- Read a commit record, if it is the one that a drain implies for segment `s` at LBA `at_` (R167). -/
def headOf (key : BitVec 256) (tag : W16) (self lo len : Nat) (r : DrainRec) (s at_ : Nat) (ws : List W64) :
    Option SegHead :=
  let w (i : Nat) : W64 := ws.getD i 0
  let h : SegHead :=
    { num := s, first := (w 2).toNat, dirs := fld (w 3) 0 32, runs := fld (w 3) 32 32, tiles := fld (w 4) 0 32
      digest := bit (w 0) 40, ptag := BitVec.ofNat 128 ((w 9).toNat + 2 ^ 64 * (w 10).toNat) }
  if decide (ws.length = 512 ∧ fld (w 0) 0 8 = 1 ∧ fld (w 0) 8 4 = 1 ∧ fld (w 0) 16 16 = tag.toNat ∧
      fld (w 0) 32 6 = self ∧ fld (w 1) 0 32 = r.number ∧ fld (w 1) 32 32 = s ∧
      lbaAdd lo len h.first h.lbas = at_) && recordGood key (ivOf 2 s 0) (wordsBytes ws) then some h
  else none

/-- What a walk over a drain's commit records finds: an LBA still to be read, a bad record, or every segment. -/
inductive Walk where
  | need (lba : Nat)
  | bad
  | done (hs : List SegHead)
deriving DecidableEq, Repr

/-- Walk the commit records of a drain from its last segment down (R167). -/
def walkSegs (key : BitVec 256) (tag : W16) (self : Nat) (f : FlashRead) (r : DrainRec) :
    Nat → Nat → List SegHead → Walk
  | 0, _, acc => if (acc.head?.map (·.first)) = some r.lba then .done acc else .bad
  | s + 1, at_, acc =>
    match Tab.find f.blocks at_ with
    | none => .need at_
    | some ws =>
      match headOf key tag self f.lo f.len r s at_ ws with
      | none => .bad
      | some h => walkSegs key tag self f r s (lbaPrev f.lo f.len h.first) (h :: acc)

/-- Walk one drain. -/
def walkDrain (key : BitVec 256) (tag : W16) (self : Nat) (f : FlashRead) (r : DrainRec) : Walk :=
  if r.segs = 0 then .bad
  else walkSegs key tag self f r r.segs (lbaAdd f.lo f.len r.lba (r.lbas - 1)) []

/-- The LBAs of a segment's payload. -/
def payloadLbas (f : FlashRead) (h : SegHead) : List Nat :=
  (List.range h.lbas).map fun i => lbaAdd f.lo f.len h.first i

/-- Is a segment's whole payload read? -/
def payloadHere (f : FlashRead) (h : SegHead) : Bool := (payloadLbas f h).all fun l => Tab.has f.blocks l

/-- Forget the payload of a segment. -/
def dropPayload (f : FlashRead) (h : SegHead) : FlashRead :=
  { f with blocks := f.blocks.filter fun b => !(payloadLbas f h).contains b.1 }

/-- Authenticate and open a segment's payload. -/
def openSeg (key : BitVec 256) (f : FlashRead) (h : SegHead) : Option (List Byte) :=
  Config.gcmOpen key (ivOf 1 h.num 0) [] (wordsBytes ((payloadLbas f h).flatMap fun l => Tab.get [] f.blocks l))
    h.ptag

/-- The tiles of an opened segment: Reach, tile, bytes (R165). -/
def segTiles (h : SegHead) (plain : List Byte) : List (Nat × Nat × List Byte) :=
  let names := (List.range h.runs).flatMap fun i =>
    let t := entryAt plain 16 i
    (List.range (enum t 8 4)).map fun j => (enum t 0 4, enum t 4 4 + j)
  names.zip (chop 4096 h.tiles (plain.drop (4096 * h.dirs))) |>.map fun (n, b) => (n.1, n.2, b)

/-- The digest entries of an opened digest segment: Reach and digest bytes. -/
def segDigests (h : SegHead) (plain : List Byte) : List (Nat × List Byte) :=
  (List.range h.tiles).map fun i => let t := entryAt plain 16 i; (enum t 0 4, (t.drop 8).take 8)

/-- Ask for LBA runs. -/
def wantLbas (f : FlashRead) (l n : Nat) : FlashRead := { f with want := lbaRuns f.lo f.len (n + 1) l n }

/-- Post the next wanted read, when the port has room. -/
def postRead (e : Eng) (f : FlashRead) (o : PortOwner) : Eng × FlashRead :=
  match f.want, f.tag with
  | (l, n) :: _, none =>
    if stoRoom e then
      let p := postSto e 2 false f.ns l n [] o
      (p.1, { f with tag := some p.2 })
    else (e, f)
  | _, _ => (e, f)

/-- A wanted read has completed. -/
def gotRead (f : FlashRead) (data : List W64) : FlashRead :=
  match f.want with
  | [] => { f with tag := none }
  | (l, n) :: rest =>
    { f with tag := none, want := rest
             blocks := ((chop 512 n data).zipIdx).foldl (fun t (b, i) => Tab.set t (l + i) b) f.blocks }

/-- A reader of a Valley's Terrace 1 area. -/
def areaRead (x : Valley) (recs : List DrainRec) : FlashRead :=
  { ns := x.regs.t1ns, lo := logLo x, len := logLen x, recs := recs }

/-! ## Complete drains (R163, R167, R168) -/

/-- The LBA of a segment's commit record. -/
def commitLba (f : FlashRead) (h : SegHead) : Nat := lbaAdd f.lo f.len h.first h.lbas

/-- The records of the table whose every segment has its commit record (R167). -/
def wholeRecs (x : Valley) : List DrainRec := (x.t1o.table.getD []).filter fun r => Tab.has x.t1o.whole r.number

/-- The chain of a drain from itself down to its full base, if every base is there (R167). -/
def chainOf (rs : List DrainRec) : Nat → DrainRec → Option (List DrainRec)
  | 0, _ => none
  | fuel + 1, r =>
    if r.full then some [r]
    else match rs.find? fun b => decide (b.number = r.base ∧ b.lineage = r.lineage ∧ b.shape = r.shape ∧
        b.ws.toNat < r.ws.toNat) with
      | none => none
      | some b => match chainOf rs fuel b with
        | some c => some (r :: c)
        | none => none

/-- The newest of several drains. -/
def newestRec : List DrainRec → Option DrainRec
  | [] => none
  | r :: rest => some (rest.foldl (fun a b => if a.number < b.number then b else a) r)

/-- The newest complete chain among the drains that `p` names, newest drain first (R163, R168). -/
def newestChain (x : Valley) (p : DrainRec → Bool) : List DrainRec :=
  let rs := wholeRecs x
  match newestRec (rs.filter fun r => p r && (chainOf rs 257 r).isSome) with
  | some r => (chainOf rs 257 r).getD []
  | none => []

/-- The newest complete chain of the current lineage and shape (R163). -/
def baseChain (e : Eng) (v : Nat) : List DrainRec :=
  let x := getV e v
  newestChain x fun r => decide (r.lineage = x.regs.lineage ∧ r.shape = shapeCheck e v)

/-- The newest complete chain of the current lineage (R168). -/
def lineageChain (x : Valley) : List DrainRec := newestChain x fun r => decide (r.lineage = x.regs.lineage)

/-- The drains of a list, newest first. -/
def byNumber (rs : List DrainRec) : List DrainRec := (sortBy (·.number) rs).reverse

/-- The chains that may make a candidate complete, newest first (R177). -/
def candChains (e : Eng) (v : Nat) (c : W64 × W32) : List (List DrainRec) :=
  let rs := (getV e v).t1o.table.getD []
  (byNumber (rs.filter fun r => decide (r.ws = c.1 ∧ r.lineage = c.2 ∧ r.shape = shapeCheck e v))).filterMap
    (chainOf rs 257)

/-- Drains with their keys under a job key (R283). -/
def keyed (job : BitVec 256) (rs : List DrainRec) : List DrainRec :=
  rs.map fun r => { r with key := drainKey job r.nonce }

end Sys2Proof.Machine
end

