-- ==== Sys2Proof/Machine/Terrace1.lean ====
section
/-!
DEFINITION. Machine/Terrace1.lean: Terrace 1 drains: orders and triggers, the drain set, segments, the hold-up
check, the drain table (R26, R151 to R170).
-/

namespace Sys2Proof.Machine

/-! ## Reading the table (R164) -/

/-- Post the read of the drain table, once. -/
def readTable (e : Eng) (v : Nat) : Eng :=
  let x := getV e v
  if x.t1o.table.isSome || x.t1o.tableTag.isSome || !hasArea x || !stoRoom e then e
  else
    let p := postSto e 2 false x.regs.t1ns x.regs.t1lba.toNat 256 [] (.t1Table v)
    updV p.1 v fun x => { x with t1o := { x.t1o with tableTag := some p.2 } }

/-- Change the survey of a Valley's drain table. -/
def setSurvey (e : Eng) (v : Nat) (f : Option FlashRead) : Eng :=
  updV e v fun x => { x with t1o := { x.t1o with survey := f } }

/-- The survey goes on: the commit records of every drain in the table are read, newest segment first, and a drain with a
good one for each segment is whole (R167; when they are read is DEDUCED, notes/assumptions/72.md). -/
def runSurvey (v : Nat) : Nat → Eng → Eng
  | 0, e => e
  | fuel + 1, e =>
    let x := getV e v
    match x.t1o.survey with
    | none => e
    | some f =>
      match f.recs with
      | [] => setSurvey e v none
      | r :: rest =>
        if !f.want.isEmpty then
          let p := postRead e f (.t1Survey v)
          setSurvey p.1 v (some p.2)
        else match walkDrain r.key x.tag x.self f r with
          | .need l => runSurvey v fuel (setSurvey e v (some (wantLbas f l 1)))
          | .bad => runSurvey v fuel (setSurvey e v (some { f with recs := rest, blocks := [] }))
          | .done hs =>
            runSurvey v fuel (updV e v fun x =>
              { x with t1o := { x.t1o with survey := some { f with recs := rest, blocks := [] }
                                           whole := Tab.set x.t1o.whole r.number (hs.map (commitLba f)) } })

/-- Fuel for a reader: more steps than segments and descriptors of one drain. -/
def readFuel : Nat := 1000000

/-- The survey of a Valley goes on. -/
def surveyOn (e : Eng) (v : Nat) : Eng := runSurvey v readFuel e

/-! ## Triggers and orders (R152 to R157) -/

/-- Is any Reach unrebuilt (R143)? -/
def anyUnbuilt (e : Eng) (v : Nat) : Bool := (reachList e v).any fun r => (getReach (getV e v) r.num).unbuilt

/-- Raise DRAIN_HELD and remember one start (R155, R287). -/
def holdStart (e : Eng) (v : Nat) : Eng :=
  let x := getV e v
  if x.t1o.heldOne then e
  else
    raise (updV e v fun x => { x with t1o := { x.t1o with heldOne := true, pending := false } }) evDrainHeld stOK
      (some v) (pack [(4, 1)]) (BitVec.ofNat 64 x.t1o.wsCount)

/-- The reaches that a drain covers (R151). -/
def drainReaches (e : Eng) (v : Nat) : List ReachInfo := (reachList e v).filter fun r => decide (r.cls ≠ clsLanding)

/-- Merge what a bad drain left in the work map into the current map (R162). -/
def mergeWork (m : Mem) (e : Eng) (v : Nat) : Eng :=
  let x := getV e v
  let work := mapBase e v (!x.t1o.curB)
  let cur := mapBase e v x.t1o.curB
  (touchedLines m e work (mapBytes e v)).foldl (fun e l =>
    let w := loadLine m e l
    let c := loadLine m e (cur / 256 + (l - work / 256))
    accumDiff (accumDiff e (cur / 256 + (l - work / 256)) (w &&& ~~~c) .plain) l w .plain) e

/-- The tiles whose bit is set in the work map (R158). -/
def workTiles (m : Mem) (e : Eng) (v : Nat) : List (Nat × Nat) :=
  let x := getV e v
  let cells := loadBytes m e (mapBase e v (!x.t1o.curB)) (mapBytes e v)
  ((drainReaches e v).flatMap fun r => (List.range r.tiles).map fun t => (r.num, t)).zipIdx.filterMap
    fun (p, n) => if bit (cells.getD (n / 8) 0) (n % 8) then some p else none

/-- Is the next drain full (R163)? -/
def nextFull (e : Eng) (v : Nat) (forT2 : Bool) : Bool :=
  let x := getV e v
  decide (x.t1o.asked = some true) || forT2 || decide (Valley.drainMap x = 0) || !x.t1o.ranSince ||
    (baseChain e v).isEmpty || decide (Valley.fullEvery x ≤ (baseChain e v).length)

/-- Where the next drain begins: after the drain with the next lower number (R164). -/
def nextStart (x : Valley) (rs : List DrainRec) : Nat :=
  match rs with
  | [] => logLo x
  | r :: rest =>
    let q := rest.foldl (fun a b => if a.number < b.number then b else a) r
    lbaAdd (logLo x) (logLen x) q.lba q.lbas

/-- Start a drain: maps swap, the work map gives the drain set, copy-on-write is armed, counter and timer restart
(R152, R155, R158, R162 to R166). -/
def startT1 (m : Mem) (e : Eng) (v : Nat) (ws : WsRecord) (job : BitVec 256) : Eng :=
  let x := getV e v
  let rs := x.t1o.table.getD []
  let forT2 := x.t2o.pending && x.t2o.standing.isSome
  let full := nextFull e v forT2
  let number := (rs.map (·.number)).foldl max 0 + 1
  let base := ((baseChain e v).head?.map (·.number)).getD number
  let clear (o : T1Order) : T1Order := { o with asked := none, pending := false, wsCount := 0, timerTs := e.side.ts }
  match reservePages e 3 1024 (.work v 1) with
  | none => drainDone (updV e v fun x => { x with t1o := clear x.t1o }) v 1 7 full number ws.number
  | some (gs, e1) =>
    let mapped := decide (Valley.drainMap x ≠ 0)
    let e2 := if mapped && x.t1o.workLeft then mergeWork m e1 v else e1
    let e3 := updV e2 v fun x =>
      { x with t1o := { clear x.t1o with ranSince := true, workLeft := mapped
                                         curB := if mapped then !x.t1o.curB else x.t1o.curB } }
    let n := drawNonce e3
    let all := (drainReaches e3 v).flatMap fun r => (List.range r.tiles).map fun t => (r.num, t)
    let run : T1Run :=
      { number := number, full := full, forT2 := forT2, base := if full then number else base, ws := ws.number
        step := ws.step, lineage := x.regs.lineage, shape := shapeCheck e v, nonce := n.1
        key := drainKey job n.1, ns := x.regs.t1ns, lba := nextStart x rs
        left := if full then all else workTiles m e3 v
        digests := (drainReaches e3 v).map fun r => (r.num, (getReach x r.num).comm), pages := gs }
    updV n.2 v fun x => { x with t1 := some run }

/-- Start a Terrace 1 drain if one is asked for or due and nothing holds it (R152, R153, R155, R157, R287). -/
def tryStartT1 (m : Mem) (e : Eng) (v : Nat) : Eng :=
  let x := getV e v
  let due := x.t1o.pending && x.t1o.standing
  if !isJoined x || (x.t1o.asked.isNone && !due) || x.t1.isSome || !hasArea x || !nsAllowed e v then e
  else if !drainKeyed e v then (if x.t1o.asked.isNone then holdStart e v else e)
  else
    let e1 := readTable e v
    match x.ws, x.t1o.table, jobKey e x.fn with
    | some ws, some _, some job =>
      if x.t1o.survey.isSome ∨ x.phase ≠ .idle ∨ anyUnbuilt e v ∨ correcting x then e1 else startT1 m e1 v ws job
    | _, _, _ => e1

/-- Has the trigger of R155 fired? -/
def t1Fires (e : Eng) (x : Valley) : Bool :=
  (decide (Valley.t1EveryWs x ≠ 0 ∧ Valley.t1EveryWs x ≤ x.t1o.wsCount)) ||
    decide (Valley.t1EveryTime x ≠ 0 ∧ Valley.t1EveryTime x ≤ (e.side.ts - x.t1o.timerTs).toNat)

/-- A pending trigger that meets a running drain or a correcting audit is held (R155, R157). -/
def holdIfBusy (e : Eng) (v : Nat) : Eng :=
  let x := getV e v
  if x.t1o.pending && x.t1o.standing && (x.t1.isSome || correcting x) then holdStart e v else e

/-- The Terrace 1 trigger of a Valley (R155, R157). -/
def t1Trigger (m : Mem) (e : Eng) (v : Nat) : Eng :=
  let x := getV e v
  if !isJoined x || !t1Fires e x || x.t1o.pending || x.t1o.heldOne then e
  else
    tryStartT1 m (holdIfBusy (updV e v fun x => { x with t1o := { x.t1o with pending := true } }) v) v

/-- The Terrace 2 trigger of a Valley (R156, R157). -/
def t2Trigger (e : Eng) (v : Nat) : Eng :=
  let x := getV e v
  if isJoined x && decide (Valley.t2EveryWs x ≠ 0 ∧ Valley.t2EveryWs x ≤ x.t2o.wsCount) then
    updV e v fun x => { x with t2o := { x.t2o with pending := true } }
  else e

/-! ## Taking tiles and forming segments (R158, R160, R165) -/

/-- Change the running drain. -/
def updT1 (e : Eng) (v : Nat) (f : T1Run → T1Run) : Eng := updV e v fun x => { x with t1 := x.t1.map f }

/-- Runs of consecutive tiles: Reach, first tile, count. -/
def tileRuns : List (Nat × Nat) → List (Nat × Nat × Nat)
  | [] => []
  | (rho, t) :: rest =>
    match tileRuns rest with
    | (r, f, n) :: more => if r = rho ∧ f = t + 1 then (rho, t, n + 1) :: more else (rho, t, 1) :: (r, f, n) :: more
    | [] => [(rho, t, 1)]

/-- The directory of a segment: 16-byte run entries, padded to whole LBAs (R165). -/
def directory (rs : List (Nat × Nat × Nat)) : List Byte :=
  padTo 4096 (rs.flatMap fun (r, f, n) => natBytes 4 r ++ natBytes 4 f ++ natBytes 4 n ++ natBytes 4 0)

/-- A segment: its sealed payload and its commit record (R165, R166). -/
def makeSeg (x : Valley) (r : T1Run) (digest : Bool) (dirLbas runs tiles : Nat) (plain : List Byte) : Seg :=
  let first := lbaAdd (logLo x) (logLen x) r.lba r.used
  let iv := ivOf 1 r.nextSeg 0
  let tag := Config.gcmTag r.key iv [] plain
  let rec_ := sealRecord r.key (ivOf 2 r.nextSeg 0) 4096
    [pack [(0, 1), (8, 1), (16, x.tag.toNat), (32, x.self), (40, b2n digest)],
     pack [(0, r.number), (32, r.nextSeg)], BitVec.ofNat 64 first, pack [(0, dirLbas), (32, runs)],
     pack [(0, tiles)], r.ws, r.step, BitVec.ofNat 64 r.nonce.toNat, BitVec.ofNat 64 (r.nonce.toNat / 2 ^ 64),
     BitVec.ofNat 64 tag.toNat, BitVec.ofNat 64 (tag.toNat / 2 ^ 64)]
  { num := r.nextSeg, ns := r.ns, lba := first, lbas := plain.length / 4096
    commit := lbaAdd (logLo x) (logLen x) first (plain.length / 4096)
    data := Config.gcmSeal r.key iv [] plain, record := rec_, digest := digest, st := .formed, waits := [] }

/-- Add a segment to the run. -/
def addSeg (r : T1Run) (g : Seg) : T1Run :=
  { r with segs := r.segs ++ [g], nextSeg := r.nextSeg + 1, used := r.used + g.lbas + 1 }

/-- Form the segment of the tiles in hand, when they fill one or none is left, and then the digest segment. -/
def formSegs (x : Valley) (r : T1Run) : T1Run :=
  let r1 :=
    if r.taken.isEmpty ∨ (r.taken.length < Valley.segTiles x ∧ r.left ≠ []) then r
    else
      let rs := tileRuns (r.taken.map fun t => (t.1, t.2.1))
      let dir := directory rs
      addSeg { r with taken := [] }
        (makeSeg x r false (dir.length / 4096) rs.length r.taken.length
          (dir ++ (r.taken.flatMap fun t => t.2.2.flatMap Line.bytes)))
  if r1.left ≠ [] ∨ r1.taken ≠ [] ∨ r1.digestMade then r1
  else
    let plain := padTo 4096 (r1.digests.flatMap fun d =>
      natBytes 4 d.1 ++ natBytes 4 0xFFFFFFFF ++ wordBytes d.2)
    { addSeg r1 (makeSeg x r1 true 0 0 r1.digests.length plain) with digestMade := true }

/-- Form segments in the running drain. -/
def formT1 (e : Eng) (v : Nat) : Eng := let x := getV e v; updT1 e v (formSegs x)

/-- The lines of a tile at the cut: shadow lines where shadowed, loaded lines elsewhere (R160); a parity-only member's
tiles are zero (R46). -/
def cutLines (m : Mem) (e : Eng) (run : T1Run) (r : ReachInfo) (t : Nat) : List Line :=
  let own (i : Nat) : Line := if placeless e (getR e r.desc) then 0 else loadLine m e (r.base / 256 + 16 * t + i)
  (List.range 16).map fun i =>
    match Tab.find run.shadow (tileKey r.num t) with
    | some (g, bits) => if bit bits i then loadLine m e (spillPageAddr e g / 256 + i) else own i
    | none => own i

/-- Does a shadow accumulate of the tile still run? -/
def shadowBusy (e : Eng) (run : T1Run) (key : Nat) : Bool :=
  match Tab.find run.shadow key with
  | some (g, _) => pageBusy e g
  | none => false

/-- Clear the work bit of a taken tile (R162). -/
def clearWork (m : Mem) (e : Eng) (v rho t : Nat) : Eng :=
  let x := getV e v
  if Valley.drainMap x = 0 then e
  else
    let n := mapNumber e v rho t
    putBit m e (mapBase e v (!x.t1o.curB) + n / 8) (n % 8) false

/-- The drain takes its next tile (R158, R160); it takes none while a formed segment has not begun. -/
def takeTile (m : Mem) (e : Eng) (v : Nat) : Eng :=
  let x := getV e v
  match x.t1 with
  | none => e
  | some run =>
    match run.left with
    | [] => formT1 e v
    | (rho, t) :: rest =>
      if shadowBusy e run (tileKey rho t) || run.segs.any (fun g => decide (g.st = .formed)) then e
      else match reachAt e v rho with
        | none => e
        | some r =>
          let key := tileKey rho t
          let ls := cutLines m e run r t
          let e1 := match Tab.find run.shadow key with
            | some (g, _) => freeSpill e [g]
            | none => e
          let e2 := updT1 e1 v fun q =>
            { q with left := rest, taken := q.taken ++ [(rho, t, ls)], tiles := q.tiles + 1
                     shadow := Tab.del q.shadow key }
          formT1 (clearWork m e2 v rho t) v

/-! ## The hold-up check (R26, R170) -/

/-- The available energy in units of 10 mJ (R26). -/
def availableEnergy (s : Side) : Nat :=
  if !bit s.hRecord 31 || s.hFailed || s.hAlert || s.hStale then 0 else fld s.hRecord 0 16

/-- A segment's cost in MiB (R170). -/
def segMib (g : Seg) : Nat := (4096 * g.lbas + 4096 + (if g.digest then 4096 else 0) + 1048575) / 1048576

/-- The segments of the engine that have begun and are not committed. -/
def liveSegs (e : Eng) : List Seg :=
  (e.valleys.flatMap fun y => match y.2.t1 with
    | some r => r.segs.filter Seg.live
    | none => []) ++ e.io.oldSegs.filter Seg.live

/-- The need in mJ for beginning a segment (R170). -/
def holdupNeed (e : Eng) (g : Seg) : Nat :=
  10 * Regs.holdupMargin e.regs + Regs.holdupCost e.regs * ((g :: liveSegs e).map segMib).sum

/-- The LBA runs that no segment of a Valley may start on, other than the running drain's own (R168). -/
def protectedRuns (e : Eng) (v : Nat) : List (Nat × Nat) :=
  let x := getV e v
  let of (rs : List DrainRec) : List (Nat × Nat) := rs.map fun r => (r.lba, r.lbas)
  of (lineageChain x) ++
    (match x.t2 with
     | some t => of [t.source]
     | none => []) ++
    (match x.t2o.next with
     | some n => of ((x.t1o.table.getD []).filter fun r => decide (r.number = n.1))
     | none => []) ++
    x.restores.flatMap fun r => match r.read with
      | some f => of f.recs
      | none => []

/-- Would a segment take an LBA of a protected drain, or of its own drain a second time? -/
def areaFull (e : Eng) (v : Nat) (r : T1Run) (g : Seg) : Bool :=
  let x := getV e v
  decide (logLen x < r.used) || (protectedRuns e v).any fun p =>
    lbaHits (logLen x) (g.lba - logLo x) (g.lbas + 1) (p.1 - logLo x) p.2

/-- A segment that begins overwrites its LBAs: a drain that loses a commit record there is whole no more. -/
def overwrite (x : Valley) (g : Seg) : Valley :=
  let hit (l : Nat) : Bool := lbaHits (logLen x) (g.lba - logLo x) (g.lbas + 1) (l - logLo x) 1
  { x with t1o := { x.t1o with whole := x.t1o.whole.filter fun w => !w.2.any hit } }

/-- Replace a segment of the running drain. -/
def putSeg (e : Eng) (v : Nat) (g : Seg) : Eng :=
  updT1 e v fun r => { r with segs := r.segs.map fun q => if q.num = g.num then g else q }

/-- Post the payload writes of a segment (R168 step 1). -/
def beginSeg (e : Eng) (v : Nat) (g : Seg) : Eng :=
  let x := getV e v
  let start : Eng × List Nat × Nat := (e, [], 0)
  let ps := (lbaRuns (logLo x) (logLen x) (g.lbas + 2) g.lba g.lbas).foldl
    (fun acc run =>
      let p := postSto acc.1 1 false g.ns run.1 run.2 ((g.data.drop (4096 * acc.2.2)).take (4096 * run.2))
        (.t1Seg v g.num)
      (p.1, acc.2.1 ++ [p.2], acc.2.2 + run.2)) start
  putSeg (updV ps.1 v fun x => overwrite x g) v { g with st := .payload, waits := ps.2.1 }

/-- SEGMENT_BEGIN: the next formed segment begins, waits for energy, or ends its drain (R168, R170, R296). -/
def segmentBegin (e : Eng) (v : Nat) : Eng :=
  let x := getV e v
  match x.t1 with
  | none => e
  | some run =>
    match run.segs.find? fun g => decide (g.st = .formed) with
    | none => e
    | some g =>
      if Valley.segInflight x ≤ (run.segs.filter Seg.live).length ∨ retentionHold e ∨
          256 < e.io.sto.length + (lbaRuns (logLo x) (logLen x) (g.lbas + 2) g.lba g.lbas).length then e
      else if areaFull e v run g then endT1 e v 4
      else if holdupNeed e g ≤ 10 * availableEnergy e.side then
        beginSeg (updT1 e v fun r => { r with waitFrom := none }) v g
      else
        let e1 := updT1 e v fun r => { r with waitFrom := some (r.waitFrom.getD e.side.ts), paused := true }
        if run.paused then e1
        else
          raise e1 evHoldupPause stHoldupLow (some v)
            (pack [(0, fld e.side.hRecord 0 16), (16, b2n (bit e.side.hRecord 31))])
            (BitVec.ofNat 64 (holdupNeed e g))

/-- HOLDUP_WAIT_EXPIRED: a drain that has waited for HOLDUP_WAIT ends with reason 3 (R170). -/
def holdupExpired (e : Eng) (v : Nat) : Eng :=
  match (getV e v).t1 with
  | none => e
  | some run =>
    match run.waitFrom with
    | none => e
    | some t => if Regs.holdupWait e.regs ≤ (e.side.ts - t).toNat then endT1 e v 3 else e

/-! ## Completions (R168, R169) -/

/-- The drain record of a run. -/
def runRecord (r : T1Run) : DrainRec :=
  { number := r.number, base := r.base, full := r.full, ws := r.ws, step := r.step, lineage := r.lineage
    shape := r.shape, lba := r.lba, lbas := r.used, segs := r.nextSeg, tiles := r.tiles, nonce := r.nonce, key := r.key }

/-- Once every segment has committed, the drain record is written (R168). -/
def recordWrite (e : Eng) (v : Nat) : Eng :=
  let x := getV e v
  match x.t1 with
  | none => e
  | some r =>
    if r.digestMade && r.recordTag.isNone && r.segs.all (fun g => decide (g.st = .done)) then
      let p := postSto e 1 true r.ns (x.regs.t1lba.toNat + r.number % 256) 1
        (drainRecBytes x.tag x.self r.key (runRecord r)) (.t1Record v)
      updT1 p.1 v fun r => { r with recordTag := some p.2 }
    else e

/-- A segment whose descriptor has completed goes on: Flush after the payload, then the commit record with Force
Unit Access (R168). -/
def advanceSeg (e : Eng) (v : Nat) (g : Seg) (tag : Nat) : Eng × Seg :=
  let ws := without g.waits tag
  if ws ≠ [] then (e, { g with waits := ws })
  else match g.st with
    | .payload =>
      let p := postSto e 3 false g.ns 0 0 [] (.t1Seg v g.num)
      (p.1, { g with st := .flush, waits := [p.2] })
    | .flush =>
      let p := postSto e 1 true g.ns g.commit 1 g.record (.t1Seg v g.num)
      (p.1, { g with st := .commit, waits := [p.2] })
    | _ => (e, { g with st := .done, waits := [], data := [] })

/-- A storage descriptor of a segment has completed well. -/
def segDone (e : Eng) (v tag : Nat) : Eng :=
  match (getV e v).t1.bind fun r => r.segs.find? fun g => g.waits.contains tag with
  | some g =>
    let p := advanceSeg e v g tag
    recordWrite (putSeg p.1 v p.2) v
  | none =>
    match e.io.oldSegs.find? fun g => g.waits.contains tag with
    | some g =>
      let p := advanceSeg e v g tag
      updIo p.1 fun io =>
        { io with oldSegs := (io.oldSegs.map fun q => if q = g then p.2 else q).filter Seg.live }
    | none => e

/-- A storage descriptor of a segment has failed or timed out: its drain ends with reason 5 (R169). -/
def segFailed (e : Eng) (v tag : Nat) : Eng :=
  match (getV e v).t1.bind fun r => r.segs.find? fun g => g.waits.contains tag with
  | some g => endT1 (putSeg e v { g with st := .done, waits := [] }) v 5
  | none =>
    updIo e fun io => { io with oldSegs := io.oldSegs.filter fun g => !g.waits.contains tag }

/-- The drain table has been read, and the survey of its drains begins; or its read has failed, and a start that waited
for it ends with reason 5. -/
def tableRead (e : Eng) (v : Nat) (good : Bool) (data : List W64) : Eng :=
  let x := getV e v
  let e1 := updV e v fun x => { x with t1o := { x.t1o with tableTag := none } }
  match good, jobKey e x.fn with
  | true, some job =>
    let rs := tableOf job x data
    surveyOn (updV e1 v fun x =>
      { x with t1o := { x.t1o with table := some rs, survey := some (areaRead x (byNumber rs)), whole := [] } }) v
  | true, none => e1
  | false, _ =>
    if x.t1o.asked.isSome || (x.t1o.pending && x.t1o.standing) then
      drainDone (updV e1 v fun x => { x with t1o := { x.t1o with asked := none, pending := false } }) v 1 5
        (decide (x.t1o.asked = some true)) 0 ((x.ws.map (·.number)).getD 0)
    else e1

/-- A read of the survey has completed well. -/
def surveyRead (e : Eng) (v : Nat) (tag : Nat) (data : List W64) : Eng :=
  match (getV e v).t1o.survey with
  | none => e
  | some f => if f.tag = some tag then surveyOn (setSurvey e v (some (gotRead f data))) v else e

/-- A read of the survey has failed: the table is read again when it is next needed. -/
def forgetTable (e : Eng) (v : Nat) : Eng :=
  updV e v fun x => { x with t1o := { x.t1o with table := none, survey := none, whole := [] } }

/-- The drain record is on flash: the drain is complete, and takes its place in the table (R168). The answer
names the drain if it feeds Terrace 2 (R156). -/
def recordDone (e : Eng) (v : Nat) : Eng × Option Nat :=
  match (getV e v).t1 with
  | none => (e, none)
  | some r =>
    let e1 := updV e v fun x =>
      { x with t1o := { x.t1o with
          workLeft := false
          whole := Tab.set (Tab.del x.t1o.whole (r.number - 256)) r.number (r.segs.map (·.commit))
          table := some (runRecord r :: (x.t1o.table.getD []).filter fun q =>
            decide (q.number % 256 ≠ r.number % 256)) } }
    (endT1 e1 v 0, if r.forT2 then some r.number else none)

end Sys2Proof.Machine
end

