-- ==== Sys2Proof/Machine/Terrace2.lean ====
section
/-!
DEFINITION. Machine/Terrace2.lean: Terrace 2 drains (R156, R165, R171 to R174).
-/

namespace Sys2Proof.Machine

/-! ## The layout table (R172) -/

/-- Read a layout table of `n` entries. -/
def layoutAt (m : Mem) (e : Eng) (a n : Nat) : List LayoutEnt :=
  (chop 4 n (loadWords m e a (4 * n))).map fun w =>
    { slot := fld (w.getD 0 0) 0 10, offset := fld (w.getD 0 0) 16 48, length := fld (w.getD 1 0) 0 48
      tensor := w.getD 2 0, start := w.getD 3 0 }

/-- The region of a Valley in a slot. -/
def regionOfSlot (e : Eng) (v slot : Nat) : Option (Nat × Region) :=
  (valleyRegions e v).find? fun r => decide (Region.slot r.2 = slot)

/-- Does a layout entry satisfy its conditions? -/
def layoutEntOk (e : Eng) (v : Nat) (t : LayoutEnt) : Bool :=
  match regionOfSlot e v t.slot with
  | none => false
  | some (_, r) =>
    let unit := if Region.typ r = 3 then Region.sblock r else typeWidth (Region.typ r)
    decide (Region.cls r ≠ clsLanding ∧ t.offset % unit = 0 ∧ t.length % unit = 0 ∧
      t.offset + t.length ≤ 4096 * Region.tiles r)

/-- Are the entries sorted by slot and offset, without overlap? -/
def layoutSorted : List LayoutEnt → Bool
  | [] => true
  | [_] => true
  | a :: b :: r =>
    (decide (a.slot < b.slot) || (decide (a.slot = b.slot) && decide (a.offset + a.length ≤ b.offset))) &&
      layoutSorted (b :: r)

/-- Does a layout table keep the conditions of R172? -/
def layoutOk (m : Mem) (e : Eng) (v a n : Nat) : Bool :=
  let ls := layoutAt m e a n
  decide (1 ≤ n ∧ n ≤ 16777216) && layoutSorted ls && ls.all (layoutEntOk e v)

/-! ## Pieces and objects (R173, R174) -/

/-- The pieces of a layout, numbered in drain order. -/
def piecesOf (e : Eng) (v : Nat) (ls : List LayoutEnt) : List Piece :=
  let pm := Valley.pieceMax (getV e v)
  let raw := ls.flatMap fun t =>
    let w := match regionOfSlot e v t.slot with
      | some (_, r) => typeWidth (Region.typ r)
      | none => 1
    (List.range ((t.length + pm - 1) / pm)).map fun i =>
      (t, t.start.toNat + i * pm / w, min pm (t.length - i * pm))
  raw.zipIdx.map fun (p, i) => { seq := i, entry := p.1, first := p.2.1, bytes := p.2.2 }

/-- Bytes of a region as the source drain holds them. -/
def sourceBytes (e : Eng) (v : Nat) (tiles : Tab (List Byte)) (slot off n : Nat) : List Byte :=
  let rs := (reachList e v).filter fun r => decide (r.slot = slot)
  let tile (t : Nat) : List Byte :=
    match rs.find? fun r => match rs.head? with
      | some r0 => decide (r.num = r0.num + t / r0.full)
      | none => false with
    | some r => Tab.get (List.replicate 4096 0) tiles (tileKey r.num (t % r.full))
    | none => List.replicate 4096 0
  let t0 := off / 4096
  let k := (off % 4096 + n + 4095) / 4096
  (((List.range k).flatMap fun i => tile (t0 + i)).drop (off % 4096)).take n

/-- The digest of bytes over their zero-padded words (R173). -/
def bytesDigest (alpha : W64) (bs : List Byte) : W64 := wordsDigest alpha (bytesWords bs)

/-- The object key (R174). -/
def objectKey (tensor ws start : W64) (lineage : W32) : BitVec 256 :=
  BitVec.ofNat 256 (bytesNat (wordBytes tensor ++ wordBytes ws ++ wordBytes start ++ natBytes 4 lineage.toNat))

/-- Chunk size in bytes. -/
def chunkBytes : Nat := 1048576

/-- The object of a piece (R173). -/
def pieceObject (e : Eng) (v : Nat) (run : T2Run) (p : Piece) : List Byte :=
  let x := getV e v
  let r := (regionOfSlot e v p.entry.slot).getD (0, {})
  let w := typeWidth (Region.typ r.2)
  let off := p.entry.offset + (p.first - p.entry.start.toNat) * w
  let values := sourceBytes e v run.tiles p.entry.slot off p.bytes
  let e4 := decide (Region.typ r.2 = 3)
  let scales :=
    if e4 then
      let sb := Region.sblock r.2
      sourceBytes e v run.tiles (Region.slot (getR e (Region.side r.2))) (off / sb) ((p.bytes + sb - 1) / sb)
    else []
  let plain := padTo 8 (values ++ scales)
  let chunks := chop chunkBytes plain.length plain
  let head : List W64 :=
    [pack [(0, 1), (8, 1), (16, x.tag.toNat), (32, x.self), (40, Region.typ r.2), (44, Region.cls r.2),
       (48, Region.sblock r.2)],
     p.entry.tensor, BitVec.ofNat 64 p.first, BitVec.ofNat 64 (p.bytes / w), run.source.ws, run.source.step,
     BitVec.ofNat 64 p.bytes, BitVec.ofNat 64 scales.length, bytesDigest x.alpha values,
     bytesDigest x.alpha scales, BitVec.ofNat 64 run.nonce.toNat, BitVec.ofNat 64 (run.nonce.toNat / 2 ^ 64),
     pack [(0, chunks.length), (32, 1024)], pack [(0, run.source.lineage.toNat), (32, p.seq)],
     pack [(0, run.source.number)]]
  let hdr := sealRecord run.key (ivOf 4 p.seq 0) 256 head
  let aad := hdr.take 240
  hdr ++ (chunks.zipIdx.flatMap fun (c, i) =>
    Config.gcmSeal run.key (ivOf 5 p.seq i) aad c ++ natBytes 16 (Config.gcmTag run.key (ivOf 5 p.seq i) aad c).toNat)

/-! ## A Terrace 2 drain (R156, R171 to R174) -/

/-- Change the running Terrace 2 drain. -/
def updT2 (e : Eng) (v : Nat) (f : T2Run → T2Run) : Eng := updV e v fun x => { x with t2 := x.t2.map f }

/-- End the running Terrace 2 drain (R185). -/
def endT2 (e : Eng) (v reason : Nat) : Eng :=
  match (getV e v).t2 with
  | none => e
  | some r =>
    let e1 := updV (freeBasin e r.pages) v fun x => { x with t2 := none }
    drainDone e1 v 2 reason false r.source.number r.source.ws

/-- Put the next piece, or end the drain when none is left. -/
def putPiece (e : Eng) (v : Nat) : Eng :=
  match (getV e v).t2 with
  | none => e
  | some r =>
    match r.pieces with
    | [] => endT2 e v 0
    | p :: _ =>
      if !r.waits.isEmpty || !passRoom e || putsWait e then e
      else
        let obj := pieceObject e v r p
        let q := postPass e 0x11
          (objectKey p.entry.tensor r.source.ws (BitVec.ofNat 64 p.first) r.source.lineage) 0 obj.length obj
          (.t2Piece v p.seq)
        updT2 q.1 v fun r => { r with waits := [q.2] }

/-- Read on: commit records first, then one payload after another; a bad one ends the drain with reason 8. When
all are read, the pieces are formed. -/
def readSource (v : Nat) : Nat → Eng → Eng
  | 0, e => e
  | fuel + 1, e =>
    let x := getV e v
    match x.t2 with
    | none => e
    | some r =>
      if r.ready then putPiece e v
      else if !r.read.want.isEmpty then
        let p := postRead e r.read (.t2Source v)
        updT2 p.1 v fun r => { r with read := p.2 }
      else match walkDrain r.srcKey x.tag x.self r.read r.source with
        | .bad => endT2 e v 8
        | .need l => readSource v fuel (updT2 e v fun r => { r with read := wantLbas r.read l 1 })
        | .done hs =>
          match hs[r.segAt]? with
          | none =>
            putPiece (updT2 e v fun r =>
              { r with ready := true, pieces := piecesOf e v r.layout, read := { r.read with blocks := [] } }) v
          | some h =>
            if !payloadHere r.read h then
              readSource v fuel (updT2 e v fun r => { r with read := wantLbas r.read h.first h.lbas })
            else match openSeg r.srcKey r.read h with
              | none => endT2 e v 8
              | some plain =>
                let ts := if h.digest then [] else segTiles h plain
                readSource v fuel (updT2 e v fun r =>
                  { r with segAt := r.segAt + 1, read := dropPayload r.read h
                           tiles := ts.foldl (fun t q => Tab.set t (tileKey q.1 q.2.1) q.2.2) r.tiles })

/-- Go on with a Terrace 2 drain. -/
def runT2 (e : Eng) (v : Nat) : Eng := readSource v readFuel e

/-- Start the Terrace 2 drain that is next (R156, R171, R287). -/
def tryStartT2 (m : Mem) (e : Eng) (v : Nat) : Eng :=
  let x := getV e v
  match x.t2o.next with
  | none => e
  | some (source, la, ln) =>
    if x.t2.isSome || x.t2o.held || !isJoined x || !hasArea x || !nsAllowed e v then e
    else if !drainKeyed e v then
      raise (updV e v fun x => { x with t2o := { x.t2o with held := true } }) evDrainHeld stOK (some v)
        (pack [(4, 2)]) (BitVec.ofNat 64 x.t2o.wsCount)
    else
      let e1 := readTable e v
      match x.t1o.table, jobKey e x.fn with
      | some _, some job =>
        let e2 := updV e1 v fun x =>
          { x with t2o := { x.t2o with next := none, held := false, wsCount := 0, pending := false } }
        match (x.t1o.table.getD []).find? fun r => decide (r.number = source) && r.full with
        | none => drainDone e2 v 2 8 false source 0
        | some r =>
          match reservePages e2 3 512 (.work v 2) with
          | none => drainDone e2 v 2 7 false source r.ws
          | some (gs, e3) =>
            let n := drawNonce e3
            let run : T2Run :=
              { source := r, nonce := n.1, srcKey := drainKey job r.nonce, key := drainKey job n.1
                layout := layoutAt m e la ln, read := areaRead x [r], pages := gs }
            runT2 (updV n.2 v fun x => { x with t2 := some run }) v
      | _, _ => e1

/-- A full drain that fed Terrace 2 has completed with reason 0: it is the next source (R156). -/
def feedT2 (m : Mem) (e : Eng) (v : Nat) (number : Nat) : Eng :=
  match (getV e v).t2o.standing with
  | none => e
  | some (la, ln) =>
    tryStartT2 m (updV e v fun x => { x with t2o := { x.t2o with next := some (number, la, ln) } }) v

/-- A source read of a Terrace 2 drain has completed well. -/
def t2Read (e : Eng) (v : Nat) (tag : Nat) (data : List W64) : Eng :=
  match (getV e v).t2 with
  | none => e
  | some r =>
    if r.read.tag = some tag then runT2 (updT2 e v fun r => { r with read := gotRead r.read data }) v else e

/-- A put of a Terrace 2 drain has completed well. -/
def t2Put (e : Eng) (v tag : Nat) : Eng :=
  match (getV e v).t2 with
  | none => e
  | some r =>
    if r.waits.contains tag then putPiece (updT2 e v fun r => { r with waits := [], pieces := r.pieces.drop 1 }) v
    else e

/-- A descriptor of a Terrace 2 drain has failed or timed out (R169). -/
def t2Failed (e : Eng) (v tag : Nat) : Eng :=
  match (getV e v).t2 with
  | none => e
  | some r => if r.read.tag = some tag || r.waits.contains tag then endT2 e v 5 else e

end Sys2Proof.Machine
end

