-- ==== Sys2Proof/Machine/Restore.lean ====
section
/-!
DEFINITION. Machine/Restore.lean: restores from Terrace 1, from the store and from a peer, and seed tables
(R175 to R182, R185).
-/

namespace Sys2Proof.Machine

/-! ## Restores of a Valley -/

/-- Replace or remove restore `i` of a Valley. -/
def putRestore (e : Eng) (v i : Nat) (r : Option Restore) : Eng :=
  updV e v fun x =>
    { x with restores := match r with
        | some r => x.restores.set i r
        | none => x.restores.eraseIdx i }

/-- The newest complete candidate: the candidates come newest first (R175). -/
def bestCand (mask : Nat) : Nat := (leastFrom (fun i => mask.testBit i) 8 0).getD 0

/-- The name of a cached chunk of a restore among the pages of its Valley. -/
def cacheKey (id ent num : Nat) : Nat := (id * 16777216 + ent) * 16777216 + num

/-- Is a chunk still held by its cached spill pages (R112, R113)? -/
def chunkCached (e : Eng) (v id : Nat) (c : Chunk) : Bool :=
  !c.pages.isEmpty && c.pages.all fun g => match Tab.find e.spill.pages g with
    | some p => decide (p.cls = .cache ∧ p.v = v ∧ p.key = cacheKey id c.ent c.num)
    | none => false

/-- End restore `i` with a reason: pages go, and RESTORE_DONE is raised (R185). -/
def endRestore (e : Eng) (v i : Nat) (r : Restore) (reason : Nat) : Eng :=
  let loaded := decide (reason = 0) && !r.probe
  let cand := bestCand r.mask
  let step : W64 := if loaded || (r.probe && decide (r.mask ≠ 0)) then Tab.get 0 r.steps cand else 0
  let st := if reason = 0 then stOK else if reason = 1 then stMixed else stOutOfRange
  let e1 := freeBasin (putRestore e v i none) r.pages
  let e2 := r.chunks.foldl (fun e c => if chunkCached e v r.id c then freeSpill e c.pages else e) e1
  raise e2 evRestoreDone st (some v)
    (pack [(0, r.mask), (8, if loaded then cand else 0), (11, b2n loaded), (12, r.terrace), (14, b2n r.probe),
      (16, reason)]) step

/-! ## Terrace 1 (R177) -/

/-- The next chain of a candidate to be judged, with the keys that its nonces give under the job key current now
(R177, R283). -/
def nextChain (e : Eng) (v : Nat) (r : Restore) (c : W64 × W32) : Option (List DrainRec) :=
  match (candChains e v c)[r.alt]?, jobKey e (getV e v).fn with
  | some ch, some job => some (keyed job ch)
  | _, _ => none

/-- Walk the commit records of a whole chain: the segments of every drain, full drain first. -/
def walkChain (e : Eng) (v : Nat) (self : Nat) (f : FlashRead) :
    List DrainRec → Walk × List (DrainRec × SegHead)
  | [] => (.done [], [])
  | r :: rest =>
    match walkDrain r.key (getV e v).tag self f r with
    | .done hs =>
      let more := walkChain e v self f rest
      (more.1, more.2 ++ hs.map fun h => (r, h))
    | w => (w, [])

/-- Where the map of a restore puts a tile of a Reach (R145, R177). -/
def mapAddr (e : Eng) (v : Nat) (map : List MapEnt) (rho t : Nat) : Option Nat :=
  match map.find? fun q => decide (q.first ≤ rho ∧ rho < q.first + q.count) with
  | none => none
  | some q =>
    let before := (((reachList e v).filter fun r => decide (q.first ≤ r.num ∧ r.num < rho)).map (·.tiles)).sum
    some (q.base + 4096 * (before + t))

/-- Set the mapped tiles of an opened segment. -/
def setTiles (m : Mem) (e : Eng) (v : Nat) (r : Restore) (ts : List (Nat × Nat × List Byte)) : Eng :=
  ts.foldl (fun e t => match mapAddr e v r.map t.1 t.2.1 with
    | some a => setBytes m e a t.2.2
    | none => e) e

/-- Do the mapped Reaches have the digests of the newest drain's digest segment? -/
def mapDigestsOk (m : Mem) (e : Eng) (v : Nat) (r : Restore) : Bool :=
  (reachList e v).all fun q => match mapAddr e v r.map q.num 0 with
    | none => true
    | some a => decide (wordBytes (rangeDigest m e r.alpha a (4096 * q.tiles)) =
        Tab.get (List.replicate 8 0) r.copied q.num)

/-- Go on with a Terrace 1 restore. -/
def runRestore1 (m : Mem) (v i : Nat) : Nat → Eng → Eng
  | 0, e => e
  | fuel + 1, e =>
    let x := getV e v
    match x.restores[i]? with
    | none => e
    | some r =>
      let put (e : Eng) (r : Restore) : Eng := putRestore e v i (some r)
      match r.stage, r.read with
      | .table, _ =>
        if x.t1o.table.isSome then runRestore1 m v i fuel (put e { r with stage := .chain })
        else readTable e v
      | .chain, none =>
        match r.cands[r.cand]? with
        | none =>
          if r.mask = 0 then endRestore e v i r 1
          else if r.probe then endRestore e v i r 0
          else
            let c := bestCand r.mask
            match Tab.find r.chains c with
            | none => endRestore e v i r 2
            | some ch => runRestore1 m v i fuel (put e { r with stage := .chunks, cand := c, read := some (areaRead x ch) })
        | some c =>
          match nextChain e v r c with
          | none => runRestore1 m v i fuel (put e { r with cand := r.cand + 1, alt := 0 })
          | some ch => runRestore1 m v i fuel (put e { r with read := some (areaRead x ch) })
      | .chain, some f =>
        if !f.want.isEmpty then
          let p := postRead e f (.restore v i)
          put p.1 { r with read := some p.2 }
        else match walkChain e v r.self f f.recs with
          | (.bad, _) => runRestore1 m v i fuel (put e { r with alt := r.alt + 1, read := none })
          | (.need l, _) => runRestore1 m v i fuel (put e { r with read := some (wantLbas f l 1) })
          | (.done _, _) =>
            runRestore1 m v i fuel (put e
              { r with mask := r.mask + 2 ^ r.cand, cand := r.cand + 1, alt := 0, read := none
                       chains := Tab.set r.chains r.cand f.recs
                       steps := Tab.set r.steps r.cand ((f.recs.head?.map (·.step)).getD 0) })
      | .chunks, some f =>
        if !f.want.isEmpty then
          let p := postRead e f (.restore v i)
          put p.1 { r with read := some p.2 }
        else match walkChain e v r.self f f.recs with
          | (.bad, _) => endRestore e v i r 2
          | (.need l, _) => runRestore1 m v i fuel (put e { r with read := some (wantLbas f l 1) })
          | (.done _, segs) =>
            match segs[r.entry]? with
            | none => endRestore e v i r (if mapDigestsOk m e v r then 0 else 3)
            | some (q, h) =>
              if !payloadHere f h then
                runRestore1 m v i fuel (put e { r with read := some (wantLbas f h.first h.lbas) })
              else match openSeg q.key f h with
                | none => endRestore e v i r 2
                | some plain =>
                  let r1 := { r with entry := r.entry + 1, read := some (dropPayload f h) }
                  if h.digest then
                    let newest := decide (some q.number = f.recs.head?.map (·.number))
                    runRestore1 m v i fuel (put e
                      { r1 with copied := if newest then
                                  (segDigests h plain).foldl (fun t d => Tab.set t d.1 d.2) r1.copied
                                else r1.copied })
                  else
                    runRestore1 m v i fuel (put (setTiles m e v r (segTiles h plain)) r1)
      | _, _ => e

/-! ## The store (R178, R179) -/

/-- Read a copy list of `n` entries (R178). -/
def copiesAt (m : Mem) (e : Eng) (a n : Nat) : List CopyEnt :=
  (chop 8 n (loadWords m e a (8 * n))).map fun w =>
    { tensor := w.getD 0 0, start := w.getD 1 0, offset := (w.getD 2 0).toNat, count := (w.getD 3 0).toNat
      dest := (w.getD 4 0).toNat, sdest := (w.getD 5 0).toNat, typ := fld (w.getD 6 0) 0 3
      sblock := fld (w.getD 6 0) 8 8 }

/-- Value bytes and scale bytes of a copy entry. -/
def CopyEnt.bytes (c : CopyEnt) : Nat := c.count * typeWidth c.typ
def CopyEnt.scales (c : CopyEnt) : Nat :=
  if c.typ = 3 ∧ c.sblock ≠ 0 then (c.count + c.sblock - 1) / c.sblock else 0

/-- Scale bytes of a piece of `n` elements. -/
def pieceScales (c : CopyEnt) (n : Nat) : Nat := if c.typ = 3 ∧ c.sblock ≠ 0 then (n + c.sblock - 1) / c.sblock else 0

/-- The key of a header: candidate and entry. -/
def headKey (cand entry : Nat) : Nat := cand * 33554432 + entry

/-- What a header says of a candidate. -/
inductive HeadVerdict where
  | good
  | incomplete
  | mismatch
deriving DecidableEq, Repr

/-- The key of a Terrace 2 object, from the nonce in its header, under the job key current when the header is read
(R283). -/
def objKey (e : Eng) (v : Nat) (ws : List W64) : Option (BitVec 256) :=
  (jobKey e (getV e v).fn).map fun job =>
    drainKey job (BitVec.ofNat 128 ((ws.getD 10 0).toNat + 2 ^ 64 * (ws.getD 11 0).toNat))

/-- Judge an object header for an entry of a candidate (R178). -/
def judgeHead (e : Eng) (v : Nat) (r : Restore) (c : CopyEnt) (ws : List W64) : HeadVerdict :=
  let w (i : Nat) : W64 := ws.getD i 0
  let cd := r.cands.getD r.cand (0, 0)
  let good := match objKey e v ws with
    | some key => recordGood key (ivOf 4 (fld (w 13) 32 32) 0) (wordsBytes ws)
    | none => false
  let fit := decide (ws.length = 32 ∧ fld (w 0) 0 8 = 1 ∧ fld (w 0) 8 4 = 1 ∧ w 4 = cd.1 ∧ fld (w 13) 0 32 = cd.2.toNat ∧
    w 1 = c.tensor ∧ w 2 = c.start ∧ c.offset + c.count ≤ (w 3).toNat)
  let stepOk := match Tab.find r.steps r.cand with
    | some s => decide (s = w 5)
    | none => true
  if !good || !fit then .incomplete
  else if fld (w 0) 40 3 ≠ c.typ ∨ fld (w 0) 48 8 ≠ c.sblock then .mismatch
  else if stepOk then .good else .incomplete

/-- The first entry that names the same piece as entry `i`. -/
def sameObject (r : Restore) (i : Nat) : Nat :=
  match r.copies[i]? with
  | some c => (leastFrom (fun j => match r.copies[j]? with
      | some d => decide (d.tensor = c.tensor ∧ d.start = c.start)
      | none => false) (i + 1) 0).getD i
  | none => i

/-- The plaintext bytes of a piece: values, scales, padding (R173). -/
def plainLen (ws : List W64) : Nat := ((ws.getD 6 0).toNat + (ws.getD 7 0).toNat + 7) / 8 * 8

/-- The chunks that cover an entry (R179). -/
def neededChunks (c : CopyEnt) (ws : List W64) : List Nat :=
  let span (a n : Nat) : List Nat :=
    if n = 0 then [] else (List.range ((a + n - 1) / chunkBytes + 1 - a / chunkBytes)).map (· + a / chunkBytes)
  let wd := typeWidth c.typ
  let sc := if c.scales = 0 then [] else span ((ws.getD 6 0).toNat + c.offset / c.sblock) c.scales
  (span (c.offset * wd) c.bytes ++ sc).eraseDups

/-- A chunk in hand for entry `i`: fetched for it, or still cached. -/
def chunkInHand (e : Eng) (v : Nat) (r : Restore) (i obj n : Nat) : Option Chunk :=
  r.chunks.find? fun c => decide (c.ent = obj ∧ c.num = n) && (decide (c.use = i) || chunkCached e v r.id c)

/-- The first run of consecutive numbers of a list. -/
def firstRun : List Nat → Option (Nat × Nat)
  | [] => none
  | a :: rest => some (a, 1 + ((rest.zipIdx.takeWhile fun p => decide (p.1 = a + 1 + p.2)).length))

/-- Bytes `[a, a + n)` of a piece's plaintext from the chunks in hand. -/
def plainBytes (e : Eng) (v : Nat) (r : Restore) (i obj a n : Nat) : List Byte :=
  if n = 0 then []
  else
    let c0 := a / chunkBytes
    let k := (a + n - 1) / chunkBytes + 1 - c0
    (((List.range k).flatMap fun j => match chunkInHand e v r i obj (c0 + j) with
      | some c => c.bytes
      | none => []).drop (a % chunkBytes)).take n

/-- Once every chunk of a piece has been fetched, do its digests match (R179)? -/
def pieceDigestsOk (r : Restore) (obj : Nat) (ws : List W64) : Bool :=
  let n := (plainLen ws + chunkBytes - 1) / chunkBytes
  let cs := (List.range n).map fun j => r.chunks.find? fun c => decide (c.ent = obj ∧ c.num = j)
  if cs.all (·.isSome) then
    let plain := cs.flatMap fun c => (c.map (·.bytes)).getD []
    let values := plain.take (ws.getD 6 0).toNat
    let scales := (plain.drop (ws.getD 6 0).toNat).take (ws.getD 7 0).toNat
    decide (bytesDigest r.alpha values = ws.getD 8 0) && decide (bytesDigest r.alpha scales = ws.getD 9 0)
  else true

/-- Allocate the cached pages of a chunk; none when any page is refused. -/
def cachePages (m : Mem) (v key : Nat) : Nat → Eng → List Nat → List Nat × Eng
  | 0, e, gs => (gs, e)
  | n + 1, e, gs =>
    match allocSpill m e .cache v key with
    | (some g, e1) => cachePages m v key n e1 (gs ++ [g])
    | (none, e1) => ([], freeSpill e1 gs)

/-- Write the bytes of an entry to its destinations. -/
def writeEntry (m : Mem) (e : Eng) (v : Nat) (r : Restore) (i : Nat) (c : CopyEnt) (ws : List W64) : Eng × List Byte × List Byte :=
  let obj := sameObject r i
  let vals := plainBytes e v r i obj (c.offset * typeWidth c.typ) c.bytes
  let scs := if c.scales = 0 then [] else plainBytes e v r i obj ((ws.getD 6 0).toNat + c.offset / c.sblock) c.scales
  let e1 := setBytes m e c.dest vals
  (if c.scales = 0 then e1 else setBytes m e1 c.sdest scs, vals, scs)

/-- The seed table of a completed load (R181). -/
def writeSeeds (m : Mem) (e : Eng) (v : Nat) (r : Restore) : Eng :=
  if r.seedAt = 0 then e
  else
    let cd := r.cands.getD r.cand (0, 0)
    let head : List W64 := [0, cd.1, Tab.get 0 r.steps r.cand, cd.2.setWidth 64, BitVec.ofNat 64 r.copies.length, 0, 0, 0]
    let body := r.copies.zipIdx.flatMap fun (c, i) =>
      let d := bytesWords (Tab.get [] r.copied i)
      [c.tensor, c.start, BitVec.ofNat 64 c.offset, BitVec.ofNat 64 c.count, BitVec.ofNat 64 c.dest,
       BitVec.ofNat 64 c.sdest, d.getD 0 0, d.getD 1 0]
    let e1 := setBytes m e r.seedAt (wordsBytes (head ++ body))
    { e1 with seeds := { base := r.seedAt, v := v, ready := false } :: e1.seeds.filter fun s =>
        decide (s.base ≠ r.seedAt) }

/-- Post a get range, when the port has room and no put of an export comes first (R200). -/
def postGet (e : Eng) (v i : Nat) (r : Restore) (key : BitVec 256) (off len : Nat) : Eng :=
  if passRoom e && !putsWait e then
    let p := postPass e 0x12 key off len [] (.restore v i)
    putRestore p.1 v i (some { r with passTag := some p.2 })
  else e

/-- The object key of a copy entry for a candidate. -/
def copyKey (c : CopyEnt) (cd : W64 × W32) : BitVec 256 := objectKey c.tensor cd.1 c.start cd.2

/-- Go on with a restore from the store. -/
def runRestore2 (m : Mem) (v i : Nat) : Nat → Eng → Eng
  | 0, e => e
  | fuel + 1, e =>
    match (getV e v).restores[i]? with
    | none => e
    | some r =>
      if r.passTag.isSome then e
      else match r.stage with
        | .headers =>
          match r.cands[r.cand]? with
          | none =>
            if r.mask = 0 then endRestore e v i r 1
            else if r.probe then endRestore e v i r 0
            else runRestore2 m v i fuel (putRestore e v i (some
              { r with stage := .chunks, cand := bestCand r.mask, entry := 0 }))
          | some cd =>
            match r.copies[r.entry]? with
            | none =>
              runRestore2 m v i fuel (putRestore e v i (some
                { r with mask := r.mask + 2 ^ r.cand, cand := r.cand + 1, entry := 0 }))
            | some c => postGet e v i r (copyKey c cd) 0 256
        | .chunks =>
          match r.copies[r.entry]? with
          | none => endRestore (writeSeeds m e v r) v i r 0
          | some c =>
            let ws := Tab.get [] r.heads (headKey r.cand r.entry)
            let obj := sameObject r r.entry
            match firstRun ((neededChunks c ws).filter fun n => (chunkInHand e v r r.entry obj n).isNone) with
            | none =>
              let w := writeEntry m e v r r.entry c ws
              let d := wordBytes (bytesDigest r.alpha w.2.1) ++ wordBytes (bytesDigest r.alpha w.2.2)
              runRestore2 m v i fuel (putRestore w.1 v i (some
                { r with entry := r.entry + 1
                         copied := if r.seedAt = 0 then r.copied else Tab.set r.copied r.entry d }))
            | some (c0, n) =>
              let last := min (plainLen ws) ((c0 + n) * chunkBytes)
              postGet e v i { r with want := [(c0, n)] } (copyKey c (r.cands.getD r.cand (0, 0)))
                (256 + c0 * (chunkBytes + 16)) (last - c0 * chunkBytes + 16 * n)
        | _ => e

/-- A header has been read: judge it (R178). -/
def gotHead (m : Mem) (e : Eng) (v i : Nat) (r : Restore) (data : List W64) : Eng :=
  let ws := data.take 32
  let r0 := { r with passTag := none }
  match r.copies[r.entry]? with
  | none => e
  | some c =>
    match judgeHead e v r c ws with
    | .good =>
      runRestore2 m v i readFuel (putRestore e v i (some
        { r0 with entry := r.entry + 1, heads := Tab.set r.heads (headKey r.cand r.entry) ws
                  keys := Tab.set r.keys (headKey r.cand r.entry) ((objKey e v ws).getD 0)
                  steps := Tab.set r.steps r.cand (ws.getD 5 0) }))
    | .incomplete =>
      runRestore2 m v i readFuel (putRestore e v i (some
        { r0 with cand := r.cand + 1, entry := 0, steps := Tab.del r.steps r.cand }))
    | .mismatch =>
      if r.probe then
        runRestore2 m v i readFuel (putRestore e v i (some
          { r0 with cand := r.cand + 1, entry := 0, steps := Tab.del r.steps r.cand }))
      else endRestore e v i r0 7

/-- The ciphertext of chunk `n` of a piece and its tag, from the bytes of a get range that starts at chunk `c0`. -/
def cutChunk (ws : List W64) (bytes : List Byte) (c0 n : Nat) : List Byte × BitVec 128 :=
  let k := min chunkBytes (plainLen ws - n * chunkBytes)
  let b := bytes.drop ((n - c0) * (chunkBytes + 16))
  (b.take k, BitVec.ofNat 128 (bytesNat ((b.drop k).take 16)))

/-- Chunks have been read: authenticate each, cache it, and check the piece's digests once it is whole (R179). -/
def gotChunks (m : Mem) (e : Eng) (v i : Nat) (r : Restore) (data : List W64) : Eng :=
  let r0 := { r with passTag := none, want := [] }
  let ws := Tab.get [] r.heads (headKey r.cand r.entry)
  let obj := sameObject r r.entry
  match r.want, Tab.find r.keys (headKey r.cand r.entry) with
  | (c0, n) :: _, some key =>
    let bytes := wordsBytes data
    let aad := (wordsBytes ws).take 240
    let opened := (List.range n).map fun j =>
      let c := cutChunk ws bytes c0 (c0 + j)
      Config.gcmOpen key (ivOf 5 (fld (ws.getD 13 0) 32 32) (c0 + j)) aad c.1 c.2
    if opened.any (·.isNone) then endRestore e v i r0 2
    else
      let acc := opened.zipIdx.foldl (fun (acc : Eng × List Chunk) p =>
        let b := p.1.getD []
        let num := c0 + p.2
        let gs := cachePages m v (cacheKey r.id obj num) ((b.length + 4095) / 4096) acc.1 []
        (gs.2, { ent := obj, num := num, use := r.entry, bytes := b, pages := gs.1 } ::
          acc.2.filter fun c => !decide (c.ent = obj ∧ c.num = num))) (e, r0.chunks)
      let r1 := { r0 with chunks := acc.2 }
      if pieceDigestsOk r1 obj ws then runRestore2 m v i readFuel (putRestore acc.1 v i (some r1))
      else endRestore acc.1 v i r1 3
  | _, _ => endRestore e v i r0 2

/-- A Pass read of a restore has completed: status 0 with data, 1 when the object does not exist. -/
def gotPass (m : Mem) (e : Eng) (v i : Nat) (r : Restore) (status : W16) (data : List W64) : Eng :=
  let r0 := { r with passTag := none }
  match r.stage with
  | .headers =>
    if status = 0 then gotHead m e v i r data
    else if status = 1 then
      runRestore2 m v i readFuel (putRestore e v i (some
        { r0 with cand := r.cand + 1, entry := 0, steps := Tab.del r.steps r.cand }))
    else endRestore e v i r0 5
  | _ => if status = 0 then gotChunks m e v i r data else endRestore e v i r0 5

/-! ## A peer (R182) -/

/-- The words of seed entry `i`. -/
def seedEnt (r : Restore) (i : Nat) : List W64 := (r.seed.drop (8 * (i + 1))).take 8

/-- The first seed entry that a copy entry equals in tensor, piece start, offset and count (R182). -/
def seedFor (r : Restore) (c : CopyEnt) : Option (List W64) :=
  ((List.range (r.seed.getD 4 0).toNat).map (seedEnt r)).find? fun s =>
    decide (s.take 4 = [c.tensor, c.start, BitVec.ofNat 64 c.offset, BitVec.ofNat 64 c.count])

/-- The seed entry of the copy entry that is next. -/
def seedNow (r : Restore) : List W64 := ((r.copies[r.entry]?).bind (seedFor r)).getD []

/-- Post an asynchronous copy. -/
def postCopy (e : Eng) (c : AsyncCopy) : Eng := updIo e fun io => { io with copies := io.copies ++ [c] }

/-- Read the header of the seeder's table and its first `n` entries. -/
def readSeeds (e : Eng) (v : Nat) (r : Restore) (n : Nat) : Eng :=
  postCopy e { v := v, node := r.node, src := r.seedAt, dst := 0, len := 64 * (1 + n), entry := r.id, scale := false }

/-- Copy the value range of an entry. -/
def copyValues (e : Eng) (v : Nat) (r : Restore) (c : CopyEnt) : Eng :=
  postCopy e { v := v, node := r.node, src := ((seedNow r).getD 4 0).toNat, dst := c.dest, len := c.bytes
               entry := r.id, scale := false }

/-- Copy the scale range of an entry. -/
def copyScales (e : Eng) (v : Nat) (r : Restore) (c : CopyEnt) : Eng :=
  postCopy e { v := v, node := r.node, src := ((seedNow r).getD 5 0).toNat, dst := c.sdest, len := c.scales
               entry := r.id, scale := true }

/-- Start the copies of the next entry, or end. -/
def nextCopy (e : Eng) (v i : Nat) (r : Restore) : Eng :=
  match r.copies[r.entry]? with
  | none => endRestore e v i r 0
  | some c => copyValues (putRestore e v i (some r)) v r c

/-- The seeder's header, or its table with every entry, has arrived: judge the candidate (R182). -/
def gotSeeds (e : Eng) (v i : Nat) (r0 : Restore) (data : List Byte) : Eng :=
  let r := { r0 with seed := bytesWords data }
  let h (j : Nat) : W64 := r.seed.getD j 0
  let cd := r.cands.getD 0 (0, 0)
  if !bit (h 0) 0 then endRestore e v i r 6
  else if h 1 ≠ cd.1 ∨ fld (h 3) 0 32 ≠ cd.2.toNat ∨ h 4 = 0 then endRestore e v i r 1
  else if r.seed.length ≤ 8 then readSeeds (putRestore e v i (some r)) v r (h 4).toNat
  else if r.copies.any fun c => (seedFor r c).isNone then endRestore e v i r 1
  else
    let r1 := { r with mask := 1, steps := [(0, h 2)] }
    if r.probe then endRestore e v i r1 0
    else nextCopy e v i { r1 with stage := .copies, entry := 0 }

/-- The restore of a Valley that a copy belongs to. -/
def copyRestore (x : Valley) (id : Nat) : Option (Nat × Restore) :=
  (x.restores.zipIdx.find? fun r => decide (r.1.terrace = 3 ∧ r.1.id = id)).map fun r => (r.2, r.1)

/-- Both ranges of an entry have arrived: check its digests (R182). -/
def entryDone (e : Eng) (v i : Nat) (r : Restore) (c : CopyEnt) : Eng :=
  let vals := Tab.get [] r.copied 0
  let scs := Tab.get [] r.copied 1
  let s := seedNow r
  if bytesDigest r.alpha (vals.take c.bytes) ≠ s.getD 6 0 ∨ bytesDigest r.alpha (scs.take c.scales) ≠ s.getD 7 0 then
    endRestore e v i r 3
  else nextCopy e v i { r with entry := r.entry + 1, copied := [] }

/-- An asynchronous copy completes: package memory holds the range, the arrival counter counts it, and the entry
goes on (R182). -/
def copyDone (m : Mem) (e : Eng) (v : Nat) (data : List Byte) : Mem × Eng :=
  match e.io.copies.find? fun c => decide (c.v = v) with
  | none => (m, e)
  | some c =>
    let bs := (data ++ List.replicate (c.len - data.length) 0).take c.len
    let e1 := updIo e fun io => { io with copies := io.copies.erase c, arrived := io.arrived + 1 }
    match copyRestore (getV e v) c.entry with
    | none => (m, e1)
    | some (i, r) =>
      match r.stage with
      | .copies =>
        match r.copies[r.entry]? with
        | none => (m, e1)
        | some q =>
          let m1 := Mem.writeBytes m c.dst bs
          if c.scale then
            (m1, entryDone e1 v i { r with copied := Tab.set r.copied 1 bs } q)
          else
            let r1 := { r with copied := [(0, bs)] }
            if q.scales = 0 then (m1, entryDone e1 v i r1 q)
            else (m1, copyScales (putRestore e1 v i (some r1)) v r1 q)
      | _ => (m, gotSeeds e1 v i r bs)

/-! ## Port completions of restores -/

/-- Go on with a restore. -/
def runRestore (m : Mem) (e : Eng) (v i : Nat) : Eng :=
  match (getV e v).restores[i]? with
  | none => e
  | some r =>
    if r.terrace = 1 then runRestore1 m v i readFuel e
    else if r.terrace = 2 then runRestore2 m v i readFuel e
    else e

/-- Every restore of a Valley goes on. -/
def runRestores (m : Mem) (e : Eng) (v : Nat) : Eng :=
  (List.range (getV e v).restores.length).reverse.foldl (fun e i => runRestore m e v i) e

/-- The restore whose storage read has a tag. -/
def restoreOfTag (x : Valley) (tag : Nat) : Option (Nat × Restore) :=
  (x.restores.zipIdx.find? fun r => decide ((r.1.read.bind (·.tag)) = some tag)).map fun r => (r.2, r.1)

/-- The restore whose Pass read has a tag. -/
def restoreOfPass (x : Valley) (tag : Nat) : Option (Nat × Restore) :=
  (x.restores.zipIdx.find? fun r => decide (r.1.passTag = some tag)).map fun r => (r.2, r.1)

/-- A storage read of a restore has completed well. -/
def restoreRead (m : Mem) (e : Eng) (v tag : Nat) (data : List W64) : Eng :=
  match restoreOfTag (getV e v) tag with
  | none => e
  | some (i, r) =>
    runRestore m (putRestore e v i (some { r with read := r.read.map fun f => gotRead f data })) v i

/-- A storage read of a restore has failed or timed out. -/
def restoreFailed (e : Eng) (v tag : Nat) : Eng :=
  match restoreOfTag (getV e v) tag with
  | none => e
  | some (i, r) => endRestore e v i r 5

end Sys2Proof.Machine
end

