-- ==== Sys2Proof/Machine/TerraceCmds.lean ====
section
/-!
DEFINITION. Machine/TerraceCmds.lean: T1_DRAIN, T1_RESTORE, T2_DRAIN, T2_RESTORE, SEED_SERVE, OUTER_EXPORT and
OUTER_REANCHOR (R105, R152 to R157, R171, R172, R175 to R182, R186, R187, R202 to R205, R276, R287, R288), and the
rows of drains: T1_TRIGGER, T2_TRIGGER, DRAIN_START, TILE_TAKEN, SEGMENT_BEGIN, HOLDUP_WAIT_EXPIRED.
-/

namespace Sys2Proof.Machine

/-! ## Working sets that grow (R105) -/

/-- Bytes under way on the ports for the descriptors that `p` names. -/
def flowing (e : Eng) (p : PortOwner → Bool) : Nat :=
  ((e.io.sto.filter fun d => p d.owner).map fun d => 4096 * d.lbas.toNat).sum +
    ((e.io.pass.filter fun d => p d.owner).map fun d => d.length.toNat).sum

/-- A working set grows to what its work holds, while pages are free (DEDUCED, notes/assumptions/74.md). -/
def growPages (e : Eng) (o : PageOwner) (pages : List Nat) (bytes : Nat) : List Nat × Eng :=
  if bytes ≤ 4096 * pages.length then (pages, e)
  else
    let gs := (freePages e 3).take ((bytes + 4095) / 4096 - pages.length)
    (pages ++ gs, ownPages e gs o)

/-- The Terrace 1 drain of a Valley grows: the tiles in hand, and its segments until they are committed. -/
def growT1 (e : Eng) (v : Nat) : Eng :=
  match (getV e v).t1 with
  | none => e
  | some r =>
    let segs := r.segs.filter fun g => decide (g.st ≠ .done)
    let g := growPages e (.work v 1) r.pages (4096 * (r.taken.length + (segs.map fun g => g.lbas + 1).sum))
    updT1 g.2 v fun r => { r with pages := g.1 }

/-- The Terrace 2 drain of a Valley grows. -/
def growT2 (e : Eng) (v : Nat) : Eng :=
  match (getV e v).t2 with
  | none => e
  | some r =>
    let g := growPages e (.work v 2) r.pages (flowing e fun o => decide (workOf o = .work v 2))
    updV g.2 v fun x => { x with t2 := x.t2.map fun r => { r with pages := g.1 } }

/-- A restore of a Valley grows. -/
def growRestore (v : Nat) (e : Eng) (i : Nat) : Eng :=
  match (getV e v).restores[i]? with
  | none => e
  | some r =>
    let g := growPages e (.work v 3) r.pages (flowing e fun o => decide (o = .restore v i))
    putRestore g.2 v i (some { r with pages := g.1 })

/-- The running export of a Valley grows: its frames until they are acknowledged. -/
def growExport (e : Eng) (v : Nat) : Eng :=
  match (getV e v).expo.jobs with
  | [] => e
  | j :: _ =>
    if j.reanchor then e
    else
      let g := growPages e (.work v 4) j.pages (((j.frames.filter fun f => !f.acked).map fun f => f.bytes.length).sum)
      updJob g.2 v fun j => { j with pages := g.1 }

/-- Every drain, restore and export grows; a seeding service holds no more than its minimum. -/
def growAll (e : Eng) : Eng :=
  (Tab.keys e.valleys).foldl (fun e v =>
    let e1 := growExport (growT2 (growT1 e v) v) v
    (List.range (getV e1 v).restores.length).foldl (growRestore v) e1) e

/-! ## Drain commands (R152 to R157, R276, R287, R288) -/

/-- May a command use the job key of a Valley's partition (R287, R293)? -/
def jobKeyed (e : Eng) (v : Nat) : Bool := (jobKey e (getV e v).fn).isSome && !keysEnding e

/-- May a drain command with action now or standing be taken, apart from R153: key and random source (R287, R288)? -/
def drainMay (e : Eng) (v : Nat) : Bool := jobKeyed e v && !e.side.rngFault

/-- Is the command refused at the storage port (R276)? -/
def storageDenied (e : Eng) (v : Nat) : Bool := hasArea (getV e v) && !nsAllowed e v

/-- Refuse a command at the storage port (R276). -/
def denyStorage (e : Eng) (c : Cmd) : Eng := reply0 (refuseAt e 3) c stDenied

/-- T1_DRAIN with an action that R154 lists. -/
def t1Action (m : Mem) (e : Eng) (v : Nat) (c : Cmd) (action : Nat) (full : Bool) : Eng :=
  let x := getV e v
  if action = 1 then
    if x.t1.isSome || !drainMay e v || decide (freeCount e 3 < 1024) then reply0 e c stOutOfRange
    else
      tryStartT1 m (updV (reply0 e c stAccepted) v fun x =>
        { x with t1o := { x.t1o with asked := some (full || x.t1o.asked.getD false) } }) v
  else if action = 2 then
    if !drainMay e v then reply0 e c stOutOfRange
    else
      tryStartT1 m (holdIfBusy (readTable (updV (reply0 e c stAccepted) v fun x =>
        { x with t1o := { x.t1o with standing := true } }) v) v) v
  else if action = 3 then reply0 (updV e v fun x => { x with t1o := { x.t1o with standing := false } }) c stOK
  else endT1 (reply0 e c stOK) v 6

/-- T1_DRAIN (R154, R155). -/
def execT1Drain (q : Fin 64) (s : State) : Host.Outcome State Fault Refusal :=
  .next (runCmd q.val 0x40 s fun e c p =>
    let v := pkValley p
    let a := pkf p 1 0 4
    if storageDenied e v then denyStorage e c
    else if a = 0 ∨ 4 < a ∨ !isJoined (getV e v) ∨ !hasArea (getV e v) ∨ anyUnbuilt e v then reply0 e c stOutOfRange
    else t1Action s.mem e v c a (pkA p))

/-- Is a Terrace 2 drain running, or about to as soon as the drain table is read? -/
def t2Running (x : Valley) : Bool := x.t2.isSome || (x.t2o.next.isSome && !x.t2o.held)

/-- Cancel the running Terrace 2 drain (R154), or the one that still waits for the drain table. -/
def cancelT2 (e : Eng) (v : Nat) : Eng :=
  let x := getV e v
  match x.t2, x.t2o.next with
  | some _, _ => endT2 e v 6
  | none, some (source, _, _) =>
    if x.t2o.held then e
    else drainDone (updV e v fun x => { x with t2o := { x.t2o with next := none } }) v 2 6 false source 0
  | none, none => e

/-- Is the layout table of a T2_DRAIN in order (R172, R241)? -/
def layoutParamOk (m : Mem) (e : Eng) (v : Nat) (p : BitVec 512) : Bool :=
  let n := pkf p 4 0 25
  !isHost (pkw p 3) && addrOk (pkw p 3) 32 (32 * n) pkgBytes && decide (1 ≤ n ∧ n ≤ 16777216) &&
    layoutOk m e v (addrOf (pkw p 3)) n

/-- T2_DRAIN with an action that R154 lists. -/
def t2Action (m : Mem) (e : Eng) (v : Nat) (c : Cmd) (p : BitVec 512) (action : Nat) : Eng :=
  let x := getV e v
  let lay := (addrOf (pkw p 3), pkf p 4 0 25)
  if action = 1 then
    if t2Running x || !drainMay e v || !layoutParamOk m e v p || decide (freeCount e 3 < 512) then
      reply0 e c stOutOfRange
    else
      tryStartT2 m (updV (reply0 e c stAccepted) v fun x =>
        { x with t2o := { x.t2o with next := some (pkf p 2 0 32, lay.1, lay.2), held := false } }) v
  else if action = 2 then
    if !drainMay e v || !layoutParamOk m e v p then reply0 e c stOutOfRange
    else updV (reply0 e c stAccepted) v fun x => { x with t2o := { x.t2o with standing := some lay } }
  else if action = 3 then reply0 (updV e v fun x => { x with t2o := { x.t2o with standing := none } }) c stOK
  else cancelT2 (reply0 e c stOK) v

/-- T2_DRAIN (R154, R156, R171, R172). -/
def execT2Drain (q : Fin 64) (s : State) : Host.Outcome State Fault Refusal :=
  .next (runCmd q.val 0x44 s fun e c p =>
    let v := pkValley p
    let a := pkf p 1 0 4
    if storageDenied e v then denyStorage e c
    else if a = 0 ∨ 4 < a ∨ !isJoined (getV e v) ∨ !hasArea (getV e v) then reply0 e c stOutOfRange
    else t2Action s.mem e v c p a)

/-! ## Restore commands (R175 to R182) -/

/-- The candidates of a restore: Watershed number and lineage. -/
def candsOf (ws : List W64) (n : Nat) : List (W64 × W32) :=
  (List.range n).map fun i => (lword ws (2 * i), BitVec.ofNat 32 (fld (lword ws (2 * i + 1)) 0 32))

/-- Are mode, candidate count and candidate list of a restore in order? -/
def restoreParamsOk (p : BitVec 512) : Bool :=
  let n := pkf p 1 8 4
  decide (pkf p 1 0 4 = 1 ∨ pkf p 1 0 4 = 2) && decide (1 ≤ n ∧ n ≤ 8) && addrOk (pkw p 2) 16 (16 * n) pkgBytes

/-- May a range take restored bytes (R176)? -/
def destOk (m : Mem) (e : Eng) (a n : Nat) : Bool := clearRange e a n && readsZero m e a n

/-- A destination map, in the layout of CONTRACT with the destination index reserved (R145, R177). -/
def mapOf (ws : List W64) (n : Nat) : List (MapEnt × W64) :=
  (List.range n).map fun i =>
    let w := lword ws (4 * i)
    let b := lword ws (4 * i + 2)
    ({ first := fld w 0 32, count := fld w 32 32, dest := 0, base := addrOf b }, b)

/-- Is a map entry of a Terrace 1 restore in order (R176, R177)? -/
def mapEntOk (m : Mem) (e : Eng) (v : Nat) (t : MapEnt × W64) : Bool :=
  let rs := (reachList e v).filter fun r => decide (t.1.first ≤ r.num ∧ r.num < t.1.first + t.1.count)
  let n := 4096 * (rs.map (·.tiles)).sum
  decide (1 ≤ t.1.count ∧ t.1.first + t.1.count ≤ (reachList e v).length) &&
    rs.all (fun r => decide (r.cls ≠ clsLanding)) && !isHost t.2 && addrOk t.2 8 n pkgBytes && destOk m e t.1.base n

/-- Put a restore to work: ACCEPTED, then its first step. -/
def startRestore (m : Mem) (e : Eng) (v : Nat) (c : Cmd) (r : Restore) : Eng :=
  let x := getV e v
  match reservePages e 3 (if r.terrace = 1 then 1024 else 512) (.work v 3) with
  | none => reply0 e c stOutOfRange
  | some (gs, e1) =>
    let r1 := { r with id := x.nextJob, pages := gs }
    let e2 := updV (reply0 e1 c stAccepted) v fun x =>
      { x with restores := x.restores ++ [r1], nextJob := x.nextJob + 1 }
    if r.terrace = 3 then readSeeds e2 v r1 0 else runRestore m e2 v x.restores.length

/-- T1_RESTORE (R175 to R177): `candidates` and `map` hold the lists that stand in host memory. -/
def execT1Restore (q : Fin 64) (candidates map : List W64) (s : State) : Host.Outcome State Fault Refusal :=
  .next (runCmd q.val 0x41 s fun e c p =>
    let v := pkValley p
    let x := getV e v
    let k := pkf p 1 8 4
    let n := pkf p 4 0 7
    let es := mapOf (paramWords s.mem e (pkw p 3) (4 * n) map) n
    if storageDenied e v then denyStorage e c
    else if !restoreParamsOk p || !isJoined x || !hasArea x || !jobKeyed e v || decide (n = 0 ∨ 64 < n) ||
        !addrOk (pkw p 3) 32 (32 * n) pkgBytes || !es.all (mapEntOk s.mem e v) then reply0 e c stOutOfRange
    else
      startRestore s.mem e v c
        { id := 0, terrace := 1, self := x.self, alpha := x.alpha, probe := decide (pkf p 1 0 4 = 1)
          cands := candsOf (paramWords s.mem e (pkw p 2) (2 * k) candidates) k, map := es.map (·.1), stage := .table })

/-- Is a copy entry in order (R176, R178)? -/
def copyEntOk (m : Mem) (e : Eng) (c : CopyEnt) : Bool :=
  decide (c.typ ≤ 3) &&
  (decide (c.typ ≠ 3) || (decide (c.sblock = 16 ∨ c.sblock = 32 ∨ c.sblock = 64 ∨ c.sblock = 128) &&
    decide (c.offset % c.sblock = 0) && destOk m e c.sdest c.scales)) &&
  destOk m e c.dest c.bytes

/-- May a range hold a seed table of `n` entries (R181)? -/
def seedOk (m : Mem) (e : Eng) (a : W64) (n : Nat) : Bool :=
  !isHost a && addrOk a 64 (64 * (1 + n)) pkgBytes && destOk m e (addrOf a) (64 * (1 + n))

/-- T2_RESTORE (R178, R179, R181, R182): `candidates` holds the list when it stands in host memory. The second list
of the row is not read: the copy list and the seed table are in package memory. -/
def execT2Restore (q : Fin 64) (candidates _seedTable : List W64) (s : State) : Host.Outcome State Fault Refusal :=
  .next (runCmd q.val 0x45 s fun e c p =>
    let v := pkValley p
    let x := getV e v
    let k := pkf p 1 8 4
    let n := pkf p 4 0 25
    let peer := pkA p
    let es := copiesAt s.mem e (addrOf (pkw p 3)) n
    if !restoreParamsOk p || !isDefined x || decide (x.slot = .standby) || decide (n = 0 ∨ 16777216 < n) ||
        isHost (pkw p 3) || !addrOk (pkw p 3) 64 (64 * n) pkgBytes || !es.all (copyEntOk s.mem e) then
      reply0 e c stOutOfRange
    else if peer && (decide (k ≠ 1) || decide (pkf p 7 13 3 ≠ 0) || isHost (pkw p 6) || !addrOk (pkw p 6) 64 0 pkgBytes) then reply0 e c stOutOfRange
    else if !peer && (!jobKeyed e v || (decide (pkw p 6 ≠ 0) && !seedOk s.mem e (pkw p 6) n)) then
      reply0 e c stOutOfRange
    else
      startRestore s.mem e v c
        { id := 0, terrace := if peer then 3 else 2, self := x.self, alpha := pkw p 5, probe := decide (pkf p 1 0 4 = 1)
          cands := candsOf (paramWords s.mem e (pkw p 2) (2 * k) candidates) k, copies := es
          seedAt := addrOf (pkw p 6), node := (pkw p 7).extractLsb' 0 16
          stage := if peer then .table else .headers })

/-! ## SEED_SERVE (R181) -/

/-- Change the ready bit of a seed table, in its header and in the engine. -/
def setReady (m : Mem) (e : Eng) (t : SeedTab) (on : Bool) (gs : List Nat) : Eng :=
  let e1 := setBytes m e t.base [if on then 1 else 0]
  { e1 with seeds := e1.seeds.map fun y => if y.base = t.base then { y with ready := on, pages := gs } else y }

/-- Stop serving a seed table. -/
def stopSeed (m : Mem) (e : Eng) (t : SeedTab) : Eng := setReady m (freeBasin e t.pages) t false []

/-- SEED_SERVE (R181). -/
def execSeedServe (q : Fin 64) (s : State) : Host.Outcome State Fault Refusal :=
  .next (runCmd q.val 0x46 s fun e c p =>
    let v := pkValley p
    match e.seeds.find? fun t => decide (BitVec.ofNat 64 t.base = pkw p 1 ∧ t.v = v) with
    | none => reply0 e c stOutOfRange
    | some t =>
      if (getV e v).slot = .standby then reply0 e c stOutOfRange
      else if pkA p then reply0 (stopSeed s.mem e t) c stOK
      else if t.ready then reply0 e c stAccepted
      else match reservePages e 3 256 (.work v 5) with
        | none => reply0 e c stOutOfRange
        | some (gs, e1) => setReady s.mem (reply0 e1 c stAccepted) t true gs)

/-! ## The outer exchange (R186, R187, R202, R205) -/

/-- The export table of a packet, when its address and length are in order. -/
def tableParamOk (p : BitVec 512) : Bool :=
  let n := pkf p 5 0 21
  !isHost (pkw p 4) && addrOk (pkw p 4) 64 (64 * n) pkgBytes && decide (1 ≤ n ∧ n ≤ 1048576)

/-- OUTER_EXPORT (R202). -/
def execOuterExport (q : Fin 64) (s : State) : Host.Outcome State Fault Refusal :=
  .next (runCmd q.val 0x50 s fun e c p =>
    let v := pkValley p
    let x := getV e v
    let round := pkw p 1
    let rep := pkA p
    if !isJoined x || decide (x.phase ≠ .opened) || !x.expo.jobs.isEmpty || !tableParamOk p || isHost (pkw p 6) ||
        !addrOk (pkw p 6) 8 131072 pkgBytes || keysEnding e ||
        (if rep then decide (round ≠ x.expo.round)
         else decide (round.toNat ≤ x.expo.round.toNat) || decide (x.expo.st = .incomplete)) then
      reply0 e c stOutOfRange
    else
      let ts := expTable s.mem e (addrOf (pkw p 4)) (pkf p 5 0 21)
      match tableOk e v ts true, exchKey e x.fn, reservePages e 3 256 (.work v 4) with
      | true, some ex, some (gs, e1) =>
        let par : ExpParams :=
          { seed := pkw p 2, step := x.step, round := round, sparse := ((pkw p 3).extractLsb' 32 8).toInt
            stoch := bit (pkw p 3) 40 }
        settleV s.mem (growExport (startExport s.mem (reply0 e1 c stAccepted) v par (BitVec.ofNat 32 (pkf p 3 0 32)) rep
          (roundKey ex round x.tag x.self) ts (addrOf (pkw p 6)) gs) v) v
      | _, _, _ => reply0 e c stOutOfRange)

/-- OUTER_REANCHOR (R205). -/
def execOuterReanchor (q : Fin 64) (s : State) : Host.Outcome State Fault Refusal :=
  .next (runCmd q.val 0x51 s fun e c p =>
    let v := pkValley p
    let x := getV e v
    let ts := expTable s.mem e (addrOf (pkw p 4)) (pkf p 5 0 21)
    if !isJoined x || decide (x.phase ≠ .opened) || exportRunning x || decide (x.expo.st = .incomplete) ||
        !tableParamOk p || !tableOk e v ts false then reply0 e c stOutOfRange
    else settleV s.mem (startReanchor s.mem (reply0 e c stAccepted) v (pkw p 1) ts) v)

/-! ## The rows of drains -/

/-- T1_TRIGGER (R155, R157). -/
def execT1Trigger (v : Fin 16) (s : State) : Host.Outcome State Fault Refusal :=
  .next { s with eng := if ctlOn s.eng then t1Trigger s.mem s.eng v.val else s.eng }

/-- T2_TRIGGER (R156, R157). -/
def execT2Trigger (v : Fin 16) (s : State) : Host.Outcome State Fault Refusal :=
  .next { s with eng := if ctlOn s.eng then t2Trigger s.eng v.val else s.eng }

/-- DRAIN_START (R152, R155, R156): a held or pending drain starts when nothing holds it. -/
def execDrainStart (v : Fin 16) (s : State) : Host.Outcome State Fault Refusal :=
  .next { s with eng := if ctlOn s.eng then tryStartT2 s.mem (tryStartT1 s.mem s.eng v.val) v.val else s.eng }

/-- TILE_TAKEN (R158, R160). -/
def execTileTaken (v : Fin 16) (s : State) : Host.Outcome State Fault Refusal :=
  .next { s with eng := if ctlOn s.eng then growT1 (takeTile s.mem s.eng v.val) v.val else s.eng }

/-- SEGMENT_BEGIN (R168, R170). -/
def execSegmentBegin (v : Fin 16) (s : State) : Host.Outcome State Fault Refusal :=
  .next { s with eng := if ctlOn s.eng then segmentBegin s.eng v.val else s.eng }

/-- HOLDUP_WAIT_EXPIRED (R170). -/
def execHoldupWaitExpired (v : Fin 16) (s : State) : Host.Outcome State Fault Refusal :=
  .next { s with eng := if ctlOn s.eng then holdupExpired s.eng v.val else s.eng }

end Sys2Proof.Machine
end

