-- ==== Sys2Proof/Machine/ValleyCmds.lean ====
section
/-!
DEFINITION. Machine/ValleyCmds.lean: VALLEY_DEFINE, VALLEY_JOIN, VALLEY_LEAVE, REGION_DEFINE, REGION_FREEZE and
REGION_THAW (R3, R11, R33 to R39, R56, R252 to R254, R265 to R269).
-/

namespace Sys2Proof.Machine

/-! ## VALLEY_DEFINE (R3, R56, R252) -/

/-- Empty the slot of a Valley; the partition that holds the slot keeps it. -/
def emptySlot (x : Valley) : Valley := { fn := x.fn, restores := x.restores, nextJob := x.nextJob }

/-- Does a region name a Valley slot? -/
def slotNamed (e : Eng) (v : Nat) : Bool := !(valleyRegions e v).isEmpty

/-- VALLEY_DEFINE of slot `v`: the status, and the engine after it. -/
def defineValley (e : Eng) (v : Nat) (w1 alpha : W64) : W16 × Eng :=
  let x := getV e v
  let tag : W16 := w1.extractLsb' 0 16
  let n := fld w1 16 7
  let k := fld w1 24 6
  let m := fld w1 32 3
  if slotBound x then (stConfigLocked, e)
  else if n = 0 then
    if slotNamed e v then (stOutOfRange, e) else (stOK, updV e v emptySlot)
  else if ¬ (3 ≤ n ∧ n ≤ 64 ∧ 2 ≤ k ∧ k ≤ 60 ∧ 1 ≤ m ∧ m ≤ 4 ∧ k + m ≤ n) ∨ alpha = 0 then (stOutOfRange, e)
  else if e.valleys.any fun y => decide (y.1 ≠ v) && isDefined y.2 && decide (y.2.tag = tag) then (stOutOfRange, e)
  else
    (stOK, updV e v fun x =>
      { emptySlot x with slot := .defined, tag := tag, n := n, k := k, m := m, alpha := alpha })

/-- VALLEY_DEFINE (R56). -/
def execValleyDefine (q : Fin 64) (s : State) : Host.Outcome State Fault Refusal :=
  .next (runCmd q.val 0x10 s fun e c p =>
    let r := defineValley e (pkValley p) (pkw p 1) (pkw p 2)
    reply0 r.2 c r.1)

/-! ## VALLEY_JOIN (R265 to R268) -/

/-- A member table: the members, and the live bits. -/
def memberTable (ws : List W64) : List Member × W64 :=
  (ws.map fun w => { node := w.extractLsb' 0 16, parity := bit w 16 },
   (ws.zipIdx).foldl (fun (s : W64) (w, i) => if bit w 17 then setBit s i else s) 0)

/-- Are the elements of a list all different? -/
def distinct {α : Type} [DecidableEq α] : List α → Bool
  | [] => true
  | x :: r => !r.contains x && distinct r

/-- Is the member table of a join without fault (R265)? -/
def tableGood (e : Eng) (n own : Nat) (parity : Bool) (ms : List Member) (live : W64) : Bool :=
  (match ms[own]? with
   | some y => decide (y.node = e.ctl.node) && decide (y.parity = parity)
   | none => false) &&
  ms.all (fun y => decide (fld y.node 13 3 = 0)) && distinct (ms.map (·.node)) &&
  (List.range n).all fun i => decide (i = own) || bit live i

/-- The non-empty regions of a Valley that occupy memory under a join: none for a parity-only member (R46). -/
def regionsUnder (e : Eng) (v : Nat) (parity : Bool) : Tab Region :=
  if parity then e.regions.filter fun x => decide (Region.valley x.2 ≠ v) else e.regions

/-- May a range be the parity area of a Valley: aligned, large enough, in package memory, clear (R265)? -/
def parityAreaOk (e : Eng) (v : Nat) (parity : Bool) (a : W64) : Bool :=
  let n := 4096 * parityTotal e v
  addrOk a 4096 n pkgBytes && !isHost a && !hitsRegion { e with regions := regionsUnder e v parity } (addrOf a) n none &&
    !hitsParity e (addrOf a) n (some v) && !hitsSpill e (addrOf a) n

/-- Bind a Valley's control and spill staging pages (R97, R105): the 256 pages of control transactions are sixteen for
each of the sixteen slots, and one page stages a Valley's spill traffic (DEDUCED, notes/assumptions/67.md). -/
def bindPages (e : Eng) (v : Nat) : Eng :=
  let e1 := match reservePages e 4 16 (.control v) with
    | some (_, e1) => e1
    | none => e
  match allocPage e1 5 (.spillStage v) with
  | some (_, e2) => e2
  | none => e1

/-- VALLEY_JOIN once its packet is at hand and the table has been read. -/
def joinValley (e : Eng) (c : Cmd) (p : BitVec 512) (ws : List W64) : Eng :=
  let v := pkValley p
  let x := getV e v
  let own := pkf p 1 0 6
  let parity := bit (pkw p 1) 6
  let t := memberTable ws
  if x.slot ≠ .defined ∨ x.n ≤ own ∨ !addrOk (pkw p 5) 8 (8 * x.n) pkgBytes then reply0 e c stOutOfRange
  else if !tableGood e x.n own parity t.1 t.2 || !parityAreaOk e v parity (pkw p 2) || !slotNamed e v then
    reply0 e c stOutOfRange
  else
    let stand := !bit t.2 own
    let base := BitVec.ofNat 32 (pkf p 4 0 32)
    let y : Valley :=
      startStreams
        { bareValley x with
          slot := if stand then .standby else .joining
          self := own, parity := parity, area := addrOf (pkw p 2), areaLen := 4096 * parityTotal e v, members := t.1
          live := if stand then 0 else t.2
          base := base, firstEpoch := pkw p 3, epoch := pkw p 3, step := 0, ws := none
          joinWait := if stand then none
            else some { cmd := c, since := e.side.ts, helloTs := e.side.ts, matched := 0, complete := 0 } } base
    let e1 := bindPages (setV e v y) v
    if stand then reply0 e1 c stOK else sendHellos e1 v

/-- VALLEY_JOIN (R265): `table` holds the member table when it stands in host memory. -/
def execValleyJoin (q : Fin 64) (table : List W64) (s : State) : Host.Outcome State Fault Refusal :=
  .next (runCmd q.val 0x11 s fun e c p =>
    joinValley e c p (paramWords s.mem e (pkw p 5) (getV e (pkValley p)).n table))

/-! ## VALLEY_LEAVE (R153, R204, R254, R269) -/

/-- Does any command of a Valley wait (R249)? -/
def anyWaits (x : Valley) : Bool :=
  x.closeWait.isSome || x.fenceWait.isSome || x.joinWait.isSome || x.spareWait.isSome ||
    x.runs.any fun r => r.cmd.isSome

/-- Stop beacons and hellos of a Valley that have not left yet. -/
def stopBeacons (e : Eng) (v : Nat) : Eng :=
  updIo e fun io => { io with ctlOut := io.ctlOut.filter fun o => !(decide (o.v = v) && match o.msg with
    | .beacon _ => true
    | .hello _ => true
    | _ => false) }

/-- A drain that was asked for and has not started ends with reason 9 (R153, R154). -/
def endWaiting (e : Eng) (v : Nat) : Eng :=
  let x := getV e v
  let e1 := match x.t1o.asked with
    | some full => drainDone e v 1 9 full 0 ((x.ws.map (·.number)).getD 0)
    | none => e
  match x.t2o.next with
  | some (source, _, _) => if x.t2o.held then e1 else drainDone e1 v 2 9 false source 0
  | none => e1

/-- What VALLEY_LEAVE does once it is accepted: latch, drains, exports and runs end, and the rings go. -/
def leaveValley (m : Mem) (e : Eng) (v : Nat) : Eng :=
  let e1 := latch e v
  let e2 := endWaiting (endT2 (endT1 e1 v 9) v 9) v
  let e3 := leaveExport e2 v
  let e4 := endRuns m e3 v stPeerTimeout
  let e5 := unbind (stopBeacons e4 v) v
  if isJoined (getV e v) then clearEvents e5 v else e5

/-- Is a slot joined or in standby? A spare that waits for its transfer still stands in standby. -/
def standsUp (x : Valley) : Bool := slotBound x && decide (x.slot ≠ .joining)

/-- The orderly stop is complete: its command replies, and the engine-wide fields no longer run on its account
(R252, R273). -/
def stopDone (e : Eng) (c : Cmd) : Eng := reply0 { e with ctl := { e.ctl with opened := false } } c stOK

/-- VALLEY_LEAVE or PARTITION_REVOKE replies OK. When no slot is joined or in standby any more, the reply is the orderly
stop (R273): every spill page still in use is freed, but for those of a slot that waits in its VALLEY_JOIN, and the reply
waits until the freed pages read zero (DEDUCED, notes/assumptions/71.md). -/
def orderlyStop (e : Eng) (c : Cmd) : Eng :=
  if e.valleys.any fun y => standsUp y.2 then reply0 e c stOK
  else
    let gs := (e.spill.pages.filter fun x => decide ((getV e x.2.v).slot ≠ .joining)).map (·.1)
    let e1 := freeSpill e gs
    if e1.spill.zeroing.isEmpty then stopDone e1 c
    else { e1 with ctl := { e1.ctl with stops := e1.ctl.stops ++ [{ cmd := c, pages := e1.spill.zeroing }] } }

/-- A waiting orderly stop ends once its pages read zero. -/
def endStop (e : Eng) (w : StopWait) : Eng :=
  if w.pages.any fun g => e.spill.zeroing.contains g then e
  else stopDone { e with ctl := { e.ctl with stops := e.ctl.stops.erase w } } w.cmd

/-- Every waiting orderly stop goes on; none ends while the control processor is halted (R292). -/
def runStops (e : Eng) : Eng := if cpRuns e then e.ctl.stops.foldl endStop e else e

/-- VALLEY_LEAVE (R269). -/
def execValleyLeave (q : Fin 64) (s : State) : Host.Outcome State Fault Refusal :=
  .next (runCmd q.val 0x12 s fun e c p =>
    let v := pkValley p
    let x := getV e v
    if (x.slot ≠ .joined ∧ x.slot ≠ .standby) ∨ anyWaits x then reply0 e c stOutOfRange
    else orderlyStop (leaveValley s.mem e v) c)

/-! ## Region descriptors (R11, R33 to R39, R309) -/

/-- Do the class and type rules of R38 hold? -/
def classOk (r : Region) : Bool :=
  decide (Region.typ r ≤ 3 ∧ Region.cls r ≤ 4) &&
  (decide (Region.cls r ≠ clsAnchor ∧ Region.cls r ≠ clsResidual) || decide (Region.typ r = 1 ∨ Region.typ r = 2)) &&
  (decide (Region.cls r ≠ clsCursor) || decide (Region.typ r = 0 ∧ Region.tiles r ≤ 256))

/-- Is `t` a valid side array of the E4M3 region `r` (R39)? -/
def sideOk (r t : Region) : Bool :=
  !Region.empty t && decide (Region.typ t = 0 ∧ Region.valley t = Region.valley r ∧ Region.cls t = Region.cls r) &&
    decide (Region.sblock r ≠ 0) &&
    decide (((Region.tiles r * 4096 + Region.sblock r - 1) / Region.sblock r + 4095) / 4096 ≤ Region.tiles t)

/-- The block-scale sizes of R33. -/
def sblockOk (n : Nat) : Bool := decide (n = 16 ∨ n = 32 ∨ n = 64 ∨ n = 128)

/-- The rules of R35 for a non-empty descriptor `d` with new content `r`. -/
def regionOk (e : Eng) (d : Nat) (r : Region) : Bool :=
  let code := fld r.w1 16 4
  decide (fld r.w0 0 29 + Region.tiles r ≤ 0x18000000) &&
  !hitsRegion e (Region.base r) (4096 * Region.tiles r) (some d) &&
  !hitsParity e (Region.base r) (4096 * Region.tiles r) none &&
  !hitsSpill e (Region.base r) (4096 * Region.tiles r) &&
  isDefined (getV e (Region.valley r)) &&
  decide (code = 0 ∨ (4 ≤ code ∧ code ≤ 10)) && classOk r &&
  !(e.regions.any fun x => decide (x.1 ≠ d) && !Region.empty x.2 &&
      decide (Region.valley x.2 = Region.valley r ∧ Region.slot x.2 = Region.slot r)) &&
  (if Region.typ r = 3 then
     sblockOk (Region.sblock r) && decide (Region.side r ≠ d) && sideOk r (getR e (Region.side r))
   else decide (Region.sblock r = 0 ∧ Region.side r = 0))

/-- Does descriptor `d` with new content `r` still serve every E4M3 region that names it as its side array (R35)? -/
def sidesKept (e : Eng) (d : Nat) (r : Region) : Bool :=
  e.regions.all fun x =>
    Region.empty x.2 || decide (x.1 = d ∨ Region.typ x.2 ≠ 3 ∨ Region.side x.2 ≠ d) || sideOk x.2 r

/-- Set the frozen field of a descriptor: at once, or at the next latch while a Crossing is open (R34, R254). -/
def setFrozen (e : Eng) (d : Nat) (on : Bool) : Eng :=
  let openNow := (getV e (Region.valley (getR e d))).opened
  updR e d fun r =>
    { r with w1 := if on then setBit r.w1 15 else clrBit r.w1 15, frozen := if openNow then r.frozen else on }

/-- Load the filter entry of a descriptor into every lane, or empty it (R11). -/
def setFilters (e : Eng) (d : Nat) (w : W64) : Eng :=
  let put (t : Tab W64) : Tab W64 := if w = 0 then Tab.del t d else Tab.set t d w
  let lanes := (List.range 12).foldl (fun t i => Tab.upd {} t i fun l => { l with filters := put l.filters }) e.lanes
  { e with lanes := lanes }

/-- Does the Valley of a non-empty descriptor run? -/
def regionRuns (e : Eng) (r : Region) : Bool := !Region.empty r && slotBound (getV e (Region.valley r))

/-- The words 0 and 1 of a descriptor without their reserved bits (R5, R33). -/
def descBits0 (w : W64) : W64 := w &&& 0xFFFFFFFF1FFFFFFF
def descBits1 (w : W64) : W64 := w &&& 0x03FF03FFFF0FF70F

/-- REGION_DEFINE of descriptor `d` with words 0 and 1: the status, and the engine after it. While the Valley runs,
only a change of the frozen field is no change of a locked field (R253, R309). A length of 0 clears all of the
descriptor's fields, whatever else the words say (DEDUCED, notes/assumptions/67.md). -/
def defineRegion (e : Eng) (d : Nat) (a b : W64) : W16 × Eng :=
  let w0 := descBits0 a
  let w1 := descBits1 b
  let old := getR e d
  let new : Region := { w0 := w0, w1 := w1, frozen := bit w1 15 }
  if regionRuns e old || regionRuns e new then
    if !Region.empty old && decide (old.w0 = w0 ∧ clrBit old.w1 15 = clrBit w1 15) then
      (stOK, setFrozen e d (bit w1 15))
    else (stConfigLocked, e)
  else if Region.empty new then
    if sidesKept e d {} then (stOK, setFilters { e with regions := Tab.del e.regions d } d 0)
    else (stOutOfRange, e)
  else if !regionOk e d new || !sidesKept e d new then (stOutOfRange, e)
  else (stOK, setFilters { e with regions := Tab.set e.regions d new } d w0)

/-- May a function define descriptor `d` with word 1 `w1` (R250): an old region and a new one are of its Valleys? -/
def mayDefine (e : Eng) (fn : Byte) (d : Nat) (w0 w1 : W64) : Bool :=
  (Region.empty (getR e d) || fnHoldsRegion e fn d) &&
    (decide (fld w0 32 32 = 0) || fnHoldsValley e fn (fld w1 0 4))

/-- Does a Valley slot stand in standby, where it takes no command but STAND_IN and VALLEY_LEAVE (R268)? -/
def standby (e : Eng) (v : Nat) : Bool := decide ((getV e v).slot = .standby)

/-- REGION_DEFINE (R35); in standby it is refused (R268). -/
def execRegionDefine (q : Fin 64) (s : State) : Host.Outcome State Fault Refusal :=
  .next (runCmd q.val 0x18 s fun e c p =>
    let d := pkf p 1 0 10
    if !mayDefine e (fnOf e c) d (pkw p 2) (pkw p 3) then reply0 e c stDenied
    else
      let r := defineRegion e d (pkw p 2) (pkw p 3)
      if r.1 = stOK ∧ !Region.empty (getR e d) ∧ standby e (Region.valley (getR e d)) then
        reply0 e c stOutOfRange
      else reply0 r.2 c r.1)

/-- REGION_FREEZE and REGION_THAW (R34). -/
def freezeRegion (e : Eng) (c : Cmd) (p : BitVec 512) (on : Bool) : Eng :=
  let d := pkf p 1 0 10
  if Region.empty (getR e d) || standby e (Region.valley (getR e d)) then reply0 e c stOutOfRange
  else if !fnHoldsRegion e (fnOf e c) d then reply0 e c stDenied
  else reply0 (setFrozen e d on) c stOK

/-- REGION_FREEZE (R34). -/
def execRegionFreeze (q : Fin 64) (s : State) : Host.Outcome State Fault Refusal :=
  .next (runCmd q.val 0x19 s fun e c p => freezeRegion e c p true)

/-- REGION_THAW (R34). -/
def execRegionThaw (q : Fin 64) (s : State) : Host.Outcome State Fault Refusal :=
  .next (runCmd q.val 0x1A s fun e c p => freezeRegion e c p false)

end Sys2Proof.Machine
end

