-- ==== Sys2Proof/Machine/PartitionCmds.lean ====
section
/-!
DEFINITION. Machine/PartitionCmds.lean: PARTITION_GRANT, PARTITION_REVOKE, SCRUB, KEY_LOAD and FW_LOAD (R99, R261,
R262, R271 to R273, R278, R279, R284 to R286, R299, R301, R310).
-/

namespace Sys2Proof.Machine

/-! ## PARTITION_GRANT (R271, R278, R279, R310) -/

/-- A virtual function as a master identity (R22). -/
def vfFn (f : Nat) : Byte := BitVec.ofNat 8 (0x40 + f)

/-- The fixed register-file entry of a virtual function (R310). -/
def accFixedVf : W32 := 0x10681A6B

/-- The queues and the Valley slots of a mask. -/
def bitsOf (w : W64) (n : Nat) : List Nat := (List.range n).filter (bit w ·)

/-- May a queue be given away: the physical function's, disabled, with nothing outstanding (R271)? -/
def queueFree (e : Eng) (q : Nat) : Bool :=
  let x := getQ e q
  decide (x.owner = 0) && !x.enabled && !x.want && decide (x.out = 0)

/-- May a Valley slot be given away (R271)? -/
def slotFree (e : Eng) (v : Nat) : Bool := decide ((getV e v).fn = 0) && !slotBound (getV e v)

/-- Give queues and slots to a virtual function, and set its access entries. -/
def grant (e : Eng) (tag : W16) (f : Nat) (qs vs : List Nat) : Eng :=
  let e1 := qs.foldl (fun e q => updQ e q fun x => { x with owner := vfFn f }) e
  let e2 := vs.foldl (fun e v => updV e v fun x => { x with fn := vfFn f }) e1
  let ctl := { e2.ctl with grants := e2.ctl.grants ++ [{ ptag := tag, vf := f }]
                           negotiated := Tab.del e2.ctl.negotiated (0x40 + f) }
  let regs := { e2.regs with accReg := Tab.set e2.regs.accReg (0x40 + f) accFixedVf
                             accFab := Tab.set e2.regs.accFab (1 + f) (tag.setWidth 32 ||| 0x10000) }
  { e2 with ctl := ctl, regs := regs }

/-- PARTITION_GRANT (R271). -/
def execPartitionGrant (q : Fin 64) (s : State) : Host.Outcome State Fault Refusal :=
  .next (runCmd q.val 0x60 s fun e c p =>
    let tag : W16 := (pkw p 1).extractLsb' 0 16
    let f := pkf p 1 16 6
    let qs := bitsOf (pkw p 2) 64
    let vs := bitsOf (pkw p 3) 16
    if tag = 0 ∨ tag = 0xFFFF ∨ e.side.revoked.contains tag ∨
        e.ctl.grants.any (fun g => decide (g.ptag = tag ∨ g.vf = f)) ∨
        !qs.all (queueFree e) ∨ !vs.all (slotFree e) then reply0 e c stOutOfRange
    else reply0 (grant e tag f qs vs) c stOK)

/-! ## PARTITION_REVOKE (R272, R273) -/

/-- The Valley slots of a virtual function. -/
def slotsOf (e : Eng) (f : Nat) : List Nat := (List.range 16).filter fun v => decide ((getV e v).fn = vfFn f)

/-- The queues of a virtual function. -/
def queuesOf (e : Eng) (f : Nat) : List Nat := (List.range 64).filter fun q => decide ((getQ e q).owner = vfFn f)

/-- Step 3 on one Valley: a FENCE whose live set holds only this member, without settling and without a reply of its
own; a FENCE that waits already goes on over that live set. -/
def revokeFence (m : Mem) (e : Eng) (v : Nat) (c : Cmd) : Eng :=
  let x := getV e v
  if !isJoined x then e
  else
    let e1 := beginFence m e v (BitVec.ofNat 64 (2 ^ x.self)) false c
    let e2 := updV e1 v fun y => { y with fenceWait := x.fenceWait, fenced := true }
    settleV m (if x.fenceWait.isNone then closeAfterFence e2 v else e2) v

/-- Is the parity area of a slot still its own: bound, or left and overlapped by no region or parity area since? -/
def areaOwn (e : Eng) (v : Nat) : Bool :=
  let x := getV e v
  decide (0 < x.areaLen) && (slotBound x ||
    (!hitsRegion e x.area x.areaLen none && !hitsParity e x.area x.areaLen (some v) && !hitsSpill e x.area x.areaLen))

/-- The ranges that step 8 zeroes: coded regions that occupy memory, parity areas and drain maps. -/
def revokeAreas (e : Eng) (f : Nat) : List (Nat × Nat) :=
  (slotsOf e f).flatMap fun v =>
    let x := getV e v
    (((valleyRegions e v).filter fun r => !placeless e r.2).map fun r => (Region.base r.2, 4096 * Region.tiles r.2)) ++
      (if areaOwn e v then [(x.area, x.areaLen)] else []) ++
      (if Valley.drainMap x ≠ 0 then [(Valley.drainMap x, 2 * mapBytes e v)] else [])

/-- Steps 1 to 3. -/
def beginRevoke (m : Mem) (e : Eng) (c : Cmd) (tag : W16) (f : Nat) : Eng :=
  let side := { e.side with revoked := (e.side.revoked ++ [tag]).drop (e.side.revoked.length + 1 - 64) }
  let w : RevokeWait := { cmd := c, ptag := tag, vf := f, step := 4, before := e.io.acc.length, areas := [] }
  let e1 := { e with side := side, ctl := { e.ctl with revokes := e.ctl.revokes ++ [w] } }
  (slotsOf e1 f).foldl (fun e v => revokeFence m e v c) e1

/-- Is a port descriptor one of Valley `v`? -/
def ownerIs (v : Nat) : PortOwner → Bool
  | .t1Table w => decide (w = v)
  | .t1Survey w => decide (w = v)
  | .t1Seg w _ => decide (w = v)
  | .t1Record w => decide (w = v)
  | .t2Source w => decide (w = v)
  | .t2Piece w _ => decide (w = v)
  | .restore w _ => decide (w = v)
  | .frame w _ => decide (w = v)

/-- Does Valley `v` wait for a port or for a copy? -/
def portBusy (e : Eng) (v : Nat) : Bool :=
  e.io.sto.any (fun d => ownerIs v d.owner) || e.io.pass.any (fun d => ownerIs v d.owner) ||
    e.io.copies.any fun c => decide (c.v = v)

/-- Steps 5 and 6: leave every Valley that is bound, and stop the seeding services. -/
def revokeLeave (m : Mem) (e : Eng) (f : Nat) : Eng :=
  let vs := slotsOf e f
  let e1 := vs.foldl (fun e v => if slotBound (getV e v) then leaveValley m e v else e) e
  (e1.seeds.filter fun t => vs.contains t.v && t.ready).foldl (fun e t => stopSeed m e t) e1

/-- Is a page of an owner one of Valley `v`? -/
def pageIs (v : Nat) : PageOwner → Bool
  | .outRing w _ => decide (w = v)
  | .inRing w _ => decide (w = v)
  | .run w _ => decide (w = v)
  | .work w _ => decide (w = v)
  | .control w => decide (w = v)
  | .spillStage w => decide (w = v)
  | _ => false

/-- Step 8: zero the ranges, and free the spill and Basin pages that remain. -/
def revokeZero (m : Mem) (e : Eng) (f : Nat) (areas : List (Nat × Nat)) : Eng :=
  let vs := slotsOf e f
  let e1 := areas.foldl (fun e a => zeroRange m e a.1 a.2 (.revoke f)) e
  let e2 := freeSpill e1 ((e1.spill.pages.filter fun x => vs.contains x.2.v).map (·.1))
  freeBasin e2 ((e2.basin.owners.filter fun o => vs.any fun v => pageIs v o.2).map (·.1))

/-- Zero the keys of a virtual function's partition; KEYS_ZEROED is raised for it (R286, R301, R245). -/
def zeroKeys (e : Eng) (vf : Nat) (tag : W16) : Eng :=
  raiseFn { e with ctl := { e.ctl with keys := Tab.del e.ctl.keys (1 + vf) } } (vfFn vf) evKeysZeroed stOK none
    (pack [(0, 1), (16, tag.toNat)]) 0

/-- Return a queue to the physical function, disabled; what was fetched from it and not taken is refused. -/
def returnQueue (e : Eng) (q : Nat) : Eng :=
  let e1 := (getQ e q).buf.foldl (fun e p => reply0 (popHead e q) (cmdOf q p) stRevoked) e
  freeOwner (updQ e1 q fun _ => {}) (.queue q)

/-- Steps 9 to 11, and the reply. -/
def endRevoke (e : Eng) (w : RevokeWait) : Eng :=
  let vs := slotsOf e w.vf
  let ds := vs.flatMap fun v => (valleyRegions e v).map (·.1)
  let e1 := ds.foldl (fun e d => setFilters { e with regions := Tab.del e.regions d } d 0) e
  let e2 := zeroKeys (vs.foldl (fun e v => setV e v {}) e1) w.vf w.ptag
  let e3 := { e2 with seeds := e2.seeds.filter fun t => !vs.contains t.v }
  let e4 := (queuesOf e3 w.vf).foldl returnQueue e3
  let ctl := { e4.ctl with negotiated := Tab.del e4.ctl.negotiated (0x40 + w.vf)
                           grants := e4.ctl.grants.filter fun g => decide (g.vf ≠ w.vf)
                           revokes := e4.ctl.revokes.filter fun r => decide (r.vf ≠ w.vf) }
  let regs := { e4.regs with accReg := Tab.del e4.regs.accReg (0x40 + w.vf), accFab := Tab.del e4.regs.accFab (1 + w.vf) }
  orderlyStop { e4 with ctl := ctl, regs := regs } w.cmd

/-- Change a revocation. -/
def putRevoke (e : Eng) (w : RevokeWait) : Eng :=
  { e with ctl := { e.ctl with revokes := e.ctl.revokes.map fun r => if r.vf = w.vf then w else r } }

/-- A revocation goes on as far as it can (R272). -/
def stepRevoke (m : Mem) : Nat → Eng → RevokeWait → Eng
  | 0, e, _ => e
  | fuel + 1, e, w =>
    let vs := slotsOf e w.vf
    if w.step = 4 then
      if vs.any fun v => anyWaits (getV e v) then e
      else
        let w1 := { w with step := 7, areas := revokeAreas e w.vf }
        stepRevoke m fuel (putRevoke (revokeLeave m e w.vf) w1) w1
    else if w.step = 7 then
      if w.before ≠ 0 ∨ vs.any (portBusy e) then e
      else
        let w1 := { w with step := 8 }
        stepRevoke m fuel (putRevoke (revokeZero m e w.vf w.areas) w1) w1
    else if e.io.acc.any fun r => decide (r.why = .revoke w.vf) then e
    else endRevoke e w

/-- Every revocation goes on; none ends while the control processor is halted (R292). -/
def runRevokes (m : Mem) (e : Eng) : Eng :=
  if cpRuns e then e.ctl.revokes.foldl (fun e w => stepRevoke m 3 e w) e else e

/-- PARTITION_REVOKE (R272). -/
def execPartitionRevoke (q : Fin 64) (s : State) : Host.Outcome State Fault Refusal :=
  .next (runCmd q.val 0x61 s fun e c p =>
    let tag : W16 := (pkw p 1).extractLsb' 0 16
    match e.ctl.grants.find? fun g => decide (g.ptag = tag) with
    | none => reply0 e c stOutOfRange
    | some g =>
      if revoking e (vfFn g.vf) then reply0 e c stOutOfRange
      else runRevokes s.mem (beginRevoke s.mem e c tag g.vf))

/-! ## SCRUB (R99) -/

/-- Does a range meet a region or parity area of a joined Valley, or the spill pool while any Valley is joined? -/
def scrubHits (e : Eng) (a n : Nat) : Bool :=
  e.valleys.any (fun x => isJoined x.2 &&
    (overlaps a n x.2.area (4096 * parityTotal e x.1) ||
     (valleyRegions e x.1).any fun r => !placeless e r.2 && overlaps a n (Region.base r.2) (4096 * Region.tiles r.2))) ||
  (anyJoined e && hitsSpill e a n)

/-- SCRUB (R99): it waits until its accumulates are done. -/
def execScrub (q : Fin 64) (s : State) : Host.Outcome State Fault Refusal :=
  .next (runCmd q.val 0x68 s fun e c p =>
    let a := pkw p 1
    let n := (pkw p 2).toNat
    if isHost a || !addrOk a 4096 n pkgBytes || decide (n % 4096 ≠ 0) || scrubHits e (addrOf a) n then
      reply0 e c stOutOfRange
    else
      let key := e.ctl.scrubKey
      let e1 := zeroRange s.mem e (addrOf a) n (.scrub key)
      let left := (e1.io.acc.filter fun r => decide (r.why = .scrub key)).length
      if left = 0 then reply0 e1 c stOK
      else
        let w : ScrubWait := { cmd := c, left := left, key := key }
        { e1 with ctl := { e1.ctl with scrubs := e1.ctl.scrubs ++ [w], scrubKey := key + 1 } })

/-- One accumulate of a SCRUB is done. -/
def scrubDone (e : Eng) (key : Nat) : Eng :=
  match e.ctl.scrubs.find? fun w => decide (w.key = key) with
  | none => e
  | some w =>
    if w.left ≤ 1 then
      reply0 { e with ctl := { e.ctl with scrubs := e.ctl.scrubs.filter fun x => decide (x.key ≠ key) } } w.cmd stOK
    else
      { e with ctl := { e.ctl with scrubs := e.ctl.scrubs.map fun x => if x.key = key then { x with left := x.left - 1 } else x } }

/-! ## KEY_LOAD (R284, R285, R299) -/

/-- Unwrap a key blob of 160 bytes (R284). -/
def unwrapKey (dev : BitVec 256) (blob : List Byte) : Option (BitVec 256) :=
  let z := agreementZ dev ((blob.drop 16).take 96)
  let kek := keyOf (Config.hkdf z [] (ascii "SCE KEK" ++ blob.take 16 ++ agreementKey dev) 32)
  (Config.gcmOpen kek 0 (blob.take 16) ((blob.drop 112).take 32)
    (BitVec.ofNat 128 (bytesNat ((blob.drop 144).take 16)))).map keyOf

/-- Does the combination of life cycle and debug level give job keys (R299)? -/
def keysAllowed (s : Side) : Bool := decide (s.lc = 1) && decide (s.dbgLvl ≠ 2)

/-- The key slot of a tag: 0 for the physical function, 1 + f for the function that holds it. -/
def keySlotOf (e : Eng) (tag : W16) : Option Nat :=
  if tag = 0 then some 0 else (e.ctl.grants.find? fun g => decide (g.ptag = tag)).map (·.vf + 1)

/-- KEY_LOAD (R285): `blob` holds the blob when it stands in host memory. -/
def execKeyLoad (q : Fin 64) (blob : List W64) (s : State) : Host.Outcome State Fault Refusal :=
  .next (runCmd q.val 0x78 s fun e c p =>
    let kind := pkf p 1 0 4
    let tag : W16 := (pkw p 1).extractLsb' 16 16
    let bs := wordsBytes (paramWords s.mem e (pkw p 2) 20 blob)
    if decide (pkf p 3 0 16 ≠ 160) || !addrOk (pkw p 2) 8 160 pkgBytes || decide (kind ≠ 1 ∧ kind ≠ 2) ||
        decide (enum bs 0 1 ≠ kind ∨ enum bs 2 2 ≠ tag.toNat) || !Config.p384Point ((bs.drop 16).take 96) ||
        !keysAllowed e.side then reply0 e c stOutOfRange
    else match keySlotOf e tag, unwrapKey e.side.devKey bs with
      | some slot, some key =>
        let put (k : Keys) : Keys := if kind = 1 then { k with job := some key } else { k with exch := some key }
        reply0 { e with ctl := { e.ctl with keys := Tab.upd {} e.ctl.keys slot put } } c stOK
      | _, _ => reply0 e c stOutOfRange)

/-! ## FW_LOAD (R253, R261, R262) -/

/-- The image in the words of its header and body. -/
def imageOf (ws : List W64) : Image :=
  { major := fld (lword ws 0) 16 4, minor := fld (lword ws 0) 20 8, secVer := BitVec.ofNat 32 (fld (lword ws 1) 0 32)
    entry := BitVec.ofNat 32 (fld (lword ws 1) 32 32) }

/-- Does an image implement every version that a function has negotiated (R262, check 7)? -/
def implementsAll (e : Eng) (i : Image) : Bool :=
  e.ctl.negotiated.all fun n => decide (n.2 % 16 = i.major ∧ n.2 / 16 ≤ i.minor)

/-- Checks 1 to 8 of R262 on a copied image of `size` bytes. -/
def imageGood (e : Eng) (size : Nat) (ws : List W64) : Bool :=
  let bs := (wordsBytes ws).take size
  let body := fld (lword ws 0) 32 32
  let i := imageOf ws
  let sub (lo n : Nat) := (bs.drop lo).take n
  decide (outstandingAll e ≤ 1) &&
  decide (size = 512 + body ∧ 4 ≤ body ∧ body ≤ 1048576 ∧ body % 4 = 0) &&
  decide (fld (lword ws 0) 0 8 = 1 ∧ fld (lword ws 0) 8 4 = 1) &&
  decide (Config.sha384 (sub 72 96) = Config.fuseImageKeyHash) &&
  Config.ecdsaVerify (sub 72 96) (Config.sha384 (sub 0 168)) (sub 168 96) &&
  decide (Config.sha384 (sub 512 body) = sub 24 48) &&
  (decide (e.side.lc = 0) || decide (Config.fuseMinSecurity.toNat ≤ i.secVer.toNat)) &&
  implementsAll e i

/-- FW_LOAD (R262): `image` holds the image as the copy read it. The copy stands in the instruction store whether or not the
checks pass; the code that runs is another's until they do. -/
def execFwLoad (q : Fin 64) (image : List W64) (s : State) : Host.Outcome State Fault Refusal :=
  .next (runCmd q.val 0x7E s fun e c p =>
    let size := pkf p 2 0 32
    let words := paramWords s.mem e (pkw p 1) ((size + 7) / 8) image
    if anyBound e then reply0 e c stConfigLocked
    else if !isHost (pkw p 1) || !addrOk (pkw p 1) 8 size pkgBytes then reply0 e c stOutOfRange
    else
      let e1 := { e with ctl := { e.ctl with istore := words } }
      if !imageGood e size words then reply0 e1 c stOutOfRange
      else
        let i := imageOf words
        reply0 { e1 with ctl := { e1.ctl with image := some i, bootRom := false, cpPc := i.entry } } c stOK)

end Sys2Proof.Machine
end

