-- ==== Sys2Proof/Machine/Power.lean ====
section
/-!
DEFINITION. Machine/Power.lean: power states, debug levels, the hold-up sideband and the random source (R24 to R29,
R286, R288, R292 to R299, R301, R310).
-/

namespace Sys2Proof.Machine

/-! ## What wakes up again -/

/-- sce_lane_wthr_n rises once no cause holds (R110). -/
def raiseThrottle (e : Eng) (i : Nat) : Eng :=
  if anyCause (getLane e i) || retentionHold e then e else updLane e i fun l => { l with wthr := true }

/-- Every lane's throttle rises where no other cause holds. -/
def raiseThrottles (e : Eng) : Eng := (List.range 12).foldl raiseThrottle e

/-- Drive every lane's throttle low. -/
def lowerThrottles (e : Eng) : Eng :=
  (List.range 12).foldl (fun e i => updLane e i fun l => { l with wthr := false }) e

/-- Exports, drains and restores that stood still go on; the puts of exports come first (R200),
and working sets grow (R105). -/
def pokeAll (m : Mem) (e : Eng) : Eng :=
  growAll ((Tab.keys e.valleys).foldl (fun e v => runRestores m (runT2 (surveyOn e v) v) v) (runExports m e))

/-! ## Drowse (R295) -/

/-- Does a bank hold a valid page? -/
def bankValid (e : Eng) (b : Nat) : Bool := e.basin.valid.any fun p => decide (p.1 / 512 = b) && p.2

/-- The lowest-numbered bank of each partition stays on. -/
def lowestBank (e : Eng) (b : Nat) : Bool := (List.range 6).any fun p => decide ((partBanks e.regs p).1 = b)

/-- In Drowse, gate every bank that holds no valid page, but for the lowest of each partition. -/
def gateBanks (e : Eng) : Eng :=
  if e.side.pwrState ≠ 1 then e
  else
    let g := (List.range 32).foldl (fun (g : BitVec 32) b =>
      if bankValid e b || lowestBank e b then g else setBit g b) e.basin.gated
    { e with basin := { e.basin with gated := g } }

/-- Nothing is gated outside Drowse. -/
def ungateAll (e : Eng) : Eng :=
  { e with basin := { e.basin with gated := 0 }, lanes := e.lanes.map fun (i, l) => (i, { l with gated := false }) }

/-! ## POWER_STATE, POWER_ACK, POWER_REQ_TIMEOUT (R29, R294 to R298) -/

/-- Have the transfers of R296 step 3 finished? -/
def quiet (e : Eng) : Bool := e.io.acc.isEmpty && (liveSegs e).isEmpty && e.io.sto.isEmpty && e.io.pass.isEmpty

/-- Drive sce_pwr_req. -/
def driveReq (e : Eng) (r : BitVec 2) : Eng :=
  { e with side := { e.side with pwrReq := r, pwrSince := e.side.ts } }

/-- Gate every bank that holds no valid page (R296 step 5). -/
def gateEmpty (e : Eng) : Eng :=
  let g := (List.range 32).foldl (fun (g : BitVec 32) b => if bankValid e b then clrBit g b else setBit g b) e.basin.gated
  { e with basin := { e.basin with gated := g } }

/-- A power state comes into force. Retention empties the recent-read windows and gates the empty banks (R296). -/
def enterPower (e : Eng) (st : BitVec 2) : Eng :=
  let e1 := { e with side := { e.side with pwrState := st, pwrWait := none } }
  if st = 2 then gateEmpty (emptyWindows e1) else if st = 1 then gateBanks e1 else ungateAll e1

/-- sce_pwr_ack matches the driven request: POWER_STATE replies OK and the state comes into force. -/
def matchAck (e : Eng) : Eng :=
  match e.side.pwrWait with
  | none => e
  | some w =>
    if e.side.pwrReq = w.req ∧ e.side.pwrAck = w.req then enterPower (reply0 e w.cmd stOK) w.req else e

/-- A Retention that waits for the transfers of step 3 drives its request once they have finished (R296 step 4); a wait
whose acknowledgement came while the control processor was halted ends once it runs (R292). -/
def runPower (e : Eng) : Eng :=
  match e.side.pwrWait with
  | none => e
  | some w =>
    if !cpRuns e then e
    else if w.req = 2 ∧ e.side.pwrReq ≠ 2 ∧ quiet e then matchAck (driveReq e 2)
    else matchAck e

/-- The waits of the control processor that other events end go on: revocations, orderly stops and a Retention entry. -/
def advance (m : Mem) (e : Eng) : Eng := runPower (runStops (runRevokes m e))

/-- Take a POWER_STATE (R296 steps 1 to 3, R29). -/
def takePower (e : Eng) (c : Cmd) (r : BitVec 2) : Eng :=
  let e1 := { e with side := { e.side with pwrWait := some { cmd := c, req := r } } }
  if r = 2 then
    runPower (lowerThrottles { e1 with ctl := { e1.ctl with noTake := true } })
  else matchAck (driveReq e1 r)

/-- POWER_STATE (R296): one request is served at a time. -/
def execPowerState (q : Fin 64) (s : State) : Host.Outcome State Fault Refusal :=
  .next (runCmd q.val 0x70 s fun e c p =>
    let r : BitVec 2 := (pkw p 1).extractLsb' 0 2
    if decide (r = 3) || e.side.pwrWait.isSome ||
        (decide (r = 2) && e.valleys.any fun y => y.2.opened) then reply0 e c stOutOfRange
    else takePower e c r)

/-- Wake from Retention (R297). -/
def wakeUp (m : Mem) (e : Eng) : Eng :=
  let e1 := { e with side := { e.side with pwrState := 0, waking := false }, ctl := { e.ctl with noTake := false } }
  let e2 := readHeld (ungateAll e1)
  pokeAll m (raiseThrottles (evtFlush (e2.ctl.evt.held.length + 2) e2))

/-- sce_pwr_ack is seen. -/
def powerAck (m : Mem) (e : Eng) (ack : BitVec 2) : Eng :=
  let e1 := { e with side := { e.side with pwrAck := ack } }
  if e1.side.pwrState = 2 then
    (if e1.side.waking ∧ ack = e1.side.pwrReq then wakeUp m e1 else e1)
  else if cpRuns e1 then matchAck e1 else e1

/-- POWER_ACK (R29). -/
def execPowerAck (ack : BitVec 2) (s : State) : Host.Outcome State Fault Refusal :=
  .next { s with eng := powerAck s.mem s.eng ack }

/-- Does a driven request wait for its acknowledgement? -/
def reqOut (e : Eng) : Bool :=
  e.side.waking || (match e.side.pwrWait with
    | some w => decide (e.side.pwrReq = w.req)
    | none => false)

/-- Has 1 ms passed without a match (R29, R298)? No wait ends while the control processor is halted (R292). -/
def powerLate (e : Eng) : Bool :=
  reqOut e && (e.side.pwrWait.isNone || cpRuns e) && decide (e.side.pwrAck ≠ e.side.pwrReq) &&
    decide (1000000 ≤ (e.side.ts - e.side.pwrSince).toNat)

/-- Then POWER_MISMATCH is raised, the request returns to the state in force, and what Retention had begun is undone:
the throttles rise and what stood still goes on (R29, R298). -/
def powerTimeout (m : Mem) (e : Eng) : Eng :=
  if !powerLate e then e
  else
    let e1 := raise e evPowerMismatch stOutOfRange none
      (pack [(0, e.side.pwrReq.toNat), (8, e.side.pwrAck.toNat)]) 0
    let side := { e1.side with pwrReq := e1.side.pwrState, waking := false, pwrWait := none }
    match e.side.pwrWait with
    | none => { e1 with side := side }
    | some w =>
      let e2 := reply0 { e1 with side := side, ctl := { e1.ctl with noTake := false } } w.cmd stOutOfRange
      if w.req = 2 then pokeAll m (raiseThrottles e2) else e2

/-- POWER_REQ_TIMEOUT (R298). -/
def execPowerReqTimeout (s : State) : Host.Outcome State Fault Refusal :=
  .next { s with eng := powerTimeout s.mem s.eng }

/-- RETENTION_FLIT_DROP (R296). -/
def execRetentionFlitDrop (s : State) : Host.Outcome State Fault Refusal :=
  .next { s with eng := if s.eng.side.pwrState = 2 then
            { s.eng with side := { s.eng.side with retFlits := satInc s.eng.side.retFlits } } else s.eng }

/-- The wake bit of PWR_CTRL (R297). -/
def wakeBit (m : Mem) (e : Eng) : Eng :=
  if e.side.pwrState ≠ 2 ∨ e.side.waking then e
  else
    let e1 := driveReq { e with side := { e.side with waking := true } } 0
    if e1.side.pwrAck = 0 then wakeUp m e1 else e1

/-! ## Debug levels (R28, R292, R293, R310) -/

/-- The register-file entry of the debug port at a level (R310). -/
def accDebug (lvl : BitVec 2) : W32 := if lvl = 1 then 0x00003797 else if lvl = 2 then 0x34FE3FFF else 0

/-- Does a level change wait for the key users to end (R293)? -/
def needsKeysGone (s : Side) : Bool := decide (s.dbgSeen = 2 ∧ s.dbgLvl ≠ 2 ∧ s.lc = 1)

/-- A new value of sce_dbg_lvl is seen; 0b11 counts as None. -/
def seeLevel (s : Side) (lvl : BitVec 2) : Side :=
  let s1 := { s with dbgSeen := if lvl = 3 then 0 else lvl }
  { s1 with dbgActing := needsKeysGone s1 }

/-- DEBUG_LEVEL_CHANGE (R28, R293 step 1). -/
def execDebugLevelChange (lvl : BitVec 2) (s : State) : Host.Outcome State Fault Refusal :=
  .next { s with eng := if s.eng.side.relStep = .waitClock then s.eng
            else { s.eng with side := seeLevel s.eng.side lvl } }

/-- Have every drain, every restore that uses a key and every export ended (R293 step 2)? -/
def keyUsersGone (e : Eng) : Bool :=
  e.valleys.all fun y => y.2.t1.isNone && y.2.t2.isNone && !exportRunning y.2 &&
    y.2.restores.all fun r => decide (r.terrace = 3)

/-- Zero every key; KEYS_ZEROED is raised once (R286, R301). -/
def zeroAllKeys (e : Eng) (cause : Nat) : Eng :=
  raise { e with ctl := { e.ctl with keys := [] } } evKeysZeroed stOK none (pack [(0, cause), (16, 0xFFFF)]) 0

/-- Resume the control processor: what its halt held back is answered (R292). -/
def resumeCp (e : Eng) : Eng :=
  let held := e.ctl.heldEnds
  let e1 := { e with ctl := { e.ctl with cpHaltBit := false, heldEnds := [] } }
  held.foldl (fun e h => writeReply e h.1 h.2.1 h.2.2.1 h.2.2.2) e1

/-- The register-file entry of the debug port takes the value of the level in force (R310). -/
def setDebugEntry (e : Eng) : Eng :=
  { e with regs := { e.regs with accReg := Tab.set e.regs.accReg 0x81 (accDebug e.side.dbgLvl) } }

/-- The level that was seen takes effect. Leaving Invasive ends a halt of the control processor (R299). -/
def applyLevel (e : Eng) : Eng :=
  let old := e.side.dbgLvl
  let lvl := e.side.dbgSeen
  let e1 := if e.side.dbgActing then zeroAllKeys e 2 else e
  let e2 := if old = 2 ∧ e1.ctl.cpHaltBit then resumeCp e1 else e1
  let side := { e2.side with dbgLvl := lvl, dbgActing := false }
  raise (setDebugEntry { e2 with side := side }) evDebugLevel stOK none (pack [(0, lvl.toNat), (8, old.toNat)]) 0

/-- DEBUG_LEVEL (R293). A level that a warm reset kept takes effect in the new control domain without an event. -/
def execDebugLevel (s : State) : Host.Outcome State Fault Refusal :=
  .next { s with eng :=
            let e := s.eng
            if !ctlOn e || (e.side.dbgActing && !keyUsersGone e) then e
            else if e.side.dbgSeen = e.side.dbgLvl then setDebugEntry e
            else advance s.mem (applyLevel e) }

/-! ## The hold-up sideband (R24 to R26) -/

/-- Is the side domain out of reset? -/
def sideOn (e : Eng) : Bool := decide (e.side.relStep ≠ .waitClock)

/-- The bus address and the register pointer of the monitor's record (R25, SIDEBAND). -/
def holdupPlace (r : Regs) : Nat × Nat := (fld r.sideband 0 7, fld r.sideband 8 8)

/-- HOLDUP_POLL (R25): a read of the record from the configured bus address and register pointer starts when the poll
period has elapsed. -/
def execHoldupPoll (s : State) : Host.Outcome State Fault Refusal :=
  .next { s with eng :=
            let e := s.eng
            if sideOn e && !e.side.hBusy && decide (Regs.pollPeriod e.regs ≤ (e.side.ts - e.side.hPollTs).toNat) then
              { e with side := { e.side with hBusy := true, hBus := some (holdupPlace e.regs), hPollTs := e.side.ts } }
            else e }

/-- A transfer has ended: with a record, or failed (R26). -/
def takeReading (s : Side) (r : Option W32) : Side :=
  match r with
  | none => { s with hBusy := false, hFailed := true }
  | some w =>
    let fresh := decide (fld w 16 8 ≠ fld s.hRecord 16 8)
    { s with hBusy := false, hFailed := false, hRecord := w
             hStale := if fresh then false else s.hStale
             hSampleTs := if fresh then s.ts else s.hSampleTs }

/-- At each new reading the engine decides again on every segment that waits for energy (R170). -/
def decideAgain (e : Eng) : Eng :=
  if !ctlOn e then e
  else
    (Tab.keys e.valleys).foldl (fun e v => match (getV e v).t1 with
      | some r => if r.waitFrom.isSome then segmentBegin e v else e
      | none => e) e

/-- HOLDUP_READING (R26, R170). -/
def execHoldupReading (record : Option W32) (s : State) : Host.Outcome State Fault Refusal :=
  .next { s with eng :=
            let e := s.eng
            if e.side.hBusy then decideAgain { e with side := takeReading e.side record } else e }

/-- SIDEBAND_STRETCH_TIMEOUT (R25): the transfer is abandoned and the reading counts as failed. -/
def execSidebandStretchTimeout (s : State) : Host.Outcome State Fault Refusal :=
  .next { s with eng :=
            let e := s.eng
            if e.side.hBusy then decideAgain { e with side := takeReading e.side none } else e }

/-- HOLDUP_STALE (R26): the sample field has not changed for longer than the staleness timeout. -/
def execHoldupStale (s : State) : Host.Outcome State Fault Refusal :=
  .next { s with eng :=
            let e := s.eng
            if sideOn e && decide (Regs.staleness e.regs < (e.side.ts - e.side.hSampleTs).toNat) then
              { e with side := { e.side with hStale := true } }
            else e }

/-- HOLDUP_ALERT (R24, R26): the alert level after three equal samples. -/
def execHoldupAlert (asserted : Bool) (s : State) : Host.Outcome State Fault Refusal :=
  .next { s with eng := if sideOn s.eng then { s.eng with side := { s.eng.side with hAlert := asserted } } else s.eng }

/-! ## The random source (R288) -/

/-- DRBG_RESEED (R288): due every 2^20 requests, and again after a reseed whose health tests failed. -/
def drbgReseedAct (e : Eng) (failedTests : Nat) : Eng :=
  if !ctlOn e || (!e.side.rngFault && decide (e.ctl.drbgCount < e.ctl.drbgSeeded + 1048576)) then e
  else if failedTests = 0 then
    { e with side := { e.side with rngFault := false }, ctl := { e.ctl with drbgSeeded := e.ctl.drbgCount } }
  else
    let fails := e.ctl.rngFails + failedTests
    raise { e with side := { e.side with rngFault := true }, ctl := { e.ctl with rngFails := fails } }
      evRngFault stOutOfRange none (BitVec.ofNat 64 fails) 0

def execDrbgReseed (failedTests : Nat) (s : State) : Host.Outcome State Fault Refusal :=
  .next { s with eng := drbgReseedAct s.eng failedTests }

end Sys2Proof.Machine
end

