-- ==== Sys2Proof/Machine/BasinCmds.lean ====
section
/-!
DEFINITION. Machine/BasinCmds.lean: the Basin's integrity and its pages (R211 to R219, R234, R281, R295): uncorrectable
words and their owners, the patrol, the timers of the bucket and the candidates, opened pages, gated banks, the debug
port's window, and SPILL_PAGE_ZERO (R99).
-/

namespace Sys2Proof.Machine

/-! ## Uncorrectable words (R215) -/

/-- Does a word of an outbound ring's page hold a ring descriptor? -/
def descLost (s : OutStream) (g i : Nat) : Bool :=
  s.descs.zipIdx.any fun (h, j) => decide (h = g) && (List.range s.entries.length).any (descHits i j)

/-- The staged entries that have bytes in a word of an outbound ring's page. -/
def entriesIn (s : OutStream) (g i : Nat) : List OutEntry :=
  ((s.entries.zip (entrySpans g s.entries (s.pageEnd g)).1).filter fun p =>
    decide (p.2.2 ≠ 0) && spanHits p.2 i).map (·.1)

/-- Is something lost with a word of an outbound ring's page: a ring descriptor, or a staged entry whose record is not
yet written (R215)? -/
def ringLost (e : Eng) (v d g i : Nat) : Bool :=
  let s := getOut (getV e v) d
  descLost s g i || (entriesIn s g i).any fun t => !entryWritten e (getV e v) g t

/-- The staged entries of a word become reference entries (R102, R215). -/
def demoteWord (e : Eng) (v d g i : Nat) : Eng :=
  updOut e v d fun s =>
    let hit := entriesIn s g i
    { s with entries := s.entries.map fun t => if hit.contains t then demoteEntry g t else t }

/-- The Valleys that word `i` of a page silences. -/
def faultValleys (e : Eng) (g i : Nat) : List Nat :=
  match Tab.find e.basin.owners g with
  | some (.outRing v d) => if ringLost e v d g i then [v] else []
  | some (.inRing v _) => [v]
  | some (.control v) => if e.io.ctlOut.any fun o => decide (o.v = v) then [v] else []
  | some (.spillStage v) => if (getV e v).retained.any fun r => !r.written then [v] else []
  | _ => []

/-- The unit whose tile page `g` holds is discarded and not counted as consumed: the pages of a run hold first the units
received, then the units kept (R135). The entries of a CONTRACT share their pages. -/
def discardUnit (e : Eng) (v g : Nat) : Eng :=
  updV e v fun x =>
    { x with runs := x.runs.map fun r =>
        { r with
          recv := (r.recv.zipIdx.filter fun u => !(unitPages x r u.2).contains g).map (·.1)
          kept := (r.kept.zipIdx.filter fun u => !(unitPages x r (r.window + 1 + u.2)).contains g).map (·.1) } }

/-- The work that uses a drain page ends: a drain or restore with reason 5, an export with reason 2, a seeding service
as with its stop flag. -/
def endWork (m : Mem) (e : Eng) (v kind g : Nat) : Eng :=
  let x := getV e v
  match kind with
  | 1 => endT1 e v 5
  | 2 => endT2 e v 5
  | 3 =>
    (match x.restores.zipIdx.find? fun r => r.1.pages.contains g with
     | some (r, i) => endRestore e v i r 5
     | none => e)
  | 4 => if x.expo.jobs.any fun j => j.pages.contains g then endJob e v 2 else e
  | _ =>
    (match e.seeds.find? fun t => t.pages.contains g with
     | some t => stopSeed m e t
     | none => e)

/-- A word of a fetch buffer holds four packets; those of them that wait, and the ones behind them, are fetched again
from the queue. -/
def refetch (e : Eng) (q k : Nat) : Eng :=
  updQ e q fun x =>
    let keep := (List.range x.buf.length).takeWhile fun j => decide (queueWord e q (x.fetch + j) ≠ some k)
    { x with buf := x.buf.take keep.length, out := x.out - (x.buf.length - keep.length) }

/-! The 4,096 words that replies and events share (R105) hold the held events in the first half, eight records to a word
at their sequence numbers, and the held replies in the second half (DESIGN CHOICE, notes/assumptions/69.md). -/

/-- The word of the shared room that word `i` of page `g` is. -/
def shareWord (e : Eng) (g i : Nat) : Nat := 16 * placeOf e .events g + i

/-- Does a held event lie in a word of the shared room? -/
def eventIn (w : Nat) (r : EvRec) : Bool := decide (r.seq % 16384 / 8 = w)

/-- The places of the held replies in a word of the shared room. -/
def repliesIn (e : Eng) (w : Nat) : List Nat :=
  (List.range e.ctl.heldEnds.length).filter fun j => decide (2048 + j / 8 = w)

/-- The held events and replies in a word are lost: a lost reply leaves its command ended and never written. -/
def loseRecords (e : Eng) (w : Nat) : Eng :=
  let lost := repliesIn e w
  let qs := (e.ctl.heldEnds.zipIdx.filter fun h => lost.contains h.2).map fun h => h.1.1.q
  let e1 := updEvt e fun ev => { ev with held := ev.held.filter fun r => !eventIn w r }
  let e2 := { e1 with ctl := { e1.ctl with
    heldEnds := (e1.ctl.heldEnds.zipIdx.filter fun h => !lost.contains h.2).map (·.1) } }
  qs.foldl (fun e q => updQ e q fun x => queueSettle { x with out := x.out - 1 }) e2

/-- The outcome for the owner of word `i` of page `g`, after BASIN_FAULT (R215). Held records were lost before it, so that
none of them is delivered with it. -/
def faultOwner (m : Mem) (e : Eng) (g i : Nat) : Eng :=
  match Tab.find e.basin.owners g with
  | some (.outRing v d) =>
    if ringLost e v d g i then silence e v else trimOut (demoteWord e v d g i) v d
  | some (.inRing v _) => silence e v
  | some (.run v _) => discardUnit e v g
  | some (.work v kind) => endWork m e v kind g
  | some (.queue q) => refetch e q (16 * g + i)
  | some .events => e
  | some (.control v) => if (faultValleys e g i).contains v then silence e v else e
  | some (.spillStage v) => if (faultValleys e g i).contains v then silence e v else e
  | none => e

/-- The bits of BASIN_FAULT that name what is lost with a word of the shared room: the queue of a lost reply, reply lost,
event lost (R215). -/
def lostBits (e : Eng) (g i : Nat) : List (Nat × Nat) :=
  if Tab.find e.basin.owners g ≠ some .events then []
  else
    let w := shareWord e g i
    let qs := (repliesIn e w).map fun j => (e.ctl.heldEnds[j]?.map fun h => h.1.q).getD 0
    [(48, qs.headD 0), (54, b2n !qs.isEmpty), (55, b2n (e.ctl.evt.held.any (eventIn w)))]

/-- An uncorrectable word: counted, BASIN_FAULT, remap, then its owner (R212, R215). -/
def uncorrectable (m : Mem) (e : Eng) (g i mask : Nat) : Eng :=
  let e1 := { e with cnt := { e.cnt with bUncorr := satInc e.cnt.bUncorr } }
  let e0 := if Tab.find e1.basin.owners g = some .events then loseRecords e1 (shareWord e1 g i) else e1
  let e2 := raise e0 evBasinFault stOutOfRange none
    (pack ([(0, g), (16, partOfBank e1.regs (g / 512)), (32, maskOf (faultValleys e1 g i))] ++ lostBits e1 g i))
    (pack [(0, i), (16, mask)])
  writeWord (faultOwner m (remapPage e2 g) g i) (16 * g + i)

/-! ## Reads (R211, R212) -/

/-- Read word `i` of valid page `g`: the data, if correctable, and the engine after what R212 to R217 make of it. -/
def basinRead (m : Mem) (e : Eng) (g i : Nat) : Option Line × Eng :=
  let w := readWord (storedAt e g i)
  if w.bad ≠ 0 then (none, uncorrectable m e g i w.bad)
  else if w.corr ≠ 0 then (some w.data, correctedRead e g i w.corr)
  else (some w.data, e)

/-! ## The patrol and the write-back (R212, R213) -/

/-- The valid pages of a bank, lowest first. -/
def validPages (e : Eng) (b : Nat) : List Nat :=
  (e.basin.valid.filter fun p => p.2 && decide (p.1 / 512 = b)).map (·.1)

/-- The word of a bank that the patrol reads next: the first from `at_` on, else the bank's first. -/
def nextPatrol (pages : List Nat) (at_ : Nat) : Option Nat :=
  match pages.find? fun g => decide (at_ < 16 * g + 16) with
  | some g => some (max at_ (16 * g))
  | none => pages.head?.map (16 * ·)

/-- Has a bank's PATROL_GAP elapsed (in ck_core cycles of half a nanosecond)? -/
def patrolDue (e : Eng) (b : Nat) : Bool :=
  let gap := Regs.patrolGap e.regs
  decide (gap ≠ 0 ∧ gap ≤ 2 * (e.side.ts - Tab.get 0 e.basin.patrolTs b).toNat) && !bit e.basin.gated b

/-- PATROL_READ (R213): `flips` are the bit errors that the word has taken since it was stored. -/
def patrolRead (m : Mem) (e : Eng) (b : Nat) (flips : StoredWord) : Eng :=
  if !ctlOn e || !patrolDue e b then e
  else match nextPatrol (validPages e b) (Tab.get 0 e.basin.patrolAt b) with
    | none => e
    | some w =>
      let basin := { e.basin with patrolAt := Tab.set e.basin.patrolAt b (w + 1)
                                  patrolTs := Tab.set e.basin.patrolTs b e.side.ts }
      let e1 := putStored { e with basin := basin } (w / 16) (w % 16) (storedAt e (w / 16) (w % 16) ^^^ flips)
      advance m (basinRead m e1 (w / 16) (w % 16)).2

def execPatrolRead (bank : Fin 32) (flips : StoredWord) (s : State) : Host.Outcome State Fault Refusal :=
  .next { s with eng := patrolRead s.mem s.eng bank.val flips }

/-- BASIN_WRITEBACK (R212): the lowest corrected word of the bank that waits is written back. -/
def writeBack (e : Eng) (b : Nat) : Eng :=
  match e.basin.writeback.find? fun w => decide (w.2 = b) with
  | none => e
  | some (k, _) =>
    let e1 := putStored e (k / 16) (k % 16) (storeWord (readWord (storedAt e (k / 16) (k % 16))).data)
    { e1 with basin := { e1.basin with writeback := Tab.del e1.basin.writeback k } }

def execBasinWriteback (bank : Fin 32) (s : State) : Host.Outcome State Fault Refusal :=
  .next { s with eng := if ctlOn s.eng then writeBack s.eng bank.val else s.eng }

/-! ## Timers of the bucket and the candidates (R214, R217) -/

/-- BUCKET_LEAK (R214). -/
def leak (e : Eng) : Eng :=
  if ctlOn e && decide (Regs.bucketLeakNs e.regs ≤ (e.side.ts - e.basin.leakTs).toNat) then
    { e with basin := { e.basin with level := e.basin.level - 1, leakTs := e.side.ts } }
  else e

def execBucketLeak (s : State) : Host.Outcome State Fault Refusal := .next { s with eng := leak s.eng }

/-- CAND_DECAY (R217). -/
def decay (e : Eng) : Eng :=
  if ctlOn e && decide (Regs.candDecayNs e.regs ≤ (e.side.ts - e.basin.candTs).toNat) then
    { e with basin := { e.basin with cand := e.basin.cand.map fun c => (c.1, c.2 / 2), candTs := e.side.ts } }
  else e

def execCandDecay (s : State) : Host.Outcome State Fault Refusal := .next { s with eng := decay s.eng }

/-! ## Opened pages and gated banks (R216, R295) -/

/-- The opened pages of a bank that nothing uses. -/
def stockOf (e : Eng) (b : Nat) : Nat := ((validPages e b).filter fun g => !Tab.has e.basin.owners g).length

/-- PAGE_OPEN (R216): an idle bank whose stock is below four opens its lowest page that is not valid: zero words, then
the valid bit. -/
def openPage (e : Eng) (b : Nat) : Eng :=
  if !ctlOn e || bit e.basin.gated b || decide (4 ≤ stockOf e b) then e
  else match leastFrom (fun g => !pageValid e g) 512 (512 * b) with
    | some g => { e with basin := openWords e e.basin g }
    | none => e

def execPageOpen (bank : Fin 32) (s : State) : Host.Outcome State Fault Refusal :=
  .next { s with eng := openPage s.eng bank.val }

/-- The free opened pages of the banks of a partition that run. -/
def runningStock (e : Eng) (p : Nat) : Nat :=
  (((List.range (partBanks e.regs p).2).map (· + (partBanks e.regs p).1)).filter fun b => !bit e.basin.gated b).foldl
    (fun n b => n + stockOf e b) 0

/-- BANK_UNGATE (R295): a gated bank wakes when the running banks of its partition hold fewer than 16 free opened
pages. -/
def ungateBank (e : Eng) (b : Nat) : Eng :=
  if ctlOn e && bit e.basin.gated b && decide (runningStock e (partOfBank e.regs b) < 16) then
    { e with basin := { e.basin with gated := clrBit e.basin.gated b } }
  else e

def execBankUngate (bank : Fin 32) (s : State) : Host.Outcome State Fault Refusal :=
  .next { s with eng := ungateBank s.eng bank.val }

/-! ## The debug port's window on the Basin (R211, R216, R281, R312) -/

/-- The bytes of a list at offset `off` that lie in word `i` of a page become those of the line stored there. -/
def patchBytes (l : Line) (i off : Nat) (bs : List Byte) : List Byte :=
  bs.zipIdx.map fun (b, j) => if (off + j) / 256 = i then Line.byte l ((off + j) % 256) else b

/-- A staged entry whose bytes in word `i` of its page a debug write has replaced. -/
def patchEntry (l : Line) (i : Nat) (p : Nat × Nat) (t : OutEntry) : OutEntry :=
  match t with
  | .inline q rho line row b h =>
    if decide (p.2 = 0) || !spanHits p i then t
    else
      let bs := patchBytes l i p.1 (wordBytes (pack [(0, q.toNat), (32, rho)]) ++ b)
      let w := bytesWord bs
      .inline (w.extractLsb' 0 32) (fld w 32 17) line row (bs.drop 8) h
  | t => t

/-- A ring entry whose descriptor a debug write has replaced: what the new bits point to or say is a free value. -/
def strayEntry (f : W64) (t : OutEntry) : OutEntry :=
  match t with
  | .inline _ rho line row b h => .inline (f.extractLsb' 0 32) rho line row b h
  | .ref _ rho line row => .ref (f.extractLsb' 0 32) rho line row
  | .sealed rho _ _ step => .sealed rho (f.extractLsb' 0 32) f step

/-- The entries of a ring whose descriptors lie in word `i` of page `g`. -/
def strayRing (f : W64) (g i : Nat) (s : OutStream) : OutStream :=
  let hit (n : Nat) : Bool := s.descs.zipIdx.any fun p => decide (p.1 = g) && descHits i p.2 n
  { s with entries := s.entries.zipIdx.map fun p => if hit p.2 then strayEntry f p.1 else p.1 }

/-- Replace line `i` of a tile. -/
def patchTile (l : Line) (i : Nat) (z : List Line) : List Line := z.set i l

/-- A tile of a unit in page `g`: its line `i` becomes the stored one. -/
def patchUnits (x : Valley) (g i : Nat) (l : Line) (r : Run) : Run :=
  { r with
    recv := r.recv.zipIdx.map fun (u, j) =>
      let row := ((unitPages x r j).takeWhile fun h => decide (h ≠ g)).length
      if Tab.has u.rows row && (unitPages x r j).contains g then
        { u with rows := Tab.set u.rows row (patchTile l i (Tab.get [] u.rows row)) } else u
    kept := r.kept.zipIdx.map fun (u, j) =>
      let row := ((unitPages x r (r.window + 1 + j)).takeWhile fun h => decide (h ≠ g)).length
      if (unitPages x r (r.window + 1 + j)).contains g then
        { u with rows := u.rows.set row (patchTile l i (u.rows.getD row [])) } else u }

/-- The held reply that four words spell for a waiting command. -/
def endOf (c : Cmd) (ws : List W64) : Cmd × W16 × W64 × W64 :=
  let w := lword ws 0
  ({ c with q := fld w 32 6, tag := w.extractLsb' 0 16, op := w.extractLsb' 40 8 }, w.extractLsb' 16 16, lword ws 2,
   lword ws 3)

/-- Words `4·j` to `4·j + 3` of a line. -/
def quarter (l : Line) (j : Nat) : List W64 := (List.range 4).map fun i => Line.word l (4 * j + i)

/-- A debug write replaces what word `i` of page `g` holds (R281). Where the spec lays the content out, it becomes what the
line spells; the bits of a ring descriptor, a block on an inbound ring, a control transaction and a staged record are
not in the spec: free values (DESIGN CHOICE, notes/assumptions/69.md). -/
def corrupt (e : Eng) (g i : Nat) (l : Line) : Eng :=
  match Tab.find e.basin.owners g with
  | some (.queue q) =>
    let put (x : Queue) (p : BitVec 512) (j : Nat) : BitVec 512 :=
      if queueWord e q (x.fetch + j) = some (16 * g + i) then l.extractLsb' (512 * ((x.fetch + j) % 4)) 512 else p
    updQ e q fun x => { x with buf := x.buf.zipIdx.map fun b => put x b.1 b.2 }
  | some .events =>
    let w := shareWord e g i
    let e1 := updEvt e fun ev =>
      { ev with held := ev.held.map fun r => if eventIn w r then recOf (quarter l (r.seq % 8)) else r }
    let ends := e1.ctl.heldEnds.zipIdx.map fun (h, j) =>
      if 2048 + j / 8 = w then endOf h.1 (quarter l (j % 8)) else h
    { e1 with ctl := { e1.ctl with heldEnds := ends } }
  | some (.run v _) => updV e v fun x => { x with runs := x.runs.map (patchUnits x g i l) }
  | some (.outRing v d) =>
    if descLost (getOut (getV e v) d) g i then
      let f := freeWord e
      updOut f.2 v d (strayRing f.1 g i)
    else updOut e v d fun s =>
      { s with entries := (s.entries.zip (entrySpans g s.entries (s.pageEnd g)).1).map fun p => patchEntry l i p.2 p.1 }
  | some (.inRing v d) =>
    let s := getIn (getV e v) d
    let places := s.pages.zipIdx.filterMap fun (h, j) => if h = g then some (16 * j + i) else none
    let hit (p : Nat × Nat) : Bool := places.any (spanHits p)
    let f := freeLine e
    let put (b : InBlock) (p : Nat × Nat) : InBlock := if hit p then { b with diff := f.1 } else b
    updIn f.2 v d fun s => { s with waiting := (s.waiting.zip (blockSpans s.waiting s.fill).1).map fun p => put p.1 p.2 }
  | some (.control v) =>
    let f := freeWord e
    let put (o : CtlOut) : CtlOut := if o.v = v then { o with epoch := f.1 } else o
    updIo f.2 fun io => { io with ctlOut := io.ctlOut.map put }
  | some (.spillStage v) =>
    let f := freeLine e
    let put (r : Retained) : Retained :=
      if r.written then r else { r with block := (Line.bytes f.1 ++ Line.bytes f.1).take r.block.length }
    updV f.2 v fun x => { x with retained := x.retained.map put }
  | some (.work _ _) => e
  | none => e

/-- Load the word at BASIN_ADDR into the buffer. A page that is not valid reads zero; what a page in use holds, in the
bits of its rings and buffers, is not in the spec unless a debug write has put it there, nor is what an uncorrectable word
leaves: free values. -/
def loadBuffer (m : Mem) (e : Eng) : Eng :=
  let w := fld e.regs.basinAddr 0 18
  let put (e : Eng) (l : Line) : Eng := { e with basin := { e.basin with buffer := l } }
  if !pageValid e (w / 16) then put e 0
  else
    let used := Tab.has e.basin.owners (w / 16) && !e.basin.known.contains w
    match basinRead m e (w / 16) (w % 16) with
    | (some l, e1) => if used then put (freeLine e1).2 (freeLine e1).1 else put e1 l
    | (none, e1) => put (freeLine e1).2 (freeLine e1).1

/-- Store the buffer into the word at BASIN_ADDR like any Basin write (R281); a write to a page that is not valid leaves
nothing to read. -/
def storeBuffer (e : Eng) : Eng :=
  let w := fld e.regs.basinAddr 0 18
  if !pageValid e (w / 16) then e
  else
    let e1 := putStored (writeWord e w) (w / 16) (w % 16) (storeWord e.basin.buffer)
    let known := if Tab.has e1.basin.owners (w / 16) then w :: e1.basin.known else e1.basin.known
    corrupt { e1 with basin := { e1.basin with known := known } } (w / 16) (w % 16) e.basin.buffer

/-! ## Freed spill pages (R99, R273) -/

/-- SPILL_PAGE_ZERO (R99): an orderly stop that waits for the pool to read zero goes on (R273). -/
def execSpillPageZero (s : State) : Host.Outcome State Fault Refusal :=
  .next { s with eng := if ctlOn s.eng then advance s.mem (zeroSpillPage s.mem s.eng) else s.eng }

end Sys2Proof.Machine
end

