-- ==== Sys2Proof/Machine/FaultCmds.lean ====
section
/-!
DEFINITION. Machine/FaultCmds.lean: SUSPECT_REPORT, REBUILD_PLAN, REBUILD_RUN, STAND_IN, CONTRACT, AUDIT,
DIGEST_EXCHANGE and LOCKSTEP (R125, R127, R129 to R145, R220, R225, R228, R268).
-/

namespace Sys2Proof.Machine

/-! ## SUSPECT_REPORT (R125) -/

/-- Dismiss, acknowledge or assert a suspicion about peer `i`. -/
def suspectAct (e : Eng) (v i action : Nat) : Eng :=
  if action = 1 then
    updPeer e v i fun p => { p with suspect := false, reported := false, holdFrom := none, watchFrom := e.side.ts }
  else if action = 2 then updPeer e v i fun p => { p with acked := true, holdFrom := none }
  else
    reportSuspect (updPeer e v i fun p => { p with suspect := true, acked := false, holdFrom := none }) v i 3

/-- SUSPECT_REPORT (R125). -/
def execSuspectReport (q : Fin 64) (s : State) : Host.Outcome State Fault Refusal :=
  .next (runCmd q.val 0x30 s fun e c p =>
    let v := pkValley p
    let x := getV e v
    let i := pkf p 1 0 6
    let a := pkf p 1 8 4
    if !isJoined x || decide (i = x.self) || !isLive x i || decide (a = 0 ∨ 3 < a) then reply0 e c stOutOfRange
    else suspectAct (reply0 e c stOK) v i a)

/-! ## REBUILD_PLAN (R129, R130) -/

/-- Has this member, as a stand-in, an unrebuilt Reach? -/
def unfinished (e : Eng) (v : Nat) : Bool :=
  (getV e v).standIn && (reachList e v).any fun r => (getReach (getV e v) r.num).unbuilt

/-- Is a plan used by a run? -/
def planUsed (x : Valley) (num : Nat) : Bool := x.runs.any fun r => decide (r.kind ≠ .audit ∧ r.plan = num)

/-- The number a new plan takes: a free one, else that of the oldest plan that no run uses. -/
def planSlot (x : Valley) : Option Nat :=
  match (List.range 4).find? fun i => !x.plans.any fun p => decide (p.num = i) with
  | some i => some i
  | none =>
    ((x.plans.filter fun p => !planUsed x p.num).foldl (fun (b : Option Plan) p => match b with
      | none => some p
      | some o => if p.age < o.age then some p else some o) none).map (·.num)

/-- The lost set of REBUILD_PLAN. -/
def planLost (p : BitVec 512) : List Nat :=
  (((List.range (pkf p 1 32 3)).map fun i => pkf p 1 (8 * i) 6).eraseDups)

/-- All targets of a logical index (R130). -/
def allTargets (e : Eng) (v : Nat) : Nat := targetsBefore e v (reachList e v).length

/-- REBUILD_PLAN (R129). -/
def execRebuildPlan (q : Fin 64) (s : State) : Host.Outcome State Fault Refusal :=
  .next (runCmd q.val 0x31 s fun e c p =>
    let v := pkValley p
    let x := getV e v
    let n := pkf p 1 32 3
    let lost := planLost p
    if !isJoined x || decide (n = 0 ∨ 4 < n) || !lost.all (fun i => decide (i < x.n)) ||
        (unfinished e v && !lost.contains x.self) then reply0 e c stOutOfRange
    else match planSlot x with
      | none => reply0 e c stOutOfRange
      | some i =>
        if tooFew x lost then reply0 e c stTooFew
        else
          let e1 := updV e v fun x =>
            { x with plans := (x.plans.filter fun p => decide (p.num ≠ i)) ++ [{ num := i, lost := lost, age := x.planAge }]
                     planAge := x.planAge + 1 }
          reply e1 c stOK (BitVec.ofNat 64 i) (BitVec.ofNat 64 (allTargets e v)))

/-! ## REBUILD_RUN (R130, R133, R135, R139) -/

/-- The scope entries of a list (R135). -/
def scopeOf (ws : List W64) (n : Nat) : List (Nat × Nat) :=
  (List.range n).map fun i => (fld (lword ws (2 * i)) 0 32, fld (lword ws (2 * i)) 32 32)

/-- May a run be taken: its epoch, phase and scope (R133, R135)? -/
def runMay (e : Eng) (v : Nat) (epoch : W64) (scope : List (Nat × Nat)) : Bool :=
  let x := getV e v
  isJoined x && decide (epoch = x.epoch) && decide (x.phase = .idle ∨ x.phase = .frozen) &&
  decide (1 ≤ scope.length ∧ scope.length ≤ 4096) &&
  scope.all (fun s => decide (1 ≤ s.2 ∧ s.1 + s.2 ≤ (reachList e v).length)) &&
  (decide (x.phase = .frozen) || !(scopeReaches e v scope).any fun r => decide (r.cls = clsLanding))

/-- The WINDOW of a packet: 0 selects the default of 128. -/
def windowOf_ (p : BitVec 512) : Nat := if pkf p 4 32 11 = 0 then 128 else pkf p 4 32 11

/-- May an identity begin a run: its low bits are zero and no live run has it? -/
def identFree (x : Valley) (ident : Nat) : Bool := decide (ident % 4 = 0) && (runAt x ident).isNone

/-- Is the scope list's address one in host memory (R135)? -/
def scopeAddrOk (p : BitVec 512) : Bool := isHost (pkw p 3) && addrOk (pkw p 3) 16 (16 * pkf p 4 0 13) pkgBytes

/-- Put a run to work with its pages reserved, and let the Valley's runs go on. -/
def startRun (m : Mem) (e : Eng) (v : Nat) (c : Cmd) (r : Run) : Eng :=
  let x := getV e v
  match reservePages e 2 (runPages x r.window) (.run v r.ident) with
  | none => reply0 e c stOutOfRange
  | some (gs, e1) =>
    stepRuns m (updV e1 v fun x =>
      { x with runs := x.runs ++ [{ r with pages := gs }]
               oldRuns := x.oldRuns.filter fun o => decide (o.ident ≠ r.ident) }) v

/-- REBUILD_RUN with the resume flag (R139). -/
def resumeCmd (m : Mem) (e : Eng) (v : Nat) (c : Cmd) (p : BitVec 512) : Eng :=
  let x := getV e v
  let ident := pkf p 5 0 16
  let excl := pkf p 5 16 6
  match runAt x (pkf p 1 16 16) with
  | none => reply0 e c stOutOfRange
  | some r =>
    if !isJoined x || decide (pkw p 2 ≠ x.epoch) || decide (r.kind = .audit) || decide (pkf p 1 16 2 ≠ 0) ||
        !identFree x ident || decide (x.n ≤ excl) then reply0 e c stOutOfRange
    else if tooFew x (r.lost ++ (r.groups.getLast?.map (·.excl)).getD [] ++ [excl]) then reply0 e c stTooFew
    else resumeRun m (reply0 e c stOK) v r ident excl

/-- REBUILD_RUN (R135): `scope` holds the scope list. -/
def execRebuildRun (q : Fin 64) (scope : List W64) (s : State) : Host.Outcome State Fault Refusal :=
  .next (runCmd q.val 0x32 s fun e c p =>
    let v := pkValley p
    let x := getV e v
    let dest := pkf p 1 8 6
    let sc := scopeOf scope (pkf p 4 0 13)
    if pkA p then resumeCmd s.mem e v c p
    else match x.plans.find? fun a => decide (a.num = pkf p 1 0 2) with
      | none => reply0 e c stOutOfRange
      | some a =>
        if !scopeAddrOk p || !runMay e v (pkw p 2) sc || !identFree x (pkf p 1 16 16) || decide (pkf p 5 0 2 ≠ 0) ||
            !a.lost.contains dest || decide (windowOf_ p < 16 ∨ 1024 < windowOf_ p) then reply0 e c stOutOfRange
        else
          startRun s.mem e v c
            { kind := .rebuild, cmd := some c, plan := a.num, lost := a.lost, dest := dest, tgt := dest
              groups := [{ ident := pkf p 1 16 16, excl := [] }], epoch := x.epoch, scope := sc
              window := windowOf_ p, demand := pkB p })

/-! ## STAND_IN (R141, R142, R268) -/

/-- STAND_IN on a member of the live set (R141). -/
def standInMember (m : Mem) (e : Eng) (v : Nat) (c : Cmd) (p : BitVec 512) : Eng :=
  let x := getV e v
  let u := pkf p 1 0 6
  let node : W16 := (pkw p 1).extractLsb' 16 16
  let s : W32 := BitVec.ofNat 32 (pkf p 2 0 32)
  if !isJoined x || decide (x.phase ≠ .frozen) || decide (x.n ≤ u) || isLive x u || decide (fld node 13 3 ≠ 0) ||
      decide (node = e.ctl.node) || (liveList x).any (fun i => decide (nodeOf x i = node)) ||
      !x.retained.isEmpty then reply0 e c stOutOfRange
  else
    let dOut := subMod u x.self x.n
    let dIn := subMod x.self u x.n
    let bind (y : Valley) : Valley :=
      { y with
        members := y.members.zipIdx.map fun (b, i) => if i = u then { b with node := node } else b
        outs := if (distances y).contains dOut then Tab.set y.outs dOut { next := s } else y.outs
        ins := if (distances y).contains dIn then Tab.set y.ins dIn { a := s } else y.ins
        live := setBit y.live u
        peers := Tab.set y.peers u { watchFrom := e.side.ts } }
    let e1 := reply0 (updV e v bind) c stOK
    let e2 := if reporterOf (getV e1 v) u = some x.self then sendTransfer e1 v u s else e1
    settleV m e2 v

/-- STAND_IN on a member (R141). -/
def execStandIn (q : Fin 64) (s : State) : Host.Outcome State Fault Refusal :=
  match headReady s.eng q.val with
  | some p =>
    if pkA p then .next s
    else .next (runCmd q.val 0x33 s fun e c p => standInMember s.mem e (pkValley p) c p)
  | none => .next s

/-- STAND_IN on the spare (R142). -/
def standInSpare (e : Eng) (v : Nat) (c : Cmd) (p : BitVec 512) : Eng :=
  let x := getV e v
  let s : W32 := BitVec.ofNat 32 (pkf p 2 0 32)
  let a := pkw p 5
  if x.slot ≠ .standby ∨ pkf p 1 0 6 ≠ x.self ∨ isHost a ∨ !addrOk a 8 ((allTargets e v + 7) / 8) pkgBytes then
    reply0 e c stOutOfRange
  else
    let rs := (reachList e v).map (·.num)
    updV e v fun y =>
      startStreams
        { y with
          slot := .spare, phase := .frozen, epoch := pkw p 3, step := pkw p 4, standIn := true, rmap := addrOf a
          live := BitVec.ofNat 64 (2 ^ y.n - 1)
          reaches := rs.foldl (fun t r => Tab.set t r { unbuilt := true }) []
          spareWait := some { cmd := c, since := e.side.ts, base := s, hello := false, got := [], summary := none } } s

/-- STAND_IN on the spare (R142). -/
def execStandInSpare (q : Fin 64) (s : State) : Host.Outcome State Fault Refusal :=
  match headReady s.eng q.val with
  | some p =>
    if pkA p then .next (runCmd q.val 0x33 s fun e c p => standInSpare e (pkValley p) c p) else .next s
  | none => .next s

/-! ## CONTRACT (R127, R145) -/

/-- The entries of a destination map: first Reach, count, destination index, base address word. -/
def contractMap (ws : List W64) (n : Nat) : List (Nat × Nat × Nat × W64) :=
  (List.range n).map fun i =>
    (fld (lword ws (4 * i)) 0 32, fld (lword ws (4 * i)) 32 32, fld (lword ws (4 * i + 1)) 0 6, lword ws (4 * i + 2))

/-- The bytes that an entry's Reaches take. -/
def mapBytesOf (e : Eng) (v first count : Nat) : Nat :=
  4096 * ((scopeReaches e v [(first, count)]).map (·.tiles)).sum

/-- Is a map entry in order on this member (R145)? Only the destination can judge its own range. -/
def mapEntryOk (m : Mem) (e : Eng) (v : Nat) (t : Nat × Nat × Nat × W64) : Bool :=
  let x := getV e v
  let n := mapBytesOf e v t.1 t.2.1
  decide (1 ≤ t.2.1 ∧ t.1 + t.2.1 ≤ (reachList e v).length) && decide (t.2.2.1 < x.n) && isLive x t.2.2.1 &&
  !isHost t.2.2.2 && addrOk t.2.2.2 8 n pkgBytes &&
  (decide (t.2.2.1 ≠ x.self) ||
    (clearRange e (addrOf t.2.2.2) n && readsZero m e (addrOf t.2.2.2) n))

/-- CONTRACT (R145): `map` holds the destination map when it stands in host memory. One reservation serves all
entries. -/
def execContract (q : Fin 64) (map : List W64) (s : State) : Host.Outcome State Fault Refusal :=
  .next (runCmd q.val 0x34 s fun e c p =>
    let v := pkValley p
    let x := getV e v
    let n := pkf p 3 0 7
    let ident := pkf p 1 16 16
    match x.plans.find? fun a => decide (a.num = pkf p 1 0 2) with
    | none => reply0 e c stOutOfRange
    | some a =>
      let es := contractMap (paramWords s.mem e (pkw p 2) (4 * n) map) n
      if !isJoined x || decide (x.phase ≠ .frozen) || decide (n = 0 ∨ 64 < n) || decide (0xFFFF < ident + 4 * n) ||
          !addrOk (pkw p 2) 32 (32 * n) pkgBytes || !(List.range n).all (fun i => identFree x (ident + 4 * i)) ||
          !es.all (mapEntryOk s.mem e v) then reply0 e c stOutOfRange
      else match reservePages e 2 (runPages x 128) (.run v ident) with
        | none => reply0 e c stOutOfRange
        | some (gs, e1) =>
          let runs : List Run := es.zipIdx.map fun (t, i) =>
            { kind := .contract, cmd := some c, plan := a.num, lost := a.lost, dest := t.2.2.1, tgt := a.lost.headD 0
              groups := [{ ident := ident + 4 * i, excl := [] }], epoch := x.epoch, scope := [(t.1, t.2.1)], window := 128
              base := addrOf t.2.2.2, pages := if i + 1 = n then gs else [] }
          stepRuns s.mem (updV e1 v fun x =>
            { x with runs := x.runs ++ runs
                     oldRuns := x.oldRuns.filter fun o => !runs.any fun r => decide (r.ident = o.ident) }) v)

/-! ## AUDIT (R220) -/

/-- AUDIT (R220): `scope` holds the scope list. -/
def execAudit (q : Fin 64) (scope : List W64) (s : State) : Host.Outcome State Fault Refusal :=
  .next (runCmd q.val 0x38 s fun e c p =>
    let v := pkValley p
    let x := getV e v
    let who := pkf p 1 0 6
    let sc := scopeOf scope (pkf p 4 0 13)
    if !scopeAddrOk p || !runMay e v (pkw p 2) sc || !identFree x (pkf p 1 16 16) || decide (x.n ≤ who) ||
        !(List.range x.n).all (isLive x) || unfinished e v || (pkA p && x.t1.isSome) ||
        decide (windowOf_ p < 16 ∨ 1024 < windowOf_ p) || decide (freeCount e 2 < runPages x (windowOf_ p)) then
      reply0 e c stOutOfRange
    else
      let hold (e : Eng) : Eng := if pkA p then holdIfBusy e v else e
      hold <| startRun s.mem e v c
        { kind := .audit, cmd := some c, plan := 0, lost := [], dest := who, tgt := who
          groups := [{ ident := pkf p 1 16 16, excl := [] }], epoch := x.epoch, scope := sc, window := windowOf_ p
          correct := pkA p, digest := pkB p })

/-! ## DIGEST_EXCHANGE and LOCKSTEP (R225, R228) -/

/-- Does a node number keep the limit of R3: bits [15:13] clear? -/
def nodeFits (w : W64) : Bool := decide (fld w 13 3 = 0)

/-- A partner entry. -/
def partnerOfWord (w : W64) : Partner :=
  { node := w.extractLsb' 0 16, tag := w.extractLsb' 16 16, index := fld w 32 6 }

/-- DIGEST_EXCHANGE (R225): `partners` holds the partner list when it stands in host memory. -/
def execDigestExchange (q : Fin 64) (partners : List W64) (s : State) : Host.Outcome State Fault Refusal :=
  .next (runCmd q.val 0x39 s fun e c p =>
    let v := pkValley p
    let x := getV e v
    let act := pkf p 1 0 4
    let n := pkf p 1 8 3 + 1
    let a := pkw p 2
    let size := 16 * (reachList e v).length
    if act = 2 then
      if !isDefined x ∨ x.slot = .standby then reply0 e c stOutOfRange
      else reply0 (updV e v fun x => { x with cmp := { x.cmp with running := false } }) c stOK
    else if act ≠ 1 ∨ !isJoined x ∨ x.phase ≠ .idle ∨ isHost a ∨ !addrOk a 8 size pkgBytes ∨
        !clearRange e (addrOf a) size ∨ !addrOk (pkw p 3) 8 (8 * n) pkgBytes then reply0 e c stOutOfRange
    else
      let ws := paramWords s.mem e (pkw p 3) n partners
      if !ws.all nodeFits then reply0 e c stOutOfRange
      else reply0 (updV e v fun x =>
        { x with cmp := { x.cmp with running := true, area := addrOf a, partners := ws.map partnerOfWord, genStep := [] } })
        c stOK)

/-- The size of a lock-step area: tile digests, then the written bitmap up to 4 KiB (R228). -/
def lockBytes (e : Eng) (v : Nat) : Nat := 8 * tileTotal e v + (tileTotal e v + 32767) / 32768 * 4096

/-- LOCKSTEP (R228); w3 is the partner entry. -/
def execLockstep (q : Fin 64) (s : State) : Host.Outcome State Fault Refusal :=
  .next (runCmd q.val 0x3A s fun e c p =>
    let v := pkValley p
    let x := getV e v
    let act := pkf p 1 0 4
    let a := pkw p 2
    if act = 2 then
      if !isDefined x ∨ x.slot = .standby then reply0 e c stOutOfRange
      else reply0 (updV e v fun x => { x with cmp := { x.cmp with lock := false } }) c stOK
    else if act ≠ 1 ∨ !isJoined x ∨ x.phase ≠ .idle ∨ isHost a ∨ !addrOk a 8 (lockBytes e v) pkgBytes ∨
        !nodeFits (pkw p 3) then
      reply0 e c stOutOfRange
    else
      reply0 (updV e v fun x =>
        { x with cmp := { x.cmp with lock := true, lockArea := addrOf a, lockPeer := some (partnerOfWord (pkw p 3)) } })
        c stOK)

end Sys2Proof.Machine
end

