-- ==== Sys2Proof/Machine/RegMap.lean ====
section
/-!
DEFINITION. Machine/RegMap.lean: the register map of chapter 12: places, widths, values as read, configuration fields
with their classes and ranges (R302 to R311), without the effects of a read or a write.
-/

namespace Sys2Proof.Machine

/-! ## Places (R302) -/

/-- The registers of the window, group by group. -/
inductive Reg where
  | ident | version | fwInfo | caps
  | gstatus | timestamp
  | basinPart | spillBase | spillSize | quotaRet | quotaPend | quotaShadow | quotaCache | flow | timeouts | suspectGap
  | portTimeout | sideband | holdup | laneWm (i : Nat)
  | qBaseCmd (q : Nat) | qBaseCpl (q : Nat) | qCtrl (q : Nat) | qSubDb (q : Nat) | qCplDb (q : Nat) | qIndex (q : Nat)
  | evtBase | evtCtrl | evtDb | evtIndex | irqStatus0 | irqStatus1
  | vDef (v : Nat) | vAlpha (v : Nat) | vCommit (v : Nat) | vResend (v : Nat) | vPeer (v : Nat) | vHop (v : Nat)
  | vT1trig (v : Nat) | vT2trig (v : Nat) | vDrain (v : Nat) | vLineage (v : Nat) | vT1ns (v : Nat) | vT1lba (v : Nat)
  | vT1lbas (v : Nat) | vDrainMap (v : Nat) | vExport (v : Nat)
  | desc (d w : Nat)
  | bCorr | bUncorr | bLevel | bucket | patrol | remap (e : Nat)
  | accReg (mid : Nat) | accFab (e : Nat) | accSto (f : Nat)
  | laneStat (i : Nat) | winHit (i : Nat) | winMiss (i : Nat) | stageCorr (i : Nat) | stageUncorr (i : Nat)
  | refusals (t : Nat) | drops (c : Nat) | regionCnt (d k : Nat)
  | pwrStatus | pwrCtrl | laneGate | gateStat
  | secStatus | agreeQ (k : Nat) | keyPf | keyJob | keyExch
  | cmpState (v : Nat) | cmpDiff (v p : Nat) | cmpStep (v p : Nat)
  | cpCtrl | cpPc | istAddr | istData | basinAddr | basinData (s : Nat)
deriving DecidableEq, Repr

/-- Group 2. -/
def locate2 (o : Nat) : Option Reg :=
  match o with
  | 0x00 => some .basinPart
  | 0x08 => some .spillBase
  | 0x10 => some .spillSize
  | 0x18 => some .quotaRet
  | 0x20 => some .quotaPend
  | 0x28 => some .quotaShadow
  | 0x30 => some .quotaCache
  | 0x38 => some .flow
  | 0x40 => some .timeouts
  | 0x48 => some .suspectGap
  | 0x50 => some .portTimeout
  | 0x58 => some .sideband
  | 0x60 => some .holdup
  | _ => if 0x100 ≤ o ∧ o < 0x160 then some (.laneWm ((o - 0x100) / 8)) else none

/-- Group 3, queue `q`. -/
def locate3 (q o : Nat) : Option Reg :=
  match o with
  | 0x00 => some (.qBaseCmd q)
  | 0x08 => some (.qBaseCpl q)
  | 0x10 => some (.qCtrl q)
  | 0x18 => some (.qSubDb q)
  | 0x20 => some (.qCplDb q)
  | 0x28 => some (.qIndex q)
  | _ => none

/-- Group 4. -/
def locate4 (o : Nat) : Option Reg :=
  match o with
  | 0x00 => some .evtBase
  | 0x08 => some .evtCtrl
  | 0x10 => some .evtDb
  | 0x18 => some .evtIndex
  | 0x20 => some .irqStatus0
  | 0x28 => some .irqStatus1
  | _ => none

/-- Group 5, Valley slot `v`. -/
def locate5 (v o : Nat) : Option Reg :=
  match o with
  | 0x00 => some (.vDef v)
  | 0x08 => some (.vAlpha v)
  | 0x10 => some (.vCommit v)
  | 0x18 => some (.vResend v)
  | 0x20 => some (.vPeer v)
  | 0x28 => some (.vHop v)
  | 0x30 => some (.vT1trig v)
  | 0x38 => some (.vT2trig v)
  | 0x40 => some (.vDrain v)
  | 0x48 => some (.vLineage v)
  | 0x50 => some (.vT1ns v)
  | 0x58 => some (.vT1lba v)
  | 0x60 => some (.vT1lbas v)
  | 0x68 => some (.vDrainMap v)
  | 0x70 => some (.vExport v)
  | _ => none

/-- Group 7. -/
def locate7 (o : Nat) : Option Reg :=
  match o with
  | 0x00 => some .bCorr
  | 0x08 => some .bUncorr
  | 0x10 => some .bLevel
  | 0x18 => some .bucket
  | 0x20 => some .patrol
  | _ => if 0x100 ≤ o ∧ o < 0x180 then some (.remap ((o - 0x100) / 8)) else none

/-- Group 8. -/
def locate8 (o : Nat) : Option Reg :=
  if o < 0x800 then some (.accReg (o / 8))
  else if 0x1000 ≤ o ∧ o < 0x1000 + 8 * 65 then some (.accFab ((o - 0x1000) / 8))
  else if 0x2000 ≤ o ∧ o < 0x2000 + 8 * 65 then some (.accSto ((o - 0x2000) / 8))
  else none

/-- Group 9, lane `i`. -/
def locateLane (i o : Nat) : Option Reg :=
  match o with
  | 0x00 => some (.laneStat i)
  | 0x08 => some (.winHit i)
  | 0x10 => some (.winMiss i)
  | 0x18 => some (.stageCorr i)
  | 0x20 => some (.stageUncorr i)
  | _ => none

/-- Group 9. -/
def locate9 (o : Nat) : Option Reg :=
  if o < 0x300 then locateLane (o / 0x40) (o % 0x40)
  else if 0x800 ≤ o ∧ o < 0x820 then some (.refusals ((o - 0x800) / 8))
  else if 0x1000 ≤ o ∧ o < 0x10E0 then some (.drops ((o - 0x1000) / 8))
  else if 0x8000 ≤ o then some (.regionCnt ((o - 0x8000) / 32) ((o - 0x8000) % 32 / 8))
  else none

/-- Group 10. -/
def locate10 (o : Nat) : Option Reg :=
  match o with
  | 0x00 => some .pwrStatus
  | 0x08 => some .pwrCtrl
  | 0x10 => some .laneGate
  | 0x18 => some .gateStat
  | _ => none

/-- Group 11. -/
def locate11 (o : Nat) : Option Reg :=
  match o with
  | 0x000 => some .secStatus
  | 0x200 => some .keyPf
  | 0x208 => some .keyJob
  | 0x210 => some .keyExch
  | _ => if 0x100 ≤ o ∧ o < 0x160 then some (.agreeQ (o - 0x100)) else none

/-- Group 12, Valley slot `v`. -/
def locate12 (v o : Nat) : Option Reg :=
  if o = 0 then some (.cmpState v)
  else if 0x10 ≤ o ∧ o < 0xA0 then
    if o % 16 = 0 then some (.cmpDiff v (o / 16 - 1)) else some (.cmpStep v (o / 16 - 1))
  else none

/-- Group 13. -/
def locate13 (o : Nat) : Option Reg :=
  match o with
  | 0x00 => some .cpCtrl
  | 0x08 => some .cpPc
  | 0x10 => some .istAddr
  | 0x18 => some .istData
  | 0x20 => some .basinAddr
  | _ => if 0x100 ≤ o ∧ o < 0x200 then some (.basinData ((o - 0x100) / 8)) else none

/-- The register at an 8-byte slot of the window, if any. -/
def locate (addr : Nat) : Option Reg :=
  let o := addr % 0x10000
  match addr / 0x10000 with
  | 0 =>
    (match o with
     | 0x00 => some .ident
     | 0x08 => some .version
     | 0x10 => some .fwInfo
     | 0x18 => some .caps
     | _ => none)
  | 1 =>
    (match o with
     | 0x00 => some .gstatus
     | 0x08 => some .timestamp
     | _ => none)
  | 2 => locate2 o
  | 3 => if o < 0x1000 then locate3 (o / 0x40) (o % 0x40) else none
  | 4 => locate4 o
  | 5 => if o < 0x1000 then locate5 (o / 0x100) (o % 0x100) else none
  | 6 => if o < 0x8000 then some (.desc (o / 32) (o % 32 / 8)) else none
  | 7 => locate7 o
  | 8 => locate8 o
  | 9 => locate9 o
  | 10 => locate10 o
  | 11 => locate11 o
  | 12 => if o < 0x1000 then locate12 (o / 0x100) (o % 0x100) else none
  | 13 => locate13 o
  | _ => none

/-- Is the register 8 bytes wide? -/
def Reg.wide : Reg → Bool
  | .ident | .fwInfo | .caps | .gstatus | .timestamp | .basinPart | .spillBase | .quotaRet | .quotaPend | .quotaShadow
  | .quotaCache | .timeouts | .sideband | .holdup | .qBaseCmd _ | .qBaseCpl _ | .evtBase | .irqStatus0 | .vDef _
  | .vAlpha _ | .vResend _ | .vPeer _ | .vT1trig _ | .vDrain _ | .vT1lba _ | .vT1lbas _ | .vDrainMap _ | .desc _ _
  | .bucket | .patrol | .accSto _ | .winHit _ | .winMiss _ | .gateStat | .agreeQ _ | .keyJob | .keyExch | .cmpDiff _ _
  | .cmpStep _ _ | .istData | .basinData _ => true
  | _ => false

/-- An 8-byte RC register, which refuses a 4-byte access (R303). -/
def Reg.wideRc : Reg → Bool
  | .winHit _ => true
  | .winMiss _ => true
  | _ => false

/-! ## Configuration fields: class and range (R66, R97, R109, R112, R149, R184, R208, R274, R300, chapter 12) -/

/-- Configuration classes: static, live, epoch-latched. -/
inductive FClass where
  | static
  | live
  | epoch
deriving DecidableEq, Repr

/-- A field: its place, its class, its range; `zero` admits 0 besides the range. -/
structure RField where
  lo   : Nat
  w    : Nat
  cls  : FClass
  min  : Nat
  max  : Nat
  zero : Bool
deriving DecidableEq, Repr

/-- A field that takes every value of its width. -/
def anyF (c : FClass) (lo w : Nat) : RField := { lo := lo, w := w, cls := c, min := 0, max := 2 ^ w - 1, zero := false }

/-- A field with a range. -/
def inF (c : FClass) (lo w a b : Nat) : RField := { lo := lo, w := w, cls := c, min := a, max := b, zero := false }

/-- A field with a range, or 0. -/
def zeroF (c : FClass) (lo w a b : Nat) : RField := { lo := lo, w := w, cls := c, min := a, max := b, zero := true }

/-- The configuration fields of a register; a register without any has class "—" (R304). -/
def Reg.fields : Reg → List RField
  | .basinPart => (List.range 6).map fun i => anyF .static (8 * i) 6
  | .spillBase => [anyF .static 21 20]
  | .spillSize => [inF .static 0 18 0 131072]
  | .quotaRet => [anyF .live 0 27]
  | .quotaPend => [anyF .live 0 27]
  | .quotaShadow => [anyF .live 0 27]
  | .quotaCache => [anyF .live 0 27]
  | .flow => [anyF .live 0 1, inF .live 16 13 64 4096]
  | .timeouts => [inF .live 0 17 10 100000, inF .live 32 16 1 60000]
  | .suspectGap => [inF .live 0 14 10 10000]
  | .portTimeout => [inF .live 0 16 1 10000, inF .live 16 16 1 10000]
  | .sideband => [anyF .live 0 7, anyF .live 8 8, inF .live 16 16 100 10000, inF .live 32 16 1 1000]
  | .holdup => [anyF .live 0 16, anyF .live 16 16, inF .live 32 16 10 60000]
  | .laneWm _ => [anyF .live 0 7, anyF .live 8 7]
  | .evtBase => [inF .static 0 12 0 0, anyF .static 12 52]
  | .evtCtrl => [inF .static 0 4 10 16, anyF .static 8 1]
  | .vCommit _ => [anyF .epoch 0 1, inF .epoch 8 7 1 64, anyF .epoch 16 1, anyF .epoch 17 1]
  | .vResend _ => [inF .live 0 16 50 5000, inF .live 32 32 1000 1000000]
  | .vPeer _ => [inF .live 0 32 20 100000, inF .live 32 32 100 100000]
  | .vHop _ => [inF .live 0 32 5 10000]
  | .vT1trig _ => [anyF .live 0 16, inF .live 32 17 0 86400]
  | .vT2trig _ => [inF .live 0 20 0 1000000]
  | .vDrain _ => [inF .epoch 0 8 1 255, inF .epoch 16 4 4 8, inF .live 24 3 1 4, inF .epoch 32 4 0 10]
  | .vLineage _ => [anyF .static 0 32]
  | .vT1ns _ => [anyF .static 0 32]
  | .vT1lba _ => [anyF .static 0 64]
  | .vT1lbas _ => [zeroF .static 0 64 512 (2 ^ 64 - 1)]
  | .vDrainMap _ => [anyF .static 12 29]
  | .vExport _ => [anyF .static 0 2, inF .static 16 5 8 16]
  | .bucket => [inF .live 0 16 1 65535, inF .live 32 20 1 1000000]
  | .patrol => [zeroF .live 0 17 256 65536, inF .live 32 4 2 15, inF .live 48 16 1 60000]
  | .remap _ => [anyF .static 0 14, anyF .static 14 1]
  | .accReg mid => if 0x40 ≤ mid ∧ mid ≤ 0x80 then [anyF .live 0 16, anyF .live 16 16] else []
  | .accSto _ => [anyF .live 0 32, anyF .live 32 1]
  | .laneGate => [inF .live 0 17 256 65536]
  | _ => []

/-- The value of a field in a register word. -/
def RField.get (f : RField) (w : W64) : Nat := fld w f.lo f.w

/-- Is the field's value in its range? -/
def RField.ok (f : RField) (w : W64) : Bool :=
  decide (f.min ≤ RField.get f w ∧ RField.get f w ≤ f.max) || (f.zero && decide (RField.get f w = 0))

/-- The bits of a register that its fields hold. -/
def Reg.mask (r : Reg) : W64 :=
  r.fields.foldl (fun (m : W64) f => m ||| BitVec.ofNat 64 ((2 ^ f.w - 1) * 2 ^ f.lo)) 0

/-- Does the scope of a register's fields run (R252)? -/
def Reg.runs (e : Eng) (r : Reg) : Bool :=
  match r with
  | .vCommit v | .vResend v | .vPeer v | .vHop v | .vT1trig v | .vT2trig v | .vDrain v | .vLineage v | .vT1ns v
  | .vT1lba v | .vT1lbas v | .vDrainMap v | .vExport v => slotBound (getV e v)
  | _ => engineRuns e

/-! ## Values as read -/

/-- The state in force of CP_CTRL and of the registers of the control processor, queues and rings. -/
def qCtrlWord (e : Eng) (q : Nat) : W64 :=
  let x := getQ e q
  pack [(0, b2n x.want), (4, b2n (bit e.ctl.irq q)), (8, b2n x.enabled), (9, b2n x.error), (16, x.owner.toNat)]

/-- QINDEX; a queue that is not enabled expects no reply. -/
def qIndexWord (x : Queue) : W64 := pack [(0, x.fetch), (16, x.reply), (31, b2n (x.enabled && x.phase))]

/-- GSTATUS (R10, R19, R31, R235, R252, R253, R260). -/
def gstatusWord (e : Eng) : W64 :=
  pack [(0, b2n (decide (e.side.relStep = .ready))), (1, b2n e.ctl.bootRom), (2, b2n (engineRuns e)),
    (3, b2n e.ctl.nodeFault), (8, b2n e.side.lockLoss), (9, b2n e.ctl.cfgErr), (10, b2n e.ctl.cfgLocked)]

/-- LANE_STAT (R110, R295). -/
def laneStatWord (l : Lane) (gated : Bool) : W64 :=
  pack [(0, b2n l.fifoHyst), (1, b2n (decide (4 ≤ l.q.length))), (2, b2n l.winCause), (3, b2n l.retCause),
    (4, b2n l.shadCause), (5, b2n l.rstCause), (8, l.fifo.length), (16, b2n gated)]

/-- Bits of a table of keys by virtual function. -/
def keyBits (e : Eng) (has : Keys → Bool) : W64 :=
  e.ctl.keys.foldl (fun (w : W64) k => if 1 ≤ k.1 ∧ has k.2 then setBit w (k.1 - 1) else w) 0

/-- Comparison partner `p` of a Valley: 0 to 7 the replica partners, 8 the lock-step partner. -/
def partnerAt (c : Compare) (p : Nat) : Option Partner := if p = 8 then c.lockPeer else c.partners[p]?

/-- A count of a region: non-finite, saturated, zero elements and suppressed writes (R311). -/
def regionCount (r : Region) (k : Nat) : W32 :=
  match k with
  | 0 => r.nonfin
  | 1 => r.satur
  | 2 => r.zeros
  | _ => r.suppr

/-- The words of a region descriptor (R33); words 2 and 3 are reserved. -/
def descWord (r : Region) (w : Nat) : W64 := if w = 0 then r.w0 else if w = 1 then r.w1 else 0

/-- The agreement public key as the security group shows it: zero in Returned (R284). -/
def agreeWord (e : Eng) (k : Nat) : W64 :=
  if e.side.devKeyHere then bytesWord (((agreementKey e.side.devKey).drop k).take 8) else 0

/-- The content of a register, without the side effects that a read of it may have. -/
def Reg.value (e : Eng) : Reg → W64
  | .ident => 0x15CE0
  | .version => versionWord (highestVersion e)
  | .fwInfo => match e.ctl.image with
    | some i => pack [(0, i.secVer.toNat), (32, 1)]
    | none => 0
  | .caps => 0x00400D400400100C
  | .gstatus => gstatusWord e
  | .timestamp => e.side.ts
  | .basinPart => e.regs.basinPart
  | .spillBase => e.regs.spillBase
  | .spillSize => e.regs.spillSize.setWidth 64
  | .quotaRet => e.regs.quotaRet
  | .quotaPend => e.regs.quotaPend
  | .quotaShadow => e.regs.quotaShad
  | .quotaCache => e.regs.quotaCache
  | .flow => e.regs.flow.setWidth 64
  | .timeouts => e.regs.timeouts
  | .suspectGap => e.regs.suspectGap.setWidth 64
  | .portTimeout => e.regs.portTime.setWidth 64
  | .sideband => e.regs.sideband
  | .holdup => e.regs.holdup
  | .laneWm i => (Regs.wm e.regs i).setWidth 64
  | .qBaseCmd q => (getQ e q).baseCmd
  | .qBaseCpl q => (getQ e q).baseCpl
  | .qCtrl q => qCtrlWord e q
  | .qSubDb _ => 0
  | .qCplDb _ => 0
  | .qIndex q => qIndexWord (getQ e q)
  | .evtBase => e.ctl.evt.base
  | .evtCtrl => e.ctl.evt.ctrl.setWidth 64
  | .evtDb => 0
  | .evtIndex => pack [(0, e.ctl.evt.next), (16, e.ctl.evt.held.length)]
  | .irqStatus0 => e.ctl.irq.extractLsb' 0 64
  | .irqStatus1 => (e.ctl.irq.extractLsb' 64 4).setWidth 64
  | .vDef v =>
    let x := getV e v
    pack [(0, x.tag.toNat), (16, x.n), (24, x.k), (32, x.m), (40, b2n (isDefined x))]
  | .vAlpha v => (getV e v).alpha
  | .vCommit v => (getV e v).regs.commit.setWidth 64
  | .vResend v => (getV e v).regs.resend
  | .vPeer v => (getV e v).regs.peer
  | .vHop v => (getV e v).regs.hop.setWidth 64
  | .vT1trig v => (getV e v).regs.t1trig
  | .vT2trig v => (getV e v).regs.t2trig.setWidth 64
  | .vDrain v => (getV e v).regs.drain
  | .vLineage v => (getV e v).regs.lineage.setWidth 64
  | .vT1ns v => (getV e v).regs.t1ns.setWidth 64
  | .vT1lba v => (getV e v).regs.t1lba
  | .vT1lbas v => (getV e v).regs.t1lbas
  | .vDrainMap v => (getV e v).regs.dmap
  | .vExport v => (getV e v).regs.expo.setWidth 64
  | .desc d w => descWord (getR e d) w
  | .bCorr => e.cnt.bCorr.setWidth 64
  | .bUncorr => e.cnt.bUncorr.setWidth 64
  | .bLevel => BitVec.ofNat 64 e.basin.level
  | .bucket => e.regs.bucket
  | .patrol => e.regs.patrol
  | .remap i => (Tab.get 0 e.regs.remap i).setWidth 64
  | .accReg mid => (Tab.get 0 e.regs.accReg mid).setWidth 64
  | .accFab i => (Tab.get 0 e.regs.accFab i).setWidth 64
  | .accSto f => Tab.get 0 e.regs.accSto f
  | .laneStat i => laneStatWord (getLane e i) (laneGated e i)
  | .winHit i => (getLane e i).hit
  | .winMiss i => (getLane e i).miss
  | .stageCorr i => (getLane e i).stCorr.setWidth 64
  | .stageUncorr i => (getLane e i).stUncorr.setWidth 64
  | .refusals t => (Tab.get 0 e.cnt.refuse t).setWidth 64
  | .drops c => if c = 25 then e.side.retFlits.setWidth 64 else (Tab.get 0 e.cnt.drop c).setWidth 64
  | .regionCnt d k => (regionCount (getR e d) k).setWidth 64
  | .pwrStatus => pack [(0, e.side.pwrReq.toNat), (8, e.side.pwrAck.toNat), (16, e.side.pwrState.toNat)]
  | .pwrCtrl => 0
  | .laneGate => e.regs.laneGate.setWidth 64
  | .gateStat =>
    pack ((32, e.basin.gated.toNat) :: (List.range 12).map fun i => (i, b2n (laneGated e i)))
  | .secStatus =>
    pack [(0, e.side.lc.toNat), (8, e.side.dbgLvl.toNat), (16, b2n e.side.devKeyHere), (17, b2n e.side.rngFault)]
  | .agreeQ k => agreeWord e k
  | .keyPf =>
    let k := Tab.get {} e.ctl.keys 0
    pack [(0, b2n k.job.isSome), (1, b2n k.exch.isSome)]
  | .keyJob => keyBits e fun k => k.job.isSome
  | .keyExch => keyBits e fun k => k.exch.isSome
  | .cmpState v =>
    let c := (getV e v).cmp
    pack [(0, b2n c.running), (8, c.partners.length - 1), (16, b2n c.lock)]
  | .cmpDiff v p => match partnerAt (getV e v).cmp p with
    | some x => BitVec.ofNat 64 x.differ
    | none => 0
  | .cmpStep v p => match partnerAt (getV e v).cmp p with
    | some x => x.last
    | none => 0
  | .cpCtrl => pack [(0, b2n e.ctl.cpHaltBit), (8, b2n e.ctl.cpHaltBit)]
  | .cpPc => e.ctl.cpPc.setWidth 64
  | .istAddr => e.ctl.istAddr.setWidth 64
  | .istData => e.ctl.istore.getD (e.ctl.istAddr.toNat / 8) 0
  | .basinAddr => e.regs.basinAddr.setWidth 64
  | .basinData s => Line.word e.basin.buffer s

/-! ## Access tables (R22, R276 to R279) -/

/-- Does the register-file entry of a master give it a group? -/
def accAllows (e : Eng) (mid : Byte) (wr : Bool) (g : Nat) : Bool :=
  bit (Tab.get 0 e.regs.accReg mid.toNat) (if wr then 16 + g else g)

/-- Is a master a virtual function? -/
def isVf (mid : Byte) : Bool := decide (0x40 ≤ mid.toNat ∧ mid.toNat ≤ 0x7F)

/-- Does a register stand among the queues and Valleys of a virtual function, or in a group that the function reads
whole (R277)? -/
def Reg.own (e : Eng) (fn : Byte) (r : Reg) : Bool :=
  match r with
  | .qBaseCmd q | .qBaseCpl q | .qCtrl q | .qSubDb q | .qCplDb q | .qIndex q => decide ((getQ e q).owner = fn)
  | .vDef v | .vAlpha v | .vCommit v | .vResend v | .vPeer v | .vHop v | .vT1trig v | .vT2trig v | .vDrain v
  | .vLineage v | .vT1ns v | .vT1lba v | .vT1lbas v | .vDrainMap v | .vExport v | .cmpState v | .cmpDiff v _
  | .cmpStep v _ => fnHoldsValley e fn v
  | .desc d _ => Region.empty (getR e d) || fnHoldsRegion e fn d
  | .regionCnt d _ => fnHoldsRegion e fn d
  | .laneStat _ | .winHit _ | .winMiss _ | .stageCorr _ | .stageUncorr _ | .refusals _ | .drops _ => false
  | _ => true

/-- May a master act on a register as far as its own queues and Valleys go? -/
def mayOwn (e : Eng) (mid : Byte) (r : Reg) : Bool := !isVf mid || Reg.own e mid r

end Sys2Proof.Machine
end

