-- ==== Sys2Proof/Machine/Registers.lean ====
section
/-!
DEFINITION. Machine/Registers.lean: what reads and writes of registers do (R21, R23, R235, R236, R244, R253 to R256,
R276 to R281, R292, R297, R302 to R312).
-/

namespace Sys2Proof.Machine

/-! ## Configuration fields take a value (R254, R256) -/

/-- Change the configuration registers of a Valley; epoch-latched values come into force at once unless a Crossing is
open (R254). -/
def setVregs (e : Eng) (v : Nat) (f : VRegs → VRegs) : Eng :=
  updV e v fun x =>
    let r := f x.regs
    { x with regs := if x.opened then r else { r with commitF := r.commit, drainF := r.drain } }

/-- EVT_CTRL takes a value: the ring keeps its places and its phase, and a ring that was not enabled stands still no longer
after a failed write (R239, R244). -/
def setEvtCtrl (ev : EvtRing) (w : W32) : EvtRing :=
  { ev with ctrl := w, next := ev.next % 2 ^ fld w 0 4, consumed := ev.consumed % 2 ^ fld w 0 4
            stalled := ev.stalled && bit ev.ctrl 8 }

/-- The fixed entry that a written register-file entry is narrowed by (R278, R310). -/
def accFixed (mid : Nat) : W32 := if mid = 0x80 then 0x00000E87 else accFixedVf

/-- The watermarks of a lane are judged anew (R109, R256). -/
def setWm (e : Eng) (i : Nat) (w : W32) : Eng :=
  let e1 := { e with regs := { e.regs with laneWm := Tab.set e.regs.laneWm i w } }
  updLane e1 i fun l => throttle (setFifo e1.regs i l l.fifo)

/-- A remap entry takes a value: an invalid entry that is set valid remaps its page (R219). -/
def setRemapReg (e : Eng) (i : Nat) (w : W32) : Eng :=
  if bit w 14 && !bit (Tab.get 0 e.regs.remap i) 14 then setRemap e i (fld w 0 14)
  else { e with regs := { e.regs with remap := Tab.set e.regs.remap i w } }

/-- A configuration register takes the value `w`. -/
def Reg.put (e : Eng) (r : Reg) (w : W64) : Eng :=
  let w32 : W32 := w.setWidth 32
  let rg (x : Regs) : Eng := { e with regs := x }
  match r with
  | .basinPart => rg { e.regs with basinPart := w }
  | .spillBase => rg { e.regs with spillBase := w }
  | .spillSize => rg { e.regs with spillSize := w32 }
  | .quotaRet => rg { e.regs with quotaRet := w }
  | .quotaPend => rg { e.regs with quotaPend := w }
  | .quotaShadow => rg { e.regs with quotaShad := w }
  | .quotaCache => rg { e.regs with quotaCache := w }
  | .flow => rg { e.regs with flow := w32 }
  | .timeouts => rg { e.regs with timeouts := w }
  | .suspectGap => rg { e.regs with suspectGap := w32 }
  | .portTimeout => rg { e.regs with portTime := w32 }
  | .sideband => rg { e.regs with sideband := w }
  | .holdup => rg { e.regs with holdup := w }
  | .laneWm i => setWm e i w32
  | .evtBase => updEvt e fun ev => { ev with base := w }
  | .evtCtrl => updEvt e fun ev => setEvtCtrl ev w32
  | .vCommit v => setVregs e v fun x => { x with commit := w32 }
  | .vResend v => setVregs e v fun x => { x with resend := w }
  | .vPeer v => setVregs e v fun x => { x with peer := w }
  | .vHop v => setVregs e v fun x => { x with hop := w32 }
  | .vT1trig v => setVregs e v fun x => { x with t1trig := w }
  | .vT2trig v => setVregs e v fun x => { x with t2trig := w32 }
  | .vDrain v => setVregs e v fun x => { x with drain := w }
  | .vLineage v => setVregs e v fun x => { x with lineage := w32 }
  | .vT1ns v => setVregs e v fun x => { x with t1ns := w32 }
  | .vT1lba v => setVregs e v fun x => { x with t1lba := w }
  | .vT1lbas v => setVregs e v fun x => { x with t1lbas := w }
  | .vDrainMap v => setVregs e v fun x => { x with dmap := w }
  | .vExport v => setVregs e v fun x => { x with expo := w32 }
  | .bucket => rg { e.regs with bucket := w }
  | .patrol => rg { e.regs with patrol := w }
  | .remap i => setRemapReg e i w32
  | .accReg mid => rg { e.regs with accReg := Tab.set e.regs.accReg mid (w32 &&& accFixed mid) }
  | .accSto f => rg { e.regs with accSto := Tab.set e.regs.accSto f w }
  | .laneGate => rg { e.regs with laneGate := w32 }
  | _ => e

/-! ## Rules between fields (R97, R98, R109, R111, R112, R219, R280, R307) -/

/-- The minimum bank counts, in the order of R97. -/
def minBanks (p : Nat) : Nat := [4, 1, 1, 2, 2, 1].getD p 0

/-- Do the bank counts sum to 32 with every partition at its minimum (R97)? -/
def partSumOk (r : Regs) : Bool :=
  decide (((List.range 6).map (Regs.banks r)).sum = 32) &&
    (List.range 6).all fun p => decide (minBanks p ≤ Regs.banks r p)

/-- May the partition change while these pages are valid (R98)? -/
def partMoves (e : Eng) (new : Regs) : Bool :=
  e.basin.valid.all fun p =>
    !p.2 || (decide (partOfBank e.regs (p.1 / 512) = 4) && decide (p.1 / 512 < Regs.banks new 4))

/-- Does the spill pool lie in package memory, clear of regions, parity areas and drain maps (R111)? -/
def poolOk (e : Eng) : Bool :=
  let a := Regs.spillAddr e.regs
  let n := Regs.spillBytes e.regs
  decide (n = 0) ||
    (decide (a + n ≤ pkgBytes) && !hitsRegion e a n none && !hitsParity e a n none &&
      !(e.valleys.any fun x => isDefined x.2 && decide (Valley.drainMap x.2 ≠ 0) &&
          overlaps a n (Valley.drainMap x.2) (2 * mapBytes e x.1)))

/-- Can the pool reserve the pending-parity quota (R112, R307)? -/
def pendingOk (old new : Eng) : Bool :=
  let q := Regs.quota new.regs .pending
  decide (q ≤ Regs.spillPages new.regs) &&
    (decide (q ≤ Regs.quota old.regs .pending) || decide (q ≤ spillFree new + classUse new .pending))

/-- May remap entry `i` take the value `w` (R219)? -/
def remapOk (e : Eng) (i : Nat) (w : W64) : Bool :=
  let old := Tab.get 0 e.regs.remap i
  if bit old 14 then bit w 14 && decide (fld w 0 14 = fld old 0 14)
  else !bit w 14 || !(e.regs.remap.any fun r => decide (r.1 ≠ i) && bit r.2 14 && decide (fld r.2 0 14 = fld w 0 14))

/-- Do the rules between fields hold for register `r` in the state `new` that a write would give? -/
def Reg.crossOk (old new : Eng) (r : Reg) : Bool :=
  match r with
  | .basinPart =>
    partSumOk new.regs && (decide (new.regs.basinPart = old.regs.basinPart) || partMoves old new.regs)
  | .spillBase => poolOk new
  | .spillSize => poolOk new && pendingOk old new
  | .vDrainMap _ => poolOk new
  | .quotaPend => pendingOk old new
  | .laneWm i =>
    decide (1 ≤ Regs.wmLow new.regs i ∧ Regs.wmLow new.regs i < Regs.wmHigh new.regs i ∧ Regs.wmHigh new.regs i ≤ 120)
  | _ => true

/-- Is a namespace that T1_NS is set to one that the storage-port table allows (R280)? -/
def Reg.nsOk (new : Eng) (r : Reg) : Bool :=
  match r with
  | .vT1ns v => decide ((getV new v).regs.t1ns = 0) || nsAllowed new v
  | _ => true

/-- Is a namespace that T1_NS is set to one formatted with 4 KiB LBAs (R169)? -/
def Reg.lbaOk (new : Eng) (r : Reg) : Bool :=
  match r with
  | .vT1ns v => decide ((getV new v).regs.t1ns = 0 ∨ Config.lbaSize (getV new v).regs.t1ns = 4096)
  | _ => true

/-- Is every field of the word in its range (R305)? -/
def Reg.rangeOk (r : Reg) (w : W64) : Bool := r.fields.all fun f => RField.ok f w

/-- Does the word change a static field of the register while its scope runs (R252, R253)? -/
def Reg.locks (e : Eng) (r : Reg) (w : W64) : Bool :=
  Reg.runs e r && r.fields.any fun f =>
    decide (f.cls = .static) && decide (RField.get f w ≠ RField.get f (Reg.value e r))

/-- Is the value one that a remap entry may take? -/
def Reg.entryOk (e : Eng) (r : Reg) (w : W64) : Bool :=
  match r with
  | .remap i => remapOk e i w
  | _ => true

/-- Write the held records when the ring takes them again. -/
def flushAll (e : Eng) : Eng :=
  let e1 := readHeld e
  evtFlush (e1.ctl.evt.held.length + 2) e1

/-- A register write of configuration fields (R253, R305): a change of a locked field sets the config-locked bit, a value
out of range the configuration-error bit, and either keeps the register as it is. -/
def Reg.write (e : Eng) (r : Reg) (w : W64) : Eng :=
  let w := w &&& r.mask
  let new := Reg.put e r w
  let bad := !Reg.rangeOk r w || !Reg.entryOk e r w || !Reg.crossOk e new r || !Reg.nsOk new r || !Reg.lbaOk new r
  if Reg.locks e r w then (if bad then cfgError (cfgLock e) else cfgLock e)
  else if bad then cfgError e
  else flushAll new

/-! ## CONFIGURE (R253, R257, R276, R280, R305) -/

/-- The entries of a CONFIGURE list: offset and value. -/
def configEntries (ws : List W64) : Nat → List (Nat × W64)
  | 0 => []
  | n + 1 => (fld (lword ws 0) 0 32, lword ws 1) :: configEntries (ws.drop 2) n

/-- The configuration register that an entry names. -/
def configReg (off : Nat) : Option Reg :=
  if off % 8 = 0 ∧ off < 0x100000 then
    match locate off with
    | some r => if r.fields.isEmpty then none else some r
    | none => none
  else none

/-- Place an entry of a list; a remap entry stands as written until the whole list is judged. -/
def Reg.place (e : Eng) (r : Reg) (w : W64) : Eng :=
  match r with
  | .remap i => { e with regs := { e.regs with remap := Tab.set e.regs.remap i (w.setWidth 32) } }
  | r => Reg.put e r w

/-- Apply entries one after another to `e`, starting from the engine `old`: the engine after them, whether one of them
changes a locked static field of `old`, and whether an entry was out of range. -/
def walkConfig (old : Eng) : List (Nat × W64) → Eng → Bool → Bool → Eng × Bool × Bool
  | [], e, lock, bad => (e, lock, bad)
  | (off, w0) :: rest, e, lock, bad =>
    match configReg off with
    | none => walkConfig old rest e lock true
    | some r =>
      let w := (if r.wide then w0 else w0 &&& 0xFFFFFFFF) &&& r.mask
      let good := Reg.rangeOk r w
      walkConfig old rest (if good then Reg.place e r w else e) (lock || Reg.locks old r w) (bad || !good)

/-- The remap entries that a list leaves changed come into force in its last state (R219, R305). -/
def placeRemaps (old new : Eng) : Eng :=
  (new.regs.remap.filter fun r => decide (Tab.get 0 old.regs.remap r.1 ≠ r.2)).foldl
    (fun e r => setRemapReg e r.1 r.2) { new with regs := { new.regs with remap := old.regs.remap } }

/-- May the remap entries change as a list leaves them (R219, R305)? -/
def remapsOk (old new : Eng) : Bool :=
  new.regs.remap.all fun r =>
    let o := Tab.get 0 old.regs.remap r.1
    if bit o 14 then bit r.2 14 && decide (fld r.2 0 14 = fld o 0 14)
    else !bit r.2 14 ||
      !(new.regs.remap.any fun t => decide (t.1 ≠ r.1) && bit t.2 14 && decide (fld t.2 0 14 = fld r.2 0 14))

/-- Does the access table refuse an entry of a CONFIGURE of function `fn` (R276, R277)? -/
def configDenied (e : Eng) (fn : Byte) (off : Nat) : Bool :=
  decide (off < 0x100000) && (!accAllows e fn true (off / 0x10000) || (match configReg off with
    | some r => !mayOwn e fn r
    | none => false))

/-- Do the rules between fields hold for every entry in the state after all of them (R305)? -/
def configCross (old new : Eng) (es : List (Nat × W64)) : Bool :=
  es.all fun x => match configReg x.1 with
    | some r => Reg.crossOk old new r
    | none => true

/-- Does every namespace that an entry sets stand in the storage-port table? -/
def configNs (new : Eng) (es : List (Nat × W64)) : Bool :=
  es.all fun x => match configReg x.1 with
    | some r => Reg.nsOk new r
    | none => true

/-- Is every namespace that a CONFIGURE names formatted with 4 KiB LBAs (R169)? -/
def configLba (new : Eng) (es : List (Nat × W64)) : Bool :=
  es.all fun x => match configReg x.1 with
    | some r => Reg.lbaOk new r
    | none => true

/-- CONFIGURE over its list: all entries or none. -/
def configure (e : Eng) (c : Cmd) (es : List (Nat × W64)) : Eng :=
  let r := walkConfig e es e false false
  if es.any fun x => configDenied e (fnOf e c) x.1 then reply0 (refuseAt e 0) c stDenied
  else if !configNs r.1 es then reply0 (refuseAt e 3) c stDenied
  else if r.2.1 then reply0 e c stConfigLocked
  else if r.2.2 || !remapsOk e r.1 || !configCross e r.1 es || !configLba r.1 es then
    reply0 e c stOutOfRange
  else flushAll (reply (placeRemaps e r.1) c stOK (BitVec.ofNat 64 es.length) 0)

/-! ## Writes with an effect of their own -/

/-- A base register of a queue is writable only while the queue is disabled (R235). -/
def writeBase (e : Eng) (q : Nat) (w : W64) (f : Queue → Queue) : Eng :=
  if (getQ e q).enabled || decide (fld w 0 12 ≠ 0) then cfgError e else updQ e q f

/-- Acknowledge vectors (R23); a message on vector 66 that waited for it is sent (R124). -/
def ackIrq (e : Eng) (bits : BitVec 68) : Eng :=
  let e1 := { e with ctl := { e.ctl with irq := e.ctl.irq &&& ~~~bits } }
  if bit bits 66 then flushIrq66 e1 else e1

/-- The pages of a queue's fetch buffer, and with the first queue the 1 MiB that replies and events share (R105). -/
def queuePages (e : Eng) (q : Nat) : Eng :=
  let e1 := if e.basin.owners.any fun o => decide (o.2 = .queue q) then e
    else match reservePages e 4 2 (.queue q) with
      | some r => r.2
      | none => e
  if e1.basin.owners.any fun o => decide (o.2 = .events) then e1
  else match reservePages e1 4 256 .events with
    | some r => r.2
    | none => e1

/-- Enable a disabled queue (R235, R308). -/
def enableQueue (e : Eng) (q : Nat) : Eng :=
  if (getQ e q).enabled then e
  else updQ (queuePages e q) q fun x =>
    { x with want := true, enabled := true, error := false, sub := 0, fetch := 0, cplDone := 0, reply := 0, phase := true
             buf := [], out := 0, failFetch := false, failReply := false, dropped := 0, inFlight := false }

/-- Start disabling a queue (R308). -/
def disableQueue (e : Eng) (q : Nat) : Eng := updQ e q fun x => queueSettle { x with want := false }

/-- A write of QCTRL (R308). -/
def writeQctrl (e : Eng) (q : Nat) (w : W64) : Eng :=
  let e0 := replyWritten e q
  let e1 := if bit w 4 then ackIrq e0 (BitVec.ofNat 68 (2 ^ q)) else e0
  if bit w 0 then enableQueue e1 q else disableQueue e1 q

/-- A doorbell write; it is ignored while the queue is disabled or disabling (R236). -/
def doorbell (e : Eng) (q : Nat) (f : Queue → Queue) : Eng :=
  if (getQ e q).enabled && (getQ e q).want then updQ e q f else e

/-- The event doorbell: entries become free and the held records are written (R244). -/
def writeEvtDb (e : Eng) (w : W64) : Eng :=
  flushAll (updEvt e fun ev => { ev with consumed := fld w 0 16 % 2 ^ fld ev.ctrl 0 4, stalled := false })

/-- Halt or resume the control processor, and step it (R292, R312). -/
def writeCp (m : Mem) (e : Eng) (w : W64) : Eng :=
  let e1 :=
    if bit w 0 then { e with ctl := { e.ctl with cpHaltBit := true } }
    else if e.ctl.cpHaltBit then answerAll (advance m (resumeCp e))
    else e
  if bit w 1 && e.ctl.cpHaltBit && e1.ctl.cpHaltBit then
    { e1 with ctl := { e1.ctl with cpPc := Config.freePc e1.ctl.freeCount, freeCount := e1.ctl.freeCount + 1 } }
  else e1

/-- Fill a word of the buffer of BASIN_DATA; word 31 stores the buffer (R281, R312). -/
def writeBasinData (e : Eng) (i : Nat) (w : W64) : Eng :=
  let l := Line.ofWords ((List.range 32).map fun j => if j = i then w else Line.word e.basin.buffer j)
  let e1 := { e with basin := { e.basin with buffer := l } }
  if i = 31 then storeBuffer e1 else e1

/-- The word 0 staged for a descriptor, else its applied word 0 (R309). -/
def stagedWord0 (e : Eng) (d : Nat) : W64 :=
  match e.ctl.stagedW0 with
  | some s => if s.1 = d then s.2.1 else (getR e d).w0
  | none => (getR e d).w0

/-- A write of word 0 of a descriptor is staged (R309). -/
def stageWord0 (e : Eng) (mid : Byte) (d : Nat) (w : W64) : Eng :=
  { e with ctl := { e.ctl with stagedW0 := some (d, w, mid) } }

/-- A write of word 1 of a descriptor applies a REGION_DEFINE (R309). -/
def writeWord1 (e : Eng) (mid : Byte) (d : Nat) (w1 : W64) : Eng :=
  let w0 := stagedWord0 e d
  let e1 := { e with ctl := { e.ctl with stagedW0 := none } }
  if isVf mid && !mayDefine e mid d w0 w1 then e1
  else
    let r := defineRegion e1 d w0 w1
    if r.1 = stOK then r.2 else if r.1 = stConfigLocked then cfgLock r.2 else cfgError r.2

/-- A write to a register. `full` is the written word over the register's old content, `raw` the written word over
zeros: a 4-byte access to one half of an 8-byte register acts on that half alone (R303). -/
def Reg.store (m : Mem) (e : Eng) (mid : Byte) (r : Reg) (full raw : W64) : Eng :=
  match r with
  | .gstatus =>
    { e with side := { e.side with lockLoss := e.side.lockLoss && !bit raw 8 }
             ctl := { e.ctl with cfgErr := e.ctl.cfgErr && !bit raw 9, cfgLocked := e.ctl.cfgLocked && !bit raw 10 } }
  | .qBaseCmd q => writeBase e q full fun x => { x with baseCmd := full }
  | .qBaseCpl q => writeBase e q full fun x => { x with baseCpl := full }
  | .qCtrl q => writeQctrl e q full
  | .qSubDb q => doorbell e q fun x => { x with sub := fld full 0 10 }
  | .qCplDb q => doorbell e q fun x => { x with cplDone := fld full 0 10 }
  | .evtDb => writeEvtDb e full
  | .irqStatus0 => ackIrq e (raw.setWidth 68)
  | .irqStatus1 => ackIrq e (BitVec.ofNat 68 (fld full 0 4 * 2 ^ 64))
  | .desc d w =>
    if w = 0 then stageWord0 e mid d full else if w = 1 then writeWord1 e mid d full else e
  | .pwrCtrl => if bit full 0 then wakeBit m e else e
  | .cpCtrl => writeCp m e full
  | .istAddr => { e with ctl := { e.ctl with istAddr := full.setWidth 32 &&& 0x001FFFF8 } }
  | .basinAddr => { e with regs := { e.regs with basinAddr := full.setWidth 32 &&& 0x0003FFFF } }
  | .basinData i => writeBasinData e i full
  | r => if r.fields.isEmpty then e else Reg.write e r full

/-- The content that a 4-byte write of one half leaves in the other: of descriptor word 0 what is staged. -/
def Reg.before (e : Eng) (r : Reg) : W64 :=
  match r with
  | .desc d 0 => stagedWord0 e d
  | r => Reg.value e r

/-! ## Reads with an effect of their own (R303, R306, R312) -/

/-- Is the debug port at a level that reaches the Basin and the instruction store (R292, R312)? -/
def debugInvasive (e : Eng) : Bool := decide (e.side.dbgLvl = 2)

/-- Read a counter and clear it (R306). -/
def clearCounter (e : Eng) (r : Reg) : Eng :=
  match r with
  | .bCorr => { e with cnt := { e.cnt with bCorr := 0 } }
  | .bUncorr => { e with cnt := { e.cnt with bUncorr := 0 } }
  | .winHit i => updLane e i fun l => { l with hit := 0 }
  | .winMiss i => updLane e i fun l => { l with miss := 0 }
  | .stageCorr i => updLane e i fun l => { l with stCorr := 0 }
  | .stageUncorr i => updLane e i fun l => { l with stUncorr := 0 }
  | .refusals t => { e with cnt := { e.cnt with refuse := Tab.del e.cnt.refuse t } }
  | .drops c =>
    if c = 25 then { e with side := { e.side with retFlits := 0 } }
    else { e with cnt := { e.cnt with drop := Tab.del e.cnt.drop c } }
  | _ => e

/-- The high half of TIMESTAMP: what the master's read of the low half latched, once, else the counter's (R303). -/
def timestampHigh (e : Eng) (mid : Byte) : W32 × Eng :=
  match Tab.find e.side.tsLatch mid.toNat with
  | some w => (w, { e with side := { e.side with tsLatch := Tab.del e.side.tsLatch mid.toNat } })
  | none => (e.side.ts.extractLsb' 32 32, e)

/-- A read of a register: the whole content, and the engine after it. `half` is the half that a 4-byte read names. -/
def Reg.read (m : Mem) (e : Eng) (mid : Byte) (r : Reg) (half : Option Bool) : W64 × Eng :=
  match r with
  | .timestamp =>
    (match half with
     | some false =>
       let hi : W32 := e.side.ts.extractLsb' 32 32
       (e.side.ts, { e with side := { e.side with tsLatch := Tab.set e.side.tsLatch mid.toNat hi } })
     | some true =>
       let h := timestampHigh e mid
       (h.1.setWidth 64 <<< 32, h.2)
     | none => (e.side.ts, e))
  | .istData =>
    if debugInvasive e then
      (Reg.value e r, { e with ctl := { e.ctl with istAddr := (e.ctl.istAddr + 8) &&& 0x001FFFF8 } })
    else (0, e)
  | .basinData i =>
    if !debugInvasive e then (0, if i = 0 then refuseAt e 1 else e)
    else
      let e1 := if i = 0 then loadBuffer m e else e
      (Reg.value e1 r, e1)
  | r => (Reg.value e r, clearCounter e r)

/-! ## Accesses (R21, R22, R27, R276, R297, R302, R303, R314) -/

/-- One register access. -/
structure RegAcc where
  mid   : Byte
  wr    : Bool
  addr  : Nat
  bytes : BitVec 2
  data  : W64
deriving DecidableEq, Repr

/-- The response of an access (R21). -/
def respond (e : Eng) (err : BitVec 2) (data : W64) : Eng := updIo e fun io => { io with rsp := some (err, data) }

/-- The groups that answer in Retention (R297). -/
def retentionGroup (g : Nat) : Bool := decide (g = 0 ∨ g = 1 ∨ g = 10 ∨ g = 11)

/-- Is an access refused because of Retention? -/
def asleep (e : Eng) (a : RegAcc) : Bool := decide (e.side.pwrState = 2) && !retentionGroup (a.addr / 0x10000)

/-- The size of an access in bytes; 0 for a size that is none. -/
def RegAcc.size (a : RegAcc) : Nat := if a.bytes = 2 then 4 else if a.bytes = 3 then 8 else 0

/-- Is an access unaligned, of no legal size, or beyond the window (R21, R302)? -/
def RegAcc.malformed (a : RegAcc) : Bool :=
  decide (a.size = 0) || decide (a.addr % a.size ≠ 0) || decide (0x100000 ≤ a.addr)

/-- A staged word 0 is discarded by an access of another master to the group (R309). -/
def dropStaged (e : Eng) (a : RegAcc) : Eng :=
  match e.ctl.stagedW0 with
  | some s => if a.addr / 0x10000 = 6 ∧ s.2.2 ≠ a.mid then { e with ctl := { e.ctl with stagedW0 := none } } else e
  | none => e

/-- Does a 4-byte access name the high half? -/
def RegAcc.high (a : RegAcc) : Bool := decide (a.addr % 8 = 4)

/-- The written data over the word `old` (R303). -/
def RegAcc.merge (a : RegAcc) (old : W64) : W64 :=
  if a.size = 8 then a.data
  else if a.high then (old &&& 0xFFFFFFFF) ||| ((a.data &&& 0xFFFFFFFF) <<< 32)
  else (old &&& 0xFFFFFFFF00000000) ||| (a.data &&& 0xFFFFFFFF)

/-- The data that a read of `w` gives. -/
def RegAcc.cut (a : RegAcc) (w : W64) : W64 :=
  if a.size = 8 then w else if a.high then w >>> 32 else w &&& 0xFFFFFFFF

/-- An access that the table allows, at a register. -/
def atReg (m : Mem) (e : Eng) (a : RegAcc) (r : Reg) : Eng :=
  if a.size = 4 ∧ r.wideRc then respond e 2 0
  else if !mayOwn e a.mid r || (a.size = 4 && a.high && !r.wide) then respond e 0 0
  else if a.wr then
    respond (if r.wideRc then e else Reg.store m e a.mid r (a.merge (Reg.before e r)) (a.merge 0)) 0 0
  else
    let x := Reg.read m e a.mid r (if a.size = 4 then some a.high else none)
    respond x.2 0 (a.cut x.1)

/-- In Retention the debug port, at Observe or Invasive, may read the groups 0, 1, 10 and 11 (R299, row 11). -/
def sleepRead (e : Eng) (a : RegAcc) : Bool :=
  decide (e.side.pwrState = 2 ∧ a.mid = 0x81 ∧ a.wr = false) && decide (e.side.dbgLvl = 1 ∨ e.side.dbgLvl = 2) &&
    retentionGroup (a.addr / 0x10000)

/-- Serve an access at the register target. In Retention the side domain answers the debug port's request to any other
group before the register target judges it (R27). -/
def serve (m : Mem) (e : Eng) (a : RegAcc) : Eng :=
  if a.mid = 0x81 ∧ asleep e a then respond e 1 0
  else if a.malformed then respond e 2 0
  else if asleep e a then respond e 1 0
  else if !accAllows e a.mid a.wr (a.addr / 0x10000) && !sleepRead e a then respond (refuseAt e 0) 1 0
  else
    let e1 := dropStaged e a
    match locate (a.addr / 8 * 8) with
    | none => respond e1 0 0
    | some r => atReg m e1 a r

/-- A register access of a master. While the fab domain is in reset no request of the host path transfers, and the side
domain answers the debug port (R27, R314). -/
def access (m : Mem) (e : Eng) (a : RegAcc) : Eng :=
  if fabOn e then serve m e a
  else if a.mid = 0x81 ∧ sideOn e then respond e 1 0
  else e

/-- A write access. -/
def busWrite (mid : Byte) (addr : Nat) (bytes : BitVec 2) (data : W64) (s : State) : State :=
  { s with eng := access s.mem s.eng { mid := mid, wr := true, addr := addr, bytes := bytes, data := data } }

/-- A read access. -/
def busRead (mid : Byte) (addr : Nat) (bytes : BitVec 2) (s : State) : State :=
  { s with eng := access s.mem s.eng { mid := mid, wr := false, addr := addr, bytes := bytes, data := 0 } }

end Sys2Proof.Machine
end

