-- ==== Sys2Proof/Machine/HostCmds.lean ====
section
/-!
DEFINITION. Machine/HostCmds.lean: packet fetch, failed host-memory accesses, NEGOTIATE and QUERY (R236 to R239, R247,
R258).
-/

namespace Sys2Proof.Machine

/-! ## Fetching packets (R105, R236, R237) -/

/-- Replies in the completion ring that the doorbell has not released. -/
def unreleased (x : Queue) : Nat := (x.reply + 1024 - x.cplDone) % 1024

/-- Is a packet of the queue still to be fetched? -/
def unfetched (x : Queue) : Bool := decide ((x.fetch + x.buf.length) % 1024 ≠ x.sub)

/-- May the engine fetch the next packet of a queue: the queue runs, its fetch buffer has room, and the completion ring
has an entry free for the reply? The boot ROM serves only the queues of the physical function (R260). -/
def mayFetch (e : Eng) (q : Nat) : Bool :=
  let x := getQ e q
  ctlOn e && x.enabled && !x.error && unfetched x && decide (x.buf.length < 128) &&
    decide (unreleased x + x.out < 1023) && (!e.ctl.bootRom || decide (x.owner = 0))

/-- A packet arrives in the fetch buffer: it is written into its word (R105, R212). -/
def fetchPacket (e : Eng) (q : Nat) (p : BitVec 512) : Eng :=
  let e1 := match queueWord e q ((getQ e q).fetch + (getQ e q).buf.length) with
    | some k => writeWord e k
    | none => e
  updQ e1 q fun x => { x with buf := x.buf ++ [p], out := x.out + 1 }

/-- COMMAND_FETCH (R237). -/
def execCommandFetch (q : Fin 64) (packet : BitVec 512) (s : State) : Host.Outcome State Fault Refusal :=
  .next { s with eng :=
            if mayFetch s.eng q.val then answerAll (fetchPacket (repliesWritten s.eng) q.val packet) else s.eng }

/-! ## Failed accesses (R239, R244) -/

/-- The queue stops: its error bit, and QUEUE_FAULT; the final one at once when no fetched command is left. -/
def stopQueue (e : Eng) (q : Nat) (f : Queue → Queue) : Eng :=
  let e1 := updQ e q fun x => f { x with error := true }
  queueFinal (queueFault e1 q false) q

/-- A packet fetch fails. -/
def fetchFails (e : Eng) (q : Nat) : Eng :=
  if mayFetch e q then stopQueue e q fun x => { x with failFetch := true, failReply := false, dropped := 0 } else e

/-- Take the newest write of a source out of host memory. -/
def dropWrite (src : HmSrc) : List HmWrite → Option (HmWrite × List HmWrite)
  | [] => none
  | w :: r =>
    if w.src = src then some (w, r)
    else match dropWrite src r with
      | some (x, r') => some (x, w :: r')
      | none => none

/-- The newest reply of a queue cannot be written: it is dropped and counted, and its ring entry stays free. A queue that
this reply left disabled has stopped as well. When the reply was the last one of a queue that had stopped already, the
final QUEUE_FAULT counts it (R239). -/
def replyFails (e : Eng) (q : Nat) : Eng :=
  if !(getQ e q).enabled && !(getQ e q).inFlight then e
  else match dropWrite (.reply q) e.io.hm with
    | none => e
    | some (_, hm) =>
      let e0 := drop (updIo e fun io => { io with hm := hm }) 26
      let e1 := if (getQ e q).messaged then withdrawIrq e0 q else e0
      let e2 := updQ e1 q fun x =>
        if x.enabled then
          { x with reply := (x.reply + 1023) % 1024, phase := if x.reply = 0 then !x.phase else x.phase, messaged := false
                   inFlight := false }
        else { x with messaged := false, inFlight := false }
      if (getQ e q).error then
        let e3 := updQ e2 q fun x => { x with dropped := x.dropped + 1 }
        if (getQ e3 q).finalDue then updQ (queueFinal e3 q) q queueSettle else e3
      else stopQueue e2 q fun x => { x with failReply := true, failFetch := false, dropped := 1 }

/-- The address words of a command whose lists may stand in host memory. -/
def listWords (p : BitVec 512) : List W64 :=
  match (pkOp p).toNat with
  | 0x02 => [pkw p 1]
  | 0x11 => [pkw p 5]
  | 0x32 => [pkw p 3]
  | 0x34 => [pkw p 2]
  | 0x38 => [pkw p 3]
  | 0x39 => [pkw p 3]
  | 0x41 => [pkw p 2, pkw p 3]
  | 0x45 => [pkw p 2]
  | 0x78 => [pkw p 2]
  | 0x7E => [pkw p 1]
  | _ => []

/-- The read of the parameter list of the command at a queue's head fails: it ends with OUT_OF_RANGE. -/
def paramFails (e : Eng) (q : Nat) : Eng :=
  match headReady e q with
  | none => e
  | some p =>
    if !(listWords p).any isHost || (preCheck e q p).isSome then e
    else answerAll (reply (popHead e q) (cmdOf q p) stOutOfRange 0 0x8000000000000000)

/-- The newest event cannot be written: it is held as if the ring were full (R239, R244). -/
def eventFails (e : Eng) : Eng :=
  match dropWrite .event e.io.hm with
  | none => e
  | some (w, hm) =>
    let e0 := updIo e fun io => { io with hm := hm }
    let e1 := match e.ctl.evt.messaged with
      | some v => withdrawIrq e0 v
      | none => e0
    updEvt e1 fun ev =>
      { ev with next := (ev.next + 2 ^ fld ev.ctrl 0 4 - 1) % 2 ^ fld ev.ctrl 0 4
                phase := if ev.next = 0 then !ev.phase else ev.phase
                held := recOf w.data :: ev.held, stalled := true, messaged := none }

/-- The outcome of a failed access. -/
def hostFails (e : Eng) : HmAccess → Eng
  | .fetch q => fetchFails e q.val
  | .reply q => replyFails e q.val
  | .param q => paramFails e q.val
  | .event => eventFails e

/-- HOST_ACCESS_FAIL (R239). -/
def execHostAccessFail (a : HmAccess) (s : State) : Host.Outcome State Fault Refusal :=
  .next { s with eng := if ctlOn s.eng then hostFails s.eng a else s.eng }

/-! ## NEGOTIATE (R247) -/

/-- NEGOTIATE (R247): a later NEGOTIATE is refused while the function has another command outstanding. -/
def execNegotiate (q : Fin 64) (s : State) : Host.Outcome State Fault Refusal :=
  .next (runCmd q.val 0x01 s fun e c p =>
    let fn := fnOf e c
    let offer := (pkf p 1 0 4, pkf p 1 4 8)
    let v := chooseVersion (highestVersion e) offer
    if Tab.has e.ctl.negotiated fn.toNat && decide (1 < outstanding e fn) then reply0 e c stOutOfRange
    else
      let ctl := { e.ctl with negotiated := Tab.set e.ctl.negotiated fn.toNat (v.1 + 16 * v.2) }
      reply { e with ctl := ctl } c stOK (versionWord v) (versionWord (highestVersion e)))

/-! ## QUERY (R258) -/

/-- The number of a phase (QUERY item 0x02). -/
def phaseNum : Phase → Nat
  | .idle => 0
  | .opened => 1
  | .closing => 2
  | .halted => 3
  | .frozen => 4

/-- The number of an EXPORT_STATE (QUERY item 0x06). -/
def expNum : ExpState → Nat
  | .none => 0
  | .running => 1
  | .incomplete => 2
  | .complete => 3

/-- Item 0x02: the Valley state. -/
def queryState (e : Eng) (v : Nat) : List W64 :=
  let x := getV e v
  let rs := reachList e v
  let un := (rs.filter fun r => (getReach x r.num).unbuilt).length
  let st := settleOf e v
  [pack [(0, phaseNum x.phase), (3, b2n (isJoined x)), (4, b2n x.parity), (5, b2n (decide (un ≠ 0))), (6, b2n x.poisoned),
     (7, b2n x.opened), (8, x.self), (14, b2n (Valley.crossMode x))],
   x.epoch, x.step, x.live,
   pack [(0, st.1), (32, b2n x.landFold), (33, b2n x.crossFold), (34, b2n x.recorded)],
   st.2, pack [(0, rs.length), (32, un)], (shapeCheck e v).setWidth 64]

/-- Item 0x03: the pairs of inbound stream and Reach that fail R84. -/
def queryPairs (e : Eng) (v : Nat) : List W64 :=
  let x := getV e v
  (failingPairs e v).flatMap fun f =>
    let h := getHold x f.1
    let s := Tab.find h.seals f.2
    [pack [(0, f.1), (32, f.2), (40, b2n s.isSome)],
     pack [(0, match s with
        | some t => t.count.toNat
        | none => 0), (32, Tab.get 0 h.applied f.2)]]

/-- A set of logical indexes by what is known of the peers. -/
def peerBits (x : Valley) (f : Peer → Bool) : W64 :=
  x.peers.foldl (fun (w : W64) p => if f p.2 then setBit w p.1 else w) 0

/-- Item 0x04: suspicions. -/
def queryPeers (e : Eng) (v : Nat) : List W64 :=
  let x := getV e v
  [peerBits x (·.suspect), peerBits x (·.reported), peerBits x (·.acked), 0] ++
    (List.range 64).map fun i => (Tab.get {} x.peers i).lastHeard

/-- Is an identity one of a run's (R140)? -/
def Run.named (r : Run) (ident : Nat) : Bool := r.groups.any fun g => decide (ident / 4 * 4 = g.ident)

/-- Item 0x05: the counters of a run, live or ended (R140). -/
def queryRun (m : Mem) (e : Eng) (v ident : Nat) : List W64 :=
  let x := getV e v
  match (x.runs ++ x.oldRuns).find? fun r => Run.named r ident with
  | none => List.replicate 8 0
  | some r =>
    let w := runWords m e v r
    let live := x.runs.any fun q => Run.named q ident
    let t := if x.self = r.dest then w else (0, 0, 0, 0)
    [BitVec.ofNat 64 r.nRecv, BitVec.ofNat 64 r.nFwd, BitVec.ofNat 64 r.nDrop, r.maxRes, r.maxAck,
     pack [(0, r.maxAckBy), (8, b2n live)], pack [(0, t.1), (32, t.2.1)], pack [(0, t.2.2.1), (32, t.2.2.2)]]

/-- Item 0x06: the export. -/
def queryExport (e : Eng) (v : Nat) : List W64 :=
  let x := (getV e v).expo
  [BitVec.ofNat 64 (expNum x.st), x.round, BitVec.ofNat 64 x.prefixN, x.anchor]

/-- Item 0x07: the comparisons. -/
def queryCompare (e : Eng) (v : Nat) : List W64 :=
  (List.range 9).flatMap fun p => [Reg.value e (.cmpDiff v p), Reg.value e (.cmpStep v p)]

/-- The registers of group 9 in offset order (R258). -/
def group9 : List Reg :=
  ((List.range 12).flatMap fun i => [.laneStat i, .winHit i, .winMiss i, .stageCorr i, .stageUncorr i]) ++
    (List.range 4).map .refusals ++ (List.range 28).map .drops ++
    (List.range 1024).flatMap fun d => (List.range 4).map (.regionCnt d)

/-- Item 0x08: the counters and telemetry that the function may read. -/
def queryCounters (e : Eng) (fn : Byte) : List W64 :=
  group9.map fun r => if mayOwn e fn r then Reg.value e r else 0

/-- The content of an item, or none where the item, its selector or its slot is none. -/
def queryItem (m : Mem) (e : Eng) (fn : Byte) (item sel v : Nat) : Option (List W64) :=
  match item with
  | 1 =>
    if sel ≤ 1023 then some ((List.range 4).map fun w => descWord (getR e sel) w)
    else none
  | 8 => some (queryCounters e fn)
  | _ =>
    if !isDefined (getV e v) then none
    else match item with
      | 2 => some (queryState e v)
      | 3 => some (queryPairs e v)
      | 4 => some (queryPeers e v)
      | 5 => some (queryRun m e v (sel % 65536))
      | 6 => some (queryExport e v)
      | 7 => some (queryCompare e v)
      | _ => none

/-- May the function read the item: a descriptor of its own, or group 9 (R250, R276)? -/
def queryDenied (e : Eng) (fn : Byte) (item sel : Nat) : Option Eng :=
  if item = 1 ∧ sel ≤ 1023 ∧ !fnHoldsRegion e fn sel then some e
  else if item = 8 ∧ !accAllows e fn false 9 then some (refuseAt e 0)
  else none

/-- QUERY (R258). A buffer that is too short receives nothing. -/
def execQuery (q : Fin 64) (s : State) : Host.Outcome State Fault Refusal :=
  .next (runCmd q.val 0x03 s fun e c p =>
    let item := pkf p 1 0 8
    let sel := (pkw p 2).toNat
    let size := pkf p 4 0 32
    match queryDenied e (fnOf e c) item sel with
    | some e1 => reply0 e1 c stDenied
    | none =>
      match queryItem s.mem e (fnOf e c) item sel (pkValley p) with
      | none => reply0 e c stOutOfRange
      | some ws =>
        let need := 8 * ws.length
        if !addrOk (pkw p 3) 8 (if size < need then 0 else need) pkgBytes then reply0 e c stOutOfRange
        else if size < need then reply e c stOK 0 (BitVec.ofNat 64 need)
        else reply (writeParam s.mem e (pkw p 3) ws) c stOK (BitVec.ofNat 64 need) (BitVec.ofNat 64 need))

end Sys2Proof.Machine
end

