-- ==== Sys2Proof/Machine/Egress.lean ====
section
/-!
DEFINITION. Machine/Egress.lean: the packets the engine sends: their layouts (R74 to R83, R266) and the egress
scheduler (R103).
-/

namespace Sys2Proof.Machine

/-! ## Layouts of control transactions (R79 to R83, R266) -/

/-- What a control transaction puts after the common header's first two words: type, words 2 and 3, count and
entry bytes. -/
structure MsgParts where
  typ   : Nat
  w2    : W64
  w3    : W64
  count : Nat
  body  : List Byte
deriving DecidableEq, Repr

/-- The entry of a digest transaction (R83). -/
def digBytes (d : DigEnt) : List Byte := natBytes 4 d.reach ++ natBytes 4 d.tile.toNat ++ wordBytes d.digest

/-- The layout of each control transaction. -/
def msgParts : Msg → MsgParts
  | .reachReady es =>
    { typ := 3, w2 := 1, w3 := 0, count := es.length
      body := es.flatMap fun x => wordBytes (pack [(0, x.1), (32, b2n x.2)]) }
  | .landingReady skew => { typ := 3, w2 := 2, w3 := pack [(0, b2n skew)], count := 0, body := [] }
  | .close step p => { typ := 3, w2 := 3, w3 := step, count := 1, body := wordBytes (pack [(0, b2n p)]) }
  | .drained => { typ := 3, w2 := 4, w3 := 0, count := 0, body := [] }
  | .resend a win =>
    { typ := 3, w2 := 5, w3 := pack [(0, a.toNat)], count := 4
      body := (List.range 4).flatMap fun i => wordBytes (win.extractLsb' (64 * i) 64) }
  | .hopAck ident lines =>
    { typ := 3, w2 := 6, w3 := pack [(0, ident.toNat), (16, lines.toNat)], count := 0, body := [] }
  | .reachFold relay rs =>
    { typ := 4, w2 := pack [(0, 1), (8, b2n relay)], w3 := 0, count := rs.length
      body := rs.flatMap fun r => wordBytes (pack [(0, r)]) }
  | .landingFold relay => { typ := 4, w2 := pack [(0, 2), (8, b2n relay)], w3 := 0, count := 0, body := [] }
  | .crossingFold relay => { typ := 4, w2 := pack [(0, 3), (8, b2n relay)], w3 := 0, count := 0, body := [] }
  | .watershed step => { typ := 4, w2 := 4, w3 := step, count := 0, body := [] }
  | .settle first l c r b =>
    { typ := 4, w2 := 5, w3 := pack [(0, first.toNat), (32, b2n l), (33, b2n c), (34, b2n r)], count := 1
      body := wordBytes b }
  | .refuse st => { typ := 4, w2 := 6, w3 := pack [(0, st.toNat)], count := 0, body := [] }
  | .digests kind step es =>
    { typ := 6, w2 := pack [(0, kind.toNat)], w3 := step, count := es.length, body := es.flatMap digBytes }
  | .beacon step => { typ := 6, w2 := 3, w3 := step, count := 0, body := [] }
  | .hello h =>
    { typ := 6
      w2 := pack [(0, 5), (8, b2n h.complete), (9, b2n h.parity), (10, b2n h.answer)]
      w3 := pack [(0, h.shape.toNat), (32, h.base.toNat)], count := 1
      body := natBytes 4 h.reaches.toNat ++ natBytes 4 (h.n + 256 * h.k + 65536 * h.m) ++ wordBytes h.alpha }

/-- Drop cause-free sending: put a packet on a channel (R17). -/
def transmit (e : Eng) (chan v : Nat) (dst : W16) (cls : BitVec 2) (flits : List Line) : Eng :=
  updIo e fun io =>
    { io with tx := { chan := chan, dst := dst, ptag := tagOfFn e (getV e v).fn, cls := cls, abort := false
                      flits := flits } :: io.tx }

/-- Remember when a peer was last sent to (R119). -/
def sentTo (e : Eng) (v i : Nat) : Eng := updPeer e v i fun p => { p with lastSent := e.side.ts }

/-- Does a control transaction go to a comparison partner, a node of another Valley (R226, R229)? -/
def toPartner : Msg → Bool
  | .digests kind _ _ => decide (kind = 2 ∨ kind = 4)
  | _ => false

/-- Send a control transaction on a channel; one to a peer of the Valley counts for its beacon (R119). -/
def sendMsg (e : Eng) (chan : Nat) (c : CtlOut) : Eng :=
  let p := msgParts c.msg
  let e1 := transmit (readOwned e (.control c.v)) chan c.v c.node 0 (flitsOf p.typ c.tag c.from_ c.dest p.count c.epoch p.w2 p.w3 p.body)
  if toPartner c.msg then e1 else sentTo e1 c.v c.dest

/-! ## Rings at a channel (R79, R101, R103) -/

/-- Does some staging FIFO still hold blocks of a stream and Reach? -/
def stagedBlocks (e : Eng) (v d rho : Nat) : Bool :=
  e.lanes.any fun l => l.2.fifo.any fun w => w.ends.any fun s =>
    decide (s.v = v ∧ s.d = d) && (match s.body with
      | .block _ r _ _ _ => decide (r = rho)
      | .sealed _ _ _ _ => false)

/-- The seal entries at the head of a ring that may go now: at most 14, all of one step counter. -/
def headSeals (e : Eng) (v d : Nat) : Nat → W64 → List OutEntry → List OutEntry
  | 0, _, _ => []
  | n + 1, step, .sealed r c g s :: rest =>
    if s = step ∧ !stagedBlocks e v d r then .sealed r c g s :: headSeals e v d n step rest else []
  | _, _, _ => []

/-- The step counter of the seal at the head of a ring. -/
def headStep : List OutEntry → W64
  | .sealed _ _ _ s :: _ => s
  | _ => 0

/-- The seals that the ring may send now. -/
def readySeals (e : Eng) (v d : Nat) : List OutEntry :=
  let es := (getOut (getV e v) d).entries
  headSeals e v d 14 (headStep es) es

/-- The wire bytes of a ring entry; a reference entry whose record is gone has none. -/
def wireBytes (x : Valley) : OutEntry → Option (List Byte)
  | .inline q rho _ _ b _ => some (wordBytes (pack [(0, q.toNat), (32, rho)]) ++ b)
  | .ref q rho line row =>
    match recordOf x rho line row q with
    | some r => some (entryBytes q rho (coef row (line / 16 % x.k)) r.block)
    | none => none
  | .sealed r c g _ => some (natBytes 4 r ++ natBytes 4 c.toNat ++ wordBytes g)

/-- The consecutive block entries at the head of a ring that one packet takes, up to 8 flits: how many entries
are used up, and the wire bytes of those that are sent. -/
def takeBlocks (x : Valley) : List OutEntry → Nat → Nat × List (List Byte)
  | [], _ => (0, [])
  | .sealed _ _ _ _ :: _, _ => (0, [])
  | t :: rest, room =>
    match wireBytes x t with
    | none => let r := takeBlocks x rest room; (r.1 + 1, r.2)
    | some bs =>
      if bs.length ≤ room then
        let r := takeBlocks x rest (room - bs.length)
        (r.1 + 1, bs :: r.2)
      else (0, [])

/-- The next delta-accumulate packet of a ring: entries used up and wire bytes. -/
def nextBlocks (e : Eng) (v d : Nat) : Nat × List (List Byte) :=
  takeBlocks (getV e v) (getOut (getV e v) d).entries 2016

/-- The rings of a channel: channel (ring number mod 12), ring number 256·v + d. -/
def ringsOf (e : Eng) (chan : Nat) : List (Nat × Nat) :=
  e.valleys.flatMap fun (v, x) =>
    if !isJoined x || x.faulted then []
    else (distances x).filterMap fun d =>
      if (256 * v + d) % 12 = chan ∧ isLive x (outPeer x d) then some (v, d) else none

/-- Take entries off the head of a ring. -/
def popRing (e : Eng) (v d n : Nat) : Eng :=
  trimOut (updOut e v d fun s => { s with entries := s.entries.drop n }) v d

/-- The engine reads the first `n` entries of a ring: their descriptors, and the inline ones in their staged pages. -/
def readEntries (e : Eng) (v d n : Nat) : Eng :=
  let s := getOut (getV e v) d
  engineReads e fun k =>
    (s.descs.zipIdx.any fun (g, j) => decide (g = k / 16) && (List.range n).any (descHits (k % 16) j)) ||
      ((entrySpans (k / 16) s.entries (s.pageEnd (k / 16))).1.take n).any fun p => decide (p.2 ≠ 0) && spanHits p (k % 16)

/-- Send the seals at the head of a ring in one packet, class flagged store (R75, R79). -/
def sendSeals (e : Eng) (chan v d : Nat) : Eng :=
  let x := getV e v
  let ss := readySeals e v d
  let i := outPeer x d
  let body := (ss.filterMap (wireBytes x)).flatten
  let e1 := transmit (readEntries e v d ss.length) chan v (nodeOf x i) 1
    (flitsOf 2 x.tag x.self i ss.length x.epoch (headStep ss) 0 body)
  sentTo (popRing e1 v d ss.length) v i

/-- Send a delta-accumulate packet of a ring, class ordered per destination (R75, R77). -/
def sendBlocks (e : Eng) (chan v d : Nat) : Eng :=
  let x := getV e v
  let b := nextBlocks e v d
  let i := outPeer x d
  let e0 := readEntries e v d b.1
  let e1 := if b.2.isEmpty then e0 else
    sentTo (transmit e0 chan v (nodeOf x i) 2 (flitsOf 1 x.tag x.self i b.2.length x.epoch 0 0 b.2.flatten)) v i
  popRing e1 v d b.1

/-! ## Rebuild hops (R82, R103) -/

/-- Send the first waiting rebuild-hop packet of an identity. -/
def sendHop (e : Eng) (chan v ident : Nat) : Eng :=
  let x := getV e v
  match x.hops.find? fun h => decide (h.ident = ident) with
  | none => e
  | some h =>
    let w2 := pack [(0, h.reach), (32, h.group)]
    let w3 := pack [(0, h.ident), (16, h.hop), (24, h.pos), (31, b2n h.parity)]
    let head := Line.ofWords [hdrWord0 5 x.tag x.self h.dst 16 17, x.epoch, w2, w3]
    let e1 := updV e v fun x => { x with hops := x.hops.erase h }
    sentTo (transmit e1 chan v (nodeOf x h.dst) 0 (head :: h.tile)) v h.dst

/-! ## Deficit round robin (R103) -/

/-- A source of the round robin. -/
inductive Source where
  | ring (v d : Nat)
  | hop (v ident : Nat)
deriving DecidableEq, Repr

/-- The place of a source in the round. -/
def Source.place : Source → Nat
  | .ring v d => 256 * v + d
  | .hop v i => 65536 * (v + 1) + i

/-- The sources of a channel with something to send: its rings with a block at their head, and one source per
rebuild identity with packets waiting. -/
def sources (e : Eng) (chan : Nat) : List Source :=
  ((ringsOf e chan).filter fun s => decide (0 < (nextBlocks e s.1 s.2).1)).map (fun s => Source.ring s.1 s.2) ++
  e.valleys.flatMap fun (v, x) =>
    if x.faulted then [] else (x.hops.map (·.ident)).eraseDups.map fun i => Source.hop v i

/-- The length in flits of a source's next packet. -/
def Source.flits (e : Eng) : Source → Nat
  | .ring v d => (32 + ((nextBlocks e v d).2.map List.length).sum + 255) / 256
  | .hop _ _ => 17

/-- The deficit of a source. -/
def getDeficit (e : Eng) : Source → Nat
  | .ring v d => (getOut (getV e v) d).deficit
  | .hop v i => Tab.get 0 (getV e v).hopDef i

/-- Set the deficit of a source. -/
def setDeficit (e : Eng) (s : Source) (n : Nat) : Eng :=
  match s with
  | .ring v d => updOut e v d fun o => { o with deficit := n }
  | .hop v i => updV e v fun x => { x with hopDef := if n = 0 then Tab.del x.hopDef i else Tab.set x.hopDef i n }

/-- Visit sources in turn, each adding a quantum of one flit, until one may send its next packet. -/
def visit : Nat → List Source → Eng → Eng × Option Source
  | 0, _, e => (e, none)
  | _, [], e => (e, none)
  | fuel + 1, s :: rest, e =>
    let n := getDeficit e s + 1
    if s.flits e ≤ n then (setDeficit e s (n - s.flits e), some s)
    else visit fuel (rest ++ [s]) (setDeficit e s n)

/-- The round robin of a channel sends one packet. -/
def roundRobin (e : Eng) (chan : Nat) : Eng :=
  let ss := sortBy Source.place (sources e chan)
  let at_ := Tab.get 0 e.io.drrAt chan
  let turn := (ss.filter fun s => decide (at_ ≤ s.place)) ++ ss.filter fun s => decide (s.place < at_)
  match visit (18 * turn.length) turn e with
  | (e1, none) => e1
  | (e1, some s) =>
    let e2 := updIo e1 fun io => { io with drrAt := Tab.set io.drrAt chan (s.place + 1) }
    match s with
    | .ring v d => sendBlocks e2 chan v d
    | .hop v i => sendHop e2 chan v i

/-- One packet boundary of a channel: a control transaction first, then seals at the head of a ring of the
channel, then the round robin (R103). -/
def egress (e : Eng) (chan : Nat) : Eng :=
  if !ctlOn e then e
  else match e.io.ctlOut.find? fun c => !(getV e c.v).faulted && !ownMail e c with
    | some c => sendMsg (updIo e fun io => { io with ctlOut := io.ctlOut.erase c }) chan c
    | none =>
      match (ringsOf e chan).find? fun s => !(readySeals e s.1 s.2).isEmpty with
      | some s => sendSeals e chan s.1 s.2
      | none => roundRobin e chan

end Sys2Proof.Machine
end

