-- ==== Sys2Proof/Machine/LaneCmds.lean ====
section
/-!
DEFINITION. Machine/LaneCmds.lean: the meanings of the lane, staging and timer rows.
-/

namespace Sys2Proof.Machine

/-! ## Lanes (R12, R13, R15, R110, R313) -/

/-- A lane goes on, and after it the engine's own writes that may have waited for it (R195). -/
def goLane (m : Mem) (e : Eng) (i : Nat) : Mem × Eng :=
  let r := runLane m e i
  (r.1, runExports r.1 r.2)

/-- READ_SNOOP: a coded read enters the lane's window (R12). -/
def execReadSnoop (lane : Fin 12) (line : BitVec 33) (data : Line) (s : State) : Host.Outcome State Fault Refusal :=
  .next { s with eng := if ctlOn s.eng then snoop s.eng lane.val line.toNat data else s.eng }

/-- CODED_WRITE: a lane accepts a coded write and works on it (R13, R313). No write is accepted while the lanes
are in reset or in Retention; a write beyond the lane's room is against R15 and R106. -/
def execCodedWrite (lane : Fin 12) (line : BitVec 33) (be : BitVec 256) (new : Line) (s : State) :
    Host.Outcome State Fault Refusal :=
  if !ctlOn s.eng then .next s
  else if 8 ≤ (getLane s.eng lane.val).q.length then .fault .laneOverrun
  else .next (laneResult s (goLane s.mem (acceptWrite s.eng lane.val line.toNat be new) lane.val))

/-- OLD_LINE_RETURN: the controller returns the old line that the lane asked for (R13). -/
def execOldLineReturn (lane : Fin 12) (data : Line) (s : State) : Host.Outcome State Fault Refusal :=
  if !ctlOn s.eng then .next s
  else match firstUnknown (getLane s.eng lane.val).q with
    | none => .fault .oldLineUnasked
    | some _ =>
      .next (laneResult s (goLane s.mem
        (updLane s.eng lane.val fun l => { l with q := giveOld data l.q }) lane.val))

/-- HELD_WRITE_RELEASE: a write held under R62 is judged again (R313). -/
def execHeldWriteRelease (lane : Fin 12) (s : State) : Host.Outcome State Fault Refusal :=
  if ctlOn s.eng && (getLane s.eng lane.val).winCause then .next (laneResult s (goLane s.mem s.eng lane.val))
  else .next s

/-- THROTTLE_CAUSE_CLEARED: the lane goes on, and its throttle rises once no cause holds (R110). -/
def execThrottleCauseCleared (lane : Fin 12) (s : State) : Host.Outcome State Fault Refusal :=
  if !ctlOn s.eng then .next s
  else
    let r := goLane s.mem s.eng lane.val
    .next (laneResult s (r.1, raiseThrottle r.2 lane.val))

/-- LANE_GATE: in Drowse, the clock of a lane idle for LANE_GATE_IDLE ck_core cycles of half a
nanosecond is gated: in that time it has taken no snoop and no coded write and presented no accumulate (R295). -/
def gateLane (e : Eng) (i : Nat) : Eng :=
  let l := getLane e i
  let acc := Tab.get (0, l.idleFrom) e.io.accLane i
  if e.side.pwrState = 1 ∧ ctlOn e ∧ l.q.isEmpty ∧ l.fifo.isEmpty ∧
      Regs.laneGateIdle e.regs ≤ 2 * (e.side.ts - l.idleFrom).toNat ∧
      Regs.laneGateIdle e.regs ≤ 2 * (e.side.ts - acc.2).toNat then
    updLane e i fun l => { l with gated := true, gateAcc := acc.1 }
  else e

def execLaneGate (lane : Fin 12) (s : State) : Host.Outcome State Fault Refusal :=
  .next { s with eng := gateLane s.eng lane.val }

/-! ## Staging, retention, rings (R101 to R104, R106) -/

/-- STAGING_WORD_OUT (R106, R108): the FIFO has room again, so the lane goes on. -/
def execStagingWordOut (lane : Fin 12) (err : StagingErr) (s : State) : Host.Outcome State Fault Refusal :=
  if ctlOn s.eng then .next (laneResult s (goLane s.mem (stagingOut s.eng lane.val err) lane.val)) else .next s

/-- RETAINED_RECORD_WRITE (R101). -/
def execRetainedRecordWrite (v : Fin 16) (s : State) : Host.Outcome State Fault Refusal :=
  .next { s with eng := if ctlOn s.eng then writeRecord s.eng v.val else s.eng }

/-- DEMOTE (R102). -/
def execDemote (s : State) : Host.Outcome State Fault Refusal :=
  .next { s with eng := if ctlOn s.eng then demote s.eng else s.eng }

/-- EGRESS_SEND (R103). -/
def execEgressSend (chan : Fin 12) (s : State) : Host.Outcome State Fault Refusal :=
  .next { s with eng := egress s.eng chan.val }

/-- INBOUND_RING_APPLY (R104). -/
def execInboundRingApply (v : Fin 16) (d : Fin 64) (s : State) : Host.Outcome State Fault Refusal :=
  .next { s with eng := if ctlOn s.eng then ringApply s.eng v.val d.val else s.eng }

/-- HELD_SEAL_RELEASE (R198). -/
def execHeldSealRelease (v : Fin 16) (s : State) : Host.Outcome State Fault Refusal :=
  .next { s with eng := if ctlOn s.eng then settleV s.mem (releaseSeals s.eng v.val) v.val else s.eng }

/-! ## Timers of the commit path, the peers, the joins and the rebuild -/

/-- RESEND_TIMER (R73). -/
def execResendTimer (v : Fin 16) (d : Fin 64) (reach : Nat) (s : State) : Host.Outcome State Fault Refusal :=
  .next { s with eng := if ctlOn s.eng then resendTimer s.eng v.val d.val reach else s.eng }

/-- BEACON_DUE (R119). -/
def execBeaconDue (v : Fin 16) (i : Fin 64) (s : State) : Host.Outcome State Fault Refusal :=
  .next { s with eng := if ctlOn s.eng then beaconDue s.eng v.val i.val else s.eng }

/-- PEER_SILENCE (R120, R122). -/
def execPeerSilence (v : Fin 16) (i : Fin 64) (s : State) : Host.Outcome State Fault Refusal :=
  .next { s with eng := if ctlOn s.eng then peerSilence s.eng v.val i.val else s.eng }

/-- HOLDOFF_END (R122). -/
def execHoldoffEnd (v : Fin 16) (i : Fin 64) (s : State) : Host.Outcome State Fault Refusal :=
  .next { s with eng := if ctlOn s.eng then holdoffEnd s.eng v.val i.val else s.eng }

/-- SUSPECT_GAP_END (R124). -/
def execSuspectGapEnd (s : State) : Host.Outcome State Fault Refusal :=
  .next { s with eng := if ctlOn s.eng then flushIrq66 s.eng else s.eng }

/-- FENCE_TIMEOUT elapses (R92). -/
def fenceTimer (e : Eng) (v : Nat) : Eng :=
  let x := getV e v
  match x.fenceWait with
  | none => e
  | some f => if x.fenceTimeout ≤ since e f.since then endFence e v stFenceTimeout else e

/-- FENCE_TIMER (R92); no wait ends while the control processor is halted (R292). -/
def execFenceTimer (v : Fin 16) (s : State) : Host.Outcome State Fault Refusal :=
  .next { s with eng := if cpRuns s.eng then advance s.mem (fenceTimer s.eng v.val) else s.eng }

/-- STANDIN_TRANSFER_TIMEOUT (R142). -/
def execStandinTransferTimeout (v : Fin 16) (s : State) : Host.Outcome State Fault Refusal :=
  .next { s with eng := if cpRuns s.eng then advance s.mem (spareTimeout s.eng v.val) else s.eng }

/-- HELLO_REPEAT (R267). -/
def execHelloRepeat (v : Fin 16) (s : State) : Host.Outcome State Fault Refusal :=
  .next { s with eng := if ctlOn s.eng then helloRepeat s.eng v.val else s.eng }

/-- JOIN_TIMEOUT (R267). -/
def execJoinTimeout (v : Fin 16) (s : State) : Host.Outcome State Fault Refusal :=
  .next { s with eng := if cpRuns s.eng then advance s.mem (joinTimeout s.eng v.val) else s.eng }

/-- HOP_RESEND (R135). -/
def execHopResend (v : Fin 16) (ident : W16) (s : State) : Host.Outcome State Fault Refusal :=
  .next { s with eng := if ctlOn s.eng then hopResend s.eng v.val ident.toNat else s.eng }

/-- REBUILD_STALL (R138). -/
def execRebuildStall (v : Fin 16) (ident : W16) (successor : Fin 64) (s : State) :
    Host.Outcome State Fault Refusal :=
  .next { s with eng := if ctlOn s.eng then rebuildStall s.eng v.val ident.toNat successor.val else s.eng }

end Sys2Proof.Machine
end

