-- ==== Sys2Proof/Machine/PortCmds.lean ====
section
/-!
DEFINITION. Machine/PortCmds.lean: ACC_DONE, STORAGE_COMPLETION, PASS_COMPLETION, PORT_TIMEOUT and ASYNC_COPY_DONE
(R16, R20, R72, R88, R99, R156, R168, R169, R174, R182, R201, R272).
-/

namespace Sys2Proof.Machine

/-! ## ACC_DONE (R16, R72) -/

/-- The oldest outstanding request to a line: its place and itself. -/
def oldestAcc : List AccReq → Nat → Option (Nat × AccReq)
  | [], _ => none
  | r :: rest, l => if r.line = l then some (0, r) else (oldestAcc rest l).map fun p => (p.1 + 1, p.2)

/-- One of the accumulates issued before a revocation's step 2 is done (R272 step 7). -/
def countBefore (i : Nat) (w : RevokeWait) : RevokeWait := if i < w.before then { w with before := w.before - 1 } else w

/-- What the completion of a request of kind `why` to line `l` brings about, the request gone already. -/
def accEffect (m : Mem) (e : Eng) (why : AccWhy) : Eng :=
  match why with
  | .plain => e
  | .block v d rho epoch => settleV m (blockDone e v d rho epoch) v
  | .merge v => settleV m e v
  | .scrub key => scrubDone e key
  | .revoke _ => e
  | .record _ _ => e
  | .zero g =>
    if !pageBusy e g && readsZero m e (spillPageAddr e g) 4096 then
      { e with spill := { e.spill with zeroing := without e.spill.zeroing g } }
    else e

/-- The request at place `i` leaves the list. -/
def dropAcc (e : Eng) (i : Nat) : Eng :=
  { e with io := { e.io with acc := e.io.acc.eraseIdx i }
           ctl := { e.ctl with revokes := e.ctl.revokes.map (countBefore i) } }

/-- ACC_DONE (R16, R72): the controller reports the oldest request to the line done; the coded writes that come before it
have been performed, and the line has changed by it. A report for a line without a request is against R16. -/
def execAccDone (line : BitVec 33) (s : State) : Host.Outcome State Fault Refusal :=
  match oldestAcc s.eng.io.acc line.toNat with
  | none => .fault .accDoneUnasked
  | some (i, r) =>
    let b := performBefore s.mem s.eng r
    let m := Mem.xorLine b.1 r.line r.be r.data
    .next { s with mem := m, eng := advance m (accEffect m (dropAcc b.2 i) r.why) }

/-! ## Storage completions (R168, R169) -/

/-- Starts that waited for the drain table, and restores, go on after a read of it. -/
def afterTable (m : Mem) (e : Eng) (v : Nat) : Eng := runRestores m (tryStartT2 m (tryStartT1 m e v) v) v

/-- A failed read of the drain table ends what waited for it with reason 5. -/
def tableFailed (e : Eng) (v : Nat) : Eng :=
  let x := getV e v
  let e1 := match x.t2o.next with
    | some (source, _, _) =>
      drainDone (updV e v fun x => { x with t2o := { x.t2o with next := none, held := false } }) v 2 5 false source 0
    | none => e
  let is := (x.restores.zipIdx.filter fun r => decide (r.1.terrace = 1 ∧ r.1.stage = .table)).map (·.2)
  is.reverse.foldl (fun e i => match (getV e v).restores[i]? with
    | some r => endRestore e v i r 5
    | none => e) e1

/-- The effect of a storage completion on the descriptor's owner. -/
def stoOwner (m : Mem) (e : Eng) (tag : Nat) (good : Bool) (data : List W64) : PortOwner → Eng
  | .t1Table v =>
    let e1 := tableRead e v good data
    if good then afterTable m e1 v else tableFailed e1 v
  | .t1Survey v =>
    if good then afterTable m (surveyRead e v tag data) v
    else tableFailed (tableRead (forgetTable e v) v false []) v
  | .t1Seg v _ => if good then segDone e v tag else segFailed e v tag
  | .t1Record v =>
    if good then
      let r := recordDone e v
      (match r.2 with
       | some n => feedT2 m r.1 v n
       | none => r.1)
    else endT1 e v 5
  | .t2Source v => if good then t2Read e v tag data else t2Failed e v tag
  | .t2Piece v _ => if good then t2Put e v tag else t2Failed e v tag
  | .restore v _ => if good then restoreRead m e v tag data else restoreFailed e v tag
  | .frame v n => frameDone m e v tag n good

/-- A storage descriptor ends: it leaves the list, and what waited for room on the port goes on. -/
def stoEnd (m : Mem) (e : Eng) (d : StoDesc) (good : Bool) (data : List W64) : Eng :=
  let e1 := passThrough (updIo e fun io => { io with sto := io.sto.erase d }) data d.owner
  advance m (pokeAll m (stoOwner m e1 d.tag.toNat good data d.owner))

/-- STORAGE_COMPLETION (R20, R168, R169). -/
def storageDone (m : Mem) (e : Eng) (tag status : W16) (data : List W64) : Eng :=
  match e.io.sto.find? fun d => decide (d.tag = tag) with
  | none => drop e 24
  | some d => stoEnd m e d (decide (status = 0)) data

def execStorageCompletion (tag status : W16) (data : List W64) (s : State) : Host.Outcome State Fault Refusal :=
  .next { s with eng := if ctlOn s.eng then storageDone s.mem s.eng tag status data else s.eng }

/-! ## Pass completions (R174, R200, R201) -/

/-- The effect of a Pass completion on the descriptor's owner. -/
def passOwner (m : Mem) (e : Eng) (tag : Nat) (status : W16) (data : List W64) : PortOwner → Eng
  | .t2Piece v _ => if status = 0 then t2Put e v tag else t2Failed e v tag
  | .restore v _ =>
    (match restoreOfPass (getV e v) tag with
     | some (i, r) => gotPass m e v i r status data
     | none => e)
  | .frame v n => settleV m (frameDone m e v tag n (decide (status = 0))) v
  | _ => e

/-- A Pass descriptor ends. -/
def passEnd (m : Mem) (e : Eng) (d : PassDesc) (status : W16) (data : List W64) : Eng :=
  let e1 := passThrough (updIo e fun io => { io with pass := io.pass.erase d }) data d.owner
  advance m (pokeAll m (passOwner m e1 d.tag.toNat status data d.owner))

/-- PASS_COMPLETION (R20, R174, R201). -/
def passDone (m : Mem) (e : Eng) (tag status : W16) (data : List W64) : Eng :=
  match e.io.pass.find? fun d => decide (d.tag = tag) with
  | none => drop e 24
  | some d => passEnd m e d status data

def execPassCompletion (tag status : W16) (_bytes : W32) (data : List W64) (s : State) :
    Host.Outcome State Fault Refusal :=
  .next { s with eng := if ctlOn s.eng then passDone s.mem s.eng tag status data else s.eng }

/-! ## PORT_TIMEOUT (R20) -/

/-- A descriptor without a completion within the port timeout: its owner ends as after a failed completion. -/
def portExpired (m : Mem) (e : Eng) (port : Port) (tag : W16) : Eng :=
  let late (ts : W64) : Bool := decide (Regs.portTimeout e.regs port ≤ (e.side.ts - ts).toNat)
  match port with
  | .storage =>
    (match e.io.sto.find? fun d => decide (d.tag = tag) with
     | some d => if late d.ts then stoEnd m e d false [] else e
     | none => e)
  | .pass =>
    (match e.io.pass.find? fun d => decide (d.tag = tag) with
     | some d => if late d.ts then passEnd m e d 0xFFFF [] else e
     | none => e)

def execPortTimeout (port : Port) (tag : W16) (s : State) : Host.Outcome State Fault Refusal :=
  .next { s with eng := if ctlOn s.eng then portExpired s.mem s.eng port tag else s.eng }

/-! ## ASYNC_COPY_DONE (R182) -/

/-- ASYNC_COPY_DONE (R182): the oldest copy of the Valley has arrived. -/
def execAsyncCopyDone (v : Fin 16) (data : List Byte) (s : State) : Host.Outcome State Fault Refusal :=
  if !ctlOn s.eng then .next s
  else
    let r := copyDone s.mem s.eng v.val data
    .next { s with mem := r.1, eng := advance r.1 r.2 }

end Sys2Proof.Machine
end

