-- ==== Sys2Proof/Machine/Receive.lean ====
section
/-!
DEFINITION. Machine/Receive.lean: received transactions: the checks in their order (R17, R18, R76, R92, R120,
R226, R270, R279), the entries of each type, and the meanings of the fabric rows.
-/

namespace Sys2Proof.Machine

/-! ## Checks (R18, R75, R76, R270) -/

/-- The longest packet of a transaction type, in flits (R75); 0 for a reserved type. -/
def maxFlits (typ : Nat) : Nat :=
  if typ = 1 ∨ typ = 6 then 8 else if typ = 2 ∨ typ = 3 ∨ typ = 4 then 1 else if typ = 5 then 17 else 0

/-- The kind of a ready, fold or digest transaction. -/
def Hdr.kind (h : Hdr) : Nat := fld h.w2 0 8

/-- Is the type, version or kind reserved, or the refuse status neither STEP_SKEW nor POISONED (R76, R80, R81,
R83)? -/
def badType (h : Hdr) : Bool :=
  decide (maxFlits h.typ = 0) || decide (h.version ≠ 1) ||
    (decide (h.typ = 3 ∨ h.typ = 4) && decide (h.kind = 0 ∨ 6 < h.kind)) ||
    (decide (h.typ = 6) && decide (h.kind = 0 ∨ 5 < h.kind)) ||
    (decide (h.typ = 4 ∧ h.kind = 6) &&
      decide (fld h.w3 0 16 ≠ stStepSkew.toNat ∧ fld h.w3 0 16 ≠ stPoisoned.toNat))

/-- The bytes that `n` delta-accumulate entries take; none when they pass the packet's end (R77). -/
def blocksLen : Nat → List Byte → Option Nat
  | 0, _ => some 0
  | n + 1, body =>
    let size := 8 + blockSize (body.drop 8)
    if body.length < size then none
    else match blocksLen n (body.drop size) with
      | some t => some (size + t)
      | none => none

/-- Do count and flits agree with the packet and with R75, R79 to R83? -/
def countOk (h : Hdr) (p : RxPacket) : Bool :=
  let n := p.flits.length
  let fits (bytes : Nat) : Bool := decide (n = (32 + bytes + 255) / 256)
  decide (h.flits = n) &&
    (match h.typ with
     | 1 => decide (1 ≤ h.count) && (match blocksLen h.count (bodyOf p) with
        | some t => fits t
        | none => false)
     | 2 => decide (1 ≤ h.count ∧ h.count ≤ 14 ∧ n = 1)
     | 3 => decide (n = 1) &&
        (match h.kind with
         | 1 => decide (1 ≤ h.count ∧ h.count ≤ 28)
         | 3 => decide (h.count = 1)
         | 5 => decide (h.count = 4)
         | _ => decide (h.count = 0))
     | 4 => decide (n = 1) &&
        (match h.kind with
         | 1 => decide (1 ≤ h.count ∧ h.count ≤ 28)
         | 5 => decide (h.count = 1)
         | _ => decide (h.count = 0))
     | 5 => decide (h.count = 16 ∧ n = 17)
     | _ =>
        (match h.kind with
         | 3 => decide (h.count = 0 ∧ n = 1)
         | 5 => decide (h.count = 1 ∧ n = 1)
         | _ => decide (1 ≤ h.count ∧ h.count ≤ 126) && fits (16 * h.count)))

/-- Does a partition tag equal the tag of a valid fabric ingress entry (R279)? Entry 0 is always valid. -/
def tagGranted (e : Eng) (t : W16) : Bool :=
  decide (t = 0) || (List.range 64).any fun f =>
    let w := Tab.get 0 e.regs.accFab (f + 1)
    bit w 16 && decide (fld w 0 16 = t.toNat)

/-- The Valley slot that a valley tag names. -/
def slotOfTag (e : Eng) (t : W16) : Option Nat :=
  (e.valleys.find? fun y => isDefined y.2 && decide (y.2.tag = t)).map (·.1)

/-- What the checks make of a packet. -/
inductive RxVerdict where
  | ignored
  | retention
  | dropped (cause : Nat) (v : Option Nat) (hear : Option Nat)
  | denied
  | partner (v i : Nat)
  | accepted (v : Nat)
deriving DecidableEq, Repr

/-- The partner of a Valley that a digest transaction comes from (R226): its number, 8 for lock-step. -/
def partnerOf (x : Valley) (src tag : W16) (h : Hdr) : Option Nat :=
  let fit (p : Partner) : Bool := decide (p.node = src ∧ p.index = h.sender ∧ h.recv = x.self ∧ tag = x.tag)
  if h.kind = 2 then
    (match x.cmp.lockPeer with
     | some p => if x.cmp.lock && fit p then some 8 else none
     | none => none)
  else if x.cmp.running then
    ((x.cmp.partners.zipIdx.find? fun p => fit p.1).map (·.2))
  else none

/-- The checks of R76 from the sender check on. -/
def memberChecks (x : Valley) (v : Nat) (p : RxPacket) (h : Hdr) : RxVerdict :=
  if !isLive x h.sender then
    .dropped (if (h.typ = 1 ∨ h.typ = 2 ∨ h.typ = 3 ∨ h.typ = 4) ∧ x.live ≠ 0 ∧ h.sender < x.n ∧
        nodeOf x h.sender = p.src then 20 else 8) none none
  else if nodeOf x h.sender ≠ p.src then .dropped 8 none none
  else if h.recv ≠ x.self then .dropped 9 none none
  else if h.epoch ≠ x.epoch ∧ h.epoch ≠ x.epoch + 1 then .dropped 10 (some v) (some h.sender)
  else if !countOk h p then .dropped 11 (some v) (some h.sender)
  else .accepted v

/-- The checks of a received packet in their order (R17, R18, R270, R76, R226). -/
def rxChecks (e : Eng) (p : RxPacket) : RxVerdict :=
  let h := hdrOf p
  if !fabOn e then .ignored
  else if e.side.pwrState = 2 then .retention
  else if fld p.src 13 3 ≠ 0 then .dropped 0 none none
  else if p.cls = 3 then .dropped 3 none none
  else if e.side.revoked.contains p.ptag then .dropped 5 none none
  else if !tagGranted e p.ptag then .denied
  else if p.abort then .dropped 1 none none
  else if maxFlits h.typ ≠ 0 ∧ maxFlits h.typ < p.flits.length then .dropped 2 none none
  else
    match slotOfTag e h.tag with
    | none => if badType h then .dropped 6 none none else .dropped 7 none none
    | some v =>
      let x := getV e v
      if tagOfFn e x.fn ≠ p.ptag then .dropped 4 none none
      else if badType h then .dropped 6 none none
      else if h.typ = 6 ∧ (h.kind = 2 ∨ h.kind = 4) then
        match partnerOf x p.src h.tag h with
        | some i => if countOk h p then .partner v i else .dropped 11 none none
        | none => .dropped 23 none none
      else memberChecks x v p h

/-! ## Entries -/

/-- Entry words of 8 bytes. -/
def entryWords (p : RxPacket) (n : Nat) : List W64 := (List.range n).map fun i => bytesWord (entryAt (bodyOf p) 8 i)

/-- The digest entries of a packet (R83). -/
def digEntries (p : RxPacket) (n : Nat) : List DigEnt :=
  (List.range n).map fun i =>
    let t := entryAt (bodyOf p) 16 i
    { reach := enum t 0 4, tile := BitVec.ofNat 32 (enum t 4 4), digest := BitVec.ofNat 64 (enum t 8 8) }

/-- The hello of a packet (R266). -/
def helloIn (p : RxPacket) (h : Hdr) : Hello :=
  let t := entryAt (bodyOf p) 16 0
  let w : W32 := BitVec.ofNat 32 (enum t 4 4)
  { complete := bit h.w2 8, parity := bit h.w2 9, answer := bit h.w2 10
    shape := BitVec.ofNat 32 (fld h.w3 0 32), base := BitVec.ofNat 32 (fld h.w3 32 32)
    reaches := BitVec.ofNat 32 (enum t 0 4), n := fld w 0 7, k := fld w 8 6, m := fld w 16 3
    alpha := BitVec.ofNat 64 (enum t 8 8) }

/-- The rebuild-hop packet (R82). -/
def hopOf (p : RxPacket) (h : Hdr) : HopIn :=
  { sender := h.sender, ident := fld h.w3 0 16, hop := fld h.w3 16 8, reach := fld h.w2 0 32
    group := fld h.w2 32 17, parity := bit h.w3 31, pos := fld h.w3 24 6, tile := p.flits.drop 1 }

/-- The commit-path content of a ready (R80), for the kinds 0x01 to 0x04. -/
def readyMsg (p : RxPacket) (h : Hdr) : Msg :=
  match h.kind with
  | 1 => .reachReady ((entryWords p h.count).map fun w => (fld w 0 32, bit w 32))
  | 2 => .landingReady (bit h.w3 0)
  | 3 => .close h.w3 (bit ((entryWords p 1).headD 0) 0)
  | _ => .drained

/-- The content of a fold (R81). -/
def foldMsg (p : RxPacket) (h : Hdr) : Msg :=
  match h.kind with
  | 1 => .reachFold (bit h.w2 8) ((entryWords p h.count).map fun w => fld w 0 32)
  | 2 => .landingFold (bit h.w2 8)
  | 3 => .crossingFold (bit h.w2 8)
  | 4 => .watershed h.w3
  | 5 => .settle (BitVec.ofNat 32 (fld h.w3 0 32)) (bit h.w3 32) (bit h.w3 33) (bit h.w3 34)
      ((entryWords p 1).headD 0)
  | _ => .refuse (BitVec.ofNat 16 (fld h.w3 0 16))

/-- The window that a resend report carries (R80). -/
def windowOf (p : RxPacket) : BitVec 256 :=
  BitVec.ofNat 256 ((entryWords p 4).zipIdx.map fun (w, i) => w.toNat * 2 ^ (64 * i)).sum

/-- The seal entries of a packet, one after another (R79). -/
def sealsIn (e : Eng) (v : Nat) (p : RxPacket) (h : Hdr) : Eng :=
  (List.range h.count).foldl (fun e i =>
    let t := entryAt (bodyOf p) 16 i
    sealIn e v h.sender h.epoch h.w2 (enum t 0 4) (BitVec.ofNat 32 (enum t 4 4)) (BitVec.ofNat 64 (enum t 8 8))) e

/-- A settle summary: to a waiting spare (R142), or to the commit path (R93). -/
def summaryIn (m : Mem) (e : Eng) (v : Nat) (h : Hdr) (g : Msg) : Eng :=
  match (getV e v).slot, g with
  | .spare, .settle first l c r b =>
    onSpareSummary m e v { sender := h.sender, epoch := h.epoch, first := first, landing := l, crossing := c
                           recorded := r, bitmap := b }
  | _, _ => settleV m (deliver m e v h.sender h.epoch g) v

/-- An accepted transaction has its effect. -/
def act (m : Mem) (e : Eng) (v : Nat) (p : RxPacket) (h : Hdr) (rdy : BitVec 256) : Eng :=
  let x := getV e v
  match h.typ with
  | 1 => settleV m (blocksIn m v h.sender h.epoch rdy h.count 0 (bodyOf p) e) v
  | 2 => settleV m (sealsIn e v p h) v
  | 3 =>
    (match h.kind with
     | 5 => resendBlocks e v (subMod h.sender x.self x.n) (BitVec.ofNat 32 (fld h.w3 0 32)) (windowOf p)
     | 6 => onHopAck m e v h.sender (fld h.w3 0 16) (BitVec.ofNat 32 (fld h.w3 16 32))
     | _ => settleV m (deliver m e v h.sender h.epoch (readyMsg p h)) v)
  | 4 => summaryIn m e v h (foldMsg p h)
  | 5 => hopIn m e v (hopOf p h)
  | _ =>
    (match h.kind with
     | 1 => onStandinDigests m e v (digEntries p h.count)
     | 5 => onHello e v h.sender h.epoch (helloIn p h)
     | _ => e)

/-- A packet arrives: the checks, the hearing of its sender (R120), and its effect. -/
def receive (m : Mem) (e : Eng) (p : RxPacket) (rdy : BitVec 256) : Eng :=
  let h := hdrOf p
  match rxChecks e p with
  | .ignored => e
  | .retention => { e with side := { e.side with retFlits := satAdd e.side.retFlits p.flits.length } }
  | .denied => refuseAt (drop e 4) 2
  | .dropped c (some v) (some i) => drop (heard e v i) c
  | .dropped c _ _ => drop e c
  | .partner v i =>
    if h.kind = 2 then lockRecv m e v h.w3 (digEntries p h.count)
    else replicaRecv m e v i h.w3 (digEntries p h.count)
  | .accepted v => act m (heard e v h.sender) v p h rdy

/-- The row of a received packet: what waits in the control processor goes on after it. -/
def rxRow (p : RxPacket) (rdy : BitVec 256) (s : State) : Host.Outcome State Fault Refusal :=
  .next { s with eng := advance s.mem (receive s.mem s.eng p rdy) }

/-! ## The meanings of the fabric rows

Each row is a received packet; what it is, its header says. -/

/-- DELTA_ACCUMULATE (R71, R104). -/
def execDeltaAccumulate (p : RxPacket) (rdy : BitVec 256) (s : State) : Host.Outcome State Fault Refusal :=
  rxRow p rdy s
/-- SEAL (R79). -/
def execSeal (p : RxPacket) (s : State) : Host.Outcome State Fault Refusal :=
  rxRow p 0 s
/-- REACH_READY (R80, R87). -/
def execReachReady (p : RxPacket) (s : State) : Host.Outcome State Fault Refusal :=
  rxRow p 0 s
/-- LANDING_READY (R80, R87). -/
def execLandingReady (p : RxPacket) (s : State) : Host.Outcome State Fault Refusal :=
  rxRow p 0 s
/-- CLOSE (R87). -/
def execClose (p : RxPacket) (s : State) : Host.Outcome State Fault Refusal :=
  rxRow p 0 s
/-- DRAINED (R87). -/
def execDrained (p : RxPacket) (s : State) : Host.Outcome State Fault Refusal :=
  rxRow p 0 s
/-- RESEND (R73). -/
def execResend (p : RxPacket) (s : State) : Host.Outcome State Fault Refusal :=
  rxRow p 0 s
/-- HOP_ACKNOWLEDGE (R134). -/
def execHopAcknowledge (p : RxPacket) (s : State) : Host.Outcome State Fault Refusal :=
  rxRow p 0 s
/-- REACH_FOLD (R88). -/
def execReachFold (p : RxPacket) (s : State) : Host.Outcome State Fault Refusal :=
  rxRow p 0 s
/-- LANDING_FOLD (R88). -/
def execLandingFold (p : RxPacket) (s : State) : Host.Outcome State Fault Refusal :=
  rxRow p 0 s
/-- CROSSING_FOLD (R88). -/
def execCrossingFold (p : RxPacket) (s : State) : Host.Outcome State Fault Refusal :=
  rxRow p 0 s
/-- WATERSHED (R89). -/
def execWatershed (p : RxPacket) (s : State) : Host.Outcome State Fault Refusal :=
  rxRow p 0 s
/-- SETTLE_SUMMARY (R93). -/
def execSettleSummary (p : RxPacket) (s : State) : Host.Outcome State Fault Refusal :=
  rxRow p 0 s
/-- REFUSE (R90). -/
def execRefuse (p : RxPacket) (s : State) : Host.Outcome State Fault Refusal :=
  rxRow p 0 s
/-- REBUILD_HOP (R135). -/
def execRebuildHop (p : RxPacket) (s : State) : Host.Outcome State Fault Refusal :=
  rxRow p 0 s
/-- AUDIT_CORRECTION (R223). -/
def execAuditCorrection (p : RxPacket) (s : State) : Host.Outcome State Fault Refusal :=
  rxRow p 0 s
/-- STANDIN_DIGESTS (R142). -/
def execStandinDigests (p : RxPacket) (s : State) : Host.Outcome State Fault Refusal :=
  rxRow p 0 s
/-- BEACON (R120). -/
def execBeacon (p : RxPacket) (s : State) : Host.Outcome State Fault Refusal :=
  rxRow p 0 s
/-- LOCKSTEP_DIGESTS (R230). -/
def execLockstepDigests (p : RxPacket) (s : State) : Host.Outcome State Fault Refusal :=
  rxRow p 0 s
/-- REPLICA_DIGESTS (R227). -/
def execReplicaDigests (p : RxPacket) (s : State) : Host.Outcome State Fault Refusal :=
  rxRow p 0 s
/-- JOIN_HELLO (R267). -/
def execJoinHello (p : RxPacket) (s : State) : Host.Outcome State Fault Refusal :=
  rxRow p 0 s

/-- REACH_DIGEST_CHECK: every target of the Reach is done (R144). -/
def execReachDigestCheck (v : Fin 16) (reach : Nat) (s : State) : Host.Outcome State Fault Refusal :=
  .next { s with eng := reachDigestCheck s.mem s.eng v.val reach }

end Sys2Proof.Machine
end

