-- ==== Sys2Proof/Machine/RegCmds.lean ====
section
/-!
DEFINITION. Machine/RegCmds.lean: the meanings of the register-access rows and of CONFIGURE. Each row is one access of
chapter 12 at the address that the row names.
-/

namespace Sys2Proof.Machine

/-- A 4-byte access on sce_reg_bytes. -/
def four : BitVec 2 := 2
/-- An 8-byte access on sce_reg_bytes. -/
def eight : BitVec 2 := 3

/-- The address of register `o` of queue `q`. -/
def queueAddr (q o : Nat) : Nat := 0x30000 + 0x40 * q + o

/-- CONFIGURE (R253, R257, R305): `list` holds the list when it stands in host memory. -/
def execConfigure (q : Fin 64) (list : List W64) (s : State) : Host.Outcome State Fault Refusal :=
  .next (runCmd q.val 0x02 s fun e c p =>
    let n := pkf p 2 0 9
    if n = 0 ∨ 256 < n ∨ !addrOk (pkw p 1) 16 (16 * n) pkgBytes then reply0 e c stOutOfRange
    else configure e c (configEntries (paramWords s.mem e (pkw p 1) (2 * n) list) n))

/-- REGISTER_WRITE (R305): a write access at any address of the window. -/
def execRegisterWrite (mid : BitVec 8) (addr : BitVec 24) (bytes : BitVec 2) (data : W64) (s : State) :
    Host.Outcome State Fault Refusal :=
  .next (busWrite mid addr.toNat bytes data s)

/-- QSUB_DB (R236). -/
def execQsubDb (mid : BitVec 8) (q : Fin 64) (data : W32) (s : State) : Host.Outcome State Fault Refusal :=
  .next (busWrite mid (queueAddr q.val 0x18) four (data.setWidth 64) s)

/-- QCPL_DB (R236). -/
def execQcplDb (mid : BitVec 8) (q : Fin 64) (data : W32) (s : State) : Host.Outcome State Fault Refusal :=
  .next (busWrite mid (queueAddr q.val 0x20) four (data.setWidth 64) s)

/-- EVT_DB (R244). -/
def execEvtDb (mid : BitVec 8) (data : W32) (s : State) : Host.Outcome State Fault Refusal :=
  .next (busWrite mid 0x40010 four (data.setWidth 64) s)

/-- QUEUE_ENABLE (R308). -/
def execQueueEnable (mid : BitVec 8) (q : Fin 64) (s : State) : Host.Outcome State Fault Refusal :=
  .next (busWrite mid (queueAddr q.val 0x10) four 1 s)

/-- QUEUE_DISABLE (R308). -/
def execQueueDisable (mid : BitVec 8) (q : Fin 64) (s : State) : Host.Outcome State Fault Refusal :=
  .next (busWrite mid (queueAddr q.val 0x10) four 0 s)

/-- The address and size of a place through which vectors are acknowledged. -/
def irqPlace : IrqReg → Nat × BitVec 2
  | .qctrl q => (queueAddr q.val 0x10, four)
  | .status0 => (0x40020, eight)
  | .status1 => (0x40028, four)

/-- IRQ_ACKNOWLEDGE (R23, R308). -/
def execIrqAcknowledge (mid : BitVec 8) (reg : IrqReg) (data : W64) (s : State) : Host.Outcome State Fault Refusal :=
  .next (busWrite mid (irqPlace reg).1 (irqPlace reg).2 data s)

/-- WAKE (R297). -/
def execWake (mid : BitVec 8) (data : W32) (s : State) : Host.Outcome State Fault Refusal :=
  .next (busWrite mid 0xA0008 four (data.setWidth 64) s)

/-- DESCRIPTOR_WORD0_STAGE (R309). -/
def execDescriptorWord0Stage (mid : BitVec 8) (d : Fin 1024) (data : W64) (s : State) :
    Host.Outcome State Fault Refusal :=
  .next (busWrite mid (0x60000 + 32 * d.val) eight data s)

/-- DESCRIPTOR_WORD1_WRITE (R309). -/
def execDescriptorWord1Write (mid : BitVec 8) (d : Fin 1024) (data : W64) (s : State) :
    Host.Outcome State Fault Refusal :=
  .next (busWrite mid (0x60008 + 32 * d.val) eight data s)

/-- REMAP_WRITE (R219). -/
def execRemapWrite (mid : BitVec 8) (e : Fin 16) (data : W32) (s : State) : Host.Outcome State Fault Refusal :=
  .next (busWrite mid (0x70100 + 8 * e.val) four (data.setWidth 64) s)

/-- The address and size of an access-table entry. -/
def accPlace : AccEntry → Nat × BitVec 2
  | .reg m => (0x80000 + 8 * m.toNat, four)
  | .sto f => (0x82000 + 8 * f.val, eight)

/-- ACC_REG_WRITE (R278, R280). -/
def execAccRegWrite (mid : BitVec 8) (entry : AccEntry) (data : W64) (s : State) : Host.Outcome State Fault Refusal :=
  .next (busWrite mid (accPlace entry).1 (accPlace entry).2 data s)

/-- RC_READ (R306): a read access at any address of the window. -/
def execRcRead (mid : BitVec 8) (addr : BitVec 24) (bytes : BitVec 2) (s : State) : Host.Outcome State Fault Refusal :=
  .next (busRead mid addr.toNat bytes s)

/-- TIMESTAMP_LATCH (R303): a 4-byte read of the low half. -/
def execTimestampLatch (mid : BitVec 8) (s : State) : Host.Outcome State Fault Refusal :=
  .next (busRead mid 0x10008 four s)

/-- CP_HALT (R292). -/
def execCpHalt (mid : BitVec 8) (halt : Bool) (s : State) : Host.Outcome State Fault Refusal :=
  .next (busWrite mid 0xD0000 four (if halt then 1 else 0) s)

/-- CP_STEP (R312): halt stays set. -/
def execCpStep (mid : BitVec 8) (s : State) : Host.Outcome State Fault Refusal :=
  .next (busWrite mid 0xD0000 four 3 s)

/-- IST_DATA_READ (R312). -/
def execIstDataRead (mid : BitVec 8) (s : State) : Host.Outcome State Fault Refusal :=
  .next (busRead mid 0xD0018 eight s)

/-- BASIN_DATA_LOAD (R312). -/
def execBasinDataLoad (mid : BitVec 8) (s : State) : Host.Outcome State Fault Refusal :=
  .next (busRead mid 0xD0100 eight s)

/-- BASIN_DATA_STORE (R312). -/
def execBasinDataStore (mid : BitVec 8) (data : W64) (s : State) : Host.Outcome State Fault Refusal :=
  .next (busWrite mid 0xD01F8 eight data s)

/-- EVENT_RING_ENABLE (R244): a write of EVT_CTRL with bit 8 set. -/
def execEventRingEnable (mid : BitVec 8) (data : W32) (s : State) : Host.Outcome State Fault Refusal :=
  .next (busWrite mid 0x40008 four ((data ||| 0x100).setWidth 64) s)

end Sys2Proof.Machine
end

