-- ==== Sys2Proof/Machine/ResetCmds.lean ====
section
/-!
DEFINITION. Machine/ResetCmds.lean: resets, the clock, and the release order (R7, R9, R10, R19, R30 to R32, R286).
-/

namespace Sys2Proof.Machine

/-! ## What a reset of the ctl, core and fab domains leaves (R30, R32) -/

/-- Mark the newest packet of a channel as aborted. -/
def abortNewest (c : Nat) : List TxPacket → List TxPacket
  | [] => []
  | p :: r => if p.chan = c then { p with abort := true } :: r else p :: abortNewest c r

/-- End the packets in progress with sce_fab_tx_abort (R32 step 3). -/
def abortTx (inProgress : BitVec 12) (tx : List TxPacket) : List TxPacket :=
  (List.range 12).foldl (fun tx c => if bit inProgress c then abortNewest c tx else tx) tx

/-- The ports after a reset: what was put out stays so, requests that the controller has accepted complete (R32 step 4),
and nothing else is outstanding. -/
def resetIo (inProgress : BitVec 12) (io : Io) : Io :=
  { tx := abortTx inProgress io.tx, hm := io.hm, irqMsg := io.irqMsg, stoLog := io.stoLog, passLog := io.passLog
    acc := io.acc.map fun r => { r with why := .plain, after := 0 } }

/-- The side domain after a warm reset or lock loss (R30, R306): the registers marked side, the sideband, the keys of the
device and the levels stay; the power state is Active again. -/
def resetSide (s : Side) : Side :=
  { s with pwrReq := 0, pwrState := 0, pwrWait := none, pwrSince := 0, waking := false, tsLatch := [] }

/-- The controller performs the coded writes that lanes have accepted; their blocks are discarded (R11, R32). -/
def performQueued (m : Mem) (e : Eng) : Mem :=
  e.lanes.foldl (fun m l => l.2.q.foldl performWrite m) m

/-- Reset the ctl, core and fab domains; every key is zeroed (R286). -/
def resetDomains (e : Eng) (inProgress : BitVec 12) : Eng :=
  raise { side := resetSide e.side, io := resetIo inProgress e.io } evKeysZeroed stOK none
    (pack [(0, 3), (16, 0xFFFF)]) 0

/-! ## Reset inputs (R10, R30, R32) -/

/-- POWER_ON_RESET (R30): every domain enters reset, and the release order starts again at step 1. -/
def execPowerOnReset (s : State) : Host.Outcome State Fault Refusal :=
  .next { s with
          mem := performQueued s.mem s.eng
          eng := { io := resetIo 0 s.eng.io, side := { rstLow := s.eng.side.rstLow } } }

/-- A reset of the three domains takes hold; before the side domain has read its fuses, the release order goes on with
step 2 first. -/
def holdDomains (s : State) (inProgress : BitVec 12) (f : Side → Side) : State :=
  if s.eng.side.relStep = .waitClock ∨ s.eng.side.relStep = .fuses ∨ s.eng.side.relStep = .held then
    { s with eng := { s.eng with side := f s.eng.side } }
  else
    let e := resetDomains s.eng inProgress
    { s with mem := performQueued s.mem s.eng, eng := { e with side := f { e.side with relStep := .held } } }

/-- WARM_RESET (R32): sce_rst_n falls. `inProgress` names the transmit channels with a packet in progress. -/
def execWarmReset (inProgress : BitVec 12) (s : State) : Host.Outcome State Fault Refusal :=
  .next (if s.eng.side.rstLow then s else holdDomains s inProgress fun x => { x with rstLow := true })

/-- LOCK_LOSS (R10): sce_pll_lock falls while sce_por_n is high. -/
def execLockLoss (inProgress : BitVec 12) (s : State) : Host.Outcome State Fault Refusal :=
  .next (if !s.eng.side.pllLock then s
    else holdDomains s inProgress fun x => { x with pllLock := false, clk := .ref, lockLoss := true })

/-! ## The release order (R10, R31) -/

/-- Step 3 starts once no reset input holds the domains: the control domain is released and the boot ROM starts. -/
def startRelease (e : Eng) : Eng :=
  if e.side.relStep = .held ∧ e.side.pllLock ∧ !e.side.rstLow then
    { e with side := { e.side with relStep := .control }, ctl := { e.ctl with bootRom := true } }
  else e

/-- CLOCK_LOCKED (R10): the lock has been high for 16 cycles, and the side domain runs on the root. -/
def execClockLocked (s : State) : Host.Outcome State Fault Refusal :=
  .next { s with eng :=
            if s.eng.side.pllLock then s.eng
            else
              let side := { s.eng.side with pllLock := true, clk := .root }
              if side.relStep = .waitClock then { s.eng with side := { side with relStep := .fuses } }
              else startRelease { s.eng with side := side } }

/-- WARM_RESET_RELEASE (R31): sce_rst_n rises. -/
def execWarmResetRelease (s : State) : Host.Outcome State Fault Refusal :=
  .next { s with eng := startRelease { s.eng with side := { s.eng.side with rstLow := false } } }

/-- Step 2 ends: the fuses are read and sce_lc_state and sce_dbg_lvl sampled. In Returned there is no device key
(R28, R31, R282, R291). -/
def fusesDone (e : Eng) (lc dbg : BitVec 2) : Eng :=
  let here := decide (lc = 0 ∨ lc = 1)
  let side := { e.side with lc := lc, devKeyHere := here, devKey := if here then Config.fuseDeviceKey else 0
                            relStep := .held }
  startRelease { e with side := seeLevel side dbg }

/-- Step 4 ends: the page valid bits are clear, the filters empty, the Basin's and the lanes' timers start, and every lane
has the reset cause of R110 until step 6. -/
def coreDone (e : Eng) : Eng :=
  let t := e.side.ts
  { e with side := { e.side with relStep := .fabTables }
           basin := { e.basin with valid := [], leakTs := t, candTs := t, patrolTs := (List.range 32).map fun b => (b, t) }
           lanes := (List.range 12).map fun i => (i, { idleFrom := t, rstCause := true }) }

/-- Step 5 ends: the tables hold the fixed entries of masters 0x00 and 0x80 and refuse everything else; step 6 follows,
the ready bit and the throttles (R31). -/
def tablesDone (e : Eng) (node : W16) : Eng :=
  let regs := { e.regs with accReg := [(0x00, 0x15FE1FFF), (0x80, 0x00000E87)], accFab := [(0, 0x00010000)], accSto := [] }
  let e1 := { e with regs := regs, ctl := { e.ctl with node := node }, side := { e.side with relStep := .ready } }
  (List.range 12).foldl (fun e i => updLane e i fun l => { l with rstCause := false, wthr := true }) e1

/-- RELEASE_STEP_DONE (R31, R19). -/
def execReleaseStepDone (lc dbg : BitVec 2) (node : W16) (s : State) : Host.Outcome State Fault Refusal :=
  .next { s with eng :=
            match s.eng.side.relStep with
            | .fuses => fusesDone s.eng lc dbg
            | .control => { s.eng with side := { s.eng.side with relStep := .coreClear } }
            | .coreClear => coreDone s.eng
            | .fabTables =>
              if fld node 13 3 ≠ 0 then { s.eng with ctl := { s.eng.ctl with nodeFault := true } }
              else if s.eng.ctl.nodeFault then s.eng
              else tablesDone s.eng node
            | _ => s.eng }

end Sys2Proof.Machine
end

