-- ==== Sys2Proof/Machine/Dispatch.lean ====
section
/-!
DEFINITION. Machine/Dispatch.lean: one arm per command, each one direct call of its meaning.
-/

namespace Sys2Proof.Machine

/-- The effect of one command on the machine, its queue apart. -/
def exec (i : Instr) (s : State) : Host.Outcome State Fault Refusal :=
  match i with
  | .powerOnReset => Sys2Proof.Machine.execPowerOnReset s
  | .warmReset inProgress => Sys2Proof.Machine.execWarmReset inProgress s
  | .lockLoss inProgress => Sys2Proof.Machine.execLockLoss inProgress s
  | .clockLocked => Sys2Proof.Machine.execClockLocked s
  | .releaseStepDone lc dbg node => Sys2Proof.Machine.execReleaseStepDone lc dbg node s
  | .readSnoop lane line data => Sys2Proof.Machine.execReadSnoop lane line data s
  | .codedWrite lane line be new => Sys2Proof.Machine.execCodedWrite lane line be new s
  | .oldLineReturn lane data => Sys2Proof.Machine.execOldLineReturn lane data s
  | .heldWriteRelease lane => Sys2Proof.Machine.execHeldWriteRelease lane s
  | .throttleCauseCleared lane => Sys2Proof.Machine.execThrottleCauseCleared lane s
  | .stagingWordOut lane err => Sys2Proof.Machine.execStagingWordOut lane err s
  | .retainedRecordWrite v => Sys2Proof.Machine.execRetainedRecordWrite v s
  | .demote => Sys2Proof.Machine.execDemote s
  | .egressSend chan => Sys2Proof.Machine.execEgressSend chan s
  | .accDone line => Sys2Proof.Machine.execAccDone line s
  | .inboundRingApply v d => Sys2Proof.Machine.execInboundRingApply v d s
  | .deltaAccumulate p rdy => Sys2Proof.Machine.execDeltaAccumulate p rdy s
  | .seal p => Sys2Proof.Machine.execSeal p s
  | .reachReady p => Sys2Proof.Machine.execReachReady p s
  | .landingReady p => Sys2Proof.Machine.execLandingReady p s
  | .close p => Sys2Proof.Machine.execClose p s
  | .drained p => Sys2Proof.Machine.execDrained p s
  | .resend p => Sys2Proof.Machine.execResend p s
  | .hopAcknowledge p => Sys2Proof.Machine.execHopAcknowledge p s
  | .reachFold p => Sys2Proof.Machine.execReachFold p s
  | .landingFold p => Sys2Proof.Machine.execLandingFold p s
  | .crossingFold p => Sys2Proof.Machine.execCrossingFold p s
  | .watershed p => Sys2Proof.Machine.execWatershed p s
  | .settleSummary p => Sys2Proof.Machine.execSettleSummary p s
  | .refuse p => Sys2Proof.Machine.execRefuse p s
  | .rebuildHop p => Sys2Proof.Machine.execRebuildHop p s
  | .auditCorrection p => Sys2Proof.Machine.execAuditCorrection p s
  | .reachDigestCheck v reach => Sys2Proof.Machine.execReachDigestCheck v reach s
  | .standinDigests p => Sys2Proof.Machine.execStandinDigests p s
  | .beacon p => Sys2Proof.Machine.execBeacon p s
  | .lockstepDigests p => Sys2Proof.Machine.execLockstepDigests p s
  | .replicaDigests p => Sys2Proof.Machine.execReplicaDigests p s
  | .joinHello p => Sys2Proof.Machine.execJoinHello p s
  | .resendTimer v d reach => Sys2Proof.Machine.execResendTimer v d reach s
  | .beaconDue v m => Sys2Proof.Machine.execBeaconDue v m s
  | .peerSilence v m => Sys2Proof.Machine.execPeerSilence v m s
  | .holdoffEnd v m => Sys2Proof.Machine.execHoldoffEnd v m s
  | .suspectGapEnd => Sys2Proof.Machine.execSuspectGapEnd s
  | .fenceTimer v => Sys2Proof.Machine.execFenceTimer v s
  | .standinTransferTimeout v => Sys2Proof.Machine.execStandinTransferTimeout v s
  | .hopResend v ident => Sys2Proof.Machine.execHopResend v ident s
  | .rebuildStall v ident successor => Sys2Proof.Machine.execRebuildStall v ident successor s
  | .helloRepeat v => Sys2Proof.Machine.execHelloRepeat v s
  | .joinTimeout v => Sys2Proof.Machine.execJoinTimeout v s
  | .t1Trigger v => Sys2Proof.Machine.execT1Trigger v s
  | .t2Trigger v => Sys2Proof.Machine.execT2Trigger v s
  | .drainStart v => Sys2Proof.Machine.execDrainStart v s
  | .tileTaken v => Sys2Proof.Machine.execTileTaken v s
  | .segmentBegin v => Sys2Proof.Machine.execSegmentBegin v s
  | .holdupWaitExpired v => Sys2Proof.Machine.execHoldupWaitExpired v s
  | .storageCompletion tag status data => Sys2Proof.Machine.execStorageCompletion tag status data s
  | .passCompletion tag status bytes data => Sys2Proof.Machine.execPassCompletion tag status bytes data s
  | .portTimeout port tag => Sys2Proof.Machine.execPortTimeout port tag s
  | .asyncCopyDone v data => Sys2Proof.Machine.execAsyncCopyDone v data s
  | .heldSealRelease v => Sys2Proof.Machine.execHeldSealRelease v s
  | .commandFetch q packet => Sys2Proof.Machine.execCommandFetch q packet s
  | .hostAccessFail a => Sys2Proof.Machine.execHostAccessFail a s
  | .holdupPoll => Sys2Proof.Machine.execHoldupPoll s
  | .holdupReading record => Sys2Proof.Machine.execHoldupReading record s
  | .sidebandStretchTimeout => Sys2Proof.Machine.execSidebandStretchTimeout s
  | .holdupStale => Sys2Proof.Machine.execHoldupStale s
  | .holdupAlert asserted => Sys2Proof.Machine.execHoldupAlert asserted s
  | .debugLevelChange lvl => Sys2Proof.Machine.execDebugLevelChange lvl s
  | .debugLevel => Sys2Proof.Machine.execDebugLevel s
  | .powerAck ack => Sys2Proof.Machine.execPowerAck ack s
  | .powerReqTimeout => Sys2Proof.Machine.execPowerReqTimeout s
  | .retentionFlitDrop => Sys2Proof.Machine.execRetentionFlitDrop s
  | .patrolRead bank flips => Sys2Proof.Machine.execPatrolRead bank flips s
  | .basinWriteback bank => Sys2Proof.Machine.execBasinWriteback bank s
  | .bucketLeak => Sys2Proof.Machine.execBucketLeak s
  | .candDecay => Sys2Proof.Machine.execCandDecay s
  | .pageOpen bank => Sys2Proof.Machine.execPageOpen bank s
  | .spillPageZero => Sys2Proof.Machine.execSpillPageZero s
  | .bankUngate bank => Sys2Proof.Machine.execBankUngate bank s
  | .laneGate lane => Sys2Proof.Machine.execLaneGate lane s
  | .drbgReseed failedTests => Sys2Proof.Machine.execDrbgReseed failedTests s
  | .negotiate q => Sys2Proof.Machine.execNegotiate q s
  | .configure q list => Sys2Proof.Machine.execConfigure q list s
  | .query q => Sys2Proof.Machine.execQuery q s
  | .valleyDefine q => Sys2Proof.Machine.execValleyDefine q s
  | .valleyJoin q table => Sys2Proof.Machine.execValleyJoin q table s
  | .valleyLeave q => Sys2Proof.Machine.execValleyLeave q s
  | .regionDefine q => Sys2Proof.Machine.execRegionDefine q s
  | .regionFreeze q => Sys2Proof.Machine.execRegionFreeze q s
  | .regionThaw q => Sys2Proof.Machine.execRegionThaw q s
  | .crossingOpen q => Sys2Proof.Machine.execCrossingOpen q s
  | .crossingClose q => Sys2Proof.Machine.execCrossingClose q s
  | .reachSeal q => Sys2Proof.Machine.execReachSeal q s
  | .watershedQuery q => Sys2Proof.Machine.execWatershedQuery q s
  | .rollback q => Sys2Proof.Machine.execRollback q s
  | .fence q => Sys2Proof.Machine.execFence q s
  | .suspectReport q => Sys2Proof.Machine.execSuspectReport q s
  | .rebuildPlan q => Sys2Proof.Machine.execRebuildPlan q s
  | .rebuildRun q scope => Sys2Proof.Machine.execRebuildRun q scope s
  | .standIn q => Sys2Proof.Machine.execStandIn q s
  | .standInSpare q => Sys2Proof.Machine.execStandInSpare q s
  | .contract q map => Sys2Proof.Machine.execContract q map s
  | .audit q scope => Sys2Proof.Machine.execAudit q scope s
  | .digestExchange q partners => Sys2Proof.Machine.execDigestExchange q partners s
  | .lockstep q => Sys2Proof.Machine.execLockstep q s
  | .t1Drain q => Sys2Proof.Machine.execT1Drain q s
  | .t1Restore q candidates map => Sys2Proof.Machine.execT1Restore q candidates map s
  | .t2Drain q => Sys2Proof.Machine.execT2Drain q s
  | .t2Restore q candidates seedTable => Sys2Proof.Machine.execT2Restore q candidates seedTable s
  | .seedServe q => Sys2Proof.Machine.execSeedServe q s
  | .outerExport q => Sys2Proof.Machine.execOuterExport q s
  | .outerReanchor q => Sys2Proof.Machine.execOuterReanchor q s
  | .partitionGrant q => Sys2Proof.Machine.execPartitionGrant q s
  | .partitionRevoke q => Sys2Proof.Machine.execPartitionRevoke q s
  | .scrub q => Sys2Proof.Machine.execScrub q s
  | .powerState q => Sys2Proof.Machine.execPowerState q s
  | .keyLoad q blob => Sys2Proof.Machine.execKeyLoad q blob s
  | .fwLoad q image => Sys2Proof.Machine.execFwLoad q image s
  | .registerWrite mid addr bytes data => Sys2Proof.Machine.execRegisterWrite mid addr bytes data s
  | .qsubDb mid q data => Sys2Proof.Machine.execQsubDb mid q data s
  | .qcplDb mid q data => Sys2Proof.Machine.execQcplDb mid q data s
  | .evtDb mid data => Sys2Proof.Machine.execEvtDb mid data s
  | .queueEnable mid q => Sys2Proof.Machine.execQueueEnable mid q s
  | .queueDisable mid q => Sys2Proof.Machine.execQueueDisable mid q s
  | .irqAcknowledge mid reg data => Sys2Proof.Machine.execIrqAcknowledge mid reg data s
  | .wake mid data => Sys2Proof.Machine.execWake mid data s
  | .descriptorWord0Stage mid d data => Sys2Proof.Machine.execDescriptorWord0Stage mid d data s
  | .descriptorWord1Write mid d data => Sys2Proof.Machine.execDescriptorWord1Write mid d data s
  | .remapWrite mid e data => Sys2Proof.Machine.execRemapWrite mid e data s
  | .accRegWrite mid entry data => Sys2Proof.Machine.execAccRegWrite mid entry data s
  | .rcRead mid addr bytes => Sys2Proof.Machine.execRcRead mid addr bytes s
  | .timestampLatch mid => Sys2Proof.Machine.execTimestampLatch mid s
  | .cpHalt mid halt => Sys2Proof.Machine.execCpHalt mid halt s
  | .cpStep mid => Sys2Proof.Machine.execCpStep mid s
  | .istDataRead mid => Sys2Proof.Machine.execIstDataRead mid s
  | .basinDataLoad mid => Sys2Proof.Machine.execBasinDataLoad mid s
  | .basinDataStore mid data => Sys2Proof.Machine.execBasinDataStore mid data s
  | .warmResetRelease => Sys2Proof.Machine.execWarmResetRelease s
  | .eventRingEnable mid data => Sys2Proof.Machine.execEventRingEnable mid data s

end Sys2Proof.Machine
end

