-- ==== Sys2Proof/Machine/Tick.lean ====
section
/-!
DEFINITION. Machine/Tick.lean: what time alone does: the timestamp counter counts (R9), and what waits for nothing but
an idle cycle goes on (R195, R249, R272, R295, R296).
-/

namespace Sys2Proof.Machine

/-- Nanoseconds of one tick: one ck_ts cycle on the root, one cycle of sce_clk_side_ref on the reference, none while the
side domain is in reset (R9). -/
def tickNs (s : Side) : Nat :=
  if s.relStep = .waitClock then 0 else if s.clk = .root then 1 else 10

/-- Time passes on the timestamp counter. -/
def countTime (e : Eng) : Eng := { e with side := { e.side with ts := e.side.ts + BitVec.ofNat 64 (tickNs e.side) } }

/-- One tick of an engine that no command comes to: no lane presents a fragment in it, so the partial word of every staging
FIFO is closed (R107). -/
def tick (m : Mem) (e : Eng) : Eng :=
  let e1 := countTime (if ctlOn e then writeResumed e else e)
  if !ctlOn e1 then e1 else answerAll (advance m (runExports m (gateBanks (closePartials (repliesWritten e1)))))

end Sys2Proof.Machine
end

