-- ==== Sys2Proof/WellFormed.lean ====
section
/-!
DEFINITION. WellFormed.lean: the commands that the ports of the block can present. A meaning is given for every term of
`Instr`; a term outside this check is one that no port can bring.
-/

namespace Sys2Proof

/-- The lines of package memory: 1,536 GiB in lines of 256 bytes (R11). -/
def packageLines : Nat := 0x180000000

/-- A received packet has at least one flit (R17). -/
def RxPacket.wellFormed (p : RxPacket) : Bool := !p.flits.isEmpty

/-- Is the command one that a port can present: packets with a flit, lines of package memory, Reach numbers of 32 bits,
and parameter lists no longer than the largest that the command's fields can name? -/
def Instr.wellFormed : Instr → Bool
  | .readSnoop _ line _ => decide (line.toNat < packageLines)
  | .codedWrite _ line be _ => decide (line.toNat < packageLines) && decide (be ≠ 0)
  | .accDone line => decide (line.toNat < packageLines)
  | .deltaAccumulate p _ => p.wellFormed
  | .seal p | .reachReady p | .landingReady p | .close p | .drained p | .resend p | .hopAcknowledge p | .reachFold p
  | .landingFold p | .crossingFold p | .watershed p | .settleSummary p | .refuse p | .rebuildHop p | .auditCorrection p
  | .standinDigests p | .beacon p | .lockstepDigests p | .replicaDigests p | .joinHello p => p.wellFormed
  | .reachDigestCheck _ reach => decide (reach < 4294967296)
  | .resendTimer _ _ reach => decide (reach < 4294967296)
  | .configure _ list => decide (list.length ≤ 512)
  | .valleyJoin _ table => decide (table.length ≤ 64)
  | .rebuildRun _ scope => decide (scope.length ≤ 16382)
  | .audit _ scope => decide (scope.length ≤ 16382)
  | .contract _ map => decide (map.length ≤ 256)
  | .digestExchange _ partners => decide (partners.length ≤ 8)
  | .t1Restore _ candidates map => decide (candidates.length ≤ 16) && decide (map.length ≤ 256)
  | .t2Restore _ candidates _ => decide (candidates.length ≤ 16)
  | .keyLoad _ blob => decide (blob.length ≤ 20)
  | .fwLoad _ image => decide (image.length ≤ 131136)
  | _ => true

end Sys2Proof
end

