-- ==== Sys2Proof/Safety.lean ====
section
/-!
DEFINITION. Safety.lean: the terms in which statements speak of runs: the invariant of the model's memory, what a step
leaves alone, and a run of well-formed commands.
-/

namespace Sys2Proof.Machine

/-- The invariant of the model: package memory keeps its canonical form (notes/assumptions/3.md). -/
def State.Inv (s : State) : Prop := Mem.wf s.mem = true

/-- One byte of package memory. -/
def State.byteAt (s : State) (a : Nat) : Byte := Mem.get s.mem a

/-- Between two engines nothing differs but what an event changes: the event ring, interrupts, host memory writes (to
which events only add) and the drop counters. -/
def OnlyEvents (e f : Eng) : Prop :=
  f = { e with
    ctl := { e.ctl with evt := f.ctl.evt, irq := f.ctl.irq, irq66Ts := f.ctl.irq66Ts, irq66Due := f.ctl.irq66Due }
    cnt := { e.cnt with drop := f.cnt.drop }
    io := { e.io with hm := f.io.hm, irqMsg := f.io.irqMsg } } ∧
  e.io.hm <:+ f.io.hm

/-- Between two engines nothing differs but what answers change: queues and their turn, held replies, the event ring,
interrupts, host memory writes (to which answers only add) and the drop counters. -/
def OnlyAnswers (e f : Eng) : Prop :=
  f = { e with
    ctl := { e.ctl with queues := f.ctl.queues, turn := f.ctl.turn, heldEnds := f.ctl.heldEnds, evt := f.ctl.evt
                        irq := f.ctl.irq, irq66Ts := f.ctl.irq66Ts, irq66Due := f.ctl.irq66Due }
    cnt := { e.cnt with drop := f.cnt.drop }
    io := { e.io with hm := f.io.hm, irqMsg := f.io.irqMsg } } ∧
  e.io.hm <:+ f.io.hm

/-- Between two engines nothing differs but what the correction of a Basin word changes (R212, R214, R217, R218): stored
words, write-backs, the counter and the bucket, the candidates, the remap table, and the events of these. -/
def OnlyCorrects (e f : Eng) : Prop :=
  f = { e with
    ctl := { e.ctl with evt := f.ctl.evt, irq := f.ctl.irq, irq66Ts := f.ctl.irq66Ts, irq66Due := f.ctl.irq66Due
                        freeCount := f.ctl.freeCount }
    regs := { e.regs with remap := f.regs.remap }
    cnt := { e.cnt with drop := f.cnt.drop, bCorr := f.cnt.bCorr }
    basin := { e.basin with words := f.basin.words, spare := f.basin.spare, writeback := f.basin.writeback
                            level := f.basin.level, sinceEvt := f.basin.sinceEvt, cand := f.basin.cand
                            fullRaised := f.basin.fullRaised }
    io := { e.io with hm := f.io.hm, irqMsg := f.io.irqMsg } } ∧
  e.io.hm <:+ f.io.hm

/-- The completion record of R242 that answers command `c` out of engine `e`: where it goes and its four words. -/
def replyRecord (e : Eng) (c : Cmd) (status : W16) (r0 r1 : W64) : HmWrite :=
  { src := .reply c.q
    addr := BitVec.ofNat 64 (addrOf (getQ e c.q).baseCpl + 32 * (getQ e c.q).reply)
    data := [pack [(0, c.tag.toNat), (16, status.toNat), (32, c.q), (40, c.op.toNat), (63, b2n (getQ e c.q).phase)],
             e.side.ts, r0, r1] }

/-- Between engines `e` and `f` the command `c` was answered: its record is among the host memory writes made. -/
def Answered (e f : Eng) (c : Cmd) (status : W16) (r0 r1 : W64) : Prop :=
  ∃ made, f.io.hm = made ++ e.io.hm ∧ replyRecord e c status r0 r1 ∈ made

/-- The packet `p` of opcode `op` is the next one that queue `q` gives to the control processor, and no check of R250 refuses
it (R249, R250). -/
def Taken (s : State) (q op : Nat) (p : BitVec 512) : Prop :=
  headReady s.eng q = some p ∧ (pkOp p).toNat = op ∧ preCheck (popHead s.eng q) q p = none

/-- A driver command that answers at once: memory stays; no part of the engine changes but those that answers change,
beside the correction of the Basin word that held the packet, if it holds an error (`readHead`, which `OnlyCorrects`); and
the command is answered with a status and two result words. -/
def OnlyReplies (s t : State) (q : Nat) (p : BitVec 512) (st : W16) (r0 r1 : W64) : Prop :=
  t.mem = s.mem ∧ t.pending = s.pending ∧ OnlyAnswers (readHead s.eng q) t.eng ∧
    Answered s.eng t.eng (cmdOf q p) st r0 r1

/-- An aligned access of master `mid` to an address of the window reaches a register: the fab domain runs, Retention does
not stand in the way, and the register-file access table allows the group (R21, R31, R276, R297). -/
def Reaches (s : State) (mid : Byte) (wr : Bool) (addr : Nat) : Prop :=
  fabOn s.eng = true ∧ (s.eng.side.pwrState ≠ 2 ∨ retentionGroup (addr / 0x10000) = true) ∧
    accAllows s.eng mid wr (addr / 0x10000) = true

/-- A list of commands, run one after another from a state, stops nowhere. -/
def Runs : List Instr → State → State → Prop
  | [], s, t => s = t
  | c :: r, s, t => ∃ u, exec c s = .next u ∧ Runs r u t

end Sys2Proof.Machine
end

