-- ==== Sys2Proof/Certificates/Slice0/Obligations.lean ====
section
/-!
DEFINITION. Certificates/Slice0/Obligations.lean: the statements about the model, family by family. A docstring names the
rule of spec/ that the statement formalises, and says where it rests on a choice of the model.
-/

open Sys2Proof Sys2Proof.Machine

/-- Tier 1. One step takes the command at the front of the queue and answers what `exec` answers for it, with the rest
of the queue waiting (notes/assumptions/1.md). -/
def Obligations.StepRunsFrontCommand : Prop :=
  ∀ (c : Instr) (rest : List Instr) (s : State),
    step { s with pending := c :: rest } = exec c { s with pending := rest }

/-- Tier 1. With no command waiting, time passes (R9; notes/assumptions/9.md, a DESIGN CHOICE): the timestamp counter
gains one nanosecond on the root clock, ten on the reference, none in reset. While no Valley has an export or reanchor
job, no revoke, orderly stop, power request or Drowse is under way, no reply is on its way, no resumed peer waits for its
event and no queue holds an unlisted packet, nothing else changes but that a partial word of a staging FIFO is closed,
because no lane presents a fragment (R107; notes/assumptions/18.md). -/
def Obligations.IdleStepPassesTime : Prop :=
  ∀ s : State, s.pending = [] →
    (∃ t, step s = .next t ∧ t.pending = [] ∧ t.mem = s.mem) ∧
    ((∀ y ∈ s.eng.valleys, y.2.expo.jobs = []) → s.eng.ctl.revokes = [] → s.eng.ctl.stops = [] →
      s.eng.side.pwrWait = none → s.eng.side.pwrState ≠ 1 → s.eng.ctl.resumed = [] →
      (∀ x ∈ s.eng.ctl.queues, x.2.inFlight = false ∧ ∀ p ∈ x.2.buf, listedOps.contains (pkOp p).toNat = true) →
      ∃ lanes, step s = .next { s with eng := { s.eng with
          lanes := lanes
          side := { s.eng.side with ts := s.eng.side.ts +
            (if s.eng.side.relStep = .waitClock then 0 else if s.eng.side.clk = .root then 1 else 10) } } } ∧
        ∀ i, getLane { s.eng with lanes := lanes } i = { getLane s.eng i with
          fifo := (getLane s.eng i).fifo.map fun w =>
            { w with closed := w.closed || (ctlOn s.eng && decide (w.bytes.length < 256)) } })

/-- Tier 1. State.reset is what R30 and R31 say of the machine after sce_por_n: release step 1 runs, the timestamp is
zero and nothing is ready. That package memory lists nothing, which is that every byte reads as zero, and that what the
spec gives no reset value stands at zero or empty, is the model's choice (notes/assumptions/2.md and 3.md, DESIGN CHOICE),
as is the empty queue of commands (notes/assumptions/1.md). The memory of State.reset is canonical. -/
def Obligations.ResetState : Prop :=
  (State.reset.eng.side.relStep = .waitClock ∧ State.reset.eng.side.ts = 0 ∧ State.reset.eng.ctl.image = none ∧
    State.reset.eng.valleys = [] ∧ State.reset.eng.ctl.queues = [] ∧ State.reset.mem = [] ∧ State.reset.pending = []) ∧
  (State.reset.Inv)

/-- Tier 3. Every step keeps package memory canonical, whatever command comes. -/
def Obligations.StepKeepsInvariant : Prop :=
  ∀ s t : State, s.Inv → step s = .next t → t.Inv

/-- Tier 2. POWER_ON_RESET (R30, R31): every domain is at its reset values and release step 1 runs. WARM_RESET and
LOCK_LOSS (R30, R10, R32, R286): the side domain keeps its timestamp, its keys, its levels and its sideband values; every
other domain is reset and waits; requests that the controller accepted stay outstanding; and KEYS_ZEROED is raised, once,
with the reset as its cause. In each of them the coded writes that lanes had accepted are performed, lane by lane and in a
lane in their order, and no other byte of memory changes (R11, R32). Before the side domain has read its fuses, and while
the domains are held already, a reset input changes only what it says of itself, and one that is there already changes
nothing. What the resets keep and perform is DEDUCED (notes/assumptions/21.md, 22.md and 23.md). -/
def Obligations.ResetsClearTheirDomains : Prop :=
  let performed (s t : State) : Prop :=
    t.mem = performQueued s.mem s.eng ∧
    (∀ a, (∀ l ∈ s.eng.lanes, ∀ w ∈ l.2.q, ∀ i, i < 256 → bit w.be i = true → a ≠ 256 * w.line + i) →
      t.byteAt a = s.byteAt a) ∧
    (∀ l ∈ s.eng.lanes, ∀ w ∈ l.2.q, w.inMem = false → w.engine = false → ∀ i, i < 256 → bit w.be i = true →
      (∀ l' ∈ s.eng.lanes, ∀ w' ∈ l'.2.q, w' ≠ w → ∀ j, j < 256 → bit w'.be j = true →
        256 * w'.line + j ≠ 256 * w.line + i) → t.byteAt (256 * w.line + i) = Line.byte w.new i)
  (∀ s : State, ∃ t, exec .powerOnReset s = .next t ∧ t.pending = s.pending ∧
      t.eng.side = { rstLow := s.eng.side.rstLow } ∧ t.eng.side.relStep = .waitClock ∧
      t.eng.ctl = {} ∧ t.eng.regs = {} ∧ t.eng.cnt = {} ∧ t.eng.lanes = [] ∧ t.eng.basin = {} ∧ t.eng.spill = {} ∧
      t.eng.regions = [] ∧ t.eng.valleys = [] ∧ t.eng.seeds = [] ∧ t.eng.io.ctlOut = [] ∧ performed s t) ∧
  (∀ (s : State) (w : BitVec 12),
      s.eng.side.relStep ≠ .waitClock → s.eng.side.relStep ≠ .fuses → s.eng.side.relStep ≠ .held →
      let kept : Side := { s.eng.side with relStep := .held, pwrReq := 0, pwrState := 0, pwrWait := none, pwrSince := 0
                                           waking := false, tsLatch := [] }
      let reset (t : State) : Prop :=
        t.pending = s.pending ∧ t.eng.ctl.keys = [] ∧ t.eng.ctl.queues = [] ∧ t.eng.ctl.image = none ∧
        t.eng.ctl.grants = [] ∧ t.eng.regs = {} ∧ t.eng.lanes = [] ∧ t.eng.basin = {} ∧ t.eng.spill = {} ∧
        t.eng.regions = [] ∧ t.eng.valleys = [] ∧ t.eng.seeds = [] ∧ t.eng.io.sto = [] ∧ t.eng.io.pass = [] ∧
        t.eng.io.ctlOut = [] ∧
        t.eng.io.acc.map (fun r => (r.line, r.be, r.data)) = s.eng.io.acc.map (fun r => (r.line, r.be, r.data)) ∧
        t.eng.ctl.evt.held.map (fun r => (r.code, fld r.r0 0 4)) = [(evKeysZeroed, 3)] ∧ performed s t
      (s.eng.side.rstLow = false →
        ∃ t, exec (.warmReset w) s = .next t ∧ t.eng.side = { kept with rstLow := true } ∧ reset t) ∧
      (s.eng.side.pllLock = true →
        ∃ t, exec (.lockLoss w) s = .next t ∧
          t.eng.side = { kept with pllLock := false, clk := .ref, lockLoss := true } ∧ reset t)) ∧
  (∀ (s : State) (w : BitVec 12),
      (s.eng.side.rstLow = true → exec (.warmReset w) s = .next s) ∧
      (s.eng.side.pllLock = false → exec (.lockLoss w) s = .next s) ∧
      (s.eng.side.relStep = .waitClock ∨ s.eng.side.relStep = .fuses ∨ s.eng.side.relStep = .held →
        (s.eng.side.rstLow = false → exec (.warmReset w) s =
          .next { s with eng := { s.eng with side := { s.eng.side with rstLow := true } } }) ∧
        (s.eng.side.pllLock = true → exec (.lockLoss w) s =
          .next { s with eng := { s.eng with
            side := { s.eng.side with pllLock := false, clk := .ref, lockLoss := true } } })))

/-- Tier 2. CLOCK_LOCKED, WARM_RESET_RELEASE and RELEASE_STEP_DONE take the release order from step to step (R10, R31,
R28, R19); out of their turn they change nothing but the input they show. The last release step (R31 steps 5 and 6, R19,
R277, R279): with a node number of 13 bits the access tables hold the fixed entries of masters 0x00 and 0x80 and the entry
of the physical function, every lane's throttle is high, and the engine is ready; with more bits set the fault bit stands,
and from then on the step never ends: RELEASE_STEP_DONE changes nothing, with whatever number, until a reset (a reading,
notes/assumptions/64.md, DEDUCED). -/
def Obligations.ReleaseOrder : Prop :=
  (∀ (s : State) (lc dbg : BitVec 2) (node : W16),
      (s.eng.side.pllLock = false → s.eng.side.relStep = .waitClock →
        ∃ t, exec .clockLocked s = .next t ∧ t.eng.side.pllLock = true ∧ t.eng.side.clk = .root ∧
          t.eng.side.relStep = .fuses ∧ t.mem = s.mem) ∧
      (s.eng.side.pllLock = true → exec .clockLocked s = .next s) ∧
      (s.eng.side.relStep = .fuses → s.eng.side.pllLock = true → s.eng.side.rstLow = false →
        ∃ t, exec (.releaseStepDone lc dbg node) s = .next t ∧ t.eng.side.lc = lc ∧
          t.eng.side.dbgSeen = (if dbg = 3 then 0 else dbg) ∧ t.eng.side.devKeyHere = decide (lc = 0 ∨ lc = 1) ∧
          t.eng.side.relStep = .control ∧ t.eng.ctl.bootRom = true ∧ t.mem = s.mem) ∧
      (s.eng.side.relStep = .fuses → (s.eng.side.pllLock = false ∨ s.eng.side.rstLow = true) →
        ∃ t, exec (.releaseStepDone lc dbg node) s = .next t ∧ t.eng.side.lc = lc ∧ t.eng.side.relStep = .held ∧
          t.eng.ctl = s.eng.ctl ∧ t.mem = s.mem) ∧
      (s.eng.side.relStep = .control →
        ∃ t, exec (.releaseStepDone lc dbg node) s = .next t ∧ t.eng.side.relStep = .coreClear ∧ t.mem = s.mem) ∧
      (s.eng.side.relStep = .coreClear →
        ∃ t, exec (.releaseStepDone lc dbg node) s = .next t ∧ t.eng.side.relStep = .fabTables ∧
          t.eng.basin.valid = [] ∧
          (∀ i : Fin 12, getLane t.eng i.val = { idleFrom := s.eng.side.ts, rstCause := true }) ∧ t.mem = s.mem) ∧
      (s.eng.side.relStep = .waitClock ∨ s.eng.side.relStep = .held ∨ s.eng.side.relStep = .ready →
        exec (.releaseStepDone lc dbg node) s = .next s) ∧
      (s.eng.side.relStep = .held → s.eng.side.pllLock = true →
        ∃ t, exec .warmResetRelease s = .next t ∧ t.eng.side.rstLow = false ∧ t.eng.side.relStep = .control ∧
          t.eng.ctl.bootRom = true ∧ t.mem = s.mem) ∧
      ((s.eng.side.relStep ≠ .held ∨ s.eng.side.pllLock = false) → exec .warmResetRelease s =
        .next { s with eng := { s.eng with side := { s.eng.side with rstLow := false } } }) ∧
      (s.eng.side.relStep = .held → s.eng.side.rstLow = false → s.eng.side.pllLock = false →
        ∃ t, exec .clockLocked s = .next t ∧ t.eng.side.clk = .root ∧ t.eng.side.relStep = .control ∧ t.mem = s.mem)) ∧
  (∀ (s : State) (lc dbg : BitVec 2) (node : W16), s.eng.side.relStep = .fabTables →
      (s.eng.ctl.nodeFault = false →
        (fld node 13 3 = 0 →
          ∃ t, exec (.releaseStepDone lc dbg node) s = .next t ∧ t.eng.side.relStep = .ready ∧ t.eng.ctl.node = node ∧
            t.eng.regs.accReg = [(0x00, 0x15FE1FFF), (0x80, 0x00000E87)] ∧ t.eng.regs.accFab = [(0, 0x00010000)] ∧
            t.eng.regs.accSto = [] ∧ (∀ i : Fin 12, (getLane t.eng i.val).wthr = true ∧ (getLane t.eng i.val).rstCause = false) ∧
            t.mem = s.mem) ∧
        (fld node 13 3 ≠ 0 →
          ∃ t, exec (.releaseStepDone lc dbg node) s = .next t ∧ t.eng.side.relStep = .fabTables ∧
            t.eng.ctl.nodeFault = true ∧ t.mem = s.mem)) ∧
      (s.eng.ctl.nodeFault = true → exec (.releaseStepDone lc dbg node) s = .next s))

/-- Tier 2. The hold-up sideband (R24 to R27): HOLDUP_POLL starts a poll of the configured bus address and register
pointer when none is running and the period has passed; HOLDUP_READING and SIDEBAND_STRETCH_TIMEOUT end it, and a Terrace 1 drain that waits for energy decides again;
a reading with a new sample number clears the stale mark and sets the sample's time; HOLDUP_STALE marks a sample that
is too old; HOLDUP_ALERT is the pin. -/
def Obligations.HoldupSideband : Prop :=
  ∀ (s : State) (w : W32) (b : Bool),
    (s.eng.side.relStep ≠ .waitClock → s.eng.side.hBusy = false →
      Regs.pollPeriod s.eng.regs ≤ (s.eng.side.ts - s.eng.side.hPollTs).toNat →
        exec .holdupPoll s =
          .next { s with eng := { s.eng with side := { s.eng.side with
            hBusy := true, hPollTs := s.eng.side.ts
            hBus := some (fld s.eng.regs.sideband 0 7, fld s.eng.regs.sideband 8 8) } } }) ∧
    (s.eng.side.hBusy = true → fld w 16 8 ≠ fld s.eng.side.hRecord 16 8 →
      exec (.holdupReading (some w)) s =
        .next { s with eng := decideAgain { s.eng with side := { s.eng.side with
          hBusy := false, hFailed := false, hRecord := w, hStale := false, hSampleTs := s.eng.side.ts } } }) ∧
    (s.eng.side.hBusy = true → fld w 16 8 = fld s.eng.side.hRecord 16 8 →
      exec (.holdupReading (some w)) s =
        .next { s with eng := decideAgain { s.eng with side := { s.eng.side with
          hBusy := false, hFailed := false, hRecord := w } } }) ∧
    (s.eng.side.hBusy = true →
      exec (.holdupReading none) s =
        .next { s with eng := decideAgain { s.eng with side := { s.eng.side with hBusy := false, hFailed := true } } } ∧
      exec .sidebandStretchTimeout s =
        .next { s with eng := decideAgain { s.eng with side := { s.eng.side with hBusy := false, hFailed := true } } }) ∧
    (s.eng.side.relStep ≠ .waitClock → Regs.staleness s.eng.regs < (s.eng.side.ts - s.eng.side.hSampleTs).toNat →
      exec .holdupStale s = .next { s with eng := { s.eng with side := { s.eng.side with hStale := true } } }) ∧
    (s.eng.side.relStep ≠ .waitClock →
      exec (.holdupAlert b) s = .next { s with eng := { s.eng with side := { s.eng.side with hAlert := b } } })

/-- Tier 2. POWER_STATE (R296, R298, R29): Active or Drowse drives the request at once, and when the power
controller's acknowledgement already equals it the command ends OK and the state is in force; otherwise the command
waits. Retention, with no Crossing open, first takes no more commands and drives every throttle low; once nothing is under
way on the memory, storage and Pass ports it drives its request, and when the acknowledgement already equals it the
windows are emptied and the state is in force. The reserved state, Retention with a Crossing open and, one request being
served at a time (a reading, notes/assumptions/46.md, DEDUCED), a second request are refused with OUT_OF_RANGE and change
no power field. POWER_ACK and POWER_REQ_TIMEOUT (R29, R295, R298): an acknowledgement that differs from the request leaves
the state in force; one that equals it ends the waiting POWER_STATE with OK and its state comes into force: Active ungates
every bank, Drowse gates those without a valid page but for the lowest of each partition, Retention gates every one
without a valid page and empties the windows. One millisecond after the request without a match POWER_MISMATCH is raised
with both values, the request falls back to the state in force, and the command ends OUT_OF_RANGE; before that, with a
match or with no request driven nothing happens. WAKE (R297): in Retention the write of the wake bit drives the power
request Active, once; when the acknowledgement comes, or is there already, the state is Active and what stood still goes
on; outside Retention, and while a wake is under way, the write has no effect. -/
def Obligations.PowerStates : Prop :=
  (∀ (q : Fin 64) (s : State) (p : BitVec 512), Taken s q.val 0x70 p →
      let r : BitVec 2 := (pkw p 1).extractLsb' 0 2
      let c := cmdOf q.val p
      (r = 0 ∨ r = 1 → s.eng.side.pwrWait = none → s.eng.side.pwrAck = r →
        ∃ t, exec (.powerState q) s = .next t ∧ t.mem = s.mem ∧
          t.eng.side = { s.eng.side with pwrReq := r, pwrSince := s.eng.side.ts, pwrState := r } ∧
          Answered s.eng t.eng c stOK 0 0) ∧
      (r = 0 ∨ r = 1 → s.eng.side.pwrWait = none → s.eng.side.pwrAck ≠ r →
        ∃ t, exec (.powerState q) s = .next t ∧ t.mem = s.mem ∧
          t.eng.side = { s.eng.side with pwrReq := r, pwrSince := s.eng.side.ts, pwrWait := some { cmd := c, req := r } }) ∧
      (r = 2 → s.eng.side.pwrWait = none → (∀ y ∈ s.eng.valleys, y.2.opened = false) → s.eng.side.pwrReq ≠ 2 →
        ∃ t, exec (.powerState q) s = .next t ∧ t.mem = s.mem ∧ t.eng.ctl.noTake = true ∧
          (∀ i : Fin 12, (getLane t.eng i.val).wthr = false) ∧ t.eng.valleys = s.eng.valleys ∧
          (quiet s.eng = false → t.eng.side = { s.eng.side with pwrWait := some { cmd := c, req := 2 } }) ∧
          (quiet s.eng = true → s.eng.side.pwrAck ≠ 2 → t.eng.side = { s.eng.side with
            pwrReq := 2, pwrSince := s.eng.side.ts, pwrWait := some { cmd := c, req := 2 } }) ∧
          (quiet s.eng = true → s.eng.side.pwrAck = 2 →
            t.eng.side = { s.eng.side with pwrReq := 2, pwrSince := s.eng.side.ts, pwrState := 2 } ∧
            (∀ i, (getLane t.eng i).window = []) ∧ Answered s.eng t.eng c stOK 0 0)) ∧
      ((r = 3 ∨ s.eng.side.pwrWait ≠ none ∨ (r = 2 ∧ ∃ y ∈ s.eng.valleys, y.2.opened = true)) →
        ∃ t, exec (.powerState q) s = .next t ∧ OnlyReplies s t q.val p stOutOfRange 0 0)) ∧
  (∀ (s : State) (ack : BitVec 2) (w : PowerWait),
      s.eng.side.pwrWait = some w → s.eng.side.pwrReq = w.req → cpRuns s.eng = true → s.eng.side.pwrState ≠ 2 →
      (ack ≠ w.req →
        exec (.powerAck ack) s = .next { s with eng := { s.eng with side := { s.eng.side with pwrAck := ack } } }) ∧
      (ack = w.req →
        ∃ t, exec (.powerAck ack) s = .next t ∧ t.mem = s.mem ∧
          t.eng.side = { s.eng.side with pwrAck := ack, pwrState := ack, pwrWait := none } ∧
          Answered s.eng t.eng w.cmd stOK 0 0 ∧ t.eng.valleys = s.eng.valleys ∧ t.eng.basin.words = s.eng.basin.words ∧
          (ack = 0 → t.eng.basin.gated = 0 ∧ ∀ i, (getLane t.eng i).gated = false) ∧
          (ack = 1 → ∀ b, b < 32 → bit t.eng.basin.gated b =
            (bit s.eng.basin.gated b || (!bankValid s.eng b && !lowestBank s.eng b))) ∧
          (ack = 2 → (∀ b, b < 32 → bit t.eng.basin.gated b = !bankValid s.eng b) ∧
            ∀ i, (getLane t.eng i).window = [])) ∧
      (powerLate s.eng = true →
        ∃ f, exec .powerReqTimeout s = .next { s with eng := if w.req = 2 then pokeAll s.mem f else f } ∧
          f.side = { s.eng.side with pwrReq := s.eng.side.pwrState, waking := false, pwrWait := none } ∧
          f.ctl.noTake = false ∧ f.valleys = s.eng.valleys ∧
          f.ctl.evt = (raise s.eng evPowerMismatch stOutOfRange none
            (pack [(0, s.eng.side.pwrReq.toNat), (8, s.eng.side.pwrAck.toNat)]) 0).ctl.evt ∧
          Answered s.eng f w.cmd stOutOfRange 0 0)) ∧
  (∀ s : State,
      (powerLate s.eng = true ↔
        (s.eng.side.waking = true ∨ ∃ w, s.eng.side.pwrWait = some w ∧ s.eng.side.pwrReq = w.req) ∧
        (s.eng.side.pwrWait = none ∨ cpRuns s.eng = true) ∧ s.eng.side.pwrAck ≠ s.eng.side.pwrReq ∧
        1000000 ≤ (s.eng.side.ts - s.eng.side.pwrSince).toNat) ∧
      (powerLate s.eng = false → exec .powerReqTimeout s = .next s)) ∧
  (∀ s : State, s.eng.side.pwrState = 2 → s.eng.side.waking = true → s.eng.side.pwrReq = 0 →
      ∃ f, exec (.powerAck 0) s = .next { s with eng := pokeAll s.mem f } ∧
        f.side = { s.eng.side with pwrAck := 0, pwrState := 0, waking := false } ∧ f.ctl.noTake = false ∧
        f.basin.gated = 0 ∧ f.valleys = s.eng.valleys) ∧
  (∀ (mid : BitVec 8) (data : W32) (s : State), Reaches s mid true 0xA0000 →
      (bit data 0 = true → s.eng.side.pwrState = 2 → s.eng.side.waking = false → s.eng.side.pwrAck ≠ 0 →
        ∃ t, exec (.wake mid data) s = .next t ∧ t.mem = s.mem ∧ t.eng.io.rsp = some (0, 0) ∧
          t.eng.side = { s.eng.side with waking := true, pwrReq := 0, pwrSince := s.eng.side.ts } ∧
          t.eng.valleys = s.eng.valleys ∧ t.eng.ctl = s.eng.ctl) ∧
      (bit data 0 = true → s.eng.side.pwrState = 2 → s.eng.side.waking = false → s.eng.side.pwrAck = 0 →
        ∃ f, exec (.wake mid data) s = .next { s with eng := respond (pokeAll s.mem f) 0 0 } ∧
          f.side = { s.eng.side with pwrReq := 0, pwrSince := s.eng.side.ts, pwrState := 0, waking := false } ∧
          f.ctl.noTake = false ∧ f.valleys = s.eng.valleys) ∧
      ((bit data 0 = false ∨ s.eng.side.pwrState ≠ 2 ∨ s.eng.side.waking = true) →
        exec (.wake mid data) s = .next { s with eng := { s.eng with io := { s.eng.io with rsp := some (0, 0) } } }))

/-- Tier 2. RETENTION_FLIT_DROP counts, saturating, in Retention only (R296). DEBUG_LEVEL_CHANGE is seen at once, acts
later, and the reserved level reads as 0 (R28, R293); it makes the key users end, before it acts, exactly when it raises
the level to Invasive in the Deployed state. DEBUG_LEVEL (R28, R286, R293, R294, R299): once no key user is left, or when
none has to end, the level that was seen is in force; one that raises it to Invasive in the Deployed state zeroes every
job key and exchange key before that and raises KEYS_ZEROED, with or without a key loaded (a reading,
notes/assumptions/21.md); every change of level rewrites the debug master's entry of the register-file access table and
raises DEBUG_LEVEL with both levels, and leaving Invasive ends a halt of the control processor. DEBUG_LEVEL_CHANGE, the
release steps, one of which samples the level, and the resets keep this invariant: a level that was seen waits for the key
users exactly if it is a change to Invasive in the Deployed state. DRBG_RESEED (R288): a reseed that is due and passes its health tests clears RNG_FAULT; one
that fails them sets it and counts every failed test; one that is not due does nothing. -/
def Obligations.LevelsSamplesAndReseed : Prop :=
  (∀ (s : State) (lvl : BitVec 2),
      let seen : BitVec 2 := if lvl = 3 then 0 else lvl
      (s.eng.side.pwrState = 2 → ∃ t, exec .retentionFlitDrop s = .next t ∧ t.mem = s.mem ∧
        t.eng = { s.eng with side := { s.eng.side with retFlits := t.eng.side.retFlits } } ∧
        t.eng.side.retFlits.toNat = min (s.eng.side.retFlits.toNat + 1) 0xFFFFFFFF) ∧
      (s.eng.side.pwrState ≠ 2 → exec .retentionFlitDrop s = .next s) ∧
      (s.eng.side.relStep ≠ .waitClock → exec (.debugLevelChange lvl) s =
        .next { s with eng := { s.eng with side := { s.eng.side with
          dbgSeen := seen, dbgActing := decide (seen = 2 ∧ s.eng.side.dbgLvl ≠ 2 ∧ s.eng.side.lc = 1) } } }) ∧
      (s.eng.side.relStep = .waitClock → exec (.debugLevelChange lvl) s = .next s)) ∧
  (∀ s : State, ctlOn s.eng = true → s.eng.side.dbgSeen ≠ s.eng.side.dbgLvl →
      (s.eng.side.dbgActing = true → keyUsersGone s.eng = true) →
        ∃ f, exec .debugLevel s = .next { s with eng := advance s.mem f } ∧
          f.side = { s.eng.side with dbgLvl := s.eng.side.dbgSeen, dbgActing := false } ∧
          f.regs = { s.eng.regs with accReg := Tab.set s.eng.regs.accReg 0x81 (accDebug s.eng.side.dbgSeen) } ∧
          f.ctl.keys = (if s.eng.side.dbgActing then [] else s.eng.ctl.keys) ∧ f.valleys = s.eng.valleys ∧
          f.ctl.cpHaltBit = (s.eng.ctl.cpHaltBit && decide (s.eng.side.dbgLvl ≠ 2)) ∧
          (s.eng.ctl.cpHaltBit = false →
            ∃ g, f = raise g evDebugLevel stOK none
                (pack [(0, s.eng.side.dbgSeen.toNat), (8, s.eng.side.dbgLvl.toNat)]) 0 ∧
              g.ctl.evt = (if s.eng.side.dbgActing then
                  (raise s.eng evKeysZeroed stOK none (pack [(0, 2), (16, 0xFFFF)]) 0).ctl.evt else s.eng.ctl.evt))) ∧
  (∀ s : State, ctlOn s.eng = true → s.eng.side.dbgSeen = s.eng.side.dbgLvl → s.eng.side.dbgActing = false →
      exec .debugLevel s = .next { s with eng := { s.eng with regs := { s.eng.regs with
        accReg := Tab.set s.eng.regs.accReg 0x81 (accDebug s.eng.side.dbgLvl) } } }) ∧
  (∀ s : State, (ctlOn s.eng = false ∨ (s.eng.side.dbgActing = true ∧ keyUsersGone s.eng = false)) →
      exec .debugLevel s = .next s) ∧
  (∀ (s t : State) (c : Instr) (lvl lc : BitVec 2) (node : W16) (w : BitVec 12),
      c ∈ [.debugLevelChange lvl, .powerOnReset, .warmReset w, .lockLoss w, .releaseStepDone lc lvl node, .clockLocked,
        .warmResetRelease] →
      let good (x : Side) : Prop := x.dbgActing = decide (x.dbgSeen = 2 ∧ x.dbgLvl ≠ 2 ∧ x.lc = 1)
      good s.eng.side → exec c s = .next t → good t.eng.side) ∧
  (∀ (s : State) (n : Nat), ctlOn s.eng = true →
      ((s.eng.side.rngFault = true ∨ s.eng.ctl.drbgSeeded + 1048576 ≤ s.eng.ctl.drbgCount) →
        (exec (.drbgReseed 0) s = .next { s with eng := { s.eng with
            side := { s.eng.side with rngFault := false }, ctl := { s.eng.ctl with drbgSeeded := s.eng.ctl.drbgCount } } }) ∧
        (n ≠ 0 → ∃ t, exec (.drbgReseed n) s = .next t ∧ t.mem = s.mem ∧ t.eng.side = { s.eng.side with rngFault := true } ∧
            t.eng.ctl.rngFails = s.eng.ctl.rngFails + n ∧ t.eng.valleys = s.eng.valleys)) ∧
      (s.eng.side.rngFault = false → s.eng.ctl.drbgCount < s.eng.ctl.drbgSeeded + 1048576 →
        exec (.drbgReseed n) s = .next s))

/-- Tier 2. READ_SNOOP (R12): the line becomes the most recent one of its lane's window; what the window held before
keeps its values and its order behind it, and of more than 8,192 lines the one longest in place is evicted, so that the
window keeps at most 8,192 distinct lines. Nothing else changes but the lane's idle time and its clock, which runs (R295).
THROTTLE_CAUSE_CLEARED (R110) raises a lane's throttle once no cause holds for it. LANE_GATE (R295) gates, in Drowse, the
clock of a lane that has taken no snoop and no coded write and presented no accumulate for LANE_GATE_IDLE, and does
nothing before; neither changes memory, Valleys or regions. -/
def Obligations.WindowThrottleAndGate : Prop :=
  (∀ (lane : Fin 12) (line : BitVec 33) (data : Line) (s : State), ctlOn s.eng = true →
      let l := getLane s.eng lane.val
      let rest := l.window.filter fun p => decide (p.1 ≠ line.toNat)
      ∃ t, exec (.readSnoop lane line data) s = .next t ∧ t.mem = s.mem ∧
        t.eng = { s.eng with lanes := t.eng.lanes } ∧
        getLane t.eng lane.val =
          { l with window := ((line.toNat, data) :: rest).take 8192, gated := false, idleFrom := s.eng.side.ts } ∧
        winGet (getLane t.eng lane.val).window line.toNat = some data ∧
        (rest.length < 8192 → ∀ k, k ≠ line.toNat → winGet (getLane t.eng lane.val).window k = winGet l.window k) ∧
        (∀ k, k ≠ line.toNat → winGet l.window k = none → winGet (getLane t.eng lane.val).window k = none) ∧
        (getLane t.eng lane.val).window.length ≤ 8192 ∧
        (l.window.Pairwise (fun a b => a.1 ≠ b.1) →
          (getLane t.eng lane.val).window.Pairwise (fun a b => a.1 ≠ b.1)) ∧
        (∀ j, j ≠ lane.val → getLane t.eng j = getLane s.eng j)) ∧
  (∀ (lane : Fin 12) (s : State), ctlOn s.eng = true →
      let l := getLane s.eng lane.val
      let acc := Tab.get (0, l.idleFrom) s.eng.io.accLane lane.val
      let idle := Regs.laneGateIdle s.eng.regs ≤ 2 * (s.eng.side.ts - l.idleFrom).toNat ∧
        Regs.laneGateIdle s.eng.regs ≤ 2 * (s.eng.side.ts - acc.2).toNat
      (l.q = [] → l.fifoHyst = false → l.rstCause = false → retentionHold s.eng = false →
        (∀ v, (getV s.eng v).expo.jobs = []) →
          ∃ t, exec (.throttleCauseCleared lane) s = .next t ∧ t.mem = s.mem ∧ (getLane t.eng lane.val).wthr = true ∧
            t.eng = { s.eng with lanes := t.eng.lanes } ∧ (∀ j, j ≠ lane.val → getLane t.eng j = getLane s.eng j)) ∧
      (s.eng.side.pwrState = 1 → l.q = [] → l.fifo = [] → idle →
          ∃ t, exec (.laneGate lane) s = .next t ∧ t.mem = s.mem ∧ laneGated t.eng lane.val = true ∧
            getLane t.eng lane.val = { l with gated := true, gateAcc := acc.1 } ∧
            t.eng = { s.eng with lanes := t.eng.lanes } ∧ (∀ j, j ≠ lane.val → getLane t.eng j = getLane s.eng j)) ∧
      ((s.eng.side.pwrState ≠ 1 ∨ l.q ≠ [] ∨ l.fifo ≠ [] ∨ ¬ idle) → exec (.laneGate lane) s = .next s))

/-- Tier 2. CODED_WRITE with a difference of zero (R51; R13 for the window and the hit count): the write is performed,
and outside its lane nothing of the engine changes but the count of accepted writes (the model's own,
notes/assumptions/66.md): no block, nothing sent, nothing retained, no digest; the lane's staging FIFO stays. -/
def Obligations.ZeroDifferenceIsSuppressed : Prop :=
  ∀ (lane : Fin 12) (line : BitVec 33) (be : BitVec 256) (new old : Line) (s : State),
    ctlOn s.eng = true → (getLane s.eng lane.val).q = [] →
    winGet (getLane s.eng lane.val).window line.toNat = some old → (old ^^^ new) &&& beMask be = 0 →
    (∀ v, (getV s.eng v).expo.jobs = []) →
      ∃ t, exec (.codedWrite lane line be new) s = .next t ∧ t.mem = Mem.writeLine s.mem line.toNat be new ∧
        t.eng = { s.eng with lanes := t.eng.lanes, io := { s.eng.io with writes := s.eng.io.writes + 1 } } ∧
        (∀ j, j ≠ lane.val → getLane t.eng j = getLane s.eng j) ∧
        (getLane t.eng lane.val).q = [] ∧ (getLane t.eng lane.val).fifo = (getLane s.eng lane.val).fifo ∧
        (getLane t.eng lane.val).hit = (getLane s.eng lane.val).hit + 1 ∧
        (getLane t.eng lane.val).miss = (getLane s.eng lane.val).miss

/-- Tier 2. The memory side of CODED_WRITE, OLD_LINE_RETURN and HELD_WRITE_RELEASE (R11, R13, R60, R62, R313): where
the judgement of the lane's one write, which the controller has not performed yet, says performed or suppressed, the
controller writes the enabled bytes of the line, every byte outside them reads as before, and the write leaves the lane; a
suppressed write issues one accumulate of its difference to the line. -/
def Obligations.CodedWriteReachesMemory : Prop :=
  ∀ (lane : Fin 12) (line : BitVec 33) (be : BitVec 256) (new old : Line) (s : State) (e0 e1 : Eng) (c : Instr)
    (w : LaneWrite),
    ctlOn s.eng = true → w.line = line.toNat → w.be = be → w.new = new → w.engine = false → w.inMem = false →
    (c = .codedWrite lane line be new ∧ (getLane s.eng lane.val).q = [] ∧
        winGet (getLane s.eng lane.val).window line.toNat = some old ∧
        e0 = updLane (acceptWrite s.eng lane.val line.toNat be new) lane.val clearWaits ∨
     c = .oldLineReturn lane old ∧ w.old = none ∧ (getLane s.eng lane.val).q = [w] ∧
        e0 = updLane (updLane s.eng lane.val fun l => { l with q := giveOld old l.q }) lane.val clearWaits ∨
     c = .heldWriteRelease lane ∧ (getLane s.eng lane.val).winCause = true ∧ w.old = some old ∧
        (getLane s.eng lane.val).q = [w] ∧ e0 = updLane s.eng lane.val clearWaits) →
    let judged := judge s.mem e0 lane.val line.toNat be old new ((old ^^^ new) &&& beMask be) false
    (judged = (e1, .performed) →
      ∃ t, exec c s = .next t ∧ t.mem = Mem.writeLine s.mem line.toNat be new ∧
        (∀ a, (∀ i, i < 256 → bit be i = true → a ≠ 256 * line.toNat + i) → t.byteAt a = s.byteAt a) ∧
        (∀ i, i < 256 → bit be i = true → t.byteAt (256 * line.toNat + i) = Line.byte new i) ∧
        ((∀ v, (getV e1 v).expo.jobs = []) → (getLane t.eng lane.val).q = [] ∧ t.eng.io = e1.io ∧ t.eng.valleys = e1.valleys)) ∧
    (judged = (e1, .suppressed) →
      ∃ t, exec c s = .next t ∧ t.mem = Mem.writeLine s.mem line.toNat be new ∧
        ((∀ v, (getV e1 v).expo.jobs = []) → (getLane t.eng lane.val).q = [] ∧
          t.eng.io = (accumDiff e1 line.toNat ((old ^^^ new) &&& beMask be) .plain).io ∧ t.eng.valleys = e1.valleys))

/-- Tier 2. CODED_WRITE whose line the window does not hold (R13): the lane asks for the old line and waits, the miss
counter gains one, and memory is not written yet. What stops a lane's port is the model's reading of inputs that the spec
forbids (notes/assumptions/11.md, DEDUCED): a coded write beyond the eight a lane holds, which R15 and R106 rule out, and
an old line nobody asked for, which R13 does. -/
def Obligations.LanePortWaitsAndStops : Prop :=
  (∀ (lane : Fin 12) (line : BitVec 33) (be : BitVec 256) (new : Line) (s : State),
      ctlOn s.eng = true → (getLane s.eng lane.val).q = [] →
      winGet (getLane s.eng lane.val).window line.toNat = none → (∀ v, (getV s.eng v).expo.jobs = []) →
        ∃ t, exec (.codedWrite lane line be new) s = .next t ∧ t.mem = s.mem ∧
          (getLane t.eng lane.val).q =
            [{ line := line.toNat, be := be, new := new, old := none, num := s.eng.io.writes }] ∧
          (getLane t.eng lane.val).miss = (getLane s.eng lane.val).miss + 1 ∧
          (getLane t.eng lane.val).hit = (getLane s.eng lane.val).hit ∧ t.eng.valleys = s.eng.valleys ∧
          t.eng.io = { s.eng.io with writes := s.eng.io.writes + 1 }) ∧
  (∀ (lane : Fin 12) (line : BitVec 33) (be : BitVec 256) (new : Line) (s : State), ctlOn s.eng = true →
      (8 ≤ (getLane s.eng lane.val).q.length → exec (.codedWrite lane line be new) s = .fault .laneOverrun) ∧
      ((∀ w ∈ (getLane s.eng lane.val).q, w.old ≠ none) → exec (.oldLineReturn lane new) s = .fault .oldLineUnasked))

/-- Tier 2. The order of judgement (R313, R59, R60, R264): a zero difference is performed; outside every region a
write is performed and nothing changes; a region whose Valley is not joined suppresses with UNCROSSED_WRITE; in a
joined Valley without a drain the phase decides next, and then the Reach and the region. -/
def Obligations.JudgementOrder : Prop :=
  ∀ (m : Mem) (e : Eng) (lane line : Nat) (be : BitVec 256) (old new δ : Line) (own : Bool),
    judge m e lane line be old new 0 own = (e, .performed) ∧
    (δ ≠ 0 → regionAt e (256 * line) = none → judge m e lane line be old new δ own = (e, .performed)) ∧
    (∀ d reg, δ ≠ 0 → regionAt e (256 * line) = some (d, reg) →
      (isJoined (getV e (Region.valley reg)) = false →
        ∃ f, judge m e lane line be old new δ own = (f, .suppressed) ∧ (getR f d).suppr = satInc (getR e d).suppr ∧
          (getR f d).evUncr = true ∧ f.lanes = e.lanes ∧ f.valleys = e.valleys ∧ f.spill = e.spill) ∧
      (∀ r l, isJoined (getV e (Region.valley reg)) = true → placeAt e (Region.valley reg) d (256 * line) = some (r, l) →
        (getV e (Region.valley reg)).t1 = none →
        (phaseVerdict (getV e (Region.valley reg)) (decide (r.cls = clsLanding)) = .late →
          ∃ f, judge m e lane line be old new δ own = (f, .suppressed) ∧ (getR f d).suppr = satInc (getR e d).suppr ∧
            (getR f d).evLate = true ∧ f.lanes = e.lanes ∧ f.valleys = e.valleys) ∧
        (phaseVerdict (getV e (Region.valley reg)) (decide (r.cls = clsLanding)) = .uncrossed →
          ∃ f, judge m e lane line be old new δ own = (f, .suppressed) ∧ (getR f d).suppr = satInc (getR e d).suppr ∧
            (getR f d).evUncr = true ∧ f.lanes = e.lanes ∧ f.valleys = e.valleys) ∧
        (phaseVerdict (getV e (Region.valley reg)) (decide (r.cls = clsLanding)) = .coded →
          judge m e lane line be old new δ own = judgeCoded m e lane (Region.valley reg) d r l be new δ own)))

/-- Tier 2. A frozen region (R64): a coded write of non-zero difference that no earlier test of R313 decides is
suppressed under R60, counted against its region, and raises FROZEN_WRITE once per region and epoch: only where the
region has not raised it since the epoch began. No block, digest or retained record is made. -/
def Obligations.FrozenRegionSuppresses : Prop :=
  ∀ (m : Mem) (e : Eng) (lane v d : Nat) (r : ReachInfo) (line : Nat) (be : BitVec 256) (new δ : Line) (own : Bool),
    ((getV e v).crossMode = true ∨ (getV e v).phase ≠ .opened ∨ r.cls = clsLanding ∨
      ((getV e v).autoSeal = false ∧ writable e v r.num = true)) → (getReach (getV e v) r.num).unbuilt = false →
    (own = false → exportNames (getV e v) d = false) → (getR e d).frozen = true →
      ∃ f, judgeCoded m e lane v d r line be new δ own = (f, .suppressed) ∧
        (getR f d).suppr = satInc (getR e d).suppr ∧ (getR f d).evFroz = true ∧
        f.lanes = e.lanes ∧ f.valleys = e.valleys ∧ f.spill = e.spill ∧ f.basin = e.basin ∧ f.io.acc = e.io.acc ∧
        ((getR e d).evFroz = true → f.ctl.evt = e.ctl.evt ∧ f.io = e.io) ∧
        ((getR e d).evFroz = false → ∃ g, f = raise g evFrozenWrite stFrozenWrite (some v) (BitVec.ofNat 64 d) (getV e v).epoch ∧
          g.ctl = e.ctl ∧ g.io = e.io)

/-- Tier 2. STAGING_WORD_OUT (R106, R108): a clean or corrected first word leaves the FIFO once its entries have
found room in their rings, and a corrected one is counted; an uncorrectable one is counted, leaves the FIFO, and
silences every Valley with bytes in it; with the room that is free the lane's held writes then go on. INBOUND_RING_APPLY
(R104, R78): the first block that waits on an inbound ring goes as one accumulate to its line of pending parity, behind
every coded write that the lanes have accepted (R16), and the others keep their order; the last one frees the ring's
pages (a reading, notes/assumptions/67.md). -/
def Obligations.StagedAndInboundBlocksMove : Prop :=
  (∀ (lane : Fin 12) (s : State) (w : StgWord) (rest : List StgWord), ctlOn s.eng = true →
      (getLane s.eng lane.val).fifo = w :: rest →
      (∀ e1, placeEnds w.ends s.eng = some e1 → getLane e1 lane.val = getLane s.eng lane.val →
        ∃ f g, exec (.stagingWordOut lane .clean) s = .next (laneResult s (goLane s.mem f lane.val)) ∧
          exec (.stagingWordOut lane .single) s = .next (laneResult s (goLane s.mem g lane.val)) ∧
          (getLane f lane.val).fifo = rest ∧ (getLane g lane.val).fifo = rest ∧
          (getLane f lane.val).q = (getLane s.eng lane.val).q ∧
          f.valleys = e1.valleys ∧ g.valleys = e1.valleys ∧
          (getLane f lane.val).stCorr = (getLane s.eng lane.val).stCorr ∧
          (getLane g lane.val).stCorr = satInc (getLane s.eng lane.val).stCorr) ∧
      (placeEnds w.ends s.eng = none → ∀ k : StagingErr, k ≠ .double →
        exec (.stagingWordOut lane k) s = .next (laneResult s (goLane s.mem s.eng lane.val))) ∧
      (∃ f, exec (.stagingWordOut lane .double) s = .next (laneResult s (goLane s.mem f lane.val)) ∧
        (getLane f lane.val).fifo = rest ∧
        (getLane f lane.val).stUncorr = satInc (getLane s.eng lane.val).stUncorr ∧
        ∀ v, (getV f v).faulted = ((getV s.eng v).faulted || w.parts.contains v))) ∧
  (∀ (v : Fin 16) (d : Fin 64) (s : State) (b : InBlock) (rest : List InBlock) (g : Nat), ctlOn s.eng = true →
      (getIn (getV s.eng v.val) d.val).waiting = b :: rest →
      Tab.find (getV s.eng v.val).pend (pendKey b.reach (tileOfLine b.line)) = some g →
        ∃ t, exec (.inboundRingApply v d) s = .next t ∧ t.mem = s.mem ∧
          t.eng.io.acc = s.eng.io.acc ++
            [{ line := spillPageAddr s.eng g / 256 + b.line % 16, be := nzMask b.diff, data := b.diff
               why := .block v.val d.val b.reach b.epoch, after := s.eng.io.writes }] ∧
          t.eng.io.ctlOut = s.eng.io.ctlOut ∧ t.eng.io.tx = s.eng.io.tx ∧ t.eng.io.writes = s.eng.io.writes ∧
          (getIn (getV t.eng v.val) d.val).waiting = rest ∧
          (rest = [] → ∀ p ∈ (getIn (getV s.eng v.val) d.val).pages, Tab.find t.eng.basin.owners p = none) ∧
          t.eng.lanes = s.eng.lanes ∧ t.eng.spill = s.eng.spill ∧ t.eng.regions = s.eng.regions)

/-- Tier 2. RETAINED_RECORD_WRITE (R101) writes the first unwritten record of a Valley, at its place in the spill
pool, by accumulates that name it, and DEMOTE (R102) turns the oldest staged page whose records' writes have all completed
into reference entries and frees it, below DEMOTE_MARK and only there; a page with an accumulate of such a write still
outstanding is passed over. -/
def Obligations.RetentionAndDemotion : Prop :=
  ∀ (v : Fin 16) (s : State), ctlOn s.eng = true →
    (∀ r, (getV s.eng v.val).retained.find? (fun r => !r.written) = some r →
      (recordBytes r).length ≤ 4096 - r.offset →
        ∃ t, exec (.retainedRecordWrite v) s = .next t ∧ t.mem = s.mem ∧
          t.eng.io.acc = (accumBytes s.eng (spillPageAddr s.eng r.page + r.offset) (recordBytes r)
            (.record r.page r.offset)).io.acc ∧
          (getV t.eng v.val).retained =
            (getV s.eng v.val).retained.map (fun x => if x = r then { x with written := true } else x) ∧
          (∀ w, w ≠ v.val → getV t.eng w = getV s.eng w) ∧ t.eng.basin.owners = s.eng.basin.owners ∧
          t.eng.spill = s.eng.spill ∧ t.eng.lanes = s.eng.lanes) ∧
    (Regs.demoteMark s.eng.regs ≤ freeCount s.eng 0 → exec .demote s = .next s) ∧
    (∀ g rest d, freeCount s.eng 0 < Regs.demoteMark s.eng.regs → s.eng.basin.staged = g :: rest →
      Tab.find s.eng.basin.owners g = some (.outRing v.val d) →
      let x := getV s.eng v.val
      (pageWritten s.eng x (getOut x d) g = true →
        ∃ t, exec .demote s = .next t ∧ t.mem = s.mem ∧ Tab.find t.eng.basin.owners g = none ∧
          Tab.find t.eng.basin.valid g = none ∧ g ∉ t.eng.basin.staged ∧
          (getOut (getV t.eng v.val) d).entries = (getOut x d).entries.map (demoteEntry g) ∧
          t.eng.io = s.eng.io ∧ t.eng.lanes = s.eng.lanes) ∧
      (∀ q rho line row b r, .inline q rho line row b g ∈ (getOut x d).entries → recordOf x rho line row q = some r →
        (r.written = false ∨ ∃ a ∈ s.eng.io.acc, a.why = .record r.page r.offset) →
        pageWritten s.eng x (getOut x d) g = false ∧ (rest = [] → exec .demote s = .next s)))

/-- Tier 2. EGRESS_SEND (R103, R80, R119): a control transaction that waits leaves first, as one packet of its type on
the channel; a peer of the Valley counts as sent to, a comparison partner, which is of another Valley, does not; what the
packet carries is its message. That the search passes over the transactions of a silenced Valley and over the node's mail
to itself, where R108 speaks of outbound streams only, is DEDUCED (notes/assumptions/13.md). -/
def Obligations.ControlLeavesFirst : Prop :=
  ∀ (chan : Fin 12) (s : State) (c : CtlOut), ctlOn s.eng = true →
    s.eng.io.ctlOut.find? (fun c => !(getV s.eng c.v).faulted && !ownMail s.eng c) = some c →
      ∃ t p, exec (.egressSend chan) s = .next t ∧ t.mem = s.mem ∧ t.eng.io.tx = p :: s.eng.io.tx ∧ p.chan = chan.val ∧
        p.dst = c.node ∧ p.abort = false ∧ p.cls = 0 ∧
        p.flits = flitsOf (msgParts c.msg).typ c.tag c.from_ c.dest (msgParts c.msg).count c.epoch
          (msgParts c.msg).w2 (msgParts c.msg).w3 (msgParts c.msg).body ∧
        t.eng.io.ctlOut = s.eng.io.ctlOut.erase c ∧
        (toPartner c.msg = false → (getPeer (getV t.eng c.v) c.dest).lastSent = s.eng.side.ts) ∧
        (toPartner c.msg = true → t.eng.valleys = s.eng.valleys) ∧
        t.eng.basin.owners = s.eng.basin.owners ∧ t.eng.lanes = s.eng.lanes ∧ t.eng.regions = s.eng.regions

/-- Tier 2. RESEND_TIMER (R73): while a held seal's count is not reached RESEND_DELAY after the seal or the last
report, one resend report with A and the received window of the stream goes to its sender, and the time starts again;
with no such seal held, or before the delay, nothing happens. BEACON_DUE (R119): a quarter of PEER_TIMEOUT after the last
packet to a watched peer a beacon with the member's step goes to it, outside Retention; otherwise nothing happens.
HELLO_REPEAT (R267): every quarter of PEER_TIMEOUT a joining member sends its hello to every other live member; earlier,
or with no join waiting, nothing happens. -/
def Obligations.PeriodicMessages : Prop :=
  (∀ (v : Fin 16) (d : Fin 64) (reach : Nat) (s : State), ctlOn s.eng = true →
      (Tab.find (getHold (getV s.eng v.val) reach).seals d.val = none → exec (.resendTimer v d reach) s = .next s) ∧
      (∀ sl : SealEnt, Tab.find (getHold (getV s.eng v.val) reach).seals d.val = some sl →
        let x := getV s.eng v.val
        let due := isJoined x && isLive x (inPeer x d.val) && decide (Tab.get 0 (getHold x reach).applied d.val < sl.count.toNat) &&
          decide (x.resendDelay ≤ (s.eng.side.ts - sl.ts).toNat)
        (due = true →
          ∃ t, exec (.resendTimer v d reach) s = .next t ∧ t.mem = s.mem ∧
            t.eng.io = { s.eng.io with ctlOut := s.eng.io.ctlOut ++
              [{ v := v.val, node := nodeOf x (inPeer x d.val), tag := x.tag, from_ := x.self, dest := inPeer x d.val
                 epoch := x.epoch, msg := .resend (getIn x d.val).a (getIn x d.val).win }] } ∧
            Tab.find (getHold (getV t.eng v.val) reach).seals d.val = some { sl with ts := s.eng.side.ts } ∧
            (∀ w, w ≠ v.val → getV t.eng w = getV s.eng w) ∧ t.eng.lanes = s.eng.lanes ∧ t.eng.regions = s.eng.regions) ∧
        (due = false → exec (.resendTimer v d reach) s = .next s))) ∧
  (∀ (v : Fin 16) (m : Fin 64) (s : State), ctlOn s.eng = true →
      let x := getV s.eng v.val
      let due := isJoined x && !x.faulted && decide (s.eng.side.pwrReq ≠ 2) && (watchedPeers x).contains m.val &&
        decide (x.peerTimeout ≤ 4 * (s.eng.side.ts - (getPeer x m.val).lastSent).toNat)
      (due = true →
        ∃ t, exec (.beaconDue v m) s = .next t ∧ t.mem = s.mem ∧
          t.eng.io = { s.eng.io with ctlOut := s.eng.io.ctlOut ++
            [{ v := v.val, node := nodeOf x m.val, tag := x.tag, from_ := x.self, dest := m.val
               epoch := x.epoch, msg := .beacon x.step }] } ∧
          (getPeer (getV t.eng v.val) m.val).lastSent = s.eng.side.ts) ∧
      (due = false → exec (.beaconDue v m) s = .next s)) ∧
  (∀ (v : Fin 16) (s : State), ctlOn s.eng = true →
      let x := getV s.eng v.val
      (x.joinWait = none → exec (.helloRepeat v) s = .next s) ∧
      (∀ w : JoinWait, x.joinWait = some w →
        (x.peerTimeout ≤ 4 * (s.eng.side.ts - w.helloTs).toNat →
          ∃ t, exec (.helloRepeat v) s = .next t ∧ t.mem = s.mem ∧
            t.eng.io = { s.eng.io with ctlOut := s.eng.io.ctlOut ++ (othersLive x).map fun i =>
              { v := v.val, node := nodeOf x i, tag := x.tag, from_ := x.self, dest := i, epoch := x.firstEpoch
                msg := .hello (helloOf s.eng v.val ((othersLive x).all (bit w.matched)) false x.base) } } ∧
            (getV t.eng v.val).joinWait = some { w with helloTs := s.eng.side.ts }) ∧
        (4 * (s.eng.side.ts - w.helloTs).toNat < x.peerTimeout → exec (.helloRepeat v) s = .next s)))

/-- Tier 2. PEER_SILENCE (R120, R122): a watched peer that has been silent for PEER_TIMEOUT gets its suspicion bit;
the designated reporter (R121) reports at once, every other member starts the holdoff of its report and raises
nothing. HOLDOFF_END and SUSPECT_GAP_END (R122, R124): after SUSPECT_HOLDOFF a member whose designated reporter is
itself suspect relays the report of a peer that is still suspect and not reported, and any other member forgets the
holdoff; the message on vector 66 that is due goes out once the gap is over and the vector is acknowledged.
SUSPECT_REPORT (R125): dismiss clears the bit and restarts the silence timer, acknowledge keeps the bit and marks the
peer, assert sets the bit and reports; the command is answered OK, other peers keep their state on a dismissal or an
acknowledgement, and a slot that is not joined, this member itself, a member not live or another action is refused.
Hearing (R120, R125): any packet that passed the sender check sets the time last heard and clears the suspicion bit
and the pending report; other peers and other Valleys keep theirs; a reported peer that is heard again makes a
PEER_RESUMED fall due, which is written when the cycle of its hearing is over (a reading, notes/assumptions/70.md). A BEACON
is a hearing and no more. -/
def Obligations.Suspicion : Prop :=
  (∀ (v : Fin 16) (m : Fin 64) (s : State), ctlOn s.eng = true → silenceDue s.eng v.val m.val = true →
      let x := getV s.eng v.val
      (designated x m.val = false →
        ∃ t, exec (.peerSilence v m) s = .next t ∧ t.mem = s.mem ∧ (getPeer (getV t.eng v.val) m.val).suspect = true ∧
          (getPeer (getV t.eng v.val) m.val).holdFrom = some s.eng.side.ts ∧ t.eng.io = s.eng.io ∧ t.eng.ctl = s.eng.ctl) ∧
      (designated x m.val = true → (getPeer x m.val).acked = false →
        ∃ t, exec (.peerSilence v m) s = .next t ∧ t.mem = s.mem ∧ (getPeer (getV t.eng v.val) m.val).suspect = true ∧
          (getPeer (getV t.eng v.val) m.val).reported = true ∧ (getPeer (getV t.eng v.val) m.val).holdFrom = none ∧
          (windowOpen s.eng s.eng.ctl.winSuspect (nodeOf x m.val) = false →
            Tab.find t.eng.ctl.winSuspect (nodeOf x m.val).toNat = some (newWindow s.eng v.val)))) ∧
  (∀ (v : Fin 16) (m : Fin 64) (s : State), ctlOn s.eng = true →
      (∀ t0 r, (getPeer (getV s.eng v.val) m.val).holdFrom = some t0 →
        (getV s.eng v.val).suspectHoldoff ≤ (s.eng.side.ts - t0).toNat →
        reporterOf (getV s.eng v.val) m.val = some r → (getPeer (getV s.eng v.val) m.val).suspect = true →
        (getPeer (getV s.eng v.val) m.val).reported = false → (getPeer (getV s.eng v.val) m.val).acked = false → r ≠ m.val →
          ∃ t, exec (.holdoffEnd v m) s = .next t ∧ t.mem = s.mem ∧ (getPeer (getV t.eng v.val) m.val).holdFrom = none ∧
            (getPeer (getV t.eng v.val) m.val).reported = (getPeer (getV s.eng v.val) r).suspect ∧
            ((getPeer (getV s.eng v.val) r).suspect = false → t.eng.ctl = s.eng.ctl ∧ t.eng.io = s.eng.io)) ∧
      (s.eng.ctl.irq66Due = true → gapOver s.eng = true → bit s.eng.ctl.irq 66 = false →
        ∃ t, exec .suspectGapEnd s = .next t ∧ t.mem = s.mem ∧ t.eng.io.irqMsg = (66, 0) :: s.eng.io.irqMsg ∧
          bit t.eng.ctl.irq 66 = true ∧ t.eng.ctl.irq66Due = false ∧ t.eng.ctl.irq66Ts = some s.eng.side.ts ∧
          t.eng.valleys = s.eng.valleys)) ∧
  (∀ (q : Fin 64) (s : State) (p : BitVec 512), Taken s q.val 0x30 p →
      let v := pkValley p
      let x := getV s.eng v
      let i := pkf p 1 0 6
      let a := pkf p 1 8 4
      (isJoined x = true → i ≠ x.self → isLive x i = true → 1 ≤ a → a ≤ 3 →
        ∃ t, exec (.suspectReport q) s = .next t ∧ t.mem = s.mem ∧ Answered s.eng t.eng (cmdOf q.val p) stOK 0 0 ∧
          (a = 1 → getPeer (getV t.eng v) i =
            { getPeer x i with suspect := false, reported := false, holdFrom := none, watchFrom := s.eng.side.ts }) ∧
          (a = 2 → getPeer (getV t.eng v) i = { getPeer x i with acked := true, holdFrom := none }) ∧
          (a = 3 → (getPeer (getV t.eng v) i).suspect = true ∧ (getPeer (getV t.eng v) i).reported = true ∧
            (getPeer (getV t.eng v) i).acked = false) ∧
          (a ≠ 3 → (∀ j, j ≠ i → getPeer (getV t.eng v) j = getPeer x j) ∧ (∀ w, w ≠ v → getV t.eng w = getV s.eng w)) ∧
          t.eng.regions = s.eng.regions ∧ t.eng.lanes = s.eng.lanes ∧ t.eng.spill = s.eng.spill ∧
          t.eng.basin = (readHead s.eng q.val).basin) ∧
      ((isJoined x = false ∨ i = x.self ∨ isLive x i = false ∨ a = 0 ∨ 3 < a) →
        ∃ t, exec (.suspectReport q) s = .next t ∧ OnlyReplies s t q.val p stOutOfRange 0 0)) ∧
  (∀ (e : Eng) (v i : Nat),
      (getPeer (getV (heard e v i) v) i).lastHeard = e.side.ts ∧ (getPeer (getV (heard e v i) v) i).suspect = false ∧
      (getPeer (getV (heard e v i) v) i).reported = false ∧ (getPeer (getV (heard e v i) v) i).holdFrom = none ∧
      (∀ j, j ≠ i → getPeer (getV (heard e v i) v) j = getPeer (getV e v) j) ∧
      (∀ w, w ≠ v → getV (heard e v i) w = getV e w) ∧
      (heard e v i).lanes = e.lanes ∧ (heard e v i).spill = e.spill ∧ (heard e v i).regions = e.regions ∧
      (heard e v i).io = e.io ∧
      ((getPeer (getV e v) i).reported = false → (heard e v i).ctl = e.ctl) ∧
      ((getPeer (getV e v) i).reported = true → (getPeer (getV e v) i).acked = false →
        Tab.find e.ctl.resumed (nodeOf (getV e v) i).toNat = none →
        windowTakes e e.ctl.winResume (nodeOf (getV e v) i) v = false →
        Tab.find (heard e v i).ctl.resumed (nodeOf (getV e v) i).toNat = some (e.side.ts, [v]))) ∧
  (∀ (p : RxPacket) (s : State) (v : Nat), s.eng.ctl.revokes = [] → s.eng.ctl.stops = [] → s.eng.side.pwrWait = none →
      rxChecks s.eng p = .accepted v → (hdrOf p).typ = 6 → (hdrOf p).kind = 3 →
        exec (.beacon p) s = .next { s with eng := heard s.eng v (hdrOf p).sender })

/-- Tier 2. The designated reporter (R121): the first live member upwards from the peer over the stream distances;
with none of them live, the first live member downwards. It depends on the member's live set only. -/
def Obligations.DesignatedReporter : Prop :=
  ∀ (x : Valley) (s : Nat), s < x.n → x.n ≤ 64 →
    (∀ d, 1 ≤ d → d ≤ x.k + x.m - 1 → isLive x ((s + d) % x.n) = true →
      (∀ j, 1 ≤ j → j < d → isLive x ((s + j) % x.n) = false) → reporterOf x s = some ((s + d) % x.n)) ∧
    ((∀ d, 1 ≤ d → d ≤ x.k + x.m - 1 → isLive x ((s + d) % x.n) = false) →
      (∀ d, 1 ≤ d → d ≤ x.n → isLive x ((s + x.n - d) % x.n) = true →
        (∀ j, 1 ≤ j → j < d → isLive x ((s + x.n - j) % x.n) = false) → reporterOf x s = some ((s + x.n - d) % x.n)) ∧
      ((∀ i, i < x.n → isLive x i = false) → reporterOf x s = none)) ∧
    (∀ y : Valley, y.live = x.live → y.n = x.n → y.k = x.k → y.m = x.m → reporterOf y s = reporterOf x s)

/-- Tier 2. FENCE_TIMER, STANDIN_TRANSFER_TIMEOUT, JOIN_TIMEOUT (R92, R142, R267): once its time has passed, the command
that waits is answered with its timeout's status, and the slot is left as the rule says: not fenced, in standby again, or
defined only, with its rings, its control pages and its staging page unbound; before that time, or with nothing waiting,
nothing happens. A CROSSING_CLOSE that waits while the FENCE ends is answered too (R93): OK when its epoch's Watershed is
the latest, else PEER_TIMEOUT. -/
def Obligations.TimeoutsEndWaits : Prop :=
  ∀ (v : Fin 16) (s : State), cpRuns s.eng = true → s.eng.ctl.revokes = [] → s.eng.ctl.stops = [] →
    s.eng.side.pwrWait = none →
    let x := getV s.eng v.val
    (∀ f, x.fenceWait = some f → x.fenceTimeout ≤ (s.eng.side.ts - f.since).toNat →
      ∃ t, exec (.fenceTimer v) s = .next t ∧ t.mem = s.mem ∧ (getV t.eng v.val).fenceWait = none ∧
        (getV t.eng v.val).fenced = false ∧ (getV t.eng v.val).phase = x.phase ∧ (getV t.eng v.val).epoch = x.epoch ∧
        (getV t.eng v.val).closeWait = none ∧ (getV t.eng v.val).live = x.live ∧ t.eng.lanes = s.eng.lanes ∧
        t.eng.regions = s.eng.regions ∧
        (x.closeWait = none → Answered s.eng t.eng f.cmd stFenceTimeout 0 0) ∧
        (∀ c, x.closeWait = some c →
          (c.q ≠ f.cmd.q → Answered s.eng t.eng f.cmd stFenceTimeout 0 0) ∧
          (∀ w, x.ws = some w → w.number = x.closeEpoch → Answered s.eng t.eng c stOK w.number w.step) ∧
          ((∀ w, x.ws = some w → w.number ≠ x.closeEpoch) → Answered s.eng t.eng c stPeerTimeout 0 0))) ∧
    (∀ f, x.fenceWait = some f → (s.eng.side.ts - f.since).toNat < x.fenceTimeout →
      exec (.fenceTimer v) s = .next s) ∧
    (x.fenceWait = none → exec (.fenceTimer v) s = .next s) ∧
    (∀ w, x.spareWait = some w → x.fenceTimeout ≤ (s.eng.side.ts - w.since).toNat →
      ∃ t, exec (.standinTransferTimeout v) s = .next t ∧ t.mem = s.mem ∧ (getV t.eng v.val).slot = .standby ∧
        (getV t.eng v.val).spareWait = none ∧ (getV t.eng v.val).live = 0 ∧
        Answered s.eng t.eng w.cmd stFenceTimeout 0 0) ∧
    (∀ w, x.spareWait = some w → (s.eng.side.ts - w.since).toNat < x.fenceTimeout →
      exec (.standinTransferTimeout v) s = .next s) ∧
    (x.spareWait = none → exec (.standinTransferTimeout v) s = .next s) ∧
    (∀ w, x.joinWait = some w → Regs.joinTimeout s.eng.regs ≤ (s.eng.side.ts - w.since).toNat →
      ∃ t, exec (.joinTimeout v) s = .next t ∧ t.mem = s.mem ∧ (getV t.eng v.val).slot = .defined ∧
        (getV t.eng v.val).live = 0 ∧ (getV t.eng v.val).outs = [] ∧ (getV t.eng v.val).ins = [] ∧
        (getV t.eng v.val).joinWait = none ∧ Answered s.eng t.eng w.cmd stPeerTimeout 0 0 ∧
        (∀ g o, Tab.find t.eng.basin.owners g = some o → o ≠ .control v.val ∧ o ≠ .spillStage v.val ∧
          (∀ d, o ≠ .outRing v.val d ∧ o ≠ .inRing v.val d))) ∧
    (∀ w, x.joinWait = some w → (s.eng.side.ts - w.since).toNat < Regs.joinTimeout s.eng.regs →
      exec (.joinTimeout v) s = .next s) ∧
    (x.joinWait = none → exec (.joinTimeout v) s = .next s)

/-- Tier 2. HOP_RESEND and REBUILD_STALL (R135, R138): a kept unit whose quarter of HOP_TIMEOUT has passed goes out
again and keeps its place and its first sending; HOP_TIMEOUT after a unit's first sending without an acknowledge the
successor counts as stalled, once. HOP_ACKNOWLEDGE (R134): the kept units of the identity and the sender that the count
covers are freed, a correction among them counts as made, and the Valley's runs go on. REBUILD_HOP (R82, R133, R134): a
packet of a live run's unit adds to the arrival counter of its identity and is held with its row, the runs going on; one
of a unit that was consumed is acknowledged again; with the window full, or without a run, it is dropped under cause 21;
one of an ended run is dropped and acknowledged with sixteen lines more. AUDIT_CORRECTION (R223): the owner of a wrong
parity tile accumulates the error into it and acknowledges sixteen lines; the same correction again is only
acknowledged. -/
def Obligations.KeptUnitsAgain : Prop :=
  (∀ (v : Fin 16) (ident : W16) (succ : Fin 64) (s : State) (r : Run), ctlOn s.eng = true →
    runAt (getV s.eng v.val) ident.toNat = some r →
    (∀ k tg, r.kept = [k] → k.ident = ident.toNat / 4 * 4 → k.succ ∉ r.stalled →
      (getV s.eng v.val).hopTimeout ≤ 4 * (s.eng.side.ts - k.last).toNat → keptTarget s.eng v.val r k = some tg →
        ∃ t, exec (.hopResend v ident) s = .next t ∧ t.mem = s.mem ∧
          (getV t.eng v.val).hops = (getV s.eng v.val).hops ++ unitPackets k.succ k.ident k.hop tg k.rows ∧
          { r with kept := [{ k with last := s.eng.side.ts }] } ∈ (getV t.eng v.val).runs) ∧
    (∀ k ∈ r.kept, k.succ = succ.val → succ.val ∉ r.stalled →
      (getV s.eng v.val).hopTimeout ≤ (s.eng.side.ts - k.first).toNat →
        ∃ t, exec (.rebuildStall v ident succ) s = .next t ∧ t.mem = s.mem ∧
          { r with stalled := succ.val :: r.stalled } ∈ (getV t.eng v.val).runs ∧
          (getV t.eng v.val).hops = (getV s.eng v.val).hops) ∧
    (succ.val ∈ r.stalled → exec (.rebuildStall v ident succ) s = .next s)) ∧
  (∀ (p : RxPacket) (s : State) (v : Nat), rxChecks s.eng p = .accepted v → (hdrOf p).typ = 3 → (hdrOf p).kind = 6 →
    let h := hdrOf p
    let x := getV s.eng v
    let base := fld h.w3 0 16 / 4 * 4
    let covered (k : Kept) : Bool :=
      decide (k.succ = h.sender ∧ k.ident = base ∧ (BitVec.ofNat 32 (fld h.w3 16 32) - k.upto).toNat < 2 ^ 31)
    (∀ r, runAt x (fld h.w3 0 16) = some r →
      ∃ f r', exec (.hopAcknowledge p) s = .next { s with eng := advance s.mem (stepRuns s.mem f v) } ∧
        r' ∈ (getV f v).runs ∧ Run.ident r' = Run.ident r ∧ r'.kept = r.kept.filter (fun k => !covered k) ∧
        r'.recv = r.recv ∧ r'.finished = r.finished ∧
        r'.nCorr = r.nCorr + ((r.kept.filter covered).filter fun k => decide (k.hop = 255)).length ∧
        (getV f v).hops = x.hops ∧ f.io.ctlOut = s.eng.io.ctlOut ∧ f.io.acc = s.eng.io.acc ∧ f.lanes = s.eng.lanes ∧
        f.regions = s.eng.regions) ∧
    (runAt x (fld h.w3 0 16) = none →
      exec (.hopAcknowledge p) s = .next { s with eng := advance s.mem (heard s.eng v h.sender) })) ∧
  (∀ (p : RxPacket) (s : State) (v : Nat), rxChecks s.eng p = .accepted v → (hdrOf p).typ = 5 →
    let h := hopOf p (hdrOf p)
    let x := getV s.eng v
    let base := h.ident / 4 * 4
    let ack (n : W32) : CtlOut :=
      { v := v, node := nodeOf x h.sender, tag := x.tag, from_ := x.self, dest := h.sender, epoch := x.epoch
        msg := .hopAck (BitVec.ofNat 16 base) n }
    (h.hop ≠ 255 →
      (∀ r t, runAt x h.ident = some r → hopTarget s.eng v r h = some t → h.ident % 4 < x.m →
        (r.finished.contains (t.num, base) = false →
          r.recv.find? (fun u => decide (u.target = t.num ∧ u.ident = base)) = none →
          ((turnOf s.eng v r).map (·.num) = some t.num ∨ r.recv.length < r.window) →
            ∃ f r', exec (.rebuildHop p) s = .next { s with eng := advance s.mem (stepRuns s.mem f v) } ∧
              r' ∈ (getV f v).runs ∧ Run.ident r' = Run.ident r ∧
              r'.recv = r.recv ++ [{ target := t.num, ident := base, sender := h.sender
                                     rows := [(h.ident % 4, h.tile)], ts := s.eng.side.ts }] ∧
              Tab.get 0 r'.arrivals h.ident = Tab.get 0 r.arrivals h.ident + 1 ∧ r'.kept = r.kept ∧
              r'.finished = r.finished ∧ f.io.ctlOut = s.eng.io.ctlOut ∧ f.io.acc = s.eng.io.acc) ∧
        (r.finished.contains (t.num, base) = true →
          ∃ f, exec (.rebuildHop p) s = .next { s with eng := advance s.mem f } ∧
            f.io.ctlOut = s.eng.io.ctlOut ++ [ack (Tab.get 0 r.acked (countKey h.sender base))] ∧
            f.io.acc = s.eng.io.acc ∧ f.cnt = s.eng.cnt) ∧
        (r.finished.contains (t.num, base) = false →
          r.recv.find? (fun u => decide (u.target = t.num ∧ u.ident = base)) = none →
          (turnOf s.eng v r).map (·.num) ≠ some t.num → r.window ≤ r.recv.length →
            ∃ f, exec (.rebuildHop p) s = .next { s with eng := advance s.mem f } ∧ f.cnt = (dropN s.eng 21 1).cnt ∧
              f.io = s.eng.io)) ∧
      (∀ r, runAt x h.ident = none →
        x.oldRuns.find? (fun r => r.groups.any fun g => decide (g.ident = base)) = some r →
          ∃ f, exec (.rebuildHop p) s = .next { s with eng := advance s.mem f } ∧ f.cnt = (dropN s.eng 21 1).cnt ∧
            f.io.acc = s.eng.io.acc ∧
            f.io.ctlOut = s.eng.io.ctlOut ++ [ack (Tab.get 0 r.acked (countKey h.sender base) + 16)]) ∧
      (runAt x h.ident = none → x.oldRuns.find? (fun r => r.groups.any fun g => decide (g.ident = base)) = none →
        ∃ f, exec (.rebuildHop p) s = .next { s with eng := advance s.mem f } ∧ f.cnt = (dropN s.eng 21 1).cnt ∧
          f.io = s.eng.io)) ∧
    (h.hop = 255 →
      (∀ r t i y, anyRunAt x h.ident = some r → r.kind = .audit → r.epoch = x.epoch → (x.phase = .idle ∨ x.phase = .frozen) →
        x.t1 = none → hopTarget s.eng v r h = some t →
        (targetPos s.eng v t).find? (fun i => decide (i.mem = x.self)) = some i → reachAt s.eng v t.reach = some y →
        (r.finished.contains (t.num, base + 65536) = false → i.parity = true →
          let a := parityAddr s.eng v t.reach (t.group * x.m + i.idx)
          ∃ f, exec (.auditCorrection p) s = .next { s with eng := advance s.mem f } ∧
            f.io.acc = (h.tile.zipIdx.foldl (fun g y => accumDiff g (a / 256 + y.2) y.1 .plain) s.eng).io.acc ∧
            f.io.ctlOut = s.eng.io.ctlOut ++ [ack (Tab.get 0 r.acked (countKey h.sender base) + 16)] ∧
            f.cnt = s.eng.cnt) ∧
        (r.finished.contains (t.num, base + 65536) = true →
          ∃ f, exec (.auditCorrection p) s = .next { s with eng := advance s.mem f } ∧ f.io.acc = s.eng.io.acc ∧
            f.io.ctlOut = s.eng.io.ctlOut ++ [ack (Tab.get 0 r.acked (countKey h.sender base))] ∧ f.cnt = s.eng.cnt)) ∧
      (anyRunAt x h.ident = none →
        ∃ f, exec (.auditCorrection p) s = .next { s with eng := advance s.mem f } ∧ f.cnt = (dropN s.eng 21 1).cnt ∧
          f.io = s.eng.io)))

/-- Tier 2. What any row of the fabric port does with a packet that fails a check (R17, R18, R76, R120, R270, R279, R314):
dropped ones are counted by cause and change nothing else, apart from the hearing of a sender that passed its check; a
packet outside every granted partition counts as a refusal too; in Retention flits are only counted; while the fabric
port is in reset nothing happens. The order of the checks (R18, R76, R270, R279): a source of more than 13 bits, a bad
class, a revoked tag and a tag that no valid entry holds are found in this order, before anything in the header is looked
at; where the rules leave the order open it is a reading (notes/assumptions/14.md, DEDUCED). -/
def Obligations.ReceiveChecks : Prop :=
  (∀ (p : RxPacket) (rdy : BitVec 256) (s : State), s.eng.ctl.revokes = [] → s.eng.ctl.stops = [] →
      s.eng.side.pwrWait = none →
      ∀ i ∈ ([.deltaAccumulate p rdy, .seal p, .reachReady p, .landingReady p, .close p, .drained p, .resend p,
              .hopAcknowledge p, .reachFold p, .landingFold p, .crossingFold p, .watershed p, .settleSummary p, .refuse p,
              .rebuildHop p, .auditCorrection p, .standinDigests p, .beacon p, .lockstepDigests p, .replicaDigests p,
              .joinHello p] : List Instr),
        (rxChecks s.eng p = .ignored → exec i s = .next s) ∧
        (rxChecks s.eng p = .retention → exec i s = .next { s with eng := { s.eng with
          side := { s.eng.side with retFlits := satAdd s.eng.side.retFlits p.flits.length } } }) ∧
        (rxChecks s.eng p = .denied → exec i s = .next { s with eng := refuseAt (drop s.eng 4) 2 }) ∧
        (∀ c, rxChecks s.eng p = .dropped c none none → exec i s = .next { s with eng := drop s.eng c }) ∧
        (∀ c v j, rxChecks s.eng p = .dropped c (some v) (some j) →
          exec i s = .next { s with eng := drop (heard s.eng v j) c })) ∧
  (∀ (e : Eng) (p : RxPacket), (fabOn e = false → rxChecks e p = .ignored) ∧
      (fabOn e = true → e.side.pwrState = 2 → rxChecks e p = .retention) ∧
      (fabOn e = true → e.side.pwrState ≠ 2 →
        (fld p.src 13 3 ≠ 0 → rxChecks e p = .dropped 0 none none) ∧
        (fld p.src 13 3 = 0 → p.cls = 3 → rxChecks e p = .dropped 3 none none) ∧
        (fld p.src 13 3 = 0 → p.cls ≠ 3 → p.ptag ∈ e.side.revoked → rxChecks e p = .dropped 5 none none) ∧
        (fld p.src 13 3 = 0 → p.cls ≠ 3 → p.ptag ∉ e.side.revoked → p.ptag ≠ 0 →
          (∀ f, f < 64 → bit (Tab.get 0 e.regs.accFab (f + 1)) 16 = true →
            fld (Tab.get 0 e.regs.accFab (f + 1)) 0 16 ≠ p.ptag.toNat) → rxChecks e p = .denied) ∧
        (fld p.src 13 3 = 0 → p.cls ≠ 3 → p.ptag ∉ e.side.revoked → tagGranted e p.ptag = true → p.abort = true →
          rxChecks e p = .dropped 1 none none)))

/-- Tier 1. Every fabric row, once its packet has passed the checks (R71, R73, R79 to R83, R87 to R93, R120, R134,
R142, R223, R227, R230, R267): the sender is heard, the row's own effect happens, and what waits in the control
processor goes on. The effects are those that the statements below speak of. LOCKSTEP_DIGESTS and REPLICA_DIGESTS from
a partner (R226, R227, R230) are compared. -/
def Obligations.AcceptedPacketsAct : Prop :=
  (∀ (p : RxPacket) (rdy : BitVec 256) (s : State) (v : Nat), rxChecks s.eng p = .accepted v →
      let h := hdrOf p
      let e := heard s.eng v h.sender
      let go (f : Eng) : Host.Outcome State Fault Refusal := .next { s with eng := advance s.mem f }
      (h.typ = 1 → exec (.deltaAccumulate p rdy) s =
        go (settleV s.mem (blocksIn s.mem v h.sender h.epoch rdy h.count 0 (bodyOf p) e) v)) ∧
      (h.typ = 2 → exec (.seal p) s = go (settleV s.mem (sealsIn e v p h) v)) ∧
      (h.typ = 3 → h.kind = 1 → exec (.reachReady p) s = go (settleV s.mem (deliver s.mem e v h.sender h.epoch
        (.reachReady ((entryWords p h.count).map fun w => (fld w 0 32, bit w 32)))) v)) ∧
      (h.typ = 3 → h.kind = 2 → exec (.landingReady p) s =
        go (settleV s.mem (deliver s.mem e v h.sender h.epoch (.landingReady (bit h.w3 0))) v)) ∧
      (h.typ = 3 → h.kind = 3 → exec (.close p) s = go (settleV s.mem (deliver s.mem e v h.sender h.epoch
        (.close h.w3 (bit ((entryWords p 1).headD 0) 0))) v)) ∧
      (h.typ = 3 → h.kind = 4 → exec (.drained p) s = go (settleV s.mem (deliver s.mem e v h.sender h.epoch .drained) v)) ∧
      (h.typ = 3 → h.kind = 5 → exec (.resend p) s = go (resendBlocks e v (subMod h.sender (getV e v).self (getV e v).n)
        (BitVec.ofNat 32 (fld h.w3 0 32)) (windowOf p))) ∧
      (h.typ = 3 → h.kind = 6 → exec (.hopAcknowledge p) s =
        go (onHopAck s.mem e v h.sender (fld h.w3 0 16) (BitVec.ofNat 32 (fld h.w3 16 32)))) ∧
      (h.typ = 4 → (getV e v).slot ≠ .spare →
        (h.kind = 1 → exec (.reachFold p) s = go (settleV s.mem (deliver s.mem e v h.sender h.epoch
          (.reachFold (bit h.w2 8) ((entryWords p h.count).map fun w => fld w 0 32))) v)) ∧
        (h.kind = 2 → exec (.landingFold p) s =
          go (settleV s.mem (deliver s.mem e v h.sender h.epoch (.landingFold (bit h.w2 8))) v)) ∧
        (h.kind = 3 → exec (.crossingFold p) s =
          go (settleV s.mem (deliver s.mem e v h.sender h.epoch (.crossingFold (bit h.w2 8))) v)) ∧
        (h.kind = 4 → exec (.watershed p) s = go (settleV s.mem (deliver s.mem e v h.sender h.epoch (.watershed h.w3)) v)) ∧
        (h.kind = 5 → exec (.settleSummary p) s = go (settleV s.mem (deliver s.mem e v h.sender h.epoch
          (.settle (BitVec.ofNat 32 (fld h.w3 0 32)) (bit h.w3 32) (bit h.w3 33) (bit h.w3 34) ((entryWords p 1).headD 0))) v)) ∧
        (h.kind = 6 → exec (.refuse p) s =
          go (settleV s.mem (deliver s.mem e v h.sender h.epoch (.refuse (BitVec.ofNat 16 (fld h.w3 0 16)))) v))) ∧
      (h.typ = 5 → exec (.rebuildHop p) s = go (hopIn s.mem e v (hopOf p h)) ∧
        exec (.auditCorrection p) s = go (hopIn s.mem e v (hopOf p h))) ∧
      (h.typ = 6 → h.kind = 1 → exec (.standinDigests p) s = go (onStandinDigests s.mem e v (digEntries p h.count))) ∧
      (h.typ = 6 → h.kind = 3 → exec (.beacon p) s = go e) ∧
      (h.typ = 6 → h.kind = 5 → exec (.joinHello p) s = go (onHello e v h.sender h.epoch (helloIn p h)))) ∧
  (∀ (p : RxPacket) (s : State) (v i : Nat), rxChecks s.eng p = .partner v i →
      let go (f : Eng) : Host.Outcome State Fault Refusal := .next { s with eng := advance s.mem f }
      ((hdrOf p).kind = 2 → exec (.lockstepDigests p) s =
        go (lockRecv s.mem s.eng v (hdrOf p).w3 (digEntries p (hdrOf p).count))) ∧
      ((hdrOf p).kind = 4 → exec (.replicaDigests p) s =
        go (replicaRecv s.mem s.eng v i (hdrOf p).w3 (digEntries p (hdrOf p).count))))

/-- Tier 2. The received window (R71): a number 2^31 or more beyond A is a duplicate, one 256 or more beyond A is out
of the window, one already received is a duplicate; marking a fresh one makes it a duplicate, leaves every other
number's mark, and A passes only received numbers. -/
def Obligations.ReceivedWindow : Prop :=
  ∀ (st : InStream) (q : W32),
    (2 ^ 31 ≤ (q - st.a).toNat → seqVerdict st q = .duplicate) ∧
    ((q - st.a).toNat < 2 ^ 31 → 256 ≤ (q - st.a).toNat → seqVerdict st q = .beyond) ∧
    ((q - st.a).toNat < 256 → bit st.win (q - st.a).toNat = true → seqVerdict st q = .duplicate) ∧
    (∀ i, seqVerdict st q = .fresh i → i = (q - st.a).toNat ∧ i < 256 ∧ bit st.win i = false ∧
      seqVerdict (markSeq st i) q = .duplicate ∧
      (∀ j, j < 256 → j ≠ i → bit st.win j = true → seqVerdict (markSeq st i) (st.a + BitVec.ofNat 32 j) = .duplicate) ∧
      (∀ j, j < 256 → j ≠ i → bit st.win j = false → ∃ k, seqVerdict (markSeq st i) (st.a + BitVec.ofNat 32 j) = .fresh k))

/-- Tier 2. A block that is fresh and not late (R54, R71, R78, R85, R104): with the ring empty and the lane accepting,
it is one accumulate to its line of the pending tile, behind every coded write that the lanes have accepted (R16), and its
number is marked; late, malformed and repeated blocks change nothing but their drop counter; that a late one is not marked
is a reading (notes/assumptions/19.md, DEDUCED). DELTA_ACCUMULATE takes its entries one after another, and then what they
complete goes on. -/
def Obligations.BlocksReachPendingParity : Prop :=
  (∀ (m : Mem) (e : Eng) (v sender : Nat) (epoch : W64) (entry : List Byte) (r : ReachInfo) (diff : Line) (g : Nat),
    let x := getV e v
    let q : W32 := (bytesWord entry).extractLsb' 0 32
    let rho := fld (bytesWord entry) 32 17
    let d := subMod x.self sender x.n
    let pl := mapBlock x.n x.k sender x.self (fld (bytesWord (entry.drop 8)) 24 22)
    (reachAt e v rho = none → blockIn m e v sender epoch entry true = drop e 15) ∧
    (reachAt e v rho = some r →
      (decodeBlock (typeWidth r.typ) (16 * r.tiles) (entry.drop 8) = none → blockIn m e v sender epoch entry true = drop e 12) ∧
      (decodeBlock (typeWidth r.typ) (16 * r.tiles) (entry.drop 8) = some diff → pl.prow < x.m → pl.tile < r.tiles →
        (seqVerdict (getIn x d) q = .duplicate → blockIn m e v sender epoch entry true = drop e 13) ∧
        (seqVerdict (getIn x d) q = .beyond → blockIn m e v sender epoch entry true = drop e 14) ∧
        (∀ i, seqVerdict (getIn x d) q = .fresh i →
          (epoch = x.epoch → holderClosed x rho (decide (r.cls = clsLanding)) = true →
            blockIn m e v sender epoch entry true = drop e 16) ∧
          ((epoch ≠ x.epoch ∨ holderClosed x rho (decide (r.cls = clsLanding)) = false) → (getIn x d).waiting = [] →
            Tab.find x.pend (pendKey rho (pl.group * x.m + pl.prow)) = some g →
              (blockIn m e v sender epoch entry true).io.acc = e.io.acc ++
                [{ line := spillPageAddr e g / 256 + pl.lineIn, be := nzMask diff, data := diff
                   why := .block v d rho epoch, after := e.io.writes }] ∧
              getIn (getV (blockIn m e v sender epoch entry true) v) d = markSeq (getIn x d) i))))) ∧
  (∀ (p : RxPacket) (rdy : BitVec 256) (s : State) (v : Nat), rxChecks s.eng p = .accepted v → (hdrOf p).typ = 1 →
    let h := hdrOf p
    let e := heard s.eng v h.sender
    ∃ f, exec (.deltaAccumulate p rdy) s = .next { s with eng := advance s.mem (settleV s.mem f v) } ∧
      f.lanes = s.eng.lanes ∧ f.regions = s.eng.regions ∧ (∀ w, w ≠ v → (getV f w).epoch = (getV s.eng w).epoch) ∧
      (getV f v).epoch = (getV s.eng v).epoch ∧ (getV f v).reaches = (getV s.eng v).reaches ∧
      (getV f v).outs = (getV s.eng v).outs ∧
      (h.count = 1 → f = blockIn s.mem e v h.sender h.epoch ((bodyOf p).take (8 + blockSize ((bodyOf p).drop 8))) (bit rdy 0)) ∧
      (h.count = 2 →
        let n := 8 + blockSize ((bodyOf p).drop 8)
        let rest := (bodyOf p).drop n
        f = blockIn s.mem (blockIn s.mem e v h.sender h.epoch ((bodyOf p).take n) (bit rdy 0)) v h.sender h.epoch
          (rest.take (8 + blockSize (rest.drop 8))) (bit rdy 1)))

/-- Tier 2. A seal entry (R79, R86): it is held for its stream, Reach and epoch with its count, digest and step; a
second one of the same stream, Reach and epoch and a Reach that does not exist change nothing but a drop counter, and so
does a sender that sends this member no stream, of which the rules do not speak (notes/assumptions/67.md, DEDUCED). SEAL
takes the entries of its packet one after another, those of the next epoch being kept for it (R86), and then what they
complete goes on. RESEND reaches the sender (R73, R101): the ring of the stream gains, behind what it held, reference
entries of exactly those retained blocks of the stream whose number lies in the window, is not marked received and does
not wait in the ring; retained records and sequence numbers stay. -/
def Obligations.SealsAndResends : Prop :=
  (∀ (e : Eng) (v sender : Nat) (epoch step : W64) (rho : Nat) (count : W32) (digest : W64),
      let x := getV e v
      let d := subMod x.self sender x.n
      (((reachList e v).length ≤ rho ∨ d ∉ distances x) → sealIn e v sender epoch step rho count digest = drop e 15) ∧
      (rho < (reachList e v).length → d ∈ distances x → epoch = x.epoch →
        (Tab.find (getHold x rho).seals d = none →
          Tab.find (getHold (getV (sealIn e v sender epoch step rho count digest) v) rho).seals d =
              some { count := count, digest := digest, step := step, ts := e.side.ts } ∧
            (getHold (getV (sealIn e v sender epoch step rho count digest) v) rho).applied = (getHold x rho).applied ∧
            (∀ j, j ≠ rho → getHold (getV (sealIn e v sender epoch step rho count digest) v) j = getHold x j) ∧
            (sealIn e v sender epoch step rho count digest).io = e.io) ∧
        (∀ s, Tab.find (getHold x rho).seals d = some s → sealIn e v sender epoch step rho count digest = drop e 13))) ∧
  (∀ (p : RxPacket) (s : State) (v : Nat), rxChecks s.eng p = .accepted v → (hdrOf p).typ = 2 →
      let h := hdrOf p
      let x := getV s.eng v
      let d := subMod x.self h.sender x.n
      let rho (i : Nat) : Nat := enum (entryAt (bodyOf p) 16 i) 0 4
      let ent (i : Nat) : SealEnt :=
        { count := BitVec.ofNat 32 (enum (entryAt (bodyOf p) 16 i) 4 4)
          digest := BitVec.ofNat 64 (enum (entryAt (bodyOf p) 16 i) 8 8), step := h.w2, ts := s.eng.side.ts }
      ∃ f, exec (.seal p) s = .next { s with eng := advance s.mem (settleV s.mem f v) } ∧
        f.io = s.eng.io ∧ f.lanes = s.eng.lanes ∧ f.regions = s.eng.regions ∧ (getV f v).reaches = x.reaches ∧
        (d ∈ distances x → ∀ i, i < h.count → rho i < (reachList s.eng v).length → (∀ j, j < i → rho j ≠ rho i) →
          (h.epoch = x.epoch → Tab.find (getHold x (rho i)).seals d = none →
            Tab.find (getHold (getV f v) (rho i)).seals d = some (ent i)) ∧
          (h.epoch ≠ x.epoch → Tab.find (Tab.get ({} : HReach) x.holdNext (rho i)).seals d = none →
            Tab.find (Tab.get ({} : HReach) (getV f v).holdNext (rho i)).seals d = some (ent i))) ∧
        (h.epoch ≠ x.epoch → (getV f v).hold = x.hold)) ∧
  (∀ (e : Eng) (v d : Nat) (a : W32) (win : BitVec 256) (t : OutEntry),
      let x := getV e v
      let f := resendBlocks e v d a win
      (getV f v).retained = x.retained ∧ (getOut (getV f v) d).next = (getOut x d).next ∧
      (∃ new, (getOut (getV f v) d).entries = (getOut x d).entries ++ new ∧
        (t ∈ new ↔ ∃ r ∈ x.retained, ∃ p q, p < x.m ∧ holderOf x.n x.k x.self (r.line / 16 % x.k) p = outPeer x d ∧
          r.seqs.getD p none = some q ∧ (q - a).toNat < 256 ∧ bit win (q - a).toNat = false ∧
          (∀ y ∈ (getOut x d).entries, (∀ rho l w b g, y ≠ .inline q rho l w b g) ∧ (∀ rho l w, y ≠ .ref q rho l w)) ∧
          t = .ref q r.reach r.line p)) ∧
      f.io = e.io ∧ f.lanes = e.lanes ∧ f.spill = e.spill) ∧
  (∀ (p : RxPacket) (s : State) (v : Nat), rxChecks s.eng p = .accepted v → (hdrOf p).typ = 3 → (hdrOf p).kind = 5 →
      let h := hdrOf p
      exec (.resend p) s = .next { s with eng := advance s.mem (resendBlocks (heard s.eng v h.sender) v
        (subMod h.sender (getV s.eng v).self (getV s.eng v).n) (BitVec.ofNat 32 (fld h.w3 0 32)) (windowOf p)) })

/-- Tier 2. CROSSING_OPEN (R59, R63, R85, R127): the step is recorded, the Valley is OPEN, every landing Reach is
sealed and every other Reach that has not folded is clean with nothing issued; an open that the phase, the step or an
unrebuilt Reach forbids is refused with OUT_OF_RANGE and changes nothing. CROSSING_CLOSE (R85, R87, R90, R204): in
OPEN, with no export in the way, every Reach is sealed, the Valley is CLOSING, one close report with its step and
poison goes to the warden, and the reply waits for the Watershed; in HALTED the command is answered with the status of
the refusal; outside OPEN it is refused. -/
def Obligations.CrossingOpensAndCloses : Prop :=
  (∀ (q : Fin 64) (s : State) (p : BitVec 512), Taken s q.val 0x20 p →
      let v := pkValley p
      (mayOpen s.eng v (pkw p 1) (pkA p) = true →
        ∃ f, exec (.crossingOpen q) s =
            .next { s with eng := answerAll (settleV s.mem (reply0 f (cmdOf q.val p) stOK) v) } ∧
          (getV f v).phase = .opened ∧ (getV f v).step = pkw p 1 ∧ (getV f v).opened = true ∧ (getV f v).openHere = true ∧
          (getV f v).fenced = false ∧ (getV f v).epoch = (getV s.eng v).epoch ∧ (getV f v).live = (getV s.eng v).live ∧
          (∀ r ∈ otherReaches s.eng v, (getReach (getV f v) r).st =
              (if (getReach (getV s.eng v) r).st = .folded then .folded else .clean) ∧
            ((getReach (getV s.eng v) r).st ≠ .folded → (getReach (getV f v) r).issued = [])) ∧
          (∀ r ∈ landingReaches s.eng v, unsealed (getReach (getV f v) r) = false) ∧
          f.spill = s.eng.spill ∧ f.regions = s.eng.regions) ∧
      (mayOpen s.eng v (pkw p 1) (pkA p) = false →
        ∃ t, exec (.crossingOpen q) s = .next t ∧ OnlyReplies s t q.val p stOutOfRange 0 0)) ∧
  (∀ (q : Fin 64) (s : State) (p : BitVec 512), Taken s q.val 0x21 p →
      let v := pkValley p
      let x := getV s.eng v
      (isJoined x = true → x.phase = .opened → exportKeeps x = false →
        ∃ f, exec (.crossingClose q) s = .next { s with eng := answerAll (settleV s.mem f v) } ∧
          (getV f v).phase = .closing ∧ (getV f v).closeWait = some (cmdOf q.val p) ∧ (getV f v).closeEpoch = x.epoch ∧
          (getV f v).closeRep = some { step := x.step, poisoned := x.poisoned } ∧
          (∀ r ∈ reachList s.eng v, unsealed (getReach (getV f v) r.num) = false) ∧
          f.io = { (readHead s.eng q.val).io with ctlOut := s.eng.io.ctlOut ++
            [{ v := v, node := nodeOf x (wardenOf x), tag := x.tag, from_ := x.self, dest := wardenOf x
               epoch := x.epoch, msg := .close x.step x.poisoned }] }) ∧
      (isJoined x = true → x.phase = .halted →
        ∃ t, exec (.crossingClose q) s = .next t ∧ OnlyReplies s t q.val p (x.refusal.getD stOutOfRange) 0 0) ∧
      (x.phase ≠ .opened → x.phase ≠ .halted →
        ∃ t, exec (.crossingClose q) s = .next t ∧ OnlyReplies s t q.val p stOutOfRange 0 0))

/-- Tier 2. REACH_SEAL (R85, R198): in OPEN, each Reach of the range that is not landing and not yet sealed is sealed,
or its seal is held while R198 holds it; the range must lie inside the Valley. HELD_SEAL_RELEASE (R198): the row makes
the held seals of a Valley whose condition no longer holds and then runs the consequences; each such Reach is SEALED,
and a Reach whose condition still holds stays as it is. -/
def Obligations.SealsAreMade : Prop :=
  (∀ (q : Fin 64) (s : State) (p : BitVec 512), Taken s q.val 0x22 p →
      let v := pkValley p
      let x := getV s.eng v
      (isJoined x = true → x.phase = .opened → pkf p 2 0 32 ≠ 0 → pkf p 1 0 32 + pkf p 2 0 32 ≤ (reachList s.eng v).length →
        ∃ f, exec (.reachSeal q) s =
            .next { s with eng := answerAll (settleV s.mem (reply0 f (cmdOf q.val p) stOK) v) } ∧
          (∀ r ∈ otherReaches s.eng v, unsealed (getReach x r) = true →
            (pkf p 1 0 32 ≤ r → r < pkf p 1 0 32 + pkf p 2 0 32 →
              (sealHeld x r = false → (getReach (getV f v) r).st = .sealed) ∧
              (sealHeld x r = true → (getReach (getV f v) r).held = true ∧
                (getReach (getV f v) r).st = (getReach x r).st)) ∧
            ((r < pkf p 1 0 32 ∨ pkf p 1 0 32 + pkf p 2 0 32 ≤ r) → getReach (getV f v) r = getReach x r)) ∧
          (getV f v).phase = .opened ∧ f.io = (readHead s.eng q.val).io ∧ f.spill = s.eng.spill ∧
          f.regions = s.eng.regions) ∧
      ((x.phase ≠ .opened ∨ pkf p 2 0 32 = 0 ∨ (reachList s.eng v).length < pkf p 1 0 32 + pkf p 2 0 32) →
        ∃ t, exec (.reachSeal q) s = .next t ∧ OnlyReplies s t q.val p stOutOfRange 0 0)) ∧
  (∀ (v : Fin 16) (s : State), ctlOn s.eng = true →
      exec (.heldSealRelease v) s = .next { s with eng := settleV s.mem (releaseSeals s.eng v.val) v.val } ∧
      (∀ r ∈ reachList s.eng v.val,
        ((getReach (getV s.eng v.val) r.num).held = true → sealHeld (getV s.eng v.val) r.num = false →
          unsealed (getReach (getV s.eng v.val) r.num) = true →
            (getReach (getV (releaseSeals s.eng v.val) v.val) r.num).st = .sealed) ∧
        ((getReach (getV s.eng v.val) r.num).held = true → sealHeld (getV s.eng v.val) r.num = true →
          getReach (getV (releaseSeals s.eng v.val) v.val) r.num = getReach (getV s.eng v.val) r.num)) ∧
      (releaseSeals s.eng v.val).spill = s.eng.spill ∧ (releaseSeals s.eng v.val).io = s.eng.io)

/-- Tier 2. FENCE (R92, R128): the Valley is FROZEN with the new live set and waits; no entry for a removed member
stays on an outbound ring and no block of one waits on an inbound ring; of a removed peer only the time it was last heard
stays (a reading, notes/assumptions/15.md, DEDUCED); a live set that is no subset, or lacks this member, is refused.
ROLLBACK (R94, R127): on a FROZEN Valley whose FENCE returned OK, every Reach that has not folded is clean again with its
committed digest, a folded one keeps its state, no close or drained report stands, and with the thaw flag the Valley is
IDLE; otherwise it is refused and changes nothing. After a ROLLBACK nothing is left to roll back, and a ROLLBACK with
nothing left changes nothing. SETTLE_SUMMARY (R93): the summary is kept, the newest of its sender and epoch, and the waiting
FENCE goes on. -/
def Obligations.FenceAndRollback : Prop :=
  (∀ (q : Fin 64) (s : State) (p : BitVec 512), Taken s q.val 0x28 p →
      let v := pkValley p
      let x := getV s.eng v
      (mayFence x (pkw p 1) = true →
        ∃ f, exec (.fence q) s = .next { s with eng := answerAll (settleV s.mem (fenceExport s.mem f v) v) } ∧
          (getV f v).phase = .frozen ∧ (getV f v).live = pkw p 1 ∧ (getV f v).fenced = false ∧
          (getV f v).fenceWait = some { cmd := cmdOf q.val p, settle := pkA p, since := s.eng.side.ts, sent := false } ∧
          (getV f v).epoch = x.epoch ∧ (getV f v).runs = [] ∧
          (∀ d ∈ distances x, bit (pkw p 1) (outPeer x d) = false → (getOut (getV f v) d).entries = []) ∧
          (∀ d ∈ distances x, bit (pkw p 1) (inPeer x d) = false → (getIn (getV f v) d).waiting = []) ∧
          (∀ i, bit (pkw p 1) i = false → getPeer (getV f v) i = { lastHeard := (getPeer x i).lastHeard }) ∧
          (x.opened = true → ∀ r ∈ reachList s.eng v, unsealed (getReach (getV f v) r.num) = false)) ∧
      (mayFence x (pkw p 1) = false →
        ∃ t, exec (.fence q) s = .next t ∧ OnlyReplies s t q.val p stOutOfRange 0 0)) ∧
  (∀ (q : Fin 64) (s : State) (p : BitVec 512), Taken s q.val 0x24 p →
      let v := pkValley p
      let x := getV s.eng v
      (isJoined x = true → x.phase = .frozen → x.fenced = true → (pkA p = true → mayThaw s.eng v = true) →
        ∃ f, exec (.rollback q) s =
            .next { s with eng := answerAll (settleV s.mem (reply0 f (cmdOf q.val p) stOK) v) } ∧
          (getV f v).phase = (if pkA p then .idle else .frozen) ∧ (getV f v).closeRep = none ∧ (getV f v).drainSent = false ∧
          (∀ r ∈ reachList s.eng v,
            ((getReach x r.num).st ≠ .folded → (getReach (getV f v) r.num).st = .clean ∧
              (getReach (getV f v) r.num).pend = (getReach x r.num).comm ∧ (getReach (getV f v) r.num).issued = []) ∧
            ((getReach x r.num).st = .folded → (getReach (getV f v) r.num).st = .folded))) ∧
      ((isJoined x = false ∨ x.phase ≠ .frozen ∨ x.fenced = false ∨ (pkA p = true ∧ mayThaw s.eng v = false)) →
        ∃ t, exec (.rollback q) s = .next t ∧ OnlyReplies s t q.val p stOutOfRange 0 0)) ∧
  (∀ (m : Mem) (e : Eng) (v : Nat), rollLeft (rollback m e v) v = false ∧ (rollLeft e v = false → rollback m e v = e)) ∧
  (∀ (p : RxPacket) (s : State) (v : Nat), rxChecks s.eng p = .accepted v → (hdrOf p).typ = 4 → (hdrOf p).kind = 5 →
      (getV s.eng v).slot ≠ .spare →
      let h := hdrOf p
      let sum : Summary :=
        { sender := h.sender, epoch := h.epoch, first := BitVec.ofNat 32 (fld h.w3 0 32), landing := bit h.w3 32
          crossing := bit h.w3 33, recorded := bit h.w3 34, bitmap := (entryWords p 1).headD 0 }
      ∃ f, exec (.settleSummary p) s = .next { s with eng := advance s.mem (settleV s.mem (commitStep s.mem f v) v) } ∧
        sum ∈ (getV f v).summaries ∧
        (∀ y ∈ (getV f v).summaries, y.sender = h.sender → y.epoch = h.epoch → y = sum) ∧
        (∀ y, (y.sender ≠ h.sender ∨ y.epoch ≠ h.epoch) → (y ∈ (getV f v).summaries ↔ y ∈ (getV s.eng v).summaries)) ∧
        f.io = s.eng.io ∧ (getV f v).reaches = (getV s.eng v).reaches ∧ f.lanes = s.eng.lanes ∧
        f.regions = s.eng.regions)

/-- Tier 2. Folding one Reach on a member (R88, R57): it is FOLDED, its committed digest is its pending digest, its
pending tiles and retained records are gone, and the digest of each seal held for it is that sender's committed digest,
while other senders keep theirs; another Reach keeps its state. REACH_FOLD, LANDING_FOLD and CROSSING_FOLD of the current
epoch (R88): the named Reaches, the landing Reaches, or all Reaches are folded, and the landing and crossing folds are
remembered; a fold that comes again, or in HALTED, is counted under cause 19 and changes nothing else. The union of folds
at the end of a settling (R93): a Reach is folded exactly when it was, or when a summary of the epoch shows it folded, and
no other Reach changes. -/
def Obligations.FoldCommitsReach : Prop :=
  (∀ (m : Mem) (e : Eng) (v rho : Nat),
    let x := getV e v
    let y := getV (foldReach m e v rho) v
    ((getReach x rho).st = .folded → foldReach m e v rho = e) ∧
    ((getReach x rho).st ≠ .folded →
      (getReach y rho).st = .folded ∧
      (getReach y rho).comm = (if (getReach x rho).unbuilt then (getReach x rho).comm else (getReach x rho).pend) ∧
      (getReach y rho).lastStep = some x.step ∧ pendTiles y rho = [] ∧ (∀ r ∈ y.retained, r.reach ≠ rho) ∧
      (∀ r ∈ x.retained, r.reach ≠ rho → r ∈ y.retained) ∧
      (∀ j, j ≠ rho → getReach y j = getReach x j) ∧ y.epoch = x.epoch ∧ y.phase = x.phase ∧
      (((getHold x rho).seals.map (·.1)).Nodup → ∀ d sl, Tab.find (getHold x rho).seals d = some sl →
        Tab.find (Tab.get [] y.commHold rho) d = some sl.digest) ∧
      (∀ d, Tab.find (getHold x rho).seals d = none →
        Tab.find (Tab.get [] y.commHold rho) d = Tab.find (Tab.get [] x.commHold rho) d) ∧
      (∀ j, j ≠ rho → Tab.get [] y.commHold j = Tab.get [] x.commHold j) ∧
      (∀ w, w ≠ v → getV (foldReach m e v rho) w = getV e w))) ∧
  (∀ (p : RxPacket) (s : State) (v : Nat), rxChecks s.eng p = .accepted v → (hdrOf p).typ = 4 →
      (getV s.eng v).slot ≠ .spare → (hdrOf p).epoch = (getV s.eng v).epoch →
      let x := getV s.eng v
      let go (f : Eng) : Eng := advance s.mem (settleV s.mem (commitStep s.mem f v) v)
      let named := (entryWords p (hdrOf p).count).map fun w => fld w 0 32
      let folded (f : Eng) (r : Nat) : Prop :=
        (getReach (getV f v) r).st = .folded ∧
          ((getReach x r).st = .folded → getReach (getV f v) r = getReach x r) ∧
          ((getReach x r).st ≠ .folded → (getReach (getV f v) r).comm =
            (if (getReach x r).unbuilt then (getReach x r).comm else (getReach x r).pend))
      let late := drop (heard s.eng v (hdrOf p).sender) 19
      ((hdrOf p).kind = 1 → x.phase ≠ .halted →
        ∃ f, exec (.reachFold p) s = .next { s with eng := go f } ∧
          (∀ r ∈ named, r < (reachList s.eng v).length → folded f r) ∧
          (∀ r, r ∉ named → getReach (getV f v) r = getReach x r) ∧ (getV f v).epoch = x.epoch) ∧
      ((hdrOf p).kind = 1 → x.phase = .halted → exec (.reachFold p) s = .next { s with eng := go late }) ∧
      ((hdrOf p).kind = 2 → x.phase ≠ .halted → x.landFold = false →
        ∃ f, exec (.landingFold p) s = .next { s with eng := go f } ∧ (getV f v).landFold = true ∧
          (∀ r ∈ landingReaches s.eng v, folded f r) ∧
          (∀ r, r ∉ landingReaches s.eng v → getReach (getV f v) r = getReach x r) ∧ (getV f v).epoch = x.epoch) ∧
      ((hdrOf p).kind = 2 → (x.phase = .halted ∨ x.landFold = true) →
        exec (.landingFold p) s = .next { s with eng := go late }) ∧
      ((hdrOf p).kind = 3 → x.phase ≠ .halted → x.crossFold = false →
        ∃ f, exec (.crossingFold p) s = .next { s with eng := go f } ∧ (getV f v).landFold = true ∧
          (getV f v).crossFold = true ∧ (∀ r ∈ reachList s.eng v, folded f r.num) ∧ (getV f v).epoch = x.epoch) ∧
      ((hdrOf p).kind = 3 → (x.phase = .halted ∨ x.crossFold = true) →
        exec (.crossingFold p) s = .next { s with eng := go late })) ∧
  (∀ (m : Mem) (e : Eng) (v : Nat),
      let x := getV e v
      let ss := x.summaries.filter fun s => decide (s.epoch = x.epoch) && isLive x s.sender
      let y := getV (applyUnion m e v) v
      let shown (r : Nat) : Prop := ss.any (fun s =>
        decide (r < s.first.toNat) || (decide (s.first.toNat ≤ r) && bit s.bitmap (r - s.first.toNat))) = true
      (ss.any (·.crossing) = true → y.landFold = true ∧ y.crossFold = true ∧
        ∀ r ∈ reachList e v, (getReach y r.num).st = .folded) ∧
      (ss.any (·.crossing) = false →
        y.crossFold = x.crossFold ∧ y.landFold = (x.landFold || ss.any (·.landing)) ∧
        ∀ r ∈ reachList e v,
          ((getReach y r.num).st = .folded ↔ (getReach x r.num).st = .folded ∨ shown r.num ∨
            (ss.any (·.landing) = true ∧ x.landFold = false ∧ r.num ∈ landingReaches e v)) ∧
          ((getReach y r.num).st ≠ .folded → getReach y r.num = getReach x r.num)))

/-- Tier 2. A recorded Watershed (R86, R89, R254, R311): its record names the old epoch and the step; the next epoch
begins with every Reach clean, early seals and counts as its own, the warden's collections empty and the phase IDLE
(FROZEN stays FROZEN); the pending frozen bits of the Valley's regions take effect, their four counts return to zero and
each of their events may be raised again (R95), while other Valleys' regions keep theirs. The WATERSHED fold (R89) records
it on a member that is neither HALTED nor FROZEN, with the step it carries; one that arrives in HALTED is counted under
cause 19 and changes nothing else. -/
def Obligations.WatershedBeginsEpoch : Prop :=
  (∀ (m : Mem) (e : Eng) (v : Nat) (step : W64),
    let x := getV e v
    let f := recordWatershed m e v step
    let y := getV f v
    y.epoch = x.epoch + 1 ∧ y.phase = (if x.phase = .frozen then .frozen else .idle) ∧ y.opened = false ∧
    (∃ w, y.ws = some w ∧ w.number = x.epoch ∧ w.step = step ∧ w.ts = e.side.ts ∧ w.tag = x.tag) ∧
    (∀ r, (getReach y r).st = .clean ∧ (getReach y r).issued = [] ∧ (getReach y r).comm = (getReach x r).comm) ∧
    y.hold = x.holdNext ∧ y.holdNext = [] ∧ y.warden = {} ∧ y.recorded = true ∧ y.closeRep = none ∧
    y.regs.commitF = x.regs.commit ∧ y.regs.drainF = x.regs.drain ∧ y.retained = x.retained ∧ y.outs = x.outs ∧
    (∀ d, Region.empty (getR e d) = false → Region.valley (getR e d) = v →
      (getR f d).frozen = Region.frozenBit (getR e d) ∧ (getR f d).suppr = 0 ∧ (getR f d).nonfin = 0 ∧
      (getR f d).satur = 0 ∧ (getR f d).zeros = 0 ∧ (getR f d).evUncr = false ∧ (getR f d).evLate = false ∧
      (getR f d).evFroz = false ∧ (getR f d).evNonf = false ∧ (getR f d).evExp = false) ∧
    (∀ d, Region.empty (getR e d) = false → Region.valley (getR e d) ≠ v → getR f d = getR e d) ∧
    (∀ w, w ≠ v → getV f w = getV e w)) ∧
  (∀ (p : RxPacket) (s : State) (v : Nat), rxChecks s.eng p = .accepted v → (hdrOf p).typ = 4 → (hdrOf p).kind = 4 →
      (getV s.eng v).slot ≠ .spare → (hdrOf p).epoch = (getV s.eng v).epoch →
      let e := heard s.eng v (hdrOf p).sender
      let go (f : Eng) : Eng := advance s.mem (settleV s.mem (commitStep s.mem f v) v)
      ((getV s.eng v).phase ≠ .halted → (getV s.eng v).phase ≠ .frozen →
        exec (.watershed p) s = .next { s with eng := go (recordWatershed s.mem e v (hdrOf p).w3) }) ∧
      ((getV s.eng v).phase = .halted → exec (.watershed p) s = .next { s with eng := go (drop e 19) }))

/-- Tier 2. The warden and refusals (R84, R87, R90): a report with a step that differs makes the warden refuse the
epoch with STEP_SKEW to every live member, and after that it collects nothing; a member that is not the warden, or a report
of another epoch, collects nothing (a reading, notes/assumptions/17.md, DEDUCED); a refusal halts an open or closing Valley,
once. REACH_READY, LANDING_READY, CLOSE and DRAINED reach the warden: what the report says of its sender is collected, and
the warden's procedure and what it lets go on run; when the last landing ready is in, the landing fold goes to every live
member, and when every member has drained and the closes agree, the Watershed does. REFUSE reaches a member. -/
def Obligations.SkewIsRefused : Prop :=
  (∀ (e : Eng) (v sender : Nat) (epoch : W64) (st : W16) (g : Warden → Warden),
    let x := getV e v
    (x.self = wardenOf x → epoch = x.epoch → isJoined x = true → sender < 64 → x.warden.done = false →
      x.warden.refused = none → (g x.warden).done = false → (g x.warden).refused = none →
        let f := wardenReport e v sender epoch true g
        (getV f v).warden.refused = some stStepSkew ∧
        f.io.ctlOut = e.io.ctlOut ++ (liveList x).map (fun i => { v := v, node := nodeOf x i, tag := x.tag, from_ := x.self
                                                                  dest := i, epoch := x.epoch, msg := .refuse stStepSkew })) ∧
    ((x.self ≠ wardenOf x ∨ epoch ≠ x.epoch ∨ x.warden.done = true ∨ x.warden.refused ≠ none) →
      wardenReport e v sender epoch true g = e) ∧
    ((x.phase = .halted ∨ x.refusal ≠ none) → onRefuse e v sender st = drop e 19) ∧
    ((x.phase = .opened ∨ x.phase = .closing) → x.refusal = none →
      (getV (onRefuse e v sender st) v).phase = .halted ∧ (getV (onRefuse e v sender st) v).refusal = some st ∧
      (getV (onRefuse e v sender st) v).closeWait = none ∧ (getV (onRefuse e v sender st) v).reaches = x.reaches)) ∧
  (∀ (e : Eng) (v sender : Nat) (g : Warden → Warden),
    let x := getV e v
    let w := g x.warden
    let f := wardenReport e v sender x.epoch false g
    let all (msg : Msg) : List CtlOut := (liveList x).map fun i =>
      { v := v, node := nodeOf x i, tag := x.tag, from_ := x.self, dest := i, epoch := x.epoch, msg := msg }
    x.self = wardenOf x → isJoined x = true → sender < 64 → x.warden.done = false → x.warden.refused = none →
      w.done = false → w.refused = none →
      (getV f v).warden.readies = w.readies ∧ (getV f v).warden.landing = w.landing ∧ (getV f v).warden.closes = w.closes ∧
      (getV f v).warden.drained = w.drained ∧ (getV f v).reaches = x.reaches ∧ (getV f v).epoch = x.epoch ∧
      f.lanes = e.lanes ∧ f.regions = e.regions ∧
      (x.crossMode = false → w.landingB = false → x.landFold = false → coversLive x w.landing = true →
        ∃ more, f.io.ctlOut = e.io.ctlOut ++ all (.landingFold false) ++ more) ∧
      (∀ step i, isLive x i = true → i < x.n → isParity x i = false →
        (∀ j ∈ liveList x, isParity x j = false → Tab.find w.closes j = some { step := step, poisoned := false }) →
        i ∈ liveList x → coversLive x w.drained = true →
          (getV f v).warden.done = true ∧ ∃ more, f.io.ctlOut = e.io.ctlOut ++ more ++ all (.watershed step))) ∧
  (∀ (p : RxPacket) (s : State) (v : Nat), rxChecks s.eng p = .accepted v →
    let h := hdrOf p
    let e := heard s.eng v h.sender
    let go (f : Eng) : Host.Outcome State Fault Refusal :=
      .next { s with eng := advance s.mem (settleV s.mem (commitStep s.mem f v) v) }
    let es := (entryWords p h.count).map fun w => (fld w 0 32, bit w 32)
    (h.typ = 3 → h.kind = 1 → exec (.reachReady p) s = go (wardenReport e v h.sender h.epoch (es.any (·.2)) fun w =>
      { w with readies := es.foldl (fun t y => Tab.upd 0 t y.1 fun b => setBit b h.sender) w.readies })) ∧
    (h.typ = 3 → h.kind = 2 → exec (.landingReady p) s = go (wardenReport e v h.sender h.epoch (bit h.w3 0) fun w =>
      { w with landing := setBit w.landing h.sender })) ∧
    (h.typ = 3 → h.kind = 3 → exec (.close p) s = go (wardenReport e v h.sender h.epoch false fun w =>
      { w with closes := Tab.set w.closes h.sender { step := h.w3, poisoned := bit ((entryWords p 1).headD 0) 0 } })) ∧
    (h.typ = 3 → h.kind = 4 → exec (.drained p) s = go (wardenReport e v h.sender h.epoch false fun w =>
      { w with drained := setBit w.drained h.sender })) ∧
    (h.typ = 4 → h.kind = 6 → (getV s.eng v).slot ≠ .spare → h.epoch = (getV s.eng v).epoch →
      exec (.refuse p) s = go (onRefuse e v h.sender (BitVec.ofNat 16 (fld h.w3 0 16)))))

/-- Tier 2. VALLEY_DEFINE (R3, R56, R252, R253): a slot that is not bound takes a valid shape with a tag of its own
and a code point that is not zero, and is defined; a shape of no member empties a slot that no region names; a bound
slot is locked; everything else is refused. Only the first two change anything but answers, and only that slot. Whatever
the command says, Valleys whose shapes lie within the limits of R3 stay so. -/
def Obligations.ValleyDefineDefines : Prop :=
  (∀ (q : Fin 64) (s : State) (p : BitVec 512), Taken s q.val 0x10 p →
    let v := pkValley p
    let x := getV s.eng v
    let n := pkf p 1 16 7
    let k := pkf p 1 24 6
    let m := pkf p 1 32 3
    (slotBound x = false → 3 ≤ n → n ≤ 64 → 2 ≤ k → k ≤ 60 → 1 ≤ m → m ≤ 4 → k + m ≤ n → pkw p 2 ≠ 0 →
      (∀ y ∈ s.eng.valleys, y.1 ≠ v → isDefined y.2 = true → y.2.tag.toNat ≠ pkf p 1 0 16) →
        ∃ t, exec (.valleyDefine q) s = .next t ∧ t.mem = s.mem ∧ Answered s.eng t.eng (cmdOf q.val p) stOK 0 0 ∧
          (getV t.eng v).slot = .defined ∧ (getV t.eng v).tag.toNat = pkf p 1 0 16 ∧ (getV t.eng v).n = n ∧
          (getV t.eng v).k = k ∧ (getV t.eng v).m = m ∧ (getV t.eng v).alpha = pkw p 2 ∧ (getV t.eng v).fn = x.fn ∧
          (∀ w, w ≠ v → getV t.eng w = getV s.eng w) ∧ t.eng.regions = s.eng.regions ∧
          t.eng.basin = (readHead s.eng q.val).basin ∧ t.eng.lanes = s.eng.lanes ∧ t.eng.spill = s.eng.spill) ∧
    (slotBound x = false → n = 0 → slotNamed s.eng v = false →
      ∃ t, exec (.valleyDefine q) s = .next t ∧ t.mem = s.mem ∧ Answered s.eng t.eng (cmdOf q.val p) stOK 0 0 ∧
        (getV t.eng v).slot = .undefined ∧ (∀ w, w ≠ v → getV t.eng w = getV s.eng w)) ∧
    (slotBound x = true →
      ∃ t, exec (.valleyDefine q) s = .next t ∧ OnlyReplies s t q.val p stConfigLocked 0 0) ∧
    (slotBound x = false → n ≠ 0 → (¬ (3 ≤ n ∧ n ≤ 64 ∧ 2 ≤ k ∧ k ≤ 60 ∧ 1 ≤ m ∧ m ≤ 4 ∧ k + m ≤ n) ∨ pkw p 2 = 0 ∨
        ∃ y ∈ s.eng.valleys, y.1 ≠ v ∧ isDefined y.2 = true ∧ y.2.tag.toNat = pkf p 1 0 16) →
      ∃ t, exec (.valleyDefine q) s = .next t ∧ OnlyReplies s t q.val p stOutOfRange 0 0) ∧
    (slotBound x = false → n = 0 → slotNamed s.eng v = true →
      ∃ t, exec (.valleyDefine q) s = .next t ∧ OnlyReplies s t q.val p stOutOfRange 0 0)) ∧
  (∀ (q : Fin 64) (s : State),
    let fits (e : Eng) : Prop := ∀ v, isDefined (getV e v) = true →
      3 ≤ (getV e v).n ∧ (getV e v).n ≤ 64 ∧ 2 ≤ (getV e v).k ∧ (getV e v).k ≤ 60 ∧ 1 ≤ (getV e v).m ∧ (getV e v).m ≤ 4 ∧
        (getV e v).k + (getV e v).m ≤ (getV e v).n
    fits s.eng → ∃ t, exec (.valleyDefine q) s = .next t ∧ fits t.eng)

/-- Tier 2. VALLEY_JOIN (R265 to R268, R70): with a member table and a parity area that pass their checks the slot is
joining, every stream starts at the base, the epoch is the first one and one hello goes to every other live member while
the command waits; a member whose own live bit is clear stands by, with no live member (a reading, notes/assumptions/51.md,
DEDUCED), and is answered at once; any other join is refused. VALLEY_LEAVE (R254, R269, R273): a joined or standby slot
without a waiting command is defined only: its rings, retained records, pending parity and peers are gone, its epoch, step
and latest Watershed stay readable (the same reading), and the command is answered OK, at once while another slot stands;
when none does, once the freed spill pages read zero; with a command waiting it is refused. JOIN_HELLO (R267, R268): a
matching hello of a joining member's peer is remembered, and with the last complete one the slot is joined and the join is
answered OK; one that differs ends the join with OUT_OF_RANGE; a joined member answers a hello that is no answer. -/
def Obligations.ValleyJoinAndLeave : Prop :=
  (∀ (q : Fin 64) (table : List W64) (s : State) (p : BitVec 512), Taken s q.val 0x11 p →
      let v := pkValley p
      let x := getV s.eng v
      let own := pkf p 1 0 6
      let base : W32 := BitVec.ofNat 32 (pkf p 4 0 32)
      let tb := memberTable (paramWords s.mem s.eng (pkw p 5) x.n table)
      let fit := decide (x.slot = .defined) && decide (own < x.n) && addrOk (pkw p 5) 8 (8 * x.n) pkgBytes &&
        tableGood s.eng x.n own (bit (pkw p 1) 6) tb.1 tb.2 && parityAreaOk s.eng v (bit (pkw p 1) 6) (pkw p 2) &&
        slotNamed s.eng v
      (fit = true →
        ∃ t, exec (.valleyJoin q table) s = .next t ∧ t.mem = s.mem ∧
          (getV t.eng v).self = own ∧ (getV t.eng v).members = tb.1 ∧ (getV t.eng v).area = addrOf (pkw p 2) ∧
          (getV t.eng v).parity = bit (pkw p 1) 6 ∧
          (getV t.eng v).epoch = pkw p 3 ∧ (getV t.eng v).firstEpoch = pkw p 3 ∧ (getV t.eng v).step = 0 ∧
          (getV t.eng v).ws = none ∧
          (∀ d ∈ distances x, (getOut (getV t.eng v) d).next = base ∧ (getIn (getV t.eng v) d).a = base) ∧
          (∀ w, w ≠ v → getV t.eng w = getV s.eng w) ∧ t.eng.regions = s.eng.regions ∧ t.eng.spill = s.eng.spill ∧
          (bit tb.2 own = true → (getV t.eng v).slot = .joining ∧ (getV t.eng v).live = tb.2 ∧
            ((getV t.eng v).joinWait.map (·.cmd)) = some (cmdOf q.val p) ∧
            t.eng.io.ctlOut = s.eng.io.ctlOut ++ (othersLive (getV t.eng v)).map fun i =>
              { v := v, node := nodeOf (getV t.eng v) i, tag := x.tag, from_ := own, dest := i, epoch := pkw p 3
                msg := .hello (helloOf t.eng v (othersLive (getV t.eng v)).isEmpty false base) }) ∧
          (bit tb.2 own = false → (getV t.eng v).slot = .standby ∧ (getV t.eng v).live = 0 ∧
            Answered s.eng t.eng (cmdOf q.val p) stOK 0 0 ∧ t.eng.io.ctlOut = s.eng.io.ctlOut)) ∧
      (fit = false → ∃ t, exec (.valleyJoin q table) s = .next t ∧ OnlyReplies s t q.val p stOutOfRange 0 0)) ∧
  (∀ (q : Fin 64) (s : State) (p : BitVec 512), Taken s q.val 0x12 p →
      let v := pkValley p
      let x := getV s.eng v
      ((x.slot = .joined ∨ x.slot = .standby) → anyWaits x = false →
        ∃ f, exec (.valleyLeave q) s = .next { s with eng := answerAll (orderlyStop f (cmdOf q.val p)) } ∧
          (getV f v).slot = .defined ∧ (getV f v).outs = [] ∧ (getV f v).ins = [] ∧ (getV f v).retained = [] ∧
          (getV f v).pend = [] ∧ (getV f v).live = 0 ∧ (getV f v).t1 = none ∧ (getV f v).runs = [] ∧
          (getV f v).epoch = x.epoch ∧ (getV f v).step = x.step ∧ (getV f v).ws = x.ws ∧ (getV f v).tag = x.tag ∧
          (∀ g d, Tab.find f.basin.owners g ≠ some (.outRing v d) ∧ Tab.find f.basin.owners g ≠ some (.inRing v d))) ∧
      (((x.slot ≠ .joined ∧ x.slot ≠ .standby) ∨ anyWaits x = true) →
        ∃ t, exec (.valleyLeave q) s = .next t ∧ OnlyReplies s t q.val p stOutOfRange 0 0)) ∧
  (∀ (e : Eng) (c : Cmd) (w : StopWait), e.ctl.cpHaltBit = false →
      ((∃ y ∈ e.valleys, standsUp y.2 = true) → Answered e (orderlyStop e c) c stOK 0 0) ∧
      ((∀ y ∈ e.valleys, standsUp y.2 = false) →
        (∀ y ∈ (orderlyStop e c).spill.pages, (getV e y.2.v).slot = .joining) ∧
        ((orderlyStop e c).spill.zeroing = [] →
          (orderlyStop e c).ctl.opened = false ∧ Answered e (orderlyStop e c) c stOK 0 0) ∧
        ((orderlyStop e c).spill.zeroing ≠ [] → (orderlyStop e c).io = e.io ∧
          (orderlyStop e c).ctl.stops = e.ctl.stops ++ [{ cmd := c, pages := (orderlyStop e c).spill.zeroing }])) ∧
      ((∃ g ∈ w.pages, g ∈ e.spill.zeroing) → endStop e w = e) ∧
      ((∀ g ∈ w.pages, g ∉ e.spill.zeroing) →
        (endStop e w).ctl.opened = false ∧ Answered e (endStop e w) w.cmd stOK 0 0)) ∧
  (∀ (p : RxPacket) (s : State) (v : Nat), rxChecks s.eng p = .accepted v → (hdrOf p).typ = 6 → (hdrOf p).kind = 5 →
      let h := hdrOf p
      let x := getV s.eng v
      let hi := helloIn p h
      (∀ w, x.slot = .joining → x.joinWait = some w → s.eng.ctl.cpHaltBit = false →
        let same := helloMatches (helloDiff s.eng v h.sender h.epoch x.firstEpoch x.base hi)
        let w1 : JoinWait := { w with matched := setBit w.matched h.sender
                                      complete := if hi.complete then setBit w.complete h.sender else w.complete }
        let all := (othersLive x).all (bit w1.complete)
        ∃ f, exec (.joinHello p) s = .next { s with eng := advance s.mem f } ∧
          (same = false → (getV f v).slot = .defined ∧ (getV f v).joinWait = none ∧
            Answered s.eng f w.cmd stOutOfRange 0 0) ∧
          (same = true → all = false → (getV f v).slot = .joining ∧ (getV f v).joinWait = some w1 ∧ f.io = s.eng.io) ∧
          (same = true → all = true → (getV f v).slot = .joined ∧ (getV f v).joinWait = none ∧ (getV f v).phase = .idle ∧
            (getV f v).live = x.live ∧ Answered s.eng f w.cmd stOK 0 0)) ∧
      (x.slot = .joined → hi.answer = false →
        ∃ f, exec (.joinHello p) s = .next { s with eng := advance s.mem f } ∧
          f.io = { s.eng.io with ctlOut := s.eng.io.ctlOut ++
            [{ v := v, node := nodeOf x h.sender, tag := x.tag, from_ := x.self, dest := h.sender, epoch := x.firstEpoch
               msg := .hello (helloOf s.eng v true true x.base) }] } ∧ (getV f v).slot = .joined) ∧
      (x.slot = .joined → hi.answer = true →
        exec (.joinHello p) s = .next { s with eng := advance s.mem (heard s.eng v h.sender) }))

/-- Tier 2. REGION_DEFINE (R5, R35, R252, R253, R309): its words without their reserved bits make the descriptor; a valid
one of a Valley that does not run is stored, in force at once, and its filter stands in every lane (every lane holding it
is the model's choice, notes/assumptions/25.md); one of length 0 empties the descriptor and its filter; while a Valley runs
a changed descriptor is locked and a change of the frozen field alone is a freeze or thaw; an invalid one is refused; a
descriptor of another partition is denied. REGION_FREEZE and REGION_THAW (R34, R254): they write the frozen field of a
region and nothing else; while the Valley has no Crossing open the value is in force at once, and while one is open the
value in force stays until its Watershed; an empty descriptor, or one of a Valley in standby (R268), is refused. -/
def Obligations.RegionsAreDefinedAndFrozen : Prop :=
  (∀ (q : Fin 64) (s : State) (p : BitVec 512), Taken s q.val 0x18 p →
      let d := pkf p 1 0 10
      let w0 := descBits0 (pkw p 2)
      let w1 := descBits1 (pkw p 3)
      let old := getR s.eng d
      let new : Region := { w0 := w0, w1 := w1, frozen := bit w1 15 }
      (mayDefine s.eng (getQ s.eng q.val).owner d (pkw p 2) (pkw p 3) = false →
        ∃ t, exec (.regionDefine q) s = .next t ∧ OnlyReplies s t q.val p stDenied 0 0) ∧
      (mayDefine s.eng (getQ s.eng q.val).owner d (pkw p 2) (pkw p 3) = true →
        (regionRuns s.eng old = false → regionRuns s.eng new = false → Region.empty new = false →
          regionOk s.eng d new = true → sidesKept s.eng d new = true →
            ∃ t, exec (.regionDefine q) s = .next t ∧ t.mem = s.mem ∧ Answered s.eng t.eng (cmdOf q.val p) stOK 0 0 ∧
              getR t.eng d = new ∧ (∀ c, c ≠ d → getR t.eng c = getR s.eng c) ∧
              (∀ i : Fin 12, Tab.find (getLane t.eng i.val).filters d = some w0 ∨ w0 = 0) ∧
              t.eng.valleys = s.eng.valleys ∧ t.eng.basin = (readHead s.eng q.val).basin ∧
              t.eng.regs = (readHead s.eng q.val).regs) ∧
        (regionRuns s.eng old = false → Region.empty new = true → sidesKept s.eng d {} = true →
          ∃ t, exec (.regionDefine q) s = .next t ∧ t.mem = s.mem ∧ Answered s.eng t.eng (cmdOf q.val p) stOK 0 0 ∧
            getR t.eng d = {} ∧ (∀ c, c ≠ d → getR t.eng c = getR s.eng c) ∧
            (∀ i : Fin 12, Tab.find (getLane t.eng i.val).filters d = none) ∧ t.eng.valleys = s.eng.valleys) ∧
        ((regionRuns s.eng old = true ∨ regionRuns s.eng new = true) → (old.w0 ≠ w0 ∨ clrBit old.w1 15 ≠ clrBit w1 15) →
          ∃ t, exec (.regionDefine q) s = .next t ∧ OnlyReplies s t q.val p stConfigLocked 0 0) ∧
        (regionRuns s.eng old = true → (getV s.eng (Region.valley old)).slot ≠ .standby → old.w0 = w0 →
          clrBit old.w1 15 = clrBit w1 15 →
            ∃ t, exec (.regionDefine q) s = .next t ∧ t.mem = s.mem ∧ Answered s.eng t.eng (cmdOf q.val p) stOK 0 0 ∧
              Region.frozenBit (getR t.eng d) = bit w1 15 ∧ (getR t.eng d).w0 = old.w0 ∧
              (∀ c, c ≠ d → getR t.eng c = getR s.eng c) ∧ t.eng.valleys = s.eng.valleys ∧ t.eng.lanes = s.eng.lanes) ∧
        (regionRuns s.eng old = false → regionRuns s.eng new = false → Region.empty new = false →
          (regionOk s.eng d new = false ∨ sidesKept s.eng d new = false) →
            ∃ t, exec (.regionDefine q) s = .next t ∧ OnlyReplies s t q.val p stOutOfRange 0 0) ∧
        (regionRuns s.eng old = false → Region.empty new = true → sidesKept s.eng d {} = false →
          ∃ t, exec (.regionDefine q) s = .next t ∧ OnlyReplies s t q.val p stOutOfRange 0 0))) ∧
  (∀ (q : Fin 64) (s : State) (p : BitVec 512) (on : Bool), Taken s q.val (if on then 0x19 else 0x1A) p →
      let d := pkf p 1 0 10
      let r := getR s.eng d
      let c : Instr := if on then .regionFreeze q else .regionThaw q
      let stands := decide ((getV s.eng (Region.valley r)).slot = .standby)
      (Region.empty r = false → stands = false → fnHoldsRegion s.eng (getQ s.eng q.val).owner d = true →
        ∃ t, exec c s = .next t ∧ t.mem = s.mem ∧ Answered s.eng t.eng (cmdOf q.val p) stOK 0 0 ∧
          (getR t.eng d).frozen = (if (getV s.eng (Region.valley r)).opened then r.frozen else on) ∧
          Region.frozenBit (getR t.eng d) = on ∧ (getR t.eng d).w0 = r.w0 ∧ clrBit (getR t.eng d).w1 15 = clrBit r.w1 15 ∧
          (∀ j, j ≠ d → getR t.eng j = getR s.eng j) ∧ t.eng.valleys = s.eng.valleys ∧ t.eng.lanes = s.eng.lanes) ∧
      (Region.empty r = false → stands = false → fnHoldsRegion s.eng (getQ s.eng q.val).owner d = false →
        ∃ t, exec c s = .next t ∧ OnlyReplies s t q.val p stDenied 0 0) ∧
      ((Region.empty r = true ∨ stands = true) →
        ∃ t, exec c s = .next t ∧ OnlyReplies s t q.val p stOutOfRange 0 0))

/-- Tier 2. The command path (R236 to R240, R247 to R250): COMMAND_FETCH puts one packet behind those that wait; for every
row of the command table, a packet that a check of R250 refuses, a stale version among them, is answered with the first
failing check's status and changes nothing else, and a packet of another opcode, or none that is ready, leaves the row
without effect. WATERSHED_QUERY (R89): the latest Watershed's number and step are the result words, and an address in
host space also receives the four words of its record; without a Watershed the command is refused. -/
def Obligations.CommandPath : Prop :=
  (∀ (q : Fin 64) (s : State) (p : BitVec 512),
      let e := fetchPacket (repliesWritten s.eng) q.val p
      (mayFetch s.eng q.val = true →
        exec (.commandFetch q p) s = .next { s with eng := answerAll e } ∧
        (getQ e q.val).buf = (getQ s.eng q.val).buf ++ [p] ∧ (getQ e q.val).out = (getQ s.eng q.val).out + 1) ∧
      (mayFetch s.eng q.val = false → exec (.commandFetch q p) s = .next s)) ∧
  (∀ (q : Fin 64) (s : State) (l k : List W64),
      ∀ r ∈ ([(0x01, none, .negotiate q), (0x02, none, .configure q l), (0x03, none, .query q),
              (0x10, none, .valleyDefine q), (0x11, none, .valleyJoin q l), (0x12, none, .valleyLeave q),
              (0x18, none, .regionDefine q), (0x19, none, .regionFreeze q), (0x1A, none, .regionThaw q),
              (0x20, none, .crossingOpen q), (0x21, none, .crossingClose q), (0x22, none, .reachSeal q),
              (0x23, none, .watershedQuery q), (0x24, none, .rollback q), (0x28, none, .fence q),
              (0x30, none, .suspectReport q), (0x31, none, .rebuildPlan q), (0x32, none, .rebuildRun q l),
              (0x33, some false, .standIn q), (0x33, some true, .standInSpare q), (0x34, none, .contract q l),
              (0x38, none, .audit q l), (0x39, none, .digestExchange q l), (0x3A, none, .lockstep q),
              (0x40, none, .t1Drain q), (0x41, none, .t1Restore q l k), (0x44, none, .t2Drain q),
              (0x45, none, .t2Restore q l k), (0x46, none, .seedServe q), (0x50, none, .outerExport q),
              (0x51, none, .outerReanchor q), (0x60, none, .partitionGrant q), (0x61, none, .partitionRevoke q),
              (0x68, none, .scrub q), (0x70, none, .powerState q), (0x78, none, .keyLoad q l),
              (0x7E, none, .fwLoad q l)] : List (Nat × Option Bool × Instr)),
        (∀ p st, headReady s.eng q.val = some p → (pkOp p).toNat = r.1 → (∀ a, r.2.1 = some a → pkA p = a) →
          preCheck (popHead s.eng q.val) q.val p = some st →
            ∃ t, exec r.2.2 s = .next t ∧ OnlyReplies s t q.val p st 0 0) ∧
        (∀ p, headReady s.eng q.val = some p → ((pkOp p).toNat ≠ r.1 ∨ ∃ a, r.2.1 = some a ∧ pkA p ≠ a) →
          exec r.2.2 s = .next s) ∧
        (headReady s.eng q.val = none → exec r.2.2 s = .next s)) ∧
  (∀ (q : Fin 64) (s : State) (p : BitVec 512), Taken s q.val 0x23 p →
      ((getV s.eng (pkValley p)).ws = none →
        ∃ t, exec (.watershedQuery q) s = .next t ∧ OnlyReplies s t q.val p stOutOfRange 0 0) ∧
      (∀ w, (getV s.eng (pkValley p)).ws = some w →
        (pkw p 1 = 0 → ∃ t, exec (.watershedQuery q) s = .next t ∧ OnlyReplies s t q.val p stOK w.number w.step) ∧
        (pkw p 1 ≠ 0 → isHost (pkw p 1) = true → addrOk (pkw p 1) 8 32 pkgBytes = true →
          ∃ t, exec (.watershedQuery q) s = .next t ∧ OnlyReplies s t q.val p stOK w.number w.step ∧
            ({ src := .buffer, addr := BitVec.ofNat 64 (addrOf (pkw p 1)), data := wsWords w } : HmWrite) ∈ t.eng.io.hm)))

/-- Tier 2. NEGOTIATE (R247): the highest version that does not exceed the offer is in force for the function, and the
reply names it and the highest implemented (which minor version of an equal major one that is, is a reading,
notes/assumptions/49.md, DEDUCED); a later NEGOTIATE is refused while the function has another command outstanding; an
offer below 1.0 is refused with BAD_VERSION. QUERY (R250, R258): an item is written whole to the buffer, in host space or in
package memory, and its size is both result words; a buffer that is too short receives nothing and learns the size it
needs; an item that does not exist is refused. The engine's state does not change. -/
def Obligations.NegotiateAndQuery : Prop :=
  (∀ (q : Fin 64) (s : State) (p : BitVec 512),
      let fn := (getQ s.eng q.val).owner
      let hi := highestVersion s.eng
      let ch := chooseVersion hi (pkf p 1 0 4, pkf p 1 4 8)
      let again := Tab.has s.eng.ctl.negotiated fn.toNat && decide (1 < outstanding (popHead s.eng q.val) fn)
      (Taken s q.val 0x01 p → again = false →
        ∃ t, exec (.negotiate q) s = .next t ∧ t.mem = s.mem ∧
          Tab.find t.eng.ctl.negotiated fn.toNat = some (ch.1 + 16 * ch.2) ∧
          (∀ f, f ≠ fn.toNat → Tab.find t.eng.ctl.negotiated f = Tab.find s.eng.ctl.negotiated f) ∧
          Answered s.eng t.eng (cmdOf q.val p) stOK (versionWord ch) (versionWord hi) ∧
          t.eng.valleys = s.eng.valleys ∧ t.eng.regs = (readHead s.eng q.val).regs) ∧
      (Taken s q.val 0x01 p → again = true →
        ∃ t, exec (.negotiate q) s = .next t ∧ OnlyReplies s t q.val p stOutOfRange 0 0) ∧
      (headReady s.eng q.val = some p → (pkOp p).toNat = 0x01 → pkf p 1 0 4 = 0 →
        ∃ t, exec (.negotiate q) s = .next t ∧ OnlyReplies s t q.val p stBadVersion 0 0)) ∧
  (∀ (q : Fin 64) (s : State) (p : BitVec 512), Taken s q.val 0x03 p →
      let e := popHead s.eng q.val
      let item := queryItem s.mem e (getQ s.eng q.val).owner (pkf p 1 0 8) (pkw p 2).toNat (pkValley p)
      queryDenied e (getQ s.eng q.val).owner (pkf p 1 0 8) (pkw p 2).toNat = none →
      (∀ ws, item = some ws → 8 * ws.length ≤ pkf p 4 0 32 → addrOk (pkw p 3) 8 (8 * ws.length) pkgBytes = true →
        (isHost (pkw p 3) = true →
          ∃ t, exec (.query q) s = .next t ∧
            OnlyReplies s t q.val p stOK (BitVec.ofNat 64 (8 * ws.length)) (BitVec.ofNat 64 (8 * ws.length)) ∧
            ({ src := .buffer, addr := BitVec.ofNat 64 (addrOf (pkw p 3)), data := ws } : HmWrite) ∈ t.eng.io.hm) ∧
        (isHost (pkw p 3) = false →
          exec (.query q) s = .next { s with eng := answerAll (reply (setBytes s.mem e (addrOf (pkw p 3)) (wordsBytes ws))
            (cmdOf q.val p) stOK (BitVec.ofNat 64 (8 * ws.length)) (BitVec.ofNat 64 (8 * ws.length))) })) ∧
      (∀ ws, item = some ws → pkf p 4 0 32 < 8 * ws.length → addrOk (pkw p 3) 8 0 pkgBytes = true →
        ∃ t, exec (.query q) s = .next t ∧ OnlyReplies s t q.val p stOK 0 (BitVec.ofNat 64 (8 * ws.length))) ∧
      (item = none → ∃ t, exec (.query q) s = .next t ∧ OnlyReplies s t q.val p stOutOfRange 0 0))

/-- Tier 2. CONFIGURE (R169, R219, R253, R257, R276, R280, R305): a list is applied whole or not at all: with every entry
allowed, unlocked and in range, and the rules between fields kept in the state after all of them, the engine takes every
value and the reply counts the entries; a denied, a locked or a wrong list changes no register and is answered DENIED,
CONFIG_LOCKED or OUT_OF_RANGE in this order, and so is a list of no entry, of more than 256, or at a bad address. -/
def Obligations.ConfigureAllOrNothing : Prop :=
  ∀ (q : Fin 64) (list : List W64) (s : State) (p : BitVec 512), Taken s q.val 0x02 p →
    let n := pkf p 2 0 9
    let e := popHead s.eng q.val
    let es := configEntries (paramWords s.mem e (pkw p 1) (2 * n) list) n
    let w := walkConfig e es e false false
    let denied := es.any fun x => configDenied e (getQ s.eng q.val).owner x.1
    let bad := w.2.2 || !remapsOk e w.1 || !configCross e w.1 es || !configLba w.1 es
    ((n = 0 ∨ 256 < n ∨ addrOk (pkw p 1) 16 (16 * n) pkgBytes = false) →
      ∃ t, exec (.configure q list) s = .next t ∧ OnlyReplies s t q.val p stOutOfRange 0 0) ∧
    (n ≠ 0 → n ≤ 256 → addrOk (pkw p 1) 16 (16 * n) pkgBytes = true →
      (denied = false → configNs w.1 es = true → w.2.1 = false → bad = false →
        let f := flushAll (reply (placeRemaps e w.1) (cmdOf q.val p) stOK (BitVec.ofNat 64 es.length) 0)
        exec (.configure q list) s = .next { s with eng := answerAll f }) ∧
      (denied = true → ∃ t, exec (.configure q list) s = .next t ∧ t.mem = s.mem ∧
        t.eng.regs = (readHead s.eng q.val).regs ∧
        t.eng.valleys = s.eng.valleys ∧ Tab.get 0 t.eng.cnt.refuse 0 = satInc (Tab.get 0 s.eng.cnt.refuse 0) ∧
        Answered s.eng t.eng (cmdOf q.val p) stDenied 0 0) ∧
      (denied = false → configNs w.1 es = false → ∃ t, exec (.configure q list) s = .next t ∧ t.mem = s.mem ∧
        t.eng.regs = (readHead s.eng q.val).regs ∧
        t.eng.valleys = s.eng.valleys ∧ Tab.get 0 t.eng.cnt.refuse 3 = satInc (Tab.get 0 s.eng.cnt.refuse 3) ∧
        Answered s.eng t.eng (cmdOf q.val p) stDenied 0 0) ∧
      (denied = false → configNs w.1 es = true → w.2.1 = true →
        ∃ t, exec (.configure q list) s = .next t ∧ OnlyReplies s t q.val p stConfigLocked 0 0) ∧
      (denied = false → configNs w.1 es = true → w.2.1 = false → bad = true →
        ∃ t, exec (.configure q list) s = .next t ∧ OnlyReplies s t q.val p stOutOfRange 0 0))

/-- Tier 2. HOST_ACCESS_FAIL (R239): a failed packet fetch stops its queue with the error bit; a failed reply is dropped
and counted and its queue stops; that its ring entry is taken back is a reading (notes/assumptions/58.md, DEDUCED); on a
queue that has stopped already it only counts; a failed read of a parameter list ends its command with OUT_OF_RANGE and bit
63 of the second result word; a failed event is held, first among the held ones, and the ring stalls. -/
def Obligations.HostAccessFails : Prop :=
  ∀ (q : Fin 64) (s : State), ctlOn s.eng = true →
    (mayFetch s.eng q.val = true →
      ∃ t, exec (.hostAccessFail (.fetch q)) s = .next t ∧ t.mem = s.mem ∧ (getQ t.eng q.val).error = true ∧
        (getQ t.eng q.val).failFetch = true ∧ (getQ t.eng q.val).buf = (getQ s.eng q.val).buf ∧ OnlyAnswers s.eng t.eng) ∧
    (∀ w hm, (getQ s.eng q.val).enabled = true → (getQ s.eng q.val).error = false →
      dropWrite (.reply q.val) s.eng.io.hm = some (w, hm) →
        ∃ t, exec (.hostAccessFail (.reply q)) s = .next t ∧ t.mem = s.mem ∧ (getQ t.eng q.val).error = true ∧
          (getQ t.eng q.val).failReply = true ∧ (getQ t.eng q.val).reply = ((getQ s.eng q.val).reply + 1023) % 1024 ∧
          Tab.get 0 t.eng.cnt.drop 26 = satInc (Tab.get 0 s.eng.cnt.drop 26) ∧ t.eng.valleys = s.eng.valleys) ∧
    (∀ w hm, (getQ s.eng q.val).enabled = true → (getQ s.eng q.val).error = true → (getQ s.eng q.val).finalDue = false →
      dropWrite (.reply q.val) s.eng.io.hm = some (w, hm) →
        ∃ t, exec (.hostAccessFail (.reply q)) s = .next t ∧ t.mem = s.mem ∧
          (getQ t.eng q.val).dropped = (getQ s.eng q.val).dropped + 1 ∧ t.eng.io.hm = hm ∧
          Tab.get 0 t.eng.cnt.drop 26 = satInc (Tab.get 0 s.eng.cnt.drop 26) ∧ t.eng.ctl.evt = s.eng.ctl.evt ∧
          t.eng.valleys = s.eng.valleys) ∧
    (∀ p, headReady s.eng q.val = some p → (listWords p).any isHost = true → preCheck s.eng q.val p = none →
      ∃ t, exec (.hostAccessFail (.param q)) s = .next t ∧
        OnlyReplies s t q.val p stOutOfRange 0 0x8000000000000000) ∧
    (∀ w hm, dropWrite .event s.eng.io.hm = some (w, hm) →
      ∃ t, exec (.hostAccessFail .event) s = .next t ∧ t.mem = s.mem ∧ t.eng.io.hm = hm ∧
        t.eng.ctl.evt.held = recOf w.data :: s.eng.ctl.evt.held ∧ t.eng.ctl.evt.stalled = true ∧
        t.eng.valleys = s.eng.valleys)

/-- Tier 2. What the register target answers to an access it turns away (R21, R297, R302, R276, R303): an unaligned
access, a size other than 4 or 8 bytes and an address beyond the window get 0b10; one that Retention or the access
table refuses gets 0b01, and the table's refusals are counted; each reads as zero and changes nothing else. In Retention
the side domain answers every request of the debug port to a group that stands still with 0b01, well formed or not (R27),
and the debug port at Observe or Invasive may read the groups that answer, whatever the table says (R299). Every access
that the fab domain takes gets a response. -/
def Obligations.RegisterAccessErrors : Prop :=
  ∀ (mid : BitVec 8) (addr : BitVec 24) (bytes : BitVec 2) (data : W64) (s : State) (wr : Bool), fabOn s.eng = true →
    let a : RegAcc := { mid := mid, wr := wr, addr := addr.toNat, bytes := bytes, data := if wr then data else 0 }
    let c : Instr := if wr then .registerWrite mid addr bytes data else .rcRead mid addr bytes
    let awake : Prop := s.eng.side.pwrState ≠ 2 ∨ retentionGroup (addr.toNat / 0x10000) = true
    let debugRead : Prop := s.eng.side.pwrState = 2 ∧ mid = 0x81 ∧ wr = false ∧ (s.eng.side.dbgLvl = 1 ∨ s.eng.side.dbgLvl = 2)
    let answer (e : Eng) (err : BitVec 2) : Host.Outcome State Fault Refusal :=
      .next { s with eng := { e with io := { e.io with rsp := some (err, 0) } } }
    (((bytes ≠ 2 ∧ bytes ≠ 3) ∨ (bytes = 2 ∧ addr.toNat % 4 ≠ 0) ∨ (bytes = 3 ∧ addr.toNat % 8 ≠ 0) ∨ 0x100000 ≤ addr.toNat) →
      mid ≠ 0x81 ∨ awake → exec c s = answer s.eng 2) ∧
    (a.malformed = false ∨ mid = 0x81 → ¬ awake → exec c s = answer s.eng 1) ∧
    (a.malformed = false → awake → ¬ debugRead → accAllows s.eng mid wr (addr.toNat / 0x10000) = false →
        exec c s = answer { s.eng with cnt := { s.eng.cnt with
          refuse := Tab.set s.eng.cnt.refuse 0 (satInc (Tab.get 0 s.eng.cnt.refuse 0)) } } 1) ∧
    (a.malformed = false → awake → debugRead ∨ accAllows s.eng mid wr (addr.toNat / 0x10000) = true →
        locate (addr.toNat / 8 * 8) = none → ∃ t, exec c s = .next t ∧ t.eng.io.rsp = some (0, 0) ∧ t.mem = s.mem ∧
          t.eng.regs = s.eng.regs ∧ t.eng.valleys = s.eng.valleys ∧ t.eng.cnt = s.eng.cnt) ∧
    (∃ t r, exec c s = .next t ∧ t.eng.io.rsp = some r ∧ t.mem = s.mem)

/-- Tier 2. Configuration registers (R253, R256, R303, R305): an 8-byte write that changes a static field of a running
scope sets the config-locked bit, one with a value that its rules refuse the configuration-error bit, one that does both
sets both, and nothing else changes; every other one is taken, and held events go out if the ring takes them. -/
def Obligations.ConfigurationWrites : Prop :=
  ∀ (mid : BitVec 8) (addr : BitVec 24) (data : W64) (s : State) (r : Reg),
    Reaches s mid true addr.toNat → addr.toNat % 8 = 0 → addr.toNat < 0x100000 → addr.toNat / 0x10000 ≠ 6 →
    locate addr.toNat = some r → r.fields ≠ [] → mayOwn s.eng mid r = true →
    let w := data &&& r.mask
    let new := Reg.put s.eng r w
    let good : Prop := Reg.rangeOk r w = true ∧ Reg.entryOk s.eng r w = true ∧ Reg.crossOk s.eng new r = true ∧
      Reg.nsOk new r = true ∧ Reg.lbaOk new r = true
    let answer (e : Eng) : Host.Outcome State Fault Refusal :=
      .next { s with eng := { e with io := { e.io with rsp := some (0, 0) } } }
    (Reg.locks s.eng r w = true → good → exec (.registerWrite mid addr 3 data) s =
      answer { s.eng with ctl := { s.eng.ctl with cfgLocked := true } }) ∧
    (Reg.locks s.eng r w = true → ¬ good → exec (.registerWrite mid addr 3 data) s =
      answer { s.eng with ctl := { s.eng.ctl with cfgLocked := true, cfgErr := true } }) ∧
    (Reg.locks s.eng r w = false → ¬ good → exec (.registerWrite mid addr 3 data) s =
      answer { s.eng with ctl := { s.eng.ctl with cfgErr := true } }) ∧
    (Reg.locks s.eng r w = false → good → exec (.registerWrite mid addr 3 data) s = answer (flushAll new))

/-- Tier 2. The doorbells and the enable bit of a queue (R235, R236, R308): enabling a disabled queue starts its
indexes at 0 and its phase at 1; the doorbells of an enabled queue take their index, and those of a queue that is
disabled are ignored; clearing the bit disables a queue at once when no fetched command is left, and otherwise leaves
it enabled until then. A write of QCTRL comes after the queue's newest reply is written for good (`replyWritten`, a
reading, notes/assumptions/58.md, DEDUCED). IRQ_ACKNOWLEDGE (R23, R124, R308): the write of ones through IRQ_STATUS
acknowledges exactly those vectors, and through QCTRL the queue's own, without touching an enabled queue; a message on
vector 66 that is due goes out with the acknowledgement when its gap is over, to the physical function, and stays due
before that. -/
def Obligations.QueuesAndVectors : Prop :=
  (∀ (mid : BitVec 8) (q : Fin 64) (data : W32) (s : State), Reaches s mid true 0x30000 → mayOwn s.eng mid (.qCtrl q.val) = true →
      let e0 := replyWritten s.eng q.val
      let x := getQ s.eng q.val
      let y := getQ e0 q.val
      (x.inFlight = false → e0 = s.eng) ∧
      (y.enabled = false →
        ∃ t, exec (.queueEnable mid q) s = .next t ∧ t.mem = s.mem ∧ t.eng.io.rsp = some (0, 0) ∧
          getQ t.eng q.val = { y with want := true, enabled := true, error := false, sub := 0, fetch := 0, cplDone := 0
                                      reply := 0, phase := true, buf := [], out := 0, failFetch := false
                                      failReply := false, dropped := 0, inFlight := false } ∧
          (∀ r, r ≠ q.val → getQ t.eng r = getQ s.eng r) ∧ t.eng.valleys = s.eng.valleys ∧
          t.eng.ctl.irq = e0.ctl.irq ∧ t.eng.regions = s.eng.regions ∧ t.eng.lanes = s.eng.lanes) ∧
      (x.enabled = false ∨ x.want = false →
        (∃ t, exec (.qsubDb mid q data) s = .next t ∧ t.mem = s.mem ∧ t.eng.ctl = s.eng.ctl ∧ t.eng.io.rsp = some (0, 0)) ∧
        (∃ t, exec (.qcplDb mid q data) s = .next t ∧ t.mem = s.mem ∧ t.eng.ctl = s.eng.ctl ∧ t.eng.io.rsp = some (0, 0))) ∧
      (x.enabled = true → x.want = true →
        (∃ t, exec (.qsubDb mid q data) s = .next t ∧ t.mem = s.mem ∧ t.eng.io.rsp = some (0, 0) ∧
          getQ t.eng q.val = { x with sub := fld data 0 10 } ∧ (∀ r, r ≠ q.val → getQ t.eng r = getQ s.eng r) ∧
          t.eng.valleys = s.eng.valleys ∧ t.eng.ctl.evt = s.eng.ctl.evt) ∧
        (∃ t, exec (.qcplDb mid q data) s = .next t ∧ t.mem = s.mem ∧ t.eng.io.rsp = some (0, 0) ∧
          getQ t.eng q.val = { x with cplDone := fld data 0 10 } ∧ (∀ r, r ≠ q.val → getQ t.eng r = getQ s.eng r) ∧
          t.eng.valleys = s.eng.valleys ∧ t.eng.ctl.evt = s.eng.ctl.evt)) ∧
      (y.enabled = true → y.out = 0 → y.buf = [] → y.finalDue = false →
        ∃ t, exec (.queueDisable mid q) s = .next t ∧ t.mem = s.mem ∧ t.eng.io.rsp = some (0, 0) ∧
          (getQ t.eng q.val).enabled = false ∧ (getQ t.eng q.val).reply = 0 ∧ (getQ t.eng q.val).phase = true ∧
          (∀ r, r ≠ q.val → getQ t.eng r = getQ s.eng r) ∧ t.eng.valleys = s.eng.valleys) ∧
      (y.enabled = true → y.out ≠ 0 →
        ∃ t, exec (.queueDisable mid q) s = .next t ∧ t.mem = s.mem ∧
          getQ t.eng q.val = { y with want := false } ∧ (∀ r, r ≠ q.val → getQ t.eng r = getQ s.eng r))) ∧
  (∀ (mid : BitVec 8) (q : Fin 64) (data : W64) (s : State), Reaches s mid true 0x40000 → Reaches s mid true 0x30000 →
      let e0 := replyWritten s.eng q.val
      (∃ t, exec (.irqAcknowledge mid .status0 data) s = .next t ∧ t.mem = s.mem ∧ t.eng.io.rsp = some (0, 0) ∧
        (∀ n, n < 64 → bit t.eng.ctl.irq n = (bit s.eng.ctl.irq n && !bit data n)) ∧
        (∀ n, 64 ≤ n → bit t.eng.ctl.irq n = bit s.eng.ctl.irq n) ∧ t.eng.valleys = s.eng.valleys ∧
        t.eng.ctl.queues = s.eng.ctl.queues) ∧
      (s.eng.ctl.irq66Due = false ∨ bit data 2 = false ∨ gapOver s.eng = false →
        ∃ t, exec (.irqAcknowledge mid .status1 data) s = .next t ∧ t.mem = s.mem ∧
          (∀ n, n < 4 → bit t.eng.ctl.irq (64 + n) = (bit s.eng.ctl.irq (64 + n) && !bit data n)) ∧
          (∀ n, n < 64 → bit t.eng.ctl.irq n = bit s.eng.ctl.irq n) ∧
          t.eng.io.irqMsg = s.eng.io.irqMsg ∧ t.eng.ctl.irq66Due = s.eng.ctl.irq66Due) ∧
      (s.eng.ctl.irq66Due = true → bit data 2 = true → gapOver s.eng = true →
        ∃ t, exec (.irqAcknowledge mid .status1 data) s = .next t ∧ t.mem = s.mem ∧
          t.eng.io.irqMsg = (66, 0) :: s.eng.io.irqMsg ∧ bit t.eng.ctl.irq 66 = true ∧
          t.eng.ctl.irq66Due = false ∧ t.eng.ctl.irq66Ts = some s.eng.side.ts ∧
          (∀ n, n < 4 → n ≠ 2 → bit t.eng.ctl.irq (64 + n) = (bit s.eng.ctl.irq (64 + n) && !bit data n)) ∧
          (∀ n, n < 64 → bit t.eng.ctl.irq n = bit s.eng.ctl.irq n)) ∧
      (mayOwn s.eng mid (.qCtrl q.val) = true → (getQ e0 q.val).enabled = true →
        ∃ t, exec (.irqAcknowledge mid (.qctrl q) 0x11) s = .next t ∧ t.mem = s.mem ∧
          (∀ n, bit t.eng.ctl.irq n = (bit e0.ctl.irq n && decide (n ≠ q.val))) ∧ t.eng.ctl.queues = e0.ctl.queues))

/-- Tier 2. The event ring (R244, R245): enabling it leaves its places and its phase, modulo its size, and keeps its base
(a reading, notes/assumptions/37.md), and the doorbell frees entries. An event (R244, R245, R246): with an open ring and
nothing held its record of four words goes to the next entry; with the ring shut it is held behind the others while the
hold has room, and otherwise discarded and counted; each takes the next sequence number. -/
def Obligations.EventRing : Prop :=
  (∀ (mid : BitVec 8) (data : W32) (s : State), Reaches s mid true 0x40000 →
      s.eng.ctl.evt.held = [] → s.eng.ctl.evt.lost = 0 →
      (bit s.eng.ctl.evt.ctrl 8 = false → engineRuns s.eng = false → 10 ≤ fld data 0 4 →
        ∃ t, exec (.eventRingEnable mid data) s = .next t ∧ t.mem = s.mem ∧ t.eng.io.rsp = some (0, 0) ∧
          bit t.eng.ctl.evt.ctrl 8 = true ∧ fld t.eng.ctl.evt.ctrl 0 4 = fld data 0 4 ∧
          t.eng.ctl.evt.next = s.eng.ctl.evt.next % 2 ^ fld data 0 4 ∧
          t.eng.ctl.evt.consumed = s.eng.ctl.evt.consumed % 2 ^ fld data 0 4 ∧ t.eng.ctl.evt.phase = s.eng.ctl.evt.phase ∧ t.eng.ctl.evt.seq = s.eng.ctl.evt.seq ∧
          t.eng.ctl.evt.base = s.eng.ctl.evt.base ∧ t.eng.valleys = s.eng.valleys) ∧
      (∃ t, exec (.evtDb mid data) s = .next t ∧ t.mem = s.mem ∧ t.eng.io.rsp = some (0, 0) ∧
        t.eng.ctl.evt = { s.eng.ctl.evt with consumed := fld data 0 16 % 2 ^ fld s.eng.ctl.evt.ctrl 0 4, stalled := false } ∧
        t.eng.ctl.queues = s.eng.ctl.queues ∧ t.eng.valleys = s.eng.valleys)) ∧
  (∀ (e : Eng) (code st : W16) (v : Nat) (r0 r1 : W64),
      let f := raise e code st (some v) r0 r1
      let word0 := pack [(0, code.toNat), (16, st.toNat), (32, v), (36, 1), (40, (getV e v).fn.toNat), (48, e.ctl.evt.seq),
        (63, b2n e.ctl.evt.phase)]
      (evtOpen e = true → e.ctl.evt.held = [] → e.ctl.evt.lost = 0 →
        f.io.hm = { src := .event, addr := BitVec.ofNat 64 (addrOf e.ctl.evt.base + 32 * e.ctl.evt.next)
                    data := [word0, e.side.ts, r0, r1] } :: e.io.hm ∧
        f.ctl.evt.next = (e.ctl.evt.next + 1) % evtSize e ∧ f.ctl.evt.seq = (e.ctl.evt.seq + 1) % 32768 ∧
        f.ctl.evt.phase = (if (e.ctl.evt.next + 1) % evtSize e = 0 then !e.ctl.evt.phase else e.ctl.evt.phase)) ∧
      (evtOpen e = false → e.ctl.evt.held.length < evtHoldMax →
        f.io = e.io ∧ f.ctl.evt.held.map (·.code) = e.ctl.evt.held.map (·.code) ++ [code] ∧
        f.ctl.evt.seq = (e.ctl.evt.seq + 1) % 32768) ∧
      (evtOpen e = false → evtHoldMax ≤ e.ctl.evt.held.length →
        f.io = e.io ∧ f.ctl.evt.held = e.ctl.evt.held ∧ f.ctl.evt.lost = e.ctl.evt.lost + 1 ∧
        Tab.get 0 f.cnt.drop 27 = satInc (Tab.get 0 e.cnt.drop 27)))

/-- Tier 2. Descriptor writes (R309): word 0 is staged and changes no region; word 1 applies a REGION_DEFINE with the
staged word, whose refusal sets the config-locked or the configuration-error bit. REMAP_WRITE (R218, R219): while
nothing runs, an invalid entry that is set valid for a page no other entry maps maps it, and ROW_REMAPPED is raised with
the page and the entry; a valid entry never changes. (That the event ring takes the event, or that no corrected word waits
for its write-back, keeps the events' own pages out of it.) ACC_REG_WRITE (R277, R278, R280): the entry of a virtual
function keeps what its fixed entry allows of the written word, so that a write narrows access and never widens it; the
entries of masters outside 0x40 to 0x80 ignore writes. -/
def Obligations.TablesAreWritten : Prop :=
  (∀ (d : Fin 1024) (data w0 : W64) (s : State), Reaches s 0 true 0x60000 →
      (∃ t, exec (.descriptorWord0Stage 0 d data) s = .next t ∧ t.mem = s.mem ∧ t.eng.io.rsp = some (0, 0) ∧
        t.eng.ctl.stagedW0 = some (d.val, data, 0) ∧ t.eng.regions = s.eng.regions ∧ t.eng.lanes = s.eng.lanes ∧
        t.eng.valleys = s.eng.valleys) ∧
      (s.eng.ctl.stagedW0 = some (d.val, w0, 0) →
        let e : Eng := { s.eng with ctl := { s.eng.ctl with stagedW0 := none } }
        let r := defineRegion e d.val w0 data
        ∃ t, exec (.descriptorWord1Write 0 d data) s = .next t ∧ t.mem = s.mem ∧ t.eng.io.rsp = some (0, 0) ∧
          t.eng.ctl.stagedW0 = none ∧ t.eng.regions = r.2.regions ∧ t.eng.lanes = r.2.lanes ∧ t.eng.valleys = r.2.valleys ∧
          t.eng.ctl.cfgLocked = (s.eng.ctl.cfgLocked || decide (r.1 = stConfigLocked)) ∧
          t.eng.ctl.cfgErr = (s.eng.ctl.cfgErr || decide (r.1 = stOutOfRange)))) ∧
  (∀ (e : Fin 16) (data : W32) (s : State), Reaches s 0 true 0x70000 → engineRuns s.eng = false →
      s.eng.ctl.evt.held = [] → s.eng.ctl.evt.lost = 0 → bit data 14 = true →
      (bit (Tab.get 0 s.eng.regs.remap e.val) 14 = false → evtOpen s.eng = true ∨ s.eng.basin.writeback = [] →
        (∀ r ∈ s.eng.regs.remap, r.1 ≠ e.val → bit r.2 14 = true → fld r.2 0 14 ≠ fld data 0 14) →
          let f := raise s.eng evRowRemapped stOK none (pack [(0, fld data 0 14), (16, e.val)]) 0
          ∃ t, exec (.remapWrite 0 e data) s = .next t ∧ t.mem = s.mem ∧
            bit (Tab.get 0 t.eng.regs.remap e.val) 14 = true ∧ fld (Tab.get 0 t.eng.regs.remap e.val) 0 14 = fld data 0 14 ∧
            (∀ j, j ≠ e.val → Tab.get 0 t.eng.regs.remap j = Tab.get 0 s.eng.regs.remap j) ∧
            t.eng.ctl.evt = f.ctl.evt ∧ t.eng.io.hm = f.io.hm ∧ t.eng.io.irqMsg = f.io.irqMsg ∧
            t.eng.valleys = s.eng.valleys ∧ t.eng.basin.owners = s.eng.basin.owners) ∧
      (bit (Tab.get 0 s.eng.regs.remap e.val) 14 = true → fld (Tab.get 0 s.eng.regs.remap e.val) 0 14 ≠ fld data 0 14 →
        ∃ t, exec (.remapWrite 0 e data) s = .next t ∧ t.eng.regs = s.eng.regs ∧ t.eng.basin = s.eng.basin ∧
          (t.eng.ctl.cfgErr = true ∨ t.eng.ctl.cfgLocked = true))) ∧
  (∀ (m : BitVec 8) (f : Fin 65) (data : W64) (s : State), Reaches s 0 true 0x80000 →
      s.eng.ctl.evt.held = [] → s.eng.ctl.evt.lost = 0 →
      (0x40 ≤ m.toNat → m.toNat ≤ 0x80 →
        ∃ t, exec (.accRegWrite 0 (.reg m) data) s = .next t ∧ t.mem = s.mem ∧
          Tab.get 0 t.eng.regs.accReg m.toNat = data.setWidth 32 &&& accFixed m.toNat ∧
          (∀ j, j ≠ m.toNat → Tab.get 0 t.eng.regs.accReg j = Tab.get 0 s.eng.regs.accReg j) ∧
          t.eng.valleys = s.eng.valleys) ∧
      (m.toNat < 0x40 ∨ 0x80 < m.toNat →
        ∃ t, exec (.accRegWrite 0 (.reg m) data) s = .next t ∧ t.mem = s.mem ∧ t.eng.regs = s.eng.regs ∧
          t.eng.io.rsp = some (0, 0)) ∧
      (∃ t, exec (.accRegWrite 0 (.sto f) data) s = .next t ∧ t.mem = s.mem ∧
        Tab.get 0 t.eng.regs.accSto f.val = data &&& 0x1FFFFFFFF ∧
        (∀ j, j ≠ f.val → Tab.get 0 t.eng.regs.accSto j = Tab.get 0 s.eng.regs.accSto j) ∧ t.eng.valleys = s.eng.valleys))

/-- Tier 2. Reads with an effect (R303, R306): a read of a drop counter answers its value and leaves it zero, without
touching another; the 4-byte read of the low half of TIMESTAMP answers it and latches the high half for that master.
The debug port at level Invasive (R281, R292, R312): halting the control processor stops it from taking commands and
holds its replies, a step moves its program counter to a value the spec leaves open (notes/assumptions/6.md), IST_DATA
is read at IST_ADDR and steps on, and BASIN_DATA loads and stores the word at BASIN_ADDR: it reads zero in a page that is
not valid, what the word decodes to (R211) in a valid page that nothing uses and where a store put the word there, and
else, what a page in use holds in bits, a value the spec leaves open (notes/assumptions/6.md and 69.md). -/
def Obligations.ReadsAndDebugPort : Prop :=
  (∀ (mid : BitVec 8) (c : Fin 28) (s : State),
      (Reaches s mid false 0x90000 → isVf mid = false → c.val ≠ 25 →
        ∃ t, exec (.rcRead mid (BitVec.ofNat 24 (0x91000 + 8 * c.val)) 2) s = .next t ∧ t.mem = s.mem ∧
          t.eng.io.rsp = some (0, (Tab.get 0 s.eng.cnt.drop c.val).setWidth 64) ∧ Tab.get 0 t.eng.cnt.drop c.val = 0 ∧
          (∀ j, j ≠ c.val → Tab.get 0 t.eng.cnt.drop j = Tab.get 0 s.eng.cnt.drop j) ∧ t.eng.valleys = s.eng.valleys ∧
          t.eng.ctl = s.eng.ctl) ∧
      (Reaches s mid false 0x10000 →
        ∃ t, exec (.timestampLatch mid) s = .next t ∧ t.mem = s.mem ∧
          t.eng.io.rsp = some (0, s.eng.side.ts &&& 0xFFFFFFFF) ∧
          Tab.find t.eng.side.tsLatch mid.toNat = some (s.eng.side.ts.extractLsb' 32 32) ∧ t.eng.side.ts = s.eng.side.ts ∧
          t.eng.valleys = s.eng.valleys)) ∧
  (∀ (s : State) (data : W64), Reaches s 0x81 true 0xD0000 → Reaches s 0x81 false 0xD0000 → s.eng.side.dbgLvl = 2 →
      let k := fld s.eng.regs.basinAddr 0 18
      let word := readWord (storedAt s.eng (k / 16) (k % 16))
      (∃ t, exec (.cpHalt 0x81 true) s = .next t ∧ t.mem = s.mem ∧ t.eng.ctl.cpHaltBit = true ∧ cpRuns t.eng = false ∧
        (∀ q, headReady t.eng q = none) ∧ t.eng.valleys = s.eng.valleys) ∧
      (s.eng.ctl.cpHaltBit = false → exec (.cpHalt 0x81 false) s =
        .next { s with eng := { s.eng with io := { s.eng.io with rsp := some (0, 0) } } }) ∧
      (s.eng.ctl.cpHaltBit = true →
        ∃ t, exec (.cpStep 0x81) s = .next t ∧ t.mem = s.mem ∧ t.eng.ctl.cpHaltBit = true ∧
          t.eng.ctl.cpPc = Config.freePc s.eng.ctl.freeCount ∧ t.eng.valleys = s.eng.valleys) ∧
      (∃ t, exec (.istDataRead 0x81) s = .next t ∧ t.mem = s.mem ∧
        t.eng.ctl.istAddr = (s.eng.ctl.istAddr + 8) &&& 0x001FFFF8 ∧ t.eng.io.rsp = some (0, Reg.value s.eng .istData)) ∧
      (pageValid s.eng (k / 16) = false →
        ∃ t, exec (.basinDataLoad 0x81) s = .next t ∧ t.mem = s.mem ∧ t.eng.io.rsp = some (0, 0) ∧ t.eng.basin.buffer = 0) ∧
      (pageValid s.eng (k / 16) = true → word.corr = 0 → word.bad = 0 →
        (Tab.has s.eng.basin.owners (k / 16) = false ∨ s.eng.basin.known.contains k = true →
          exec (.basinDataLoad 0x81) s = .next { s with eng := { s.eng with
            basin := { s.eng.basin with buffer := word.data }
            io := { s.eng.io with rsp := some (0, Line.word word.data 0) } } }) ∧
        (Tab.has s.eng.basin.owners (k / 16) = true → s.eng.basin.known.contains k = false →
          ∃ t, exec (.basinDataLoad 0x81) s = .next t ∧ t.mem = s.mem ∧
            t.eng.basin = { s.eng.basin with buffer := Config.freeLine s.eng.ctl.freeCount } ∧
            t.eng.valleys = s.eng.valleys)) ∧
      (pageValid s.eng (k / 16) = true →
        ∃ t, exec (.basinDataStore 0x81 data) s = .next t ∧ t.mem = s.mem ∧ Line.word t.eng.basin.buffer 31 = data ∧
          (∀ i, i < 31 → Line.word t.eng.basin.buffer i = Line.word s.eng.basin.buffer i) ∧
          storedAt t.eng (k / 16) (k % 16) = storeWord t.eng.basin.buffer ∧
          (∀ y ∈ t.eng.basin.writeback, y.1 ≠ k) ∧
          (Tab.has s.eng.basin.owners (k / 16) = true → k ∈ t.eng.basin.known) ∧
          (Tab.has s.eng.basin.owners (k / 16) = false → t.eng.valleys = s.eng.valleys ∧
            t.eng.ctl = s.eng.ctl ∧ t.eng.cnt = s.eng.cnt)))

/-- Tier 2. REBUILD_PLAN (R129, R130): a plan for one to four lost members takes a free number, or that of the oldest
plan no run uses, and the result words are its number and the targets of a logical index; with more than m positions
of a stripe lost it is refused with TOO_FEW_SURVIVORS, and a bad set or a stand-in that is missing from it with
OUT_OF_RANGE. -/
def Obligations.RebuildPlanIsKept : Prop :=
  ∀ (q : Fin 64) (s : State) (p : BitVec 512) (i : Nat), Taken s q.val 0x31 p →
    let v := pkValley p
    let x := getV s.eng v
    let n := pkf p 1 32 3
    let fit := isJoined x && decide (1 ≤ n ∧ n ≤ 4) && (planLost p).all (fun j => decide (j < x.n)) &&
      (!unfinished s.eng v || (planLost p).contains x.self)
    (fit = true → planSlot x = some i → tooFew x (planLost p) = false →
      ∃ t, exec (.rebuildPlan q) s = .next t ∧ t.mem = s.mem ∧
        Answered s.eng t.eng (cmdOf q.val p) stOK (BitVec.ofNat 64 i) (BitVec.ofNat 64 (allTargets s.eng v)) ∧
        (getV t.eng v).plans.find? (fun a => decide (a.num = i)) = some { num := i, lost := planLost p, age := x.planAge } ∧
        (∀ j, j ≠ i → (getV t.eng v).plans.find? (fun a => decide (a.num = j)) = x.plans.find? (fun a => decide (a.num = j))) ∧
        (getV t.eng v).runs = x.runs ∧ (getV t.eng v).reaches = x.reaches ∧ (∀ w, w ≠ v → getV t.eng w = getV s.eng w) ∧
        t.eng.regions = s.eng.regions ∧ t.eng.basin = (readHead s.eng q.val).basin ∧ t.eng.lanes = s.eng.lanes) ∧
    (fit = true → planSlot x = some i → tooFew x (planLost p) = true →
      ∃ t, exec (.rebuildPlan q) s = .next t ∧ OnlyReplies s t q.val p stTooFew 0 0) ∧
    ((fit = false ∨ planSlot x = none) →
      ∃ t, exec (.rebuildPlan q) s = .next t ∧ OnlyReplies s t q.val p stOutOfRange 0 0)

/-- Tier 2. REBUILD_RUN, AUDIT and CONTRACT (R133, R135, R139, R145, R220): a run that the rules admit joins the
Valley's runs with its scope, window and pages of the rebuild-sums partition, one run for each entry of a destination
map, and then the runs go on; without the pages, or where the rules forbid it, the command is refused. A
correcting audit holds a Terrace 1 trigger that is pending (R155, R157). A resume goes on with a live run under a new
identity. -/
def Obligations.RunsAreTaken : Prop :=
  ∀ (q : Fin 64) (list : List W64) (s : State) (p : BitVec 512) (a : Plan),
    let v := pkValley p
    let x := getV s.eng v
    let sc := scopeOf list (pkf p 4 0 13)
    let win := windowOf_ p
    let common := scopeAddrOk p && runMay s.eng v (pkw p 2) sc && identFree x (pkf p 1 16 16) &&
      decide (16 ≤ win ∧ win ≤ 1024)
    let pages := (freePages s.eng 2).take (runPages x win)
    let rebuildFit := common && decide (pkf p 5 0 2 = 0) && a.lost.contains (pkf p 1 8 6)
    let auditFit := common && decide (pkf p 1 0 6 < x.n) && (List.range x.n).all (isLive x) && !unfinished s.eng v &&
      !(pkA p && x.t1.isSome)
    (Taken s q.val 0x32 p → pkA p = false → x.plans.find? (fun y => decide (y.num = pkf p 1 0 2)) = some a →
      (rebuildFit = true → runPages x win ≤ freeCount s.eng 2 →
        ∃ f, exec (.rebuildRun q list) s = .next { s with eng := answerAll (stepRuns s.mem f v) } ∧
          (getV f v).runs = x.runs ++
            [{ kind := .rebuild, cmd := some (cmdOf q.val p), plan := a.num, lost := a.lost, dest := pkf p 1 8 6
               tgt := pkf p 1 8 6, groups := [{ ident := pkf p 1 16 16, excl := [] }], epoch := x.epoch, scope := sc
               window := win, demand := pkB p, pages := pages }] ∧
          (∀ g ∈ pages, Tab.find f.basin.owners g = some (.run v (pkf p 1 16 16)))) ∧
      ((rebuildFit = false ∨ freeCount s.eng 2 < runPages x win) →
        ∃ t, exec (.rebuildRun q list) s = .next t ∧ OnlyReplies s t q.val p stOutOfRange 0 0)) ∧
    (Taken s q.val 0x32 p → pkA p = false → x.plans.find? (fun y => decide (y.num = pkf p 1 0 2)) = none →
      ∃ t, exec (.rebuildRun q list) s = .next t ∧ OnlyReplies s t q.val p stOutOfRange 0 0) ∧
    (∀ r, Taken s q.val 0x32 p → pkA p = true → runAt x (pkf p 1 16 16) = some r →
      let fit := isJoined x && decide (pkw p 2 = x.epoch) && decide (r.kind ≠ .audit) && decide (pkf p 1 16 2 = 0) &&
        identFree x (pkf p 5 0 16) && decide (pkf p 5 16 6 < x.n)
      let few := tooFew x (r.lost ++ (r.groups.getLast?.map (·.excl)).getD [] ++ [pkf p 5 16 6])
      (fit = true → few = false →
        ∃ f, exec (.rebuildRun q list) s =
            .next { s with eng := answerAll (resumeRun s.mem f v r (pkf p 5 0 16) (pkf p 5 16 6)) } ∧
          OnlyAnswers (readHead s.eng q.val) f ∧ Answered s.eng f (cmdOf q.val p) stOK 0 0) ∧
      (fit = true → few = true → ∃ t, exec (.rebuildRun q list) s = .next t ∧ OnlyReplies s t q.val p stTooFew 0 0) ∧
      (fit = false → ∃ t, exec (.rebuildRun q list) s = .next t ∧ OnlyReplies s t q.val p stOutOfRange 0 0)) ∧
    (Taken s q.val 0x38 p →
      (auditFit = true → runPages x win ≤ freeCount s.eng 2 →
        ∃ f, exec (.audit q list) s =
            .next { s with eng := answerAll (if pkA p then holdIfBusy (stepRuns s.mem f v) v else stepRuns s.mem f v) } ∧
          (getV f v).runs = x.runs ++
            [{ kind := .audit, cmd := some (cmdOf q.val p), plan := 0, lost := [], dest := pkf p 1 0 6
               tgt := pkf p 1 0 6, groups := [{ ident := pkf p 1 16 16, excl := [] }], epoch := x.epoch, scope := sc
               window := win, correct := pkA p, digest := pkB p, pages := pages }]) ∧
      ((auditFit = false ∨ freeCount s.eng 2 < runPages x win) →
        ∃ t, exec (.audit q list) s = .next t ∧ OnlyReplies s t q.val p stOutOfRange 0 0)) ∧
    (Taken s q.val 0x34 p → x.plans.find? (fun y => decide (y.num = pkf p 1 0 2)) = some a →
      let n := pkf p 3 0 7
      let ident := pkf p 1 16 16
      let es := contractMap (paramWords s.mem s.eng (pkw p 2) (4 * n) list) n
      let fit := isJoined x && decide (x.phase = .frozen) && decide (1 ≤ n ∧ n ≤ 64) && decide (ident + 4 * n ≤ 0xFFFF) &&
        addrOk (pkw p 2) 32 (32 * n) pkgBytes && (List.range n).all (fun i => identFree x (ident + 4 * i)) &&
        es.all (mapEntryOk s.mem s.eng v)
      (fit = true → runPages x 128 ≤ freeCount s.eng 2 →
        ∃ f new, exec (.contract q list) s = .next { s with eng := answerAll (stepRuns s.mem f v) } ∧
          (getV f v).runs = x.runs ++ new ∧
          new.map (fun r => (r.kind, r.dest, r.scope, r.base, Run.ident r)) =
            es.zipIdx.map (fun t => (RunKind.contract, t.1.2.2.1, [(t.1.1, t.1.2.1)], addrOf t.1.2.2.2, ident + 4 * t.2))) ∧
      ((fit = false ∨ freeCount s.eng 2 < runPages x 128) →
        ∃ t, exec (.contract q list) s = .next t ∧ OnlyReplies s t q.val p stOutOfRange 0 0))

/-- Tier 2. STAND_IN (R141, R142): on a FROZEN member that holds no retained record the lost index is bound to the
spare's node, its two streams start at S, and it is live again; on the standby spare of that index the Valley is
entered FROZEN in the given epoch with every Reach unrebuilt and every stream at S, and the command waits for the
transfer; anything else is refused. STANDIN_DIGESTS at the waiting spare (R142): the digests become the committed and the
pending ones of their Reaches; with a digest of every Reach and the settle summary the Valley is joined, each Reach folded
or clean as the summary says, and the command is answered OK; before that it goes on waiting. -/
def Obligations.StandInBinds : Prop :=
  (∀ (q : Fin 64) (s : State) (p : BitVec 512), Taken s q.val 0x33 p →
    let v := pkValley p
    let x := getV s.eng v
    let u := pkf p 1 0 6
    let node : W16 := (pkw p 1).extractLsb' 16 16
    let base : W32 := BitVec.ofNat 32 (pkf p 2 0 32)
    let fit := isJoined x && decide (x.phase = .frozen) && decide (u < x.n) && !isLive x u && decide (fld node 13 3 = 0) &&
      decide (node ≠ s.eng.ctl.node) && !(liveList x).any (fun i => decide (nodeOf x i = node)) && x.retained.isEmpty
    (pkA p = false → fit = true → u < x.members.length →
      ∃ f, exec (.standIn q) s = .next { s with eng := answerAll (settleV s.mem f v) } ∧
        Answered s.eng f (cmdOf q.val p) stOK 0 0 ∧ isLive (getV f v) u = true ∧ nodeOf (getV f v) u = node ∧
        (∀ i, i ≠ u → nodeOf (getV f v) i = nodeOf x i) ∧
        (subMod u x.self x.n ∈ distances x → getOut (getV f v) (subMod u x.self x.n) = { next := base }) ∧
        (subMod x.self u x.n ∈ distances x → getIn (getV f v) (subMod x.self u x.n) = { a := base }) ∧
        (getV f v).phase = .frozen ∧ (getV f v).epoch = x.epoch ∧ (getV f v).reaches = x.reaches ∧
        (∀ w, w ≠ v → getV f w = getV s.eng w) ∧ f.regions = s.eng.regions ∧ f.lanes = s.eng.lanes) ∧
    (pkA p = false → fit = false → ∃ t, exec (.standIn q) s = .next t ∧ OnlyReplies s t q.val p stOutOfRange 0 0) ∧
    (pkA p = true → x.slot = .standby → u = x.self → isHost (pkw p 5) = false →
      addrOk (pkw p 5) 8 ((allTargets s.eng v + 7) / 8) pkgBytes = true →
        ∃ t, exec (.standInSpare q) s = .next t ∧ t.mem = s.mem ∧ (getV t.eng v).slot = .spare ∧
          (getV t.eng v).phase = .frozen ∧ (getV t.eng v).epoch = pkw p 3 ∧ (getV t.eng v).step = pkw p 4 ∧
          (getV t.eng v).standIn = true ∧ (getV t.eng v).rmap = addrOf (pkw p 5) ∧
          ((getV t.eng v).spareWait.map (·.cmd)) = some (cmdOf q.val p) ∧
          (∀ r ∈ reachList s.eng v, (getReach (getV t.eng v) r.num).unbuilt = true) ∧
          (∀ d ∈ distances x, getOut (getV t.eng v) d = { next := base } ∧ getIn (getV t.eng v) d = { a := base }) ∧
          (∀ w, w ≠ v → getV t.eng w = getV s.eng w) ∧ t.eng.regions = s.eng.regions ∧ t.eng.io.ctlOut = s.eng.io.ctlOut) ∧
    (pkA p = true → (x.slot ≠ .standby ∨ u ≠ x.self ∨ isHost (pkw p 5) = true ∨
        addrOk (pkw p 5) 8 ((allTargets s.eng v + 7) / 8) pkgBytes = false) →
      ∃ t, exec (.standInSpare q) s = .next t ∧ OnlyReplies s t q.val p stOutOfRange 0 0)) ∧
  (∀ (p : RxPacket) (s : State) (v : Nat) (wait : SpareWait), rxChecks s.eng p = .accepted v →
    (hdrOf p).typ = 6 → (hdrOf p).kind = 1 → (getV s.eng v).spareWait = some wait →
    let x := getV s.eng v
    let es := digEntries p (hdrOf p).count
    let rs := (reachList s.eng v).map (·.num)
    let here (r : Nat) : Prop := r ∈ wait.got ∨ ∃ d ∈ es, d.reach = r
    let taken (f : Eng) : Prop :=
      (∀ d ∈ es, (∀ d' ∈ es, d'.reach = d.reach → d' = d) →
        (getReach (getV f v) d.reach).comm = d.digest ∧ (getReach (getV f v) d.reach).pend = d.digest ∧
        (getReach (getV f v) d.reach).unbuilt = (getReach x d.reach).unbuilt) ∧
      (∀ r, (∀ d ∈ es, d.reach ≠ r) → (getReach (getV f v) r).comm = (getReach x r).comm) ∧
      (getV f v).phase = x.phase ∧ (getV f v).epoch = x.epoch ∧ (getV f v).step = x.step ∧
      (∀ w, w ≠ v → getV f w = getV s.eng w)
    ((wait.summary = none ∨ ∃ r ∈ rs, ¬ here r) →
      ∃ f y, exec (.standinDigests p) s = .next { s with eng := advance s.mem f } ∧ taken f ∧
        (getV f v).slot = x.slot ∧ (getV f v).spareWait = some y ∧ y.cmd = wait.cmd ∧ y.summary = wait.summary ∧
        (∀ r, r ∈ y.got ↔ here r) ∧ f.io = s.eng.io ∧ f.regions = s.eng.regions) ∧
    (∀ y, wait.summary = some y → (∀ r ∈ rs, here r) → s.eng.ctl.cpHaltBit = false →
      let folded (r : Nat) : Prop :=
        r < y.first.toNat ∨ (y.first.toNat ≤ r ∧ bit y.bitmap (r - y.first.toNat) = true)
      ∃ f, exec (.standinDigests p) s = .next { s with eng := advance s.mem (settleV s.mem f v) } ∧ taken f ∧
        Answered s.eng f wait.cmd stOK 0 0 ∧ (getV f v).slot = .joined ∧ (getV f v).spareWait = none ∧
        (getV f v).landFold = (y.landing || y.crossing) ∧ (getV f v).crossFold = y.crossing ∧
        (∀ r ∈ rs, (folded r → (getReach (getV f v) r).st = .folded) ∧
          (¬ folded r → (getReach (getV f v) r).st = .clean)) ∧ f.io.ctlOut = s.eng.io.ctlOut))

/-- Tier 2. DIGEST_EXCHANGE, LOCKSTEP and REACH_DIGEST_CHECK (R225, R228, R144): a start on a joined IDLE Valley sets
the comparison running over its area and partners, whose node numbers keep the limit of R3, a stop ends it; when every
target of an unrebuilt Reach of a stand-in is done, the Reach is rebuilt exactly if its digest is the committed one, and
REBUILD_MISMATCH is raised otherwise. REPLICA_DIGESTS of a partner (R226, R227) are compared with the generation of their
step: without it they are dropped and counted; each differing entry counts, and DIGEST_MISMATCH names the lowest Reach
that differs, once per step. LOCKSTEP_DIGESTS (R229, R230) of one Reach are compared once the Reach is folded in their
step, and dropped and counted before; a packet that differs counts one, and DIGEST_MISMATCH names the lowest tile that
differs, once per Reach and step. -/
def Obligations.ComparisonsStartAndStop : Prop :=
  (∀ (q : Fin 64) (list : List W64) (s : State) (p : BitVec 512),
    let v := pkValley p
    let x := getV s.eng v
    let a := pkw p 2
    let n := pkf p 1 8 3 + 1
    let idle := isJoined x && decide (x.phase = .idle) && !isHost a
    (Taken s q.val 0x39 p →
      let size := 16 * (reachList s.eng v).length
      let ws := paramWords s.mem s.eng (pkw p 3) n list
      let fit := idle && addrOk a 8 size pkgBytes && clearRange s.eng (addrOf a) size && addrOk (pkw p 3) 8 (8 * n) pkgBytes &&
        ws.all fun w => decide (fld w 13 3 = 0)
      (pkf p 1 0 4 = 1 → fit = true →
          ∃ t, exec (.digestExchange q list) s = .next t ∧ t.mem = s.mem ∧ Answered s.eng t.eng (cmdOf q.val p) stOK 0 0 ∧
            (getV t.eng v).cmp = { x.cmp with running := true, area := addrOf a, genStep := []
                                              partners := ws.map partnerOfWord } ∧
            (∀ w, w ≠ v → getV t.eng w = getV s.eng w) ∧ (getV t.eng v).reaches = x.reaches ∧ t.eng.regions = s.eng.regions) ∧
      (pkf p 1 0 4 = 2 → isDefined x = true → x.slot ≠ .standby →
        ∃ t, exec (.digestExchange q list) s = .next t ∧ t.mem = s.mem ∧ Answered s.eng t.eng (cmdOf q.val p) stOK 0 0 ∧
          (getV t.eng v).cmp = { x.cmp with running := false }) ∧
      ((pkf p 1 0 4 = 2 ∧ (isDefined x = false ∨ x.slot = .standby)) ∨
          (pkf p 1 0 4 ≠ 2 ∧ (pkf p 1 0 4 ≠ 1 ∨ fit = false)) →
        ∃ t, exec (.digestExchange q list) s = .next t ∧ OnlyReplies s t q.val p stOutOfRange 0 0)) ∧
    (Taken s q.val 0x3A p →
      let fit := idle && addrOk a 8 (lockBytes s.eng v) pkgBytes && decide (fld (pkw p 3) 13 3 = 0)
      (pkf p 1 0 4 = 1 → fit = true →
        ∃ t, exec (.lockstep q) s = .next t ∧ t.mem = s.mem ∧ Answered s.eng t.eng (cmdOf q.val p) stOK 0 0 ∧
          (getV t.eng v).cmp = { x.cmp with lock := true, lockArea := addrOf a
                                            lockPeer := some (partnerOfWord (pkw p 3)) } ∧
          (∀ w, w ≠ v → getV t.eng w = getV s.eng w) ∧ (getV t.eng v).reaches = x.reaches ∧ t.eng.regions = s.eng.regions) ∧
      (pkf p 1 0 4 = 2 → isDefined x = true → x.slot ≠ .standby →
        ∃ t, exec (.lockstep q) s = .next t ∧ t.mem = s.mem ∧ Answered s.eng t.eng (cmdOf q.val p) stOK 0 0 ∧
          (getV t.eng v).cmp = { x.cmp with lock := false }) ∧
      ((pkf p 1 0 4 = 2 ∧ (isDefined x = false ∨ x.slot = .standby)) ∨
          (pkf p 1 0 4 ≠ 2 ∧ (pkf p 1 0 4 ≠ 1 ∨ fit = false)) →
        ∃ t, exec (.lockstep q) s = .next t ∧ OnlyReplies s t q.val p stOutOfRange 0 0))) ∧
  (∀ (v : Fin 16) (reach : Nat) (s : State) (r : ReachInfo), reachAt s.eng v.val reach = some r →
    let x := getV s.eng v.val
    let due := x.standIn && isJoined x && (getReach x reach).unbuilt &&
      (List.range (targetsIn x r)).all fun i => doneBit s.mem s.eng v.val (targetsBefore s.eng v.val reach + i)
    (due = true → reachDigest s.mem s.eng v.val reach = (getReach x reach).comm →
      ∃ t, exec (.reachDigestCheck v reach) s = .next t ∧ t.mem = s.mem ∧
        getReach (getV t.eng v.val) reach = { getReach x reach with unbuilt := false } ∧
        (∀ j, j ≠ reach → getReach (getV t.eng v.val) j = getReach x j) ∧ (∀ w, w ≠ v.val → getV t.eng w = getV s.eng w) ∧
        t.eng.io = s.eng.io ∧ t.eng.ctl = s.eng.ctl) ∧
    (due = true → reachDigest s.mem s.eng v.val reach ≠ (getReach x reach).comm →
      let f := raise s.eng evRebuildMismatch stOutOfRange (some v.val) (BitVec.ofNat 64 reach) (BitVec.ofNat 64 0xFFFFFFFF)
      exec (.reachDigestCheck v reach) s = .next { s with eng := f }) ∧
    (due = false → exec (.reachDigestCheck v reach) s = .next s)) ∧
  (∀ (p : RxPacket) (s : State) (v i : Nat), rxChecks s.eng p = .partner v i →
    let x := getV s.eng v
    let st := (hdrOf p).w3
    let es := digEntries p (hdrOf p).count
    let own (f : Eng) : Prop := (∀ w, w ≠ v → getV f w = getV s.eng w) ∧ (getV f v).phase = x.phase ∧
      (getV f v).outs = x.outs ∧ (getV f v).ins = x.ins ∧ f.regions = s.eng.regions ∧ f.io.ctlOut = s.eng.io.ctlOut
    ((hdrOf p).kind = 4 →
      ((∀ g, g < 2 → Tab.find x.cmp.genStep g ≠ some st) →
        exec (.replicaDigests p) s = .next { s with eng := advance s.mem (drop s.eng 22) }) ∧
      (∀ g part, g < 2 → Tab.find x.cmp.genStep g = some st → (∀ h, h < g → Tab.find x.cmp.genStep h ≠ some st) →
        x.cmp.partners[i]? = some part →
        let bad := es.filter fun d => decide (loadWord s.mem s.eng (cmpAddr x.cmp d.reach g) ≠ d.digest)
        ∃ f z, exec (.replicaDigests p) s = .next { s with eng := advance s.mem f } ∧ own f ∧
          (getV f v).cmp.partners[i]? = some z ∧ z.last = st ∧ z.differ = part.differ + bad.length ∧
          (∀ j, j ≠ i → (getV f v).cmp.partners[j]? = x.cmp.partners[j]?) ∧ (getV f v).reaches = x.reaches ∧
          ((bad = [] ∨ part.raised = some st) → f.ctl = s.eng.ctl ∧ f.io = s.eng.io ∧ z.raised = part.raised) ∧
          (bad ≠ [] → part.raised ≠ some st → z.raised = some st ∧
            ∃ d ∈ bad, (∀ d' ∈ bad, d.reach ≤ d'.reach) ∧
              let ev := digestMismatch s.eng v 1 i d.reach wholeReach st
              f.ctl = ev.ctl ∧ f.io = ev.io))) ∧
    ((hdrOf p).kind = 2 → ∀ rho, es ≠ [] → (∀ d ∈ es, d.reach = rho) →
      let usable : Prop := rho < (reachList s.eng v).length ∧
        ((getReach x rho).st = .folded ∨ (getReach x rho).st = .clean) ∧ (getReach x rho).lastStep = some st
      let differs (d : DigEnt) : Prop :=
        (d.tile = wholeReach ∧ (getReach x rho).comm ≠ d.digest) ∨
        (d.tile ≠ wholeReach ∧ loadWord s.mem s.eng (lockTileAddr s.eng v rho d.tile.toNat) ≠ d.digest)
      (¬ usable → exec (.lockstepDigests p) s = .next { s with eng := advance s.mem (drop s.eng 22) }) ∧
      (usable → ∃ f, exec (.lockstepDigests p) s = .next { s with eng := advance s.mem f } ∧ own f ∧
        ((∀ d ∈ es, ¬ differs d) →
          (getV f v).cmp.lockPeer = x.cmp.lockPeer.map (fun z => { z with last := st }) ∧
          f.ctl = s.eng.ctl ∧ f.io = s.eng.io) ∧
        ((∃ d ∈ es, differs d) →
          (getV f v).cmp.lockPeer = x.cmp.lockPeer.map (fun z => { z with last := st, differ := z.differ + 1 }) ∧
          (getReach (getV f v) rho).lockEv = some st ∧
          ((getReach x rho).lockEv = some st → f.ctl = s.eng.ctl ∧ f.io = s.eng.io) ∧
          ((getReach x rho).lockEv ≠ some st → ∃ t : W32,
            ((∀ d ∈ es, differs d → d.tile = wholeReach) → t = wholeReach) ∧
            ((∃ d ∈ es, differs d ∧ d.tile ≠ wholeReach) →
              (∃ d ∈ es, differs d ∧ d.tile ≠ wholeReach ∧ d.tile = t) ∧
              ∀ d ∈ es, differs d → d.tile ≠ wholeReach → t.toNat ≤ d.tile.toNat) ∧
            let ev := digestMismatch s.eng v 2 0 rho t st
            f.ctl = ev.ctl ∧ f.io = ev.io)))))

/-- Tier 2. T1_DRAIN and T2_DRAIN (R153, R154, R171, R276): a command that the storage port's table denies is answered
DENIED and counted; now is ACCEPTED and remembered before anything starts, standing is ACCEPTED and set, clear clears
the standing order, cancel ends the running drain; without a working set for it, a key or an area the command is
refused. -/
def Obligations.DrainOrders : Prop :=
  ∀ (q : Fin 64) (s : State) (p : BitVec 512),
    let v := pkValley p
    let x := getV s.eng v
    let a := pkf p 1 0 4
    let lay := (addrOf (pkw p 3), pkf p 4 0 25)
    let ready := isJoined x && hasArea x && nsAllowed s.eng v
    (Taken s q.val 0x40 p →
      (storageDenied s.eng v = true → ∃ t, exec (.t1Drain q) s = .next t ∧ t.mem = s.mem ∧
        Tab.get 0 t.eng.cnt.refuse 3 = satInc (Tab.get 0 s.eng.cnt.refuse 3) ∧ t.eng.valleys = s.eng.valleys ∧
        Answered s.eng t.eng (cmdOf q.val p) stDenied 0 0) ∧
      (ready = true → anyUnbuilt s.eng v = false →
        (a = 1 → x.t1 = none → drainMay s.eng v = true → 1024 ≤ freeCount s.eng 3 →
          ∃ f, exec (.t1Drain q) s = .next { s with eng := answerAll (tryStartT1 s.mem f v) } ∧
            Answered s.eng f (cmdOf q.val p) stAccepted 0 0 ∧
            getV f v = { x with t1o := { x.t1o with asked := some (pkA p || x.t1o.asked.getD false) } } ∧
            (∀ w, w ≠ v → getV f w = getV s.eng w) ∧ f.basin = (readHead s.eng q.val).basin ∧ f.spill = s.eng.spill) ∧
        (a = 2 → drainMay s.eng v = true →
          ∃ f, exec (.t1Drain q) s =
              .next { s with eng := answerAll (tryStartT1 s.mem (holdIfBusy (readTable f v) v) v) } ∧
            Answered s.eng f (cmdOf q.val p) stAccepted 0 0 ∧ getV f v = { x with t1o := { x.t1o with standing := true } }) ∧
        (a = 3 → ∃ t, exec (.t1Drain q) s = .next t ∧ t.mem = s.mem ∧ Answered s.eng t.eng (cmdOf q.val p) stOK 0 0 ∧
          getV t.eng v = { x with t1o := { x.t1o with standing := false } } ∧
          t.eng.basin = (readHead s.eng q.val).basin) ∧
        (a = 4 → ∃ t, exec (.t1Drain q) s = .next t ∧ t.mem = s.mem ∧ Answered s.eng t.eng (cmdOf q.val p) stOK 0 0 ∧
          (getV t.eng v).t1 = none ∧ (∀ r, x.t1 = some r → ∀ g ∈ r.pages, Tab.find t.eng.basin.owners g = none)) ∧
        (a = 1 → (x.t1 ≠ none ∨ drainMay s.eng v = false ∨ freeCount s.eng 3 < 1024) →
          ∃ t, exec (.t1Drain q) s = .next t ∧ OnlyReplies s t q.val p stOutOfRange 0 0)) ∧
      (storageDenied s.eng v = false → (a = 0 ∨ 4 < a ∨ isJoined x = false ∨ hasArea x = false ∨ anyUnbuilt s.eng v = true) →
        ∃ t, exec (.t1Drain q) s = .next t ∧ OnlyReplies s t q.val p stOutOfRange 0 0)) ∧
    (Taken s q.val 0x44 p →
      (ready = true →
        (a = 1 → t2Running x = false → drainMay s.eng v = true → layoutParamOk s.mem s.eng v p = true →
          512 ≤ freeCount s.eng 3 →
            ∃ f, exec (.t2Drain q) s = .next { s with eng := answerAll (tryStartT2 s.mem f v) } ∧
              Answered s.eng f (cmdOf q.val p) stAccepted 0 0 ∧
              getV f v = { x with t2o := { x.t2o with next := some (pkf p 2 0 32, lay.1, lay.2), held := false } }) ∧
        (a = 2 → drainMay s.eng v = true → layoutParamOk s.mem s.eng v p = true →
          ∃ t, exec (.t2Drain q) s = .next t ∧ t.mem = s.mem ∧ Answered s.eng t.eng (cmdOf q.val p) stAccepted 0 0 ∧
            getV t.eng v = { x with t2o := { x.t2o with standing := some lay } }) ∧
        (a = 3 → ∃ t, exec (.t2Drain q) s = .next t ∧ t.mem = s.mem ∧ Answered s.eng t.eng (cmdOf q.val p) stOK 0 0 ∧
          getV t.eng v = { x with t2o := { x.t2o with standing := none } }) ∧
        (a = 4 → ∃ t, exec (.t2Drain q) s = .next t ∧ t.mem = s.mem ∧ Answered s.eng t.eng (cmdOf q.val p) stOK 0 0 ∧
          (getV t.eng v).t2 = none)) ∧
      (storageDenied s.eng v = false → (a = 0 ∨ 4 < a ∨ isJoined x = false ∨ hasArea x = false) →
        ∃ t, exec (.t2Drain q) s = .next t ∧ OnlyReplies s t q.val p stOutOfRange 0 0))

/-- Tier 2. T1_TRIGGER, T2_TRIGGER and DRAIN_START (R152, R155 to R157, R163, R166): a trigger that fires marks its
start as pending and does nothing before it fires; a start that nothing holds makes the drain of the recorded
Watershed, with the next number, the state of the Reaches at the cut and its working set, full or on the newest complete
chain (R163), and restarts the counter and the timer; a start waits until the drain table and the commit records of its
drains are read (when that is, is a reading, notes/assumptions/72.md, DEDUCED). -/
def Obligations.DrainsStart : Prop :=
  ∀ (v : Fin 16) (s : State), ctlOn s.eng = true →
    let x := getV s.eng v.val
    (isJoined x = true → t1Fires s.eng x = true → x.t1o.pending = false → x.t1o.heldOne = false →
      ∃ f, exec (.t1Trigger v) s = .next { s with eng := tryStartT1 s.mem (holdIfBusy f v.val) v.val } ∧
        getV f v.val = { x with t1o := { x.t1o with pending := true } } ∧ f.io = s.eng.io ∧ f.basin = s.eng.basin) ∧
    ((isJoined x = false ∨ t1Fires s.eng x = false ∨ x.t1o.pending = true ∨ x.t1o.heldOne = true) →
      exec (.t1Trigger v) s = .next s) ∧
    (isJoined x = true → Valley.t2EveryWs x ≠ 0 → Valley.t2EveryWs x ≤ x.t2o.wsCount →
      ∃ t, exec (.t2Trigger v) s = .next t ∧ t.mem = s.mem ∧ getV t.eng v.val = { x with t2o := { x.t2o with pending := true } } ∧
        (∀ w, w ≠ v.val → getV t.eng w = getV s.eng w) ∧ t.eng.io = s.eng.io) ∧
    ((isJoined x = false ∨ Valley.t2EveryWs x = 0 ∨ x.t2o.wsCount < Valley.t2EveryWs x) →
      exec (.t2Trigger v) s = .next s) ∧
    (∀ full ws table job, x.t1o.asked = some full → x.t1 = none → x.ws = some ws → x.t1o.table = some table →
      jobKey s.eng x.fn = some job → isJoined x = true → hasArea x = true → nsAllowed s.eng v.val = true →
      drainKeyed s.eng v.val = true → x.phase = .idle → anyUnbuilt s.eng v.val = false → correcting x = false →
      x.t1o.survey = none → 1024 ≤ freeCount s.eng 3 →
        ∃ f r, exec (.drainStart v) s = .next { s with eng := tryStartT2 s.mem f v.val } ∧
          (getV f v.val).t1 = some r ∧ r.ws = ws.number ∧ r.step = ws.step ∧ r.lineage = x.regs.lineage ∧
          r.number = (table.map (·.number)).foldl max 0 + 1 ∧ r.segs = [] ∧ r.taken = [] ∧
          r.digests = (drainReaches s.eng v.val).map (fun y => (y.num, (getReach x y.num).comm)) ∧
          r.full = nextFull s.eng v.val (x.t2o.pending && x.t2o.standing.isSome) ∧
          (full = true → r.full = true) ∧ (r.full = true → r.base = r.number) ∧
          (∀ b more, r.full = false → baseChain s.eng v.val = b :: more → r.base = b.number) ∧ r.key = drainKey job r.nonce ∧
          (∀ g ∈ r.pages, Tab.find f.basin.owners g = some (.work v.val 1)) ∧
          (getV f v.val).t1o.asked = none ∧ (getV f v.val).t1o.pending = false ∧ (getV f v.val).t1o.wsCount = 0 ∧
          (getV f v.val).t1o.timerTs = s.eng.side.ts ∧ (getV f v.val).reaches = x.reaches) ∧
    (∀ full table, x.t1o.asked = some full → x.t1o.table = some table → x.t1o.survey ≠ none → x.t2o.next = none →
      exec (.drainStart v) s = .next s) ∧
    (x.t1o.asked = none → x.t1o.pending = false → x.t2o.next = none → exec (.drainStart v) s = .next s)

/-- Tier 2. TILE_TAKEN, SEGMENT_BEGIN and HOLDUP_WAIT_EXPIRED (R158, R160, R168, R170, R105): the drain takes its next
tile as it was at the cut and frees its shadow; a working set grows by free pages to what its work holds; a formed segment
begins when the available energy covers its need and waits, with HOLDUP_PAUSE raised once, when it does not; one that would
take an LBA of a protected drain ends its drain with reason 4; a drain that has waited for HOLDUP_WAIT ends with DRAIN_DONE
of reason 3 and its pages free. -/
def Obligations.DrainTakesAndBegins : Prop :=
  ∀ (v : Fin 16) (s : State) (run : T1Run), ctlOn s.eng = true → (getV s.eng v.val).t1 = some run →
    let x := getV s.eng v.val
    let ended (e f : Eng) (reason : Nat) (st : W16) : Prop :=
      let ev := raise e evDrainDone st (some v.val)
        (pack [(0, v.val), (4, 1), (8, reason), (12, b2n run.full), (32, run.number)]) run.ws
      (getV f v.val).t1 = none ∧ f.ctl.evt = ev.ctl.evt ∧ f.io.hm = ev.io.hm ∧
      (∀ g ∈ run.pages, Tab.find f.basin.owners g = none) ∧
      (∀ y ∈ run.shadow, Tab.find f.spill.pages y.2.1 = none)
    (∀ rho t rest r, run.left = (rho, t) :: rest → shadowBusy s.eng run (tileKey rho t) = false →
      (∀ g ∈ run.segs, g.st ≠ .formed) → reachAt s.eng v.val rho = some r →
        ∃ f, exec (.tileTaken v) s = .next { s with eng := growT1 (formT1 f v.val) v.val } ∧
          (getV f v.val).t1 = some { run with left := rest, taken := run.taken ++ [(rho, t, cutLines s.mem s.eng run r t)]
                                              tiles := run.tiles + 1, shadow := Tab.del run.shadow (tileKey rho t) } ∧
          (∀ g b, Tab.find run.shadow (tileKey rho t) = some (g, b) → Tab.find f.spill.pages g = none) ∧
          f.basin = s.eng.basin ∧ f.lanes = s.eng.lanes) ∧
    (run.left ≠ [] → (∃ g ∈ run.segs, g.st = .formed) →
      exec (.tileTaken v) s = .next { s with eng := growT1 s.eng v.val }) ∧
    (run.left = [] → exec (.tileTaken v) s = .next { s with eng := growT1 (formT1 s.eng v.val) v.val }) ∧
    (let held := 4096 * (run.taken.length + ((run.segs.filter fun g => decide (g.st ≠ .done)).map fun g => g.lbas + 1).sum)
      let more := (freePages s.eng 3).take ((held + 4095) / 4096 - run.pages.length)
      let f := growT1 s.eng v.val
      (getV f v.val).t1 = some { run with pages := run.pages ++ more } ∧
        (∀ g ∈ more, Tab.find f.basin.owners g = some (.work v.val 1)) ∧
        (∀ g, g ∉ more → Tab.find f.basin.owners g = Tab.find s.eng.basin.owners g) ∧
        (∀ w, w ≠ v.val → getV f w = getV s.eng w) ∧ f.spill = s.eng.spill ∧ f.io = s.eng.io ∧ f.ctl = s.eng.ctl) ∧
    (∀ g, run.segs.find? (fun g => decide (g.st = .formed)) = some g → (run.segs.Pairwise fun a b => a.num ≠ b.num) →
      let runs := lbaRuns (logLo x) (logLen x) (g.lbas + 2) g.lba g.lbas
      (run.segs.filter Seg.live).length < Valley.segInflight x → retentionHold s.eng = false →
      s.eng.io.sto.length + runs.length ≤ 256 →
        (areaFull s.eng v.val run g = true →
          ∃ t, exec (.segmentBegin v) s = .next t ∧ t.mem = s.mem ∧ ended s.eng t.eng 4 stOutOfRange) ∧
        (areaFull s.eng v.val run g = false → holdupNeed s.eng g ≤ 10 * availableEnergy s.eng.side →
          ∃ t r, exec (.segmentBegin v) s = .next t ∧ t.mem = s.mem ∧ (getV t.eng v.val).t1 = some r ∧ r.waitFrom = none ∧
            (∃ h ∈ r.segs, h.num = g.num ∧ h.st = .payload) ∧
            (t.eng.io.sto.map fun d => (d.op, d.ns, d.lba, d.lbas)) =
              (s.eng.io.sto.map fun d => (d.op, d.ns, d.lba, d.lbas)) ++
                runs.map (fun l => (1, g.ns, BitVec.ofNat 64 l.1, BitVec.ofNat 32 l.2)) ∧ t.eng.lanes = s.eng.lanes) ∧
        (areaFull s.eng v.val run g = false → 10 * availableEnergy s.eng.side < holdupNeed s.eng g →
          let ev := raise s.eng evHoldupPause stHoldupLow (some v.val)
            (pack [(0, fld s.eng.side.hRecord 0 16), (16, b2n (bit s.eng.side.hRecord 31))])
            (BitVec.ofNat 64 (holdupNeed s.eng g))
          ∃ t, exec (.segmentBegin v) s = .next t ∧ t.mem = s.mem ∧
            (getV t.eng v.val).t1 = some { run with waitFrom := some (run.waitFrom.getD s.eng.side.ts), paused := true } ∧
            t.eng.io.sto = s.eng.io.sto ∧ (run.paused = true → t.eng.ctl = s.eng.ctl) ∧
            (run.paused = false → t.eng.ctl.evt = ev.ctl.evt ∧ t.eng.io.hm = ev.io.hm))) ∧
    (∀ t0, run.waitFrom = some t0 →
      (Regs.holdupWait s.eng.regs ≤ (s.eng.side.ts - t0).toNat →
        ∃ t, exec (.holdupWaitExpired v) s = .next t ∧ t.mem = s.mem ∧ ended s.eng t.eng 3 stHoldupLow) ∧
      ((s.eng.side.ts - t0).toNat < Regs.holdupWait s.eng.regs → exec (.holdupWaitExpired v) s = .next s)) ∧
    (run.waitFrom = none → exec (.holdupWaitExpired v) s = .next s)

/-- Tier 2. T1_RESTORE, T2_RESTORE and SEED_SERVE (R175 to R178, R181, R276): a restore that the rules admit is
ACCEPTED with its candidates, its map or copy list and its working set, and goes to work; a peer load reads the seed
table of the other package first; a seed table is served with the ready flag set and stops with it cleared; everything
else is refused, a standby slot's seed table among it (R268). -/
def Obligations.RestoresAndSeeds : Prop :=
  ∀ (q : Fin 64) (l1 l2 : List W64) (s : State) (p : BitVec 512),
    let v := pkValley p
    let x := getV s.eng v
    let k := pkf p 1 8 4
    let cands := candsOf (paramWords s.mem s.eng (pkw p 2) (2 * k) l1) k
    let n1 := pkf p 4 0 7
    let es1 := mapOf (paramWords s.mem s.eng (pkw p 3) (4 * n1) l2) n1
    let fit1 := restoreParamsOk p && isJoined x && hasArea x && jobKeyed s.eng v && decide (1 ≤ n1 ∧ n1 ≤ 64) &&
      addrOk (pkw p 3) 32 (32 * n1) pkgBytes && es1.all (mapEntOk s.mem s.eng v)
    let n2 := pkf p 4 0 25
    let es2 := copiesAt s.mem s.eng (addrOf (pkw p 3)) n2
    let fit2 := restoreParamsOk p && isDefined x && decide (x.slot ≠ .standby) && decide (1 ≤ n2 ∧ n2 ≤ 16777216) &&
      !isHost (pkw p 3) && addrOk (pkw p 3) 64 (64 * n2) pkgBytes && es2.all (copyEntOk s.mem s.eng) &&
      (if pkA p then decide (k = 1) && decide (pkf p 7 13 3 = 0) && !isHost (pkw p 6) && addrOk (pkw p 6) 64 0 pkgBytes
       else jobKeyed s.eng v && (decide (pkw p 6 = 0) || seedOk s.mem s.eng (pkw p 6) n2))
    (Taken s q.val 0x41 p →
      (storageDenied s.eng v = false → fit1 = true → 1024 ≤ freeCount s.eng 3 →
        ∃ f r, exec (.t1Restore q l1 l2) s = .next { s with eng := answerAll (runRestore s.mem f v x.restores.length) } ∧
          Answered s.eng f (cmdOf q.val p) stAccepted 0 0 ∧ (getV f v).restores = x.restores ++ [r] ∧ r.terrace = 1 ∧
          r.probe = decide (pkf p 1 0 4 = 1) ∧ r.cands = cands ∧ r.map = es1.map (·.1) ∧ r.stage = .table ∧
          (∀ g ∈ r.pages, Tab.find f.basin.owners g = some (.work v 3))) ∧
      (storageDenied s.eng v = false → (fit1 = false ∨ freeCount s.eng 3 < 1024) →
        ∃ t, exec (.t1Restore q l1 l2) s = .next t ∧ OnlyReplies s t q.val p stOutOfRange 0 0) ∧
      (storageDenied s.eng v = true → ∃ t, exec (.t1Restore q l1 l2) s = .next t ∧ t.mem = s.mem ∧
        Tab.get 0 t.eng.cnt.refuse 3 = satInc (Tab.get 0 s.eng.cnt.refuse 3) ∧ t.eng.valleys = s.eng.valleys ∧
        Answered s.eng t.eng (cmdOf q.val p) stDenied 0 0)) ∧
    (Taken s q.val 0x45 p →
      (fit2 = true → 512 ≤ freeCount s.eng 3 →
        ∃ f r, (exec (.t2Restore q l1 l2) s = .next { s with eng := answerAll (if pkA p then readSeeds f v r 0
            else runRestore s.mem f v x.restores.length) }) ∧
          Answered s.eng f (cmdOf q.val p) stAccepted 0 0 ∧ (getV f v).restores = x.restores ++ [r] ∧
          r.terrace = (if pkA p then 3 else 2) ∧ r.cands = cands ∧ r.copies = es2 ∧ r.alpha = pkw p 5 ∧
          r.seedAt = addrOf (pkw p 6) ∧ r.node = (pkw p 7).extractLsb' 0 16 ∧
          (∀ g ∈ r.pages, Tab.find f.basin.owners g = some (.work v 3))) ∧
      ((fit2 = false ∨ freeCount s.eng 3 < 512) →
        ∃ t, exec (.t2Restore q l1 l2) s = .next t ∧ OnlyReplies s t q.val p stOutOfRange 0 0)) ∧
    (Taken s q.val 0x46 p →
      (∀ t0, s.eng.seeds.find? (fun t => decide (BitVec.ofNat 64 t.base = pkw p 1 ∧ t.v = v)) = some t0 →
        (x.slot ≠ .standby → pkA p = true →
          ∃ t, exec (.seedServe q) s = .next t ∧ t.mem = s.mem ∧ Answered s.eng t.eng (cmdOf q.val p) stOK 0 0 ∧
            t.eng.seeds = s.eng.seeds.map (fun y => if y.base = t0.base then { y with ready := false, pages := [] } else y) ∧
            (∀ g ∈ t0.pages, Tab.find t.eng.basin.owners g = none) ∧ t.eng.valleys = s.eng.valleys) ∧
        (x.slot ≠ .standby → pkA p = false → t0.ready = false → 256 ≤ freeCount s.eng 3 →
          ∃ t, exec (.seedServe q) s = .next t ∧ t.mem = s.mem ∧ Answered s.eng t.eng (cmdOf q.val p) stAccepted 0 0 ∧
            t.eng.seeds = s.eng.seeds.map (fun y => if y.base = t0.base then
              { y with ready := true, pages := (freePages s.eng 3).take 256 } else y) ∧ t.eng.valleys = s.eng.valleys) ∧
        (x.slot ≠ .standby → pkA p = false → t0.ready = true →
          ∃ t, exec (.seedServe q) s = .next t ∧ OnlyReplies s t q.val p stAccepted 0 0) ∧
        ((x.slot = .standby ∨ (pkA p = false ∧ t0.ready = false ∧ freeCount s.eng 3 < 256)) →
          ∃ t, exec (.seedServe q) s = .next t ∧ OnlyReplies s t q.val p stOutOfRange 0 0)) ∧
      (s.eng.seeds.find? (fun t => decide (BitVec.ofNat 64 t.base = pkw p 1 ∧ t.v = v)) = none →
        ∃ t, exec (.seedServe q) s = .next t ∧ OnlyReplies s t q.val p stOutOfRange 0 0))

/-- Tier 2. OUTER_EXPORT and OUTER_REANCHOR (R186, R187, R202, R204, R205, R287): in an open Crossing with no job, a
later round than the last one, an exchange key, a table in order and a working set, the export is ACCEPTED and starts
over its table; a reanchor needs a table and no running or unfinished export; outside OPEN both are refused. -/
def Obligations.OuterExchangeStarts : Prop :=
  ∀ (q : Fin 64) (s : State) (p : BitVec 512) (key : BitVec 256),
    let v := pkValley p
    let x := getV s.eng v
    let ts := expTable s.mem s.eng (addrOf (pkw p 4)) (pkf p 5 0 21)
    let fit := isJoined x && decide (x.phase = .opened) && x.expo.jobs.isEmpty && tableParamOk p && !isHost (pkw p 6) &&
      addrOk (pkw p 6) 8 131072 pkgBytes && !keysEnding s.eng &&
      (if pkA p then decide (pkw p 1 = x.expo.round)
       else decide (x.expo.round.toNat < (pkw p 1).toNat) && decide (x.expo.st ≠ .incomplete))
    (Taken s q.val 0x50 p →
      (fit = true → tableOk s.eng v ts true = true → exchKey s.eng x.fn = some key → 256 ≤ freeCount s.eng 3 →
        ∃ f, exec (.outerExport q) s = .next { s with eng := answerAll (settleV s.mem (growExport (startExport s.mem f v
            { seed := pkw p 2, step := x.step, round := pkw p 1, sparse := ((pkw p 3).extractLsb' 32 8).toInt
              stoch := bit (pkw p 3) 40 } (BitVec.ofNat 32 (pkf p 3 0 32)) (pkA p)
            (roundKey key (pkw p 1) x.tag x.self) ts (addrOf (pkw p 6)) ((freePages s.eng 3).take 256)) v) v) } ∧
          Answered s.eng f (cmdOf q.val p) stAccepted 0 0 ∧ f.valleys = s.eng.valleys ∧
          (∀ g ∈ (freePages s.eng 3).take 256, Tab.find f.basin.owners g = some (.work v 4))) ∧
      ((fit = false ∨ tableOk s.eng v ts true = false ∨ exchKey s.eng x.fn = none ∨ freeCount s.eng 3 < 256) →
        ∃ t, exec (.outerExport q) s = .next t ∧ OnlyReplies s t q.val p stOutOfRange 0 0)) ∧
    (Taken s q.val 0x51 p →
      let fit' := isJoined x && decide (x.phase = .opened) && !exportRunning x && decide (x.expo.st ≠ .incomplete) &&
        tableParamOk p && tableOk s.eng v ts false
      (fit' = true →
        ∃ f, exec (.outerReanchor q) s =
            .next { s with eng := answerAll (settleV s.mem (startReanchor s.mem f v (pkw p 1) ts) v) } ∧
          OnlyAnswers (readHead s.eng q.val) f ∧ Answered s.eng f (cmdOf q.val p) stAccepted 0 0) ∧
      (fit' = false → ∃ t, exec (.outerReanchor q) s = .next t ∧ OnlyReplies s t q.val p stOutOfRange 0 0))

/-- Tier 2. PARTITION_GRANT and PARTITION_REVOKE (R271, R272, R278, R279, R310): a grant gives the listed queues and
Valley slots to the virtual function, records the tag and sets its fixed register-file entry and its fabric entry; a
tag that is 0, all ones, revoked or in use, a function that is granted, or a queue or slot that is not free, refuses
it. A revoke of a granted partition marks the tag revoked, fences the partition's Valleys and goes on by itself; one
of another tag is refused. SCRUB, KEY_LOAD, FW_LOAD (R99, R262, R284, R285, R299): a scrub of a range that nothing
coded holds accumulates its lines into themselves and is answered when none of them is under way; an authentic key
blob puts its key in the slot of its partition and changes no other; an image that passes every check is the running
image at its entry, while no Valley is bound; what fails a check is refused and changes nothing but the instruction store,
where the copy of an image stands before it is checked. -/
def Obligations.PartitionsAndLoads : Prop :=
  (∀ (q : Fin 64) (s : State) (p : BitVec 512),
      let tag : W16 := (pkw p 1).extractLsb' 0 16
      let f := pkf p 1 16 6
      let free := decide (tag ≠ 0 ∧ tag ≠ 0xFFFF) && !s.eng.side.revoked.contains tag &&
        !s.eng.ctl.grants.any (fun g => decide (g.ptag = tag ∨ g.vf = f)) &&
        (bitsOf (pkw p 2) 64).all (queueFree (popHead s.eng q.val)) && (bitsOf (pkw p 3) 16).all (slotFree s.eng)
      (Taken s q.val 0x60 p →
        (free = true →
          ∃ t, exec (.partitionGrant q) s = .next t ∧ t.mem = s.mem ∧ Answered s.eng t.eng (cmdOf q.val p) stOK 0 0 ∧
            t.eng.ctl.grants = s.eng.ctl.grants ++ [{ ptag := tag, vf := f }] ∧
            (∀ j, j < 64 → (getQ t.eng j).owner = if bit (pkw p 2) j then vfFn f else (getQ s.eng j).owner) ∧
            (∀ v, v < 16 → (getV t.eng v).fn = if bit (pkw p 3) v then vfFn f else (getV s.eng v).fn) ∧
            Tab.get 0 t.eng.regs.accReg (0x40 + f) = 0x10681A6B ∧
            Tab.get 0 t.eng.regs.accFab (1 + f) = tag.setWidth 32 ||| 0x10000 ∧
            (∀ j, j ≠ 0x40 + f → Tab.get 0 t.eng.regs.accReg j = Tab.get 0 s.eng.regs.accReg j) ∧
            t.eng.regions = s.eng.regions ∧ t.eng.basin = (readHead s.eng q.val).basin ∧ t.eng.lanes = s.eng.lanes) ∧
        (free = false → ∃ t, exec (.partitionGrant q) s = .next t ∧ OnlyReplies s t q.val p stOutOfRange 0 0)) ∧
      (Taken s q.val 0x61 p →
        (∀ g, s.eng.ctl.grants.find? (fun g => decide (g.ptag = tag)) = some g → revoking s.eng (vfFn g.vf) = false →
          ∃ e, exec (.partitionRevoke q) s = .next { s with eng := answerAll (runRevokes s.mem
              ((slotsOf e g.vf).foldl (fun e v => revokeFence s.mem e v (cmdOf q.val p)) e)) } ∧
            tag ∈ e.side.revoked ∧ e.side.revoked.length ≤ max 64 s.eng.side.revoked.length ∧
            e.ctl.revokes = s.eng.ctl.revokes ++
              [{ cmd := cmdOf q.val p, ptag := tag, vf := g.vf, step := 4, before := s.eng.io.acc.length, areas := [] }] ∧
            e.valleys = s.eng.valleys ∧ e.regions = s.eng.regions ∧ e.basin = (readHead s.eng q.val).basin ∧
            e.io = (readHead s.eng q.val).io) ∧
        ((∀ g, s.eng.ctl.grants.find? (fun g => decide (g.ptag = tag)) = some g → revoking s.eng (vfFn g.vf) = true) →
          ∃ t, exec (.partitionRevoke q) s = .next t ∧ OnlyReplies s t q.val p stOutOfRange 0 0))) ∧
  (∀ (q : Fin 64) (list : List W64) (s : State) (p : BitVec 512),
      let e0 := popHead s.eng q.val
      (Taken s q.val 0x68 p →
        let a := pkw p 1
        let n := (pkw p 2).toNat
        let fit := !isHost a && addrOk a 4096 n pkgBytes && decide (n % 4096 = 0) && !scrubHits s.eng (addrOf a) n
        let f := zeroRange s.mem e0 (addrOf a) n (.scrub s.eng.ctl.scrubKey)
        let mine := f.io.acc.filter fun r => decide (r.why = .scrub s.eng.ctl.scrubKey)
        (fit = true → mine = [] → ∃ t, exec (.scrub q) s = .next t ∧ t.mem = s.mem ∧
          Answered s.eng t.eng (cmdOf q.val p) stOK 0 0 ∧ t.eng.valleys = s.eng.valleys ∧ t.eng.regions = s.eng.regions) ∧
        (fit = true → mine ≠ [] → ∃ t, exec (.scrub q) s = .next t ∧ t.mem = s.mem ∧ t.eng.io.acc = f.io.acc ∧
          t.eng.ctl.scrubs = s.eng.ctl.scrubs ++
            [{ cmd := cmdOf q.val p, left := mine.length, key := s.eng.ctl.scrubKey }] ∧
          t.eng.valleys = s.eng.valleys ∧ t.eng.regions = s.eng.regions) ∧
        (fit = false → ∃ t, exec (.scrub q) s = .next t ∧ OnlyReplies s t q.val p stOutOfRange 0 0)) ∧
      (Taken s q.val 0x78 p →
        let kind := pkf p 1 0 4
        let tag : W16 := (pkw p 1).extractLsb' 16 16
        let bs := wordsBytes (paramWords s.mem s.eng (pkw p 2) 20 list)
        let fit := decide (pkf p 3 0 16 = 160) && addrOk (pkw p 2) 8 160 pkgBytes && decide (kind = 1 ∨ kind = 2) &&
          decide (enum bs 0 1 = kind ∧ enum bs 2 2 = tag.toNat) && Config.p384Point ((bs.drop 16).take 96) && keysAllowed s.eng.side
        (∀ slot key, fit = true → keySlotOf s.eng tag = some slot → unwrapKey s.eng.side.devKey bs = some key →
          ∃ t, exec (.keyLoad q list) s = .next t ∧ t.mem = s.mem ∧ Answered s.eng t.eng (cmdOf q.val p) stOK 0 0 ∧
            Tab.get {} t.eng.ctl.keys slot =
              (if kind = 1 then { Tab.get {} s.eng.ctl.keys slot with job := some key }
               else { Tab.get {} s.eng.ctl.keys slot with exch := some key }) ∧
            (∀ j, j ≠ slot → Tab.get {} t.eng.ctl.keys j = Tab.get {} s.eng.ctl.keys j) ∧
            t.eng.valleys = s.eng.valleys ∧ t.eng.regs = (readHead s.eng q.val).regs) ∧
        ((fit = false ∨ keySlotOf s.eng tag = none ∨ unwrapKey s.eng.side.devKey bs = none) →
          ∃ t, exec (.keyLoad q list) s = .next t ∧ OnlyReplies s t q.val p stOutOfRange 0 0)) ∧
      (Taken s q.val 0x7E p →
        let size := pkf p 2 0 32
        let ws := paramWords s.mem s.eng (pkw p 1) ((size + 7) / 8) list
        (anyBound s.eng = true → ∃ t, exec (.fwLoad q list) s = .next t ∧ OnlyReplies s t q.val p stConfigLocked 0 0) ∧
        (anyBound s.eng = false → isHost (pkw p 1) = true → addrOk (pkw p 1) 8 size pkgBytes = true → imageGood e0 size ws = true →
          ∃ t, exec (.fwLoad q list) s = .next t ∧ t.mem = s.mem ∧ Answered s.eng t.eng (cmdOf q.val p) stOK 0 0 ∧
            t.eng.ctl.image = some (imageOf ws) ∧ t.eng.ctl.bootRom = false ∧ t.eng.ctl.istore = ws ∧
            t.eng.ctl.cpPc = (imageOf ws).entry ∧ t.eng.valleys = s.eng.valleys ∧ t.eng.ctl.keys = s.eng.ctl.keys) ∧
        (anyBound s.eng = false → (isHost (pkw p 1) = false ∨ addrOk (pkw p 1) 8 size pkgBytes = false) →
          ∃ t, exec (.fwLoad q list) s = .next t ∧ OnlyReplies s t q.val p stOutOfRange 0 0) ∧
        (anyBound s.eng = false → isHost (pkw p 1) = true → addrOk (pkw p 1) 8 size pkgBytes = true →
          imageGood e0 size ws = false →
            ∃ t, exec (.fwLoad q list) s = .next t ∧ t.mem = s.mem ∧ Answered s.eng t.eng (cmdOf q.val p) stOutOfRange 0 0 ∧
              t.eng.ctl.istore = ws ∧ t.eng.ctl.image = s.eng.ctl.image ∧ t.eng.ctl.bootRom = s.eng.ctl.bootRom ∧
              t.eng.ctl.cpPc = s.eng.ctl.cpPc ∧ t.eng.valleys = s.eng.valleys ∧ t.eng.ctl.keys = s.eng.ctl.keys)))

/-- Tier 2. ACC_DONE (R16) and ASYNC_COPY_DONE (R182): the coded writes to the line that lanes accepted before the oldest
accumulate to it was issued have been performed; the accumulate is done and its enabled bytes have changed by
exclusive-or, every other byte of memory reads as before and every other request stays; a report without a request is a
fault (notes/assumptions/11.md, DEDUCED). That accepted writes are known by their numbers is the model's own
(notes/assumptions/66.md). A copy that has arrived stands at its destination, byte for byte, and nowhere else. -/
def Obligations.AccumulatesAndCopiesLand : Prop :=
  ∀ (s : State),
    (∀ (line : BitVec 33) (i : Nat) (r : AccReq), oldestAcc s.eng.io.acc line.toNat = some (i, r) →
      let b := performBefore s.mem s.eng r
      let before (a : Nat) : Byte := Mem.get b.1 a
      ∃ t, exec (.accDone line) s = .next t ∧ s.eng.io.acc[i]? = some r ∧ r.line = line.toNat ∧
        (∀ j, j < 256 → bit r.be j = true → t.byteAt (256 * line.toNat + j) = before (256 * line.toNat + j) ^^^ Line.byte r.data j) ∧
        (∀ a, (∀ j, j < 256 → bit r.be j = true → a ≠ 256 * line.toNat + j) → t.byteAt a = before a) ∧
        (∀ a, (∀ l ∈ s.eng.lanes, ∀ w ∈ writesBefore l.2 r, ∀ j, j < 256 → bit w.be j = true → a ≠ 256 * w.line + j) →
          before a = s.byteAt a) ∧
        (∀ l ∈ s.eng.lanes, ∀ w ∈ writesBefore l.2 r, ∀ j, j < 256 → bit w.be j = true →
          (∀ l' ∈ s.eng.lanes, ∀ w' ∈ writesBefore l'.2 r, w' ≠ w → bit w'.be j = false) →
            before (256 * line.toNat + j) = Line.byte w.new j) ∧
        (r.why = .plain → s.eng.ctl.revokes = [] → s.eng.ctl.stops = [] → s.eng.side.pwrWait = none →
          t.eng = { b.2 with io := { s.eng.io with acc := s.eng.io.acc.eraseIdx i } })) ∧
    (∀ line : BitVec 33, (∀ r ∈ s.eng.io.acc, r.line ≠ line.toNat) → exec (.accDone line) s = .fault .accDoneUnasked) ∧
    (∀ (v : Fin 16) (data : List Byte) (c : AsyncCopy) (i : Nat) (r : Restore) (y : CopyEnt), ctlOn s.eng = true →
      s.eng.io.copies.find? (fun c => decide (c.v = v.val)) = some c → data.length = c.len →
      copyRestore (getV s.eng v.val) c.entry = some (i, r) → r.stage = .copies → r.copies[r.entry]? = some y →
        ∃ t, exec (.asyncCopyDone v data) s = .next t ∧
          (∀ j, j < c.len → t.byteAt (c.dst + j) = data.getD j 0) ∧
          (∀ a, (a < c.dst ∨ c.dst + c.len ≤ a) → t.byteAt a = s.byteAt a)) ∧
    (∀ (v : Fin 16) (data : List Byte), ctlOn s.eng = true → s.eng.ctl.revokes = [] → s.eng.ctl.stops = [] →
      s.eng.side.pwrWait = none → s.eng.io.copies = [] → exec (.asyncCopyDone v data) s = .next s)

/-- Tier 2. STORAGE_COMPLETION, PASS_COMPLETION and PORT_TIMEOUT (R20, R169, R174, R201): a completion ends its
descriptor, which leaves the port, and its data pass the working set (R20), before its owner acts; a tag that is not outstanding is dropped and counted; a
descriptor older than the port timeout ends like a failed one, and a younger one stays. -/
def Obligations.PortCompletions : Prop :=
  ∀ (s : State) (tag status : W16) (bytes : W32) (data : List W64), ctlOn s.eng = true →
    let stoFor (d : StoDesc) (good : Bool) (data : List W64) : Host.Outcome State Fault Refusal :=
      .next { s with eng := advance s.mem (pokeAll s.mem (stoOwner s.mem (passThrough
        { s.eng with io := { s.eng.io with sto := s.eng.io.sto.erase d } } data d.owner) d.tag.toNat good data d.owner)) }
    let passFor (d : PassDesc) (st : W16) (data : List W64) : Host.Outcome State Fault Refusal :=
      .next { s with eng := advance s.mem (pokeAll s.mem (passOwner s.mem (passThrough
        { s.eng with io := { s.eng.io with pass := s.eng.io.pass.erase d } } data d.owner) d.tag.toNat st data d.owner)) }
    ((∀ d ∈ s.eng.io.sto, d.tag ≠ tag) → exec (.storageCompletion tag status data) s = .next { s with eng := drop s.eng 24 } ∧
      exec (.portTimeout .storage tag) s = .next s) ∧
    ((∀ d ∈ s.eng.io.pass, d.tag ≠ tag) → exec (.passCompletion tag status bytes data) s = .next { s with eng := drop s.eng 24 } ∧
      exec (.portTimeout .pass tag) s = .next s) ∧
    (∀ d, s.eng.io.sto.find? (fun d => decide (d.tag = tag)) = some d →
      exec (.storageCompletion tag status data) s = stoFor d (decide (status = 0)) data ∧
      (Regs.portTimeout s.eng.regs .storage ≤ (s.eng.side.ts - d.ts).toNat → exec (.portTimeout .storage tag) s = stoFor d false []) ∧
      ((s.eng.side.ts - d.ts).toNat < Regs.portTimeout s.eng.regs .storage → exec (.portTimeout .storage tag) s = .next s)) ∧
    (∀ d, s.eng.io.pass.find? (fun d => decide (d.tag = tag)) = some d →
      exec (.passCompletion tag status bytes data) s = passFor d status data ∧
      (Regs.portTimeout s.eng.regs .pass ≤ (s.eng.side.ts - d.ts).toNat → exec (.portTimeout .pass tag) s = passFor d 0xFFFF []) ∧
      ((s.eng.side.ts - d.ts).toNat < Regs.portTimeout s.eng.regs .pass → exec (.portTimeout .pass tag) s = .next s)) ∧
    (∀ v d, s.eng.io.sto = [d] → d.tag = tag → d.owner = .t1Seg v 0 → s.eng.ctl.revokes = [] → s.eng.ctl.stops = [] →
      s.eng.side.pwrWait = none → data = [] ∨ s.eng.basin.writeback = [] →
      (∀ w, (getV s.eng w).t1 = none ∧ (getV s.eng w).t2 = none ∧ (getV s.eng w).restores = [] ∧ (getV s.eng w).expo.jobs = [] ∧
        (getV s.eng w).t1o.survey = none) →
      s.eng.io.oldSegs = [] →
        ∃ t, exec (.storageCompletion tag status data) s = .next t ∧ t.mem = s.mem ∧ t.eng.io.sto = [] ∧
          t.eng.valleys = s.eng.valleys ∧ t.eng.ctl = s.eng.ctl)

/-- Tier 2. PATROL_READ and BASIN_WRITEBACK (R210, R212, R213, R217): the patrol reads the next word of its bank, once
per gap; a clean word changes nothing but the patrol's place, a corrected one is counted, is marked for write-back and
raises its page's candidate count; the write-back stores the corrected word; a page that no owner uses loses nothing
but its word to an uncorrectable error, which is counted. BUCKET_LEAK, CAND_DECAY, PAGE_OPEN, BANK_UNGATE and
SPILL_PAGE_ZERO (R214, R217, R216, R295, R99): each timer acts when its time has passed and not before; the lowest
page that is not valid of a running bank with fewer than four opened pages is opened; a gated bank wakes when its
partition's running stock falls below sixteen; the first freed spill page that nothing writes becomes allocatable once
it reads zero, and is accumulated into itself before that. Pages of the Basin (R98, R216): an allocation takes a page of
its partition that nobody owns, which is valid then and holds zero words if it was not, and a freed page is owned by
nobody, is not valid and holds nothing; the other pages stay. -/
def Obligations.BasinPatrolAndUpkeep : Prop :=
  (∀ (bank : Fin 32) (flips : StoredWord) (s : State) (w : Nat), ctlOn s.eng = true →
      let e1 : Eng := { s.eng with basin := { s.eng.basin with
        patrolAt := Tab.set s.eng.basin.patrolAt bank.val (w + 1)
        patrolTs := Tab.set s.eng.basin.patrolTs bank.val s.eng.side.ts } }
      let r := readWord (storedAt s.eng (w / 16) (w % 16) ^^^ flips)
      (patrolDue s.eng bank.val = false → exec (.patrolRead bank flips) s = .next s) ∧
      (patrolDue s.eng bank.val = true → s.eng.ctl.revokes = [] → s.eng.ctl.stops = [] → s.eng.side.pwrWait = none →
        nextPatrol (validPages s.eng bank.val) (Tab.get 0 s.eng.basin.patrolAt bank.val) = some w →
        (r.bad = 0 → r.corr = 0 →
          exec (.patrolRead bank flips) s =
            .next { s with eng := putStored e1 (w / 16) (w % 16) (storedAt s.eng (w / 16) (w % 16) ^^^ flips) }) ∧
        (r.bad = 0 → r.corr = 1 → s.eng.basin.level + 1 ≤ Regs.bucketSize s.eng.regs → s.eng.basin.cand = [] →
          1 < Regs.remapThresh s.eng.regs →
            ∃ t, exec (.patrolRead bank flips) s = .next t ∧ t.mem = s.mem ∧ t.eng.cnt.bCorr = satInc s.eng.cnt.bCorr ∧
              t.eng.basin.level = s.eng.basin.level + 1 ∧ t.eng.basin.cand = [(w / 16, 1)] ∧
              Tab.has t.eng.basin.writeback w = true ∧ t.eng.regs = s.eng.regs ∧ t.eng.ctl = s.eng.ctl) ∧
        (r.bad ≠ 0 → Tab.find s.eng.basin.owners (w / 16) = none → remapOf s.eng (w / 16) ≠ none →
          let ev := raise s.eng evBasinFault stOutOfRange none
            (pack [(0, w / 16), (16, partOfBank s.eng.regs (w / 16 / 512)), (32, 0)]) (pack [(0, w % 16), (16, r.bad)])
          ∃ t, exec (.patrolRead bank flips) s = .next t ∧ t.mem = s.mem ∧ t.eng.cnt.bUncorr = satInc s.eng.cnt.bUncorr ∧
            t.eng.ctl.evt = ev.ctl.evt ∧ t.eng.io.hm = ev.io.hm ∧
            t.eng.cnt.bCorr = s.eng.cnt.bCorr ∧ t.eng.basin.owners = s.eng.basin.owners ∧ t.eng.valleys = s.eng.valleys ∧
            storedAt t.eng (w / 16) (w % 16) = 0)) ∧
      ((s.eng.basin.writeback.find? fun y => decide (y.2 = bank.val)) = none → exec (.basinWriteback bank) s = .next s) ∧
      (∀ k b, (s.eng.regs.remap.map (·.1)).Nodup → (s.eng.basin.writeback.find? fun y => decide (y.2 = bank.val)) = some (k, b) →
        ∃ t, exec (.basinWriteback bank) s = .next t ∧ t.mem = s.mem ∧
          storedAt t.eng (k / 16) (k % 16) = storeWord (readWord (storedAt s.eng (k / 16) (k % 16))).data ∧
          (∀ g i, (g, i) ≠ (k / 16, k % 16) → i < 16 → storedAt t.eng g i = storedAt s.eng g i) ∧
          Tab.find t.eng.basin.writeback k = none ∧ t.eng.valleys = s.eng.valleys ∧ t.eng.cnt = s.eng.cnt)) ∧
  (∀ (bank : Fin 32) (s : State), ctlOn s.eng = true →
      let b := s.eng.basin
      (Regs.bucketLeakNs s.eng.regs ≤ (s.eng.side.ts - b.leakTs).toNat → exec .bucketLeak s =
        .next { s with eng := { s.eng with basin := { b with level := b.level - 1, leakTs := s.eng.side.ts } } }) ∧
      ((s.eng.side.ts - b.leakTs).toNat < Regs.bucketLeakNs s.eng.regs → exec .bucketLeak s = .next s) ∧
      (Regs.candDecayNs s.eng.regs ≤ (s.eng.side.ts - b.candTs).toNat → exec .candDecay s =
        .next { s with eng := { s.eng with basin := { b with cand := b.cand.map (fun c => (c.1, c.2 / 2))
                                                             candTs := s.eng.side.ts } } }) ∧
      ((s.eng.side.ts - b.candTs).toNat < Regs.candDecayNs s.eng.regs → exec .candDecay s = .next s) ∧
      ((bit b.gated bank.val = true ∨ 4 ≤ stockOf s.eng bank.val) → exec (.pageOpen bank) s = .next s) ∧
      (∀ g, bit b.gated bank.val = false → stockOf s.eng bank.val < 4 → 512 * bank.val ≤ g → g < 512 * bank.val + 512 →
        pageValid s.eng g = false → (∀ j, 512 * bank.val ≤ j → j < g → pageValid s.eng j = true) →
          ∃ t, exec (.pageOpen bank) s = .next t ∧
            t = { s with eng := { s.eng with basin := { zeroWords s.eng b g with valid := Tab.set b.valid g true } } } ∧
            pageValid t.eng g = true ∧ (∀ i, i < 16 → storedAt t.eng g i = 0) ∧ t.eng.basin.owners = b.owners) ∧
      (bit b.gated bank.val = true → runningStock s.eng (partOfBank s.eng.regs bank.val) < 16 →
        exec (.bankUngate bank) s =
          .next { s with eng := { s.eng with basin := { b with gated := clrBit b.gated bank.val } } }) ∧
      ((bit b.gated bank.val = false ∨ 16 ≤ runningStock s.eng (partOfBank s.eng.regs bank.val)) →
        exec (.bankUngate bank) s = .next s) ∧
      ((∀ g ∈ s.eng.spill.zeroing, pageBusy s.eng g = true) →
        exec .spillPageZero s = .next { s with eng := advance s.mem s.eng }) ∧
      (∀ g rest, s.eng.spill.zeroing = g :: rest → pageBusy s.eng g = false →
        (readsZero s.mem s.eng (spillPageAddr s.eng g) 4096 = true →
          let f : Eng := { s.eng with spill := { s.eng.spill with zeroing := without s.eng.spill.zeroing g } }
          exec .spillPageZero s = .next { s with eng := advance s.mem f }) ∧
        (readsZero s.mem s.eng (spillPageAddr s.eng g) 4096 = false →
          ∃ f, exec .spillPageZero s = .next { s with eng := advance s.mem f } ∧
            f.spill = s.eng.spill ∧ (∃ new, f.io.acc = s.eng.io.acc ++ new ∧ new ≠ [] ∧
              ∀ r ∈ new, r.why = .zero g ∧ r.data ≠ 0) ∧ f.valleys = s.eng.valleys))) ∧
  (∀ (e f : Eng) (p g : Nat) (o : PageOwner), allocPage e p o = some (g, f) →
      Tab.has e.basin.owners g = false ∧ Tab.find f.basin.owners g = some o ∧ pageValid f g = true ∧
      (512 * (partBanks e.regs p).1 ≤ g ∧ g < 512 * ((partBanks e.regs p).1 + (partBanks e.regs p).2)) ∧
      (pageValid e g = false → ∀ i, i < 16 → storedAt f g i = 0) ∧
      (∀ h, h ≠ g → Tab.find f.basin.owners h = Tab.find e.basin.owners h ∧ pageValid f h = pageValid e h)) ∧
  (∀ (e : Eng) (gs : List Nat),
      (∀ g ∈ gs, Tab.find (freeBasin e gs).basin.owners g = none ∧ pageValid (freeBasin e gs) g = false ∧
        (∀ i, i < 16 → storedAt (freeBasin e gs) g i = 0)) ∧
      (∀ g, g ∉ gs → Tab.find (freeBasin e gs).basin.owners g = Tab.find e.basin.owners g ∧
        pageValid (freeBasin e gs) g = pageValid e g))
end

