-- ==== Sys2Proof/Laws/Tab.lean ====
section
/-!
SUPPORT. Laws/Tab.lean: reading a finite table after a write.
-/

namespace Sys2Proof.Machine

theorem Tab.get_set_same {α : Type} (d : α) (t : Tab α) (k : Nat) (x : α) : Tab.get d (Tab.set t k x) k = x := by
  induction t with
  | nil => simp [Tab.set, Tab.get]
  | cons p r ih =>
    obtain ⟨k', x'⟩ := p
    simp only [Tab.set]
    split
    · simp [Tab.get]
    · split
      · simp [Tab.get]
      · next h => simp [Tab.get, h, ih]

theorem Tab.get_set_ne {α : Type} (d : α) (t : Tab α) (k j : Nat) (x : α) (h : j ≠ k) :
    Tab.get d (Tab.set t k x) j = Tab.get d t j := by
  induction t with
  | nil => simp [Tab.set, Tab.get, h]
  | cons p r ih =>
    obtain ⟨k', x'⟩ := p
    simp only [Tab.set]
    split
    · simp [Tab.get, h]
    · split
      · next h2 => subst h2; simp [Tab.get, h]
      · simp [Tab.get, ih]

/-- Reading a table after a write. -/
theorem Tab.get_set {α : Type} (d : α) (t : Tab α) (k j : Nat) (x : α) :
    Tab.get d (Tab.set t k x) j = if j = k then x else Tab.get d t j := by
  split
  · next h => subst h; exact Tab.get_set_same d t j x
  · next h => exact Tab.get_set_ne d t k j x h

theorem Tab.get_del_same {α : Type} (d : α) (t : Tab α) (k : Nat) : Tab.get d (Tab.del t k) k = d := by
  induction t with
  | nil => rfl
  | cons p r ih =>
    obtain ⟨k', x'⟩ := p
    simp only [Tab.del]
    split
    · exact ih
    · next h => simp [Tab.get, h, ih]

theorem Tab.get_del_ne {α : Type} (d : α) (t : Tab α) (k j : Nat) (h : j ≠ k) :
    Tab.get d (Tab.del t k) j = Tab.get d t j := by
  induction t with
  | nil => rfl
  | cons p r ih =>
    obtain ⟨k', x'⟩ := p
    simp only [Tab.del]
    split
    · next h2 => subst h2; simp [Tab.get, h, ih]
    · simp [Tab.get, ih]

/-- Reading a table after a removal. -/
theorem Tab.get_del {α : Type} (d : α) (t : Tab α) (k j : Nat) :
    Tab.get d (Tab.del t k) j = if j = k then d else Tab.get d t j := by
  split
  · next h => subst h; exact Tab.get_del_same d t j
  · next h => exact Tab.get_del_ne d t k j h

theorem Tab.find_set {α : Type} (t : Tab α) (k j : Nat) (x : α) :
    Tab.find (Tab.set t k x) j = if j = k then some x else Tab.find t j := by
  induction t with
  | nil => by_cases h : j = k <;> simp [Tab.set, Tab.find, h]
  | cons p r ih =>
    obtain ⟨k', x'⟩ := p
    simp only [Tab.set]
    split
    · by_cases h : j = k <;> simp [Tab.find, h]
    · split
      · next h2 => subst h2; by_cases h : j = k <;> simp [Tab.find, h]
      · next h1 h2 =>
        by_cases h : j = k
        · subst h; simp [Tab.find, h2, ih]
        · simp [Tab.find, ih, h]

end Sys2Proof.Machine
end

