-- ==== Sys2Proof/Laws/Mem.lean ====
section
/-!
SUPPORT. Laws/Mem.lean: every operation on package memory keeps its canonical form, and what a byte reads as after it.
-/

namespace Sys2Proof.Machine

theorem Mem.wfFrom_mono {m : Mem} {a b : Nat} (h : b ≤ a) (w : Mem.wfFrom a m = true) : Mem.wfFrom b m = true := by
  cases m with
  | nil => rfl
  | cons c r =>
    obtain ⟨k, x⟩ := c
    simp only [Mem.wfFrom, Bool.and_eq_true, decide_eq_true_eq] at w ⊢
    exact ⟨⟨by omega, w.1.2⟩, w.2⟩

theorem Mem.wfFrom_set {m : Mem} {lo a : Nat} {b : Byte} (h : lo ≤ a) (hb : b ≠ Mem.unlisted)
    (w : Mem.wfFrom lo m = true) : Mem.wfFrom lo (Tab.set m a b) = true := by
  induction m generalizing lo with
  | nil => simp [Tab.set, Mem.wfFrom, h, hb]
  | cons c r ih =>
    obtain ⟨k, x⟩ := c
    simp only [Mem.wfFrom, Bool.and_eq_true, decide_eq_true_eq] at w
    simp only [Tab.set]
    split
    · next h1 =>
      simp only [Mem.wfFrom, Bool.and_eq_true, decide_eq_true_eq]
      exact ⟨⟨h, hb⟩, ⟨by omega, w.1.2⟩, w.2⟩
    · split
      · next h1 h2 =>
        subst h2
        simp only [Mem.wfFrom, Bool.and_eq_true, decide_eq_true_eq]
        exact ⟨⟨h, hb⟩, w.2⟩
      · next h1 h2 =>
        simp only [Mem.wfFrom, Bool.and_eq_true, decide_eq_true_eq]
        exact ⟨w.1, ih (by omega) w.2⟩

theorem Mem.wfFrom_del {m : Mem} {lo a : Nat} (w : Mem.wfFrom lo m = true) : Mem.wfFrom lo (Tab.del m a) = true := by
  induction m generalizing lo with
  | nil => rfl
  | cons c r ih =>
    obtain ⟨k, x⟩ := c
    simp only [Mem.wfFrom, Bool.and_eq_true, decide_eq_true_eq] at w
    simp only [Tab.del]
    split
    · exact Mem.wfFrom_mono (by omega) (ih w.2)
    · simp only [Mem.wfFrom, Bool.and_eq_true, decide_eq_true_eq]
      exact ⟨w.1, ih w.2⟩

/-- A write of one byte keeps the canonical form. -/
theorem Mem.wf_put {m : Mem} (a : Nat) (b : Byte) (w : Mem.wf m = true) : Mem.wf (Mem.put m a b) = true := by
  unfold Mem.put
  split
  · exact Mem.wfFrom_del w
  · next h => exact Mem.wfFrom_set (Nat.zero_le a) h w

/-- A fold of steps that keep the canonical form keeps it. -/
theorem Mem.wf_foldl {α : Type} (f : Mem → α → Mem) (hf : ∀ m x, Mem.wf m = true → Mem.wf (f m x) = true) (l : List α) :
    ∀ m : Mem, Mem.wf m = true → Mem.wf (l.foldl f m) = true := by
  induction l with
  | nil => intro m w; exact w
  | cons x r ih => intro m w; exact ih _ (hf m x w)

/-- The read-modify-write of an accumulate keeps the canonical form. -/
theorem Mem.wf_xorLine {m : Mem} (l : Nat) (be : BitVec 256) (d : Line) (w : Mem.wf m = true) :
    Mem.wf (Mem.xorLine m l be d) = true := by
  refine Mem.wf_foldl _ (fun m i h => ?_) _ m w
  split
  · exact Mem.wf_put _ _ h
  · exact h

/-- A coded write keeps the canonical form. -/
theorem Mem.wf_writeLine {m : Mem} (l : Nat) (be : BitVec 256) (x : Line) (w : Mem.wf m = true) :
    Mem.wf (Mem.writeLine m l be x) = true := by
  refine Mem.wf_foldl _ (fun m i h => ?_) _ m w
  split
  · exact Mem.wf_put _ _ h
  · exact h

/-- A copy into package memory keeps the canonical form. -/
theorem Mem.wf_writeBytes (bs : List Byte) : ∀ (m : Mem) (a : Nat), Mem.wf m = true →
    Mem.wf (Mem.writeBytes m a bs) = true := by
  induction bs with
  | nil => intro m a w; exact w
  | cons b r ih => intro m a w; exact ih _ _ (Mem.wf_put a b w)

/-- What a byte reads as after a write of one byte. -/
theorem Mem.get_put (m : Mem) (a c : Nat) (b : Byte) :
    Mem.get (Mem.put m a b) c = if c = a then b else Mem.get m c := by
  unfold Mem.put Mem.get
  split
  · next h => rw [Tab.get_del]; split <;> simp_all
  · rw [Tab.get_set]

end Sys2Proof.Machine
end

