-- ==== Sys2Proof/Laws/State.lean ====
section
/-!
SUPPORT. Laws/State.lean: what each update of `Eng` leaves of its fields, one lemma per field, true by rfl.
-/

namespace Sys2Proof.Machine

@[simp] theorem setV_side (e : Eng) (v : Nat) (x : Valley) : (setV e v x).side = e.side := rfl
@[simp] theorem setV_ctl (e : Eng) (v : Nat) (x : Valley) : (setV e v x).ctl = e.ctl := rfl
@[simp] theorem setV_regs (e : Eng) (v : Nat) (x : Valley) : (setV e v x).regs = e.regs := rfl
@[simp] theorem setV_cnt (e : Eng) (v : Nat) (x : Valley) : (setV e v x).cnt = e.cnt := rfl
@[simp] theorem setV_lanes (e : Eng) (v : Nat) (x : Valley) : (setV e v x).lanes = e.lanes := rfl
@[simp] theorem setV_basin (e : Eng) (v : Nat) (x : Valley) : (setV e v x).basin = e.basin := rfl
@[simp] theorem setV_spill (e : Eng) (v : Nat) (x : Valley) : (setV e v x).spill = e.spill := rfl
@[simp] theorem setV_regions (e : Eng) (v : Nat) (x : Valley) : (setV e v x).regions = e.regions := rfl
@[simp] theorem setV_seeds (e : Eng) (v : Nat) (x : Valley) : (setV e v x).seeds = e.seeds := rfl
@[simp] theorem setV_io (e : Eng) (v : Nat) (x : Valley) : (setV e v x).io = e.io := rfl

@[simp] theorem updV_side (e : Eng) (v : Nat) (f : Valley → Valley) : (updV e v f).side = e.side := rfl
@[simp] theorem updV_ctl (e : Eng) (v : Nat) (f : Valley → Valley) : (updV e v f).ctl = e.ctl := rfl
@[simp] theorem updV_regs (e : Eng) (v : Nat) (f : Valley → Valley) : (updV e v f).regs = e.regs := rfl
@[simp] theorem updV_cnt (e : Eng) (v : Nat) (f : Valley → Valley) : (updV e v f).cnt = e.cnt := rfl
@[simp] theorem updV_lanes (e : Eng) (v : Nat) (f : Valley → Valley) : (updV e v f).lanes = e.lanes := rfl
@[simp] theorem updV_basin (e : Eng) (v : Nat) (f : Valley → Valley) : (updV e v f).basin = e.basin := rfl
@[simp] theorem updV_spill (e : Eng) (v : Nat) (f : Valley → Valley) : (updV e v f).spill = e.spill := rfl
@[simp] theorem updV_regions (e : Eng) (v : Nat) (f : Valley → Valley) : (updV e v f).regions = e.regions := rfl
@[simp] theorem updV_seeds (e : Eng) (v : Nat) (f : Valley → Valley) : (updV e v f).seeds = e.seeds := rfl
@[simp] theorem updV_io (e : Eng) (v : Nat) (f : Valley → Valley) : (updV e v f).io = e.io := rfl

@[simp] theorem updLane_side (e : Eng) (i : Nat) (f : Lane → Lane) : (updLane e i f).side = e.side := rfl
@[simp] theorem updLane_ctl (e : Eng) (i : Nat) (f : Lane → Lane) : (updLane e i f).ctl = e.ctl := rfl
@[simp] theorem updLane_regs (e : Eng) (i : Nat) (f : Lane → Lane) : (updLane e i f).regs = e.regs := rfl
@[simp] theorem updLane_cnt (e : Eng) (i : Nat) (f : Lane → Lane) : (updLane e i f).cnt = e.cnt := rfl
@[simp] theorem updLane_basin (e : Eng) (i : Nat) (f : Lane → Lane) : (updLane e i f).basin = e.basin := rfl
@[simp] theorem updLane_spill (e : Eng) (i : Nat) (f : Lane → Lane) : (updLane e i f).spill = e.spill := rfl
@[simp] theorem updLane_regions (e : Eng) (i : Nat) (f : Lane → Lane) : (updLane e i f).regions = e.regions := rfl
@[simp] theorem updLane_valleys (e : Eng) (i : Nat) (f : Lane → Lane) : (updLane e i f).valleys = e.valleys := rfl
@[simp] theorem updLane_seeds (e : Eng) (i : Nat) (f : Lane → Lane) : (updLane e i f).seeds = e.seeds := rfl
@[simp] theorem updLane_io (e : Eng) (i : Nat) (f : Lane → Lane) : (updLane e i f).io = e.io := rfl

@[simp] theorem updQ_side (e : Eng) (q : Nat) (f : Queue → Queue) : (updQ e q f).side = e.side := rfl
@[simp] theorem updQ_regs (e : Eng) (q : Nat) (f : Queue → Queue) : (updQ e q f).regs = e.regs := rfl
@[simp] theorem updQ_cnt (e : Eng) (q : Nat) (f : Queue → Queue) : (updQ e q f).cnt = e.cnt := rfl
@[simp] theorem updQ_lanes (e : Eng) (q : Nat) (f : Queue → Queue) : (updQ e q f).lanes = e.lanes := rfl
@[simp] theorem updQ_basin (e : Eng) (q : Nat) (f : Queue → Queue) : (updQ e q f).basin = e.basin := rfl
@[simp] theorem updQ_spill (e : Eng) (q : Nat) (f : Queue → Queue) : (updQ e q f).spill = e.spill := rfl
@[simp] theorem updQ_regions (e : Eng) (q : Nat) (f : Queue → Queue) : (updQ e q f).regions = e.regions := rfl
@[simp] theorem updQ_valleys (e : Eng) (q : Nat) (f : Queue → Queue) : (updQ e q f).valleys = e.valleys := rfl
@[simp] theorem updQ_seeds (e : Eng) (q : Nat) (f : Queue → Queue) : (updQ e q f).seeds = e.seeds := rfl
@[simp] theorem updQ_io (e : Eng) (q : Nat) (f : Queue → Queue) : (updQ e q f).io = e.io := rfl

@[simp] theorem updR_side (e : Eng) (d : Nat) (f : Region → Region) : (updR e d f).side = e.side := rfl
@[simp] theorem updR_ctl (e : Eng) (d : Nat) (f : Region → Region) : (updR e d f).ctl = e.ctl := rfl
@[simp] theorem updR_regs (e : Eng) (d : Nat) (f : Region → Region) : (updR e d f).regs = e.regs := rfl
@[simp] theorem updR_cnt (e : Eng) (d : Nat) (f : Region → Region) : (updR e d f).cnt = e.cnt := rfl
@[simp] theorem updR_lanes (e : Eng) (d : Nat) (f : Region → Region) : (updR e d f).lanes = e.lanes := rfl
@[simp] theorem updR_basin (e : Eng) (d : Nat) (f : Region → Region) : (updR e d f).basin = e.basin := rfl
@[simp] theorem updR_spill (e : Eng) (d : Nat) (f : Region → Region) : (updR e d f).spill = e.spill := rfl
@[simp] theorem updR_valleys (e : Eng) (d : Nat) (f : Region → Region) : (updR e d f).valleys = e.valleys := rfl
@[simp] theorem updR_seeds (e : Eng) (d : Nat) (f : Region → Region) : (updR e d f).seeds = e.seeds := rfl
@[simp] theorem updR_io (e : Eng) (d : Nat) (f : Region → Region) : (updR e d f).io = e.io := rfl

@[simp] theorem updEvt_side (e : Eng) (f : EvtRing → EvtRing) : (updEvt e f).side = e.side := rfl
@[simp] theorem updEvt_regs (e : Eng) (f : EvtRing → EvtRing) : (updEvt e f).regs = e.regs := rfl
@[simp] theorem updEvt_cnt (e : Eng) (f : EvtRing → EvtRing) : (updEvt e f).cnt = e.cnt := rfl
@[simp] theorem updEvt_lanes (e : Eng) (f : EvtRing → EvtRing) : (updEvt e f).lanes = e.lanes := rfl
@[simp] theorem updEvt_basin (e : Eng) (f : EvtRing → EvtRing) : (updEvt e f).basin = e.basin := rfl
@[simp] theorem updEvt_spill (e : Eng) (f : EvtRing → EvtRing) : (updEvt e f).spill = e.spill := rfl
@[simp] theorem updEvt_regions (e : Eng) (f : EvtRing → EvtRing) : (updEvt e f).regions = e.regions := rfl
@[simp] theorem updEvt_valleys (e : Eng) (f : EvtRing → EvtRing) : (updEvt e f).valleys = e.valleys := rfl
@[simp] theorem updEvt_seeds (e : Eng) (f : EvtRing → EvtRing) : (updEvt e f).seeds = e.seeds := rfl
@[simp] theorem updEvt_io (e : Eng) (f : EvtRing → EvtRing) : (updEvt e f).io = e.io := rfl

@[simp] theorem updIo_side (e : Eng) (f : Io → Io) : (updIo e f).side = e.side := rfl
@[simp] theorem updIo_ctl (e : Eng) (f : Io → Io) : (updIo e f).ctl = e.ctl := rfl
@[simp] theorem updIo_regs (e : Eng) (f : Io → Io) : (updIo e f).regs = e.regs := rfl
@[simp] theorem updIo_cnt (e : Eng) (f : Io → Io) : (updIo e f).cnt = e.cnt := rfl
@[simp] theorem updIo_lanes (e : Eng) (f : Io → Io) : (updIo e f).lanes = e.lanes := rfl
@[simp] theorem updIo_basin (e : Eng) (f : Io → Io) : (updIo e f).basin = e.basin := rfl
@[simp] theorem updIo_spill (e : Eng) (f : Io → Io) : (updIo e f).spill = e.spill := rfl
@[simp] theorem updIo_regions (e : Eng) (f : Io → Io) : (updIo e f).regions = e.regions := rfl
@[simp] theorem updIo_valleys (e : Eng) (f : Io → Io) : (updIo e f).valleys = e.valleys := rfl
@[simp] theorem updIo_seeds (e : Eng) (f : Io → Io) : (updIo e f).seeds = e.seeds := rfl

@[simp] theorem drop_side (e : Eng) (c : Nat) : (drop e c).side = e.side := rfl
@[simp] theorem drop_ctl (e : Eng) (c : Nat) : (drop e c).ctl = e.ctl := rfl
@[simp] theorem drop_regs (e : Eng) (c : Nat) : (drop e c).regs = e.regs := rfl
@[simp] theorem drop_lanes (e : Eng) (c : Nat) : (drop e c).lanes = e.lanes := rfl
@[simp] theorem drop_basin (e : Eng) (c : Nat) : (drop e c).basin = e.basin := rfl
@[simp] theorem drop_spill (e : Eng) (c : Nat) : (drop e c).spill = e.spill := rfl
@[simp] theorem drop_regions (e : Eng) (c : Nat) : (drop e c).regions = e.regions := rfl
@[simp] theorem drop_valleys (e : Eng) (c : Nat) : (drop e c).valleys = e.valleys := rfl
@[simp] theorem drop_seeds (e : Eng) (c : Nat) : (drop e c).seeds = e.seeds := rfl
@[simp] theorem drop_io (e : Eng) (c : Nat) : (drop e c).io = e.io := rfl

@[simp] theorem dropN_side (e : Eng) (c n : Nat) : (dropN e c n).side = e.side := rfl
@[simp] theorem dropN_ctl (e : Eng) (c n : Nat) : (dropN e c n).ctl = e.ctl := rfl
@[simp] theorem dropN_regs (e : Eng) (c n : Nat) : (dropN e c n).regs = e.regs := rfl
@[simp] theorem dropN_lanes (e : Eng) (c n : Nat) : (dropN e c n).lanes = e.lanes := rfl
@[simp] theorem dropN_basin (e : Eng) (c n : Nat) : (dropN e c n).basin = e.basin := rfl
@[simp] theorem dropN_spill (e : Eng) (c n : Nat) : (dropN e c n).spill = e.spill := rfl
@[simp] theorem dropN_regions (e : Eng) (c n : Nat) : (dropN e c n).regions = e.regions := rfl
@[simp] theorem dropN_valleys (e : Eng) (c n : Nat) : (dropN e c n).valleys = e.valleys := rfl
@[simp] theorem dropN_seeds (e : Eng) (c n : Nat) : (dropN e c n).seeds = e.seeds := rfl
@[simp] theorem dropN_io (e : Eng) (c n : Nat) : (dropN e c n).io = e.io := rfl

@[simp] theorem refuseAt_side (e : Eng) (t : Nat) : (refuseAt e t).side = e.side := rfl
@[simp] theorem refuseAt_ctl (e : Eng) (t : Nat) : (refuseAt e t).ctl = e.ctl := rfl
@[simp] theorem refuseAt_regs (e : Eng) (t : Nat) : (refuseAt e t).regs = e.regs := rfl
@[simp] theorem refuseAt_lanes (e : Eng) (t : Nat) : (refuseAt e t).lanes = e.lanes := rfl
@[simp] theorem refuseAt_basin (e : Eng) (t : Nat) : (refuseAt e t).basin = e.basin := rfl
@[simp] theorem refuseAt_spill (e : Eng) (t : Nat) : (refuseAt e t).spill = e.spill := rfl
@[simp] theorem refuseAt_regions (e : Eng) (t : Nat) : (refuseAt e t).regions = e.regions := rfl
@[simp] theorem refuseAt_valleys (e : Eng) (t : Nat) : (refuseAt e t).valleys = e.valleys := rfl
@[simp] theorem refuseAt_seeds (e : Eng) (t : Nat) : (refuseAt e t).seeds = e.seeds := rfl
@[simp] theorem refuseAt_io (e : Eng) (t : Nat) : (refuseAt e t).io = e.io := rfl

@[simp] theorem cfgError_side (e : Eng) : (cfgError e).side = e.side := rfl
@[simp] theorem cfgError_regs (e : Eng) : (cfgError e).regs = e.regs := rfl
@[simp] theorem cfgError_cnt (e : Eng) : (cfgError e).cnt = e.cnt := rfl
@[simp] theorem cfgError_lanes (e : Eng) : (cfgError e).lanes = e.lanes := rfl
@[simp] theorem cfgError_basin (e : Eng) : (cfgError e).basin = e.basin := rfl
@[simp] theorem cfgError_spill (e : Eng) : (cfgError e).spill = e.spill := rfl
@[simp] theorem cfgError_regions (e : Eng) : (cfgError e).regions = e.regions := rfl
@[simp] theorem cfgError_valleys (e : Eng) : (cfgError e).valleys = e.valleys := rfl
@[simp] theorem cfgError_seeds (e : Eng) : (cfgError e).seeds = e.seeds := rfl
@[simp] theorem cfgError_io (e : Eng) : (cfgError e).io = e.io := rfl

@[simp] theorem cfgLock_side (e : Eng) : (cfgLock e).side = e.side := rfl
@[simp] theorem cfgLock_regs (e : Eng) : (cfgLock e).regs = e.regs := rfl
@[simp] theorem cfgLock_cnt (e : Eng) : (cfgLock e).cnt = e.cnt := rfl
@[simp] theorem cfgLock_lanes (e : Eng) : (cfgLock e).lanes = e.lanes := rfl
@[simp] theorem cfgLock_basin (e : Eng) : (cfgLock e).basin = e.basin := rfl
@[simp] theorem cfgLock_spill (e : Eng) : (cfgLock e).spill = e.spill := rfl
@[simp] theorem cfgLock_regions (e : Eng) : (cfgLock e).regions = e.regions := rfl
@[simp] theorem cfgLock_valleys (e : Eng) : (cfgLock e).valleys = e.valleys := rfl
@[simp] theorem cfgLock_seeds (e : Eng) : (cfgLock e).seeds = e.seeds := rfl
@[simp] theorem cfgLock_io (e : Eng) : (cfgLock e).io = e.io := rfl

@[simp] theorem updIo_io (e : Eng) (f : Io → Io) : (updIo e f).io = f e.io := rfl
@[simp] theorem updEvt_evt (e : Eng) (f : EvtRing → EvtRing) : (updEvt e f).ctl.evt = f e.ctl.evt := rfl
@[simp] theorem updEvt_queues (e : Eng) (f : EvtRing → EvtRing) : (updEvt e f).ctl.queues = e.ctl.queues := rfl
@[simp] theorem updQ_evt (e : Eng) (q : Nat) (f : Queue → Queue) : (updQ e q f).ctl.evt = e.ctl.evt := rfl
@[simp] theorem updQ_irq (e : Eng) (q : Nat) (f : Queue → Queue) : (updQ e q f).ctl.irq = e.ctl.irq := rfl
@[simp] theorem updQ_cpHaltBit (e : Eng) (q : Nat) (f : Queue → Queue) : (updQ e q f).ctl.cpHaltBit = e.ctl.cpHaltBit := rfl

@[simp] theorem dropHead_side (e : Eng) (q : Nat) : (dropHead e q).side = e.side := rfl
@[simp] theorem dropHead_regs (e : Eng) (q : Nat) : (dropHead e q).regs = e.regs := rfl
@[simp] theorem dropHead_cnt (e : Eng) (q : Nat) : (dropHead e q).cnt = e.cnt := rfl
@[simp] theorem dropHead_lanes (e : Eng) (q : Nat) : (dropHead e q).lanes = e.lanes := rfl
@[simp] theorem dropHead_basin (e : Eng) (q : Nat) : (dropHead e q).basin = e.basin := rfl
@[simp] theorem dropHead_spill (e : Eng) (q : Nat) : (dropHead e q).spill = e.spill := rfl
@[simp] theorem dropHead_regions (e : Eng) (q : Nat) : (dropHead e q).regions = e.regions := rfl
@[simp] theorem dropHead_valleys (e : Eng) (q : Nat) : (dropHead e q).valleys = e.valleys := rfl
@[simp] theorem dropHead_seeds (e : Eng) (q : Nat) : (dropHead e q).seeds = e.seeds := rfl
@[simp] theorem dropHead_io (e : Eng) (q : Nat) : (dropHead e q).io = e.io := rfl

@[simp] theorem setSurvey_side (e : Eng) (v : Nat) (r : Option FlashRead) : (setSurvey e v r).side = e.side := rfl
@[simp] theorem setSurvey_ctl (e : Eng) (v : Nat) (r : Option FlashRead) : (setSurvey e v r).ctl = e.ctl := rfl
@[simp] theorem setSurvey_regs (e : Eng) (v : Nat) (r : Option FlashRead) : (setSurvey e v r).regs = e.regs := rfl
@[simp] theorem setSurvey_cnt (e : Eng) (v : Nat) (r : Option FlashRead) : (setSurvey e v r).cnt = e.cnt := rfl
@[simp] theorem setSurvey_lanes (e : Eng) (v : Nat) (r : Option FlashRead) : (setSurvey e v r).lanes = e.lanes := rfl
@[simp] theorem setSurvey_basin (e : Eng) (v : Nat) (r : Option FlashRead) : (setSurvey e v r).basin = e.basin := rfl
@[simp] theorem setSurvey_spill (e : Eng) (v : Nat) (r : Option FlashRead) : (setSurvey e v r).spill = e.spill := rfl
@[simp] theorem setSurvey_regions (e : Eng) (v : Nat) (r : Option FlashRead) : (setSurvey e v r).regions = e.regions := rfl
@[simp] theorem setSurvey_seeds (e : Eng) (v : Nat) (r : Option FlashRead) : (setSurvey e v r).seeds = e.seeds := rfl
@[simp] theorem setSurvey_io (e : Eng) (v : Nat) (r : Option FlashRead) : (setSurvey e v r).io = e.io := rfl

@[simp] theorem putRun_side (e : Eng) (v : Nat) (r : Run) : (putRun e v r).side = e.side := rfl
@[simp] theorem putRun_ctl (e : Eng) (v : Nat) (r : Run) : (putRun e v r).ctl = e.ctl := rfl
@[simp] theorem putRun_regs (e : Eng) (v : Nat) (r : Run) : (putRun e v r).regs = e.regs := rfl
@[simp] theorem putRun_cnt (e : Eng) (v : Nat) (r : Run) : (putRun e v r).cnt = e.cnt := rfl
@[simp] theorem putRun_lanes (e : Eng) (v : Nat) (r : Run) : (putRun e v r).lanes = e.lanes := rfl
@[simp] theorem putRun_basin (e : Eng) (v : Nat) (r : Run) : (putRun e v r).basin = e.basin := rfl
@[simp] theorem putRun_spill (e : Eng) (v : Nat) (r : Run) : (putRun e v r).spill = e.spill := rfl
@[simp] theorem putRun_regions (e : Eng) (v : Nat) (r : Run) : (putRun e v r).regions = e.regions := rfl
@[simp] theorem putRun_seeds (e : Eng) (v : Nat) (r : Run) : (putRun e v r).seeds = e.seeds := rfl
@[simp] theorem putRun_io (e : Eng) (v : Nat) (r : Run) : (putRun e v r).io = e.io := rfl

end Sys2Proof.Machine
end

