-- ==== Sys2Proof/Laws/Ops.lean ====
section
/-!
SUPPORT. Laws/Ops.lean: events, interrupts and replies change nothing but what `OnlyAnswers` names; what a driver command
leaves behind.
-/

namespace Sys2Proof.Machine

theorem OnlyAnswers.refl (e : Eng) : OnlyAnswers e e := ⟨rfl, List.suffix_refl _⟩

theorem OnlyAnswers.trans {e f g : Eng} (h : OnlyAnswers e f) (k : OnlyAnswers f g) : OnlyAnswers e g := by
  obtain ⟨h, hs⟩ := h
  obtain ⟨k, ks⟩ := k
  refine ⟨?_, hs.trans ks⟩
  rw [h] at k
  exact k

theorem OnlyAnswers.side {e f : Eng} (h : OnlyAnswers e f) : f.side = e.side := by rw [h.1]
theorem OnlyAnswers.regs {e f : Eng} (h : OnlyAnswers e f) : f.regs = e.regs := by rw [h.1]
theorem OnlyAnswers.lanes {e f : Eng} (h : OnlyAnswers e f) : f.lanes = e.lanes := by rw [h.1]
theorem OnlyAnswers.basin {e f : Eng} (h : OnlyAnswers e f) : f.basin = e.basin := by rw [h.1]
theorem OnlyAnswers.spill {e f : Eng} (h : OnlyAnswers e f) : f.spill = e.spill := by rw [h.1]
theorem OnlyAnswers.regions {e f : Eng} (h : OnlyAnswers e f) : f.regions = e.regions := by rw [h.1]
theorem OnlyAnswers.valleys {e f : Eng} (h : OnlyAnswers e f) : f.valleys = e.valleys := by rw [h.1]
theorem OnlyAnswers.seeds {e f : Eng} (h : OnlyAnswers e f) : f.seeds = e.seeds := by rw [h.1]
theorem OnlyAnswers.getV {e f : Eng} (h : OnlyAnswers e f) (v : Nat) : getV f v = getV e v := by
  simp [Machine.getV, h.valleys]
theorem OnlyAnswers.getR {e f : Eng} (h : OnlyAnswers e f) (d : Nat) : getR f d = getR e d := by
  simp [Machine.getR, h.regions]
theorem OnlyAnswers.getLane {e f : Eng} (h : OnlyAnswers e f) (d : Nat) : getLane f d = getLane e d := by
  simp [Machine.getLane, h.lanes]
theorem OnlyAnswers.acc {e f : Eng} (h : OnlyAnswers e f) : f.io.acc = e.io.acc := by rw [h.1]
theorem OnlyAnswers.ctlOut {e f : Eng} (h : OnlyAnswers e f) : f.io.ctlOut = e.io.ctlOut := by rw [h.1]
theorem OnlyAnswers.keys {e f : Eng} (h : OnlyAnswers e f) : f.ctl.keys = e.ctl.keys := by rw [h.1]
theorem OnlyAnswers.grants {e f : Eng} (h : OnlyAnswers e f) : f.ctl.grants = e.ctl.grants := by rw [h.1]

/-! ## Events -/

theorem OnlyEvents.refl (e : Eng) : OnlyEvents e e := ⟨rfl, List.suffix_refl _⟩

theorem OnlyEvents.trans {e f g : Eng} (h : OnlyEvents e f) (k : OnlyEvents f g) : OnlyEvents e g := by
  obtain ⟨h, hs⟩ := h
  obtain ⟨k, ks⟩ := k
  refine ⟨?_, hs.trans ks⟩
  rw [h] at k
  exact k

theorem OnlyEvents.answers {e f : Eng} (h : OnlyEvents e f) : OnlyAnswers e f := by
  obtain ⟨h, hs⟩ := h
  refine ⟨?_, hs⟩
  rw [h]

theorem OnlyEvents.corrects {e f : Eng} (h : OnlyEvents e f) : OnlyCorrects e f := by
  obtain ⟨h, hs⟩ := h
  refine ⟨?_, hs⟩
  rw [h]

theorem OnlyEvents.queues {e f : Eng} (h : OnlyEvents e f) : f.ctl.queues = e.ctl.queues := by rw [h.1]

theorem onlyEvents_updEvt (e : Eng) (f : EvtRing → EvtRing) : OnlyEvents e (updEvt e f) := ⟨rfl, List.suffix_refl _⟩
theorem onlyEvents_drop (e : Eng) (c : Nat) : OnlyEvents e (drop e c) := ⟨rfl, List.suffix_refl _⟩
theorem onlyEvents_hm (e : Eng) (w : HmWrite) : OnlyEvents e (updIo e fun io => { io with hm := w :: io.hm }) :=
  ⟨rfl, List.suffix_cons _ _⟩

theorem onlyEvents_sendIrq (e : Eng) (n : Nat) : OnlyEvents e (sendIrq e n) := by
  unfold sendIrq
  split
  · exact .refl e
  · exact ⟨rfl, List.suffix_refl _⟩

theorem onlyEvents_sendIrq66 (e : Eng) : OnlyEvents e (sendIrq66 e) := by
  have h := onlyEvents_sendIrq e 66
  unfold sendIrq66
  dsimp only
  split
  · split
    · exact ⟨rfl, List.suffix_refl _⟩
    · exact h.trans ⟨rfl, List.suffix_refl _⟩
  · split
    · exact ⟨rfl, List.suffix_refl _⟩
    · exact h.trans ⟨rfl, List.suffix_refl _⟩

theorem onlyEvents_evtWrite (e : Eng) (r : EvRec) : OnlyEvents e (evtWrite e r) := by
  unfold evtWrite
  dsimp only
  split
  · exact ((onlyEvents_hm _ _).trans (onlyEvents_updEvt _ _)).trans (onlyEvents_sendIrq66 _)
  · exact ((onlyEvents_hm _ _).trans (onlyEvents_updEvt _ _)).trans (onlyEvents_sendIrq _ _)

theorem onlyEvents_evtFlush : ∀ (n : Nat) (e : Eng), OnlyEvents e (evtFlush n e)
  | 0, e => .refl e
  | n + 1, e => by
    unfold evtFlush
    split
    · exact .refl e
    · split
      · dsimp only [evtNumber]
        exact (((onlyEvents_updEvt _ _).trans (onlyEvents_updEvt _ _)).trans (onlyEvents_evtWrite _ _)).trans
          (onlyEvents_evtFlush n _)
      · split
        · exact .refl e
        · exact ((onlyEvents_updEvt _ _).trans (onlyEvents_evtWrite _ _)).trans (onlyEvents_evtFlush n _)

/-- An event changes nothing but the event ring, interrupts, host memory writes and the drop counters. -/
theorem onlyEvents_raiseFn (e : Eng) (fn : Byte) (code st : W16) (v : Option Nat) (r0 r1 : W64) :
    OnlyEvents e (raiseFn e fn code st v r0 r1) := by
  unfold raiseFn
  dsimp only [evtNumber]
  split
  · exact (onlyEvents_updEvt _ _).trans (onlyEvents_evtWrite _ _)
  · split
    · exact ((onlyEvents_updEvt _ _).trans (onlyEvents_updEvt _ _)).trans (onlyEvents_evtFlush _ _)
    · exact ((onlyEvents_updEvt _ _).trans (onlyEvents_drop _ _)).trans (onlyEvents_updEvt _ _)

theorem onlyEvents_raise (e : Eng) (code st : W16) (v : Option Nat) (r0 r1 : W64) :
    OnlyEvents e (raise e code st v r0 r1) := onlyEvents_raiseFn _ _ _ _ _ _ _

/-- An event changes nothing but what answers change. -/
theorem onlyAnswers_raise (e : Eng) (code st : W16) (v : Option Nat) (r0 r1 : W64) :
    OnlyAnswers e (raise e code st v r0 r1) := (onlyEvents_raise _ _ _ _ _ _).answers

/-- An event leaves the queues as they are. -/
theorem raise_queues (e : Eng) (code st : W16) (v : Option Nat) (r0 r1 : W64) :
    (raise e code st v r0 r1).ctl.queues = e.ctl.queues := (onlyEvents_raise _ _ _ _ _ _).queues

/-! ## Replies -/

theorem onlyAnswers_updQ (e : Eng) (q : Nat) (f : Queue → Queue) : OnlyAnswers e (updQ e q f) :=
  ⟨rfl, List.suffix_refl _⟩

/-- The final QUEUE_FAULT of a stopped queue changes nothing but what answers change. -/
theorem onlyAnswers_queueFinal (e : Eng) (q : Nat) : OnlyAnswers e (queueFinal e q) := by
  unfold queueFinal
  dsimp only
  split
  · exact (onlyAnswers_updQ _ _ _).trans (onlyEvents_raiseFn _ _ _ _ _ _ _).answers
  · exact .refl e

/-- That a queue's newest reply is written for good changes nothing but what answers change. -/
theorem onlyAnswers_replyWritten (e : Eng) (q : Nat) : OnlyAnswers e (replyWritten e q) := by
  unfold replyWritten
  dsimp only
  split
  · refine .trans ?_ (onlyAnswers_updQ _ _ _)
    split
    · exact (onlyAnswers_updQ _ _ _).trans (onlyAnswers_queueFinal _ _)
    · exact onlyAnswers_updQ _ _ _
  · exact .refl e

/-- A written reply adds its record, and changes nothing but what answers change. -/
theorem writeReply_answered (e : Eng) (c : Cmd) (st : W16) (r0 r1 : W64) :
    OnlyAnswers e (writeReply e c st r0 r1) ∧ Answered e (writeReply e c st r0 r1) c st r0 r1 := by
  have tail : OnlyAnswers (updIo e fun io => { io with hm := replyRecord e c st r0 r1 :: io.hm })
      (writeReply e c st r0 r1) := by
    unfold writeReply
    refine .trans ?_ (onlyAnswers_updQ _ _ _)
    split
    · exact onlyAnswers_updQ _ _ _
    · exact (onlyAnswers_updQ _ _ _).trans (onlyEvents_sendIrq _ _).answers
  refine ⟨(onlyEvents_hm _ _).answers.trans tail, ?_⟩
  obtain ⟨l, hl⟩ := tail.2
  exact ⟨l ++ [replyRecord e c st r0 r1], by rw [← hl]; simp, by simp⟩

/-- Ending a command changes nothing but what answers change. -/
theorem onlyAnswers_reply (e : Eng) (c : Cmd) (st : W16) (r0 r1 : W64) : OnlyAnswers e (reply e c st r0 r1) := by
  unfold reply
  split
  · exact ⟨rfl, List.suffix_refl _⟩
  · exact (writeReply_answered e c st r0 r1).1

/-- While the control processor runs, ending a command writes its record. -/
theorem reply_answered (e : Eng) (c : Cmd) (st : W16) (r0 r1 : W64) (h : e.ctl.cpHaltBit = false) :
    Answered e (reply e c st r0 r1) c st r0 r1 := by
  simp only [reply, h]
  exact (writeReply_answered e c st r0 r1).2

/-- Taking the head packet off its queue changes nothing but what answers change. -/
theorem onlyAnswers_dropHead (e : Eng) (q : Nat) : OnlyAnswers e (dropHead e q) := ⟨rfl, List.suffix_refl _⟩

theorem onlyAnswers_answerUnlisted : ∀ (n : Nat) (e : Eng), OnlyAnswers e (answerUnlisted n e)
  | 0, e => .refl e
  | n + 1, e => by
    unfold answerUnlisted
    split
    · exact .refl e
    · split
      · exact .refl e
      · split
        · exact .refl e
        · exact ((onlyAnswers_dropHead _ _).trans (onlyAnswers_reply _ _ _ _ _)).trans (onlyAnswers_answerUnlisted n _)

/-- Answering packets whose opcode no row has changes nothing but what answers change. -/
theorem onlyAnswers_answerAll (e : Eng) : OnlyAnswers e (answerAll e) := onlyAnswers_answerUnlisted 8192 e

/-- What was answered stays answered. -/
theorem Answered.later {e f g : Eng} {c : Cmd} {st : W16} {r0 r1 : W64} (h : Answered e f c st r0 r1)
    (k : OnlyAnswers f g) : Answered e g c st r0 r1 := by
  obtain ⟨l, hl, hm⟩ := h
  obtain ⟨l', hl'⟩ := k.2
  exact ⟨l' ++ l, by rw [← hl', hl, List.append_assoc], List.mem_append_right _ hm⟩

/-- An answer given from an engine whose queue and clock are those of an earlier one is an answer to the earlier one. -/
theorem Answered.earlier {e f g : Eng} {c : Cmd} {st : W16} {r0 r1 : W64} (h : Answered f g c st r0 r1)
    (ts : f.side.ts = e.side.ts) (b : (getQ f c.q).baseCpl = (getQ e c.q).baseCpl)
    (i : (getQ f c.q).reply = (getQ e c.q).reply) (ph : (getQ f c.q).phase = (getQ e c.q).phase)
    (hm : e.io.hm <:+ f.io.hm) : Answered e g c st r0 r1 := by
  obtain ⟨l, hl, hr⟩ := h
  obtain ⟨l', hl'⟩ := hm
  refine ⟨l ++ l', by rw [hl, ← hl', List.append_assoc], List.mem_append_left _ ?_⟩
  have : replyRecord e c st r0 r1 = replyRecord f c st r0 r1 := by simp [replyRecord, ts, b, i, ph]
  rw [this]
  exact hr

/-- What a driver command leaves: with its packet `p` ready at the head of queue `q` and no check of R250 failing, its
entry `f` runs on the engine without that packet, and only answers follow. -/
theorem runCmd_runs {q op : Nat} {s : State} {f : Eng → Cmd → BitVec 512 → Eng} {p : BitVec 512}
    (h : headReady s.eng q = some p) (ho : (pkOp p).toNat = op) (hc : preCheck (popHead s.eng q) q p = none) :
    (runCmd q op s f).mem = s.mem ∧ (runCmd q op s f).pending = s.pending ∧
      OnlyAnswers (f (popHead s.eng q) (cmdOf q p) p) (runCmd q op s f).eng := by
  have r : runCmd q op s f = { s with eng := answerAll (f (popHead s.eng q) (cmdOf q p) p) } := by
    simp [runCmd, h, ho, hc]
  rw [r]
  exact ⟨rfl, rfl, onlyAnswers_answerAll _⟩

theorem runCmd_mem (q op : Nat) (s : State) (f : Eng → Cmd → BitVec 512 → Eng) : (runCmd q op s f).mem = s.mem := by
  unfold runCmd
  split
  · rfl
  · split <;> rfl

theorem runCmd_pending (q op : Nat) (s : State) (f : Eng → Cmd → BitVec 512 → Eng) :
    (runCmd q op s f).pending = s.pending := by
  unfold runCmd
  split
  · rfl
  · split <;> rfl

/-! ## Corrections of Basin words -/

theorem OnlyCorrects.refl (e : Eng) : OnlyCorrects e e := ⟨rfl, List.suffix_refl _⟩

theorem OnlyCorrects.trans {e f g : Eng} (h : OnlyCorrects e f) (k : OnlyCorrects f g) : OnlyCorrects e g := by
  obtain ⟨h, hs⟩ := h
  obtain ⟨k, ks⟩ := k
  refine ⟨?_, hs.trans ks⟩
  rw [h] at k
  exact k

theorem OnlyCorrects.queues {e f : Eng} (h : OnlyCorrects e f) : f.ctl.queues = e.ctl.queues := by rw [h.1]
theorem OnlyCorrects.side {e f : Eng} (h : OnlyCorrects e f) : f.side = e.side := by rw [h.1]
theorem OnlyCorrects.valleys {e f : Eng} (h : OnlyCorrects e f) : f.valleys = e.valleys := by rw [h.1]
theorem OnlyCorrects.regions {e f : Eng} (h : OnlyCorrects e f) : f.regions = e.regions := by rw [h.1]
theorem OnlyCorrects.lanes {e f : Eng} (h : OnlyCorrects e f) : f.lanes = e.lanes := by rw [h.1]
theorem OnlyCorrects.owners {e f : Eng} (h : OnlyCorrects e f) : f.basin.owners = e.basin.owners := by rw [h.1]
theorem OnlyCorrects.getV {e f : Eng} (h : OnlyCorrects e f) (v : Nat) : getV f v = getV e v := by
  simp [Machine.getV, h.valleys]

theorem onlyCorrects_countCorrected (e : Eng) : OnlyCorrects e (countCorrected e) := by
  unfold countCorrected
  dsimp only
  split
  · exact .trans ⟨rfl, List.suffix_refl _⟩ (onlyEvents_raise _ _ _ _ _ _).corrects
  · exact ⟨rfl, List.suffix_refl _⟩

theorem onlyCorrects_countCorrectedN : ∀ (n : Nat) (e : Eng), OnlyCorrects e (countCorrectedN n e)
  | 0, e => .refl e
  | n + 1, e => (onlyCorrects_countCorrected e).trans (onlyCorrects_countCorrectedN n _)

theorem onlyCorrects_remapFull (e : Eng) : OnlyCorrects e (remapFull e) := by
  unfold remapFull
  split
  · exact .refl e
  · refine .trans ?_ (onlyEvents_raise _ _ _ _ _ _).corrects
    dsimp only [freeWord]
    exact ⟨rfl, List.suffix_refl _⟩

theorem onlyCorrects_setRemap (e : Eng) (r g : Nat) : OnlyCorrects e (setRemap e r g) := by
  unfold setRemap
  refine .trans ?_ (onlyEvents_raise _ _ _ _ _ _).corrects
  dsimp only
  split <;> exact ⟨rfl, List.suffix_refl _⟩

theorem onlyCorrects_remapPage (e : Eng) (g : Nat) : OnlyCorrects e (remapPage e g) := by
  unfold remapPage
  split
  · exact .refl e
  · split
    · exact onlyCorrects_setRemap _ _ _
    · exact onlyCorrects_remapFull e

/-- A corrected read changes nothing but what the correction of a Basin word changes. -/
theorem onlyCorrects_correctedRead (e : Eng) (g i n : Nat) : OnlyCorrects e (correctedRead e g i n) := by
  unfold correctedRead candidate
  dsimp only
  have h : ∀ (b : Tab Nat) (c : List (Nat × Nat)), OnlyCorrects e
      { countCorrectedN n e with basin := { (countCorrectedN n e).basin with writeback := b, cand := c } } := fun _ _ =>
    (onlyCorrects_countCorrectedN n e).trans ⟨rfl, List.suffix_refl _⟩
  split
  · exact (h _ _).trans (onlyCorrects_remapPage _ _)
  · exact h _ _

theorem onlyCorrects_foldl (f : Eng → Nat → Eng) (hf : ∀ e k, OnlyCorrects e (f e k)) :
    ∀ (l : List Nat) (e : Eng), OnlyCorrects e (l.foldl f e)
  | [], e => .refl e
  | k :: r, e => (hf e k).trans (onlyCorrects_foldl f hf r _)

/-- The engine's own reads change nothing but what the correction of Basin words changes. -/
theorem onlyCorrects_engineReads (e : Eng) (p : Nat → Bool) : OnlyCorrects e (engineReads e p) := by
  refine onlyCorrects_foldl readAgain (fun e k => ?_) _ e
  unfold readAgain
  dsimp only
  split
  · exact onlyCorrects_correctedRead _ _ _ _
  · exact .refl e

/-- With no write-back waiting, the engine's reads change nothing. -/
theorem engineReads_clean (e : Eng) (p : Nat → Bool) (h : e.basin.writeback = []) : engineReads e p = e := by
  simp [engineReads, h, Tab.keys]

theorem onlyCorrects_readHead (e : Eng) (q : Nat) : OnlyCorrects e (readHead e q) := onlyCorrects_engineReads _ _

theorem readHead_clean (e : Eng) (q : Nat) (h : e.basin.writeback = []) : readHead e q = e := engineReads_clean _ _ h

/-- Taking the head packet: its word is read, and the packet leaves its queue. -/
theorem onlyAnswers_popHead (e : Eng) (q : Nat) : OnlyAnswers (readHead e q) (popHead e q) := onlyAnswers_dropHead _ _

/-! ## What a driver command answers -/

/-- A command is taken only while the control processor runs. -/
theorem headReady_runs {e : Eng} {q : Nat} {p : BitVec 512} (h : headReady e q = some p) :
    e.ctl.cpHaltBit = false ∧ ctlOn e = true := by
  unfold headReady at h
  split at h
  · cases h
  · rename_i h1
    simp [cpRuns] at h1
    exact ⟨h1.1.1.2, h1.1.1.1⟩

theorem getQ_popHead (e : Eng) (q r : Nat) :
    (getQ (popHead e q) r).baseCpl = (getQ e r).baseCpl ∧ (getQ (popHead e q) r).reply = (getQ e r).reply ∧
      (getQ (popHead e q) r).phase = (getQ e r).phase ∧ (getQ (popHead e q) r).owner = (getQ e r).owner := by
  have hq := (onlyCorrects_readHead e q).queues
  simp only [popHead, dropHead, updQ, getQ, Tab.get_set, hq]
  by_cases h : r = q <;> simp [h]

/-- A driver command whose entry ends in a reply from engine `g`, which has the clock and the queues of the engine the
packet was taken from: the command's record is written, and nothing else follows but answers. -/
theorem runCmd_answers {q op : Nat} {s : State} {f : Eng → Cmd → BitVec 512 → Eng} {p : BitVec 512} {g : Eng}
    {st : W16} {r0 r1 : W64}
    (h : headReady s.eng q = some p) (ho : (pkOp p).toNat = op) (hc : preCheck (popHead s.eng q) q p = none)
    (hf : f (popHead s.eng q) (cmdOf q p) p = reply g (cmdOf q p) st r0 r1)
    (hs : g.side.ts = s.eng.side.ts) (hq : g.ctl.queues = (popHead s.eng q).ctl.queues)
    (hh : g.ctl.cpHaltBit = s.eng.ctl.cpHaltBit) (hm : s.eng.io.hm <:+ g.io.hm) :
    (runCmd q op s f).mem = s.mem ∧ OnlyAnswers g (runCmd q op s f).eng ∧
      Answered s.eng (runCmd q op s f).eng (cmdOf q p) st r0 r1 := by
  obtain ⟨m, -, oa⟩ := runCmd_runs (f := f) h ho hc
  rw [hf] at oa
  have a := reply_answered g (cmdOf q p) st r0 r1 (by rw [hh, (headReady_runs h).1])
  have k : ∀ r, getQ g r = getQ (popHead s.eng q) r := fun r => by simp only [getQ, hq]
  have pf := getQ_popHead s.eng q (cmdOf q p).q
  exact ⟨m, (onlyAnswers_reply _ _ _ _ _).trans oa,
    (a.earlier hs (by rw [k]; exact pf.1) (by rw [k]; exact pf.2.1) (by rw [k]; exact pf.2.2.1) hm).later oa⟩

end Sys2Proof.Machine
end

