-- ==== Sys2Proof/Laws/Lanes.lean ====
section
/-!
SUPPORT. Laws/Lanes.lean: lanes keep package memory canonical.
-/

namespace Sys2Proof.Machine

/-- Performing a coded write keeps memory canonical. -/
theorem performWrite_wf (m : Mem) (w : LaneWrite) (h : Mem.wf m = true) : Mem.wf (performWrite m w) = true := by
  unfold performWrite
  split
  · exact h
  · exact Mem.wf_writeLine _ _ _ h

/-- A lane at work keeps memory canonical. -/
theorem pumpLane_wf (i : Nat) : ∀ (n : Nat) (m : Mem) (e : Eng), Mem.wf m = true → Mem.wf (pumpLane i n m e).1 = true
  | 0, m, e, h => h
  | n + 1, m, e, h => by
    unfold pumpLane
    split
    · exact h
    · split
      · exact h
      · dsimp only
        split
        · exact h
        · exact pumpLane_wf i n _ _ (performWrite_wf _ _ h)
        · exact pumpLane_wf i n _ _ (performWrite_wf _ _ h)

theorem runLane_wf (m : Mem) (e : Eng) (i : Nat) (h : Mem.wf m = true) : Mem.wf (runLane m e i).1 = true :=
  pumpLane_wf i 9 m e h

/-- The coded writes performed at a reset keep memory canonical. -/
theorem performQueued_wf (m : Mem) (e : Eng) (h : Mem.wf m = true) : Mem.wf (performQueued m e) = true := by
  unfold performQueued
  refine Mem.wf_foldl _ (fun m l hm => ?_) _ m h
  exact Mem.wf_foldl _ (fun m w hm => performWrite_wf m w hm) _ m hm

/-- The coded writes performed before an accumulate keep memory canonical. -/
theorem performBefore_wf (m : Mem) (e : Eng) (r : AccReq) (h : Mem.wf m = true) :
    Mem.wf (performBefore m e r).1 = true := by
  refine Mem.wf_foldl _ (fun m l hm => ?_) _ m h
  exact Mem.wf_foldl _ (fun m w hm => Mem.wf_writeLine _ _ _ hm) _ m hm

/-- With no coded write waiting in a lane, a reset performs none. -/
theorem performQueued_none (m : Mem) (e : Eng) (h : ∀ l ∈ e.lanes, l.2.q = []) : performQueued m e = m := by
  unfold performQueued
  generalize e.lanes = ls at h
  induction ls with
  | nil => rfl
  | cons a r ih =>
    simp only [List.foldl_cons, h a (by simp), List.foldl_nil]
    exact ih fun l hl => h l (by simp [hl])

end Sys2Proof.Machine
end

