-- ==== Sys2Proof/Tests/Slice0.lean ====
section
/-!
SUPPORT. Tests/Slice0.lean: an ill-formed command for each check of WellFormed, worked examples of the spec, and for every
statement with hypotheses a state and operands that meet them, clause by clause.
-/

namespace Sys2Proof.Tests

set_option Elab.async false

open Sys2Proof Sys2Proof.Machine

/-! ## States and packets -/

/-- A command packet of version 1: opcode, further bits of word 0, parameter words 1, 2 and so on. -/
def pk (op : Nat) (w0 : W64) (ws : List W64) : BitVec 512 :=
  ws.zipIdx.foldl (fun (a : BitVec 512) (w : W64 × Nat) => a ||| (w.1.setWidth 512 <<< (64 * (w.2 + 1))))
    ((w0 ||| BitVec.ofNat 64 (op + 0x100)).setWidth 512)

/-- A package address in host space. -/
def host (a : Nat) : W64 := BitVec.ofNat 64 (2 ^ 63 + a)

/-- An engine that is ready, in the Deployed state, with an image and version 1 negotiated. -/
def ready : Eng :=
  { side := { ts := 0x1000000000, clk := .root, pllLock := true, relStep := .ready, lc := 1, devKeyHere := true }
    ctl := { image := some { major := 1, minor := 0, secVer := 0, entry := 0 }, node := 1, negotiated := [(0, 1)] }
    regs := { accReg := [(0, 0xFFFFFFFF), (0x80, 0xE87), (0x81, 0xFFFFFFFF)], accFab := [(0, 0x10000)]
              accSto := [(0, 0x100000009)] } }

/-- A state with nothing waiting. -/
def st (e : Eng) : State := { pending := [], mem := [], eng := e }

/-- The physical function's queue 0 with one fetched packet. -/
def cmdQ (p : BitVec 512) : Queue :=
  { baseCmd := host 0x10000, baseCpl := host 0x20000, want := true, enabled := true, sub := 1, buf := [p], out := 1 }

/-- A state in which queue 0 holds one packet. -/
def give (e : Eng) (p : BitVec 512) : State := st { e with ctl := { e.ctl with queues := [(0, cmdQ p)] } }

/-- A joined Valley of three members, k = 2, m = 1, self 0; its Terrace 1 area has namespace 9. -/
def val : Valley :=
  { slot := .joined, tag := 7, n := 3, k := 2, m := 1, alpha := 5, area := 0x100000
    members := [{ node := 1, parity := false }, { node := 2, parity := false }, { node := 3, parity := false }]
    live := 7, regs := { t1ns := 9, t1lba := 0x1000, t1lbas := 0x1000 } }

/-- A region of one tile at byte 0: Valley 0, slot 0, raw bytes, class state. -/
def reg0 : Region := { w0 := 0x100000000, w1 := 0 }

/-- A landing region of one tile at byte 0x10000: Valley 0, slot 1. -/
def reg1 : Region := { w0 := 0x100000010, w1 := 0x100001000 }

/-- An engine with Valley 0 as given, and the two regions. -/
def withV (x : Valley) : Eng := { ready with valleys := [(0, x)], regions := [(0, reg0), (1, reg1)] }

/-- With no job in any listed Valley no Valley has one. -/
theorem no_jobs (e : Eng) (h : e.valleys.all (fun y => y.2.expo.jobs.isEmpty) = true) :
    ∀ v, (getV e v).expo.jobs = [] := by
  intro v
  unfold getV
  generalize e.valleys = t at h
  induction t with
  | nil => rfl
  | cons y r ih =>
    obtain ⟨k, x⟩ := y
    simp only [List.all_cons, Bool.and_eq_true, List.isEmpty_iff] at h
    simp only [Tab.get] at *
    split
    · exact h.1
    · exact ih h.2

/-! ## Well-formedness: one term for each check -/

/-- A packet without a flit, which no channel can present. -/
def noFlit : RxPacket := { src := 1, ptag := 0, cls := 0, abort := false, flits := [] }

theorem test_lines_lie_in_the_package :
    Instr.wellFormed (.readSnoop 0 0x17FFFFFFF 0) = true ∧ Instr.wellFormed (.readSnoop 0 0x180000000 0) = false ∧
    Instr.wellFormed (.codedWrite 0 0x180000000 1 0) = false ∧ Instr.wellFormed (.codedWrite 0 0 0 0) = false ∧
    Instr.wellFormed (.codedWrite 0 0 1 0) = true ∧ Instr.wellFormed (.accDone 0x180000000) = false := by decide +kernel

theorem test_packets_have_flits :
    Instr.wellFormed (.deltaAccumulate noFlit 0) = false ∧
    [Instr.seal noFlit, .reachReady noFlit, .landingReady noFlit, .close noFlit, .drained noFlit, .resend noFlit,
      .hopAcknowledge noFlit, .reachFold noFlit, .landingFold noFlit, .crossingFold noFlit, .watershed noFlit, .settleSummary noFlit,
      .refuse noFlit, .rebuildHop noFlit, .auditCorrection noFlit, .standinDigests noFlit, .beacon noFlit, .lockstepDigests noFlit,
      .replicaDigests noFlit, .joinHello noFlit].any Instr.wellFormed = false ∧
    Instr.wellFormed (.seal { noFlit with flits := [0] }) = true := by decide +kernel

theorem test_reach_numbers_have_32_bits :
    Instr.wellFormed (.reachDigestCheck 0 4294967296) = false ∧ Instr.wellFormed (.resendTimer 0 1 4294967296) = false ∧
    Instr.wellFormed (.resendTimer 0 1 4294967295) = true := by decide +kernel

/-- A parameter list of `n` words. -/
def words (n : Nat) : List W64 := List.replicate n 0

theorem test_lists_are_bounded :
    Instr.wellFormed (.configure 0 (words 513)) = false ∧ Instr.wellFormed (.configure 0 (words 512)) = true ∧
    Instr.wellFormed (.valleyJoin 0 (words 65)) = false ∧ Instr.wellFormed (.contract 0 (words 257)) = false ∧
    Instr.wellFormed (.digestExchange 0 (words 9)) = false ∧ Instr.wellFormed (.t1Restore 0 (words 17) []) = false ∧
    Instr.wellFormed (.t1Restore 0 [] (words 257)) = false ∧ Instr.wellFormed (.t2Restore 0 (words 17) []) = false ∧
    Instr.wellFormed (.keyLoad 0 (words 21)) = false := by decide +kernel

theorem test_long_lists_are_bounded :
    Instr.wellFormed (.rebuildRun 0 (words 16383)) = false ∧ Instr.wellFormed (.audit 0 (words 16383)) = false ∧
    Instr.wellFormed (.fwLoad 0 (words 131137)) = false := by
  simp only [Instr.wellFormed, words, List.length_replicate]
  decide

/-- The table gives no bits, so no word spells a command. -/
theorem test_no_word_spells_a_command : decodeTableWord 0 0 = none ∧ decodeTableWord 64 0x21 = none := ⟨rfl, rfl⟩

/-! ## Worked examples of the spec -/

/-- 02_coded_state_and_code.md, "one tile in the reference scenario": n = 12, k = 10, m = 2, member 0, tile 25. -/
theorem test_reference_tile :
    groupsOf 10 16384 = 1639 ∧ subMod 0 5 12 = 7 ∧ holderOf 12 10 0 5 0 = 5 ∧ holderOf 12 10 0 5 1 = 6 ∧
    (List.range 10).map (dataMember 12 7) = [7, 8, 9, 10, 11, 0, 1, 2, 3, 4] ∧ coef 0 5 = 0x01 ∧ coef 1 5 = 0xE1 ∧
    mapBlock 12 10 6 6 403 ≠ mapBlock 12 10 0 6 403 ∧
    mapBlock 12 10 0 6 403 = { group := 2, row := 5, stripe := 7, prow := 1, tile := 25, lineIn := 3 } := by decide +kernel

/-- 02_coded_state_and_code.md, "two lost tiles", and the coefficients it takes from the table of R49. -/
theorem test_two_lost_tiles :
    coef 1 3 = 0xC1 ∧ coef 1 4 = 0x3F ∧ gf8Mul 0xC1 0x5A = 0x5F ∧ gf8Mul 0x3F 0x3C = 0x7D ∧ gf8Mul 0x3F 0x66 = 0x4A ∧
    gf8Div 0x68 0xFE = 0x5A := by decide +kernel

/-- The difference of 02_coded_state_and_code.md, "one bf16 line". -/
def bf16Line : Line := Line.ofBytes [0x01, 0, 0x03, 0, 0x7F, 0, 0, 0, 0, 0, 0x02, 0, 0, 0x80]

/-- "One bf16 line": its block, and the row-1 block of the sender at position 3. -/
theorem test_bf16_block :
    (encodeBlock 2 0x2C41 bf16Line).take 8 = [0x05, 0x25, 0x00, 0x41, 0x2C, 0, 0, 0] ∧
    ((encodeBlock 2 0x2C41 bf16Line).drop 8).take 37 =
      (0x27 :: List.replicate 15 0) ++ [0x01, 0x03, 0x7F, 0x02] ++ (0x40 :: List.replicate 15 0) ++ [0x80] ∧
    ((scaleBlock (coef 1 3) (encodeBlock 2 0x2C41 bf16Line)).drop 24).take 4 = [0xC1, 0x5E, 0xB8, 0x9F] ∧
    ((scaleBlock (coef 1 3) (encodeBlock 2 0x2C41 bf16Line)).drop 44).take 1 = [0x14] ∧
    blockSize (encodeBlock 2 0x2C41 bf16Line) = 48 := by decide +kernel

/-- "Digest with α = 0x02": the digest of three words, and its change by a later write. -/
theorem test_digest :
    wordsDigest 2 [0x0123456789ABCDEF, 0x8000000000000001, 0x4000000000000000] = 0x0123456789ABCDED ∧
    wordsDigest 2 [0, 0x100] = 0x200 := by decide +kernel

/-- 03_crossings_folds_watersheds.md, the worked packet: header word 0 and the length of its block. -/
theorem test_packet_header :
    hdrWord0 1 0x0A37 0 6 1 1 = 0x010106000A370101 ∧
    (encodeBlock 2 0x193 (Line.ofBytes [0x01])).take 8 = wordsBytes [0x0000000193002105] := by decide +kernel

/-- The elements of 07_outer_exchange_export.md, "one block with an overflowing prediction": W, A and R in BF16. -/
def expBlock : List ElemIn :=
  let el (w a r : List Byte) : ElemIn := (elemFp 1 w, elemFp 1 a, elemFp 1 r)
  [el [0x80, 0x3F] [0x60, 0x3F] [0, 0], el [0x00, 0x3F] [0x00, 0x3F] [0x80, 0x38], el [0x80, 0xBE] [0x74, 0xBE] [0, 0],
   el [0x58, 0x3C] [0, 0] [0, 0]] ++ List.replicate 28 (el [0x80, 0x3F] [0x80, 0x3F] [0, 0])

/-- "One block with an overflowing prediction": scale byte, value bytes, residuals, history entry and counts. -/
theorem test_export_block :
    let b := blockOut { seed := 0, step := 0, round := 0x2A, sparse := -128, stoch := false } 0 0 1 0x00297373 expBlock
    b.scale = 0x74 ∧ b.values.take 4 = [0x78, 0x20, 0xDC, 0x5E] ∧ b.residual.take 8 = [0, 0, 0, 0, 0, 0, 0x00, 0xBA] ∧
    b.history = 0x002A7374 ∧ b.counts = [32, 1, 0, 0, 1, 28, 0, 28, 0, 31, 0] := by decide +kernel

/-- The variant of that example with SPARSE_EXP -10: the block is skipped. -/
theorem test_export_block_skipped :
    let b := blockOut { seed := 0, step := 0, round := 0x2A, sparse := -10, stoch := false } 0 0 1 0x00297373 expBlock
    b.present = false ∧ b.residual.take 8 = [0x00, 0x3E, 0x80, 0x38, 0x40, 0xBC, 0x58, 0x3C] ∧ b.history = 0x002A7374 := by
  decide +kernel

/-- 09_command_interface.md, "a close with a latched field": word 0 of the packet. -/
theorem test_close_packet :
    let p := pk 0x21 0x0000000201230000 []
    pkw p 0 = 0x0000000201230121 ∧ pkOp p = 0x21 ∧ pkTag p = 0x0123 ∧ pkValley p = 2 ∧ pkA p = false := by decide +kernel

/-- 12_register_map.md, "one write latched, one refused": Valley slot 2 with an open Crossing. -/
def val2 : Eng := { ready with valleys := [(2, { val with phase := .opened, opened := true })] }

/-- REACH_WINDOW 16 reads back, and 8 stays in force; GSTATUS [10] answers the write of V_LINEAGE and is cleared. -/
theorem test_register_example :
    (match exec (.registerWrite 0 0x050210 2 0x31000) (st val2) with
     | .next t => decide (Reg.value t.eng (.vCommit 2) = 0x31000 ∧ fld (getV t.eng 2).regs.commitF 8 7 = 8 ∧
         t.eng.io.rsp = some (0, 0))
     | _ => false) = true ∧
    (match exec (.registerWrite 0 0x050248 2 1) (st val2) with
     | .next t => decide ((getV t.eng 2).regs.lineage = 0 ∧ Reg.value t.eng .gstatus = 0x405 ∧ t.eng.io.rsp = some (0, 0)) &&
         (match exec (.registerWrite 0 0x010000 3 0x400) t with
          | .next u => decide (Reg.value u.eng .gstatus = 0x005)
          | _ => false)
     | _ => false) = true := by decide +kernel

/-! ## Resets, clock, power, sideband -/

theorem test_meets_IdleStepPassesTime :
    let e := (give (withV val) (pk 0x23 0 [])).eng
    (give (withV val) (pk 0x23 0 [])).pending = [] ∧ (e.valleys.all fun y => y.2.expo.jobs.isEmpty) = true ∧ e.ctl.revokes = [] ∧
    e.ctl.stops = [] ∧ e.side.pwrWait = none ∧ e.side.pwrState ≠ 1 ∧ e.ctl.resumed = [] ∧
    (e.ctl.queues.all fun x => !x.2.inFlight && x.2.buf.all fun p => listedOps.contains (pkOp p).toNat) = true := by
  decide +kernel

theorem test_meets_ResetsClearTheirDomains :
    let s := st { ready with lanes := [(3, { q := [{ line := 5, be := 2, new := 0x3400, old := none }] })] }
    (s.eng.side.relStep ≠ .waitClock ∧ s.eng.side.relStep ≠ .fuses ∧ s.eng.side.relStep ≠ .held ∧
      s.eng.side.rstLow = false ∧ s.eng.side.pllLock = true) ∧
    (∀ l ∈ s.eng.lanes, ∀ w ∈ l.2.q, w.inMem = false ∧ w.engine = false ∧ bit w.be 1 = true ∧
      ∀ l' ∈ s.eng.lanes, ∀ w' ∈ l'.2.q, w' = w) ∧
    ({ ready.side with rstLow := true }.rstLow = true ∧ { ready.side with pllLock := false }.pllLock = false) ∧
    (let e : Eng := { ready with side := { ready.side with relStep := .held, rstLow := false } }
     e.side.relStep = .held ∧ e.side.rstLow = false ∧ e.side.pllLock = true) := by
  decide +kernel

/-- The engine at a step of the release order. -/
def atStep (r : RelStep) : Eng := { ready with side := { ready.side with relStep := r } }

theorem test_meets_ReleaseOrder :
    (State.reset.eng.side.pllLock = false ∧ State.reset.eng.side.relStep = .waitClock) ∧
    ((atStep .fuses).side.relStep = .fuses ∧ (atStep .fuses).side.pllLock = true ∧ (atStep .fuses).side.rstLow = false) ∧
    (atStep .control).side.relStep = .control ∧ (atStep .coreClear).side.relStep = .coreClear ∧
    ((atStep .held).side.relStep = .held ∧ (atStep .held).side.pllLock = true) ∧
    (let e : Eng := { atStep .held with side := { (atStep .held).side with pllLock := false } }
     e.side.relStep = .held ∧ e.side.rstLow = false ∧ e.side.pllLock = false) ∧
    ((atStep .fabTables).side.relStep = .fabTables ∧ (atStep .fabTables).ctl.nodeFault = false) ∧
    (let e : Eng := { atStep .fabTables with ctl := { ready.ctl with nodeFault := true } }
     e.side.relStep = .fabTables ∧ e.ctl.nodeFault = true) ∧
    fld (0x1FFF : W16) 13 3 = 0 ∧ fld (0x2000 : W16) 13 3 ≠ 0 := by decide +kernel

/-- The engine with other sideband fields. -/
def withSide (f : Side → Side) : Eng := { ready with side := f ready.side }

theorem test_meets_HoldupSideband :
    (ready.side.relStep ≠ .waitClock ∧ ready.side.hBusy = false ∧
      Regs.pollPeriod ready.regs ≤ (ready.side.ts - ready.side.hPollTs).toNat) ∧
    (let e := withSide fun d => { d with hBusy := true }
     e.side.hBusy = true ∧ fld (0x10000 : W32) 16 8 ≠ fld e.side.hRecord 16 8 ∧
       fld (0x0FFFF : W32) 16 8 = fld e.side.hRecord 16 8) ∧
    Regs.staleness ready.regs < (ready.side.ts - ready.side.hSampleTs).toNat := by decide +kernel

theorem test_meets_PowerStates :
    (let p (x : W64) := pk 0x70 0 [x]
     let d : StoDesc := { op := 1, fua := true, tag := 5, ns := 9, lba := 0x1000, lbas := 1, data := [], owner := .t1Seg 0 0, ts := 0 }
     let a2 := withSide fun d => { d with pwrAck := 2 }
     let busy : Eng := { ready with io := { sto := [d] } }
     let wt := withSide fun d => { d with pwrWait := some { cmd := cmdOf 1 0, req := 0 } }
     (Taken (give (withSide fun d => { d with pwrAck := 1 }) (p 1)) 0 0x70 (p 1) ∧
       (pkw (p 1) 1).extractLsb' 0 2 = (1 : BitVec 2) ∧ ready.side.pwrWait = none ∧ ready.side.pwrAck ≠ 1) ∧
     (Taken (give ready (p 0)) 0 0x70 (p 0) ∧ (pkw (p 0) 1).extractLsb' 0 2 = ready.side.pwrAck) ∧
     (Taken (give a2 (p 2)) 0 0x70 (p 2) ∧ quiet (give a2 (p 2)).eng = true ∧ a2.side.pwrReq ≠ 2) ∧
     (Taken (give ready (p 2)) 0 0x70 (p 2) ∧ quiet (give ready (p 2)).eng = true ∧ ready.side.pwrAck ≠ 2) ∧
     (Taken (give busy (p 2)) 0 0x70 (p 2) ∧ quiet (give busy (p 2)).eng = false) ∧
     (Taken (give ready (p 3)) 0 0x70 (p 3) ∧ (pkw (p 3) 1).extractLsb' 0 2 = (3 : BitVec 2)) ∧
     (Taken (give wt (p 1)) 0 0x70 (p 1) ∧ wt.side.pwrWait ≠ none) ∧
     (Taken (give (withV { val with opened := true }) (p 2)) 0 0x70 (p 2) ∧ (pkw (p 2) 1).extractLsb' 0 2 = (2 : BitVec 2))) := by
  simp only [Taken]
  decide +kernel

theorem test_meets_PowerStates_waits :
    (let e (r : BitVec 2) := withSide fun d => { d with pwrWait := some { cmd := cmdOf 0 (pk 0x70 0 [0]), req := r }, pwrReq := r, pwrAck := 3 }
     ∀ r ∈ ([0, 1, 2] : List (BitVec 2)), cpRuns (e r) = true ∧ (e r).side.pwrState ≠ 2 ∧ powerLate (e r) = true ∧
       powerLate { e r with side := { (e r).side with ts := 0 } } = false) ∧
    (let e := withSide fun d => { d with pwrState := 2, waking := true, pwrReq := 0 }
     e.side.pwrState = 2 ∧ e.side.waking = true ∧ e.side.pwrReq = 0) ∧
    (let e (a : BitVec 2) := withSide fun d => { d with pwrState := 2, pwrAck := a }
     Reaches (st (e 2)) 0 true 0xA0000 ∧ Reaches (st (e 0)) 0 true 0xA0000 ∧ bit (1 : W32) 0 = true ∧ (e 2).side.pwrState = 2 ∧
       (e 2).side.waking = false) ∧
    (Reaches (st ready) 0 true 0xA0000 ∧ ready.side.pwrState ≠ 2) := by
  simp only [Reaches]
  decide +kernel

theorem test_meets_LevelsSamplesAndReseed :
    ((withSide fun d => { d with pwrState := 2 }).side.pwrState = 2 ∧ ready.side.pwrState ≠ 2 ∧ ready.side.relStep ≠ .waitClock) ∧
    (let e := withSide fun d => { d with dbgSeen := 2, dbgActing := true }
     ctlOn e = true ∧ e.side.dbgSeen ≠ e.side.dbgLvl ∧ e.ctl.cpHaltBit = false ∧ keyUsersGone e = true ∧
       e.side.dbgActing = decide (e.side.dbgSeen = 2 ∧ e.side.dbgLvl ≠ 2 ∧ e.side.lc = 1)) ∧
    (let e := withSide fun d => { d with dbgSeen := 1 }
     ctlOn e = true ∧ e.side.dbgSeen ≠ e.side.dbgLvl ∧ e.side.dbgActing = false) ∧
    (ctlOn ready = true ∧ ready.side.dbgSeen = ready.side.dbgLvl ∧ ready.side.dbgActing = false) ∧
    (let r : Restore := { id := 4, terrace := 1, self := 0, probe := false, cands := [], copies := [], stage := .copies }
     let e : Eng := { withV { val with restores := [r] } with side := { ready.side with dbgSeen := 2, dbgActing := true } }
     e.side.dbgActing = true ∧ keyUsersGone e = false) ∧
    (let e := withSide fun d => { d with rngFault := true }
     ctlOn e = true ∧ e.side.rngFault = true ∧ ready.side.rngFault = false ∧ ready.ctl.drbgCount < ready.ctl.drbgSeeded + 1048576) := by
  decide +kernel

/-! ## Lanes -/

/-- An engine whose lane 3 is as given. -/
def withLane (l : Lane) : Eng := { ready with lanes := [(3, l)] }

/-- The write of the tests: line 5, byte 1, from zero to 0x34. -/
def wr (old : Option Line) : LaneWrite := { line := 5, be := 2, new := 0x3400, old := old }

theorem test_meets_WindowThrottleAndGate :
    (ctlOn (withLane {}) = true ∧ (getLane (withLane {}) 3).window.length < 8192 ∧
      (getLane (withLane {}) 3).window.Pairwise (fun a b => a.1 ≠ b.1) ∧
      winGet (getLane (withLane {}) 3).window 6 = none) ∧
    (let e := withLane { rstCause := false }
     ctlOn e = true ∧ (getLane e 3).q = [] ∧ (getLane e 3).fifoHyst = false ∧ (getLane e 3).rstCause = false ∧
       retentionHold e = false) ∧
    (let e : Eng := { withLane {} with side := { ready.side with pwrState := 1 } }
     ctlOn e = true ∧ e.side.pwrState = 1 ∧ (getLane e 3).q = [] ∧ (getLane e 3).fifo = [] ∧
       Regs.laneGateIdle e.regs ≤ 2 * (e.side.ts - (getLane e 3).idleFrom).toNat ∧
       Regs.laneGateIdle e.regs ≤ 2 * (e.side.ts - (Tab.get (0, (getLane e 3).idleFrom) e.io.accLane 3).2).toNat ∧
       (let y : Eng := { e with io := { e.io with accLane := [(3, 1, e.side.ts)] } }
        ¬ Regs.laneGateIdle y.regs ≤ 2 * (y.side.ts - (Tab.get (0, (getLane y 3).idleFrom) y.io.accLane 3).2).toNat)) ∧
    (withLane {}).side.pwrState ≠ 1 := by decide +kernel

theorem test_meets_WindowThrottleAndGate_jobs : ∀ v, (getV (withLane { rstCause := false }) v).expo.jobs = [] := no_jobs _ rfl

theorem test_meets_ZeroDifferenceIsSuppressed :
    (let e := withLane { window := [(5, 0xFF00)] }
     ctlOn e = true ∧ (getLane e 3).q = [] ∧ winGet (getLane e 3).window 5 = some 0xFF00 ∧
       ((0xFF00 : Line) ^^^ 0x12FF34) &&& beMask 2 = 0) ∧
    (∀ v, (getV (withLane { window := [(5, 0xFF00)] }) v).expo.jobs = []) := ⟨by decide +kernel, no_jobs _ rfl⟩

theorem test_meets_CodedWriteReachesMemory :
    (let w := wr (some 0)
     w.line = (5 : BitVec 33).toNat ∧ w.engine = false ∧ w.inMem = false ∧ (wr none).engine = false ∧ (wr none).inMem = false) ∧
    (let e := withLane { window := [(5, 0)] }
     ctlOn e = true ∧ (getLane e 3).q = [] ∧ winGet (getLane e 3).window 5 = some 0) ∧
    (ctlOn (withLane { q := [wr none] }) = true ∧ (getLane (withLane { q := [wr none] }) 3).q = [wr none]) ∧
    (let e := withLane { q := [wr (some 0)], winCause := true }
     let out : Eng := updLane e 3 clearWaits
     let e2 : Eng := { withV { val with phase := .halted } with lanes := e.lanes }
     ctlOn e = true ∧ (getLane e 3).winCause = true ∧ (getLane e 3).q = [wr (some 0)] ∧
      (judge [] out 3 5 2 0 0x3400 0x3400 false).2 = .performed ∧
      (judge [] (updLane e2 3 clearWaits) 3 5 2 0 0x3400 0x3400 false).2 = .suppressed) := by decide +kernel

theorem test_meets_CodedWriteReachesMemory_jobs :
    ∀ v, (getV (judge [] (updLane (withLane { q := [wr (some 0)], winCause := true }) 3 clearWaits) 3 5 2 0 0x3400 0x3400 false).1
      v).expo.jobs = [] := no_jobs _ (by decide +kernel)

theorem test_meets_LanePortWaitsAndStops :
    (ctlOn (withLane {}) = true ∧ (getLane (withLane {}) 3).q = [] ∧ winGet (getLane (withLane {}) 3).window 5 = none) ∧
    (∀ v, (getV (withLane {}) v).expo.jobs = []) ∧
    (8 ≤ (getLane (withLane { q := List.replicate 8 (wr (some 0)) }) 3).q.length ∧
      ∀ w ∈ (getLane (withLane { q := List.replicate 8 (wr (some 0)) }) 3).q, w.old ≠ none) :=
  ⟨by decide +kernel, no_jobs _ rfl, by decide +kernel⟩

theorem test_meets_JudgementOrder :
    (regionAt (withV val) (256 * 500) = none) ∧ ((1 : Line) ≠ 0) ∧
    (regionAt (withV { val with slot := .defined }) (256 * 5) = some (0, reg0) ∧
      isJoined (getV (withV { val with slot := .defined }) (Region.valley reg0)) = false) ∧
    (let e := withV { val with phase := .opened }
     regionAt e (256 * 5) = some (0, reg0) ∧ isJoined (getV e 0) = true ∧ (placeAt e 0 0 (256 * 5)).isSome = true ∧
       (getV e 0).t1 = none ∧ phaseVerdict (getV e 0) false = .coded ∧ phaseVerdict (getV e 0) true = .late) ∧
    phaseVerdict (getV (withV val) 0) false = .uncrossed := by decide +kernel

theorem test_meets_FrozenRegionSuppresses :
    let e : Eng := { withV { val with phase := .frozen } with regions := [(0, { reg0 with frozen := true })] }
    (getV e 0).phase ≠ .opened ∧ (getReach (getV e 0) 0).unbuilt = false ∧ exportNames (getV e 0) 0 = false ∧
      (getR e 0).frozen = true ∧ (getR e 0).evFroz = false ∧ (getR { e with regions := [(0, { reg0 with evFroz := true })] } 0).evFroz = true := by
  decide +kernel

/-- A staged word with one seal entry for Valley 0 at distance 1. -/
def word0 : StgWord :=
  { bytes := [], closed := true, ends := [{ v := 0, d := 1, body := .sealed 0 1 2 3 }], parts := [0] }

theorem test_meets_StagedAndInboundBlocksMove :
    (let e : Eng := { withV val with lanes := [(3, { fifo := [word0] })] }
     ctlOn e = true ∧ (getLane e 3).fifo = [word0] ∧ (placeEnds word0.ends e).isSome = true ∧
       ((placeEnds word0.ends e).map fun f => getLane f 3) = some (getLane e 3)) ∧
    (let b : InBlock := { reach := 0, line := 5, diff := 1, epoch := 0, size := 16 }
     let e := withV { val with ins := [(1, { waiting := [b] })], pend := [(pendKey 0 (tileOfLine 5), 4)] }
     ctlOn e = true ∧ (getIn (getV e 0) 1).waiting = [b] ∧
       Tab.find (getV e 0).pend (pendKey b.reach (tileOfLine b.line)) = some 4) := by decide +kernel

theorem test_meets_StagedAndInboundBlocksMove_waits :
    let s0 : Staged := { v := 0, d := 1, body := .block 0 0 5 0 [1, 2] }
    let w : StgWord := { bytes := [], closed := true, ends := [s0], parts := [0] }
    let poor := (List.range 16384).map fun g => (g, PageOwner.control 1)
    let e : Eng := { withV val with lanes := [(3, { fifo := [w] })], regs := { ready.regs with basinPart := 0 } }
    ctlOn e = true ∧ (getLane e 3).fifo = [w] ∧ placeEnds w.ends e = none := by decide +kernel

theorem test_meets_StagedAndInboundBlocksMove_jobs :
    ∀ v, (getV { withV val with lanes := [(3, { fifo := [word0] })] } v).expo.jobs = [] := no_jobs _ rfl

theorem test_meets_RetentionAndDemotion :
    (let r : Retained := { reach := 0, line := 5, seqs := [some 1], block := [1, 2], page := 0, offset := 0, written := false }
     let e := withV { val with retained := [r] }
     ctlOn e = true ∧ (getV e 0).retained.find? (fun r => !r.written) = some r ∧ (recordBytes r).length ≤ 4096 - r.offset) ∧
    Regs.demoteMark ready.regs ≤ freeCount ready 0 ∧
    (let low (x : Valley) (io : Io) : Eng := { withV x with
       regs := { ready.regs with flow := 0x10000000, basinPart := 0x0101010101 }
       basin := { owners := [(600, .outRing 0 1)], staged := [600] }, io := io }
     let e := low { val with outs := [(1, {})] } {}
     let r : Retained := { reach := 0, line := 5, seqs := [some 7], block := [1, 2], page := 0, offset := 0, written := true }
     let x := { val with outs := [(1, { entries := [.inline 7 0 5 0 [1, 2] 600] })], retained := [r] }
     let y := { x with retained := [{ r with written := false }] }
     let f := low x { acc := [{ line := 0, be := 1, data := 1, why := .record 0 0 }] }
     ctlOn e = true ∧ freeCount e 0 < Regs.demoteMark e.regs ∧ e.basin.staged = [600] ∧
       Tab.find e.basin.owners 600 = some (.outRing 0 1) ∧ pageWritten e (getV e 0) (getOut (getV e 0) 1) 600 = true ∧
       pageWritten (low x {}) x (getOut x 1) 600 = true ∧ recordOf x 0 5 0 7 = some r ∧
       (recordOf y 0 5 0 7).isSome = true ∧ pageWritten (low y {}) y (getOut y 1) 600 = false ∧
       (f.io.acc.any fun a => decide (a.why = .record r.page r.offset)) = true ∧ pageWritten f x (getOut x 1) 600 = false) := by
  decide +kernel

theorem test_meets_ControlLeavesFirst :
    ∀ msg ∈ [Msg.beacon 4, Msg.digests 2 0 []],
    let c : CtlOut := { v := 0, node := 2, tag := 7, from_ := 0, dest := 1, epoch := 0, msg := msg }
    let e : Eng := { withV val with io := { ctlOut := [c] } }
    ctlOn e = true ∧ e.io.ctlOut.find? (fun c => !(getV e c.v).faulted && !ownMail e c) = some c ∧
      toPartner (.beacon 4) = false ∧ toPartner (.digests 2 0 []) = true := by decide +kernel

/-! ## Timers and suspicion -/

theorem test_meets_PeriodicMessages :
    (let sl : SealEnt := { count := 2, digest := 0, step := 0, ts := 0 }
     let e := withV { val with hold := [(0, { seals := [(1, sl)] })] }
     let due (e : Eng) := isJoined (getV e 0) && isLive (getV e 0) (inPeer (getV e 0) 1) &&
       decide (Tab.get 0 (getHold (getV e 0) 0).applied 1 < sl.count.toNat) && decide ((getV e 0).resendDelay ≤ (e.side.ts - sl.ts).toNat)
     ctlOn e = true ∧ Tab.find (getHold (getV e 0) 0).seals 1 = some sl ∧ due e = true ∧
       due { e with side := { e.side with ts := 0 } } = false ∧ Tab.find (getHold (getV e 0) 1).seals 1 = none) ∧
    (let e := withV val
     let due (e : Eng) := isJoined (getV e 0) && !(getV e 0).faulted && decide (e.side.pwrReq ≠ 2) &&
       (watchedPeers (getV e 0)).contains 1 &&
       decide ((getV e 0).peerTimeout ≤ 4 * (e.side.ts - (getPeer (getV e 0) 1).lastSent).toNat)
     ctlOn e = true ∧ due e = true ∧ due { e with side := { e.side with pwrReq := 2 } } = false) ∧
    (let w : JoinWait := { cmd := cmdOf 0 0, since := 0, helloTs := 0, matched := 0, complete := 0 }
     let e := withV { val with slot := .joining, joinWait := some w }
     ctlOn e = true ∧ (getV e 0).joinWait = some w ∧ (getV e 0).peerTimeout ≤ 4 * (e.side.ts - w.helloTs).toNat ∧
       4 * ((0 : W64) - w.helloTs).toNat < (getV e 0).peerTimeout ∧ val.joinWait = none) := by
  decide +kernel

theorem test_meets_Suspicion :
    (ctlOn (withV val) = true ∧ silenceDue (withV val) 0 1 = true ∧ silenceDue (withV val) 0 2 = true ∧
      designated val 1 = false ∧ designated val 2 = true ∧ (getPeer val 2).acked = false ∧
      windowOpen (withV val) (withV val).ctl.winSuspect (nodeOf val 2) = false) ∧
    (let x := { val with peers := [(1, { suspect := true, holdFrom := some 0 })] }
     let e := withV x
     (getPeer (getV e 0) 1).holdFrom = some 0 ∧ (getV e 0).suspectHoldoff ≤ (e.side.ts - 0).toNat ∧
       reporterOf (getV e 0) 1 = some 2 ∧ (getPeer (getV e 0) 1).suspect = true ∧ (getPeer (getV e 0) 1).reported = false ∧
       (getPeer (getV e 0) 1).acked = false ∧ (getPeer x 2).suspect = false ∧
       (getPeer { x with peers := [(1, { suspect := true, holdFrom := some 0 }), (2, { suspect := true })] } 2).suspect = true) ∧
    (let e : Eng := { ready with ctl := { ready.ctl with irq66Due := true } }
     e.ctl.irq66Due = true ∧ gapOver e = true ∧ bit e.ctl.irq 66 = false) ∧
    (let x := { val with peers := [(1, { suspect := true, reported := true })] }
     (getPeer (getV (withV x) 0) 1).reported = true ∧ (getPeer (getV (withV x) 0) 1).acked = false ∧
       Tab.find (withV x).ctl.resumed (nodeOf x 1).toNat = none ∧
       windowTakes (withV x) (withV x).ctl.winResume (nodeOf x 1) 0 = false) := by decide +kernel

theorem test_meets_Suspicion_reports :
    (let p (w : W64) := pk 0x30 0 [w]
     let e := withV { val with live := 3 }
     let ok (w : W64) : Bool := decide (headReady (give e (p w)).eng 0 = some (p w) ∧ (pkOp (p w)).toNat = 0x30 ∧
       preCheck (popHead (give e (p w)).eng 0) 0 (p w) = none)
     (ok 0x101 = true ∧ pkf (p 0x101) 1 8 4 = 1) ∧ (ok 0x201 = true ∧ pkf (p 0x201) 1 8 4 = 2) ∧
      (ok 0x301 = true ∧ pkf (p 0x301) 1 8 4 = 3 ∧ pkf (p 0x301) 1 0 6 ≠ val.self ∧ isLive { val with live := 3 } 1 = true) ∧
      (ok 0x300 = true ∧ pkf (p 0x300) 1 0 6 = val.self) ∧ (ok 0x302 = true ∧ isLive { val with live := 3 } 2 = false) ∧
      (ok 0x001 = true ∧ pkf (p 0x001) 1 8 4 = 0) ∧ (ok 0x401 = true ∧ 3 < pkf (p 0x401) 1 8 4)) ∧
    (let p := pk 0x30 0 [0x101]
     Taken (give (withV { val with slot := .defined }) p) 0 0x30 p ∧ isJoined { val with slot := .defined } = false) := by
  simp only [Taken]
  decide +kernel

theorem test_meets_DesignatedReporter :
    (isLive val ((1 + 1) % val.n) = true) ∧
    (let x := { val with live := 1 }
     (∀ d, 1 ≤ d → d ≤ 2 → isLive { val with live := 0 } ((0 + d) % 3) = false) ∧ isLive x ((0 + 3 - 3) % 3) = true ∧
       isLive x ((0 + 3 - 1) % 3) = false ∧ isLive x ((0 + 3 - 2) % 3) = false) := by
  refine ⟨by decide +kernel, ⟨fun d h1 h2 => ?_, by decide +kernel⟩⟩
  have : d = 1 ∨ d = 2 := by omega
  rcases this with rfl | rfl <;> decide +kernel

theorem test_meets_TimeoutsEndWaits :
    (let f : FenceWait := { cmd := cmdOf 0 0, settle := false, since := 0, sent := false }
     let x := { val with phase := .frozen, fenceWait := some f }
     let e := withV x
     let ws : WsRecord := { number := 1, step := 2, ts := 3, tag := 7, crossing := false, folded := 2 }
     let y := { x with closeWait := some (cmdOf 1 0), closeEpoch := 1 }
     cpRuns e = true ∧ e.ctl.revokes = [] ∧ e.ctl.stops = [] ∧ e.side.pwrWait = none ∧ (getV e 0).fenceWait = some f ∧
       (getV e 0).closeWait = none ∧ (getV e 0).fenceTimeout ≤ (e.side.ts - f.since).toNat ∧
       (e.side.ts - e.side.ts).toNat < (getV e 0).fenceTimeout ∧ val.fenceWait = none ∧
       y.closeWait = some (cmdOf 1 0) ∧ (cmdOf 1 0).q ≠ f.cmd.q ∧ (∀ w, y.ws = some w → w.number ≠ y.closeEpoch) ∧
       { y with ws := some ws }.ws = some ws ∧ ws.number = y.closeEpoch) ∧
    (let w : SpareWait := { cmd := cmdOf 0 0, since := 0, base := 0, hello := false, got := [], summary := none }
     let e := withV { val with slot := .spare, spareWait := some w }
     cpRuns e = true ∧ (getV e 0).spareWait = some w ∧ (getV e 0).fenceTimeout ≤ (e.side.ts - w.since).toNat ∧
       ((0 : W64) - w.since).toNat < (getV e 0).fenceTimeout ∧ val.spareWait = none) ∧
    (let w : JoinWait := { cmd := cmdOf 0 0, since := 0, helloTs := 0, matched := 0, complete := 0 }
     let e := withV { val with slot := .joining, joinWait := some w }
     (getV e 0).joinWait = some w ∧ Regs.joinTimeout e.regs ≤ (e.side.ts - w.since).toNat ∧
       ((0 : W64) - w.since).toNat < Regs.joinTimeout e.regs ∧ val.joinWait = none) := by
  simp only [reduceCtorEq, false_imp_iff, forall_const]
  decide +kernel

/-! ## Received packets -/

/-- A packet of member 1 of Valley 0 (node 2, tag 7) to member 0. -/
def rx (typ count : Nat) (w2 w3 : W64) (body : List Byte) : RxPacket :=
  { src := 2, ptag := 0, cls := 0, abort := false, flits := flitsOf typ 7 1 0 count 0 w2 w3 body }

/-- A comparison partner of Valley 0. -/
def mate : Partner := { node := 2, tag := 7, index := 1 }

theorem test_meets_ReceiveChecks :
    (rxChecks (atStep .control) (rx 2 1 0 0 (List.replicate 16 0)) = .ignored) ∧
    (rxChecks (withSide fun d => { d with pwrState := 2 }) (rx 2 1 0 0 []) = .retention) ∧
    (rxChecks (withV val) { rx 2 1 0 0 [] with ptag := 5 } = .denied) ∧
    (rxChecks (withV val) { rx 2 1 0 0 [] with src := 0x2000 } = .dropped 0 none none) ∧
    (rxChecks (withV val) (rx 2 2 0 0 (List.replicate 512 0)) = .dropped 2 none none) ∧
    (rxChecks (withV val) (rx 2 0 0 0 []) = .dropped 11 (some 0) (some 1)) ∧
    ((withV val).ctl.revokes = [] ∧ (withV val).ctl.stops = [] ∧ (withV val).side.pwrWait = none ∧ fabOn (withV val) = true ∧
      fabOn (atStep .fabTables) = true ∧ fabOn (atStep .control) = false ∧ (withV val).side.pwrState ≠ 2) ∧
    (fld (0x2000 : W16) 13 3 ≠ 0 ∧ fld (2 : W16) 13 3 = 0 ∧ (5 : W16) ∉ (withV val).side.revoked ∧
      (5 : W16) ∈ (withSide fun d => { d with revoked := [5] }).side.revoked ∧ tagGranted (withV val) 0 = true ∧
      tagGranted (withV val) 5 = false ∧
      (∀ f, f < 64 → bit (Tab.get 0 (withV val).regs.accFab (f + 1)) 16 = false)) := by
  decide +kernel

theorem test_meets_Suspicion_hearing :
    let p := rx 6 0 3 0 []
    rxChecks (withV val) p = .accepted 0 ∧ (hdrOf p).typ = 6 ∧ (hdrOf p).kind = 3 ∧ (withV val).ctl.revokes = [] ∧
      (withV val).ctl.stops = [] ∧ (withV val).side.pwrWait = none := by decide +kernel

theorem test_meets_AcceptedPacketsAct :
    rxChecks (withV val) (rx 1 1 0 0 (List.replicate 24 0)) = .accepted 0 ∧
    rxChecks (withV val) (rx 2 1 0 0 (List.replicate 16 0)) = .accepted 0 ∧
    rxChecks (withV val) (rx 3 1 1 0 (List.replicate 8 0)) = .accepted 0 ∧
    rxChecks (withV val) (rx 3 0 2 0 []) = .accepted 0 ∧
    rxChecks (withV val) (rx 3 1 3 0 (List.replicate 8 0)) = .accepted 0 ∧
    rxChecks (withV val) (rx 3 0 4 0 []) = .accepted 0 ∧
    rxChecks (withV val) (rx 3 4 5 0 (List.replicate 32 0)) = .accepted 0 ∧
    rxChecks (withV val) (rx 3 0 6 0 []) = .accepted 0 ∧
    rxChecks (withV val) (rx 4 1 1 0 (List.replicate 8 0)) = .accepted 0 ∧
    rxChecks (withV val) (rx 4 0 2 0 []) = .accepted 0 ∧
    rxChecks (withV val) (rx 4 0 3 0 []) = .accepted 0 ∧
    rxChecks (withV val) (rx 4 0 4 0 []) = .accepted 0 ∧
    rxChecks (withV val) (rx 4 1 5 0 (List.replicate 8 0)) = .accepted 0 ∧
    rxChecks (withV val) (rx 4 0 6 0x200 []) = .accepted 0 ∧ (getV (withV val) 0).slot ≠ .spare ∧
    rxChecks (withV val) (rx 5 16 0 0 (List.replicate 4320 0)) = .accepted 0 ∧
    rxChecks (withV val) (rx 6 1 1 0 (List.replicate 16 0)) = .accepted 0 ∧
    rxChecks (withV val) (rx 6 0 3 0 []) = .accepted 0 ∧
    rxChecks (withV val) (rx 6 1 5 0 (List.replicate 16 0)) = .accepted 0 ∧
    rxChecks (withV { val with cmp := { lock := true, lockPeer := some mate } }) (rx 6 1 2 0 (List.replicate 16 0)) = .partner 0 8 ∧
    rxChecks (withV { val with cmp := { running := true, partners := [mate] } }) (rx 6 1 4 0 (List.replicate 16 0)) = .partner 0 0 := by
  decide +kernel

theorem test_meets_ReceivedWindow :
    (2 ^ 31 ≤ ((0 : W32) - 1).toNat) ∧ (256 ≤ ((256 : W32) - 0).toNat ∧ ((256 : W32) - 0).toNat < 2 ^ 31) ∧
    (((5 : W32) - 0).toNat < 256 ∧ bit (0x20 : BitVec 256) 5 = true) ∧
    (seqVerdict { a := 0, win := 0x20 } 6 = .fresh 6 ∧ seqVerdict { a := 0 } 0 = .fresh 0 ∧ seqVerdict { a := 0 } 255 = .fresh 255) := by
  decide +kernel

/-- A block entry of member 1: sequence number, Reach, then a block of one raw byte at line 16 of the Reach. -/
def entry (seq reach : Nat) (block : List Byte) : List Byte := natBytes 4 seq ++ natBytes 4 reach ++ block

/-- The block of one nonzero byte at a line, from the encoder. -/
def block (line : Nat) : List Byte := encodeBlock 1 line 0x12

theorem test_meets_BlocksReachPendingParity :
    let e := withV { val with pend := [(pendKey 0 0, 4)] }
    reachAt e 0 7 = none ∧ (reachAt e 0 0).isSome = true ∧
    decodeBlock 1 16 ((entry 0 0 (List.replicate 16 0xFF)).drop 8) = none ∧
    decodeBlock 1 16 ((entry 0 0 (block 3)).drop 8) = some 0x12 ∧
    (mapBlock 3 2 1 0 3).prow < 1 ∧ (mapBlock 3 2 1 0 3).tile < 1 ∧ subMod 0 1 3 = 2 ∧
    seqVerdict (getIn (getV e 0) 2) 0xFFFFFFFF = .duplicate ∧ seqVerdict (getIn (getV e 0) 2) 300 = .beyond ∧
    seqVerdict (getIn (getV e 0) 2) 0 = .fresh 0 ∧ holderClosed (getV e 0) 0 false = false ∧
    holderClosed { val with reaches := [(0, { st := .folded })] } 0 false = true ∧
    (getIn (getV e 0) 2).waiting = [] ∧ Tab.find (getV e 0).pend (pendKey 0 ((mapBlock 3 2 1 0 3).group * 1 + 0)) = some 4 ∧
    (let p (n : Nat) (b : List Byte) := rx 1 n 0 0 b
     let b1 := entry 0 0 (block 3)
     rxChecks e (p 1 b1) = .accepted 0 ∧ (hdrOf (p 1 b1)).typ = 1 ∧ (hdrOf (p 1 b1)).count = 1 ∧
      rxChecks e (p 2 (b1 ++ entry 1 0 (block 4))) = .accepted 0 ∧ (hdrOf (p 2 (b1 ++ entry 1 0 (block 4)))).count = 2) := by
  decide +kernel

theorem test_meets_SealsAndResends :
    (let e := withV val
     (reachList e 0).length ≤ 2 ∧ (0 < (reachList e 0).length ∧ 2 ∈ distances (getV e 0) ∧
       Tab.find (getHold (getV e 0) 0).seals 2 = none) ∧ subMod 0 1 3 = 2 ∧ 5 ∉ distances (getV e 0)) ∧
    (let sl : SealEnt := { count := 2, digest := 0, step := 0, ts := 0 }
     let e := withV { val with hold := [(0, { seals := [(2, sl)] })] }
     Tab.find (getHold (getV e 0) 0).seals 2 = some sl) ∧
    (let p := rx 2 1 0 0 (List.replicate 16 0)
     let e := withV val
     let n := withV { val with epoch := 0xFFFFFFFFFFFFFFFF }
     rxChecks e p = .accepted 0 ∧ (hdrOf p).typ = 2 ∧ 0 < (hdrOf p).count ∧ enum (entryAt (bodyOf p) 16 0) 0 4 = 0 ∧
      (hdrOf p).epoch = val.epoch ∧ rxChecks n p = .accepted 0 ∧ (hdrOf p).epoch ≠ (getV n 0).epoch ∧
      Tab.find (Tab.get ({} : HReach) (getV n 0).holdNext 0).seals 2 = none) ∧
    (let p := rx 3 4 5 0 (List.replicate 32 0)
     rxChecks (withV val) p = .accepted 0 ∧ (hdrOf p).typ = 3 ∧ (hdrOf p).kind = 5) := by decide +kernel

/-! ## Crossings -/

theorem test_meets_CrossingOpensAndCloses :
    (let p := pk 0x20 0 [3]
     Taken (give (withV val) p) 0 0x20 p ∧ mayOpen (withV val) 0 3 false = true ∧
     Taken (give (withV { val with phase := .halted }) p) 0 0x20 p ∧ mayOpen (withV { val with phase := .halted }) 0 3 false = false) ∧
    (let p := pk 0x21 0 []
     let x := { val with phase := .opened, opened := true }
     Taken (give (withV x) p) 0 0x21 p ∧ isJoined x = true ∧ x.phase = .opened ∧ exportKeeps x = false ∧
     Taken (give (withV { val with phase := .halted }) p) 0 0x21 p ∧ Taken (give (withV val) p) 0 0x21 p ∧
     val.phase ≠ .opened ∧ val.phase ≠ .halted) := by
  simp only [Taken]
  decide +kernel

theorem test_meets_SealsAreMade :
    (let p := pk 0x22 0 [0, 2]
     let x := { val with phase := .opened, opened := true, reaches := [(0, { st := .written })] }
     Taken (give (withV x) p) 0 0x22 p ∧ isJoined x = true ∧ x.phase = .opened ∧ pkf p 2 0 32 ≠ 0 ∧
     pkf p 1 0 32 + pkf p 2 0 32 ≤ (reachList (withV x) 0).length ∧ 0 ∈ otherReaches (withV x) 0 ∧
     unsealed (getReach x 0) = true ∧ sealHeld x 0 = false ∧ Taken (give (withV val) p) 0 0x22 p ∧ val.phase ≠ .opened) ∧
    (let x := { val with phase := .opened, opened := true, reaches := [(0, { st := .written, held := true })] }
     ctlOn (withV x) = true ∧ (getReach x 0).held = true ∧ sealHeld x 0 = false ∧ unsealed (getReach x 0) = true ∧
     (∃ r ∈ reachList (withV x) 0, r.num = 0)) := by
  simp only [Taken]
  decide +kernel

theorem test_meets_FenceAndRollback :
    (let p := pk 0x28 0 [5]
     Taken (give (withV val) p) 0 0x28 p ∧ mayFence val (pkw p 1) = true ∧
     Taken (give (withV val) (pk 0x28 0 [6])) 0 0x28 (pk 0x28 0 [6]) ∧ mayFence val (pkw (pk 0x28 0 [6]) 1) = false) ∧
    (let p := pk 0x24 0 []
     let pt := pk 0x24 0x4000 []
     let x := { val with phase := .frozen, fenced := true, reaches := [(0, { st := .written, pend := 5 })] }
     Taken (give (withV x) p) 0 0x24 p ∧ isJoined x = true ∧ x.phase = .frozen ∧ x.fenced = true ∧ pkA p = false ∧
     Taken (give (withV x) pt) 0 0x24 pt ∧ pkA pt = true ∧ mayThaw (withV x) 0 = true ∧
     Taken (give (withV val) p) 0 0x24 p ∧ val.phase ≠ .frozen ∧ rollLeft (withV x) 0 = true ∧ rollLeft (withV val) 0 = false) ∧
    (let p := rx 4 1 5 0 (List.replicate 8 0)
     rxChecks (withV val) p = .accepted 0 ∧ (hdrOf p).typ = 4 ∧ (hdrOf p).kind = 5 ∧ val.slot ≠ .spare) := by
  simp only [Taken]
  decide +kernel

theorem test_meets_FoldCommitsReach :
    (getReach (getV (withV { val with reaches := [(0, { st := .folded })] }) 0) 0).st = .folded ∧
    (let sl : SealEnt := { count := 2, digest := 9, step := 0, ts := 0 }
     let e := withV { val with reaches := [(0, { st := .sealed })], hold := [(0, { seals := [(2, sl)] })] }
     (getReach (getV e 0) 0).st ≠ .folded ∧ ((getHold (getV e 0) 0).seals.map (·.1)).Nodup ∧
      Tab.find (getHold (getV e 0) 0).seals 2 = some sl ∧ Tab.find (getHold (getV e 0) 0).seals 1 = none) ∧
    (let p (k : W64) := rx 4 (if k = 1 then 1 else 0) k 0 (if k = 1 then List.replicate 8 0 else [])
     let e (f h : Bool) := withV { val with landFold := f, crossFold := f, phase := if h then .halted else .idle }
     rxChecks (e false false) (p 1) = .accepted 0 ∧ (hdrOf (p 1)).kind = 1 ∧ (hdrOf (p 1)).epoch = val.epoch ∧
      rxChecks (e false true) (p 1) = .accepted 0 ∧ rxChecks (e false false) (p 2) = .accepted 0 ∧ (hdrOf (p 2)).kind = 2 ∧
      rxChecks (e true false) (p 2) = .accepted 0 ∧ rxChecks (e false false) (p 3) = .accepted 0 ∧ (hdrOf (p 3)).kind = 3 ∧
      rxChecks (e true true) (p 3) = .accepted 0 ∧ (hdrOf (p 3)).typ = 4 ∧ (hdrOf (p 3)).epoch = val.epoch) := by decide +kernel

theorem test_meets_WatershedBeginsEpoch :
    Region.empty (getR (withV val) 0) = false ∧ Region.valley (getR (withV val) 0) = 0 ∧
    Region.valley (getR { ready with regions := [(0, { reg0 with w1 := 1 })] } 0) ≠ 0 ∧
    (let p := rx 4 0 4 3 []
     let e := withV { val with phase := .halted }
     rxChecks (withV val) p = .accepted 0 ∧ (hdrOf p).typ = 4 ∧ (hdrOf p).kind = 4 ∧ (hdrOf p).epoch = val.epoch ∧
      val.phase ≠ .frozen ∧ rxChecks e p = .accepted 0 ∧ (getV e 0).phase = .halted) := by decide +kernel

theorem test_meets_SkewIsRefused :
    (val.self = wardenOf val ∧ isJoined val = true ∧ val.warden.done = false ∧ val.warden.refused = none) ∧
    ({ val with self := 1 }.self ≠ wardenOf { val with self := 1 }) ∧
    ({ val with phase := .halted }.phase = .halted) ∧ ({ val with phase := .opened }.refusal = none) ∧
    (let w : Warden := { closes := [(0, { step := 4, poisoned := false }), (1, { step := 4, poisoned := false }),
                                    (2, { step := 4, poisoned := false })], drained := 7, landing := 7 }
     val.crossMode = false ∧ w.landingB = false ∧ val.landFold = false ∧ coversLive val w.landing = true ∧
      isLive val 1 = true ∧ isParity val 1 = false ∧ 1 ∈ liveList val ∧
      (∀ j ∈ liveList val, isParity val j = false → Tab.find w.closes j = some { step := 4, poisoned := false }) ∧
      coversLive val w.drained = true ∧ w.done = false ∧ w.refused = none) ∧
    (let p := rx 4 0 6 0x200 []
     rxChecks (withV val) p = .accepted 0 ∧ (hdrOf p).typ = 4 ∧ (hdrOf p).kind = 6 ∧ (hdrOf p).epoch = val.epoch) := by
  decide +kernel

/-! ## Valleys, regions, sessions -/

theorem test_meets_ValleyDefineDefines :
    (let w1 : W64 := pack [(0, 7), (16, 3), (24, 2), (32, 1)]
     let p := pk 0x10 0 [w1, 5]
     Taken (give ready p) 0 0x10 p ∧ slotBound (getV ready 0) = false ∧ pkf p 1 16 7 = 3 ∧ pkf p 1 24 6 = 2 ∧
     pkf p 1 32 3 = 1 ∧ pkw p 2 ≠ 0 ∧ Taken (give (withV val) p) 0 0x10 p ∧ slotBound (getV (withV val) 0) = true ∧
     Taken (give ready (pk 0x10 0 [w1])) 0 0x10 (pk 0x10 0 [w1]) ∧ pkw (pk 0x10 0 [w1]) 2 = 0) ∧
    (let p := pk 0x10 0 []
     let e := withV { val with slot := .defined }
     Taken (give ready p) 0 0x10 p ∧ pkf p 1 16 7 = 0 ∧ slotNamed ready 0 = false ∧
     Taken (give e p) 0 0x10 p ∧ slotBound (getV e 0) = false ∧ slotNamed e 0 = true) ∧
    (let p := pk 0x10 0 [pack [(0, 7), (16, 3), (24, 2), (32, 1)], 5]
     let e : Eng := { ready with valleys := [(2, val)] }
     Taken (give e p) 0 0x10 p ∧ slotBound (getV e 0) = false ∧
     ∃ y ∈ e.valleys, y.1 ≠ 0 ∧ isDefined y.2 = true ∧ y.2.tag.toNat = pkf p 1 0 16) := by
  simp only [Taken]
  decide +kernel

/-- The member table of Valley 0, and one whose own entry stands by. -/
def tableAll : List W64 := [0x20001, 0x20002, 0x20003]
def tableStandby : List W64 := [0x00001, 0x20002, 0x20003]

theorem test_meets_ValleyJoinAndLeave :
    (let p := pk 0x11 0 [0, 0x100000, 4, 9, host 0x3000]
     let q := pk 0x11 0 [3, 0x100000, 4, 9, host 0x3000]
     let x : Valley := { val with slot := .defined, members := [], live := 0, area := 0 }
     let s := give (withV x) p
     Taken s 0 0x11 p ∧ x.slot = .defined ∧ pkf p 1 0 6 < x.n ∧ addrOk (pkw p 5) 8 (8 * x.n) pkgBytes = true ∧
     (let tb (t : List W64) := memberTable (paramWords s.mem s.eng (pkw p 5) x.n t)
      tableGood s.eng x.n (pkf p 1 0 6) (bit (pkw p 1) 6) (tb tableAll).1 (tb tableAll).2 = true ∧
      tableGood s.eng x.n (pkf p 1 0 6) (bit (pkw p 1) 6) (tb tableStandby).1 (tb tableStandby).2 = true) ∧
     parityAreaOk s.eng 0 (bit (pkw p 1) 6) (pkw p 2) = true ∧ slotNamed s.eng 0 = true ∧
     bit (memberTable tableAll).2 0 = true ∧ bit (memberTable tableStandby).2 0 = false ∧
     Taken (give (withV x) q) 0 0x11 q ∧ ¬ pkf q 1 0 6 < x.n) ∧
    (let p := pk 0x12 0 []
     Taken (give (withV val) p) 0 0x12 p ∧ val.slot = .joined ∧ anyWaits val = false ∧
     Taken (give ready p) 0 0x12 p ∧ (getV ready 0).slot ≠ .joined ∧ (getV ready 0).slot ≠ .standby) := by
  simp only [Taken]
  decide +kernel

theorem test_meets_ValleyJoinAndLeave_stops :
    (ready.ctl.cpHaltBit = false ∧ (withV val).valleys.any (fun y => standsUp y.2) = true ∧ ready.valleys.all (fun y => !standsUp y.2) = true ∧
      (orderlyStop ready (cmdOf 0 0)).spill.zeroing = []) ∧
    (let e : Eng := { ready with spill := { zeroing := [4] } }
     let w : StopWait := { cmd := cmdOf 0 0, pages := [4] }
     (orderlyStop e (cmdOf 0 0)).spill.zeroing ≠ [] ∧ w.pages.any (fun g => e.spill.zeroing.contains g) = true ∧
      w.pages.all (fun g => !ready.spill.zeroing.contains g) = true) := by decide +kernel

theorem test_meets_ValleyJoinAndLeave_hellos :
    let w : JoinWait := { cmd := cmdOf 0 0, since := 0, helloTs := 0, matched := 0, complete := 0 }
    let x := { val with slot := .joining, joinWait := some w }
    let e := withV x
    let hello (e : Eng) (a : Bool) : RxPacket :=
      let m := msgParts (.hello (helloOf e 0 true a 0))
      { src := 2, ptag := 0, cls := 0, abort := false, flits := flitsOf 6 7 1 0 m.count 0 m.w2 m.w3 m.body }
    let same (e : Eng) (p : RxPacket) :=
      let h := hdrOf p
      helloMatches (helloDiff e 0 h.sender h.epoch (getV e 0).firstEpoch (getV e 0).base (helloIn p h))
    let p := hello e false
    let bad : RxPacket := rx 6 (msgParts (.hello (helloOf e 0 true false 0))).count 5 0 (List.replicate 16 0)
    let w1 : JoinWait := { w with matched := setBit w.matched 1, complete := setBit w.complete 1 }
    rxChecks e p = .accepted 0 ∧ (hdrOf p).typ = 6 ∧ (hdrOf p).kind = 5 ∧ same e p = true ∧ (helloIn p (hdrOf p)).complete = true ∧
    (othersLive x).all (bit w1.complete) = false ∧ (othersLive { x with live := 3 }).all (bit w1.complete) = true ∧
    rxChecks e bad = .accepted 0 ∧ same e bad = false ∧
    rxChecks (withV val) (hello (withV val) false) = .accepted 0 ∧
    (helloIn (hello (withV val) false) (hdrOf (hello (withV val) false))).answer = false ∧
    rxChecks (withV val) (hello (withV val) true) = .accepted 0 ∧
    (helloIn (hello (withV val) true) (hdrOf (hello (withV val) true))).answer = true := by decide +kernel

theorem test_meets_RegionsAreDefinedAndFrozen :
    (let p := pk 0x18 0 [2, 0x100000020, 0x200000000]
     let z := pk 0x18 0 [2, 0x20, 0]
     let bad := pk 0x18 0 [2, 0x100000000, 0x200000000]
     let e := withV { val with slot := .defined }
     let new (p : BitVec 512) : Region := { w0 := descBits0 (pkw p 2), w1 := descBits1 (pkw p 3), frozen := bit (descBits1 (pkw p 3)) 15 }
     Taken (give e p) 0 0x18 p ∧ mayDefine (give e p).eng (getQ (give e p).eng 0).owner 2 (pkw p 2) (pkw p 3) = true ∧
     regionRuns e (getR e 2) = false ∧ regionRuns e (new p) = false ∧ Region.empty (new p) = false ∧ regionOk e 2 (new p) = true ∧
     sidesKept e 2 (new p) = true ∧ Taken (give e z) 0 0x18 z ∧ Region.empty (new z) = true ∧ sidesKept e 2 {} = true ∧
     Taken (give e bad) 0 0x18 bad ∧ Region.empty (new bad) = false ∧ regionOk e 2 (new bad) = false ∧
     (let r : Eng := { e with regions := (2, { w0 := 0x100000020, w1 := 0x200000000 }) :: (3, { w0 := 0x100000030, w1 := 0x0002000310000300 }) :: e.regions }
      Region.empty {} = true ∧ sidesKept r 2 {} = false)) ∧
    (let w := withV val
     let same := pk 0x18 0 [0, reg0.w0, setBit reg0.w1 15]
     let other := pk 0x18 0 [0, reg0.w0 + 0x10, reg0.w1]
     regionRuns w (getR w 0) = true ∧ (getV w (Region.valley (getR w 0))).slot ≠ .standby ∧ Taken (give w same) 0 0x18 same ∧
     (getR w 0).w0 = descBits0 (pkw same 2) ∧ clrBit (getR w 0).w1 15 = clrBit (descBits1 (pkw same 3)) 15 ∧
     Taken (give w other) 0 0x18 other ∧ (getR w 0).w0 ≠ descBits0 (pkw other 2)) := by
  simp only [Taken]
  decide +kernel

theorem test_meets_RegionsAreDefinedAndFrozen_freeze :
    (let p := pk 0x19 0 []
     let sb := withV { val with slot := .standby }
     Taken (give (withV val) p) 0 0x19 p ∧ Region.empty (getR (withV val) 0) = false ∧ fnHoldsRegion (withV val) 0 0 = true ∧
     Taken (give ready p) 0 0x19 p ∧ Region.empty (getR ready 0) = true ∧ Taken (give sb p) 0 0x19 p ∧
     (getV sb (Region.valley (getR sb 0))).slot = .standby) ∧
    (let p := pk 0x1A 0 []
     let d := pk 0x19 0x100000000 []
     let far := pk 0x18 0x100000000 [0, 0x100000040, 1]
     let e : Eng := { withV val with
       valleys := [(0, val), (1, { val with tag := 8, fn := 0x43 })]
       ctl := { ready.ctl with negotiated := [(0, 1), (0x43, 1)], grants := [{ ptag := 9, vf := 3 }] } }
     let s (p : BitVec 512) : State := st { e with ctl := { e.ctl with queues := [(0, { cmdQ p with owner := 0x43 })] } }
     Taken (give (withV val) p) 0 0x1A p ∧ Taken (s d) 0 0x19 d ∧ Region.empty (getR (s d).eng 0) = false ∧ fnHoldsRegion (s d).eng (getQ (s d).eng 0).owner 0 = false ∧
     Taken (s far) 0 0x18 far ∧ mayDefine (s far).eng (getQ (s far).eng 0).owner 0 (pkw far 2) (pkw far 3) = false) := by
  simp only [Taken]
  decide +kernel

theorem test_meets_CommandPath :
    (let e : Eng := { ready with ctl := { ready.ctl with queues := [(0, { cmdQ 0 with buf := [], sub := 1, out := 0 })] } }
     mayFetch e 0 = true ∧ mayFetch ready 0 = false) ∧
    (let p := pk 0x23 0x100 []
     headReady (give ready p).eng 0 = some p ∧ (pkOp p).toNat = 0x23 ∧
     preCheck (popHead (give ready (pk 0x23 0x200 [])).eng 0) 0 (pk 0x23 0x200 []) = some stBadVersion) ∧
    (headReady (give ready (pk 0x22 0 [])).eng 0 = some (pk 0x22 0 []) ∧ (pkOp (pk 0x22 0 [])).toNat ≠ 0x23) ∧
    headReady ready 0 = none ∧
    (let p := pk 0x23 0 []
     let q := pk 0x23 0 [host 0x4000]
     let w : WsRecord := { number := 1, step := 2, ts := 3, tag := 7, crossing := false, folded := 2 }
     Taken (give (withV val) p) 0 0x23 p ∧ (getV (withV val) 0).ws = none ∧
     Taken (give (withV { val with ws := some w }) q) 0 0x23 q ∧ pkw q 1 ≠ 0 ∧ isHost (pkw q 1) = true ∧
     addrOk (pkw q 1) 8 32 pkgBytes = true ∧ Taken (give (withV { val with ws := some w }) p) 0 0x23 p ∧ pkw p 1 = 0) := by
  simp only [Taken]
  decide +kernel

theorem test_meets_NegotiateAndQuery :
    (let p := pk 0x01 0 [0x11]
     let z := pk 0x01 0 []
     let e : Eng := { ready with ctl := { ready.ctl with negotiated := [] } }
     let again (s : State) := Tab.has s.eng.ctl.negotiated 0 && decide (1 < outstanding (popHead s.eng 0) 0)
     let two : State := st { ready with ctl := { ready.ctl with queues := [(0, { cmdQ p with buf := [p, p], out := 2 })] } }
     Taken (give e p) 0 0x01 p ∧ again (give e p) = false ∧ Taken (give ready p) 0 0x01 p ∧ again (give ready p) = false ∧
     Taken two 0 0x01 p ∧ again two = true ∧ headReady (give e z).eng 0 = some z ∧ (pkOp z).toNat = 0x01 ∧ pkf z 1 0 4 = 0) ∧
    (let p := pk 0x03 0 [2, 0, host 0x5000, 4096]
     let k := pk 0x03 0 [2, 0, 0x5000, 4096]
     let b := pk 0x03 0 [2, 0, host 0x5000, 8]
     let u := pk 0x03 0 [0xFF, 0, host 0x5000, 8]
     let item (p : BitVec 512) := queryItem [] (popHead (give (withV val) p).eng 0) 0 (pkf p 1 0 8) (pkw p 2).toNat (pkValley p)
     let len := ((item p).map List.length).getD 0
     Taken (give (withV val) p) 0 0x03 p ∧ (item p).isSome = true ∧ isHost (pkw p 3) = true ∧ 8 * len ≤ pkf p 4 0 32 ∧
     addrOk (pkw p 3) 8 (8 * len) pkgBytes = true ∧
     queryDenied (popHead (give (withV val) p).eng 0) 0 (pkf p 1 0 8) (pkw p 2).toNat = none ∧
     Taken (give (withV val) k) 0 0x03 k ∧ isHost (pkw k 3) = false ∧ addrOk (pkw k 3) 8 (8 * len) pkgBytes = true ∧
     Taken (give (withV val) b) 0 0x03 b ∧ pkf b 4 0 32 < 8 * len ∧ addrOk (pkw b 3) 8 0 pkgBytes = true ∧
     Taken (give (withV val) u) 0 0x03 u ∧ item u = none ∧
     queryDenied (popHead (give (withV val) u).eng 0) 0 0xFF 0 = none) := by
  simp only [Taken]
  decide +kernel

theorem test_meets_ConfigureAllOrNothing :
    let p := pk 0x02 0 [host 0x6000, 1]
    let ok : List W64 := [0x20048, 20]
    let far : List W64 := [0x20048, 1]
    let lock : List W64 := [0x20008, 0x200000]
    let ns : List W64 := [0x50050, 8]
    let e := (popHead (give (withV val) p).eng 0)
    let es (l : List W64) := configEntries (paramWords [] e (pkw p 1) 2 l) 1
    let w (l : List W64) := walkConfig e (es l) e false false
    let bad (l : List W64) := (w l).2.2 || !remapsOk e (w l).1 || !configCross e (w l).1 (es l)
    let no : Eng := { e with regs := { e.regs with accReg := [] } }
    let z := pk 0x02 0 [host 0x6000, 0]
    Taken (give (withV val) p) 0 0x02 p ∧ pkf p 2 0 9 = 1 ∧ addrOk (pkw p 1) 16 16 pkgBytes = true ∧
    Taken (give (withV val) z) 0 0x02 z ∧ pkf z 2 0 9 = 0 ∧
    ((es ok).any (fun x => configDenied e 0 x.1) = false ∧ configNs (w ok).1 (es ok) = true ∧ (w ok).2.1 = false ∧ bad ok = false) ∧
    ((es ok).any (fun x => configDenied no 0 x.1) = true) ∧
    ((es ns).any (fun x => configDenied e 0 x.1) = false ∧ configNs (w ns).1 (es ns) = false) ∧
    ((es lock).any (fun x => configDenied e 0 x.1) = false ∧ configNs (w lock).1 (es lock) = true ∧ (w lock).2.1 = true) ∧
    ((es far).any (fun x => configDenied e 0 x.1) = false ∧ configNs (w far).1 (es far) = true ∧ (w far).2.1 = false ∧
      bad far = true) := by
  simp only [Taken]
  decide +kernel

theorem test_meets_ConfigureAllOrNothing_lba :
    configLba (withV val) (configEntries (paramWords [] (withV val) (host 0x6000) 2 [0x20048, 20]) 1) = true := by decide +kernel

theorem test_meets_HostAccessFails :
    (let e : Eng := { ready with ctl := { ready.ctl with queues := [(0, { cmdQ 0 with buf := [], sub := 1, out := 0 })] } }
     ctlOn e = true ∧ mayFetch e 0 = true) ∧
    (let w : HmWrite := { src := .reply 0, addr := 0, data := [] }
     let e (er : Bool) : Eng := { ready with ctl := { ready.ctl with queues := [(0, { cmdQ 0 with error := er })] }, io := { hm := [w] } }
     (getQ (e false) 0).enabled = true ∧ (getQ (e false) 0).error = false ∧ dropWrite (.reply 0) (e false).io.hm = some (w, []) ∧
      (getQ (e true) 0).enabled = true ∧ (getQ (e true) 0).error = true ∧ (getQ (e true) 0).finalDue = false) ∧
    (let p := pk 0x02 0 [host 0x6000, 1]
     headReady (give (withV val) p).eng 0 = some p ∧ (listWords p).any isHost = true ∧ preCheck (give (withV val) p).eng 0 p = none) ∧
    (let w : HmWrite := { src := .event, addr := 0, data := [] }
     dropWrite .event [w] = some (w, [])) := by decide +kernel

/-! ## Register accesses -/

theorem test_meets_RegisterAccessErrors :
    (fabOn ready = true ∧ (1 : BitVec 2) ≠ 2 ∧ (1 : BitVec 2) ≠ 3 ∧ (0x20004 : BitVec 24).toNat % 8 ≠ 0 ∧
      0x100000 ≤ (0x100000 : BitVec 24).toNat ∧ ready.side.pwrState ≠ 2) ∧
    (let e : Eng := { ready with side := { ready.side with pwrState := 2, dbgLvl := 1 } }
     let a : RegAcc := { mid := 0, wr := true, addr := 0x20000, bytes := 3, data := 5 }
     let d : RegAcc := { mid := 0x81, wr := false, addr := 0x20001, bytes := 3, data := 0 }
     let r : RegAcc := { mid := 0x81, wr := false, addr := 0x10FF8, bytes := 3, data := 0 }
     fabOn e = true ∧ a.malformed = false ∧ e.side.pwrState = 2 ∧ retentionGroup 2 = false ∧ d.malformed = true ∧
      r.malformed = false ∧ retentionGroup 1 = true ∧ e.side.dbgLvl = 1 ∧ locate (0x10FF8 / 8 * 8) = none) ∧
    (let a : RegAcc := { mid := 3, wr := false, addr := 0xFFFF8, bytes := 3, data := 0 }
     a.malformed = false ∧ ready.side.pwrState ≠ 2 ∧ accAllows ready 3 false 15 = false ∧ accAllows ready 0 true 1 = true) := by
  decide +kernel

theorem test_meets_ConfigurationWrites :
    (Reaches (st (withV val)) 0 true 0x20048 ∧ locate 0x20048 = some .suspectGap ∧ Reg.fields .suspectGap ≠ [] ∧
      mayOwn (withV val) 0 .suspectGap = true ∧
      (let w : W64 := 10 &&& Reg.mask .suspectGap
       Reg.locks (withV val) .suspectGap w = false ∧ Reg.rangeOk .suspectGap w = true ∧
         Reg.entryOk (withV val) .suspectGap w = true ∧
         Reg.crossOk (withV val) (Reg.put (withV val) .suspectGap w) .suspectGap = true ∧
         Reg.nsOk (Reg.put (withV val) .suspectGap w) .suspectGap = true ∧
         Reg.lbaOk (Reg.put (withV val) .suspectGap w) .suspectGap = true) ∧
      (let w : W64 := 9 &&& Reg.mask .suspectGap
       Reg.locks (withV val) .suspectGap w = false ∧ Reg.rangeOk .suspectGap w = false)) ∧
    (Reaches (st (withV val)) 0 true 0x20008 ∧ locate 0x20008 = some .spillBase ∧ Reg.fields .spillBase ≠ [] ∧
      (let w : W64 := 0x200000 &&& Reg.mask .spillBase
       let new := Reg.put (withV val) .spillBase w
       Reg.locks (withV val) .spillBase w = true ∧ Reg.rangeOk .spillBase w = true ∧ Reg.entryOk (withV val) .spillBase w = true ∧
        Reg.crossOk (withV val) new .spillBase = true ∧ Reg.nsOk new .spillBase = true ∧ Reg.lbaOk new .spillBase = true)) ∧
    (locate 0x20010 = some .spillSize ∧ Reg.locks (withV val) .spillSize (131073 &&& Reg.mask .spillSize) = true ∧
      Reg.rangeOk .spillSize (131073 &&& Reg.mask .spillSize) = false) := by
  simp only [Reaches]
  decide +kernel

theorem test_meets_QueuesAndVectors :
    (Reaches (st ready) 0 true 0x30000 ∧ mayOwn ready 0 (.qCtrl 63) = true ∧ (getQ (replyWritten ready 63) 63).enabled = false ∧
      (getQ ready 63).inFlight = false) ∧
    (let e (n : Nat) : Eng := { ready with ctl := { ready.ctl with queues := [(0, { cmdQ 0 with out := n, buf := [] })], irq := 0x5 } }
     Reaches (st (e 1)) 0 true 0x30000 ∧ Reaches (st (e 1)) 0 true 0x40000 ∧ (getQ (e 1) 0).enabled = true ∧
      (getQ (e 1) 0).want = true ∧ (getQ (replyWritten (e 1) 0) 0).enabled = true ∧ (getQ (replyWritten (e 1) 0) 0).out ≠ 0 ∧
      (getQ (replyWritten (e 0) 0) 0).enabled = true ∧ (getQ (replyWritten (e 0) 0) 0).out = 0 ∧
      (getQ (replyWritten (e 0) 0) 0).buf = [] ∧ (getQ (replyWritten (e 0) 0) 0).finalDue = false ∧
      (e 1).ctl.irq66Due = false ∧ mayOwn (e 1) 0 (.qCtrl 0) = true) ∧
    (let e : Eng := { ready with ctl := { ready.ctl with irq66Due := true } }
     e.ctl.irq66Due = true ∧ bit (0xF : W64) 2 = true ∧ gapOver e = true) := by
  simp only [Reaches]
  decide +kernel

theorem test_meets_EventRing :
    (Reaches (st ready) 0 true 0x40000 ∧ ready.ctl.evt.held = [] ∧ ready.ctl.evt.lost = 0 ∧
      bit ready.ctl.evt.ctrl 8 = false ∧ engineRuns ready = false ∧ 10 ≤ fld (0x10A : W32) 0 4) ∧
    (let e : Eng := { ready with ctl := { ready.ctl with evt := { ready.ctl.evt with ctrl := 0x10A, base := host 0x8000 } } }
     evtOpen e = true ∧ e.ctl.evt.held = [] ∧ e.ctl.evt.lost = 0) ∧
    (evtOpen ready = false ∧ ready.ctl.evt.held.length < evtHoldMax ∧
      (∀ r : EvtRec, evtHoldMax ≤ (List.replicate 16384 r).length)) := by
  refine ⟨by simp only [Reaches]; decide +kernel, by decide +kernel, by decide +kernel, by decide +kernel, fun _ => Nat.le_of_eq List.length_replicate.symm⟩

theorem test_meets_TablesAreWritten :
    (let e : Eng := { ready with ctl := { ready.ctl with stagedW0 := some (1023, reg0.w0, 0) } }
     Reaches (st e) 0 true 0x60000 ∧ e.ctl.stagedW0 = some ((1023 : Fin 1024).val, reg0.w0, 0)) ∧
    (let e : Eng := { ready with regs := { ready.regs with remap := [(3, 0x4000)] } }
     Reaches (st e) 0 true 0x70000 ∧ engineRuns e = false ∧ e.ctl.evt.held = [] ∧ e.ctl.evt.lost = 0 ∧ bit (0x7FFF : W32) 14 = true ∧
      bit (Tab.get 0 e.regs.remap 15) 14 = false ∧ e.basin.writeback = [] ∧
      (∀ r ∈ e.regs.remap, r.1 ≠ 15 → bit r.2 14 = true → fld r.2 0 14 ≠ fld (0x7FFF : W32) 0 14) ∧
      bit (Tab.get 0 e.regs.remap 3) 14 = true ∧ fld (Tab.get 0 e.regs.remap 3) 0 14 ≠ fld (0x7FFF : W32) 0 14) ∧
    (Reaches (st ready) 0 true 0x80000 ∧ ready.ctl.evt.held = [] ∧ ready.ctl.evt.lost = 0 ∧ 0x40 ≤ (0x40 : Byte).toNat ∧
      (0x80 : Byte).toNat ≤ 0x80 ∧ (0x3F : Byte).toNat < 0x40 ∧ 0x80 < (0x81 : Byte).toNat) := by
  simp only [Reaches]
  decide +kernel

theorem test_meets_ReadsAndDebugPort :
    (Reaches (st ready) 0 false 0x90000 ∧ isVf 0 = false ∧ (27 : Fin 28).val ≠ 25 ∧ Reaches (st ready) 0 false 0x10000) ∧
    (let e (o : Tab PageOwner) (k : List Nat) : Eng :=
       { ready with side := { ready.side with dbgLvl := 2 }
                    basin := { ready.basin with valid := [(1, true)], owners := o, known := k }
                    regs := { ready.regs with basinAddr := 0x10 } }
     let a := e [] []
     let f : Eng := { a with ctl := { a.ctl with cpHaltBit := true } }
     Reaches (st a) 0x81 true 0xD0000 ∧ Reaches (st a) 0x81 false 0xD0000 ∧ a.side.dbgLvl = 2 ∧ a.ctl.cpHaltBit = false ∧
      f.ctl.cpHaltBit = true ∧ Reaches (st f) 0x81 true 0xD0000 ∧ pageValid a (fld a.regs.basinAddr 0 18 / 16) = true ∧
      pageValid { a with regs := { a.regs with basinAddr := 0x3FFFF } } (0x3FFFF / 16) = false ∧
      (readWord (storedAt a 1 0)).corr = 0 ∧ (readWord (storedAt a 1 0)).bad = 0 ∧ Tab.has a.basin.owners 1 = false ∧
      Tab.has (e [(1, .control 0)] [16]).basin.owners 1 = true ∧ (e [(1, .control 0)] [16]).basin.known.contains 16 = true ∧
      (e [(1, .control 0)] []).basin.known.contains 16 = false) := by
  simp only [Reaches]
  decide +kernel

/-! ## Rebuild, audit, comparison -/

/-- A rebuild run of member 2's stripes on member 0. -/
def run0 : Run :=
  { kind := .rebuild, cmd := none, plan := 0, lost := [2], dest := 2, tgt := 2, groups := [{ ident := 4, excl := [] }]
    epoch := 0, scope := [(0, 1)], window := 16 }

/-- A unit kept for the first target of that run. -/
def kept0 : Kept := { target := 0, ident := 4, succ := 1, hop := 0, rows := [[1]], first := 0, last := 0, upto := 0 }

theorem test_meets_KeptUnitsAgain :
    let x := { val with runs := [{ run0 with kept := [kept0] }] }
    let y := { val with runs := [{ run0 with kept := [kept0], stalled := [1] }] }
    ctlOn (withV x) = true ∧ runAt (getV (withV x) 0) (5 : W16).toNat = some { run0 with kept := [kept0] } ∧
    kept0.ident = (5 : W16).toNat / 4 * 4 ∧ kept0.succ ∉ run0.stalled ∧ x.hopTimeout ≤ 4 * ((withV x).side.ts - kept0.last).toNat ∧
    (keptTarget (withV x) 0 run0 kept0).isSome = true ∧ kept0.succ = (1 : Fin 64).val ∧
    x.hopTimeout ≤ ((withV x).side.ts - kept0.first).toNat ∧
    (∃ r, runAt (getV (withV y) 0) (5 : W16).toNat = some r ∧ (1 : Fin 64).val ∈ r.stalled) := by
  refine ⟨by decide +kernel, by decide +kernel, by decide +kernel, by decide +kernel, by decide +kernel, by decide +kernel,
    by decide +kernel, by decide +kernel, _, rfl, by decide +kernel⟩

/-- A packet of type rebuild-hop for Reach 0, group 0, with a word 3 of its own. -/
def hopRx (w3 : W64) : RxPacket := rx 5 16 0 w3 (List.replicate 4320 7)

/-- An audit of every stripe under identity 4. -/
def audit0 : Machine.Run := { run0 with kind := .audit, lost := [], tgt := 0, dest := 0 }

theorem test_meets_KeptUnitsAgain_hops :
    let p := hopRx 4
    let h := hopOf p (hdrOf p)
    let e (r : Machine.Run) := withV { val with runs := [r] }
    let t0 : Target := { num := 0, reach := 0, group := 0, stripe := 2, parity := false, pos := 0 }
    let old := { val with oldRuns := [run0] }
    (rxChecks (e run0) p = .accepted 0 ∧ (hdrOf p).typ = 5 ∧ h.hop ≠ 255 ∧ h.ident = 4 ∧ h.ident % 4 < val.m) ∧
    (runAt (getV (e run0) 0) 4 = some run0 ∧ hopTarget (e run0) 0 run0 h = some t0 ∧ run0.finished.contains (0, 4) = false ∧
      run0.recv = [] ∧ (turnOf (e run0) 0 run0).map (·.num) ≠ some 0 ∧ run0.recv.length < run0.window) ∧
    (let r := { run0 with finished := [(0, 4)] }
     runAt (getV (e r) 0) 4 = some r ∧ hopTarget (e r) 0 r h = some t0 ∧ r.finished.contains (0, 4) = true) ∧
    (let r := { run0 with window := 0 }
     runAt (getV (e r) 0) 4 = some r ∧ hopTarget (e r) 0 r h = some t0 ∧ (turnOf (e r) 0 r).map (·.num) ≠ some 0 ∧
      r.window ≤ r.recv.length) ∧
    (runAt old 4 = none ∧ old.oldRuns.find? (fun r => r.groups.any fun g => decide (g.ident = 4)) = some run0 ∧
      runAt val 4 = none ∧ val.oldRuns = []) ∧
    (let p := rx 3 0 6 0x10004 []
     let r := { run0 with kept := [kept0] }
     rxChecks (e r) p = .accepted 0 ∧ (hdrOf p).typ = 3 ∧ (hdrOf p).kind = 6 ∧ runAt (getV (e r) 0) (fld (hdrOf p).w3 0 16) = some r) := by
  decide +kernel

theorem test_meets_KeptUnitsAgain_corrections :
    let p := hopRx 0x80FF0004
    let h := hopOf p (hdrOf p)
    let e (r : Machine.Run) := withV { val with runs := [r] }
    let t1 : Target := { num := 1, reach := 0, group := 0, stripe := 1, parity := true, pos := 0 }
    rxChecks (e audit0) p = .accepted 0 ∧ (hdrOf p).typ = 5 ∧ h.hop = 255 ∧ anyRunAt val h.ident = none ∧
    (let r := audit0
     anyRunAt (getV (e r) 0) h.ident = some r ∧ r.kind = .audit ∧ r.epoch = val.epoch ∧ val.phase = .idle ∧ val.t1 = none ∧
      hopTarget (e r) 0 r h = some t1 ∧
      (targetPos (e r) 0 t1).find? (fun i => decide (i.mem = val.self)) = some { parity := true, idx := 0, mem := 0 } ∧
      (reachAt (e r) 0 0).isSome = true ∧ r.finished.contains (1, 4 + 65536) = false) ∧
    (let r := { audit0 with finished := [(1, 4 + 65536)] }
     anyRunAt (getV (e r) 0) h.ident = some r ∧ hopTarget (e r) 0 r h = some t1 ∧ r.finished.contains (1, 4 + 65536) = true) := by
  decide +kernel

theorem test_meets_RebuildPlanIsKept :
    let p := pk 0x31 0 [0x100000002]
    let q := pk 0x31 0 [0x200000102]
    let z := pk 0x31 0 [0x500000000]
    let fit (s : State) (p : BitVec 512) := isJoined val && decide (1 ≤ pkf p 1 32 3 ∧ pkf p 1 32 3 ≤ 4) &&
      (planLost p).all (fun j => decide (j < val.n)) && (!unfinished s.eng 0 || (planLost p).contains val.self)
    Taken (give (withV val) p) 0 0x31 p ∧ fit (give (withV val) p) p = true ∧ planSlot val = some 0 ∧ tooFew val (planLost p) = false ∧
    planSlot { val with plans := [⟨0, [2], 3⟩, ⟨1, [2], 1⟩, ⟨2, [2], 2⟩, ⟨3, [2], 4⟩] } = some 1 ∧
    Taken (give (withV val) q) 0 0x31 q ∧ fit (give (withV val) q) q = true ∧ tooFew val (planLost q) = true ∧
    Taken (give (withV val) z) 0 0x31 z ∧ fit (give (withV val) z) z = false := by
  simp only [Taken]
  decide +kernel

/-- What REBUILD_RUN's statement asks of an admitted run. -/
def runFits (s : State) (list : List W64) (p : BitVec 512) : Bool :=
  scopeAddrOk p && runMay s.eng 0 (pkw p 2) (scopeOf list (pkf p 4 0 13)) && identFree (getV s.eng 0) (pkf p 1 16 16) &&
    decide (16 ≤ windowOf_ p ∧ windowOf_ p ≤ 1024)

theorem test_meets_RunsAreTaken :
    (let x := { val with plans := [⟨3, [2], 0⟩] }
     let p := pk 0x32 0 [0x40203, 0, host 0x10, 0x40000000001, 0]
     let e := withV x
     Taken (give e p) 0 0x32 p ∧ pkA p = false ∧ x.plans.find? (fun y => decide (y.num = pkf p 1 0 2)) = some ⟨3, [2], 0⟩ ∧
      runFits (give e p) [0x200000000] p = false ∧ runFits (give e p) [0x100000000] p = true ∧ pkf p 5 0 2 = 0 ∧
      [2].contains (pkf p 1 8 6) = true ∧ windowOf_ p = 1024 ∧ freeCount (give e p).eng 2 < runPages x 1024 ∧ runPages x 128 ≤ freeCount (give e p).eng 2 ∧
      (let q := pk 0x32 0 [0x40203, 0, host 0x10, 1, 0]
       Taken (give e q) 0 0x32 q ∧ runFits (give e q) [0x100000000] q = true ∧ windowOf_ q = 128)) ∧
    (let x := { val with runs := [run0] }
     let p := pk 0x32 0x4000 [0x40000, 0, 0, 0, 0x00010008]
     let f := pk 0x32 0x4000 [0x40000, 0, 0, 0, 0x00020008]
     Taken (give (withV x) p) 0 0x32 p ∧ pkA p = true ∧ runAt x (pkf p 1 16 16) = some run0 ∧ isJoined x = true ∧
      pkw p 2 = x.epoch ∧ run0.kind ≠ .audit ∧ pkf p 1 16 2 = 0 ∧ identFree x (pkf p 5 0 16) = true ∧ pkf p 5 16 6 < x.n ∧
      tooFew x (run0.lost ++ [] ++ [pkf p 5 16 6]) = true ∧ Taken (give (withV x) f) 0 0x32 f ∧
      tooFew x (run0.lost ++ [] ++ [pkf f 5 16 6]) = false ∧ identFree x (pkf f 5 0 16) = true ∧ pkf f 5 16 6 < x.n) ∧
    (let p := pk 0x38 0 [0x40001, 0, host 0x10, 0x1000000001]
     let e := withV val
     Taken (give e p) 0 0x38 p ∧ runFits (give e p) [0x100000000] p = true ∧ pkf p 1 0 6 < val.n ∧
      (List.range val.n).all (isLive val) = true ∧ unfinished e 0 = false ∧ pkA p = false ∧ windowOf_ p = 16 ∧
      runPages val (windowOf_ p) ≤ freeCount (give e p).eng 2 ∧ runFits (give e p) [0x200000000] p = false) ∧
    (let x := { val with plans := [⟨3, [2], 0⟩], phase := .frozen }
     let p := pk 0x34 0 [0x40003, 0x40000, 1]
     let e := withV x
     let es := contractMap (paramWords [] e (pkw p 2) 4 []) 1
     Taken (give e p) 0 0x34 p ∧ x.plans.find? (fun y => decide (y.num = pkf p 1 0 2)) = some ⟨3, [2], 0⟩ ∧
      isJoined x = true ∧ x.phase = .frozen ∧ pkf p 3 0 7 = 1 ∧ addrOk (pkw p 2) 32 32 pkgBytes = true ∧
      identFree x (pkf p 1 16 16) = true ∧ es.all (mapEntryOk [] e 0) = false ∧
      (let ws : List W64 := [0x100000000, 1, 0x2000000, 0]
       let h := pk 0x34 0 [0x40003, host 0x40000, 1]
       Taken (give e h) 0 0x34 h ∧ (contractMap (paramWords [] (give e h).eng (pkw h 2) 4 ws) 1).all (mapEntryOk [] e 0) = true) ∧
      runPages x 128 ≤ freeCount (give e p).eng 2) := by
  simp only [Taken]
  refine ⟨?_, ?_, ?_, ?_⟩ <;> decide +kernel

theorem test_meets_RunsAreTaken_refusals :
    (let p := pk 0x32 0 [0x40203, 0, host 0x10, 1, 0]
     Taken (give (withV val) p) 0 0x32 p ∧ pkA p = false ∧ val.plans.find? (fun y => decide (y.num = pkf p 1 0 2)) = none) ∧
    (let x := { val with runs := [run0] }
     let p := pk 0x32 0x4000 [0x40000, 1, 0, 0, 0x00020008]
     Taken (give (withV x) p) 0 0x32 p ∧ pkA p = true ∧ runAt x (pkf p 1 16 16) = some run0 ∧ pkw p 2 ≠ x.epoch) ∧
    (let p := pk 0x38 0x4000 [0x40001, 0, host 0x10, 0x1000000001]
     let x := { val with t1o := { val.t1o with pending := true } }
     Taken (give (withV x) p) 0 0x38 p ∧ pkA p = true ∧ runFits (give (withV x) p) [0x100000000] p = true ∧ x.t1 = none) := by
  simp only [Taken]
  refine ⟨?_, ?_, ?_⟩ <;> decide +kernel

theorem test_meets_StandInBinds :
    (let x := { val with phase := .frozen, live := 3 }
     let p := pk 0x33 0 [0x40002, 7]
     let e := withV x
     Taken (give e p) 0 0x33 p ∧ pkA p = false ∧ isJoined x = true ∧ x.phase = .frozen ∧ pkf p 1 0 6 = 2 ∧
      isLive x 2 = false ∧ fld ((pkw p 1).extractLsb' 16 16) 13 3 = 0 ∧ (pkw p 1).extractLsb' 16 16 ≠ e.ctl.node ∧
      (liveList x).any (fun i => decide (nodeOf x i = (pkw p 1).extractLsb' 16 16)) = false ∧ x.retained = [] ∧
      2 < x.members.length ∧ subMod 2 x.self x.n ∈ distances x ∧ subMod x.self 2 x.n ∈ distances x ∧ isLive val 2 = true ∧
      Taken (give (withV val) p) 0 0x33 p) ∧
    (let x := { val with slot := .standby, self := 2, live := 0 }
     let p := pk 0x33 0x4000 [2, 7, 5, 6, 0x300000]
     let h := pk 0x33 0x4000 [2, 7, 5, 6, host 0]
     let m := pk 0x33 0x4000 [2, 7, 5, 6, 0x300001]
     let e := withV x
     Taken (give e p) 0 0x33 p ∧ pkA p = true ∧ x.slot = .standby ∧ pkf p 1 0 6 = x.self ∧ isHost (pkw p 5) = false ∧
      addrOk (pkw p 5) 8 ((allTargets e 0 + 7) / 8) pkgBytes = true ∧ Taken (give e h) 0 0x33 h ∧ isHost (pkw h 5) = true ∧
      Taken (give e m) 0 0x33 m ∧ addrOk (pkw m 5) 8 ((allTargets e 0 + 7) / 8) pkgBytes = false) := by
  simp only [Taken]
  decide +kernel

theorem test_meets_StandInBinds_digests :
    let sum : Summary := { sender := 1, epoch := 0, first := 1, landing := false, crossing := false, recorded := false, bitmap := 0 }
    let w : SpareWait := { cmd := cmdOf 0 0, since := 0, base := 0, hello := true, got := [], summary := none }
    let x (w : SpareWait) : Valley := { val with slot := .spare, phase := .frozen, standIn := true, spareWait := some w }
    let p := rx 6 1 1 0 (List.replicate 16 0)
    let full := { w with got := [1], summary := some sum }
    rxChecks (withV (x w)) p = .accepted 0 ∧ (hdrOf p).typ = 6 ∧ (hdrOf p).kind = 1 ∧ (getV (withV (x w)) 0).spareWait = some w ∧
      w.summary = none ∧ rxChecks (withV (x full)) p = .accepted 0 ∧ full.summary = some sum ∧
      ((reachList (withV (x full)) 0).map (·.num)).all (fun r => full.got.contains r ||
        (digEntries p (hdrOf p).count).any fun d => decide (d.reach = r)) = true ∧
      ((digEntries p (hdrOf p).count).map (·.reach)).Nodup ∧ (withV (x full)).ctl.cpHaltBit = false := by decide +kernel

theorem test_meets_ComparisonsStartAndStop :
    (let p := pk 0x39 0 [0x701, 0x400000, host 0]
     let z := pk 0x39 0 [2]
     let y := pk 0x39 0 [3]
     let e := withV val
     Taken (give e p) 0 0x39 p ∧ pkf p 1 0 4 = 1 ∧ isJoined val = true ∧ val.phase = .idle ∧ isHost (pkw p 2) = false ∧
      addrOk (pkw p 2) 8 (16 * (reachList e 0).length) pkgBytes = true ∧ pkf p 1 8 3 + 1 = 8 ∧
      clearRange e (addrOf (pkw p 2)) (16 * (reachList e 0).length) = true ∧ addrOk (pkw p 3) 8 64 pkgBytes = true ∧
      (let ws (l : List W64) := paramWords [] (give e p).eng (pkw p 3) 8 l
       (ws []).all (fun w => decide (fld w 13 3 = 0)) = true ∧ (ws [0x2000]).all (fun w => decide (fld w 13 3 = 0)) = false) ∧
      Taken (give e z) 0 0x39 z ∧ pkf z 1 0 4 = 2 ∧ isDefined val = true ∧ val.slot ≠ .standby ∧ Taken (give e y) 0 0x39 y ∧
      pkf y 1 0 4 = 3 ∧ Taken (give ready z) 0 0x39 z ∧ isDefined (getV ready 0) = false) ∧
    (let p := pk 0x3A 0 [1, 0x400000, 0x70003]
     let z := pk 0x3A 0 [2]
     let y := pk 0x3A 0 [0]
     let far := pk 0x3A 0 [1, 0x400000, 0x72003]
     let e := withV val
     Taken (give e p) 0 0x3A p ∧ pkf p 1 0 4 = 1 ∧ addrOk (pkw p 2) 8 (lockBytes e 0) pkgBytes = true ∧
      isHost (pkw p 2) = false ∧ fld (pkw p 3) 13 3 = 0 ∧ Taken (give e z) 0 0x3A z ∧ pkf z 1 0 4 = 2 ∧
      Taken (give e y) 0 0x3A y ∧ pkf y 1 0 4 = 0 ∧ Taken (give e far) 0 0x3A far ∧ fld (pkw far 3) 13 3 ≠ 0 ∧
      Taken (give ready z) 0 0x3A z) ∧
    (let x := { val with standIn := true, phase := .frozen, rmap := 0x500000, reaches := [(0, { unbuilt := true })] }
     let y := { x with reaches := [(0, { unbuilt := true, comm := 1 })] }
     let m : List Host.Cell := [(0x500000, 0xFF)]
     let due (m : List Host.Cell) (x : Valley) := (reachAt (withV x) 0 0).map fun r =>
       x.standIn && isJoined x && (getReach x 0).unbuilt &&
         (List.range (targetsIn x r)).all fun i => doneBit m (withV x) 0 (targetsBefore (withV x) 0 0 + i)
     due m x = some true ∧ due m y = some true ∧ due [] x = some false ∧
      reachDigest m (withV x) 0 0 = (getReach x 0).comm ∧ reachDigest m (withV y) 0 0 ≠ (getReach y 0).comm) := by
  simp only [Taken]
  decide +kernel

theorem test_meets_ComparisonsStartAndStop_digests :
    (let p (d : Byte) := rx 6 1 4 3 (d :: List.replicate 15 0)
     let body (d : Byte) := rx 6 1 4 3 (List.replicate 8 0 ++ d :: List.replicate 7 0)
     let c : Compare := { running := true, partners := [mate], area := 0x400000 }
     let x := { val with cmp := c }
     let y := { val with cmp := { c with genStep := [(1, 3)] } }
     let bad (q : RxPacket) := (digEntries q (hdrOf q).count).filter fun d =>
       decide (loadWord [] (withV y) (cmpAddr y.cmp d.reach 1) ≠ d.digest)
     rxChecks (withV x) (body 0) = .partner 0 0 ∧ (hdrOf (body 0)).kind = 4 ∧ (hdrOf (body 0)).w3 = 3 ∧
      Tab.find x.cmp.genStep 0 ≠ some 3 ∧ Tab.find x.cmp.genStep 1 ≠ some 3 ∧
      rxChecks (withV y) (body 0) = .partner 0 0 ∧ Tab.find y.cmp.genStep 1 = some 3 ∧ Tab.find y.cmp.genStep 0 ≠ some 3 ∧
      y.cmp.partners[0]? = some mate ∧ bad (body 0) = [] ∧ bad (body 5) ≠ [] ∧ mate.raised ≠ some 3 ∧
      rxChecks (withV y) (p 0) = .partner 0 0) ∧
    (let body (t d : Byte) := rx 6 1 2 3 (List.replicate 4 0 ++ List.replicate 4 t ++ d :: List.replicate 7 0)
     let c : Compare := { lock := true, lockPeer := some mate, lockArea := 0x400000 }
     let x (st : Option W64) : Valley := { val with cmp := c, reaches := [(0, { lastStep := st })] }
     let es (q : RxPacket) := digEntries q (hdrOf q).count
     rxChecks (withV (x none)) (body 0 0) = .partner 0 8 ∧ (hdrOf (body 0 0)).kind = 2 ∧ (hdrOf (body 0 0)).w3 = 3 ∧
      es (body 0 0) ≠ [] ∧ (es (body 0 0)).all (fun d => decide (d.reach = 0)) = true ∧ (getReach (x none) 0).lastStep ≠ some 3 ∧
      rxChecks (withV (x (some 3))) (body 0 0) = .partner 0 8 ∧ 0 < (reachList (withV (x (some 3))) 0).length ∧
      (getReach (x (some 3)) 0).st = .clean ∧ (getReach (x (some 3)) 0).lastStep = some 3 ∧
      (es (body 0 0)).all (fun d => decide (d.tile ≠ wholeReach) &&
        decide (loadWord [] (withV (x (some 3))) (lockTileAddr (withV (x (some 3))) 0 0 d.tile.toNat) = d.digest)) = true ∧
      (es (body 0 5)).any (fun d => decide (d.tile ≠ wholeReach) &&
        decide (loadWord [] (withV (x (some 3))) (lockTileAddr (withV (x (some 3))) 0 0 d.tile.toNat) ≠ d.digest)) = true ∧
      (es (body 0xFF 5)).any (fun d => decide (d.tile = wholeReach) && decide ((getReach (x (some 3)) 0).comm ≠ d.digest)) = true ∧
      (getReach (x (some 3)) 0).lockEv ≠ some 3) := by decide +kernel

/-! ## Terraces -/

/-- Valley 0 with a Watershed of its own and an empty drain table read. -/
def valT : Valley :=
  { val with ws := some { number := 1, step := 2, ts := 3, tag := 7, crossing := false, folded := 2 }
             t1o := { table := some [] } }

/-- An engine with that Valley whose physical function has a job key and an exchange key. -/
def withK (x : Valley) : Eng := { withV x with ctl := { ready.ctl with keys := [(0, { job := some 5, exch := some 6 })] } }

/-- A layout of one entry, the whole tile of slot 0, at 0x400000. -/
def layout0 : List Host.Cell := [(0x400009, 0x10)]

theorem test_meets_DrainOrders :
    (let no : Eng := { withK valT with regs := { ready.regs with accSto := [] } }
     let p := pk 0x40 0 [1]
     Taken (give no p) 0 0x40 p ∧ storageDenied no 0 = true ∧ Taken (give (withK valT) p) 0 0x40 p ∧
      hasArea valT = true ∧ nsAllowed (withK valT) 0 = true ∧ anyUnbuilt (withK valT) 0 = false ∧ valT.t1 = none ∧
      drainMay (withK valT) 0 = true ∧ 1024 ≤ freeCount (give (withK valT) p).eng 3 ∧ pkf p 1 0 4 = 1 ∧
      drainMay (withV val) 0 = false) ∧
    (let p (a : W64) := pk 0x40 0 [a]
     let ok (a : W64) := headReady (give (withK valT) (p a)).eng 0 = some (p a) ∧ (pkOp (p a)).toNat = 0x40 ∧
       preCheck (popHead (give (withK valT) (p a)).eng 0) 0 (p a) = none ∧ pkf (p a) 1 0 4 = a.toNat
     ok 2 ∧ ok 3 ∧ ok 4 ∧ ok 0 ∧ ok 5) ∧
    (let p := pk 0x44 0 [1, 0, 0x400000, 1]
     let s : State := { give (withK valT) p with mem := layout0 }
     Taken s 0 0x44 p ∧ t2Running valT = false ∧ layoutParamOk s.mem s.eng 0 p = true ∧ 512 ≤ freeCount s.eng 3) ∧
    (let p (a : W64) := pk 0x44 0 [a, 0, 0x400000, 1]
     let ok (a : W64) := headReady (give (withK valT) (p a)).eng 0 = some (p a) ∧ (pkOp (p a)).toNat = 0x44 ∧
       preCheck (popHead (give (withK valT) (p a)).eng 0) 0 (p a) = none ∧ pkf (p a) 1 0 4 = a.toNat ∧
       layoutParamOk layout0 (give (withK valT) (p a)).eng 0 (p a) = true
     ok 2 ∧ ok 3 ∧ ok 4 ∧ ok 0 ∧ ok 5) := by
  simp only [Taken]
  refine ⟨?_, ?_, ?_, ?_⟩ <;> decide +kernel

theorem test_meets_DrainsStart :
    (let x := { valT with t1o := { valT.t1o with wsCount := 200 }, t2o := { valT.t2o with wsCount := 2000 } }
     let e := withK x
     ctlOn e = true ∧ isJoined x = true ∧ t1Fires { e with side := { e.side with ts := 0 } } x = true ∧ x.t1o.pending = false ∧
      x.t1o.heldOne = false ∧ Valley.t2EveryWs x ≠ 0 ∧ Valley.t2EveryWs x ≤ x.t2o.wsCount ∧ valT.t2o.wsCount < Valley.t2EveryWs valT ∧
      t1Fires { e with side := { e.side with ts := 1800000000000 } } valT = true ∧
      t1Fires { e with side := { e.side with ts := 1799999999999 } } valT = false) ∧
    (let x := { valT with t1o := { valT.t1o with asked := some true } }
     let e := withK x
     x.t1o.asked = some true ∧ x.t1 = none ∧ x.ws.isSome = true ∧ x.t1o.table = some [] ∧ jobKey e x.fn = some 5 ∧ hasArea x = true ∧
      nsAllowed e 0 = true ∧ drainKeyed e 0 = true ∧ x.phase = .idle ∧ anyUnbuilt e 0 = false ∧ correcting x = false ∧
      x.t1o.survey = none ∧ 1024 ≤ freeCount e 3 ∧
      (let y := { x with t1o := { x.t1o with survey := some { ns := 9, lo := 0x1000, len := 0x1000, recs := [], tag := some 4 } } }
       y.t1o.asked = some true ∧ y.t1o.table = some [] ∧ y.t1o.survey ≠ none ∧ y.t2o.next = none)) ∧
    (valT.t1o.asked = none ∧ valT.t1o.pending = false ∧ valT.t2o.next = none) := by decide +kernel

/-- A drain of Reach 0. -/
def drain0 : T1Run :=
  { number := 1, full := true, forT2 := false, base := 1, ws := 1, step := 2, lineage := 0, shape := 0, nonce := 1, key := 2, ns := 9
    lba := 0x1010, left := [(0, 0)], digests := [(0, 0)] }

/-- A formed segment of it. -/
def seg0 : Seg :=
  { num := 0, ns := 9, lba := 0x1010, lbas := 3, commit := 0x1013, data := [], record := [], digest := true, st := .formed, waits := [] }

theorem test_meets_DrainTakesAndBegins :
    (let x := { valT with t1 := some drain0 }
     let e := withK x
     ctlOn e = true ∧ (getV e 0).t1 = some drain0 ∧ drain0.left = (0, 0) :: [] ∧ shadowBusy e drain0 (tileKey 0 0) = false ∧
      (∀ g ∈ drain0.segs, g.st ≠ .formed) ∧ (reachAt e 0 0).isSome = true ∧ { drain0 with left := [] }.left = [] ∧
      drain0.waitFrom = none) ∧
    (let run := { drain0 with segs := [seg0], waitFrom := some 0 }
     let x := { valT with t1 := some run }
     let poor := withK x
     let rich : Eng := { poor with side := { poor.side with hRecord := 0x8000FFFF } }
     run.left ≠ [] ∧ (∃ g ∈ run.segs, g.st = .formed) ∧ run.segs.find? (fun g => decide (g.st = .formed)) = some seg0 ∧
      (run.segs.Pairwise fun a b => a.num ≠ b.num) ∧ (run.segs.filter Seg.live).length < Valley.segInflight x ∧
      retentionHold rich = false ∧
      rich.io.sto.length + (lbaRuns (logLo x) (logLen x) (seg0.lbas + 2) seg0.lba seg0.lbas).length ≤ 256 ∧
      areaFull rich 0 run seg0 = false ∧ holdupNeed rich seg0 ≤ 10 * availableEnergy rich.side ∧
      areaFull poor 0 run seg0 = false ∧ areaFull rich 0 { run with used := 0x2000 } seg0 = true ∧
      10 * availableEnergy poor.side < holdupNeed poor seg0 ∧ run.paused = false ∧
      Regs.holdupWait poor.regs ≤ (poor.side.ts - 0).toNat ∧
      (let y : Eng := { poor with side := { poor.side with ts := 0 } }
       (y.side.ts - 0).toNat < Regs.holdupWait y.regs)) := by decide +kernel

theorem test_meets_RestoresAndSeeds :
    (let p := pk 0x41 0 [0x101, host 0x10, host 0x20, 1]
     let e := (give (withK valT) p).eng
     let es := mapOf (paramWords [] e (pkw p 3) 4 [0x100000000, 0, 0x2000000]) 1
     Taken (give (withK valT) p) 0 0x41 p ∧ storageDenied e 0 = false ∧ restoreParamsOk p = true ∧ jobKeyed e 0 = true ∧
      pkf p 4 0 7 = 1 ∧ addrOk (pkw p 3) 32 32 pkgBytes = true ∧ es.all (mapEntOk [] e 0) = true ∧ 1024 ≤ freeCount e 3 ∧
      (let z := pk 0x41 0 [0x101, host 0x10, host 0x20, 0]
       Taken (give (withK valT) z) 0 0x41 z ∧ pkf z 4 0 7 = 0)) ∧
    (let m : List Host.Cell := [(0x400018, 0x10), (0x400023, 0x02)]
     let p := pk 0x45 0 [0x102, host 0x40, 0x400000, 1, 3]
     let s : State := { give (withK valT) p with mem := m }
     Taken s 0 0x45 p ∧ restoreParamsOk p = true ∧ pkf p 4 0 25 = 1 ∧ isHost (pkw p 3) = false ∧
      addrOk (pkw p 3) 64 64 pkgBytes = true ∧ (copiesAt m s.eng (addrOf (pkw p 3)) 1).all (copyEntOk m s.eng) = true ∧
      pkA p = false ∧ pkw p 6 = 0 ∧ 512 ≤ freeCount s.eng 3 ∧
      (let q := pk 0x45 0x4000 [0x102, host 0x40, 0x400000, 1, 3, 0x600000, 7]
       let t : State := { give (withK valT) q with mem := m }
       Taken t 0 0x45 q ∧ pkA q = true ∧ pkf q 1 8 4 = 1 ∧ isHost (pkw q 6) = false ∧ addrOk (pkw q 6) 64 0 pkgBytes = true ∧
        restoreParamsOk q = true) ∧
      (let z := pk 0x45 0 [0x103, host 0x40, 0x400000, 1, 3]
       Taken (give (withK valT) z) 0 0x45 z ∧ restoreParamsOk z = false)) ∧
    (let t0 : SeedTab := { base := 0x600000, v := 0, ready := false }
     let e : Eng := { withK valT with seeds := [t0] }
     let p := pk 0x46 0 [0x600000]
     let z := pk 0x46 0x4000 [0x600000]
     let no := pk 0x46 0 [0x600040]
     let finds (p : BitVec 512) := e.seeds.find? (fun t => decide (BitVec.ofNat 64 t.base = pkw p 1 ∧ t.v = pkValley p))
     Taken (give e p) 0 0x46 p ∧ finds p = some t0 ∧ pkA p = false ∧ t0.ready = false ∧ 256 ≤ freeCount (give e p).eng 3 ∧
      Taken (give e z) 0 0x46 z ∧ finds z = some t0 ∧ pkA z = true ∧ Taken (give e no) 0 0x46 no ∧ finds no = none) := by
  simp only [Taken]
  refine ⟨?_, ?_, ?_⟩ <;> decide +kernel

theorem test_meets_RestoresAndSeeds_refusals :
    (let no : Eng := { withK valT with regs := { ready.regs with accSto := [] } }
     let p := pk 0x41 0 [0x101, host 0x10, host 0x20, 1]
     Taken (give no p) 0 0x41 p ∧ storageDenied no 0 = true) ∧
    (let t0 : SeedTab := { base := 0x600000, v := 0, ready := true }
     let e (x : Valley) : Eng := { withK x with seeds := [t0] }
     let p := pk 0x46 0 [0x600000]
     let sb := { valT with slot := .standby }
     Taken (give (e valT) p) 0 0x46 p ∧ pkA p = false ∧ valT.slot ≠ .standby ∧ t0.ready = true ∧
      Taken (give (e sb) p) 0 0x46 p ∧ sb.slot = .standby) ∧
    (let q := pk 0x45 0x4000 [0x102, host 0x40, 0x400000, 1, 3, 0x600000, 7]
     let far := pk 0x45 0x4000 [0x102, host 0x40, 0x400000, 1, 3, 0x600000, 0x2000]
     pkf q 7 13 3 = 0 ∧ Taken (give (withK valT) far) 0 0x45 far ∧ pkA far = true ∧ pkf far 7 13 3 ≠ 0) := by
  simp only [Taken]
  refine ⟨?_, ?_, ?_⟩ <;> decide +kernel

/-- Four regions of one tile for an export: slots 0 (source, BF16), 1 (history), 2 (residual, BF16), 3 (anchor, BF16). -/
def expRegions : Tab Region :=
  [(0, { w0 := 0x100000000, w1 := 0x000000100 }), (1, { w0 := 0x100000010, w1 := 0x100000000 }),
   (2, { w0 := 0x100000020, w1 := 0x200003100 }), (3, { w0 := 0x100000030, w1 := 0x300002100 })]

/-- A table of one entry of 32 elements at 0x400000. -/
def expTab0 : List Host.Cell := [(0x400001, 0x0C), (0x400002, 0x20), (0x400003, 0x40), (0x400028, 0x20)]

theorem test_meets_OuterExchangeStarts :
    (let x := { valT with phase := .opened, opened := true }
     let e : Eng := { withK x with regions := expRegions }
     let p := pk 0x50 0 [1, 0, 0, 0x400000, 1, 0x500000]
     let z := pk 0x50 0x4000 [1, 0, 0, 0x400000, 1, 0x500000]
     let s : State := { give e p with mem := expTab0 }
     let ts := expTable s.mem s.eng (addrOf (pkw p 4)) 1
     Taken s 0 0x50 p ∧ isJoined x = true ∧ x.phase = .opened ∧ x.expo.jobs = [] ∧ tableParamOk p = true ∧
      isHost (pkw p 6) = false ∧ addrOk (pkw p 6) 8 131072 pkgBytes = true ∧ keysEnding e = false ∧ pkA p = false ∧
      x.expo.round.toNat < (pkw p 1).toNat ∧ x.expo.st ≠ .incomplete ∧ tableOk e 0 ts true = true ∧ exchKey e x.fn = some 6 ∧
      256 ≤ freeCount s.eng 3 ∧ Taken { give e z with mem := expTab0 } 0 0x50 z ∧ pkA z = true ∧ pkw z 1 ≠ x.expo.round) ∧
    (let x := { valT with phase := .opened, opened := true }
     let e : Eng := { withK x with regions := expRegions }
     let p := pk 0x51 0 [1, 0, 0, 0x400000, 1]
     let s : State := { give e p with mem := expTab0 }
     Taken s 0 0x51 p ∧ exportRunning x = false ∧ tableParamOk p = true ∧
      tableOk e 0 (expTable s.mem s.eng (addrOf (pkw p 4)) 1) false = true ∧ Taken (give (withK valT) p) 0 0x51 p ∧
      valT.phase ≠ .opened) := by
  simp only [Taken]
  refine ⟨?_, ?_⟩ <;> decide +kernel

/-! ## Partitions, loads, ports, Basin -/

/-- A blob for the physical function: version 1 of its head, kind 1. -/
def blob0 : List W64 := 1 :: List.replicate 19 0

theorem test_meets_PartitionsAndLoads :
    (let p := pk 0x60 0 [0x00000007, 0xC, 0x8000]
     let e : Eng := { ready with ctl := { ready.ctl with grants := [{ ptag := 9, vf := 3 }] } }
     let z := pk 0x60 0 [0x00030007, 0, 0]
     Taken (give e p) 0 0x60 p ∧ ([] : List W16).contains 7 = false ∧ e.side.revoked = [] ∧
      e.ctl.grants.any (fun g => decide (g.ptag = 7 ∨ g.vf = 0)) = false ∧
      (bitsOf (pkw p 2) 64).all (queueFree (popHead (give e p).eng 0)) = true ∧ (bitsOf (pkw p 3) 16).all (slotFree e) = true ∧
      Taken (give e z) 0 0x60 z ∧ e.ctl.grants.any (fun g => decide (g.ptag = 7 ∨ g.vf = pkf z 1 16 6)) = true) ∧
    (let p := pk 0x61 0 [9]
     let e : Eng := { ready with ctl := { ready.ctl with grants := [{ ptag := 9, vf := 3 }] } }
     Taken (give e p) 0 0x61 p ∧ e.ctl.grants.find? (fun g => decide (g.ptag = 9)) = some { ptag := 9, vf := 3 } ∧
      revoking e (vfFn 3) = false ∧ Taken (give ready p) 0 0x61 p ∧ ready.ctl.grants = []) ∧
    (let p := pk 0x68 0 [0x40000000, 4096]
     let s : State := give (withV val) p
     let t : State := { s with mem := [(0x40000000, 1)] }
     let mine (s : State) := (zeroRange s.mem (popHead s.eng 0) (addrOf (pkw p 1)) 4096 (.scrub s.eng.ctl.scrubKey)).io.acc.filter
        fun r => decide (r.why = .scrub s.eng.ctl.scrubKey)
     let no := pk 0x68 0 [0, 4096]
     Taken s 0 0x68 p ∧ isHost (pkw p 1) = false ∧ addrOk (pkw p 1) 4096 4096 pkgBytes = true ∧
      scrubHits s.eng (addrOf (pkw p 1)) 4096 = false ∧ mine s = [] ∧ Taken t 0 0x68 p ∧ mine t ≠ [] ∧
      Taken (give (withV val) no) 0 0x68 no ∧ scrubHits (withV val) 0 4096 = true) ∧
    (let p := pk 0x7E 0 [host 0, 516]
     let bad := pk 0x7E 0 [0x1000, 516]
     Taken (give ready p) 0 0x7E p ∧ anyBound ready = false ∧ isHost (pkw p 1) = true ∧ addrOk (pkw p 1) 8 (pkf p 2 0 32) pkgBytes = true ∧
      Taken (give (withV val) p) 0 0x7E p ∧ anyBound (withV val) = true ∧ Taken (give ready bad) 0 0x7E bad ∧
      isHost (pkw bad 1) = false) := by
  simp only [Taken]
  refine ⟨?_, ?_, ?_, ?_⟩ <;> decide +kernel

theorem test_meets_PartitionsAndLoads_refusals :
    (let p := pk 0x61 0 [9]
     let r : RevokeWait := { cmd := cmdOf 1 0, ptag := 9, vf := 3, step := 4, before := 0, areas := [] }
     let e : Eng := { ready with ctl := { ready.ctl with grants := [{ ptag := 9, vf := 3 }], revokes := [r] } }
     Taken (give e p) 0 0x61 p ∧ e.ctl.grants.find? (fun g => decide (g.ptag = 9)) = some { ptag := 9, vf := 3 } ∧
      revoking e (vfFn 3) = true) ∧
    (let p := pk 0x7E 0 [host 0, 516]
     let bad : List W64 := [0x0000000500010101]
     Taken (give ready p) 0 0x7E p ∧ anyBound ready = false ∧ isHost (pkw p 1) = true ∧ addrOk (pkw p 1) 8 516 pkgBytes = true ∧
      fld (lword (paramWords [] ready (pkw p 1) 65 bad) 0) 32 32 = 5) := by
  simp only [Taken]
  decide +kernel

/-- An image whose body has not the length that its header says is refused, whatever the cryptography answers. -/
theorem test_image_of_a_wrong_length_is_refused (e : Eng) : imageGood e 516 [0x0000000500010101] = false := by
  have h : decide (516 = 512 + fld (lword [(0x0000000500010101 : W64)] 0) 32 32 ∧ 4 ≤ fld (lword [(0x0000000500010101 : W64)] 0) 32 32 ∧
      fld (lword [(0x0000000500010101 : W64)] 0) 32 32 ≤ 1048576 ∧ fld (lword [(0x0000000500010101 : W64)] 0) 32 32 % 4 = 0) = false := by
    decide +kernel
  simp only [imageGood, h, Bool.and_false, Bool.false_and]

/-- The words of an image of version 1.0 with a body of four bytes. -/
def image0 : List W64 := 0x0000000400010101 :: List.replicate 64 0

/-- FW_LOAD: the cryptography is uninterpreted (notes/assumptions/4.md), so its checks are premises here. -/
theorem test_meets_FwLoad (hk : Config.sha384 ((((wordsBytes image0).take 516).drop 72).take 96) = Config.fuseImageKeyHash)
    (hs : Config.ecdsaVerify ((((wordsBytes image0).take 516).drop 72).take 96)
      (Config.sha384 ((((wordsBytes image0).take 516).drop 0).take 168)) ((((wordsBytes image0).take 516).drop 168).take 96) = true)
    (hb : Config.sha384 ((((wordsBytes image0).take 516).drop 512).take 4) = (((wordsBytes image0).take 516).drop 24).take 48) :
    imageGood (withSide fun d => { d with lc := 0 }) 516 image0 = true := by
  have h4 : fld (lword image0 0) 32 32 = 4 := by decide +kernel
  have h1 : decide (outstandingAll (withSide fun d => { d with lc := 0 }) ≤ 1) = true := by decide +kernel
  have h2 : decide (fld (lword image0 0) 0 8 = 1 ∧ fld (lword image0 0) 8 4 = 1) = true := by decide +kernel
  have h3 : decide ((withSide fun d => { d with lc := 0 }).side.lc = 0) = true := by decide +kernel
  have h5 : implementsAll (withSide fun d => { d with lc := 0 }) (imageOf image0) = true := by decide +kernel
  simp only [imageGood, h4, h1, h2, h3, h5, hk, hs, hb, decide_true, Bool.true_or, Bool.true_and, Bool.and_true]
  decide

/-- KEY_LOAD: the cryptography is uninterpreted (notes/assumptions/4.md), so its two checks are premises here. -/
theorem test_meets_KeyLoad (key : BitVec 256)
    (hp : Config.p384Point (((wordsBytes blob0).drop 16).take 96) = true)
    (hu : unwrapKey ready.side.devKey (wordsBytes blob0) = some key) :
    let p := pk 0x78 0 [1, host 0, 160]
    let s := give ready p
    let bs := wordsBytes (paramWords s.mem s.eng (pkw p 2) 20 blob0)
    Taken s 0 0x78 p ∧ pkf p 3 0 16 = 160 ∧ addrOk (pkw p 2) 8 160 pkgBytes = true ∧ pkf p 1 0 4 = 1 ∧
      (enum bs 0 1 = 1 ∧ enum bs 2 2 = 0) ∧ Config.p384Point ((bs.drop 16).take 96) = true ∧ keysAllowed s.eng.side = true ∧
      keySlotOf s.eng ((pkw p 1).extractLsb' 16 16) = some 0 ∧ unwrapKey s.eng.side.devKey bs = some key := by
  have hb : wordsBytes (paramWords [] (give ready (pk 0x78 0 [1, host 0, 160])).eng (pkw (pk 0x78 0 [1, host 0, 160]) 2) 20 blob0) =
      wordsBytes blob0 := by decide +kernel
  simp only [Taken]
  refine ⟨by decide +kernel, by decide +kernel, by decide +kernel, by decide +kernel, by decide +kernel, ?_, by decide +kernel,
    by decide +kernel, ?_⟩
  · exact (congrArg (fun b => Config.p384Point ((List.drop 16 b).take 96)) hb).trans hp
  · exact (congrArg (unwrapKey ready.side.devKey) hb).trans hu

theorem test_meets_AccumulatesAndCopiesLand :
    (let r : AccReq := { line := 5, be := 3, data := 0x1122, why := .plain, after := 1 }
     let r2 : AccReq := { line := 5, be := 1, data := 7, why := .merge 0 }
     oldestAcc [r, r2] (5 : BitVec 33).toNat = some (0, r) ∧ ready.ctl.revokes = [] ∧ ready.ctl.stops = [] ∧ ready.side.pwrWait = none ∧
      (∀ y ∈ [r, r2], y.line ≠ (6 : BitVec 33).toNat) ∧
      writesBefore { q := [wr none] } r = [wr none] ∧ bit (wr none).be 1 = true ∧ writesBefore { q := [wr none] } r2 = []) ∧
    (let y : CopyEnt := { tensor := 1, start := 0, offset := 0, count := 3, dest := 0x2000, sdest := 0, typ := 0, sblock := 0 }
     let r : Restore := { id := 4, terrace := 3, self := 0, probe := false, cands := [(1, 1)], copies := [y], stage := .copies }
     let e : Eng := { withV { val with restores := [r] } with
       io := { copies := [{ v := 0, node := 7, src := 0x9000, dst := 0x2000, len := 3, entry := 4, scale := false }] } }
     ctlOn e = true ∧ (e.io.copies.find? (fun c => decide (c.v = 0))).isSome = true ∧ [1, 2, (3 : Byte)].length = 3 ∧
      copyRestore (getV e 0) 4 = some (0, r) ∧ r.stage = .copies ∧ r.copies[r.entry]? = some y) ∧
    (ctlOn ready = true ∧ ready.io.copies = []) := by decide +kernel

theorem test_meets_PortCompletions :
    (let d : StoDesc := { op := 1, fua := true, tag := 5, ns := 9, lba := 0x1000, lbas := 1, data := [], owner := .t1Seg 0 0, ts := 0 }
     let p : PassDesc := { op := 1, tag := 0xFFFF, key := 1, offset := 0, length := 8, data := [], owner := .t2Piece 0 0, ts := 0 }
     let e : Eng := { ready with io := { sto := [d], pass := [p] } }
     let y : Eng := { e with side := { e.side with ts := 0 } }
     ctlOn e = true ∧ (∀ d ∈ e.io.sto, d.tag ≠ 6) ∧ (∀ d ∈ e.io.pass, d.tag ≠ 6) ∧
      e.io.sto.find? (fun d => decide (d.tag = 5)) = some d ∧ e.io.pass.find? (fun d => decide (d.tag = 0xFFFF)) = some p ∧
      Regs.portTimeout e.regs .storage ≤ (e.side.ts - d.ts).toNat ∧ Regs.portTimeout e.regs .pass ≤ (e.side.ts - p.ts).toNat ∧
      (y.side.ts - d.ts).toNat < Regs.portTimeout y.regs .storage ∧ (y.side.ts - p.ts).toNat < Regs.portTimeout y.regs .pass ∧
      e.ctl.revokes = [] ∧ e.ctl.stops = [] ∧ e.side.pwrWait = none ∧ e.io.oldSegs = [] ∧ e.basin.writeback = []) ∧
    (∀ w, (getV ready w).t1 = none ∧ (getV ready w).t2 = none ∧ (getV ready w).restores = [] ∧ (getV ready w).expo.jobs = [] ∧
      (getV ready w).t1o.survey = none) :=
  ⟨by decide +kernel, fun _ => ⟨rfl, rfl, rfl, rfl, rfl⟩⟩

/-- An engine whose Basin page 3 is valid and holds nothing. -/
def withPage : Eng := { ready with basin := { ready.basin with valid := [(3, true)] } }

theorem test_meets_BasinPatrolAndUpkeep :
    (let e := withPage
     ctlOn e = true ∧ patrolDue e 0 = true ∧ nextPatrol (validPages e 0) (Tab.get 0 e.basin.patrolAt 0) = some 48 ∧
      patrolDue e 1 = true ∧ patrolDue { e with side := { e.side with ts := 0 } } 0 = false ∧
      (readWord (storedAt e 3 0 ^^^ 0)).bad = 0 ∧ (readWord (storedAt e 3 0 ^^^ 0)).corr = 0 ∧
      (readWord (storedAt e 3 0 ^^^ 0x10)).bad = 0 ∧ (readWord (storedAt e 3 0 ^^^ 0x10)).corr = 1 ∧
      e.basin.level + 1 ≤ Regs.bucketSize e.regs ∧ e.basin.cand = [] ∧ 1 < Regs.remapThresh e.regs ∧
      e.basin.writeback.find? (fun y => decide (y.2 = 0)) = none) ∧
    (let e : Eng := { withPage with regs := { ready.regs with remap := [(0, 0x4003)] } }
     (readWord (storedAt e 3 0 ^^^ 0x01010101)).bad ≠ 0 ∧ Tab.find e.basin.owners 3 = none ∧ remapOf e 3 ≠ none) ∧
    (let e : Eng := { withPage with basin := { withPage.basin with writeback := [(48, 0)] } }
     (e.regs.remap.map (·.1)).Nodup ∧ e.basin.writeback.find? (fun y => decide (y.2 = 0)) = some (48, 0)) ∧
    (let b := withPage.basin
     let e := withPage
     let y : Eng := { e with side := { e.side with ts := 0 } }
     Regs.bucketLeakNs e.regs ≤ (e.side.ts - b.leakTs).toNat ∧ Regs.candDecayNs e.regs ≤ (e.side.ts - b.candTs).toNat ∧
      (y.side.ts - b.leakTs).toNat < Regs.bucketLeakNs y.regs ∧ (y.side.ts - b.candTs).toNat < Regs.candDecayNs y.regs ∧
      bit b.gated 0 = false ∧ stockOf e 0 = 1 ∧ pageValid e 0 = false ∧
      (let g : Eng := { e with basin := { b with gated := 1 } }
       bit g.basin.gated 0 = true ∧ runningStock g (partOfBank g.regs 0) < 16)) ∧
    (let e : Eng := { withPage with spill := { zeroing := [0] }, regs := { ready.regs with spillBase := 0x200000, spillSize := 1 } }
     (∀ g ∈ withPage.spill.zeroing, pageBusy withPage g = true) ∧ e.spill.zeroing = 0 :: [] ∧ pageBusy e 0 = false ∧
      readsZero [] e (spillPageAddr e 0) 4096 = true ∧ readsZero [(0x200000, 1)] e (spillPageAddr e 0) 4096 = false) := by
  refine ⟨?_, ?_, ?_, ?_, ?_⟩ <;> decide +kernel

theorem test_meets_BasinPatrolAndUpkeep_pages :
    withPage.ctl.revokes = [] ∧ withPage.ctl.stops = [] ∧ withPage.side.pwrWait = none ∧
    (allocPage withPage 0 (.outRing 0 1)).isSome = true ∧ (allocPage ready 0 (.outRing 0 1)).isSome = true ∧
    pageValid (freeBasin withPage [3]) 3 = false ∧ pageValid (freeBasin withPage [4]) 3 = true := by decide +kernel

/-! ## The block as a whole -/

/-- The reset state meets the invariant, and a step from it answers a next state. -/
theorem test_meets_StepKeepsInvariant :
    Mem.wf State.reset.mem = true ∧
    (match step { State.reset with pending := [.powerOnReset], mem := [(5, 1)] } with
     | .next t => t.pending.isEmpty && Mem.wf t.mem
     | _ => false) = true := by decide +kernel

end Sys2Proof.Tests
end

/-!
A coded write that meets an empty lane and a line of the window, step by step: how the lane accepts it, judges it and is
through with it (R13, R51, R313).
-/

namespace Sys2Proof.Machine

/-! ## Tables and lanes under updates -/

/-- A second write to a key replaces the first. -/
theorem Tab.set_set {α : Type} (t : Tab α) (k : Nat) (x y : α) : Tab.set (Tab.set t k x) k y = Tab.set t k y := by
  induction t with
  | nil => simp [Tab.set]
  | cons p r ih =>
    obtain ⟨k', x'⟩ := p
    by_cases hlt : k < k'
    · simp [Tab.set, hlt]
    · by_cases heq : k = k'
      · simp [Tab.set, heq]
      · simp [Tab.set, hlt, heq, ih]

@[simp] theorem getLane_updLane_same (e : Eng) (i : Nat) (f : Lane → Lane) :
    getLane (updLane e i f) i = f (getLane e i) := Tab.get_set_same _ _ _ _

theorem getLane_updLane_ne (e : Eng) {i j : Nat} (f : Lane → Lane) (h : j ≠ i) :
    getLane (updLane e i f) j = getLane e j := Tab.get_set_ne _ _ _ _ _ h

@[simp] theorem updLane_updLane (e : Eng) (i : Nat) (f g : Lane → Lane) :
    updLane (updLane e i f) i g = updLane e i fun l => g (f l) := by
  simp only [updLane, getLane, Tab.get_set_same, Tab.set_set]

@[simp] theorem getLane_updIo (e : Eng) (f : Io → Io) (i : Nat) : getLane (updIo e f) i = getLane e i := rfl

@[simp] theorem getV_updLane (e : Eng) (i : Nat) (f : Lane → Lane) (v : Nat) : getV (updLane e i f) v = getV e v := rfl

@[simp] theorem getV_updIo (e : Eng) (f : Io → Io) (v : Nat) : getV (updIo e f) v = getV e v := rfl

/-- An update of a lane and one of what the ports hold do not meet. -/
theorem updLane_updIo (e : Eng) (i : Nat) (f : Lane → Lane) (g : Io → Io) :
    updLane (updIo e g) i f = updIo (updLane e i f) g := rfl

@[simp] theorem throttle_q (l : Lane) : (throttle l).q = l.q := by unfold throttle; split <;> rfl
@[simp] theorem throttle_fifo (l : Lane) : (throttle l).fifo = l.fifo := by unfold throttle; split <;> rfl
@[simp] theorem throttle_hit (l : Lane) : (throttle l).hit = l.hit := by unfold throttle; split <;> rfl
@[simp] theorem throttle_miss (l : Lane) : (throttle l).miss = l.miss := by unfold throttle; split <;> rfl

/-! ## Accepting a write -/

/-- The write that a lane enters into its queue for a coded write of the controller whose old line it knows. -/
def knownWrite (e : Eng) (line : Nat) (be : BitVec 256) (new old : Line) : LaneWrite :=
  { line := line, be := be, new := new, old := some old, num := e.io.writes }

/-- A lane after it has accepted a write to a line that its window holds (R13). -/
def hitLane (e : Eng) (line : Nat) (be : BitVec 256) (new old : Line) (l : Lane) : Lane :=
  { l with hit := l.hit + 1, window := winPut l.window line (mergeLine be old new)
           q := l.q ++ [knownWrite e line be new old], gated := false, idleFrom := e.side.ts }

/-- Only the lane and the count of accepted writes change when the window holds the line. -/
theorem acceptWrite_of_hit {e : Eng} {i line : Nat} {old : Line} (be : BitVec 256) (new : Line)
    (h : winGet (getLane e i).window line = some old) :
    acceptWrite e i line be new =
      updIo (updLane e i (hitLane e line be new old)) fun io => { io with writes := io.writes + 1 } := by
  simp [acceptWrite, takeWrite, h, updLane, hitLane, knownWrite]

@[simp] theorem laneResult_mem (s : State) (r : Mem × Eng) : (laneResult s r).mem = r.1 := rfl
@[simp] theorem laneResult_eng (s : State) (r : Mem × Eng) : (laneResult s r).eng = r.2 := rfl

/-- The lane takes a write while it has room for one. -/
theorem exec_codedWrite_of_room {s : State} {lane : Fin 12} (line : BitVec 33) (be : BitVec 256) (new : Line)
    (hc : ctlOn s.eng = true) (hq : (getLane s.eng lane.val).q.length < 8) :
    exec (.codedWrite lane line be new) s =
      .next (laneResult s (goLane s.mem (acceptWrite s.eng lane.val line.toNat be new) lane.val)) := by
  have hroom : ¬ 8 ≤ (getLane s.eng lane.val).q.length := by omega
  show execCodedWrite lane line be new s = _
  simp [execCodedWrite, hc, hroom]

/-! ## Working on a write -/

/-- A difference of zero is judged performed, and the judgement changes nothing (R51, R313 test 1). -/
theorem judge_zero (m : Mem) (e : Eng) (i line : Nat) (be : BitVec 256) (old new : Line) (own : Bool) :
    judge m e i line be old new 0 own = (e, .performed) := if_pos rfl

/-- An empty lane has no write that waits. -/
theorem pumpLane_of_empty (m : Mem) {e : Eng} {i : Nat} (n : Nat) (h : (getLane e i).q = []) :
    pumpLane i (n + 1) m e = (m, updLane e i clearWaits) := by
  simp [pumpLane, h]

/-- A controller's write that is judged performed reaches memory and leaves the lane, which goes on with the next. -/
theorem pumpLane_of_performed {m : Mem} {e e1 : Eng} {i : Nat} {w : LaneWrite} {rest : List LaneWrite} {old : Line}
    (n : Nat) (hq : (getLane e i).q = w :: rest) (ho : w.old = some old) (hw : w.engine = false)
    (hj : judge m (updLane e i clearWaits) i w.line w.be old w.new ((old ^^^ w.new) &&& beMask w.be) false =
      (e1, .performed)) :
    pumpLane i (n + 1) m e = pumpLane i n (performWrite m w) (updLane e1 i fun l => { l with q := rest }) := by
  simp [pumpLane, hq, ho, hw, hj]

/-- A lane that is through with its last write: no write waits, so no cause that belongs to one holds. -/
def drainedLane (l : Lane) : Lane := throttle (clearWaits { l with q := [] })

/-- A lane whose only write is the controller's and has a difference of zero: the write is performed, and nothing but the
lane changes (R51). -/
theorem runLane_of_zero (m : Mem) {e : Eng} {i : Nat} {w : LaneWrite} {old : Line}
    (hq : (getLane e i).q = [w]) (ho : w.old = some old) (hw : w.engine = false)
    (hz : (old ^^^ w.new) &&& beMask w.be = 0) :
    runLane m e i = (performWrite m w, updLane e i drainedLane) := by
  have hj : judge m (updLane e i clearWaits) i w.line w.be old w.new ((old ^^^ w.new) &&& beMask w.be) false =
      (updLane e i clearWaits, .performed) := by rw [hz]; exact judge_zero ..
  rw [runLane, pumpLane_of_performed 8 hq ho hw hj, pumpLane_of_empty _ 7 (by simp)]
  simp only [updLane_updLane]
  rfl

/-- With no job in any Valley (R195), the engine has no write of its own to go on with. -/
theorem runExports_of_no_jobs (m : Mem) {e : Eng} (h : ∀ v, (getV e v).expo.jobs = []) : runExports m e = e := by
  unfold runExports
  induction Tab.keys e.valleys with
  | nil => rfl
  | cons v vs ih => simpa [h v] using ih

/-! ## The difference of zero -/

/-- The engine after a write with a difference of zero: one more accepted write, and in its lane the hit. -/
def afterZero (e : Eng) (i line : Nat) (be : BitVec 256) (new old : Line) : Eng :=
  updIo (updLane e i fun l => drainedLane (hitLane e line be new old l)) fun io => { io with writes := io.writes + 1 }

/-- CODED_WRITE with a difference of zero, to an empty lane that holds the line (R51): memory takes the enabled bytes. -/
theorem exec_codedWrite_of_zero {s : State} {lane : Fin 12} {line : BitVec 33} {be : BitVec 256} {new old : Line}
    (hc : ctlOn s.eng = true) (hq : (getLane s.eng lane.val).q = [])
    (hwin : winGet (getLane s.eng lane.val).window line.toNat = some old) (hz : (old ^^^ new) &&& beMask be = 0)
    (hjobs : ∀ v, (getV s.eng v).expo.jobs = []) :
    exec (.codedWrite lane line be new) s =
      .next (laneResult s (Mem.writeLine s.mem line.toNat be new, afterZero s.eng lane.val line.toNat be new old)) := by
  have hrun : runLane s.mem (acceptWrite s.eng lane.val line.toNat be new) lane.val =
      (Mem.writeLine s.mem line.toNat be new, afterZero s.eng lane.val line.toNat be new old) := by
    rw [acceptWrite_of_hit be new hwin,
      runLane_of_zero (w := knownWrite s.eng line.toNat be new old) s.mem (by simp [hitLane, hq]) rfl rfl hz,
      updLane_updIo, updLane_updLane]
    rfl
  have hexp := runExports_of_no_jobs (Mem.writeLine s.mem line.toNat be new)
    (e := afterZero s.eng lane.val line.toNat be new old) (by simpa [afterZero] using hjobs)
  rw [exec_codedWrite_of_room line be new hc (by simp [hq]), goLane, hrun, hexp]

/-- Settles O11: the judgement of a difference of zero changes nothing (`judge_zero`), so only the acceptance and the
lane's own work show. -/
theorem zeroDifferenceIsSuppressed : Obligations.ZeroDifferenceIsSuppressed := by
  intro lane line be new old s hc hq hwin hz hjobs
  refine ⟨_, exec_codedWrite_of_zero hc hq hwin hz hjobs, ?_, ?_, fun j hj => ?_, ?_⟩
  · rw [laneResult_mem]
  · rw [laneResult_eng]; rfl
  · rw [laneResult_eng, afterZero, getLane_updIo, getLane_updLane_ne _ _ hj]
  · simp [afterZero, drainedLane, clearWaits, hitLane]

end Sys2Proof.Machine

/-!
The designated reporter of a peer (R121) as two searches of one kind: over the distances 1, 2, … upwards from the peer, and
then over the distances downwards.
-/

namespace Sys2Proof.Machine

/-! ## Searches over distances -/

/-- The first live index among those at the distances 1 to `len`, `idx d` being the index at distance `d`. -/
def firstLive (live : Nat → Bool) (idx : Nat → Nat) (len : Nat) : Option Nat :=
  ((List.range len).map fun i => idx (i + 1)).find? live

theorem firstLive_eq_some {live : Nat → Bool} {idx : Nat → Nat} {len d : Nat} (hpos : 1 ≤ d) (hle : d ≤ len)
    (hlive : live (idx d) = true) (hbefore : ∀ j, 1 ≤ j → j < d → live (idx j) = false) :
    firstLive live idx len = some (idx d) := by
  obtain ⟨i, rfl⟩ := Nat.exists_eq_add_of_le' hpos
  have hfind : (List.range len).find? (live ∘ fun i => idx (i + 1)) = some i :=
    List.find?_range_eq_some.2 ⟨hlive, List.mem_range.2 hle, fun j hj => by simp [hbefore (j + 1) (by omega) (by omega)]⟩
  rw [firstLive, List.find?_map, hfind]
  rfl

theorem firstLive_eq_none {live : Nat → Bool} {idx : Nat → Nat} {len : Nat}
    (hdead : ∀ d, 1 ≤ d → d ≤ len → live (idx d) = false) : firstLive live idx len = none := by
  have hfind : (List.range len).find? (live ∘ fun i => idx (i + 1)) = none :=
    List.find?_range_eq_none.2 fun i hi => by simp [hdead (i + 1) (by omega) (by omega)]
  rw [firstLive, List.find?_map, hfind]
  rfl

/-! ## The reporter -/

/-- The index `d` below `s`, for a distance of at most one turn. -/
theorem subMod_of_le {s d n : Nat} (hs : s < n) (hd : d ≤ n) : subMod s d n = (s + n - d) % n := by
  rcases Nat.eq_or_lt_of_le hd with rfl | hlt
  · simp [subMod]
  · rw [subMod, Nat.mod_eq_of_lt hlt]

/-- Upwards over the stream distances first, downwards only when that finds nothing (R121). -/
theorem reporterOf_eq_or (x : Valley) (s : Nat) :
    reporterOf x s =
      (firstLive (isLive x) (fun d => (s + d) % x.n) (x.k + x.m - 1)).or
        (firstLive (isLive x) (fun d => subMod s d x.n) x.n) := by
  have hup : ((distances x).map fun d => (s + d) % x.n).find? (isLive x) =
      firstLive (isLive x) (fun d => (s + d) % x.n) (x.k + x.m - 1) := by
    rw [distances, List.map_map]
    rfl
  rw [reporterOf, hup]
  cases firstLive (isLive x) (fun d => (s + d) % x.n) (x.k + x.m - 1) <;> rfl

theorem reporterOf_of_up {x : Valley} {s d : Nat} (hpos : 1 ≤ d) (hle : d ≤ x.k + x.m - 1)
    (hlive : isLive x ((s + d) % x.n) = true)
    (hbefore : ∀ j, 1 ≤ j → j < d → isLive x ((s + j) % x.n) = false) :
    reporterOf x s = some ((s + d) % x.n) := by
  rw [reporterOf_eq_or, firstLive_eq_some hpos hle hlive hbefore, Option.some_or]

theorem reporterOf_of_up_dead {x : Valley} {s : Nat}
    (hup : ∀ d, 1 ≤ d → d ≤ x.k + x.m - 1 → isLive x ((s + d) % x.n) = false) :
    reporterOf x s = firstLive (isLive x) (fun d => subMod s d x.n) x.n := by
  rw [reporterOf_eq_or, firstLive_eq_none hup, Option.none_or]

theorem reporterOf_of_down {x : Valley} {s d : Nat} (hs : s < x.n)
    (hup : ∀ d, 1 ≤ d → d ≤ x.k + x.m - 1 → isLive x ((s + d) % x.n) = false) (hpos : 1 ≤ d) (hle : d ≤ x.n)
    (hlive : isLive x ((s + x.n - d) % x.n) = true)
    (hbefore : ∀ j, 1 ≤ j → j < d → isLive x ((s + x.n - j) % x.n) = false) :
    reporterOf x s = some ((s + x.n - d) % x.n) := by
  rw [← subMod_of_le hs hle] at hlive ⊢
  rw [reporterOf_of_up_dead hup]
  refine firstLive_eq_some hpos hle hlive fun j hj hjd => ?_
  rw [subMod_of_le hs (by omega)]
  exact hbefore j hj hjd

theorem reporterOf_of_none_live {x : Valley} {s : Nat} (hs : s < x.n) (hdead : ∀ i, i < x.n → isLive x i = false) :
    reporterOf x s = none := by
  have hmod (a : Nat) : isLive x (a % x.n) = false := hdead _ (Nat.mod_lt _ (by omega))
  rw [reporterOf_of_up_dead fun d _ _ => hmod _]
  exact firstLive_eq_none fun d _ _ => hmod _

theorem reporterOf_congr {x y : Valley} (s : Nat) (hlive : y.live = x.live) (hn : y.n = x.n) (hk : y.k = x.k)
    (hm : y.m = x.m) : reporterOf y s = reporterOf x s := by
  have hl : isLive y = isLive x := funext fun i => by rw [isLive, isLive, hlive]
  rw [reporterOf_eq_or, reporterOf_eq_or, hl, hn, hk, hm]

/-- Settles O21: each direction of the search finds its first live member (`firstLive_eq_some`), and the downward one
counts only when the upward one finds nothing (`reporterOf_eq_or`). -/
theorem designatedReporter : Obligations.DesignatedReporter := by
  intro x s hs _
  refine ⟨fun _ => reporterOf_of_up, fun hup => ⟨fun _ => reporterOf_of_down hs hup, reporterOf_of_none_live hs⟩, ?_⟩
  intro y
  exact reporterOf_congr s

end Sys2Proof.Machine

/-!
Which commands change package memory, and that each of them keeps its canonical form (R11, R16, R182).
-/

namespace Sys2Proof.Machine

/-! ## Commands that leave package memory as it is -/

/-- The commands that change package memory: those at which a lane's coded writes are performed (R11), a reported
accumulate (R16) and an arrived copy (R182). -/
def changesMem : Instr → Bool
  | .powerOnReset | .warmReset _ | .lockLoss _ | .codedWrite .. | .oldLineReturn .. | .heldWriteRelease _
  | .throttleCauseCleared _ | .stagingWordOut .. | .accDone _ | .asyncCopyDone .. => true
  | _ => false

/-- A driver command changes nothing but the engine. -/
theorem runCmd_only_eng (q op : Nat) (s : State) (f : Eng → Cmd → BitVec 512 → Eng) :
    ∃ e, Host.Outcome.next (runCmd q op s f) = (.next { s with eng := e } : Host.Outcome State Fault Refusal) := by
  refine ⟨(runCmd q op s f).eng, ?_⟩
  unfold runCmd
  split
  · rfl
  · split <;> rfl

/-- Every other command goes on with a changed engine, and with the queue and package memory as they were. -/
theorem exec_only_eng {c : Instr} (h : changesMem c = false) (s : State) :
    ∃ e, exec c s = .next { s with eng := e } := by
  cases c with
  | powerOnReset | warmReset | lockLoss | codedWrite | oldLineReturn | heldWriteRelease | throttleCauseCleared
  | stagingWordOut | accDone | asyncCopyDone => cases h
  | negotiate | configure | query | valleyDefine | valleyJoin | valleyLeave | regionDefine | regionFreeze | regionThaw
  | crossingOpen | crossingClose | reachSeal | watershedQuery | rollback | fence | suspectReport | rebuildPlan
  | rebuildRun | contract | audit | digestExchange | lockstep | t1Drain | t1Restore | t2Drain | t2Restore | seedServe
  | outerExport | outerReanchor | partitionGrant | partitionRevoke | scrub | powerState | keyLoad | fwLoad =>
    exact runCmd_only_eng ..
  | standIn q =>
    simp only [exec, execStandIn]
    split
    · split
      · exact ⟨s.eng, rfl⟩
      · exact runCmd_only_eng ..
    · exact ⟨s.eng, rfl⟩
  | standInSpare q =>
    simp only [exec, execStandInSpare]
    split
    · split
      · exact runCmd_only_eng ..
      · exact ⟨s.eng, rfl⟩
    · exact ⟨s.eng, rfl⟩
  | _ => exact ⟨_, rfl⟩

/-! ## The commands that change package memory keep it canonical -/

/-- A lane that goes on keeps memory canonical. -/
theorem goLane_wf {m : Mem} (e : Eng) (i : Nat) (h : Mem.wf m = true) : Mem.wf (goLane m e i).1 = true :=
  runLane_wf m e i h

/-- An arrived copy keeps memory canonical: it writes its bytes, or nothing. -/
theorem copyDone_wf {m : Mem} (e : Eng) (v : Nat) (data : List Byte) (h : Mem.wf m = true) :
    Mem.wf (copyDone m e v data).1 = true := by
  unfold copyDone
  dsimp only
  have hw (a : Nat) (bs : List Byte) : Mem.wf (Mem.writeBytes m a bs) = true := Mem.wf_writeBytes bs m a h
  cases e.io.copies.find? fun c => decide (c.v = v) with
  | none => exact h
  | some c =>
    dsimp only
    cases copyRestore (getV e v) c.entry with
    | none => exact h
    | some p =>
      obtain ⟨i, r⟩ := p
      dsimp only
      split
      · cases r.copies[r.entry]? with
        | none => exact h
        | some q =>
          dsimp only
          split
          · exact hw _ _
          · split
            · exact hw _ _
            · exact hw _ _
      · exact h

/-- A reset input keeps memory canonical, whether it takes hold or not. -/
theorem holdDomains_inv {s : State} (w : BitVec 12) (f : Side → Side) (h : s.Inv) : (holdDomains s w f).Inv := by
  unfold holdDomains
  split
  · exact h
  · exact performQueued_wf _ _ h

/-- Every command keeps memory canonical. -/
theorem exec_inv {c : Instr} {s t : State} (h : s.Inv) (ht : exec c s = .next t) : t.Inv := by
  cases hc : changesMem c
  · obtain ⟨e, he⟩ := exec_only_eng hc s
    rw [he] at ht
    cases ht
    exact h
  cases c with
  | powerOnReset => cases ht; exact performQueued_wf _ _ h
  | warmReset w =>
    cases ht
    split
    · exact h
    · exact holdDomains_inv _ _ h
  | lockLoss w =>
    cases ht
    split
    · exact h
    · exact holdDomains_inv _ _ h
  | codedWrite lane line be new =>
    simp only [exec, execCodedWrite] at ht
    split at ht
    · cases ht; exact h
    · split at ht
      · cases ht
      · cases ht; exact goLane_wf _ _ h
  | oldLineReturn lane data =>
    simp only [exec, execOldLineReturn] at ht
    split at ht
    · cases ht; exact h
    · split at ht
      · cases ht
      · cases ht; exact goLane_wf _ _ h
  | heldWriteRelease lane =>
    simp only [exec, execHeldWriteRelease] at ht
    split at ht
    · cases ht; exact goLane_wf _ _ h
    · cases ht; exact h
  | throttleCauseCleared lane =>
    simp only [exec, execThrottleCauseCleared] at ht
    split at ht
    · cases ht; exact h
    · cases ht; exact goLane_wf _ _ h
  | stagingWordOut lane err =>
    simp only [exec, execStagingWordOut] at ht
    split at ht
    · cases ht; exact goLane_wf _ _ h
    · cases ht; exact h
  | accDone line =>
    simp only [exec, execAccDone] at ht
    split at ht
    · cases ht
    · cases ht
      dsimp only [State.Inv]
      exact Mem.wf_xorLine _ _ _ (performBefore_wf _ _ _ h)
  | asyncCopyDone v data =>
    simp only [exec, execAsyncCopyDone] at ht
    split at ht
    · cases ht; exact h
    · cases ht; exact copyDone_wf _ _ _ h
  | _ => cases hc

/-- Settles O4: a step lets time pass, which leaves memory, or runs the front command (`exec_inv`). -/
theorem stepKeepsInvariant : Obligations.StepKeepsInvariant := by
  intro s t h ht
  unfold step at ht
  split at ht
  · cases ht; exact h
  · next c rest _ => exact exec_inv (s := { s with pending := rest }) h ht

end Sys2Proof.Machine

/-!
One step of the machine: the front command, or with an empty queue the passing of time (notes/assumptions/1.md, 9.md).
-/

namespace Sys2Proof.Machine

/-! ## Entries of tables -/

/-- What a table answers at a key is an entry of it, or the default. -/
theorem Tab.get_mem_or {α : Type} (d : α) (t : Tab α) (k : Nat) : (k, Tab.get d t k) ∈ t ∨ Tab.get d t k = d := by
  induction t with
  | nil => exact .inr rfl
  | cons p r ih =>
    obtain ⟨k', x⟩ := p
    by_cases h : k = k'
    · subst h; simp [Tab.get]
    · simp only [Tab.get, h, if_false, List.mem_cons]
      exact ih.imp .inr id

/-- A property of the default and of every entry holds of what a table answers. -/
theorem Tab.get_of_forall {α : Type} {P : α → Prop} {d : α} {t : Tab α} (hd : P d) (ht : ∀ y ∈ t, P y.2) (k : Nat) :
    P (Tab.get d t k) := by
  rcases Tab.get_mem_or d t k with h | h
  · exact ht _ h
  · rw [h]; exact hd

/-- Reading a table whose entries were all changed alike, by a change that leaves the default. -/
theorem Tab.get_map {α : Type} {d : α} {f : α → α} (hd : f d = d) (t : Tab α) (k : Nat) :
    Tab.get d (t.map fun y => (y.1, f y.2)) k = f (Tab.get d t k) := by
  induction t with
  | nil => exact hd.symm
  | cons p r ih =>
    obtain ⟨k', x⟩ := p
    by_cases h : k = k' <;> simp [Tab.get, h, ih]

/-! ## An engine in which nothing waits -/

/-- With no revocation, orderly stop or power request under way, nothing in the control processor goes on. -/
theorem advance_of_no_waits (m : Mem) {e : Eng} (hr : e.ctl.revokes = []) (hs : e.ctl.stops = [])
    (hp : e.side.pwrWait = none) : advance m e = e := by
  have h1 : runRevokes m e = e := by simp [runRevokes, hr]
  have h2 : runStops e = e := by simp [runStops, hs]
  simp [advance, h1, h2, runPower, hp]

/-- With every newest reply written for good, none is left to be. -/
theorem repliesWritten_of_none {e : Eng} (h : ∀ x ∈ e.ctl.queues, x.2.inFlight = false) : repliesWritten e = e := by
  have hq (q : Nat) : (getQ e q).inFlight = false := Tab.get_of_forall (P := fun x : Queue => x.inFlight = false) rfl h q
  unfold repliesWritten
  induction Tab.keys e.ctl.queues with
  | nil => rfl
  | cons q qs ih => simpa [replyWritten, hq q] using ih

/-- A packet that is taken stood in the fetch buffer of its queue. -/
theorem headReady_mem {e : Eng} {q : Nat} {p : BitVec 512} (h : headReady e q = some p) : p ∈ (getQ e q).buf := by
  unfold headReady at h
  split at h
  · cases h
  · unfold headPacket at h
    cases hb : (getQ e q).buf with
    | nil => simp [hb] at h
    | cons p' r =>
      simp only [hb] at h
      split at h
      · cases h
      · cases h; exact List.mem_cons_self

/-- With no packet in any buffer whose opcode no row has, none is answered. -/
theorem answerAll_of_listed {e : Eng}
    (h : ∀ x ∈ e.ctl.queues, ∀ p ∈ x.2.buf, listedOps.contains (pkOp p).toNat = true) : answerAll e = e := by
  have hq (q : Nat) : ∀ p ∈ (getQ e q).buf, listedOps.contains (pkOp p).toNat = true :=
    Tab.get_of_forall (P := fun x : Queue => ∀ p ∈ x.buf, listedOps.contains (pkOp p).toNat = true)
      (fun _ hp => absurd hp (List.not_mem_nil)) h q
  unfold answerAll answerUnlisted
  cases nextQueue e with
  | none => rfl
  | some q =>
    dsimp only
    cases hp : headReady e q with
    | none => rfl
    | some p => simp only [hq q p (headReady_mem hp), if_true]

/-- With no record of a resumed peer due, none is written. -/
theorem writeResumed_of_none {e : Eng} (h : e.ctl.resumed = []) : writeResumed e = e := by
  cases e; rename_i side ctl regs cnt lanes basin spill regions valleys seeds io
  cases ctl
  simp only at h
  subst h
  rfl

/-! ## Closing partial words -/

/-- A lane whose staging FIFO has every partial word closed (R107). -/
def closeLane (l : Lane) : Lane :=
  { l with fifo := l.fifo.map fun w => { w with closed := w.closed || decide (w.bytes.length < 256) } }

theorem getLane_closePartials (e : Eng) (i : Nat) : getLane (closePartials e) i = closeLane (getLane e i) :=
  Tab.get_map (f := closeLane) rfl e.lanes i

/-! ## The passing of time -/

/-- The nanoseconds of a tick, as the timestamp counter gains them (R9). -/
theorem countTime_eq (e : Eng) :
    countTime e = { e with side := { e.side with
      ts := e.side.ts + (if e.side.relStep = .waitClock then 0 else if e.side.clk = .root then 1 else 10) } } := by
  have h : BitVec.ofNat 64 (tickNs e.side) =
      if e.side.relStep = .waitClock then 0 else if e.side.clk = .root then 1 else 10 := by
    unfold tickNs
    split
    · rfl
    · split
      · rfl
      · rfl
  rw [countTime, h]

/-- A tick of an engine in which nothing waits: time passes, and partial words are closed while the control domain runs. -/
theorem tick_of_idle (m : Mem) {e : Eng} (hjobs : ∀ y ∈ e.valleys, y.2.expo.jobs = []) (hrev : e.ctl.revokes = [])
    (hstops : e.ctl.stops = []) (hwait : e.side.pwrWait = none) (hdrowse : e.side.pwrState ≠ 1)
    (hres : e.ctl.resumed = []) (hq : ∀ x ∈ e.ctl.queues, x.2.inFlight = false ∧
      ∀ p ∈ x.2.buf, listedOps.contains (pkOp p).toNat = true) :
    tick m e = if ctlOn e then closePartials (countTime e) else countTime e := by
  have hon : ctlOn (countTime e) = ctlOn e := rfl
  have hwr : (if ctlOn e then writeResumed e else e) = e := by rw [writeResumed_of_none hres, ite_self]
  simp only [tick, hwr, hon]
  cases ctlOn e with
  | false => rfl
  | true =>
    have hrep : repliesWritten (countTime e) = countTime e := repliesWritten_of_none fun x hx => (hq x hx).1
    have hgate : gateBanks (closePartials (countTime e)) = closePartials (countTime e) := if_pos hdrowse
    have hexp : runExports m (closePartials (countTime e)) = closePartials (countTime e) :=
      runExports_of_no_jobs m fun v => Tab.get_of_forall (P := fun x : Valley => x.expo.jobs = []) rfl hjobs v
    have hadv : advance m (closePartials (countTime e)) = closePartials (countTime e) :=
      advance_of_no_waits m hrev hstops hwait
    have hans : answerAll (closePartials (countTime e)) = closePartials (countTime e) :=
      answerAll_of_listed fun x hx => (hq x hx).2
    simp [hrep, hgate, hexp, hadv, hans]

theorem step_of_empty {s : State} (h : s.pending = []) : step s = .next { s with eng := tick s.mem s.eng } := by
  unfold step
  rw [h]

/-- Settles O1: the front command is the head of the list that `step` matches on. -/
theorem stepRunsFrontCommand : Obligations.StepRunsFrontCommand := fun _ _ _ => rfl

/-- Settles O3: the default values of the fields of the state. -/
theorem resetState : Obligations.ResetState := ⟨⟨rfl, rfl, rfl, rfl, rfl, rfl, rfl⟩, rfl⟩

/-- Settles O2: with nothing waiting, a tick counts time and closes partial words (`tick_of_idle`). -/
theorem idleStepPassesTime : Obligations.IdleStepPassesTime := by
  intro s hp
  refine ⟨⟨_, step_of_empty hp, hp, rfl⟩, fun hjobs hrev hstops hwait hdrowse hres hq => ?_⟩
  rw [step_of_empty hp, tick_of_idle s.mem hjobs hrev hstops hwait hdrowse hres hq]
  cases hon : ctlOn s.eng with
  | false => exact ⟨s.eng.lanes, by rw [countTime_eq]; rfl, fun i => by simp [getLane]⟩
  | true =>
    refine ⟨(closePartials s.eng).lanes, by rw [countTime_eq]; rfl, fun i => ?_⟩
    have h := getLane_closePartials s.eng i
    simp only [closeLane] at h
    simpa [getLane] using h

end Sys2Proof.Machine

/-!
A received packet that passed its checks: the sender is heard, and the packet has the effect of its type and kind (R74,
R80 to R83, R120).
-/

namespace Sys2Proof.Machine

/-- The row of a packet that passed the checks. -/
theorem rxRow_of_accepted {p : RxPacket} {s : State} {v : Nat} (rdy : BitVec 256) (h : rxChecks s.eng p = .accepted v) :
    rxRow p rdy s =
      .next { s with eng := advance s.mem (act s.mem (heard s.eng v (hdrOf p).sender) v p (hdrOf p) rdy) } := by
  simp [rxRow, receive, h]

/-- The row of a packet of a comparison partner (R227, R230). -/
theorem rxRow_of_partner {p : RxPacket} {s : State} {v i : Nat} (rdy : BitVec 256)
    (h : rxChecks s.eng p = .partner v i) :
    rxRow p rdy s =
      .next { s with
        eng := advance s.mem
          (if (hdrOf p).kind = 2 then lockRecv s.mem s.eng v (hdrOf p).w3 (digEntries p (hdrOf p).count)
          else replicaRecv s.mem s.eng v i (hdrOf p).w3 (digEntries p (hdrOf p).count)) } := by
  simp [rxRow, receive, h]

/-- Folds, Watersheds, settle summaries and refusals reach the commit path of a slot that is no spare (R142). -/
theorem summaryIn_of_not_spare (m : Mem) {e : Eng} {v : Nat} (h : Hdr) (g : Msg) (hs : (getV e v).slot ≠ .spare) :
    summaryIn m e v h g = settleV m (deliver m e v h.sender h.epoch g) v := by
  unfold summaryIn
  split
  · next hslot => exact absurd hslot hs
  · rfl

/-- Settles O25: each row is the one row of received packets, and the header's type and kind select the effect. -/
theorem acceptedPacketsAct : Obligations.AcceptedPacketsAct := by
  refine ⟨fun p rdy s v hc => ?_, fun p s v i hc => ?_⟩
  · have row (r : BitVec 256) := rxRow_of_accepted r hc
    refine ⟨fun ht => (row rdy).trans ?_, fun ht => (row 0).trans ?_, fun ht hk => (row 0).trans ?_,
      fun ht hk => (row 0).trans ?_, fun ht hk => (row 0).trans ?_, fun ht hk => (row 0).trans ?_,
      fun ht hk => (row 0).trans ?_, fun ht hk => (row 0).trans ?_, fun ht hs => ?_,
      fun ht => ⟨(row 0).trans ?_, (row 0).trans ?_⟩, fun ht hk => (row 0).trans ?_,
      fun ht hk => (row 0).trans ?_, fun ht hk => (row 0).trans ?_⟩
    case refine_9 =>
      have fold (g : Msg) (hg : foldMsg p (hdrOf p) = g) :
          rxRow p 0 s = .next { s with eng := advance s.mem (settleV s.mem (deliver s.mem
            (heard s.eng v (hdrOf p).sender) v (hdrOf p).sender (hdrOf p).epoch g) v) } := by
        rw [row 0, ← hg, ← summaryIn_of_not_spare s.mem _ _ hs]
        simp only [act, ht]
      exact ⟨fun hk => fold _ (by simp only [foldMsg, hk]), fun hk => fold _ (by simp only [foldMsg, hk]),
        fun hk => fold _ (by simp only [foldMsg, hk]), fun hk => fold _ (by simp only [foldMsg, hk]),
        fun hk => fold _ (by simp only [foldMsg, hk]), fun hk => fold _ (by simp only [foldMsg, hk])⟩
    all_goals simp only [act, readyMsg, *]
  · have row := rxRow_of_partner 0 hc
    exact ⟨fun hk => row.trans (by rw [if_pos hk]), fun hk => row.trans (by rw [hk, if_neg (by decide)])⟩

end Sys2Proof.Machine

/-!
The received window of an inbound stream (R71): what the window says of a number is not changed by its sliding down.
-/

namespace Sys2Proof.Machine

/-- The window slides down by as many numbers as are received without a gap from A on (R71). -/
theorem slide_eq (n : Nat) (s : InStream) :
    ∃ k, k ≤ n ∧ slide n s = { s with a := s.a + BitVec.ofNat 32 k, win := s.win >>> k } ∧
      ∀ j, j < k → bit s.win j = true := by
  induction n generalizing s with
  | zero => exact ⟨0, Nat.le_refl _, by simp [slide], by simp⟩
  | succ n ih =>
    unfold slide
    split
    · next h0 =>
      obtain ⟨k, hk, hs, hb⟩ := ih { s with a := s.a + 1, win := s.win >>> 1 }
      refine ⟨k + 1, by omega, ?_, fun j hj => ?_⟩
      · have ha : (1 : W32) + BitVec.ofNat 32 k = BitVec.ofNat 32 (k + 1) := by
          rw [Nat.add_comm, BitVec.ofNat_add]; rfl
        simp only [hs, BitVec.add_assoc, ha, ← BitVec.shiftRight_add, Nat.add_comm 1 k]
      · cases j with
        | zero => exact h0
        | succ j => simpa [bit, Nat.add_comm] using hb j (by omega)
    · exact ⟨0, by omega, by simp, by simp⟩

/-- The offset of a number of the window after A has moved up by `k`. -/
theorem offset_after_slide {a : W32} {j k : Nat} (hj : j < 256) (hk : k ≤ 256) :
    (a + BitVec.ofNat 32 j - (a + BitVec.ofNat 32 k)).toNat = if j < k then 2 ^ 32 + j - k else j - k := by
  split <;> bv_omega

/-- What a slid window says of a number of the old one: received, if it was or lies below A; else fresh. -/
theorem seqVerdict_slid (s : InStream) {j k : Nat} (hj : j < 256) (hk : k ≤ 256) :
    seqVerdict { s with a := s.a + BitVec.ofNat 32 k, win := s.win >>> k } (s.a + BitVec.ofNat 32 j) =
      if j < k ∨ bit s.win j = true then .duplicate else .fresh (j - k) := by
  simp only [seqVerdict, offset_after_slide hj hk]
  by_cases hjk : j < k
  · simp only [hjk, if_true, true_or]
    exact if_pos (by omega)
  · have hbit : bit (s.win >>> k) (j - k) = bit s.win j := by simp [bit, show k + (j - k) = j by omega]
    simp only [hjk, if_false, false_or, hbit]
    rw [if_neg (by omega), if_neg (by omega)]

theorem bit_setBit {n : Nat} (x : BitVec n) (i j : Nat) (hj : j < n) :
    bit (setBit x i) j = (decide (j = i) || bit x j) := by
  simp only [bit, setBit, BitVec.getLsbD_or, BitVec.getLsbD_ofNat, Nat.testBit_two_pow, hj, decide_true,
    Bool.true_and, Bool.or_comm, eq_comm (a := i)]

/-- What the window says of each of its numbers once one of them is marked. -/
theorem seqVerdict_markSeq (s : InStream) {i j : Nat} (hj : j < 256) :
    ∃ k, seqVerdict (markSeq s i) (s.a + BitVec.ofNat 32 j) =
      if j = i ∨ bit s.win j = true then .duplicate else .fresh (j - k) := by
  obtain ⟨k, hk, hs, hb⟩ := slide_eq 256 { s with win := setBit s.win i }
  refine ⟨k, ?_⟩
  rw [markSeq, hs, seqVerdict_slid { s with win := setBit s.win i } hj hk]
  have hset := bit_setBit s.win i j hj
  simp only [hset, Bool.or_eq_true, decide_eq_true_eq] at hb ⊢
  by_cases hjk : j < k
  · have := hb j hjk
    rw [hset] at this
    simp only [Bool.or_eq_true, decide_eq_true_eq] at this
    simp [hjk, this]
  · simp [hjk]

/-- Settles O26: the three clauses on what is not fresh are the branches of `seqVerdict`; marking is
`seqVerdict_markSeq`. -/
theorem receivedWindow : Obligations.ReceivedWindow := by
  intro st q
  refine ⟨fun h => if_pos h, fun h1 h2 => ?_, fun h1 h2 => ?_, fun i hi => ?_⟩
  · simp only [seqVerdict, if_neg (Nat.not_le.2 h1), if_pos h2]
  · simp only [seqVerdict, if_neg (show ¬ 2 ^ 31 ≤ (q - st.a).toNat by omega), if_neg (Nat.not_le.2 h1), if_pos h2]
  · simp only [seqVerdict] at hi
    split at hi
    · cases hi
    split at hi
    · cases hi
    split at hi
    · cases hi
    next hlo hhi hb =>
    obtain rfl := (SeqVerdict.fresh.inj hi).symm
    have hq : st.a + BitVec.ofNat 32 (q - st.a).toNat = q := by
      rw [BitVec.ofNat_toNat, BitVec.setWidth_eq, BitVec.add_comm, BitVec.sub_add_cancel]
    have mark (j : Nat) (hj : j < 256) := seqVerdict_markSeq st (i := (q - st.a).toNat) hj
    refine ⟨rfl, by omega, by simpa using hb, ?_, fun j hj _ hbit => ?_, fun j hj hne hbit => ?_⟩
    · obtain ⟨k, hk⟩ := mark (q - st.a).toNat (by omega)
      rw [hq] at hk
      rw [hk, if_pos (.inl rfl)]
    · obtain ⟨k, hk⟩ := mark j hj
      rw [hk, if_pos (.inr hbit)]
    · obtain ⟨k, hk⟩ := mark j hj
      exact ⟨j - k, by rw [hk, if_neg (not_or.2 ⟨hne, by rw [hbit]; decide⟩)]⟩

end Sys2Proof.Machine

/-!
The hold-up sideband (R24 to R26): what a poll, a reading, the stretch timeout and the two pins do to the side domain.
-/

namespace Sys2Proof.Machine

/-- A reading with a new sample number clears the stale mark and sets the sample's time (R26). -/
theorem takeReading_of_fresh {s : Side} {w : W32} (h : fld w 16 8 ≠ fld s.hRecord 16 8) :
    takeReading s (some w) =
      { s with hBusy := false, hFailed := false, hRecord := w, hStale := false, hSampleTs := s.ts } := by
  simp [takeReading, h]

/-- A reading whose sample number is the last one's leaves the mark and the time (R26). -/
theorem takeReading_of_same {s : Side} {w : W32} (h : fld w 16 8 = fld s.hRecord 16 8) :
    takeReading s (some w) = { s with hBusy := false, hFailed := false, hRecord := w } := by
  simp [takeReading, h]

/-- The end of a transfer that is under way: a reading is taken, and the drains that wait for energy decide again. -/
theorem exec_holdupReading_of_busy {s : State} (r : Option W32) (h : s.eng.side.hBusy = true) :
    exec (.holdupReading r) s =
      .next { s with eng := decideAgain { s.eng with side := takeReading s.eng.side r } } := by
  show execHoldupReading r s = _
  simp [execHoldupReading, h]

/-- The stretch timeout is the end of a transfer without a record (R25). -/
theorem exec_sidebandStretchTimeout (s : State) : exec .sidebandStretchTimeout s = exec (.holdupReading none) s := rfl

theorem sideOn_of_clock {e : Eng} (h : e.side.relStep ≠ .waitClock) : sideOn e = true := decide_eq_true h

/-- Settles O7: each row is one condition of the side domain and one change of it. -/
theorem holdupSideband : Obligations.HoldupSideband := by
  intro s w b
  refine ⟨fun hon hbusy hper => ?_, fun hbusy hw => ?_, fun hbusy hw => ?_, fun hbusy => ?_, fun hon hst => ?_,
    fun hon => ?_⟩
  · show execHoldupPoll s = _
    simp [execHoldupPoll, sideOn_of_clock hon, hbusy, hper, holdupPlace, -BitVec.toNat_sub]
  · rw [exec_holdupReading_of_busy _ hbusy, takeReading_of_fresh hw]
  · rw [exec_holdupReading_of_busy _ hbusy, takeReading_of_same hw]
  · rw [exec_sidebandStretchTimeout, exec_holdupReading_of_busy _ hbusy]
    exact ⟨rfl, rfl⟩
  · show execHoldupStale s = _
    simp [execHoldupStale, sideOn_of_clock hon, hst, -BitVec.toNat_sub]
  · show execHoldupAlert b s = _
    simp [execHoldupAlert, sideOn_of_clock hon]

end Sys2Proof.Machine

/-!
The release order (R10, R31): the steps from the clock to READY, and changes of every lane at once.
-/

namespace Sys2Proof.Machine

/-! ## Changes of several lanes -/

/-- What a table answers that lists one entry for each of some keys. -/
theorem Tab.get_map_keys {α : Type} (d : α) (f : Nat → α) {ks : List Nat} {k : Nat} (h : k ∈ ks) :
    Tab.get d (ks.map fun i => (i, f i)) k = f k := by
  induction ks with
  | nil => cases h
  | cons i r ih =>
    by_cases hk : k = i
    · subst hk; simp [Tab.get]
    · simp only [List.map_cons, Tab.get, hk, if_false]
      exact ih (by simpa [hk] using h)

/-- Updates of lanes change nothing else. -/
theorem foldl_updLane_eq (f : Lane → Lane) (ks : List Nat) (e : Eng) :
    ∃ lanes, ks.foldl (fun e i => updLane e i f) e = { e with lanes := lanes } := by
  induction ks generalizing e with
  | nil => exact ⟨e.lanes, rfl⟩
  | cons i r ih =>
    obtain ⟨lanes, h⟩ := ih (updLane e i f)
    exact ⟨lanes, by rw [List.foldl_cons, h]; rfl⟩

/-- Each lane that is updated, once, is changed; every other one stays. -/
theorem getLane_foldl_updLane (f : Lane → Lane) {ks : List Nat} (hn : ks.Nodup) (e : Eng) (j : Nat) :
    getLane (ks.foldl (fun e i => updLane e i f) e) j = if j ∈ ks then f (getLane e j) else getLane e j := by
  induction ks generalizing e with
  | nil => simp
  | cons i r ih =>
    obtain ⟨hi, hr⟩ := List.nodup_cons.1 hn
    rw [List.foldl_cons, ih hr]
    by_cases hj : j = i
    · subst hj; simp [hi]
    · simp [getLane_updLane_ne _ _ hj, hj]

/-! ## The release order -/

/-- The release of step 3 once nothing holds the domains. -/
theorem startRelease_of_free (e : Eng) {x : Side} (h : x.relStep = .held) (hl : x.pllLock = true)
    (hr : x.rstLow = false) :
    startRelease { e with side := x } =
      { e with side := { x with relStep := .control }, ctl := { e.ctl with bootRom := true } } := by
  simp [startRelease, h, hl, hr]

/-- Nothing is released out of turn, or while a reset input holds the domains. -/
theorem startRelease_of_held (e : Eng) {x : Side}
    (h : x.relStep ≠ .held ∨ x.pllLock = false ∨ x.rstLow = true) :
    startRelease { e with side := x } = { e with side := x } := by
  refine if_neg fun hc => ?_
  obtain ⟨hs, hl, hr⟩ := hc
  rcases h with h | h | h <;> simp_all

/-- What step 2 leaves in the side domain: the sampled life cycle and level, and the device key (R28, R31). -/
def fusedSide (s : Side) (lc dbg : BitVec 2) : Side :=
  seeLevel { s with lc := lc, devKeyHere := decide (lc = 0 ∨ lc = 1)
                    devKey := if decide (lc = 0 ∨ lc = 1) then Config.fuseDeviceKey else 0, relStep := .held } dbg

theorem fusesDone_eq (e : Eng) (lc dbg : BitVec 2) :
    fusesDone e lc dbg = startRelease { e with side := fusedSide e.side lc dbg } := rfl

/-- Step 6: every lane loses the reset cause and its throttle rises. -/
theorem getLane_tablesDone (e : Eng) (node : W16) (i : Fin 12) :
    getLane (tablesDone e node) i.val = { getLane e i.val with rstCause := false, wthr := true } := by
  unfold tablesDone
  rw [getLane_foldl_updLane _ List.nodup_range, if_pos (List.mem_range.2 i.isLt)]
  rfl

section
variable {s : State} (lc dbg : BitVec 2) (node : W16)

theorem exec_releaseStepDone_of_fuses (h : s.eng.side.relStep = .fuses) :
    exec (.releaseStepDone lc dbg node) s = .next { s with eng := fusesDone s.eng lc dbg } := by
  show execReleaseStepDone lc dbg node s = _
  simp only [execReleaseStepDone, h]

theorem exec_releaseStepDone_of_control (h : s.eng.side.relStep = .control) :
    exec (.releaseStepDone lc dbg node) s =
      .next { s with eng := { s.eng with side := { s.eng.side with relStep := .coreClear } } } := by
  show execReleaseStepDone lc dbg node s = _
  simp only [execReleaseStepDone, h]

theorem exec_releaseStepDone_of_coreClear (h : s.eng.side.relStep = .coreClear) :
    exec (.releaseStepDone lc dbg node) s = .next { s with eng := coreDone s.eng } := by
  show execReleaseStepDone lc dbg node s = _
  simp only [execReleaseStepDone, h]

theorem exec_releaseStepDone_of_fabTables (h : s.eng.side.relStep = .fabTables) :
    exec (.releaseStepDone lc dbg node) s =
      .next { s with
        eng := if fld node 13 3 ≠ 0 then { s.eng with ctl := { s.eng.ctl with nodeFault := true } }
        else if s.eng.ctl.nodeFault then s.eng
        else tablesDone s.eng node } := by
  show execReleaseStepDone lc dbg node s = _
  simp only [execReleaseStepDone, h]

theorem exec_releaseStepDone_of_idle
    (h : s.eng.side.relStep = .waitClock ∨ s.eng.side.relStep = .held ∨ s.eng.side.relStep = .ready) :
    exec (.releaseStepDone lc dbg node) s = .next s := by
  show execReleaseStepDone lc dbg node s = _
  rcases h with h | h | h <;> simp only [execReleaseStepDone, h]

end

/-- CLOCK_LOCKED when the lock was low. -/
theorem exec_clockLocked_of_unlocked {s : State} (h : s.eng.side.pllLock = false) :
    exec .clockLocked s = .next { s with
      eng := if s.eng.side.relStep = .waitClock then
        { s.eng with side := { s.eng.side with pllLock := true, clk := .root, relStep := .fuses } }
      else startRelease { s.eng with side := { s.eng.side with pllLock := true, clk := .root } } } := by
  show execClockLocked s = _
  simp [execClockLocked, h]

theorem exec_warmResetRelease (s : State) :
    exec .warmResetRelease s =
      .next { s with eng := startRelease { s.eng with side := { s.eng.side with rstLow := false } } } := rfl

/-- Settles O6: the release order goes on by `exec_releaseStepDone_of_fuses` and its like, step by step, with `startRelease` where step 3 begins. -/
theorem releaseOrder : Obligations.ReleaseOrder := by
  refine ⟨fun s lc dbg node => ⟨fun hl hw => ?_, fun hl => ?_, fun hf hl hr => ?_, fun hf hh => ?_, fun hc => ?_,
    fun hc => ?_, fun hh => ?_, fun hh hl => ?_, fun hh => ?_, fun hh hr hl => ?_⟩, fun s lc dbg node hf =>
    ⟨fun hn => ⟨fun h0 => ?_, fun h1 => ?_⟩, fun hn => ?_⟩⟩
  · exact ⟨_, exec_clockLocked_of_unlocked hl, by simp [hw]⟩
  · show execClockLocked s = _
    simp [execClockLocked, hl]
  · refine ⟨_, exec_releaseStepDone_of_fuses lc dbg node hf, ?_⟩
    rw [fusesDone_eq, startRelease_of_free s.eng (x := fusedSide s.eng.side lc dbg) rfl hl hr]
    exact ⟨rfl, rfl, rfl, rfl, rfl, rfl⟩
  · refine ⟨_, exec_releaseStepDone_of_fuses lc dbg node hf, ?_⟩
    rw [fusesDone_eq, startRelease_of_held s.eng (x := fusedSide s.eng.side lc dbg) (.inr hh)]
    exact ⟨rfl, rfl, rfl, rfl⟩
  · exact ⟨_, exec_releaseStepDone_of_control lc dbg node hc, rfl, rfl⟩
  · exact ⟨_, exec_releaseStepDone_of_coreClear lc dbg node hc, rfl, rfl,
      fun i => Tab.get_map_keys _ _ (List.mem_range.2 i.isLt), rfl⟩
  · exact exec_releaseStepDone_of_idle lc dbg node hh
  · refine ⟨_, exec_warmResetRelease s, ?_⟩
    dsimp only
    rw [startRelease_of_free s.eng (x := { s.eng.side with rstLow := false }) hh hl rfl]
    exact ⟨rfl, rfl, rfl, rfl⟩
  · rw [exec_warmResetRelease]
    dsimp only
    rw [startRelease_of_held s.eng (x := { s.eng.side with rstLow := false }) (hh.imp id .inl)]
  · refine ⟨_, exec_clockLocked_of_unlocked hl, ?_⟩
    rw [if_neg (by simp [hh])]
    dsimp only
    rw [startRelease_of_free s.eng (x := { s.eng.side with pllLock := true, clk := .root }) hh rfl hr]
    exact ⟨rfl, rfl, rfl⟩
  · refine ⟨_, exec_releaseStepDone_of_fabTables lc dbg node hf, ?_⟩
    simp only [h0, ne_eq, not_true, if_false, hn, Bool.false_eq_true]
    obtain ⟨lanes, hl⟩ := foldl_updLane_eq (fun l => { l with rstCause := false, wthr := true }) (List.range 12)
      { s.eng with
        regs := { s.eng.regs with
          accReg := [(0x00, 0x15FE1FFF), (0x80, 0x00000E87)], accFab := [(0, 0x00010000)], accSto := [] }
        ctl := { s.eng.ctl with node := node }, side := { s.eng.side with relStep := .ready } }
    have ht : tablesDone s.eng node = _ := hl
    refine ⟨by rw [ht], by rw [ht], by rw [ht], by rw [ht], by rw [ht], fun i => ?_, trivial⟩
    rw [getLane_tablesDone]
    exact ⟨rfl, rfl⟩
  · refine ⟨_, exec_releaseStepDone_of_fabTables lc dbg node hf, ?_⟩
    simp only [ne_eq, h1, not_false_iff, if_true]
    exact ⟨hf, trivial, trivial⟩
  · rw [exec_releaseStepDone_of_fabTables lc dbg node hf, ← hn]
    simp

end Sys2Proof.Machine

/-!
The bytes of package memory after a line write, after an accumulate, and after the coded writes that a reset performs
(R11, R16, R32); and what a reset of the three domains leaves.
-/

namespace Sys2Proof.Machine

/-! ## Bytes of lines -/

/-- The bytes that a change of a line reaches: those of the line that are enabled. -/
def inLine (l : Nat) (be : BitVec 256) (a : Nat) : Bool := decide (a / 256 = l) && bit be (a % 256)

theorem inLine_iff {l : Nat} {be : BitVec 256} {a : Nat} :
    inLine l be a = true ↔ ∃ i, i < 256 ∧ bit be i = true ∧ a = 256 * l + i := by
  simp only [inLine, Bool.and_eq_true, decide_eq_true_eq]
  constructor
  · rintro ⟨hl, hb⟩
    exact ⟨a % 256, by omega, hb, by omega⟩
  · rintro ⟨i, hi, hb, rfl⟩
    rw [show (256 * l + i) % 256 = i by omega]
    exact ⟨by omega, hb⟩

/-- A byte of a line, after the bytes up to place `n` of the line were written where enabled, each by a function of what
it was. -/
theorem get_foldl_put (l : Nat) (be : BitVec 256) (f : Nat → Byte → Byte) (m : Mem) (a : Nat) :
    ∀ n, n ≤ 256 → Mem.get ((List.range n).foldl
        (fun m i => if bit be i then Mem.put m (256 * l + i) (f i (Mem.get m (256 * l + i))) else m) m) a =
      if inLine l be a ∧ a % 256 < n then f (a % 256) (Mem.get m a) else Mem.get m a
  | 0, _ => by simp
  | n + 1, hn => by
    have ih := get_foldl_put l be f m a n (by omega)
    rw [List.range_succ, List.foldl_append, List.foldl_cons, List.foldl_nil]
    by_cases ha : a = 256 * l + n
    · have hmod : a % 256 = n := by omega
      have hdiv : a / 256 = l := by omega
      simp only [hmod, Nat.lt_irrefl, and_false, if_false] at ih
      simp only [inLine, hmod, hdiv, decide_true, Bool.true_and, Nat.lt_succ_self, and_true]
      split
      · rw [Mem.get_put, if_pos ha, ← ha, ih]
      · exact ih
    · have hiff : (inLine l be a = true ∧ a % 256 < n + 1) ↔ (inLine l be a = true ∧ a % 256 < n) :=
        and_congr_right fun hin => by
          have hl : a / 256 = l := by simpa using (Bool.and_eq_true_iff.1 hin).1
          omega
      simp only [hiff]
      split
      · rw [Mem.get_put, if_neg ha, ih]
      · exact ih

/-- A byte after a coded write (R11, R14). -/
theorem get_writeLine (m : Mem) (l : Nat) (be : BitVec 256) (x : Line) (a : Nat) :
    Mem.get (Mem.writeLine m l be x) a = if inLine l be a then Line.byte x (a % 256) else Mem.get m a := by
  unfold Mem.writeLine
  have h := get_foldl_put l be (fun i _ => Line.byte x i) m a 256 (Nat.le_refl _)
  simpa only [show a % 256 < 256 by omega, and_true] using h

/-- A byte after an accumulate (R16). -/
theorem get_xorLine (m : Mem) (l : Nat) (be : BitVec 256) (d : Line) (a : Nat) :
    Mem.get (Mem.xorLine m l be d) a =
      if inLine l be a then Mem.get m a ^^^ Line.byte d (a % 256) else Mem.get m a := by
  unfold Mem.xorLine
  have h := get_foldl_put l be (fun i b => b ^^^ Line.byte d i) m a 256 (Nat.le_refl _)
  simpa only [show a % 256 < 256 by omega, and_true] using h

/-! ## Coded writes performed at a reset -/

/-- A performed write changes no byte outside those it enables. -/
theorem get_performWrite_of_not {m : Mem} {w : LaneWrite} {a : Nat} (h : ¬ inLine w.line w.be a) :
    Mem.get (performWrite m w) a = Mem.get m a := by
  unfold performWrite
  split
  · rfl
  · rw [get_writeLine, if_neg h]

theorem get_performWrites_of_not {ws : List LaneWrite} {a : Nat} (h : ∀ w ∈ ws, ¬ inLine w.line w.be a) (m : Mem) :
    Mem.get (ws.foldl performWrite m) a = Mem.get m a := by
  induction ws generalizing m with
  | nil => rfl
  | cons w r ih =>
    rw [List.foldl_cons, ih (fun x hx => h x (List.mem_cons_of_mem _ hx)),
      get_performWrite_of_not (h w List.mem_cons_self)]

/-- A byte that one write of several enables, and no other one, reads as that write says. -/
theorem get_performWrites_of_one {ws : List LaneWrite} {w : LaneWrite} {a : Nat} (hm : w.inMem = false)
    (he : w.engine = false) (hw : inLine w.line w.be a) (h : ∀ x ∈ ws, x ≠ w → ¬ inLine x.line x.be a) (m : Mem)
    (hin : w ∈ ws ∨ Mem.get m a = Line.byte w.new (a % 256)) :
    Mem.get (ws.foldl performWrite m) a = Line.byte w.new (a % 256) := by
  induction ws generalizing m with
  | nil => exact hin.resolve_left List.not_mem_nil
  | cons x r ih =>
    refine ih (fun y hy => h y (List.mem_cons_of_mem _ hy)) _ ?_
    by_cases hx : x = w
    · right
      rw [hx, performWrite, hm, he, Bool.or_self, if_neg Bool.false_ne_true, get_writeLine, if_pos hw]
    · rw [get_performWrite_of_not (h x List.mem_cons_self hx)]
      exact hin.imp (fun hmem => (List.mem_cons.1 hmem).resolve_left (Ne.symm hx)) id

theorem performQueued_eq (m : Mem) (e : Eng) :
    performQueued m e = (e.lanes.flatMap fun l => l.2.q).foldl performWrite m := List.foldl_flatMap.symm

/-- The coded writes that a reset performs change the bytes they enable, and no other one. -/
theorem get_performQueued (m : Mem) (e : Eng) :
    (∀ a, (∀ l ∈ e.lanes, ∀ w ∈ l.2.q, ∀ i, i < 256 → bit w.be i = true → a ≠ 256 * w.line + i) →
      Mem.get (performQueued m e) a = Mem.get m a) ∧
    (∀ l ∈ e.lanes, ∀ w ∈ l.2.q, w.inMem = false → w.engine = false → ∀ i, i < 256 → bit w.be i = true →
      (∀ l' ∈ e.lanes, ∀ w' ∈ l'.2.q, w' ≠ w → ∀ j, j < 256 → bit w'.be j = true →
        256 * w'.line + j ≠ 256 * w.line + i) →
      Mem.get (performQueued m e) (256 * w.line + i) = Line.byte w.new i) := by
  simp only [performQueued_eq]
  refine ⟨fun a ha => get_performWrites_of_not (fun w hw => ?_) m, fun l hl w hw hm he i hi hb ho => ?_⟩
  · obtain ⟨l, hl, hwl⟩ := List.mem_flatMap.1 hw
    rw [inLine_iff]
    rintro ⟨i, hi, hb, rfl⟩
    exact ha l hl w hwl i hi hb rfl
  · have hone := get_performWrites_of_one (ws := e.lanes.flatMap fun l => l.2.q) (a := 256 * w.line + i) hm he
      (inLine_iff.2 ⟨i, hi, hb, rfl⟩) (fun x hx hne => ?_) m (.inl (List.mem_flatMap.2 ⟨l, hl, hw⟩))
    · rwa [show (256 * w.line + i) % 256 = i by omega] at hone
    · obtain ⟨l', hl', hxl⟩ := List.mem_flatMap.1 hx
      rw [inLine_iff]
      rintro ⟨j, hj, hbj, heq⟩
      exact ho l' hl' x hxl hne j hj hbj heq.symm

/-! ## Events while the ring is shut -/

/-- With the event ring shut, the held events stay where they are. -/
theorem evtFlush_of_shut (n : Nat) {e : Eng} (h : evtOpen e = false) : evtFlush n e = e := by
  cases n with
  | zero => rfl
  | succ n => simp [evtFlush, h]

/-- An event of function `fn` that the ring does not take stands behind the held ones, with the next sequence number
(R244). -/
def heldEvent (e : Eng) (fn : Byte) (code status : W16) (v : Option Nat) (r0 r1 : W64) : EvRec :=
  { code := code, status := status, valley := v, fn := fn, seq := e.ctl.evt.seq, ts := e.side.ts, r0 := r0, r1 := r1 }

theorem raiseFn_of_shut {e : Eng} (fn : Byte) (code status : W16) (v : Option Nat) (r0 r1 : W64)
    (h : evtOpen e = false) (hroom : e.ctl.evt.held.length < evtHoldMax) :
    raiseFn e fn code status v r0 r1 = updEvt e fun ev =>
      { ev with seq := (ev.seq + 1) % 32768, held := ev.held ++ [heldEvent e fn code status v r0 r1] } := by
  have hshut (s : Nat) (l : List EvRec) : evtOpen (updEvt e fun ev => { ev with seq := s, held := l }) = false := h
  have hseq (g : EvtRing → Nat) : evtOpen (updEvt e fun ev => { ev with seq := g ev }) = false := h
  have hheld (g : EvtRing → Nat) : (updEvt e fun ev => { ev with seq := g ev }).ctl.evt.held.length < evtHoldMax :=
    hroom
  rw [raiseFn]
  dsimp only [evtNumber]
  simp only [hseq, hheld, Bool.false_and, Bool.false_eq_true, if_false, if_true]
  exact evtFlush_of_shut _ (hshut _ _)

/-! ## The domains after a reset -/

/-- The engine that a reset leaves, before the event is raised: its side domain and what the ports still hold. -/
def resetEng (e : Eng) (w : BitVec 12) : Eng := { side := resetSide e.side, io := resetIo w e.io }

/-- KEYS_ZEROED of a reset, cause 3 (R286). -/
def resetEvent (e : Eng) (w : BitVec 12) : EvRec :=
  heldEvent (resetEng e w) 0 evKeysZeroed stOK none (pack [(0, 3), (16, 0xFFFF)]) 0

/-- A reset clears the three domains and holds KEYS_ZEROED, the event ring being disabled then. -/
theorem resetDomains_eq (e : Eng) (w : BitVec 12) :
    resetDomains e w = updEvt (resetEng e w) fun ev => { ev with seq := 1, held := [resetEvent e w] } := by
  have hoff : evtEnabled (resetEng e w) = false := show bit (0xA : W32) 8 = false by decide
  have hshut : evtOpen (resetEng e w) = false := by simp [evtOpen, hoff]
  show raiseFn (resetEng e w) 0 evKeysZeroed stOK none _ 0 = _
  rw [raiseFn_of_shut _ _ _ _ _ _ hshut (show 0 < evtHoldMax by decide)]
  rfl

/-- Do the release steps before the domains run: a reset input changes only what it says of itself. -/
theorem holdDomains_of_held {s : State} (w : BitVec 12) (f : Side → Side)
    (h : s.eng.side.relStep = .waitClock ∨ s.eng.side.relStep = .fuses ∨ s.eng.side.relStep = .held) :
    holdDomains s w f = { s with eng := { s.eng with side := f s.eng.side } } := if_pos h

/-- A reset that takes hold. -/
theorem holdDomains_of_free {s : State} (w : BitVec 12) (f : Side → Side) (h1 : s.eng.side.relStep ≠ .waitClock)
    (h2 : s.eng.side.relStep ≠ .fuses) (h3 : s.eng.side.relStep ≠ .held) :
    holdDomains s w f = { s with
      mem := performQueued s.mem s.eng
      eng := { updEvt (resetEng s.eng w) (fun ev => { ev with seq := 1, held := [resetEvent s.eng w] }) with
        side := f { resetSide s.eng.side with relStep := .held } } } := by
  rw [holdDomains, if_neg (by simp [h1, h2, h3])]
  simp only [resetDomains_eq]
  rfl

/-- Settles O5: `get_performQueued` says which bytes change, `holdDomains_of_free` what the domains hold. -/
theorem resetsClearTheirDomains : Obligations.ResetsClearTheirDomains := by
  have perf (s : State) := get_performQueued s.mem s.eng
  refine ⟨fun s => ?_, fun s w h1 h2 h3 => ?_, fun s w => ⟨fun hr => ?_, fun hl => ?_, fun hh =>
    ⟨fun hr => ?_, fun hl => ?_⟩⟩⟩
  · exact ⟨_, rfl, rfl, rfl, rfl, rfl, rfl, rfl, rfl, rfl, rfl, rfl, rfl, rfl, rfl, rfl, perf s⟩
  · have hacc : (resetIo w s.eng.io).acc.map (fun r => (r.line, r.be, r.data)) =
        s.eng.io.acc.map (fun r => (r.line, r.be, r.data)) := by
      simp [resetIo]
    have hev : fld (pack [(0, 3), (16, 0xFFFF)]) 0 4 = 3 := by decide
    refine ⟨fun hr => ⟨holdDomains s w fun x => { x with rstLow := true }, ?_, ?_⟩,
      fun hl => ⟨holdDomains s w fun x => { x with pllLock := false, clk := .ref, lockLoss := true }, ?_, ?_⟩⟩
    · show execWarmReset w s = _
      simp [execWarmReset, hr]
    · rw [holdDomains_of_free w _ h1 h2 h3]
      exact ⟨rfl, rfl, rfl, rfl, rfl, rfl, rfl, rfl, rfl, rfl, rfl, rfl, rfl, rfl, rfl, rfl, hacc,
        congrArg (fun n => [(evKeysZeroed, n)]) hev, rfl, perf s⟩
    · show execLockLoss w s = _
      simp [execLockLoss, hl]
    · rw [holdDomains_of_free w _ h1 h2 h3]
      exact ⟨rfl, rfl, rfl, rfl, rfl, rfl, rfl, rfl, rfl, rfl, rfl, rfl, rfl, rfl, rfl, rfl, hacc,
        congrArg (fun n => [(evKeysZeroed, n)]) hev, rfl, perf s⟩
  · show execWarmReset w s = _
    simp [execWarmReset, hr]
  · show execLockLoss w s = _
    simp [execLockLoss, hl]
  · show execWarmReset w s = _
    rw [execWarmReset, hr, if_neg Bool.false_ne_true, holdDomains_of_held w _ hh]
  · show execLockLoss w s = _
    rw [execLockLoss, hl, Bool.not_true, if_neg Bool.false_ne_true, holdDomains_of_held w _ hh]

end Sys2Proof.Machine

/-!
What events depend on (R244, R245); debug levels, flit drops in Retention and the reseed of the random source (R28, R288,
R293, R296).
-/

namespace Sys2Proof.Machine

/-! ## What the event ring does depends on little -/

/-- Two engines that the event ring does not tell apart: it sees its own state, the vectors, the clock, the power state, the
gap of vector 66, the queues' owners, and what was written to host memory and sent. -/
structure SameEvents (e f : Eng) : Prop where
  evt : e.ctl.evt = f.ctl.evt
  irq : e.ctl.irq = f.ctl.irq
  irq66Ts : e.ctl.irq66Ts = f.ctl.irq66Ts
  ts : e.side.ts = f.side.ts
  pwr : e.side.pwrState = f.side.pwrState
  gap : e.regs.suspectGap = f.regs.suspectGap
  hm : e.io.hm = f.io.hm
  queues : e.ctl.queues = f.ctl.queues
  msg : e.io.irqMsg = f.io.irqMsg

theorem SameEvents.updEvt {e f : Eng} (h : SameEvents e f) (g : EvtRing → EvtRing) :
    SameEvents (updEvt e g) (updEvt f g) :=
  ⟨congrArg g h.evt, h.irq, h.irq66Ts, h.ts, h.pwr, h.gap, h.hm, h.queues, h.msg⟩

theorem SameEvents.vecOwner {e f : Eng} (h : SameEvents e f) (n : Nat) : vecOwner e n = vecOwner f n := by
  rw [Machine.vecOwner, Machine.vecOwner, getQ, getQ, h.queues]

theorem SameEvents.sendIrq {e f : Eng} (h : SameEvents e f) (n : Nat) : SameEvents (sendIrq e n) (sendIrq f n) := by
  unfold Machine.sendIrq
  rw [h.irq]
  split
  · exact h
  · exact ⟨h.evt, rfl, h.irq66Ts, h.ts, h.pwr, h.gap, h.hm, h.queues, by rw [h.vecOwner, h.msg]⟩

/-- Does a message on vector 66 have to wait: for the gap's end, or for the vector's acknowledgement (R124)? -/
def irq66Waits (e : Eng) : Prop :=
  (match e.ctl.irq66Ts with
    | some t => decide ((e.side.ts - t).toNat < Regs.suspectGapNs e.regs)
    | none => false) = true ∨ bit e.ctl.irq 66 = true

theorem SameEvents.irq66Waits {e f : Eng} (h : SameEvents e f) : irq66Waits e ↔ irq66Waits f := by
  rw [Machine.irq66Waits, Machine.irq66Waits, h.irq66Ts, h.irq, h.ts, Regs.suspectGapNs, Regs.suspectGapNs, h.gap]

theorem sendIrq66_of_waits {e : Eng} (h : irq66Waits e) :
    sendIrq66 e = { e with ctl := { e.ctl with irq66Due := true } } := if_pos h

theorem sendIrq66_of_free {e : Eng} (h : ¬ irq66Waits e) :
    sendIrq66 e = { sendIrq e 66 with
      ctl := { (sendIrq e 66).ctl with irq66Ts := some e.side.ts, irq66Due := false } } := if_neg h

theorem SameEvents.sendIrq66 {e f : Eng} (h : SameEvents e f) : SameEvents (sendIrq66 e) (sendIrq66 f) := by
  by_cases hw : Machine.irq66Waits e
  · rw [sendIrq66_of_waits hw, sendIrq66_of_waits (h.irq66Waits.1 hw)]
    exact ⟨h.evt, h.irq, h.irq66Ts, h.ts, h.pwr, h.gap, h.hm, h.queues, h.msg⟩
  · have hs := h.sendIrq 66
    rw [sendIrq66_of_free hw, sendIrq66_of_free (mt h.irq66Waits.2 hw)]
    exact ⟨hs.evt, hs.irq, congrArg some h.ts, hs.ts, hs.pwr, hs.gap, hs.hm, hs.queues, hs.msg⟩

theorem SameEvents.size {e f : Eng} (h : SameEvents e f) : evtSize e = evtSize f := by rw [evtSize, evtSize, h.evt]

theorem SameEvents.opened {e f : Eng} (h : SameEvents e f) : evtOpen e = evtOpen f := by
  rw [evtOpen, evtOpen, evtEnabled, evtEnabled, evtFull, evtFull, h.size, h.evt, h.pwr]

theorem SameEvents.evtWrite {e f : Eng} (h : SameEvents e f) (r : EvRec) : SameEvents (evtWrite e r) (evtWrite f r) := by
  have hring (e' f' : Eng) (h' : SameEvents e' f') (g : EvtRing → EvtRing) : SameEvents
      (if evtVector r.code = 66 then Machine.sendIrq66 (Machine.updEvt e' g)
        else Machine.sendIrq (Machine.updEvt e' g) (evtVector r.code))
      (if evtVector r.code = 66 then Machine.sendIrq66 (Machine.updEvt f' g)
        else Machine.sendIrq (Machine.updEvt f' g) (evtVector r.code)) := by
    split
    · exact (h'.updEvt g).sendIrq66
    · exact (h'.updEvt g).sendIrq _
  have hwrite (w : HmWrite) : SameEvents (updIo e fun io => { io with hm := w :: io.hm })
      (updIo f fun io => { io with hm := w :: io.hm }) :=
    ⟨h.evt, h.irq, h.irq66Ts, h.ts, h.pwr, h.gap, congrArg (List.cons w) h.hm, h.queues, h.msg⟩
  unfold Machine.evtWrite
  rw [h.size, h.irq, h.evt]
  exact hring _ _ (hwrite _) _

theorem SameEvents.number {e f : Eng} (h : SameEvents e f) (r : EvRec) :
    SameEvents (evtNumber e r).1 (evtNumber f r).1 ∧ (evtNumber e r).2 = (evtNumber f r).2 := by
  refine ⟨h.updEvt fun ev => { ev with seq := (ev.seq + 1) % 32768 }, ?_⟩
  simp only [evtNumber, h.evt, h.ts]

theorem SameEvents.evtFlush : ∀ (n : Nat) {e f : Eng}, SameEvents e f → SameEvents (evtFlush n e) (evtFlush n f)
  | 0, _, _, h => h
  | n + 1, e, f, h => by
    unfold Machine.evtFlush
    rw [h.opened, h.evt]
    split
    · exact h
    · split
      · obtain ⟨hn, hr⟩ := h.number { code := 0x0010, status := 0, valley := none, fn := 0, seq := 0, ts := 0
                                      r0 := BitVec.ofNat 64 f.ctl.evt.lost, r1 := BitVec.ofNat 64 f.ctl.evt.firstLost }
        dsimp only
        rw [hr]
        exact SameEvents.evtFlush n ((hn.updEvt _).evtWrite _)
      · split
        · exact h
        · exact SameEvents.evtFlush n ((h.updEvt _).evtWrite _)

/-- The same event, raised in two engines that the ring does not tell apart. -/
theorem SameEvents.raiseFn {e f : Eng} (h : SameEvents e f) (fn : Byte) (code st : W16) (v : Option Nat) (r0 r1 : W64) :
    SameEvents (raiseFn e fn code st v r0 r1) (raiseFn f fn code st v r0 r1) := by
  unfold Machine.raiseFn
  obtain ⟨hn, hr⟩ := h.number { code := code, status := st, valley := v, fn := fn, seq := 0, ts := 0, r0 := r0, r1 := r1 }
  generalize evtNumber e _ = p at hn hr ⊢
  generalize evtNumber f _ = q at hn hr ⊢
  obtain ⟨e1, r⟩ := p
  obtain ⟨f1, r'⟩ := q
  obtain rfl : r = r' := hr
  have hn : SameEvents e1 f1 := hn
  dsimp only
  rw [hn.opened, hn.evt]
  split
  · exact hn.evtWrite _
  · split
    · have h2 := hn.updEvt fun ev => { ev with held := ev.held ++ [r] }
      rw [h2.evt]
      exact SameEvents.evtFlush _ h2
    · exact SameEvents.updEvt (e := drop e1 27) (f := drop f1 27) ⟨hn.evt, hn.irq, hn.irq66Ts, hn.ts, hn.pwr, hn.gap, hn.hm, hn.queues, hn.msg⟩ _

/-! ## What replies leave of the control domain -/

theorem OnlyAnswers.cpHaltBit {e f : Eng} (h : OnlyAnswers e f) : f.ctl.cpHaltBit = e.ctl.cpHaltBit := by rw [h.1]
theorem OnlyEvents.side {e f : Eng} (h : OnlyEvents e f) : f.side = e.side := h.answers.side
theorem OnlyEvents.valleys {e f : Eng} (h : OnlyEvents e f) : f.valleys = e.valleys := h.answers.valleys

/-- Answers leave the rest of the control domain. -/
theorem onlyAnswers_foldl {α : Type} (g : Eng → α → Eng) (hg : ∀ e x, OnlyAnswers e (g e x)) (l : List α) (e : Eng) :
    OnlyAnswers e (l.foldl g e) := by
  induction l generalizing e with
  | nil => exact .refl e
  | cons x r ih => exact (hg e x).trans (ih _)

/-! ## Debug levels -/

/-- The engine whose keys a change to Invasive has zeroed, or as it was (R286, R293). -/
def levelKeys (e : Eng) : Eng := if e.side.dbgActing then zeroAllKeys e 2 else e

theorem zeroAllKeys_only (e : Eng) (cause : Nat) :
    OnlyEvents { e with ctl := { e.ctl with keys := [] } } (zeroAllKeys e cause) := onlyEvents_raise _ _ _ _ _ _

theorem levelKeys_only (e : Eng) :
    OnlyEvents { e with ctl := { e.ctl with keys := if e.side.dbgActing then [] else e.ctl.keys } } (levelKeys e) := by
  unfold levelKeys
  cases h : e.side.dbgActing with
  | false => exact .refl e
  | true => exact zeroAllKeys_only e 2

/-- The event of the zeroed keys is that of the engine before they were (R301). -/
theorem levelKeys_evt (e : Eng) : (levelKeys e).ctl.evt =
    if e.side.dbgActing then (raise e evKeysZeroed stOK none (pack [(0, 2), (16, 0xFFFF)]) 0).ctl.evt else e.ctl.evt := by
  unfold levelKeys
  split
  · exact (SameEvents.raiseFn (e := { e with ctl := { e.ctl with keys := [] } }) (f := e)
      ⟨rfl, rfl, rfl, rfl, rfl, rfl, rfl, rfl, rfl⟩ 0 evKeysZeroed stOK none (pack [(0, 2), (16, 0xFFFF)]) 0).evt
  · rfl

/-- The engine after a halt that leaving Invasive ends (R299). -/
def levelHalt (e : Eng) (old : BitVec 2) : Eng := if old = 2 ∧ e.ctl.cpHaltBit then resumeCp e else e

theorem resumeCp_only (e : Eng) :
    OnlyAnswers { e with ctl := { e.ctl with cpHaltBit := false, heldEnds := [] } } (resumeCp e) :=
  onlyAnswers_foldl _ (fun e _ => (writeReply_answered e _ _ _ _).1) _ _

theorem levelHalt_only (e : Eng) (old : BitVec 2) :
    OnlyAnswers { e with ctl := { e.ctl with cpHaltBit := e.ctl.cpHaltBit && decide (old ≠ 2) } } (levelHalt e old) := by
  unfold levelHalt
  split
  · next h =>
    obtain ⟨rfl, hh⟩ := h
    rw [hh]
    exact .trans ⟨rfl, List.suffix_refl _⟩ (resumeCp_only e)
  · next h =>
    have hb : (e.ctl.cpHaltBit && decide (old ≠ 2)) = e.ctl.cpHaltBit := by
      by_cases ho : old = 2
      · have : e.ctl.cpHaltBit = false := by simpa [ho] using h
        rw [this, Bool.false_and]
      · rw [decide_eq_true (p := old ≠ 2) ho, Bool.and_true]
    rw [hb]
    exact .refl e

/-- The engine that DEBUG_LEVEL is raised in: keys zeroed, a halt ended, the level in force, and its table entry. -/
def levelled (e : Eng) : Eng :=
  let e2 := levelHalt (levelKeys e) e.side.dbgLvl
  setDebugEntry { e2 with side := { e2.side with dbgLvl := e.side.dbgSeen, dbgActing := false } }

theorem applyLevel_eq (e : Eng) : applyLevel e =
    raise (levelled e) evDebugLevel stOK none (pack [(0, e.side.dbgSeen.toNat), (8, e.side.dbgLvl.toNat)]) 0 := rfl

theorem levelled_eq (e : Eng) :
    (levelled e).side = { e.side with dbgLvl := e.side.dbgSeen, dbgActing := false } ∧
    (levelled e).regs = { e.regs with accReg := Tab.set e.regs.accReg 0x81 (accDebug e.side.dbgSeen) } ∧
    (levelled e).ctl.keys = (if e.side.dbgActing then [] else e.ctl.keys) ∧ (levelled e).valleys = e.valleys ∧
    (levelled e).ctl.cpHaltBit = (e.ctl.cpHaltBit && decide (e.side.dbgLvl ≠ 2)) := by
  have h1 := (levelKeys_only e).answers
  have h2 := levelHalt_only (levelKeys e) e.side.dbgLvl
  have hside : (levelHalt (levelKeys e) e.side.dbgLvl).side = e.side := h2.side.trans h1.side
  have hregs : (levelHalt (levelKeys e) e.side.dbgLvl).regs = e.regs := h2.regs.trans h1.regs
  refine ⟨?_, ?_, h2.keys.trans h1.keys, h2.valleys.trans h1.valleys, h2.cpHaltBit.trans ?_⟩
  · simp only [levelled, setDebugEntry, hside]
  · simp only [levelled, setDebugEntry, hregs]
  · show ((levelKeys e).ctl.cpHaltBit && _) = _
    rw [h1.cpHaltBit]

/-- Without a halt, the events before DEBUG_LEVEL are those of the zeroed keys. -/
theorem levelled_evt {e : Eng} (h : e.ctl.cpHaltBit = false) : (levelled e).ctl.evt = (levelKeys e).ctl.evt := by
  have hh : (levelKeys e).ctl.cpHaltBit = false := (levelKeys_only e).answers.cpHaltBit.trans h
  have hk : levelHalt (levelKeys e) e.side.dbgLvl = levelKeys e := if_neg (by simp [hh])
  simp only [levelled, setDebugEntry, hk]

theorem exec_debugLevel (s : State) : exec .debugLevel s = .next { s with
    eng := if !ctlOn s.eng || (s.eng.side.dbgActing && !keyUsersGone s.eng) then s.eng
      else if s.eng.side.dbgSeen = s.eng.side.dbgLvl then setDebugEntry s.eng
      else advance s.mem (applyLevel s.eng) } := rfl

/-! ## The levels that wait -/

/-- A level that was seen waits for the key users exactly if it is a change to Invasive in the Deployed state (R293). -/
def levelWaits (x : Side) : Prop := x.dbgActing = decide (x.dbgSeen = 2 ∧ x.dbgLvl ≠ 2 ∧ x.lc = 1)

theorem levelWaits_seeLevel (x : Side) (lvl : BitVec 2) : levelWaits (seeLevel x lvl) := rfl

/-- A side domain whose level fields and life cycle are those of another one. -/
theorem levelWaits_congr {x y : Side} (h : levelWaits x) (ha : y.dbgActing = x.dbgActing) (hs : y.dbgSeen = x.dbgSeen)
    (hl : y.dbgLvl = x.dbgLvl) (hc : y.lc = x.lc) : levelWaits y := by
  rw [levelWaits, ha, hs, hl, hc]
  exact h

theorem levelWaits_startRelease {e : Eng} (h : levelWaits e.side) : levelWaits (startRelease e).side := by
  unfold startRelease
  split
  · exact levelWaits_congr h rfl rfl rfl rfl
  · exact h

theorem levelWaits_holdDomains {s : State} (w : BitVec 12) {f : Side → Side} (h : levelWaits s.eng.side)
    (ha : ∀ x, (f x).dbgActing = x.dbgActing) (hs : ∀ x, (f x).dbgSeen = x.dbgSeen)
    (hl : ∀ x, (f x).dbgLvl = x.dbgLvl) (hc : ∀ x, (f x).lc = x.lc) : levelWaits (holdDomains s w f).eng.side := by
  unfold holdDomains
  split
  · exact levelWaits_congr h (ha _) (hs _) (hl _) (hc _)
  · simp only [resetDomains_eq]
    exact levelWaits_congr h (ha _) (hs _) (hl _) (hc _)

theorem levelWaits_tablesDone {e : Eng} (node : W16) (h : levelWaits e.side) : levelWaits (tablesDone e node).side := by
  unfold tablesDone
  obtain ⟨lanes, hl⟩ := foldl_updLane_eq (fun l => { l with rstCause := false, wthr := true }) (List.range 12)
    { e with
      regs := { e.regs with
        accReg := [(0x00, 0x15FE1FFF), (0x80, 0x00000E87)], accFab := [(0, 0x00010000)], accSto := [] }
      ctl := { e.ctl with node := node }, side := { e.side with relStep := .ready } }
  dsimp only
  rw [hl]
  exact levelWaits_congr h rfl rfl rfl rfl

/-- Every release step keeps the invariant; step 2 samples the level. -/
theorem levelWaits_releaseStepDone {s t : State} {lc lvl : BitVec 2} {node : W16} (h : levelWaits s.eng.side)
    (ht : exec (.releaseStepDone lc lvl node) s = .next t) : levelWaits t.eng.side := by
  cases hr : s.eng.side.relStep with
  | fuses =>
    cases (exec_releaseStepDone_of_fuses lc lvl node hr).symm.trans ht
    exact levelWaits_startRelease (levelWaits_seeLevel _ _)
  | control =>
    cases (exec_releaseStepDone_of_control lc lvl node hr).symm.trans ht
    exact levelWaits_congr h rfl rfl rfl rfl
  | coreClear =>
    cases (exec_releaseStepDone_of_coreClear lc lvl node hr).symm.trans ht
    exact levelWaits_congr h rfl rfl rfl rfl
  | fabTables =>
    cases (exec_releaseStepDone_of_fabTables lc lvl node hr).symm.trans ht
    dsimp only
    split
    · exact h
    · split
      · exact h
      · exact levelWaits_tablesDone node h
  | waitClock | held | ready =>
    cases (exec_releaseStepDone_of_idle lc lvl node (by simp [hr])).symm.trans ht
    exact h

/-! ## Saturating counters -/

theorem satInc_toNat (c : W32) : (satInc c).toNat = min (c.toNat + 1) 0xFFFFFFFF := by
  unfold satInc
  split
  · next h => subst h; rfl
  · next h => bv_omega

/-! ## The reseed -/

/-- Is a reseed due (R288)? -/
theorem drbgReseedAct_of_due {e : Eng} (n : Nat) (hc : ctlOn e = true)
    (h : e.side.rngFault = true ∨ e.ctl.drbgSeeded + 1048576 ≤ e.ctl.drbgCount) :
    drbgReseedAct e n = if n = 0 then
        { e with side := { e.side with rngFault := false }, ctl := { e.ctl with drbgSeeded := e.ctl.drbgCount } }
      else raise { e with side := { e.side with rngFault := true }, ctl := { e.ctl with rngFails := e.ctl.rngFails + n } }
        evRngFault stOutOfRange none (BitVec.ofNat 64 (e.ctl.rngFails + n)) 0 := by
  refine if_neg ?_
  rcases h with h | h
  · simp [hc, h]
  · simp [hc, Nat.not_lt.2 h]

/-- Settles O9: `levelled_eq` and `levelled_evt` say what a level that takes effect does; the invariant is `levelWaits`. -/
theorem levelsSamplesAndReseed : Obligations.LevelsSamplesAndReseed := by
  refine ⟨fun s lvl => ⟨fun hp => ?_, fun hp => ?_, fun hr => ?_, fun hr => ?_⟩, fun s hc hne hgone => ?_,
    fun s hc heq ha => ?_, fun s h => ?_, fun s t c lvl lc node w hc => ?_, fun s n hc => ⟨fun hdue => ⟨?_, fun hn => ?_⟩,
      fun hf hlt => ?_⟩⟩
  · refine ⟨{ s with eng := { s.eng with side := { s.eng.side with retFlits := satInc s.eng.side.retFlits } } },
      ?_, rfl, rfl, satInc_toNat _⟩
    show execRetentionFlitDrop s = _
    rw [execRetentionFlitDrop, if_pos hp]
  · show execRetentionFlitDrop s = _
    rw [execRetentionFlitDrop, if_neg hp]
  · show execDebugLevelChange lvl s = _
    rw [execDebugLevelChange, if_neg hr]
    rfl
  · show execDebugLevelChange lvl s = _
    rw [execDebugLevelChange, if_pos hr]
  · obtain ⟨hside, hregs, hkeys, hval, hhalt⟩ := levelled_eq s.eng
    have hev := (onlyEvents_raise (levelled s.eng) evDebugLevel stOK none
      (pack [(0, s.eng.side.dbgSeen.toNat), (8, s.eng.side.dbgLvl.toNat)]) 0).answers
    refine ⟨applyLevel s.eng, ?_, hev.side.trans hside, hev.regs.trans hregs, hev.keys.trans hkeys,
      hev.valleys.trans hval, hev.cpHaltBit.trans hhalt, fun hh => ⟨_, applyLevel_eq _, ?_⟩⟩
    · have hw : (s.eng.side.dbgActing && !keyUsersGone s.eng) = false := by
        cases ha : s.eng.side.dbgActing with
        | false => rfl
        | true => simp [hgone ha]
      rw [exec_debugLevel, hc, hw, if_neg (by decide), if_neg hne]
    · rw [levelled_evt hh, levelKeys_evt]
  · rw [exec_debugLevel, hc, ha, if_neg (by simp), if_pos heq]
    rfl
  · rw [exec_debugLevel, if_pos]
    rcases h with h | ⟨ha, hg⟩
    · simp [h]
    · simp [ha, hg]
  · intro good hg ht
    simp only [List.mem_cons, List.not_mem_nil, or_false] at hc
    rcases hc with rfl | rfl | rfl | rfl | rfl | rfl | rfl
    · cases ht
      dsimp only
      split
      · exact hg
      · exact levelWaits_seeLevel _ _
    · cases ht; rfl
    · cases ht
      split
      · exact hg
      · exact levelWaits_holdDomains w hg (fun _ => rfl) (fun _ => rfl) (fun _ => rfl) (fun _ => rfl)
    · cases ht
      split
      · exact hg
      · exact levelWaits_holdDomains w hg (fun _ => rfl) (fun _ => rfl) (fun _ => rfl) (fun _ => rfl)
    · exact levelWaits_releaseStepDone hg ht
    · cases hl : s.eng.side.pllLock with
      | false =>
        cases (exec_clockLocked_of_unlocked hl).symm.trans ht
        dsimp only
        split
        · exact levelWaits_congr hg rfl rfl rfl rfl
        · exact levelWaits_startRelease (levelWaits_congr hg rfl rfl rfl rfl)
      | true =>
        change execClockLocked s = _ at ht
        simp only [execClockLocked, hl, if_true] at ht
        cases ht
        exact hg
    · cases ht
      exact levelWaits_startRelease (levelWaits_congr hg rfl rfl rfl rfl)
  · show execDrbgReseed 0 s = _
    rw [execDrbgReseed, drbgReseedAct_of_due 0 hc hdue, if_pos rfl]
  · have hev := onlyEvents_raise { s.eng with
        side := { s.eng.side with rngFault := true }, ctl := { s.eng.ctl with rngFails := s.eng.ctl.rngFails + n } }
      evRngFault stOutOfRange none (BitVec.ofNat 64 (s.eng.ctl.rngFails + n)) 0
    refine ⟨_, rfl, rfl, ?_, ?_, ?_⟩
    all_goals dsimp only; rw [drbgReseedAct_of_due n hc hdue, if_neg hn]
    · exact hev.side
    · rw [hev.1]
    · exact hev.valleys
  · show execDrbgReseed n s = _
    rw [execDrbgReseed, drbgReseedAct, if_pos (by simp [hf, hlt])]

end Sys2Proof.Machine

/-!
What taking a driver command leaves of the engine (R249), and what an access of the register target does once it reaches a
register (R21, R302, R303).
-/

namespace Sys2Proof.Machine

/-! ## The engine that a command's packet was taken from -/

section
variable (e : Eng) (q : Nat)

@[simp] theorem popHead_side : (popHead e q).side = e.side := (onlyCorrects_readHead e q).side
@[simp] theorem popHead_valleys : (popHead e q).valleys = e.valleys := (onlyCorrects_readHead e q).valleys
@[simp] theorem popHead_regions : (popHead e q).regions = e.regions := (onlyCorrects_readHead e q).regions
@[simp] theorem popHead_lanes : (popHead e q).lanes = e.lanes := (onlyCorrects_readHead e q).lanes
@[simp] theorem popHead_owners : (popHead e q).basin.owners = e.basin.owners := (onlyCorrects_readHead e q).owners
@[simp] theorem popHead_getV (v : Nat) : getV (popHead e q) v = getV e v := (onlyCorrects_readHead e q).getV v
@[simp] theorem popHead_getR (d : Nat) : getR (popHead e q) d = getR e d := by simp [getR]
@[simp] theorem popHead_getLane (i : Nat) : getLane (popHead e q) i = getLane e i := by simp [getLane]

/-- The correction of the word that held the packet leaves the other fields; the command's context is that of its queue. -/
theorem popHead_spill : (popHead e q).spill = e.spill := by
  show (readHead e q).spill = _
  rw [(onlyCorrects_readHead e q).1]

theorem popHead_seeds : (popHead e q).seeds = e.seeds := by
  show (readHead e q).seeds = _
  rw [(onlyCorrects_readHead e q).1]

@[simp] theorem popHead_cpHaltBit : (popHead e q).ctl.cpHaltBit = e.ctl.cpHaltBit := by
  show (readHead e q).ctl.cpHaltBit = _
  rw [(onlyCorrects_readHead e q).1]

/-- Of the ports only host memory and the interrupt messages may differ. -/
theorem popHead_io :
    (popHead e q).io = { e.io with hm := (popHead e q).io.hm, irqMsg := (popHead e q).io.irqMsg } := by
  show (readHead e q).io = { e.io with hm := (readHead e q).io.hm, irqMsg := (readHead e q).io.irqMsg }
  rw [(onlyCorrects_readHead e q).1]

/-- Host memory writes only grow when a packet is taken. -/
theorem popHead_hm : e.io.hm <:+ (popHead e q).io.hm := (onlyCorrects_readHead e q).2

@[simp] theorem popHead_acc : (popHead e q).io.acc = e.io.acc := by rw [popHead_io]
@[simp] theorem popHead_sto : (popHead e q).io.sto = e.io.sto := by rw [popHead_io]
@[simp] theorem popHead_pass : (popHead e q).io.pass = e.io.pass := by rw [popHead_io]
@[simp] theorem popHead_oldSegs : (popHead e q).io.oldSegs = e.io.oldSegs := by rw [popHead_io]

@[simp] theorem popHead_owner (r : Nat) : (getQ (popHead e q) r).owner = (getQ e r).owner := (getQ_popHead e q r).2.2.2
@[simp] theorem fnOf_popHead (c : Cmd) : fnOf (popHead e q) c = fnOf e c := popHead_owner e q c.q

end

/-! ## What a taken command does -/

/-- A taken command runs its entry on the engine that its packet was taken from; then packets of no row are answered. -/
theorem runCmd_of_taken {s : State} {q op : Nat} {p : BitVec 512} (h : Taken s q op p)
    (f : Eng → Cmd → BitVec 512 → Eng) :
    runCmd q op s f = { s with eng := answerAll (f (popHead s.eng q) (cmdOf q p) p) } := by
  obtain ⟨hp, ho, hc⟩ := h
  simp [runCmd, hp, ho, hc]

theorem Taken.not_halted {s : State} {q op : Nat} {p : BitVec 512} (h : Taken s q op p) :
    s.eng.ctl.cpHaltBit = false := (headReady_runs h.1).1

theorem Taken.ctlOn {s : State} {q op : Nat} {p : BitVec 512} (h : Taken s q op p) : ctlOn s.eng = true :=
  (headReady_runs h.1).2

/-- A record that was written stays among the host memory writes. -/
theorem Answered.mono {e f g : Eng} {c : Cmd} {st : W16} {r0 r1 : W64} (h : Answered e f c st r0 r1)
    (hm : f.io.hm <:+ g.io.hm) : Answered e g c st r0 r1 := by
  obtain ⟨made, hmade, hmem⟩ := h
  obtain ⟨more, hmore⟩ := hm
  exact ⟨more ++ made, by rw [← hmore, hmade, List.append_assoc], List.mem_append_right _ hmem⟩

/-- The answer of a taken command, given from an engine whose queues and clock are those it was taken from. -/
theorem Taken.answered {s : State} {q op : Nat} {p : BitVec 512} (h : Taken s q op p) {g : Eng} (st : W16) (r0 r1 : W64)
    (hs : g.side.ts = s.eng.side.ts) (hq : g.ctl.queues = (popHead s.eng q).ctl.queues)
    (hh : g.ctl.cpHaltBit = s.eng.ctl.cpHaltBit) (hm : s.eng.io.hm <:+ g.io.hm) :
    Answered s.eng (reply g (cmdOf q p) st r0 r1) (cmdOf q p) st r0 r1 := by
  have hget (r : Nat) : getQ g r = getQ (popHead s.eng q) r := by simp only [getQ, hq]
  obtain ⟨hb, hr, hp, -⟩ := getQ_popHead s.eng q (cmdOf q p).q
  exact (reply_answered g (cmdOf q p) st r0 r1 (hh.trans h.not_halted)).earlier hs (by rw [hget]; exact hb)
    (by rw [hget]; exact hr) (by rw [hget]; exact hp) hm

/-- A taken command whose entry is a reply at once. -/
theorem Taken.onlyReplies {s : State} {q op : Nat} {p : BitVec 512} (h : Taken s q op p)
    {f : Eng → Cmd → BitVec 512 → Eng} {st : W16} {r0 r1 : W64}
    (hf : f (popHead s.eng q) (cmdOf q p) p = reply (popHead s.eng q) (cmdOf q p) st r0 r1) :
    OnlyReplies s (runCmd q op s f) q p st r0 r1 := by
  have hans := h.answered (g := popHead s.eng q) st r0 r1 (by simp) rfl (by simp) (popHead_hm _ _)
  rw [runCmd_of_taken h, hf]
  exact ⟨rfl, rfl, ((onlyAnswers_popHead _ _).trans (onlyAnswers_reply _ _ _ _ _)).trans (onlyAnswers_answerAll _),
    hans.later (onlyAnswers_answerAll _)⟩

/-! ## Accesses that reach a register -/

/-- An access that reaches the window and is well formed acts at the register of its place, a staged word 0 of another
master being discarded first (R309). -/
theorem access_of_reaches {s : State} {a : RegAcc} {r : Reg} (m : Mem) (h : Reaches s a.mid a.wr a.addr)
    (hf : a.malformed = false) (hl : locate (a.addr / 8 * 8) = some r) :
    access m s.eng a = atReg m (dropStaged s.eng a) a r := by
  obtain ⟨hon, hp, hacc⟩ := h
  have hsleep : asleep s.eng a = false := by
    rcases hp with hp | hp
    · rw [asleep, decide_eq_false hp, Bool.false_and]
    · rw [asleep, hp, Bool.not_true, Bool.and_false]
  simp [access, hon, serve, hsleep, hf, hacc, hl]

/-- Outside the group of the region descriptors no staged word is discarded (R309). -/
theorem dropStaged_of_group {e : Eng} {a : RegAcc} (h : a.addr / 0x10000 ≠ 6) : dropStaged e a = e := by
  unfold dropStaged
  split
  · exact if_neg fun hc => h hc.1
  · rfl

/-- A write at a register that the master may act on, of a width that the register has. -/
theorem atReg_of_write {e : Eng} {a : RegAcc} {r : Reg} (m : Mem) (hw : a.wr = true) (hrc : r.wideRc = false)
    (hown : mayOwn e a.mid r = true) (hhalf : (a.size = 4 && a.high && !r.wide) = false) :
    atReg m e a r = respond (Reg.store m e a.mid r (a.merge (Reg.before e r)) (a.merge 0)) 0 0 := by
  simp [atReg, hw, hrc, hown, hhalf]

/-- A 4-byte access of the low half merges its data over the low half. -/
theorem merge_of_low {mid : Byte} {wr : Bool} {addr : Nat} {data old : W64} (h : addr % 8 = 0) :
    RegAcc.merge { mid := mid, wr := wr, addr := addr, bytes := four, data := data } old =
      (old &&& 0xFFFFFFFF00000000) ||| (data &&& 0xFFFFFFFF) := by
  simp [RegAcc.merge, RegAcc.size, RegAcc.high, four, h]

/-- An 8-byte access writes its data whole. -/
theorem merge_of_eight {mid : Byte} {wr : Bool} {addr : Nat} {data old : W64} :
    RegAcc.merge { mid := mid, wr := wr, addr := addr, bytes := eight, data := data } old = data := by
  simp [RegAcc.merge, RegAcc.size, eight]

/-- A 4-byte write at the place of a register (R21, R303). -/
theorem busWrite_four {s : State} {mid : Byte} {addr : Nat} {r : Reg} (data : W64) (h : Reaches s mid true addr)
    (ha : addr % 8 = 0) (hmax : addr < 0x100000) (hg : addr / 0x10000 ≠ 6) (hl : locate addr = some r)
    (hrc : r.wideRc = false) (hown : mayOwn s.eng mid r = true) :
    busWrite mid addr four data s = { s with
      eng := respond (Reg.store s.mem s.eng mid r
        ((Reg.before s.eng r &&& 0xFFFFFFFF00000000) ||| (data &&& 0xFFFFFFFF)) (data &&& 0xFFFFFFFF)) 0 0 } := by
  let a : RegAcc := { mid := mid, wr := true, addr := addr, bytes := four, data := data }
  have hf : a.malformed = false := by
    have h4 : addr % 4 = 0 := by omega
    simp [a, RegAcc.malformed, RegAcc.size, four, h4, hmax]
  have h8 : a.addr / 8 * 8 = addr := by show addr / 8 * 8 = addr; omega
  have hacc := access_of_reaches (a := a) s.mem h hf (by rw [h8]; exact hl)
  rw [dropStaged_of_group hg, atReg_of_write s.mem rfl hrc hown (by simp [a, RegAcc.high, ha])] at hacc
  show { s with eng := access s.mem s.eng a } = _
  have hlow : (0 : W64) &&& 0xFFFFFFFF00000000 ||| data &&& 0xFFFFFFFF = data &&& 0xFFFFFFFF := by
    rw [show (0 : W64) &&& 0xFFFFFFFF00000000 = 0#64 by decide, BitVec.zero_or]
  rw [hacc, merge_of_low ha, merge_of_low ha, hlow]

/-- An 8-byte write at the place of a register outside the region descriptors (R21, R303). -/
theorem busWrite_eight {s : State} {mid : Byte} {addr : Nat} {r : Reg} (data : W64) (h : Reaches s mid true addr)
    (ha : addr % 8 = 0) (hmax : addr < 0x100000) (hg : addr / 0x10000 ≠ 6) (hl : locate addr = some r)
    (hrc : r.wideRc = false) (hown : mayOwn s.eng mid r = true) :
    busWrite mid addr eight data s = { s with eng := respond (Reg.store s.mem s.eng mid r data data) 0 0 } := by
  let a : RegAcc := { mid := mid, wr := true, addr := addr, bytes := eight, data := data }
  have hf : a.malformed = false := by simp [a, RegAcc.malformed, RegAcc.size, eight, ha, hmax]
  have h8 : a.addr / 8 * 8 = addr := by show addr / 8 * 8 = addr; omega
  have hacc := access_of_reaches (a := a) s.mem h hf (by rw [h8]; exact hl)
  rw [dropStaged_of_group hg, atReg_of_write s.mem rfl hrc hown (by simp [a, RegAcc.size, eight])] at hacc
  show { s with eng := access s.mem s.eng a } = _
  rw [hacc, merge_of_eight, merge_of_eight]

end Sys2Proof.Machine

/-!
Power states (R29, R295 to R298): POWER_STATE, the acknowledgement, its timeout, and WAKE.
-/

namespace Sys2Proof.Machine

/-! ## Bits set or cleared one after another -/

/-- A word whose bits are treated one after another, each by its own number alone. -/
theorem bit_foldl_range {n : Nat} {f : BitVec n → Nat → BitVec n} {v : Nat → Bool → Bool}
    (hf : ∀ g b j, j < n → bit (f g b) j = if j = b then v b (bit g j) else bit g j) (g : BitVec n) {j : Nat} (hj : j < n) :
    ∀ k, bit ((List.range k).foldl f g) j = if j < k then v j (bit g j) else bit g j
  | 0 => by simp
  | k + 1 => by
    rw [List.range_succ, List.foldl_append, List.foldl_cons, List.foldl_nil, hf _ _ _ hj, bit_foldl_range hf g hj k]
    by_cases h : j = k
    · subst h; simp
    · simp only [h, if_false, show (j < k + 1) ↔ (j < k) by omega]

theorem bit_clrBit {n : Nat} (x : BitVec n) (i j : Nat) (hj : j < n) :
    bit (clrBit x i) j = (decide (j ≠ i) && bit x j) := by
  simp only [bit, clrBit, BitVec.getLsbD_and, BitVec.getLsbD_not, BitVec.getLsbD_ofNat, Nat.testBit_two_pow, hj,
    decide_true, Bool.true_and, eq_comm (a := i), decide_not]
  exact Bool.and_comm _ _

/-! ## Throttles -/

theorem raiseThrottle_eq (e : Eng) (i : Nat) : ∃ lanes, raiseThrottle e i = { e with lanes := lanes } := by
  unfold raiseThrottle
  split
  · exact ⟨e.lanes, rfl⟩
  · exact ⟨_, rfl⟩

/-- Raising throttles changes lanes only. -/
theorem raiseThrottles_eq (e : Eng) : ∃ lanes, raiseThrottles e = { e with lanes := lanes } := by
  unfold raiseThrottles
  generalize List.range 12 = ks
  induction ks generalizing e with
  | nil => exact ⟨e.lanes, rfl⟩
  | cons i r ih =>
    obtain ⟨l1, h1⟩ := raiseThrottle_eq e i
    obtain ⟨l2, h2⟩ := ih (raiseThrottle e i)
    exact ⟨l2, by rw [List.foldl_cons, h2, h1]⟩

theorem lowerThrottles_eq (e : Eng) : ∃ lanes, lowerThrottles e = { e with lanes := lanes } :=
  foldl_updLane_eq (fun l => { l with wthr := false }) (List.range 12) e

theorem lowerThrottles_wthr (e : Eng) (i : Fin 12) : (getLane (lowerThrottles e) i.val).wthr = false := by
  rw [lowerThrottles, getLane_foldl_updLane (fun l => { l with wthr := false }) List.nodup_range,
    if_pos (List.mem_range.2 i.isLt)]

/-! ## A power state comes into force -/

/-- Of the engine a new power state changes the side domain, the gates, and the lanes' windows and gates. -/
theorem enterPower_eq (e : Eng) (st : BitVec 2) : ∃ lanes gated, enterPower e st =
    { e with
      side := { e.side with pwrState := st, pwrWait := none }, lanes := lanes, basin := { e.basin with gated := gated } } := by
  unfold enterPower gateBanks
  dsimp only
  split
  · exact ⟨_, _, rfl⟩
  · split
    · split
      · exact ⟨e.lanes, e.basin.gated, rfl⟩
      · exact ⟨e.lanes, _, rfl⟩
    · exact ⟨_, _, rfl⟩

/-- Active ungates every bank and lane (R295). -/
theorem enterPower_active (e : Eng) :
    (enterPower e 0).basin.gated = 0 ∧ ∀ i, (getLane (enterPower e 0) i).gated = false := by
  refine ⟨rfl, fun i => ?_⟩
  have h := Tab.get_map (f := fun l : Lane => { l with gated := false }) (d := {}) rfl e.lanes i
  exact congrArg Lane.gated h

/-- Drowse gates the banks without a valid page but for the lowest of each partition (R295). -/
theorem enterPower_drowse (e : Eng) {b : Nat} (hb : b < 32) : bit (enterPower e 1).basin.gated b =
    (bit e.basin.gated b || (!bankValid e b && !lowestBank e b)) := by
  have hf (g : BitVec 32) (b j : Nat) (hj : j < 32) :
      bit (if bankValid e b || lowestBank e b then g else setBit g b) j =
        if j = b then bit g j || (!bankValid e b && !lowestBank e b) else bit g j := by
    split
    · next h => rw [← Bool.not_or, h]; simp
    · next h =>
      rw [← Bool.not_or, Bool.eq_false_iff.2 h, bit_setBit _ _ _ hj]
      by_cases hjb : j = b <;> simp [hjb]
  have h := bit_foldl_range (v := fun b x => x || (!bankValid e b && !lowestBank e b)) hf e.basin.gated hb 32
  rw [if_pos hb] at h
  exact h

theorem getLane_enterPower_retention (e : Eng) (i : Nat) :
    getLane (enterPower e 2) i = { getLane e i with window := [] } := by
  have h := Tab.get_map (f := fun l : Lane => { l with window := [] }) (d := {}) rfl e.lanes i
  exact h

/-- Retention gates every bank without a valid page and empties the windows (R296). -/
theorem enterPower_retention (e : Eng) :
    (∀ b, b < 32 → bit (enterPower e 2).basin.gated b = !bankValid e b) ∧
      ∀ i, (getLane (enterPower e 2) i).window = [] := by
  have hf (g : BitVec 32) (b j : Nat) (hj : j < 32) :
      bit (if bankValid e b then clrBit g b else setBit g b) j = if j = b then !bankValid e b else bit g j := by
    split
    · next h => rw [bit_clrBit _ _ _ hj, h]; by_cases hjb : j = b <;> simp [hjb]
    · next h =>
      rw [bit_setBit _ _ _ hj, Bool.eq_false_iff.2 h]
      by_cases hjb : j = b <;> simp [hjb]
  refine ⟨fun b hb => ?_, fun i => ?_⟩
  · have h := bit_foldl_range (v := fun b _ => !bankValid e b) hf e.basin.gated hb 32
    rw [if_pos hb] at h
    exact h
  · rw [getLane_enterPower_retention]

/-! ## Requests and acknowledgements -/

/-- An acknowledgement of the driven request that a POWER_STATE waits for. -/
theorem matchAck_of_match {e : Eng} {w : PowerWait} (hw : e.side.pwrWait = some w) (hr : e.side.pwrReq = w.req)
    (ha : e.side.pwrAck = w.req) : matchAck e = enterPower (reply0 e w.cmd stOK) w.req := by
  simp only [matchAck, hw]
  exact if_pos ⟨hr, ha⟩

/-- Any other acknowledgement leaves the state in force. -/
theorem matchAck_of_differ {e : Eng} {w : PowerWait} (hw : e.side.pwrWait = some w) (ha : e.side.pwrAck ≠ w.req) :
    matchAck e = e := by
  simp only [matchAck, hw]
  exact if_neg fun h => ha h.2

/-- Nothing is under way on the ports: this depends on the outstanding work alone. -/
theorem quiet_congr {e f : Eng} (ha : f.io.acc = e.io.acc) (hs : f.io.sto = e.io.sto) (hp : f.io.pass = e.io.pass)
    (ho : f.io.oldSegs = e.io.oldSegs) (hv : f.valleys = e.valleys) : quiet f = quiet e := by
  rw [quiet, quiet, liveSegs, liveSegs, ha, hs, hp, ho, hv]

/-- The Retention entry of a taken POWER_STATE before its request is driven: no more commands, throttles low (R296). -/
def retentionEntry (e : Eng) (c : Cmd) : Eng :=
  lowerThrottles { e with side := { e.side with pwrWait := some { cmd := c, req := 2 } }, ctl := { e.ctl with noTake := true } }

theorem retentionEntry_eq (e : Eng) (c : Cmd) : ∃ lanes, retentionEntry e c =
    { e with side := { e.side with pwrWait := some { cmd := c, req := 2 } }, ctl := { e.ctl with noTake := true }
             lanes := lanes } :=
  lowerThrottles_eq _

theorem cpRuns_of {e : Eng} (hc : ctlOn e = true) (hh : e.ctl.cpHaltBit = false) : cpRuns e = true := by
  rw [cpRuns, hc, hh]; rfl

/-- The Retention entry goes on: with the ports quiet its request is driven. -/
theorem runPower_of_entry {e : Eng} {w : PowerWait} (hw : e.side.pwrWait = some w) (h2 : w.req = 2)
    (hreq : e.side.pwrReq ≠ 2) (hrun : cpRuns e = true) :
    runPower e = if quiet e then matchAck (driveReq e 2) else e := by
  have hno : matchAck e = e := by
    simp only [matchAck, hw]
    exact if_neg fun h => hreq (h.1.trans h2)
  simp only [runPower, hw, hrun, Bool.not_true, Bool.false_eq_true, if_false, h2, true_and, ne_eq, hreq, not_false_iff,
    hno]

/-- A reply leaves the event ring as it is. -/
theorem sendIrq_evt (e : Eng) (n : Nat) : (sendIrq e n).ctl.evt = e.ctl.evt := by
  unfold sendIrq
  split <;> rfl

theorem reply_evt (e : Eng) (c : Cmd) (st : W16) (r0 r1 : W64) : (reply e c st r0 r1).ctl.evt = e.ctl.evt := by
  unfold reply
  split
  · rfl
  · unfold writeReply
    dsimp only
    rw [updQ_evt]
    split
    · rfl
    · rw [sendIrq_evt]
      rfl

theorem OnlyAnswers.noTake {e f : Eng} (h : OnlyAnswers e f) : f.ctl.noTake = e.ctl.noTake := by rw [h.1]

/-! ## The clauses of POWER_STATE -/

section
variable {s : State} {q : Nat} {p : BitVec 512}

/-- What a taken POWER_STATE leaves, up to answers: the request is taken, or refused. -/
theorem powerState_eng (q : Fin 64) {s : State} {p : BitVec 512} (h : Taken s q.val 0x70 p) {r : BitVec 2}
    (hr : (pkw p 1).extractLsb' 0 2 = r) : ∃ t, exec (.powerState q) s = .next t ∧ t.mem = s.mem ∧ t.pending = s.pending ∧
      OnlyAnswers (if decide (r = 3) || s.eng.side.pwrWait.isSome || (decide (r = 2) && s.eng.valleys.any fun y => y.2.opened)
        then reply0 (popHead s.eng q.val) (cmdOf q.val p) stOutOfRange
        else takePower (popHead s.eng q.val) (cmdOf q.val p) r) t.eng := by
  refine ⟨_, rfl, ?_⟩
  rw [runCmd_of_taken h]
  refine ⟨rfl, rfl, ?_⟩
  dsimp only
  rw [hr, popHead_side, popHead_valleys]
  exact onlyAnswers_answerAll _

/-- A taken request that is not refused. -/
theorem powerState_taken (q : Fin 64) {s : State} {p : BitVec 512} (h : Taken s q.val 0x70 p) {r : BitVec 2}
    (hr : (pkw p 1).extractLsb' 0 2 = r) (h3 : r ≠ 3) (hw : s.eng.side.pwrWait = none)
    (ho : r = 2 → ∀ y ∈ s.eng.valleys, y.2.opened = false) : ∃ t, exec (.powerState q) s = .next t ∧ t.mem = s.mem ∧
      OnlyAnswers (takePower (popHead s.eng q.val) (cmdOf q.val p) r) t.eng := by
  obtain ⟨t, ht, hm, -, ha⟩ := powerState_eng q h hr
  refine ⟨t, ht, hm, ?_⟩
  have hany : (decide (r = 2) && s.eng.valleys.any fun y => y.2.opened) = false := by
    by_cases h2 : r = 2
    · rw [decide_eq_true h2, Bool.true_and, List.any_eq_false]
      exact fun y hy => Bool.eq_false_iff.1 (ho h2 y hy)
    · rw [decide_eq_false h2, Bool.false_and]
  rwa [decide_eq_false h3, hw, hany, Option.isSome_none, if_neg (by decide)] at ha

/-- Active or Drowse with its acknowledgement there already: OK, and the state is in force. -/
theorem powerState_of_there (q : Fin 64) {s : State} {p : BitVec 512} (h : Taken s q.val 0x70 p) {r : BitVec 2}
    (hr : (pkw p 1).extractLsb' 0 2 = r) (h01 : r = 0 ∨ r = 1) (hw : s.eng.side.pwrWait = none) (hack : s.eng.side.pwrAck = r) :
    ∃ t, exec (.powerState q) s = .next t ∧ t.mem = s.mem ∧
      t.eng.side = { s.eng.side with pwrReq := r, pwrSince := s.eng.side.ts, pwrState := r } ∧
      Answered s.eng t.eng (cmdOf q.val p) stOK 0 0 := by
  have h2 : r ≠ 2 := by rcases h01 with rfl | rfl <;> decide
  obtain ⟨t, ht, hm, ha⟩ := powerState_taken q h hr (by rcases h01 with rfl | rfl <;> decide) hw fun h => absurd h h2
  refine ⟨t, ht, hm, ?_⟩
  let c := cmdOf q.val p
  let d : Eng := driveReq { popHead s.eng q.val with
    side := { s.eng.side with pwrWait := some { cmd := c, req := r } } } r
  have htake : takePower (popHead s.eng q.val) c r = enterPower (reply0 d c stOK) r := by
    rw [takePower, if_neg h2, popHead_side]
    exact matchAck_of_match (w := { cmd := c, req := r }) rfl rfl hack
  obtain ⟨lanes, gated, he⟩ := enterPower_eq (reply0 d c stOK) r
  rw [htake, he] at ha
  have hside : (reply0 d c stOK).side = d.side := (onlyAnswers_reply _ _ _ _ _).side
  constructor
  · rw [ha.side]
    dsimp only
    rw [hside]
    show { s.eng.side with
      pwrReq := r, pwrSince := s.eng.side.ts, pwrState := r, pwrWait := none } = _
    rw [← hw]
  · have hans := h.answered (g := d) stOK 0 0 rfl rfl (by simp [d, driveReq]) (popHead_hm _ _)
    have hans' : Answered s.eng { reply0 d c stOK with
        side := { (reply0 d c stOK).side with pwrState := r, pwrWait := none }, lanes := lanes
        basin := { (reply0 d c stOK).basin with gated := gated } } c stOK 0 0 := hans
    exact hans'.later ha

/-- Active or Drowse without its acknowledgement: the request is driven, and the command waits. -/
theorem powerState_of_awaited (q : Fin 64) {s : State} {p : BitVec 512} (h : Taken s q.val 0x70 p) {r : BitVec 2}
    (hr : (pkw p 1).extractLsb' 0 2 = r) (h01 : r = 0 ∨ r = 1) (hw : s.eng.side.pwrWait = none) (hack : s.eng.side.pwrAck ≠ r) :
    ∃ t, exec (.powerState q) s = .next t ∧ t.mem = s.mem ∧ t.eng.side = { s.eng.side with
      pwrReq := r, pwrSince := s.eng.side.ts, pwrWait := some { cmd := cmdOf q.val p, req := r } } := by
  have h2 : r ≠ 2 := by rcases h01 with rfl | rfl <;> decide
  obtain ⟨t, ht, hm, ha⟩ := powerState_taken q h hr (by rcases h01 with rfl | rfl <;> decide) hw fun h => absurd h h2
  refine ⟨t, ht, hm, ?_⟩
  rw [ha.side, takePower, if_neg h2, popHead_side]
  let w : PowerWait := { cmd := cmdOf q.val p, req := r }
  let d : Eng := driveReq { popHead s.eng q.val with side := { s.eng.side with pwrWait := some w } } r
  have hd : d.side.pwrWait = some w := rfl
  exact congrArg Eng.side (matchAck_of_differ hd hack)

/-- Retention is entered: no more commands, throttles low; with the ports quiet the request is driven (R296). -/
theorem powerState_of_retention (q : Fin 64) {s : State} {p : BitVec 512} (h : Taken s q.val 0x70 p)
    (hr : (pkw p 1).extractLsb' 0 2 = 2) (hw : s.eng.side.pwrWait = none)
    (ho : ∀ y ∈ s.eng.valleys, y.2.opened = false) (hreq : s.eng.side.pwrReq ≠ 2) :
    ∃ t, exec (.powerState q) s = .next t ∧ t.mem = s.mem ∧ t.eng.ctl.noTake = true ∧
      (∀ i : Fin 12, (getLane t.eng i.val).wthr = false) ∧ t.eng.valleys = s.eng.valleys ∧
      (quiet s.eng = false → t.eng.side = { s.eng.side with pwrWait := some { cmd := cmdOf q.val p, req := 2 } }) ∧
      (quiet s.eng = true → s.eng.side.pwrAck ≠ 2 → t.eng.side = { s.eng.side with
        pwrReq := 2, pwrSince := s.eng.side.ts, pwrWait := some { cmd := cmdOf q.val p, req := 2 } }) ∧
      (quiet s.eng = true → s.eng.side.pwrAck = 2 →
        t.eng.side = { s.eng.side with pwrReq := 2, pwrSince := s.eng.side.ts, pwrState := 2 } ∧
        (∀ i, (getLane t.eng i).window = []) ∧ Answered s.eng t.eng (cmdOf q.val p) stOK 0 0) := by
  obtain ⟨t, ht, hm, ha⟩ := powerState_taken q h hr (by decide) hw fun _ => ho
  refine ⟨t, ht, hm, ?_⟩
  let c := cmdOf q.val p
  let w : PowerWait := { cmd := c, req := 2 }
  obtain ⟨lanes, hg⟩ := retentionEntry_eq (popHead s.eng q.val) c
  have hgwthr (i : Fin 12) : (getLane (retentionEntry (popHead s.eng q.val) c) i.val).wthr = false :=
    lowerThrottles_wthr _ i
  have hrun : takePower (popHead s.eng q.val) c 2 = runPower (retentionEntry (popHead s.eng q.val) c) := rfl
  rw [hrun] at ha
  generalize retentionEntry (popHead s.eng q.val) c = g at hg hgwthr ha
  have hgside : g.side = { s.eng.side with pwrWait := some w } := by rw [hg, popHead_side]
  have hgvals : g.valleys = s.eng.valleys := by rw [hg]; exact popHead_valleys _ _
  have hgno : g.ctl.noTake = true := by rw [hg]
  have hgio : g.io = (popHead s.eng q.val).io := by rw [hg]
  have hghalt : g.ctl.cpHaltBit = s.eng.ctl.cpHaltBit := by rw [hg]; exact popHead_cpHaltBit _ _
  have hgq : g.ctl.queues = (popHead s.eng q.val).ctl.queues := by rw [hg]
  have hgwait : g.side.pwrWait = some w := by rw [hgside]
  have hquiet : quiet g = quiet s.eng := quiet_congr (by rw [hgio, popHead_acc]) (by rw [hgio, popHead_sto])
    (by rw [hgio, popHead_pass]) (by rw [hgio, popHead_oldSegs]) hgvals
  have hon : ctlOn g = true := (by rw [ctlOn, hgside]; rfl : ctlOn g = ctlOn s.eng).trans h.ctlOn
  have htake : runPower g = if quiet s.eng then matchAck (driveReq g 2) else g := by
    rw [← hquiet]
    exact runPower_of_entry hgwait rfl (by rw [hgside]; exact hreq) (cpRuns_of hon (hghalt.trans h.not_halted))
  have hdwait : (driveReq g 2).side.pwrWait = some w := hgwait
  have hdside : (driveReq g 2).side = { s.eng.side with
      pwrReq := 2, pwrSince := s.eng.side.ts, pwrWait := some w } := by
    show { g.side with pwrReq := 2, pwrSince := g.side.ts } = _
    rw [hgside]
  rw [htake] at ha
  by_cases hq : quiet s.eng = true
  · rw [if_pos hq] at ha
    by_cases hack : s.eng.side.pwrAck = 2
    · have hmatch : matchAck (driveReq g 2) = enterPower (reply0 (driveReq g 2) c stOK) 2 :=
        matchAck_of_match hdwait rfl (by rw [hdside]; exact hack)
      have hrep : OnlyAnswers (driveReq g 2) (reply0 (driveReq g 2) c stOK) := onlyAnswers_reply _ _ _ _ _
      have hans : Answered s.eng (reply0 (driveReq g 2) c stOK) c stOK 0 0 :=
        h.answered stOK 0 0 (by rw [hdside]) hgq hghalt (by show _ <:+ g.io.hm; rw [hgio]; exact popHead_hm _ _)
      obtain ⟨lanes', gated, he⟩ := enterPower_eq (reply0 (driveReq g 2) c stOK) 2
      rw [hmatch] at ha
      have hlane (i : Nat) : getLane t.eng i = { getLane g i with window := [] } := by
        rw [ha.getLane, getLane_enterPower_retention, hrep.getLane]
        rfl
      refine ⟨?_, fun i => by rw [hlane]; exact hgwthr i, ?_, fun hn => absurd (hq.symm.trans hn) (by decide),
        fun _ hn => absurd hack hn, fun _ _ => ⟨?_, fun i => by rw [hlane], ?_⟩⟩
      · rw [ha.noTake, he]
        exact hrep.noTake.trans hgno
      · rw [ha.valleys, he]
        exact hrep.valleys.trans hgvals
      · rw [ha.side, he]
        dsimp only
        rw [hrep.side, hdside, ← hw]
      · refine Answered.later ?_ ha
        rw [he]
        exact hans
    · rw [matchAck_of_differ hdwait (by rw [hdside]; exact hack)] at ha
      refine ⟨ha.noTake.trans hgno, fun i => by rw [ha.getLane]; exact hgwthr i, ha.valleys.trans hgvals,
        fun hn => absurd (hq.symm.trans hn) (by decide), fun _ _ => ha.side.trans hdside, fun _ hn => absurd hn hack⟩
  · rw [if_neg hq] at ha
    exact ⟨ha.noTake.trans hgno, fun i => by rw [ha.getLane]; exact hgwthr i, ha.valleys.trans hgvals,
      fun _ => ha.side.trans hgside, fun hn => absurd hn hq, fun hn => absurd hn hq⟩

/-- The reserved state, a second request, and Retention with a Crossing open are refused. -/
theorem powerState_refused (q : Fin 64) {s : State} {p : BitVec 512} (h : Taken s q.val 0x70 p) {r : BitVec 2}
    (hr : (pkw p 1).extractLsb' 0 2 = r)
    (hbad : r = 3 ∨ s.eng.side.pwrWait ≠ none ∨ (r = 2 ∧ ∃ y ∈ s.eng.valleys, y.2.opened = true)) :
    ∃ t, exec (.powerState q) s = .next t ∧ OnlyReplies s t q.val p stOutOfRange 0 0 := by
  refine ⟨_, rfl, h.onlyReplies ?_⟩
  dsimp only
  rw [hr, popHead_side, popHead_valleys, if_pos]
  · rfl
  rcases hbad with rfl | hw | ⟨rfl, y, hy, ho⟩
  · rfl
  · rw [Option.isSome_iff_ne_none.2 hw, Bool.or_true, Bool.true_or]
  · rw [List.any_eq_true.2 ⟨y, hy, ho⟩]
    simp

end

/-! ## The acknowledgement and its timeout -/

theorem OnlyCorrects.noTake {e f : Eng} (h : OnlyCorrects e f) : f.ctl.noTake = e.ctl.noTake := by rw [h.1]
theorem OnlyCorrects.gated {e f : Eng} (h : OnlyCorrects e f) : f.basin.gated = e.basin.gated := by rw [h.1]

theorem onlyCorrects_readHeld (e : Eng) : OnlyCorrects e (readHeld e) := by
  unfold readHeld
  split
  · exact .refl _
  · exact onlyCorrects_engineReads _ _

/-- An acknowledgement outside Retention, the control processor running, is matched with the request. -/
theorem exec_powerAck_of_runs {s : State} (ack : BitVec 2) (hrun : cpRuns s.eng = true) (h2 : s.eng.side.pwrState ≠ 2) :
    exec (.powerAck ack) s = .next { s with
      eng := matchAck { s.eng with side := { s.eng.side with pwrAck := ack } } } := by
  show execPowerAck ack s = _
  have hon : cpRuns { s.eng with side := { s.eng.side with pwrAck := ack } } = true := hrun
  rw [execPowerAck, powerAck]
  dsimp only
  rw [if_neg h2, if_pos hon]

/-- The acknowledgement that a waiting POWER_STATE asked for (R29, R295, R296). -/
theorem powerAck_matched {s : State} {w : PowerWait} (hw : s.eng.side.pwrWait = some w) (hr : s.eng.side.pwrReq = w.req)
    (hrun : cpRuns s.eng = true) (h2 : s.eng.side.pwrState ≠ 2) :
    ∃ t, exec (.powerAck w.req) s = .next t ∧ t.mem = s.mem ∧
      t.eng.side = { s.eng.side with pwrAck := w.req, pwrState := w.req, pwrWait := none } ∧
      Answered s.eng t.eng w.cmd stOK 0 0 ∧ t.eng.valleys = s.eng.valleys ∧ t.eng.basin.words = s.eng.basin.words ∧
      (w.req = 0 → t.eng.basin.gated = 0 ∧ ∀ i, (getLane t.eng i).gated = false) ∧
      (w.req = 1 → ∀ b, b < 32 → bit t.eng.basin.gated b =
        (bit s.eng.basin.gated b || (!bankValid s.eng b && !lowestBank s.eng b))) ∧
      (w.req = 2 → (∀ b, b < 32 → bit t.eng.basin.gated b = !bankValid s.eng b) ∧
        ∀ i, (getLane t.eng i).window = []) := by
  refine ⟨_, exec_powerAck_of_runs w.req hrun h2, rfl, ?_⟩
  let d : Eng := { s.eng with side := { s.eng.side with pwrAck := w.req } }
  have hrep : OnlyAnswers d (reply0 d w.cmd stOK) := onlyAnswers_reply _ _ _ _ _
  have hhalt : d.ctl.cpHaltBit = false := by
    have : (ctlOn s.eng && !s.eng.ctl.cpHaltBit) = true := hrun
    simpa using (Bool.and_eq_true_iff.1 this).2
  have hans : Answered s.eng (reply0 d w.cmd stOK) w.cmd stOK 0 0 :=
    (reply_answered d w.cmd stOK 0 0 hhalt).earlier rfl rfl rfl rfl (List.suffix_refl _)
  have hbank (b : Nat) : bankValid (reply0 d w.cmd stOK) b = bankValid s.eng b := by
    rw [bankValid, hrep.basin]; rfl
  have hlow (b : Nat) : lowestBank (reply0 d w.cmd stOK) b = lowestBank s.eng b := by
    rw [lowestBank, hrep.regs]; rfl
  have hbas : (reply0 d w.cmd stOK).basin = s.eng.basin := hrep.basin
  rw [show matchAck { s.eng with side := { s.eng.side with pwrAck := w.req } } = enterPower (reply0 d w.cmd stOK) w.req from
    matchAck_of_match hw hr rfl]
  dsimp only
  generalize reply0 d w.cmd stOK = r at *
  refine ⟨?_, ?_, ?_, ?_, fun h0 => ?_, fun h1 b hb => ?_, fun h2 => ⟨fun b hb => ?_, ?_⟩⟩
  · obtain ⟨lanes, gated, he⟩ := enterPower_eq r w.req
    rw [he]
    dsimp only
    rw [hrep.side]
  · obtain ⟨lanes, gated, he⟩ := enterPower_eq r w.req
    rw [he]
    exact hans
  · obtain ⟨lanes, gated, he⟩ := enterPower_eq r w.req
    rw [he]
    exact hrep.valleys
  · obtain ⟨lanes, gated, he⟩ := enterPower_eq r w.req
    rw [he]
    show r.basin.words = _
    rw [hbas]
  · rw [h0]
    exact enterPower_active r
  · rw [h1, enterPower_drowse r hb, hbank, hlow, hbas]
  · rw [h2, (enterPower_retention r).1 b hb, hbank]
  · rw [h2]
    exact (enterPower_retention r).2

/-- POWER_MISMATCH, the request that falls back, and the waiting command's answer (R29, R298). -/
theorem powerReqTimeout_late {s : State} {w : PowerWait} (hw : s.eng.side.pwrWait = some w) (hrun : cpRuns s.eng = true)
    (hlate : powerLate s.eng = true) :
    ∃ f, exec .powerReqTimeout s = .next { s with eng := if w.req = 2 then pokeAll s.mem f else f } ∧
      f.side = { s.eng.side with pwrReq := s.eng.side.pwrState, waking := false, pwrWait := none } ∧
      f.ctl.noTake = false ∧ f.valleys = s.eng.valleys ∧
      f.ctl.evt = (raise s.eng evPowerMismatch stOutOfRange none
        (pack [(0, s.eng.side.pwrReq.toNat), (8, s.eng.side.pwrAck.toNat)]) 0).ctl.evt ∧
      Answered s.eng f w.cmd stOutOfRange 0 0 := by
  let e1 := raise s.eng evPowerMismatch stOutOfRange none
    (pack [(0, s.eng.side.pwrReq.toNat), (8, s.eng.side.pwrAck.toNat)]) 0
  have h1 : OnlyEvents s.eng e1 := onlyEvents_raise _ _ _ _ _ _
  let d : Eng := { e1 with
    side := { e1.side with pwrReq := e1.side.pwrState, waking := false, pwrWait := none }
    ctl := { e1.ctl with noTake := false } }
  let e2 := reply0 d w.cmd stOutOfRange
  have h2 : OnlyAnswers d e2 := onlyAnswers_reply _ _ _ _ _
  have hhalt : d.ctl.cpHaltBit = false := by
    have : (ctlOn s.eng && !s.eng.ctl.cpHaltBit) = true := hrun
    show e1.ctl.cpHaltBit = false
    rw [h1.answers.cpHaltBit]
    simpa using (Bool.and_eq_true_iff.1 this).2
  have hq (i : Nat) : getQ d i = getQ s.eng i := by
    show Tab.get {} e1.ctl.queues i = _
    rw [h1.queues]; rfl
  have hts : d.side.ts = s.eng.side.ts := by
    show e1.side.ts = _
    rw [h1.side]
  have hans : Answered s.eng e2 w.cmd stOutOfRange 0 0 :=
    (reply_answered d w.cmd stOutOfRange 0 0 hhalt).earlier hts (by rw [hq]) (by rw [hq]) (by rw [hq]) h1.2
  have hside : e2.side = { s.eng.side with pwrReq := s.eng.side.pwrState, waking := false, pwrWait := none } := by
    rw [h2.side]
    show { e1.side with pwrReq := e1.side.pwrState, waking := false, pwrWait := none } = _
    rw [h1.side]
  have hno : e2.ctl.noTake = false := h2.noTake
  have hvals : e2.valleys = s.eng.valleys := h2.valleys.trans h1.valleys
  have hevt : e2.ctl.evt = e1.ctl.evt := reply_evt _ _ _ _ _
  have hexec : exec .powerReqTimeout s = .next { s with
      eng := if w.req = 2 then pokeAll s.mem (raiseThrottles e2) else e2 } := by
    show execPowerReqTimeout s = _
    rw [execPowerReqTimeout, powerTimeout, hlate, if_neg (by decide), hw]
  obtain ⟨lanes, hl⟩ := raiseThrottles_eq e2
  refine ⟨if w.req = 2 then raiseThrottles e2 else e2, ?_, ?_⟩
  · rw [hexec]
    split <;> rfl
  · split
    · rw [hl]
      exact ⟨hside, hno, hvals, hevt, hans⟩
    · exact ⟨hside, hno, hvals, hevt, hans⟩

theorem powerLate_iff (e : Eng) : powerLate e = true ↔
    (e.side.waking = true ∨ ∃ w, e.side.pwrWait = some w ∧ e.side.pwrReq = w.req) ∧
    (e.side.pwrWait = none ∨ cpRuns e = true) ∧ e.side.pwrAck ≠ e.side.pwrReq ∧
    1000000 ≤ (e.side.ts - e.side.pwrSince).toNat := by
  simp only [powerLate, reqOut, Bool.and_eq_true, Bool.or_eq_true, decide_eq_true_eq, and_assoc]
  cases hw : e.side.pwrWait with
  | none => simp [-BitVec.toNat_sub]
  | some w => simp [-BitVec.toNat_sub]

/-! ## Waking from Retention -/

/-- What a wake leaves before what stood still goes on (R297). -/
theorem wakeUp_eq (m : Mem) (e : Eng) : ∃ f, wakeUp m e = pokeAll m f ∧
    f.side = { e.side with pwrState := 0, waking := false } ∧ f.ctl.noTake = false ∧ f.basin.gated = 0 ∧
    f.valleys = e.valleys := by
  let d := ungateAll { e with
    side := { e.side with pwrState := 0, waking := false }, ctl := { e.ctl with noTake := false } }
  have h1 : OnlyCorrects d (readHeld d) := onlyCorrects_readHeld d
  have h2 : OnlyCorrects d (evtFlush ((readHeld d).ctl.evt.held.length + 2) (readHeld d)) :=
    h1.trans (onlyEvents_evtFlush _ _).corrects
  obtain ⟨lanes, hl⟩ := raiseThrottles_eq (evtFlush ((readHeld d).ctl.evt.held.length + 2) (readHeld d))
  refine ⟨_, rfl, ?_⟩
  rw [show raiseThrottles _ = _ from hl]
  exact ⟨h2.side, h2.noTake, h2.gated, h2.valleys⟩

/-- The request of a wake: Active, and what stood still goes on when its acknowledgement is there already. -/
def wakeReq (e : Eng) : Eng := driveReq { e with side := { e.side with waking := true } } 0

theorem wakeBit_of_asleep (m : Mem) {e : Eng} (hst : e.side.pwrState = 2) (hwk : e.side.waking = false) :
    wakeBit m e = if e.side.pwrAck = 0 then wakeUp m (wakeReq e) else wakeReq e := by
  have hne : ¬(e.side.pwrState ≠ 2 ∨ e.side.waking = true) := by rw [hst, hwk]; decide
  rw [wakeBit, if_neg hne]
  rfl

/-- WAKE is a 4-byte write of PWR_CTRL. -/
theorem exec_wake {mid : BitVec 8} (data : W32) {s : State} (h : Reaches s mid true 0xA0000) :
    exec (.wake mid data) s = .next { s with
      eng := respond (if bit data 0 then wakeBit s.mem s.eng else s.eng) 0 0 } := by
  have hown : mayOwn s.eng mid .pwrCtrl = true := by simp [mayOwn, Reg.own]
  have hr : Reaches s mid true 0xA0008 := h
  have hbit : bit ((Reg.before s.eng .pwrCtrl &&& 0xFFFFFFFF00000000) ||| (data.setWidth 64 &&& 0xFFFFFFFF) : W64) 0 =
      bit data 0 := by
    have hb : Reg.before s.eng .pwrCtrl = 0 := rfl
    rw [hb]
    simp [bit]
  show Host.Outcome.next (busWrite mid 0xA0008 four (data.setWidth 64) s) = _
  rw [busWrite_four (r := .pwrCtrl) _ hr (by decide) (by decide) (by decide) rfl rfl hown]
  congr 3
  show (if bit _ 0 then wakeBit s.mem s.eng else s.eng) = _
  rw [hbit]

/-- Settles O8: a match ends a wait and enters its state, a timeout undoes it, and a wake is a request for Active. -/
theorem powerStates : Obligations.PowerStates := by
  refine ⟨fun q s p h => ?_, fun s ack w hw hr hrun h2 => ?_, fun s => ⟨powerLate_iff s.eng, fun h => ?_⟩,
    fun s hst hwk hreq => ?_, fun mid data s h => ⟨fun hb hst hwk hack => ?_, fun hb hst hwk hack => ?_, fun hno => ?_⟩⟩
  · exact ⟨fun h01 hw hack => powerState_of_there q h rfl h01 hw hack,
      fun h01 hw hack => powerState_of_awaited q h rfl h01 hw hack,
      fun h2 hw ho hreq => powerState_of_retention q h h2 hw ho hreq, fun hbad => powerState_refused q h rfl hbad⟩
  · refine ⟨fun hne => ?_, ?_, fun hlate => powerReqTimeout_late hw hrun hlate⟩
    · rw [exec_powerAck_of_runs ack hrun h2]
      have hd : matchAck { s.eng with side := { s.eng.side with pwrAck := ack } } = _ := matchAck_of_differ hw hne
      rw [hd]
    · rintro rfl
      exact powerAck_matched hw hr hrun h2
  · show execPowerReqTimeout s = _
    rw [execPowerReqTimeout, powerTimeout, h]
    rfl
  · obtain ⟨f, hf, hside, hno, hg, hv⟩ := wakeUp_eq s.mem { s.eng with side := { s.eng.side with pwrAck := 0 } }
    refine ⟨f, ?_, hside, hno, hg, hv⟩
    show execPowerAck 0 s = _
    rw [execPowerAck, powerAck]
    dsimp only
    rw [if_pos hst, if_pos ⟨hwk, hreq.symm⟩, hf]
  · refine ⟨_, exec_wake data h, rfl, rfl, ?_⟩
    rw [if_pos hb, wakeBit_of_asleep s.mem hst hwk, if_neg hack]
    exact ⟨rfl, rfl, rfl⟩
  · obtain ⟨f, hf, hside, hno, -, hv⟩ := wakeUp_eq s.mem (wakeReq s.eng)
    refine ⟨f, ?_, hside, hno, hv⟩
    rw [exec_wake data h, if_pos hb, wakeBit_of_asleep s.mem hst hwk, if_pos hack, hf]
  · rw [exec_wake data h]
    rcases hno with hb | hst | hwk
    · rw [hb]; rfl
    · rw [wakeBit, if_pos (Or.inl hst), ite_self]; rfl
    · rw [wakeBit, if_pos (Or.inr hwk), ite_self]; rfl

end Sys2Proof.Machine

/-!
A lane with one write (R11, R13, R60, R62, R313): what its judgement leads to in memory, and a write that waits for its old
line.
-/

namespace Sys2Proof.Machine

/-! ## Accumulates and lanes -/

@[simp] theorem accumDiff_lanes (e : Eng) (l : Nat) (d : Line) (why : AccWhy) : (accumDiff e l d why).lanes = e.lanes := by
  unfold accumDiff
  split <;> rfl

@[simp] theorem accumDiff_valleys (e : Eng) (l : Nat) (d : Line) (why : AccWhy) :
    (accumDiff e l d why).valleys = e.valleys := by
  unfold accumDiff
  split <;> rfl

theorem accumDiff_updLane_io (e : Eng) (i : Nat) (f : Lane → Lane) (l : Nat) (d : Line) (why : AccWhy) :
    (accumDiff (updLane e i f) l d why).io = (accumDiff e l d why).io := by
  unfold accumDiff
  split <;> rfl

theorem getLane_congr {e f : Eng} (h : f.lanes = e.lanes) (i : Nat) : getLane f i = getLane e i := by
  rw [getLane, getLane, h]

theorem getV_congr {e f : Eng} (h : f.valleys = e.valleys) (v : Nat) : getV f v = getV e v := by
  rw [getV, getV, h]

@[simp] theorem clearWaits_q (l : Lane) : (clearWaits l).q = l.q := rfl
@[simp] theorem restoreOld_q (l : Lane) (line : Nat) (old δ : Line) : (restoreOld l line old δ).q = l.q := rfl

/-! ## The lane's one write is judged -/

section
variable {m : Mem} {e e1 : Eng} {i : Nat} {w : LaneWrite} {old : Line}

/-- The controller performs its write, once. -/
theorem performWrite_of_own (m : Mem) (he : w.engine = false) (hm : w.inMem = false) :
    performWrite m w = Mem.writeLine m w.line w.be w.new := by
  rw [performWrite, hm, he]; rfl

/-- Judged performed: memory takes the write, and the lane is empty. -/
theorem runLane_of_performed (hq : (getLane e i).q = [w]) (ho : w.old = some old) (he : w.engine = false)
    (hj : judge m (updLane e i clearWaits) i w.line w.be old w.new ((old ^^^ w.new) &&& beMask w.be) false =
      (e1, .performed)) :
    runLane m e i = (performWrite m w, updLane e1 i drainedLane) := by
  rw [runLane, pumpLane_of_performed 8 hq ho he hj, pumpLane_of_empty _ 7 (by simp)]
  simp only [updLane_updLane]
  rfl

/-- The lane of a write that was judged suppressed: the write has left it, and the window holds the old line again. -/
def restoredLane (w : LaneWrite) (old : Line) (rest : List LaneWrite) (l : Lane) : Lane :=
  restoreOld { l with q := rest } w.line old ((old ^^^ w.new) &&& beMask w.be)

/-- A suppressed write reaches memory, an accumulate restores the line, and the lane goes on with the next. -/
theorem pumpLane_of_suppressed {rest : List LaneWrite} (n : Nat) (hq : (getLane e i).q = w :: rest) (ho : w.old = some old)
    (he : w.engine = false)
    (hj : judge m (updLane e i clearWaits) i w.line w.be old w.new ((old ^^^ w.new) &&& beMask w.be) false =
      (e1, .suppressed)) :
    pumpLane i (n + 1) m e = pumpLane i n (performWrite m w)
      (accumDiff (updLane e1 i (restoredLane w old rest)) w.line ((old ^^^ w.new) &&& beMask w.be) .plain) := by
  rw [pumpLane]
  simp only [hq, ho, he, hj, Bool.false_eq_true, if_false]
  rfl

/-- Judged suppressed: memory takes the write, an accumulate restores the line, and the lane is empty. -/
theorem runLane_of_suppressed (hq : (getLane e i).q = [w]) (ho : w.old = some old) (he : w.engine = false)
    (hj : judge m (updLane e i clearWaits) i w.line w.be old w.new ((old ^^^ w.new) &&& beMask w.be) false =
      (e1, .suppressed)) :
    ∃ f, runLane m e i = (performWrite m w, f) ∧ (getLane f i).q = [] ∧ f.valleys = e1.valleys ∧
      f.io = (accumDiff e1 w.line ((old ^^^ w.new) &&& beMask w.be) .plain).io := by
  have hempty : (getLane (accumDiff (updLane e1 i (restoredLane w old [])) w.line
      ((old ^^^ w.new) &&& beMask w.be) .plain) i).q = [] := by
    rw [getLane_congr (accumDiff_lanes _ _ _ _), getLane_updLane_same, restoredLane, restoreOld_q]
  rw [runLane, pumpLane_of_suppressed 8 hq ho he hj, pumpLane_of_empty _ 7 hempty]
  refine ⟨_, rfl, ?_, ?_, ?_⟩
  · rw [getLane_updLane_same, throttle_q, getLane_updLane_same, clearWaits_q, hempty]
  · simp only [updLane_valleys, accumDiff_valleys]
  · simp only [updLane_io, accumDiff_updLane_io]

/-- A lane whose write waits for its old line waits (R13). -/
theorem runLane_of_unknown (m : Mem) (hq : (getLane e i).q = [w]) (ho : w.old = none) :
    runLane m e i = (m, updLane e i throttle) := by
  simp [runLane, pumpLane, hq, ho]

end

/-! ## The commands that make a lane go on -/

/-- A lane's write that misses the window asks for its old line (R13). -/
theorem acceptWrite_of_miss {e : Eng} {i line : Nat} (be : BitVec 256) (new : Line)
    (h : winGet (getLane e i).window line = none) :
    acceptWrite e i line be new =
      updIo (updLane e i fun l =>
        { l with miss := l.miss + 1, window := winPut l.window line new
                 q := l.q ++ [{ line := line, be := be, new := new, old := none, num := e.io.writes }]
                 gated := false, idleFrom := e.side.ts }) fun io => { io with writes := io.writes + 1 } := by
  simp [acceptWrite, takeWrite, h, updLane]

/-- Each of the three commands makes the lane go on with its one write. -/
theorem exec_eq_goLane {lane : Fin 12} {line : BitVec 33} {be : BitVec 256} {new old : Line} {s : State} {e0 : Eng}
    {c : Instr} {w : LaneWrite} (hc : ctlOn s.eng = true) (hl : w.line = line.toNat) (hb : w.be = be) (hn : w.new = new)
    (he : w.engine = false) (hm : w.inMem = false)
    (h : c = .codedWrite lane line be new ∧ (getLane s.eng lane.val).q = [] ∧
        winGet (getLane s.eng lane.val).window line.toNat = some old ∧
        e0 = updLane (acceptWrite s.eng lane.val line.toNat be new) lane.val clearWaits ∨
      c = .oldLineReturn lane old ∧ w.old = none ∧ (getLane s.eng lane.val).q = [w] ∧
        e0 = updLane (updLane s.eng lane.val fun l => { l with q := giveOld old l.q }) lane.val clearWaits ∨
      c = .heldWriteRelease lane ∧ (getLane s.eng lane.val).winCause = true ∧ w.old = some old ∧
        (getLane s.eng lane.val).q = [w] ∧ e0 = updLane s.eng lane.val clearWaits) :
    ∃ e x, exec c s = .next (laneResult s (goLane s.mem e lane.val)) ∧ e0 = updLane e lane.val clearWaits ∧
      (getLane e lane.val).q = [x] ∧ x.old = some old ∧ x.line = line.toNat ∧ x.be = be ∧ x.new = new ∧
      x.engine = false ∧ x.inMem = false := by
  rcases h with ⟨rfl, hq, hwin, h0⟩ | ⟨rfl, ho, hq, h0⟩ | ⟨rfl, hwin, ho, hq, h0⟩
  · refine ⟨_, knownWrite s.eng line.toNat be new old, exec_codedWrite_of_room line be new hc (by simp [hq]), h0, ?_,
      rfl, rfl, rfl, rfl, rfl, rfl⟩
    rw [acceptWrite_of_hit be new hwin]
    simp [hitLane, hq]
  · refine ⟨_, { w with old := some old }, ?_, h0, ?_, rfl, hl, hb, hn, he, hm⟩
    · show execOldLineReturn lane old s = _
      simp [execOldLineReturn, hc, hq, firstUnknown, ho]
    · simp [hq, giveOld, ho]
  · refine ⟨s.eng, w, ?_, h0, hq, ho, hl, hb, hn, he, hm⟩
    show execHeldWriteRelease lane s = _
    simp [execHeldWriteRelease, hc, hwin]

/-- Settles O12: the three commands make the lane go on with its one write, which memory takes as it is judged. -/
theorem codedWriteReachesMemory : Obligations.CodedWriteReachesMemory := by
  intro lane line be new old s e0 e1 c w hc hl hb hn he hm hcmd
  obtain ⟨e, x, hexec, rfl, hq, ho, hl, hb, hn, he, hm⟩ := exec_eq_goLane hc hl hb hn he hm hcmd
  have hmem (f : Eng) : (laneResult s (performWrite s.mem x, runExports (performWrite s.mem x) f)).mem =
      Mem.writeLine s.mem line.toNat be new := by
    rw [laneResult_mem, performWrite_of_own _ he hm, hl, hb, hn]
  refine ⟨fun hj => ?_, fun hj => ?_⟩
  · rw [← hl, ← hb, ← hn] at hj
    have hrun : goLane s.mem e lane.val = (performWrite s.mem x,
        runExports (performWrite s.mem x) (updLane e1 lane.val drainedLane)) := by
      rw [goLane, runLane_of_performed hq ho he hj]
    rw [hrun] at hexec
    refine ⟨_, hexec, hmem _, fun a ha => ?_, fun i hi hbit => ?_, fun hjobs => ?_⟩
    · rw [State.byteAt, State.byteAt, hmem, get_writeLine, if_neg]
      rw [inLine_iff]
      rintro ⟨i, hi, hbit, h⟩
      exact ha i hi hbit h
    · rw [State.byteAt, hmem, get_writeLine, if_pos (inLine_iff.2 ⟨i, hi, hbit, rfl⟩),
        show (256 * line.toNat + i) % 256 = i by omega]
    · rw [laneResult_eng, runExports_of_no_jobs _ (e := updLane e1 lane.val drainedLane) (by simpa using hjobs)]
      exact ⟨by simp [drainedLane], rfl, rfl⟩
  · rw [← hl, ← hb, ← hn] at hj
    obtain ⟨f, hrun, hfq, hfv, hfio⟩ := runLane_of_suppressed hq ho he hj
    have hgo : goLane s.mem e lane.val = (performWrite s.mem x, runExports (performWrite s.mem x) f) := by
      rw [goLane, hrun]
    rw [hgo] at hexec
    refine ⟨_, hexec, hmem _, fun hjobs => ?_⟩
    rw [laneResult_eng, runExports_of_no_jobs _ (e := f) fun v => by rw [getV_congr hfv]; exact hjobs v, hfio, hl, hb, hn]
    exact ⟨hfq, rfl, hfv⟩

/-! ## What a lane's port does with a miss, and what stops it -/

theorem firstUnknown_eq_none {q : List LaneWrite} (h : ∀ w ∈ q, w.old ≠ none) : firstUnknown q = none := by
  induction q with
  | nil => rfl
  | cons w r ih =>
    rw [firstUnknown, if_neg (h w List.mem_cons_self)]
    exact ih fun x hx => h x (List.mem_cons_of_mem _ hx)

/-- Settles O13: a miss leaves the write at the head of its lane, waiting. -/
theorem lanePortWaitsAndStops : Obligations.LanePortWaitsAndStops := by
  refine ⟨fun lane line be new s hc hq hwin hjobs => ?_, fun lane line be new s hc => ⟨fun hlen => ?_, fun hold => ?_⟩⟩
  · have hacc := acceptWrite_of_miss be new hwin
    have hrun := runLane_of_unknown (i := lane.val) s.mem
      (e := acceptWrite s.eng lane.val line.toNat be new)
      (w := { line := line.toNat, be := be, new := new, old := none, num := s.eng.io.writes })
      (by rw [hacc]; simp [hq]) rfl
    have hexec := exec_codedWrite_of_room (s := s) (lane := lane) line be new hc (by rw [hq]; decide)
    have hexp := runExports_of_no_jobs s.mem
      (e := updLane (acceptWrite s.eng lane.val line.toNat be new) lane.val throttle) (by simpa [hacc] using hjobs)
    rw [goLane, hrun, hexp, hacc] at hexec
    refine ⟨_, hexec, rfl, ?_⟩
    rw [laneResult_eng]
    simp [hq]
  · show execCodedWrite lane line be new s = _
    simp [execCodedWrite, hc, hlen]
  · show execOldLineReturn lane new s = _
    simp [execOldLineReturn, hc, firstUnknown_eq_none hold]

end Sys2Proof.Machine

/-!
The judgement of a coded write (R313): the tests that suppress it, in their order, and what a suppression leaves (R60).
-/

namespace Sys2Proof.Machine

theorem getR_updR_same (e : Eng) (d : Nat) (f : Region → Region) : getR (updR e d f) d = f (getR e d) :=
  Tab.get_set_same _ _ _ _

/-! ## A write suppressed against its region (R60) -/

section
variable {e : Eng} {v d : Nat} {seen : Region → Bool} {mark : Region → Region} {code st : W16} {ep : W64}

/-- A suppression counts and marks its region; then nothing differs but what an event changes. -/
theorem onlyEvents_supprRegion : OnlyEvents (updR e d fun r => mark { r with suppr := satInc r.suppr })
    (supprRegion e v d seen mark code st ep) := by
  unfold supprRegion
  dsimp only
  split
  · exact .refl _
  · exact onlyEvents_raise _ _ _ _ _ _

theorem getR_supprRegion : getR (supprRegion e v d seen mark code st ep) d =
    mark { getR e d with suppr := satInc (getR e d).suppr } := by
  rw [onlyEvents_supprRegion.answers.getR, getR_updR_same]

theorem supprRegion_lanes : (supprRegion e v d seen mark code st ep).lanes = e.lanes :=
  onlyEvents_supprRegion.answers.lanes.trans rfl

theorem supprRegion_valleys : (supprRegion e v d seen mark code st ep).valleys = e.valleys :=
  onlyEvents_supprRegion.answers.valleys.trans rfl

theorem supprRegion_spill : (supprRegion e v d seen mark code st ep).spill = e.spill :=
  onlyEvents_supprRegion.answers.spill.trans rfl

theorem supprRegion_basin : (supprRegion e v d seen mark code st ep).basin = e.basin :=
  onlyEvents_supprRegion.answers.basin.trans rfl

theorem supprRegion_acc : (supprRegion e v d seen mark code st ep).io.acc = e.io.acc :=
  onlyEvents_supprRegion.answers.acc.trans rfl

end

/-- Settles O14: the tests of `judge` are passed one after another, in the order of R313. -/
theorem judgementOrder : Obligations.JudgementOrder := by
  intro m e lane line be old new δ own
  refine ⟨judge_zero .., fun hz hr => ?_, fun d reg hz hr => ⟨fun hj => ?_, fun r l hj hp ht => ?_⟩⟩
  · rw [judge, if_neg hz, hr]
  · refine ⟨_, by rw [judge, if_neg hz, hr]; simp only [hj]; rfl, ?_⟩
    rw [getR_supprRegion]
    exact ⟨rfl, rfl, supprRegion_lanes, supprRegion_valleys, supprRegion_spill⟩
  · have hshadow : shadowLine m e (Region.valley reg) r l old = (e, true) := by rw [shadowLine, ht]
    refine ⟨fun hv => ?_, fun hv => ?_, fun hv => ?_⟩
    · have hjudge : judge m e lane line be old new δ own = (supprRegion e (Region.valley reg) d (·.evLate)
          (fun r => { r with evLate := true }) evLateLanding stOutOfRange (getV e (Region.valley reg)).epoch,
          .suppressed) := by
        rw [judge, if_neg hz, hr]
        simp only [hj, hp, hshadow, hv, Bool.not_true, Bool.false_eq_true, if_false]
      refine ⟨_, hjudge, ?_⟩
      rw [getR_supprRegion]
      exact ⟨rfl, rfl, supprRegion_lanes, supprRegion_valleys⟩
    · have hjudge : judge m e lane line be old new δ own = (supprRegion e (Region.valley reg) d (·.evUncr)
          (fun r => { r with evUncr := true }) evUncrossed stOutOfRange (getV e (Region.valley reg)).epoch,
          .suppressed) := by
        rw [judge, if_neg hz, hr]
        simp only [hj, hp, hshadow, hv, Bool.not_true, Bool.false_eq_true, if_false]
      refine ⟨_, hjudge, ?_⟩
      rw [getR_supprRegion]
      exact ⟨rfl, rfl, supprRegion_lanes, supprRegion_valleys⟩
    · rw [judge, if_neg hz, hr]
      simp only [hj, hp, hshadow, hv, Bool.not_true, Bool.false_eq_true, if_false]

/-- A write to a Reach that needs no window, or that stands in it, is judged by the Reach and the region at once. -/
theorem judgeCoded_of_frozen {m : Mem} {e : Eng} {lane v d : Nat} {r : ReachInfo} {line : Nat} {be : BitVec 256}
    {new δ : Line} {own : Bool}
    (hw : (getV e v).crossMode = true ∨ (getV e v).phase ≠ .opened ∨ r.cls = clsLanding ∨
      ((getV e v).autoSeal = false ∧ writable e v r.num = true))
    (hu : (getReach (getV e v) r.num).unbuilt = false) (hx : own = false → exportNames (getV e v) d = false)
    (hf : (getR e d).frozen = true) :
    judgeCoded m e lane v d r line be new δ own =
      (supprRegion e v d (·.evFroz) (fun r => { r with evFroz := true }) evFrozenWrite stFrozenWrite (getV e v).epoch,
        .suppressed) := by
  have hexp : (!own && exportNames (getV e v) d) = false := by
    cases own with
    | true => rfl
    | false => rw [hx rfl]; rfl
  rcases hw with hc | hp | hl | ⟨ha, hwr⟩
  · simp [judgeCoded, hc, hu, hexp, hf]
  · simp [judgeCoded, hp, hu, hexp, hf]
  · simp [judgeCoded, hl, hu, hexp, hf]
  · simp [judgeCoded, ha, hwr, hu, hexp, hf]

/-- Settles O15: a frozen region's write is suppressed against the region, and nothing is coded. -/
theorem frozenRegionSuppresses : Obligations.FrozenRegionSuppresses := by
  intro m e lane v d r line be new δ own hw hu hx hf
  refine ⟨_, judgeCoded_of_frozen hw hu hx hf, ?_⟩
  rw [getR_supprRegion]
  refine ⟨rfl, rfl, supprRegion_lanes, supprRegion_valleys, supprRegion_spill, supprRegion_basin, supprRegion_acc,
    fun hs => ?_, fun hs => ⟨updR e d fun r => { { r with suppr := satInc r.suppr } with evFroz := true }, ?_, rfl, rfl⟩⟩
  · have h : supprRegion e v d (·.evFroz) (fun r => { r with evFroz := true }) evFrozenWrite stFrozenWrite
        (getV e v).epoch = updR e d fun r => { { r with suppr := satInc r.suppr } with evFroz := true } := by
      rw [supprRegion]; exact if_pos hs
    rw [h]
    exact ⟨rfl, rfl⟩
  · rw [supprRegion]
    exact if_neg (by rw [hs]; decide)

end Sys2Proof.Machine

/-!
The recent-read window of a lane (R12), the end of a throttle (R110) and the gating of an idle lane (R295).
-/

namespace Sys2Proof.Machine

/-! ## Windows -/

/-- The other lines of a window keep their values. -/
theorem find_filter_ne {α : Type} (w : Tab α) {k l : Nat} (h : k ≠ l) :
    Tab.find (w.filter fun p => decide (p.1 ≠ l)) k = Tab.find w k := by
  induction w with
  | nil => rfl
  | cons p r ih =>
    obtain ⟨k', x⟩ := p
    by_cases hk : k' = l
    · rw [List.filter_cons_of_neg (by simp [hk]), ih, Tab.find, if_neg fun hkk => h (hkk.trans hk)]
    · rw [List.filter_cons_of_pos (by simpa using hk), Tab.find, Tab.find, ih]

/-- A key that the table does not list is not listed by a part of it. -/
theorem find_eq_none_iff {α : Type} (w : Tab α) (k : Nat) : Tab.find w k = none ↔ ∀ p ∈ w, p.1 ≠ k := by
  induction w with
  | nil => simp [Tab.find]
  | cons p r ih =>
    obtain ⟨k', x⟩ := p
    by_cases hk : k = k'
    · simp [Tab.find, hk]
    · simp [Tab.find, hk, ih, Ne.symm hk]

section
variable (w : List (Nat × Line)) (l : Nat) (x : Line)

theorem winGet_winPut_same : winGet (winPut w l x) l = some x := by
  simp [winGet, winPut, windowLines, Tab.find]

theorem winPut_length : (winPut w l x).length ≤ 8192 := List.length_take_le _ _

/-- Without an eviction every other line stays. -/
theorem winGet_winPut_ne {k : Nat} (h : k ≠ l) (hlen : (w.filter fun p => decide (p.1 ≠ l)).length < 8192) :
    winGet (winPut w l x) k = winGet w k := by
  rw [winPut, List.take_of_length_le (by rw [List.length_cons, windowLines]; omega), winGet, Tab.find, if_neg h,
    find_filter_ne w h]
  rfl

/-- No line comes into the window but the one that was read. -/
theorem winGet_winPut_none {k : Nat} (h : k ≠ l) (hk : winGet w k = none) : winGet (winPut w l x) k = none := by
  rw [winGet, find_eq_none_iff] at hk ⊢
  intro p hp
  rcases List.mem_cons.1 (List.mem_of_mem_take hp) with rfl | hin
  · exact h.symm
  · exact hk p ((List.mem_filter.1 hin).1)

/-- A window keeps distinct lines. -/
theorem winPut_pairwise (h : w.Pairwise fun a b => a.1 ≠ b.1) : (winPut w l x).Pairwise fun a b => a.1 ≠ b.1 := by
  refine List.Pairwise.sublist (List.take_sublist _ _) (List.pairwise_cons.2 ⟨fun p hp => ?_, h.filter _⟩)
  exact (by simpa using (List.mem_filter.1 hp).2 : p.1 ≠ l).symm

end

/-! ## Throttle and gate -/

/-- The count of a lane's accumulates does not depend on the time that stands for none. -/
theorem get_count_default {α : Type} (t : Tab (Nat × α)) (k : Nat) (a b : α) :
    (Tab.get (0, a) t k).1 = (Tab.get (0, b) t k).1 := by
  induction t with
  | nil => rfl
  | cons p r ih =>
    rw [Tab.get, Tab.get]
    split
    · rfl
    · exact ih

/-- A lane with nothing to do raises its throttle once no cause holds (R110). -/
theorem exec_throttleCauseCleared_of_idle {lane : Fin 12} {s : State} (hc : ctlOn s.eng = true)
    (hq : (getLane s.eng lane.val).q = []) (hf : (getLane s.eng lane.val).fifoHyst = false)
    (hr : (getLane s.eng lane.val).rstCause = false) (hh : retentionHold s.eng = false)
    (hjobs : ∀ v, (getV s.eng v).expo.jobs = []) :
    exec (.throttleCauseCleared lane) s = .next { s with
      eng := updLane s.eng lane.val fun l => { throttle (clearWaits l) with wthr := true } } := by
  have hgo : goLane s.mem s.eng lane.val = (s.mem, updLane s.eng lane.val fun l => throttle (clearWaits l)) := by
    rw [goLane, runLane, pumpLane_of_empty _ 8 hq, updLane_updLane,
      runExports_of_no_jobs _ (e := updLane s.eng lane.val fun l => throttle (clearWaits l)) hjobs]
  have hnone : anyCause (throttle (clearWaits (getLane s.eng lane.val))) = false := by
    have h : anyCause (clearWaits (getLane s.eng lane.val)) = false := by simp [anyCause, clearWaits, hq, hf, hr]
    rw [throttle, h, if_neg Bool.false_ne_true, h]
  show execThrottleCauseCleared lane s = _
  have hraise : raiseThrottle (updLane s.eng lane.val fun l => throttle (clearWaits l)) lane.val =
      updLane s.eng lane.val fun l => { throttle (clearWaits l) with wthr := true } := by
    have hhold : retentionHold (updLane s.eng lane.val fun l => throttle (clearWaits l)) = false := hh
    rw [raiseThrottle, getLane_updLane_same, hnone, hhold, Bool.or_self, if_neg Bool.false_ne_true, updLane_updLane]
  rw [execThrottleCauseCleared, hc, hgo]
  dsimp only
  rw [hraise]
  rfl

/-- Has a lane been idle for LANE_GATE_IDLE (R295)? -/
def laneIdle (e : Eng) (i : Nat) : Prop :=
  Regs.laneGateIdle e.regs ≤ 2 * (e.side.ts - (getLane e i).idleFrom).toNat ∧
    Regs.laneGateIdle e.regs ≤
      2 * (e.side.ts - (Tab.get (0, (getLane e i).idleFrom) e.io.accLane i).2).toNat

theorem gateLane_eq (e : Eng) (i : Nat) (hc : ctlOn e = true) :
    (e.side.pwrState = 1 ∧ (getLane e i).q = [] ∧ (getLane e i).fifo = [] ∧ laneIdle e i →
      gateLane e i = updLane e i fun l =>
        { l with gated := true, gateAcc := (Tab.get (0, (getLane e i).idleFrom) e.io.accLane i).1 }) ∧
    (¬ (e.side.pwrState = 1 ∧ (getLane e i).q = [] ∧ (getLane e i).fifo = [] ∧ laneIdle e i) → gateLane e i = e) := by
  have hiff : (e.side.pwrState = 1 ∧ ctlOn e = true ∧ (getLane e i).q.isEmpty = true ∧ (getLane e i).fifo.isEmpty = true ∧
      laneIdle e i) ↔ (e.side.pwrState = 1 ∧ (getLane e i).q = [] ∧ (getLane e i).fifo = [] ∧ laneIdle e i) := by
    rw [List.isEmpty_iff, List.isEmpty_iff, hc]
    exact ⟨fun ⟨h1, _, h⟩ => ⟨h1, h⟩, fun ⟨h1, h⟩ => ⟨h1, rfl, h⟩⟩
  exact ⟨fun h => if_pos (hiff.2 h), fun h => if_neg fun hn => h (hiff.1 hn)⟩

/-- Settles O10: a read enters the window, and each of the two timers acts on its lane alone. -/
theorem windowThrottleAndGate : Obligations.WindowThrottleAndGate := by
  refine ⟨fun lane line data s hc => ?_, fun lane s hc => ⟨fun hq hf hr hh hjobs => ?_, fun hp hq hf hi => ?_, fun hno => ?_⟩⟩
  · have hrun : lanesRun s.eng = true := (Bool.and_eq_true_iff.1 hc).1
    have hexec : exec (.readSnoop lane line data) s = .next { s with eng := updLane s.eng lane.val fun l =>
        { l with window := winPut l.window line.toNat data, gated := false, idleFrom := s.eng.side.ts } } := by
      show execReadSnoop lane line data s = _
      rw [execReadSnoop, if_pos hc, snoop, hrun]
      rfl
    refine ⟨_, hexec, rfl, rfl, ?_⟩
    dsimp only
    rw [getLane_updLane_same]
    exact ⟨rfl, winGet_winPut_same _ _ _, fun hlen k hk => winGet_winPut_ne _ _ _ hk hlen,
      fun k hk hn => winGet_winPut_none _ _ _ hk hn, winPut_length _ _ _, winPut_pairwise _ _ _,
      fun j hj => getLane_updLane_ne _ _ hj⟩
  · refine ⟨_, exec_throttleCauseCleared_of_idle hc hq hf hr hh hjobs, rfl, ?_, rfl, fun j hj => getLane_updLane_ne _ _ hj⟩
    rw [getLane_updLane_same]
  · have hgate := (gateLane_eq s.eng lane.val hc).1 ⟨hp, hq, hf, hi⟩
    refine ⟨_, rfl, rfl, ?_⟩
    dsimp only
    rw [hgate, laneGated, getLane_updLane_same]
    refine ⟨?_, rfl, rfl, fun j hj => getLane_updLane_ne _ _ hj⟩
    rw [Bool.true_and, decide_eq_true_iff]
    exact get_count_default _ _ _ _
  · have hgate := (gateLane_eq s.eng lane.val hc).2 fun ⟨hp, hq, hf, hi⟩ => by
      rcases hno with h | h | h | h
      · exact h hp
      · exact h hq
      · exact h hf
      · exact h hi
    show Host.Outcome.next { s with eng := gateLane s.eng lane.val } = _
    rw [hgate]

end Sys2Proof.Machine

/-!
What reads of Basin words leave (R212), what freeing pages does to their owners (R98, R216), and tables under removal.
-/

namespace Sys2Proof.Machine

/-! ## Corrected reads -/

section
variable {e f : Eng} (h : OnlyCorrects e f)
include h

/-- Of the ports only host memory and the interrupt messages may differ. -/
theorem OnlyCorrects.io : f.io = { e.io with hm := f.io.hm, irqMsg := f.io.irqMsg } := by
  conv => lhs; rw [h.1]

theorem OnlyCorrects.acc : f.io.acc = e.io.acc := by rw [h.io]
theorem OnlyCorrects.ctlOut : f.io.ctlOut = e.io.ctlOut := by rw [h.io]
theorem OnlyCorrects.tx : f.io.tx = e.io.tx := by rw [h.io]
theorem OnlyCorrects.writes : f.io.writes = e.io.writes := by rw [h.io]
theorem OnlyCorrects.spill : f.spill = e.spill := by rw [h.1]
theorem OnlyCorrects.seeds : f.seeds = e.seeds := by rw [h.1]
theorem OnlyCorrects.staged : f.basin.staged = e.basin.staged := by rw [h.1]
theorem OnlyCorrects.valid : f.basin.valid = e.basin.valid := by rw [h.1]
theorem OnlyCorrects.cpHaltBit : f.ctl.cpHaltBit = e.ctl.cpHaltBit := by rw [h.1]
theorem OnlyCorrects.getR (d : Nat) : getR f d = getR e d := by rw [Machine.getR, Machine.getR, h.regions]
theorem OnlyCorrects.getLane (i : Nat) : getLane f i = getLane e i := by rw [Machine.getLane, Machine.getLane, h.lanes]

/-- Of the registers only the remap table may differ. -/
theorem OnlyCorrects.regs : f.regs = { e.regs with remap := f.regs.remap } := by
  conv => lhs; rw [h.1]

theorem OnlyCorrects.spillPageAddr (g : Nat) : spillPageAddr f g = spillPageAddr e g := by
  rw [Machine.spillPageAddr, Machine.spillPageAddr, h.regs]; rfl

end

theorem onlyCorrects_readOwned (e : Eng) (o : PageOwner) : OnlyCorrects e (readOwned e o) := onlyCorrects_engineReads _ _
theorem onlyCorrects_readRing (e : Eng) (pages : List Nat) (a n : Nat) : OnlyCorrects e (readRing e pages a n) :=
  onlyCorrects_engineReads _ _

/-! ## Tables under removal -/

theorem Tab.find_del {α : Type} (t : Tab α) (k j : Nat) :
    Tab.find (Tab.del t k) j = if j = k then none else Tab.find t j := by
  induction t with
  | nil => simp [Tab.del, Tab.find]
  | cons p r ih =>
    obtain ⟨k', x⟩ := p
    by_cases hk : k = k'
    · rw [Tab.del, if_pos hk, ih, Tab.find]
      split
      · rfl
      · next hj => rw [if_neg fun h => hj (h.trans hk.symm)]
    · rw [Tab.del, if_neg hk, Tab.find, ih, Tab.find]
      by_cases hj : j = k'
      · rw [if_pos hj, if_pos hj, if_neg fun h => hk (h.symm.trans hj)]
      · rw [if_neg hj, if_neg hj]

/-! ## Freed pages -/

/-- What freeing one page makes of the Basin. -/
def freeOne (e : Eng) (b : Basin) (g : Nat) : Basin :=
  { zeroWords e b g with
    valid := Tab.del (zeroWords e b g).valid g, owners := Tab.del (zeroWords e b g).owners g
    staged := without (zeroWords e b g).staged g }

/-- Freeing pages changes the Basin alone. -/
theorem freeBasin_eq (e : Eng) (gs : List Nat) : freeBasin e gs = { e with basin := gs.foldl (freeOne e) e.basin } := rfl

theorem foldl_freeOne_owners (e : Eng) (gs : List Nat) (b : Basin) (p : Nat) :
    Tab.find (gs.foldl (freeOne e) b).owners p = if p ∈ gs then none else Tab.find b.owners p := by
  induction gs generalizing b with
  | nil => simp
  | cons g r ih =>
    rw [List.foldl_cons, ih]
    show (if p ∈ r then none else Tab.find (Tab.del b.owners g) p) = _
    rw [Tab.find_del]
    by_cases hr : p ∈ r <;> by_cases hg : p = g <;> simp [hr, hg]

theorem foldl_freeOne_valid (e : Eng) (gs : List Nat) (b : Basin) (p : Nat) :
    Tab.find (gs.foldl (freeOne e) b).valid p = if p ∈ gs then none else Tab.find b.valid p := by
  induction gs generalizing b with
  | nil => simp
  | cons g r ih =>
    rw [List.foldl_cons, ih]
    show (if p ∈ r then none else Tab.find (Tab.del b.valid g) p) = _
    rw [Tab.find_del]
    by_cases hr : p ∈ r <;> by_cases hg : p = g <;> simp [hr, hg]

/-- A freed page is owned by nobody; the others keep their owners (R216). -/
theorem find_freeBasin_owners (e : Eng) (gs : List Nat) (p : Nat) :
    Tab.find (freeBasin e gs).basin.owners p = if p ∈ gs then none else Tab.find e.basin.owners p :=
  foldl_freeOne_owners e gs e.basin p

/-- A freed page is not valid; the others stay as they are (R216). -/
theorem find_freeBasin_valid (e : Eng) (gs : List Nat) (p : Nat) :
    Tab.find (freeBasin e gs).basin.valid p = if p ∈ gs then none else Tab.find e.basin.valid p :=
  foldl_freeOne_valid e gs e.basin p

end Sys2Proof.Machine

/-!
What leaves the staging FIFOs and the inbound rings (R104, R106, R108), what is retained and demoted (R101, R102), and the
control transactions of EGRESS_SEND (R103).
-/

namespace Sys2Proof.Machine

theorem getV_updV_same (e : Eng) (v : Nat) (f : Valley → Valley) : getV (updV e v f) v = f (getV e v) :=
  Tab.get_set_same _ _ _ _

theorem getV_updV_ne (e : Eng) {v w : Nat} (f : Valley → Valley) (h : w ≠ v) : getV (updV e v f) w = getV e w :=
  Tab.get_set_ne _ _ _ _ _ h

/-! ## The staging FIFO -/

@[simp] theorem setFifo_fifo (r : Regs) (i : Nat) (l : Lane) (ws : List StgWord) : (setFifo r i l ws).fifo = ws := rfl
@[simp] theorem setFifo_q (r : Regs) (i : Nat) (l : Lane) (ws : List StgWord) : (setFifo r i l ws).q = l.q := rfl
@[simp] theorem setFifo_stCorr (r : Regs) (i : Nat) (l : Lane) (ws : List StgWord) :
    (setFifo r i l ws).stCorr = l.stCorr := rfl
@[simp] theorem setFifo_stUncorr (r : Regs) (i : Nat) (l : Lane) (ws : List StgWord) :
    (setFifo r i l ws).stUncorr = l.stUncorr := rfl

theorem exec_stagingWordOut {s : State} (lane : Fin 12) (err : StagingErr) (hc : ctlOn s.eng = true) :
    exec (.stagingWordOut lane err) s = .next (laneResult s (goLane s.mem (stagingOut s.eng lane.val err) lane.val)) :=
  if_pos hc

section
variable {e : Eng} {i : Nat} {w : StgWord} {rest : List StgWord} (hf : (getLane e i).fifo = w :: rest)
include hf

/-- A word that can be read, and whose entries find room, leaves the FIFO; a corrected one is counted. -/
theorem stagingOut_of_placed {e1 : Eng} (hp : placeEnds w.ends e = some e1) :
    stagingOut e i .clean = updLane e1 i (fun l => setFifo e.regs i l rest) ∧
    stagingOut e i .single = updLane e1 i fun l => setFifo e.regs i { l with stCorr := satInc l.stCorr } rest := by
  constructor
  · simp only [stagingOut, hf, hp]
  · simp only [stagingOut, hf, hp]

/-- Without room in its rings the word stays. -/
theorem stagingOut_of_full (hp : placeEnds w.ends e = none) {k : StagingErr} (hk : k ≠ .double) : stagingOut e i k = e := by
  unfold stagingOut
  cases k with
  | clean => simp only [hf, hp]
  | single => simp only [hf, hp]
  | double => exact absurd rfl hk

/-- A word that cannot be read leaves the FIFO, is counted and silences its Valleys, beside its event. -/
theorem stagingOut_double : OnlyEvents
    (w.parts.foldl silence (updLane e i fun l => setFifo e.regs i { l with stUncorr := satInc l.stUncorr } rest))
    (stagingOut e i .double) := by
  unfold stagingOut
  simp only [hf]
  exact onlyEvents_raise _ _ _ _ _ _

end

theorem foldl_silence_lanes (vs : List Nat) (e : Eng) : (vs.foldl silence e).lanes = e.lanes := by
  induction vs generalizing e with
  | nil => rfl
  | cons v r ih => rw [List.foldl_cons, ih]; rfl

theorem getV_foldl_silence (vs : List Nat) (e : Eng) (v : Nat) :
    (getV (vs.foldl silence e) v).faulted = ((getV e v).faulted || vs.contains v) := by
  induction vs generalizing e with
  | nil => simp
  | cons w r ih =>
    rw [List.foldl_cons, ih, List.contains_cons]
    by_cases h : v = w
    · subst h
      rw [silence, getV_updV_same]
      simp
    · rw [silence, getV_updV_ne _ _ h, beq_eq_false_iff_ne.2 h, Bool.false_or]

/-! ## Inbound rings -/

theorem getIn_updIn_same (e : Eng) (v d : Nat) (f : InStream → InStream) :
    getIn (getV (updIn e v d f) v) d = f (getIn (getV e v) d) := by
  rw [updIn, getV_updV_same]
  exact Tab.get_set_same _ _ _ _

/-- The engine after the first waiting block of a ring went to its line of pending parity (R16, R78). -/
def blockApplied (e : Eng) (v d : Nat) (b : InBlock) (g : Nat) : Eng :=
  issueBlock e v d { b with line := b.line % 16 } g

theorem applyBlock_of_page {e : Eng} {v d g : Nat} {b : InBlock}
    (h : Tab.find (getV e v).pend (pendKey b.reach (tileOfLine b.line)) = some g) :
    applyBlock e v d b = blockApplied e v d b g := by
  rw [applyBlock, h]
  rfl

/-- What INBOUND_RING_APPLY does with the first of the waiting blocks. -/
theorem ringApply_of_waiting {e : Eng} {v d g : Nat} {b : InBlock} {rest : List InBlock}
    (hw : (getIn (getV e v) d).waiting = b :: rest)
    (hg : Tab.find (getV e v).pend (pendKey b.reach (tileOfLine b.line)) = some g) :
    ∃ f, OnlyCorrects e f ∧ ringApply e v d = if rest.isEmpty then
        freeBasin (updIn (blockApplied f v d b g) v d fun s => { s with waiting := [], pages := [], fill := 0 })
          (getIn (getV e v) d).pages
      else updIn (blockApplied f v d b g) v d fun s => { s with waiting := rest } := by
  refine ⟨_, onlyCorrects_readRing e (getIn (getV e v) d).pages (blockSpans (b :: rest) (getIn (getV e v) d).fill).2 b.size, ?_⟩
  rw [ringApply, hw]
  dsimp only
  rw [applyBlock_of_page]
  rw [(onlyCorrects_readRing _ _ _ _).getV]
  exact hg

/-- Settles O16: a staging word leaves with its entries, and an inbound ring gives its blocks up in order. -/
theorem stagedAndInboundBlocksMove : Obligations.StagedAndInboundBlocksMove := by
  refine ⟨fun lane s w rest hc hf => ⟨fun e1 hp hlane => ?_, fun hp k hk => ?_, ?_⟩, fun v d s b rest g hc hw hg => ?_⟩
  · obtain ⟨hclean, hsingle⟩ := stagingOut_of_placed hf hp
    refine ⟨_, _, exec_stagingWordOut lane .clean hc, exec_stagingWordOut lane .single hc, ?_⟩
    rw [hclean, hsingle]
    simp [hlane]
  · rw [exec_stagingWordOut lane k hc, stagingOut_of_full hf hp hk]
  · have h := stagingOut_double hf
    refine ⟨_, exec_stagingWordOut lane .double hc, ?_, ?_, fun v => ?_⟩
    · rw [h.answers.getLane, getLane_congr (foldl_silence_lanes _ _), getLane_updLane_same, setFifo_fifo]
    · rw [h.answers.getLane, getLane_congr (foldl_silence_lanes _ _), getLane_updLane_same, setFifo_stUncorr]
    · rw [h.answers.getV, getV_foldl_silence, getV_updLane]
  · obtain ⟨f, hf, happ⟩ := ringApply_of_waiting hw hg
    refine ⟨{ s with eng := ringApply s.eng v.val d.val }, ?_, rfl, ?_⟩
    · show Host.Outcome.next { s with eng := if ctlOn s.eng then ringApply s.eng v.val d.val else s.eng } = _
      rw [if_pos hc]
    have hacc : (blockApplied f v.val d.val b g).io.acc = s.eng.io.acc ++
        [{ line := spillPageAddr s.eng g / 256 + b.line % 16, be := nzMask b.diff, data := b.diff
           why := .block v.val d.val b.reach b.epoch, after := s.eng.io.writes }] := by
      rw [← hf.acc, ← hf.writes, ← hf.spillPageAddr]
      rfl
    dsimp only
    cases rest with
    | nil =>
      rw [List.isEmpty_nil, if_pos rfl] at happ
      rw [happ]
      refine ⟨hacc, hf.ctlOut, hf.tx, hf.writes, ?_, fun _ p hp => ?_, hf.lanes, hf.spill, hf.regions⟩
      · rw [freeBasin_eq]
        exact congrArg InStream.waiting (getIn_updIn_same (blockApplied f v.val d.val b g) v.val d.val
          fun s => { s with waiting := [], pages := [], fill := 0 })
      · rw [find_freeBasin_owners, if_pos hp]
    | cons b' r =>
      rw [List.isEmpty_cons, if_neg Bool.false_ne_true] at happ
      rw [happ]
      refine ⟨hacc, hf.ctlOut, hf.tx, hf.writes, ?_, fun h => absurd h (List.cons_ne_nil _ _), hf.lanes, hf.spill, hf.regions⟩
      exact congrArg InStream.waiting (getIn_updIn_same (blockApplied f v.val d.val b g) v.val d.val _)

/-! ## Accumulates of bytes -/

/-- An accumulate changes the ports alone. -/
theorem accumDiff_eq (e : Eng) (l : Nat) (d : Line) (why : AccWhy) :
    accumDiff e l d why = { e with io := (accumDiff e l d why).io } := by
  unfold accumDiff
  split <;> rfl

theorem accumBytes_eq (e : Eng) (a : Nat) (bs : List Byte) (why : AccWhy) :
    accumBytes e a bs why = { e with io := (accumBytes e a bs why).io } := by
  unfold accumBytes
  induction spread a bs generalizing e with
  | nil => rfl
  | cons x r ih =>
    obtain ⟨l, be, d⟩ := x
    rw [List.foldl_cons, ih]
    dsimp only
    rw [accumDiff_eq e l d why]

/-- The accumulates issued depend on those outstanding and on the number of writes accepted alone. -/
theorem accumDiff_congr {e f : Eng} (ha : f.io.acc = e.io.acc) (hw : f.io.writes = e.io.writes) (l : Nat) (d : Line)
    (why : AccWhy) : (accumDiff f l d why).io.acc = (accumDiff e l d why).io.acc ∧
      (accumDiff f l d why).io.writes = (accumDiff e l d why).io.writes := by
  unfold accumDiff
  split
  · exact ⟨ha, hw⟩
  · refine ⟨?_, hw⟩
    show f.io.acc ++ [_] = e.io.acc ++ [_]
    rw [ha, hw]

theorem accumBytes_acc_congr {e f : Eng} (ha : f.io.acc = e.io.acc) (hw : f.io.writes = e.io.writes) (a : Nat)
    (bs : List Byte) (why : AccWhy) : (accumBytes f a bs why).io.acc = (accumBytes e a bs why).io.acc := by
  unfold accumBytes
  induction spread a bs generalizing e f with
  | nil => exact ha
  | cons x r ih =>
    obtain ⟨ha', hw'⟩ := accumDiff_congr ha hw x.1 x.2.2 why
    exact ih ha' hw'

/-! ## Retained records and demotion -/

/-- A Valley's retained records with one marked as written. -/
def markWritten (r : Retained) (x : Valley) : Valley :=
  { x with retained := x.retained.map fun t => if t = r then { t with written := true } else t }

/-- The first unwritten record goes to its place by accumulates, after the engine has read what it staged. -/
theorem writeRecord_of_first {e : Eng} {v : Nat} {r : Retained}
    (hr : (getV e v).retained.find? (fun r => !r.written) = some r) (hlen : (recordBytes r).length ≤ 4096 - r.offset) :
    ∃ f, OnlyCorrects e f ∧ writeRecord e v =
      updV (accumBytes f (spillPageAddr f r.page + r.offset) (recordBytes r) (.record r.page r.offset)) v (markWritten r) := by
  refine ⟨_, onlyCorrects_readOwned e (.spillStage v), ?_⟩
  rw [writeRecord]
  simp only [hr, if_pos hlen, List.take_of_length_le hlen, (onlyCorrects_readOwned e (.spillStage v)).spillPageAddr]
  rfl

/-- The ring of a stream after one of its staged pages was demoted. -/
def demoteRing (g : Nat) (s : OutStream) : OutStream :=
  { s with entries := s.entries.map (demoteEntry g), page := if s.page = some g then none else s.page
           fill := if s.page = some g then 0 else s.fill }

section
variable {e : Eng} {g v d : Nat} {rest : List Nat} (hm : freeCount e 0 < Regs.demoteMark e.regs)
  (hs : e.basin.staged = g :: rest) (ho : Tab.find e.basin.owners g = some (.outRing v d))
include hm hs ho

/-- The oldest staged page is demoted once its records' writes have completed. -/
theorem demote_of_written (hw : pageWritten e (getV e v) (getOut (getV e v) d) g = true) :
    demote e = freeBasin (updOut e v d (demoteRing g)) [g] := by
  rw [demote, if_neg (by omega), hs, List.find?_cons_of_pos (by rw [ho]; exact hw)]
  simp only [demotePage, ho]
  rfl

/-- While they have not, and no other page is staged, nothing happens. -/
theorem demote_of_unwritten (hr : rest = []) (hw : pageWritten e (getV e v) (getOut (getV e v) d) g = false) :
    demote e = e := by
  rw [demote, if_neg (by omega), hs, List.find?_cons_of_neg (by rw [ho]; simpa using hw), hr]
  rfl

end

theorem getOut_updOut_same (e : Eng) (v d : Nat) (f : OutStream → OutStream) :
    getOut (getV (updOut e v d f) v) d = f (getOut (getV e v) d) := by
  rw [updOut, getV_updV_same]
  exact Tab.get_set_same _ _ _ _

/-- An entry of the page whose record's write has not completed keeps the page from being demoted. -/
theorem pageWritten_eq_false {e : Eng} {x : Valley} {s : OutStream} {g : Nat} {q : W32} {rho line row : Nat}
    {b : List Byte} {r : Retained} (hin : .inline q rho line row b g ∈ s.entries) (hr : recordOf x rho line row q = some r)
    (hw : r.written = false ∨ ∃ a ∈ e.io.acc, a.why = .record r.page r.offset) : pageWritten e x s g = false := by
  have hrec : recordWritten e r = false := by
    rcases hw with hw | ⟨a, ha, hwhy⟩
    · rw [recordWritten, hw, Bool.false_and]
    · have : e.io.acc.any (fun a => decide (a.why = .record r.page r.offset)) = true :=
        List.any_eq_true.2 ⟨a, ha, decide_eq_true hwhy⟩
      rw [recordWritten, this, Bool.not_true, Bool.and_false]
  rw [pageWritten, List.all_eq_false]
  refine ⟨_, hin, ?_⟩
  simp [entryWritten, hr, hrec]

/-- Settles O17: a record goes to its own place, and only a page whose records are all written is demoted. -/
theorem retentionAndDemotion : Obligations.RetentionAndDemotion := by
  intro v s hc
  have hdem : exec .demote s = .next { s with eng := demote s.eng } := by
    show Host.Outcome.next { s with eng := if ctlOn s.eng then demote s.eng else s.eng } = _
    rw [if_pos hc]
  refine ⟨fun r hr hlen => ?_, fun hm => ?_, fun g rest d hm hs ho => ⟨fun hw => ?_, fun q rho line row b r hin hrec hw => ?_⟩⟩
  · obtain ⟨f, hf, hwr⟩ := writeRecord_of_first hr hlen
    refine ⟨{ s with eng := writeRecord s.eng v.val }, ?_, rfl, ?_⟩
    · show Host.Outcome.next { s with eng := if ctlOn s.eng then writeRecord s.eng v.val else s.eng } = _
      rw [if_pos hc]
    dsimp only
    rw [hwr, hf.spillPageAddr, accumBytes_eq]
    refine ⟨accumBytes_acc_congr hf.acc hf.writes _ _ _, ?_, fun w hw => ?_, hf.owners, hf.spill, hf.lanes⟩
    · rw [getV_updV_same]
      show (markWritten r (getV f v.val)).retained = _
      rw [hf.getV]
      rfl
    · rw [getV_updV_ne _ _ hw]
      exact hf.getV w
  · rw [hdem, demote, if_pos hm]
  · rw [hdem, demote_of_written hm hs ho hw]
    refine ⟨_, rfl, rfl, ?_, ?_, ?_, ?_, rfl, rfl⟩
    · rw [find_freeBasin_owners, if_pos (List.mem_singleton.2 rfl)]
    · rw [find_freeBasin_valid, if_pos (List.mem_singleton.2 rfl)]
    · show g ∉ without _ g
      simp [without]
    · exact congrArg OutStream.entries (getOut_updOut_same s.eng v.val d (demoteRing g))
  · have hfalse := pageWritten_eq_false hin hrec hw
    refine ⟨hfalse, fun hr => ?_⟩
    rw [hdem, demote_of_unwritten hm hs ho hr hfalse]

/-! ## Control transactions -/

theorem getPeer_sentTo (e : Eng) (v i : Nat) : (getPeer (getV (sentTo e v i) v) i).lastSent = e.side.ts := by
  rw [sentTo, updPeer, getV_updV_same]
  exact congrArg Peer.lastSent (Tab.get_set_same _ _ _ _)

/-- The packet of a control transaction on a channel (R79 to R83, R266). -/
def ctlPacket (e : Eng) (chan : Nat) (c : CtlOut) : TxPacket :=
  { chan := chan, dst := c.node, ptag := tagOfFn e (getV e c.v).fn, cls := 0, abort := false
    flits := flitsOf (msgParts c.msg).typ c.tag c.from_ c.dest (msgParts c.msg).count c.epoch
      (msgParts c.msg).w2 (msgParts c.msg).w3 (msgParts c.msg).body }

/-- A control transaction is sent after the engine has read what it staged of it. -/
theorem sendMsg_eq (e : Eng) (chan : Nat) (c : CtlOut) : ∃ f, OnlyCorrects e f ∧ sendMsg e chan c =
    if toPartner c.msg then updIo f fun io => { io with tx := ctlPacket f chan c :: io.tx }
    else sentTo (updIo f fun io => { io with tx := ctlPacket f chan c :: io.tx }) c.v c.dest :=
  ⟨_, onlyCorrects_readOwned e (.control c.v), rfl⟩

/-- Settles O18: the first control transaction that may leave does, as its one packet. -/
theorem controlLeavesFirst : Obligations.ControlLeavesFirst := by
  intro chan s c hc hfind
  obtain ⟨f, hf, hsend⟩ := sendMsg_eq (updIo s.eng fun io => { io with ctlOut := io.ctlOut.erase c }) chan.val c
  have hexec : exec (.egressSend chan) s = .next { s with
      eng := sendMsg (updIo s.eng fun io => { io with ctlOut := io.ctlOut.erase c }) chan.val c } := by
    show Host.Outcome.next { s with eng := egress s.eng chan.val } = _
    rw [egress, hc]
    simp only [hfind, Bool.not_true, Bool.false_eq_true, if_false]
  refine ⟨_, ctlPacket f chan.val c, hexec, rfl, ?_⟩
  dsimp only
  rw [hsend]
  have htx : f.io.tx = s.eng.io.tx := hf.tx
  have hout : f.io.ctlOut = s.eng.io.ctlOut.erase c := hf.ctlOut
  have hvals : f.valleys = s.eng.valleys := hf.valleys
  have howners : f.basin.owners = s.eng.basin.owners := hf.owners
  have hlanes : f.lanes = s.eng.lanes := hf.lanes
  have hregs : f.regions = s.eng.regions := hf.regions
  have hts : f.side.ts = s.eng.side.ts := congrArg Side.ts hf.side
  cases hp : toPartner c.msg with
  | true =>
    rw [if_pos rfl]
    exact ⟨by rw [← htx]; rfl, rfl, rfl, rfl, rfl, rfl, hout, fun h => absurd h (by decide), fun _ => hvals, howners, hlanes,
      hregs⟩
  | false =>
    rw [if_neg Bool.false_ne_true]
    exact ⟨by rw [← htx]; rfl, rfl, rfl, rfl, rfl, rfl, hout, fun _ => (getPeer_sentTo _ _ _).trans hts,
      fun h => absurd h (by decide), howners, hlanes, hregs⟩

end Sys2Proof.Machine

/-!
The periodic messages: resend reports (R73), beacons (R119) and the hellos of a join (R267).
-/

namespace Sys2Proof.Machine

/-! ## Control transactions that are queued -/

/-- The control transaction that a Valley queues to a member. -/
def ctlTo (x : Valley) (v dst : Nat) (epoch : W64) (g : Msg) : CtlOut :=
  { v := v, node := nodeOf x dst, tag := x.tag, from_ := x.self, dest := dst, epoch := epoch, msg := g }

/-- Some more control transactions wait. -/
def queueCtl (e : Eng) (cs : List CtlOut) : Eng := updIo e fun io => { io with ctlOut := io.ctlOut ++ cs }

theorem sendCtl_eq (e : Eng) (v dst : Nat) (epoch : W64) (g : Msg) :
    sendCtl e v dst epoch g = queueCtl e [ctlTo (getV e v) v dst epoch g] := rfl

@[simp] theorem getV_queueCtl (e : Eng) (cs : List CtlOut) (v : Nat) : getV (queueCtl e cs) v = getV e v := rfl

theorem queueCtl_queueCtl (e : Eng) (cs ds : List CtlOut) : queueCtl (queueCtl e cs) ds = queueCtl e (cs ++ ds) := by
  simp only [queueCtl, updIo, List.append_assoc]

theorem queueCtl_nil (e : Eng) : queueCtl e [] = e := by simp only [queueCtl, updIo, List.append_nil]

/-- One transaction to each of several members, of a message that what waits does not touch. -/
theorem foldl_sendCtl (v : Nat) (epoch : W64) (g : Eng → Nat → Msg) (hg : ∀ e cs i, g (queueCtl e cs) i = g e i)
    (is : List Nat) (e : Eng) : is.foldl (fun e i => sendCtl e v i epoch (g e i)) e =
      queueCtl e (is.map fun i => ctlTo (getV e v) v i epoch (g e i)) := by
  induction is generalizing e with
  | nil => rw [List.foldl_nil, List.map_nil, queueCtl_nil]
  | cons i r ih =>
    rw [List.foldl_cons, sendCtl_eq, ih, queueCtl_queueCtl]
    simp only [getV_queueCtl, hg, List.map_cons, List.singleton_append]

/-! ## Resend reports -/

/-- Is the resend report of a held seal due (R73)? -/
def resendDue (e : Eng) (v d rho : Nat) (sl : SealEnt) : Bool :=
  isJoined (getV e v) && isLive (getV e v) (inPeer (getV e v) d) &&
    decide (Tab.get 0 (getHold (getV e v) rho).applied d < sl.count.toNat) &&
    decide ((getV e v).resendDelay ≤ (e.side.ts - sl.ts).toNat)

/-- A held seal is timed anew. -/
def retime (d rho : Nat) (sl : SealEnt) (x : Valley) : Valley :=
  { x with hold := Tab.upd {} x.hold rho fun h => { h with seals := Tab.set h.seals d sl } }

theorem resendTimer_of_seal {e : Eng} {v d rho : Nat} {sl : SealEnt}
    (hs : Tab.find (getHold (getV e v) rho).seals d = some sl) :
    resendTimer e v d rho = if resendDue e v d rho sl then
        sendCtl (updV e v (retime d rho { sl with ts := e.side.ts })) v (inPeer (getV e v) d) (getV e v).epoch
          (.resend (getIn (getV e v) d).a (getIn (getV e v) d).win)
      else e := by
  rw [resendTimer]
  simp only [hs]
  rfl

theorem find_seals_retime (d rho : Nat) (sl : SealEnt) (x : Valley) :
    Tab.find (getHold (retime d rho sl x) rho).seals d = some sl := by
  show Tab.find (Tab.get {} (Tab.set x.hold rho _) rho).seals d = _
  rw [Tab.get_set_same, Tab.find_set, if_pos rfl]

/-! ## Hellos -/

theorem helloOf_queueCtl (e : Eng) (cs : List CtlOut) (v : Nat) (complete answer : Bool) (base : W32) :
    helloOf (queueCtl e cs) v complete answer base = helloOf e v complete answer base := rfl

theorem sendHellos_of_wait {e : Eng} {v : Nat} {w : JoinWait} (hw : (getV e v).joinWait = some w) :
    sendHellos e v = updV (queueCtl e ((othersLive (getV e v)).map fun i => ctlTo (getV e v) v i (getV e v).firstEpoch
        (.hello (helloOf e v ((othersLive (getV e v)).all (bit w.matched)) false (getV e v).base)))) v
      fun x => { x with joinWait := some { w with helloTs := e.side.ts } } := by
  rw [sendHellos]
  simp only [hw]
  rw [foldl_sendCtl v (getV e v).firstEpoch
    (fun f _ => .hello (helloOf f v ((othersLive (getV e v)).all (bit w.matched)) false (getV e v).base))
    fun f cs _ => congrArg Msg.hello (helloOf_queueCtl f cs v _ _ _)]

theorem helloRepeat_of_wait {e : Eng} {v : Nat} {w : JoinWait} (hw : (getV e v).joinWait = some w) :
    helloRepeat e v = if (getV e v).peerTimeout ≤ 4 * since e w.helloTs then sendHellos e v else e := by
  rw [helloRepeat]
  simp only [hw]

/-- Settles O19: each of the three timers sends its message when it is due, and else leaves the state as it is. -/
theorem periodicMessages : Obligations.PeriodicMessages := by
  refine ⟨fun v d reach s hc => ?_, fun v m s hc => ?_, fun v s hc => ?_⟩
  · have hexec : exec (.resendTimer v d reach) s = .next { s with eng := resendTimer s.eng v.val d.val reach } := by
      show Host.Outcome.next { s with eng := if ctlOn s.eng then resendTimer s.eng v.val d.val reach else s.eng } = _
      rw [if_pos hc]
    rw [hexec]
    refine ⟨fun hs => ?_, fun sl hs => ⟨fun hdue => ?_, fun hdue => ?_⟩⟩
    · rw [resendTimer]
      simp only [hs]
    · have hx : resendDue s.eng v.val d.val reach sl = true := hdue
      rw [resendTimer_of_seal hs, if_pos hx, sendCtl_eq, getV_updV_same]
      refine ⟨_, rfl, rfl, rfl, ?_, fun w hw => ?_, rfl, rfl⟩
      · dsimp only
        rw [getV_queueCtl, getV_updV_same, find_seals_retime]
      · dsimp only
        rw [getV_queueCtl, getV_updV_ne _ _ hw]
    · have hx : resendDue s.eng v.val d.val reach sl = false := hdue
      rw [resendTimer_of_seal hs, hx]
      rfl
  · have hexec : exec (.beaconDue v m) s = .next { s with eng := beaconDue s.eng v.val m.val } := by
      show Host.Outcome.next { s with eng := if ctlOn s.eng then beaconDue s.eng v.val m.val else s.eng } = _
      rw [if_pos hc]
    rw [hexec]
    refine ⟨fun hdue => ?_, fun hdue => ?_⟩
    · rw [beaconDue, since]
      simp only [hdue, if_true]
      rw [sendCtl_eq, updPeer, getV_updV_same]
      refine ⟨_, rfl, rfl, rfl, ?_⟩
      dsimp only
      rw [getV_queueCtl, getV_updV_same]
      exact congrArg Peer.lastSent (Tab.get_set_same _ _ _ _)
    · rw [beaconDue, since]
      simp only [hdue, Bool.false_eq_true, if_false]
  · have hexec : exec (.helloRepeat v) s = .next { s with eng := helloRepeat s.eng v.val } := by
      show Host.Outcome.next { s with eng := if ctlOn s.eng then helloRepeat s.eng v.val else s.eng } = _
      rw [if_pos hc]
    rw [hexec]
    refine ⟨fun hw => ?_, fun w hw => ⟨fun hdue => ?_, fun hdue => ?_⟩⟩
    · rw [helloRepeat]
      simp only [hw]
    · have hlate : (getV s.eng v.val).peerTimeout ≤ 4 * since s.eng w.helloTs := hdue
      rw [helloRepeat_of_wait hw, if_pos hlate, sendHellos_of_wait hw]
      refine ⟨_, rfl, rfl, rfl, ?_⟩
      dsimp only
      rw [getV_updV_same]
    · have hearly : ¬ (getV s.eng v.val).peerTimeout ≤ 4 * since s.eng w.helloTs := Nat.not_le.2 hdue
      rw [helloRepeat_of_wait hw, if_neg hearly]

end Sys2Proof.Machine

/-!
Suspicion (R120 to R125): silence, holdoffs, reports and their merge windows, SUSPECT_REPORT and hearing.
-/

namespace Sys2Proof.Machine

/-! ## Peers under updates -/

theorem getPeer_updPeer_same (e : Eng) (v i : Nat) (f : Peer → Peer) :
    getPeer (getV (updPeer e v i f) v) i = f (getPeer (getV e v) i) := by
  rw [updPeer, getV_updV_same]
  exact Tab.get_set_same _ _ _ _

theorem getPeer_updPeer_ne (e : Eng) (v : Nat) {i j : Nat} (f : Peer → Peer) (h : j ≠ i) :
    getPeer (getV (updPeer e v i f) v) j = getPeer (getV e v) j := by
  rw [updPeer, getV_updV_same]
  exact Tab.get_set_ne _ _ _ _ _ h

theorem getV_updPeer_ne (e : Eng) {v w : Nat} (i : Nat) (f : Peer → Peer) (h : w ≠ v) :
    getV (updPeer e v i f) w = getV e w := getV_updV_ne _ _ h

/-! ## A report -/

/-- Between two engines nothing differs but what a report of a suspicion changes: peers of Valleys, the merge windows of
reports, and what an event changes. -/
def OnlyReports (e f : Eng) : Prop :=
  OnlyEvents { e with valleys := f.valleys, ctl := { e.ctl with winSuspect := f.ctl.winSuspect } } f

section
variable {e f g : Eng}

theorem OnlyReports.refl (e : Eng) : OnlyReports e e := OnlyEvents.refl e

theorem OnlyReports.hm (h : OnlyReports e f) : e.io.hm <:+ f.io.hm := h.2
theorem OnlyReports.lanes (h : OnlyReports e f) : f.lanes = e.lanes := h.answers.lanes
theorem OnlyReports.regions (h : OnlyReports e f) : f.regions = e.regions := h.answers.regions
theorem OnlyReports.spill (h : OnlyReports e f) : f.spill = e.spill := h.answers.spill
theorem OnlyReports.basin (h : OnlyReports e f) : f.basin = e.basin := h.answers.basin

end

theorem onlyReports_updPeer (e : Eng) (v i : Nat) (f : Peer → Peer) : OnlyReports e (updPeer e v i f) :=
  ⟨rfl, List.suffix_refl _⟩

/-- A peer of another Valley that a report takes in is reported with it (R123). -/
def reportToo (e : Eng) (w j : Nat) : Eng :=
  updPeer (if silentNow e w j then suspectBit e w j else e) w j fun p => { p with reported := true, holdFrom := none }

theorem reportToo_spec (e : Eng) (w j v : Nat) (h : w ≠ v) :
    reportToo e w j = { e with valleys := (reportToo e w j).valleys } ∧ getV (reportToo e w j) v = getV e v := by
  unfold reportToo
  split
  · refine ⟨rfl, ?_⟩
    rw [getV_updPeer_ne _ _ _ h.symm, suspectBit, getV_updPeer_ne _ _ _ h.symm]
  · exact ⟨rfl, getV_updPeer_ne _ _ _ h.symm⟩

theorem foldl_reportToo (v : Nat) (more : List (Nat × Nat)) (h : ∀ t ∈ more, t.1 ≠ v) (e : Eng) :
    let f := more.foldl (fun e (w, j) => reportToo e w j) e
    f = { e with valleys := f.valleys } ∧ getV f v = getV e v := by
  induction more generalizing e with
  | nil => exact ⟨rfl, rfl⟩
  | cons t r ih =>
    obtain ⟨w, j⟩ := t
    obtain ⟨h1, h2⟩ := reportToo_spec e w j v (h _ List.mem_cons_self)
    obtain ⟨k1, k2⟩ := ih (fun x hx => h x (List.mem_cons_of_mem _ hx)) (reportToo e w j)
    refine ⟨?_, k2.trans h2⟩
    dsimp only at k1 ⊢
    rw [List.foldl_cons, k1, h1]

theorem dueTogether_ne {e : Eng} {v : Nat} {node : W16} {t : Nat × Nat} (h : t ∈ dueTogether e v node) : t.1 ≠ v := by
  obtain ⟨y, hy, hin⟩ := List.mem_flatMap.1 h
  obtain ⟨i, -, rfl⟩ := List.mem_map.1 hin
  simpa using (List.mem_filter.1 hy).2

theorem windowTakes_of_shut {e : Eng} {t : Tab MergeWin} {node : W16} (v : Nat) (h : windowOpen e t node = false) :
    windowTakes e t node v = false := by
  unfold windowOpen at h
  unfold windowTakes
  split
  · next w hw =>
    rw [hw] at h
    exact decide_eq_false fun hc => absurd hc.1 (of_decide_eq_false h)
  · rfl

/-- The peer as a report leaves it. -/
def reportedPeer (p : Peer) : Peer := { p with reported := true, holdFrom := none }

/-- A report about a peer that is not acknowledged: the peer counts as reported, and with no merge window open about the
node one opens. -/
theorem reportSuspect_spec (e : Eng) (v i kind : Nat) (ha : (getPeer (getV e v) i).acked = false) :
    OnlyReports e (reportSuspect e v i kind) ∧
    getPeer (getV (reportSuspect e v i kind) v) i = reportedPeer (getPeer (getV e v) i) ∧
    (windowOpen e e.ctl.winSuspect (nodeOf (getV e v) i) = false →
      Tab.find (reportSuspect e v i kind).ctl.winSuspect (nodeOf (getV e v) i).toNat = some (newWindow e v)) := by
  let e1 := updPeer e v i reportedPeer
  have hpeer : getPeer (getV e1 v) i = reportedPeer (getPeer (getV e v) i) := getPeer_updPeer_same _ _ _ _
  by_cases ht : windowTakes e e.ctl.winSuspect (nodeOf (getV e v) i) v = true
  · have hr : reportSuspect e v i kind = e1 := by
      rw [reportSuspect]
      dsimp only
      rw [ha, if_neg Bool.false_ne_true]
      exact if_pos ht
    rw [hr]
    exact ⟨onlyReports_updPeer _ _ _ _, hpeer, fun hw => absurd (ht.symm.trans (windowTakes_of_shut v hw)) (by decide)⟩
  · let more := if windowOpen e e.ctl.winSuspect (nodeOf (getV e v) i) then [] else dueTogether e v (nodeOf (getV e v) i)
    let e2 := more.foldl (fun e (w, j) => reportToo e w j) e1
    let e3 : Eng := { e2 with ctl := { e2.ctl with winSuspect := openWindow e2 e2.ctl.winSuspect (nodeOf (getV e v) i) v } }
    have hmore : ∀ t ∈ more, t.1 ≠ v := by
      intro t hin
      simp only [more] at hin
      split at hin
      · exact absurd hin List.not_mem_nil
      · exact dueTogether_ne hin
    obtain ⟨h2, hv2⟩ : e2 = { e1 with valleys := e2.valleys } ∧ getV e2 v = getV e1 v := foldl_reportToo v more hmore e1
    have hev : OnlyEvents e3 (reportSuspect e v i kind) := by
      rw [reportSuspect]
      dsimp only
      rw [ha, if_neg Bool.false_ne_true, if_neg ht]
      exact onlyEvents_raiseFn e3 _ _ _ _ _ _
    have hctl : (reportSuspect e v i kind).ctl.winSuspect =
        openWindow e2 e2.ctl.winSuspect (nodeOf (getV e v) i) v := by rw [hev.1]
    refine ⟨?_, ?_, fun hw => ?_⟩
    · have hval : (reportSuspect e v i kind).valleys = e2.valleys := hev.valleys
      have he3 : e3 = { e with valleys := e2.valleys, ctl := { e.ctl with
          winSuspect := openWindow e2 e2.ctl.winSuspect (nodeOf (getV e v) i) v } } := by
        show { e2 with ctl := { e2.ctl with winSuspect := openWindow e2 e2.ctl.winSuspect (nodeOf (getV e v) i) v } } = _
        generalize openWindow e2 e2.ctl.winSuspect (nodeOf (getV e v) i) v = win
        rw [h2]
        rfl
      rw [OnlyReports, hval, hctl, ← he3]
      exact hev
    · rw [hev.answers.getV]
      show getPeer (getV e2 v) i = _
      rw [hv2, hpeer]
    · have hts : e2.side = e.side := by rw [h2]; rfl
      have hwin : e2.ctl = e.ctl := by rw [h2]; rfl
      have hshut : windowOpen e2 e2.ctl.winSuspect (nodeOf (getV e v) i) = false := by
        rw [← hw, windowOpen, windowOpen, hts, hwin]
      have hnew : newWindow e2 v = newWindow e v := by
        have hv1 : getV e1 v = _ := getV_updV_same _ _ _
        rw [newWindow, newWindow, hv2, hts, hv1]
        rfl
      rw [hctl, openWindow, hshut, if_neg Bool.false_ne_true, Tab.find_set, if_pos rfl, hnew]

/-! ## Silence and holdoffs -/

/-- The silent peer's suspicion bit, and the holdoff that another member than the designated reporter starts. -/
theorem peerSilence_of_other {e : Eng} {v i : Nat} (hd : silenceDue e v i = true) (hr : designated (getV e v) i = false) :
    peerSilence e v i = updPeer e v i fun p => { p with suspect := true, holdFrom := some e.side.ts } := by
  rw [peerSilence, hd, if_neg (by decide), hr]
  simp only [Bool.false_eq_true, if_false, suspectBit, hr]

theorem peerSilence_of_designated {e : Eng} {v i : Nat} (hd : silenceDue e v i = true)
    (hr : designated (getV e v) i = true) :
    peerSilence e v i = reportSuspect (updPeer e v i fun p => { p with suspect := true, holdFrom := none }) v i 1 := by
  rw [peerSilence, hd, if_neg (by decide), hr]
  simp only [if_true, suspectBit, hr]

theorem holdoffEnd_of_due {e : Eng} {v i : Nat} {t0 : W64} (ht : (getPeer (getV e v) i).holdFrom = some t0)
    (hd : (getV e v).suspectHoldoff ≤ (e.side.ts - t0).toNat) :
    holdoffEnd e v i = if relays (getV e v) i then
        reportSuspect (updPeer e v i fun p => { p with holdFrom := none }) v i 2
      else updPeer e v i fun p => { p with holdFrom := none } := by
  have hdue : holdoffDue e v i = true := by
    rw [holdoffDue, ht]
    exact decide_eq_true hd
  rw [holdoffEnd, hdue]
  rfl

theorem relays_of_unreported {x : Valley} {i r : Nat} (hr : reporterOf x i = some r) (hs : (getPeer x i).suspect = true)
    (hp : (getPeer x i).reported = false) : relays x i = (getPeer x r).suspect := by
  rw [relays, hs, hp, hr]
  rfl

/-! ## The message on vector 66 -/

theorem flushIrq66_of_due {e : Eng} (hd : e.ctl.irq66Due = true) (hg : gapOver e = true) (hb : bit e.ctl.irq 66 = false) :
    flushIrq66 e = { sendIrq e 66 with
      ctl := { (sendIrq e 66).ctl with irq66Ts := some e.side.ts, irq66Due := false } } := by
  have hfree : ¬ irq66Waits e := by
    rintro (h | h)
    · unfold gapOver since at hg
      split at h
      · next t ht =>
        rw [ht] at hg
        exact absurd (of_decide_eq_true h) (Nat.not_lt.2 (of_decide_eq_true hg))
      · exact absurd h (by decide)
    · exact absurd (hb.symm.trans h) (by decide)
  rw [flushIrq66, hd, hg, hb]
  exact sendIrq66_of_free hfree

/-! ## SUSPECT_REPORT -/

theorem onlyReports_suspectAct (e : Eng) (v i a : Nat) : OnlyReports e (suspectAct e v i a) := by
  unfold suspectAct
  split
  · exact onlyReports_updPeer _ _ _ _
  · split
    · exact onlyReports_updPeer _ _ _ _
    · let e1 := updPeer e v i fun p => { p with suspect := true, acked := false, holdFrom := none }
      have ha : (getPeer (getV e1 v) i).acked = false := by rw [getPeer_updPeer_same]
      exact (reportSuspect_spec e1 v i 3 ha).1

theorem suspectAct_dismiss (e : Eng) (v i : Nat) : suspectAct e v i 1 = updPeer e v i fun p =>
    { p with suspect := false, reported := false, holdFrom := none, watchFrom := e.side.ts } := rfl

theorem suspectAct_acknowledge (e : Eng) (v i : Nat) :
    suspectAct e v i 2 = updPeer e v i fun p => { p with acked := true, holdFrom := none } := rfl

theorem getPeer_suspectAct_assert (e : Eng) (v i : Nat) : getPeer (getV (suspectAct e v i 3) v) i =
    reportedPeer { getPeer (getV e v) i with suspect := true, acked := false, holdFrom := none } := by
  let e1 := updPeer e v i fun p => { p with suspect := true, acked := false, holdFrom := none }
  have hp : getPeer (getV e1 v) i = { getPeer (getV e v) i with suspect := true, acked := false, holdFrom := none } :=
    getPeer_updPeer_same _ _ _ _
  have h := (reportSuspect_spec e1 v i 3 (by rw [hp])).2.1
  rw [hp] at h
  exact h

/-- SUSPECT_REPORT that the rules admit: OK, and the action. -/
theorem suspectReport_ok (q : Fin 64) {s : State} {p : BitVec 512} (h : Taken s q.val 0x30 p)
    (hj : isJoined (getV s.eng (pkValley p)) = true) (hself : pkf p 1 0 6 ≠ (getV s.eng (pkValley p)).self)
    (hlive : isLive (getV s.eng (pkValley p)) (pkf p 1 0 6) = true) (h1 : 1 ≤ pkf p 1 8 4) (h3 : pkf p 1 8 4 ≤ 3) :
    ∃ t, exec (.suspectReport q) s = .next t ∧ t.mem = s.mem ∧
      OnlyAnswers (suspectAct (reply0 (popHead s.eng q.val) (cmdOf q.val p) stOK) (pkValley p) (pkf p 1 0 6) (pkf p 1 8 4))
        t.eng := by
  refine ⟨_, rfl, ?_⟩
  rw [runCmd_of_taken h]
  dsimp only
  rw [popHead_getV, hj, hlive, decide_eq_false hself, decide_eq_false (by omega)]
  exact ⟨rfl, onlyAnswers_answerAll _⟩

/-! ## Hearing -/

/-- A peer as its hearing leaves it (R120, R125). -/
def heardPeer (e : Eng) (p : Peer) : Peer :=
  { p with lastHeard := e.side.ts, suspect := false, reported := false, holdFrom := none }

theorem resume_eq (e : Eng) (v : Nat) (node : W16) : resume e v node = { e with
    ctl := { e.ctl with winResume := (resume e v node).ctl.winResume, resumed := (resume e v node).ctl.resumed } } := by
  unfold resume
  dsimp only
  split
  · rfl
  · split <;> rfl

/-- A hearing changes the peer, and for a reported one what is due about its node. -/
theorem heard_eq (e : Eng) (v i : Nat) :
    ∃ win res, heard e v i = { updPeer e v i (heardPeer e) with ctl := { e.ctl with winResume := win, resumed := res } } := by
  unfold heard
  dsimp only
  split
  · exact ⟨e.ctl.winResume, e.ctl.resumed, rfl⟩
  · refine ⟨_, _, (resume_eq (updPeer e v i (heardPeer e)) v (nodeOf (getV e v) i)).trans rfl⟩

theorem heard_of_unreported {e : Eng} {v i : Nat} (h : (getPeer (getV e v) i).reported = false) :
    heard e v i = updPeer e v i (heardPeer e) := by
  unfold heard
  dsimp only
  rw [h]
  rfl

theorem heard_of_reported {e : Eng} {v i : Nat} (h : (getPeer (getV e v) i).reported = true)
    (ha : (getPeer (getV e v) i).acked = false) (hn : Tab.find e.ctl.resumed (nodeOf (getV e v) i).toNat = none)
    (hw : windowTakes e e.ctl.winResume (nodeOf (getV e v) i) v = false) :
    Tab.find (heard e v i).ctl.resumed (nodeOf (getV e v) i).toNat = some (e.side.ts, [v]) := by
  have hres : heard e v i = resume (updPeer e v i (heardPeer e)) v (nodeOf (getV e v) i) := by
    unfold heard
    dsimp only
    rw [h, ha]
    rfl
  have hn' : Tab.find (updPeer e v i (heardPeer e)).ctl.resumed (nodeOf (getV e v) i).toNat = none := hn
  have hw' : windowTakes (updPeer e v i (heardPeer e)) (updPeer e v i (heardPeer e)).ctl.winResume (nodeOf (getV e v) i) v =
      false := hw
  rw [hres, resume]
  simp only [hn', hw', Bool.false_eq_true, if_false]
  rw [Tab.find_set, if_pos rfl]
  rfl

/-- Settles O20: a report touches its own peer and opens a merge window; the other rows are updates of one peer. -/
theorem suspicion : Obligations.Suspicion := by
  refine ⟨fun v m s hc hd => ⟨fun hr => ?_, fun hr ha => ?_⟩, fun v m s hc => ⟨fun t0 r ht hd hr hs hp ha _ => ?_,
    fun hd hg hb => ?_⟩, fun q s p h => ⟨fun hj hself hlive h1 h3 => ?_, fun hbad => ?_⟩, fun e v i => ?_,
    fun p s v hrev hst hw hacc ht hk => ?_⟩
  · refine ⟨{ s with eng := peerSilence s.eng v.val m.val }, ?_, rfl, ?_⟩
    · show Host.Outcome.next { s with eng := if ctlOn s.eng then peerSilence s.eng v.val m.val else s.eng } = _
      rw [if_pos hc]
    dsimp only
    rw [peerSilence_of_other hd hr, getPeer_updPeer_same]
    exact ⟨rfl, rfl, rfl, rfl⟩
  · refine ⟨{ s with eng := peerSilence s.eng v.val m.val }, ?_, rfl, ?_⟩
    · show Host.Outcome.next { s with eng := if ctlOn s.eng then peerSilence s.eng v.val m.val else s.eng } = _
      rw [if_pos hc]
    let e1 := updPeer s.eng v.val m.val fun p => { p with suspect := true, holdFrom := none }
    have hp : getPeer (getV e1 v.val) m.val =
        { getPeer (getV s.eng v.val) m.val with suspect := true, holdFrom := none } := getPeer_updPeer_same _ _ _ _
    have hx : getV e1 v.val = _ := getV_updV_same _ _ _
    have hnode : nodeOf (getV e1 v.val) m.val = nodeOf (getV s.eng v.val) m.val := by rw [hx]; rfl
    have hnew : newWindow e1 v.val = newWindow s.eng v.val := by rw [newWindow, newWindow, hx]; rfl
    obtain ⟨-, hpeer, hwin⟩ := reportSuspect_spec e1 v.val m.val 1 (by rw [hp]; exact ha)
    rw [hp] at hpeer
    rw [hnode, hnew] at hwin
    dsimp only
    rw [peerSilence_of_designated hd hr]
    refine ⟨?_, ?_, ?_, hwin⟩
    · exact congrArg Peer.suspect hpeer
    · exact congrArg Peer.reported hpeer
    · exact congrArg Peer.holdFrom hpeer
  · refine ⟨{ s with eng := holdoffEnd s.eng v.val m.val }, ?_, rfl, ?_⟩
    · show Host.Outcome.next { s with eng := if ctlOn s.eng then holdoffEnd s.eng v.val m.val else s.eng } = _
      rw [if_pos hc]
    dsimp only
    rw [holdoffEnd_of_due ht hd, relays_of_unreported hr hs hp]
    let e1 := updPeer s.eng v.val m.val fun p => { p with holdFrom := none }
    have hp1 : getPeer (getV e1 v.val) m.val = { getPeer (getV s.eng v.val) m.val with holdFrom := none } :=
      getPeer_updPeer_same _ _ _ _
    cases hrel : (getPeer (getV s.eng v.val) r).suspect with
    | true =>
      obtain ⟨-, hpeer, -⟩ := reportSuspect_spec e1 v.val m.val 2 (by rw [hp1]; exact ha)
      exact ⟨congrArg Peer.holdFrom hpeer, congrArg Peer.reported hpeer, fun hn => absurd hn (by decide)⟩
    | false =>
      exact ⟨congrArg Peer.holdFrom hp1, (congrArg Peer.reported hp1).trans hp, fun _ => ⟨rfl, rfl⟩⟩
  · refine ⟨{ s with eng := flushIrq66 s.eng }, ?_, rfl, ?_⟩
    · show Host.Outcome.next { s with eng := if ctlOn s.eng then flushIrq66 s.eng else s.eng } = _
      rw [if_pos hc]
    dsimp only
    rw [flushIrq66_of_due hd hg hb, sendIrq, hb, if_neg Bool.false_ne_true]
    exact ⟨rfl, by rw [bit_setBit _ _ _ (by decide)]; rfl, rfl, rfl, rfl⟩
  · obtain ⟨t, ht, hm, ha⟩ := suspectReport_ok q h hj hself hlive h1 h3
    let c := cmdOf q.val p
    let r := reply0 (popHead s.eng q.val) c stOK
    have hr : OnlyAnswers (popHead s.eng q.val) r := onlyAnswers_reply _ _ _ _ _
    have hrep := onlyReports_suspectAct r (pkValley p) (pkf p 1 0 6) (pkf p 1 8 4)
    have hans : Answered s.eng r c stOK 0 0 :=
      h.answered (g := popHead s.eng q.val) stOK 0 0 (by simp) rfl (by simp) (popHead_hm _ _)
    have hgetV (w : Nat) : getV r w = getV s.eng w := (hr.getV w).trans (popHead_getV _ _ _)
    refine ⟨t, ht, hm, (hans.mono hrep.hm).later ha, fun ha1 => ?_, fun ha2 => ?_, fun ha3 => ?_, fun hne => ?_, ?_, ?_, ?_, ?_⟩
    · rw [ha1] at ha
      rw [ha.getV, suspectAct_dismiss, getPeer_updPeer_same, hgetV, hr.side, popHead_side]
    · rw [ha2] at ha
      rw [ha.getV, suspectAct_acknowledge, getPeer_updPeer_same, hgetV]
    · rw [ha3] at ha
      rw [ha.getV, getPeer_suspectAct_assert]
      exact ⟨rfl, rfl, rfl⟩
    · have hcase : pkf p 1 8 4 = 1 ∨ pkf p 1 8 4 = 2 := by omega
      rcases hcase with hcase | hcase
      · rw [hcase, suspectAct_dismiss] at ha
        exact ⟨fun j hj => by rw [ha.getV, getPeer_updPeer_ne _ _ _ hj, hgetV],
          fun w hw => by rw [ha.getV, getV_updPeer_ne _ _ _ hw, hgetV]⟩
      · rw [hcase, suspectAct_acknowledge] at ha
        exact ⟨fun j hj => by rw [ha.getV, getPeer_updPeer_ne _ _ _ hj, hgetV],
          fun w hw => by rw [ha.getV, getV_updPeer_ne _ _ _ hw, hgetV]⟩
    · rw [ha.regions, hrep.regions, hr.regions, popHead_regions]
    · rw [ha.lanes, hrep.lanes, hr.lanes, popHead_lanes]
    · rw [ha.spill, hrep.spill, hr.spill, popHead_spill]
    · rw [ha.basin, hrep.basin, hr.basin]
      exact (onlyAnswers_popHead _ _).basin
  · refine ⟨_, rfl, h.onlyReplies ?_⟩
    dsimp only
    rw [popHead_getV]
    refine if_pos ?_
    rcases hbad with hb | hb | hb | hb | hb
    · simp [hb]
    · simp [hb]
    · simp [hb]
    · simp [hb]
    · simp [hb]
  · obtain ⟨win, res, hh⟩ := heard_eq e v i
    have hpeer : getPeer (getV (heard e v i) v) i = heardPeer e (getPeer (getV e v) i) := by
      rw [hh]
      exact getPeer_updPeer_same e v i (heardPeer e)
    rw [hpeer]
    refine ⟨rfl, rfl, rfl, rfl, fun j hj => ?_, fun w hw => ?_, by rw [hh]; rfl, by rw [hh]; rfl, by rw [hh]; rfl,
      by rw [hh]; rfl, fun hr => by rw [heard_of_unreported hr]; rfl, heard_of_reported⟩
    · rw [hh]
      exact getPeer_updPeer_ne e v (heardPeer e) hj
    · rw [hh]
      exact getV_updPeer_ne e i (heardPeer e) hw
  · obtain ⟨win, res, hh⟩ := heard_eq s.eng v (hdrOf p).sender
    have hact : act s.mem (heard s.eng v (hdrOf p).sender) v p (hdrOf p) 0 = heard s.eng v (hdrOf p).sender := by
      simp only [act, ht, hk]
    have hrow := rxRow_of_accepted 0 hacc
    rw [hact, advance_of_no_waits s.mem (e := heard s.eng v (hdrOf p).sender) (by rw [hh]; exact hrev) (by rw [hh]; exact hst)
      (by rw [hh]; exact hw)] at hrow
    exact hrow

end Sys2Proof.Machine

/-!
A received packet that its checks do not accept (R17, R18, R76, R120, R270, R279): what every fabric row does with it, and
the order of the first checks.
-/

namespace Sys2Proof.Machine

/-- The instructions that a received packet comes in. -/
def fabricRows (p : RxPacket) (rdy : BitVec 256) : List Instr :=
  [.deltaAccumulate p rdy, .seal p, .reachReady p, .landingReady p, .close p, .drained p, .resend p,
   .hopAcknowledge p, .reachFold p, .landingFold p, .crossingFold p, .watershed p, .settleSummary p, .refuse p,
   .rebuildHop p, .auditCorrection p, .standinDigests p, .beacon p, .lockstepDigests p, .replicaDigests p, .joinHello p]

/-- Every fabric row is the one row of received packets. -/
theorem exec_of_fabricRow {p : RxPacket} {rdy : BitVec 256} {i : Instr} (h : i ∈ fabricRows p rdy) (s : State) :
    ∃ r, exec i s = rxRow p r s := by
  rcases List.mem_cons.1 h with rfl | h
  · exact ⟨rdy, rfl⟩
  · refine ⟨0, ?_⟩
    simp only [List.mem_cons, List.not_mem_nil, or_false] at h
    rcases h with rfl | rfl | rfl | rfl | rfl | rfl | rfl | rfl | rfl | rfl | rfl | rfl | rfl | rfl | rfl | rfl | rfl |
      rfl | rfl | rfl
    all_goals rfl

section
variable {s : State} {p : RxPacket} (rdy : BitVec 256) (hr : s.eng.ctl.revokes = []) (hs : s.eng.ctl.stops = [])
  (hw : s.eng.side.pwrWait = none)
include hr hs hw

/-- With nothing waiting in the control processor, the row of a packet is what its reception leaves. -/
theorem rxRow_of_receive {f : Eng} (hf : receive s.mem s.eng p rdy = f) (h1 : f.ctl.revokes = s.eng.ctl.revokes)
    (h2 : f.ctl.stops = s.eng.ctl.stops) (h3 : f.side.pwrWait = s.eng.side.pwrWait) :
    rxRow p rdy s = .next { s with eng := f } := by
  rw [rxRow, hf, advance_of_no_waits s.mem (h1.trans hr) (h2.trans hs) (h3.trans hw)]

/-- What the checks say of a packet that is not accepted is all that happens. -/
theorem rxRow_of_refused :
    (rxChecks s.eng p = .ignored → rxRow p rdy s = .next s) ∧
    (rxChecks s.eng p = .retention → rxRow p rdy s = .next { s with eng := { s.eng with
      side := { s.eng.side with retFlits := satAdd s.eng.side.retFlits p.flits.length } } }) ∧
    (rxChecks s.eng p = .denied → rxRow p rdy s = .next { s with eng := refuseAt (drop s.eng 4) 2 }) ∧
    (∀ c, rxChecks s.eng p = .dropped c none none → rxRow p rdy s = .next { s with eng := drop s.eng c }) ∧
    (∀ c v j, rxChecks s.eng p = .dropped c (some v) (some j) →
      rxRow p rdy s = .next { s with eng := drop (heard s.eng v j) c }) := by
  refine ⟨fun h => ?_, fun h => ?_, fun h => ?_, fun c h => ?_, fun c v j h => ?_⟩
  · exact rxRow_of_receive rdy hr hs hw (by simp only [receive, h]) rfl rfl rfl
  · exact rxRow_of_receive rdy hr hs hw (by simp only [receive, h]) rfl rfl rfl
  · exact rxRow_of_receive rdy hr hs hw (by simp only [receive, h]) rfl rfl rfl
  · exact rxRow_of_receive rdy hr hs hw (by simp only [receive, h]) rfl rfl rfl
  · obtain ⟨win, res, hh⟩ := heard_eq s.eng v j
    exact rxRow_of_receive rdy hr hs hw (by simp only [receive, h]) (by rw [hh]; rfl) (by rw [hh]; rfl) (by rw [hh]; rfl)

end

theorem tagGranted_eq_false {e : Eng} {t : W16} (h0 : t ≠ 0)
    (h : ∀ f, f < 64 → bit (Tab.get 0 e.regs.accFab (f + 1)) 16 = true →
      fld (Tab.get 0 e.regs.accFab (f + 1)) 0 16 ≠ t.toNat) : tagGranted e t = false := by
  rw [tagGranted, decide_eq_false h0, Bool.false_or, List.any_eq_false]
  intro f hf hc
  obtain ⟨hv, ht⟩ := Bool.and_eq_true_iff.1 hc
  exact h f (List.mem_range.1 hf) hv (of_decide_eq_true ht)

/-- The checks before the header is looked at, in their order (R17, R18, R270, R279). -/
theorem rxChecks_order (e : Eng) (p : RxPacket) :
    (fabOn e = false → rxChecks e p = .ignored) ∧
    (fabOn e = true → e.side.pwrState = 2 → rxChecks e p = .retention) ∧
    (fabOn e = true → e.side.pwrState ≠ 2 →
      (fld p.src 13 3 ≠ 0 → rxChecks e p = .dropped 0 none none) ∧
      (fld p.src 13 3 = 0 → p.cls = 3 → rxChecks e p = .dropped 3 none none) ∧
      (fld p.src 13 3 = 0 → p.cls ≠ 3 → p.ptag ∈ e.side.revoked → rxChecks e p = .dropped 5 none none) ∧
      (fld p.src 13 3 = 0 → p.cls ≠ 3 → p.ptag ∉ e.side.revoked → tagGranted e p.ptag = false →
        rxChecks e p = .denied) ∧
      (fld p.src 13 3 = 0 → p.cls ≠ 3 → p.ptag ∉ e.side.revoked → tagGranted e p.ptag = true → p.abort = true →
        rxChecks e p = .dropped 1 none none)) := by
  have hin (h : p.ptag ∉ e.side.revoked) : e.side.revoked.contains p.ptag = false := by simpa using h
  refine ⟨fun h => ?_, fun h hp => ?_, fun h hp => ⟨fun h0 => ?_, fun h0 h3 => ?_, fun h0 h3 hr => ?_,
    fun h0 h3 hr ht => ?_, fun h0 h3 hr ht ha => ?_⟩⟩
  · rw [rxChecks, h]; rfl
  · rw [rxChecks, h, if_neg (by decide), if_pos hp]
  · rw [rxChecks, h, if_neg (by decide), if_neg hp, if_pos h0]
  · rw [rxChecks, h, if_neg (by decide), if_neg hp, if_neg (Classical.not_not.2 h0), if_pos h3]
  · rw [rxChecks, h, if_neg (by decide), if_neg hp, if_neg (Classical.not_not.2 h0), if_neg h3,
      if_pos (by simpa using hr)]
  · rw [rxChecks, h, if_neg (by decide), if_neg hp, if_neg (Classical.not_not.2 h0), if_neg h3, hin hr,
      if_neg Bool.false_ne_true, ht]
    rfl
  · rw [rxChecks, h, if_neg (by decide), if_neg hp, if_neg (Classical.not_not.2 h0), if_neg h3, hin hr,
      if_neg Bool.false_ne_true, ht, if_neg (by decide), if_pos ha]

/-- Settles O24: the checks decide before any row's own effect, so a refused packet leaves the same in every row. -/
theorem receiveChecks : Obligations.ReceiveChecks := by
  refine ⟨fun p rdy s hr hs hw i hi => ?_, fun e p => ?_⟩
  · obtain ⟨r, hexec⟩ := exec_of_fabricRow hi s
    rw [hexec]
    exact rxRow_of_refused r hr hs hw
  · obtain ⟨hoff, hret, hon⟩ := rxChecks_order e p
    refine ⟨hoff, hret, fun h hp => ?_⟩
    obtain ⟨h1, h2, h3, h4, h5⟩ := hon h hp
    exact ⟨h1, h2, h3, fun h0 hc hr hz ht => h4 h0 hc hr (tagGranted_eq_false hz ht), h5⟩

end Sys2Proof.Machine

/-!
Received blocks, seals and resend reports (R54, R71 to R73, R78, R79, R85, R86, R101, R104).
-/

namespace Sys2Proof.Machine

/-! ## What an allocation of spill and inbound pages leaves -/

/-- What taking in blocks leaves of an engine: lanes, regions, and of each Valley all but its drain, its pending tiles and
its inbound streams. An allocation in the spill pool can end a drain (R113). -/
structure BlockKeeps (e f : Eng) : Prop where
  lanes : f.lanes = e.lanes
  regions : f.regions = e.regions
  valley : ∀ w, getV f w = { getV e w with
    t1 := (getV f w).t1, t1o := (getV f w).t1o, pend := (getV f w).pend, ins := (getV f w).ins }

theorem BlockKeeps.refl (e : Eng) : BlockKeeps e e := ⟨rfl, rfl, fun _ => rfl⟩

theorem BlockKeeps.trans {e f g : Eng} (h : BlockKeeps e f) (k : BlockKeeps f g) : BlockKeeps e g := by
  refine ⟨k.lanes.trans h.lanes, k.regions.trans h.regions, fun w => ?_⟩
  have hk := k.valley w
  rw [h.valley w] at hk
  exact hk

section
variable {e f : Eng}

/-- An engine of the same lanes, regions and Valleys. -/
theorem BlockKeeps.of_eq (hl : f.lanes = e.lanes) (hr : f.regions = e.regions) (hv : f.valleys = e.valleys) :
    BlockKeeps e f := ⟨hl, hr, fun w => by rw [getV_congr hv]⟩

theorem BlockKeeps.of_events (h : OnlyEvents e f) : BlockKeeps e f :=
  .of_eq h.answers.lanes h.answers.regions h.valleys

theorem blockKeeps_basin (e : Eng) (b : Basin) : BlockKeeps e { e with basin := b } := .of_eq rfl rfl rfl
theorem blockKeeps_spill (e : Eng) (p : Spill) : BlockKeeps e { e with spill := p } := .of_eq rfl rfl rfl
theorem blockKeeps_io (e : Eng) (io : Io) : BlockKeeps e { e with io := io } := .of_eq rfl rfl rfl
theorem blockKeeps_drop (e : Eng) (c : Nat) : BlockKeeps e (drop e c) := .of_eq rfl rfl rfl

theorem blockKeeps_raise (e : Eng) (code st : W16) (v : Option Nat) (r0 r1 : W64) :
    BlockKeeps e (raise e code st v r0 r1) := .of_events (onlyEvents_raise _ _ _ _ _ _)

/-- An update of one Valley in what a block may change. -/
theorem BlockKeeps.of_updV (e : Eng) (v : Nat) (g : Valley → Valley) (hg : ∀ x, g x = { x with
    t1 := (g x).t1, t1o := (g x).t1o, pend := (g x).pend, ins := (g x).ins }) : BlockKeeps e (updV e v g) := by
  refine ⟨rfl, rfl, fun w => ?_⟩
  by_cases h : w = v
  · subst h
    rw [getV_updV_same]
    exact hg _
  · rw [getV_updV_ne _ _ h]

end

theorem zeroRange_eq (m : Mem) (e : Eng) (a n : Nat) (why : AccWhy) :
    zeroRange m e a n why = { e with io := (zeroRange m e a n why).io } := by
  unfold zeroRange
  generalize touchedLines m e a n = ls
  have hf (ls : List Nat) (e : Eng) : ls.foldl (fun e l => accumDiff e l (loadLine m e l) why) e =
      { e with io := (ls.foldl (fun e l => accumDiff e l (loadLine m e l) why) e).io } := by
    induction ls generalizing e with
    | nil => rfl
    | cons l r ih =>
      rw [List.foldl_cons, ih, accumDiff_eq e l (loadLine m e l) why]
  exact hf ls e

theorem blockKeeps_endT1 (e : Eng) (v reason : Nat) : BlockKeeps e (endT1 e v reason) := by
  unfold endT1
  split
  · exact .refl e
  · next r _ =>
    let e3 := updIo (freeBasin (freeSpill e (r.shadow.map fun x => x.2.1)) r.pages) fun io =>
      { io with oldSegs := io.oldSegs ++ r.segs.filter Seg.live }
    let e4 := updV e3 v fun x => { x with t1 := none, t1o := { x.t1o with workLeft := x.t1o.workLeft || decide (reason ≠ 0) } }
    have h3 : BlockKeeps e e3 := .of_eq rfl rfl rfl
    have h4 : BlockKeeps e3 e4 := .of_updV _ _ _ fun _ => rfl
    exact (h3.trans h4).trans (blockKeeps_raise _ _ _ _ _ _)

theorem blockKeeps_abandonT1 (e : Eng) (v : Nat) (b : Bool) : BlockKeeps e (abandonT1 e v b) := by
  unfold abandonT1
  split
  · exact .refl e
  · exact (blockKeeps_raise _ _ _ _ _ _).trans (blockKeeps_endT1 _ _ _)

theorem blockKeeps_evictPage (m : Mem) (e : Eng) (g : Nat) (p : SPage) : BlockKeeps e (evictPage m e g p) := by
  have hz (f : Eng) : BlockKeeps f (zeroRange m f (spillPageAddr e g) 4096 .plain) := by
    rw [zeroRange_eq]
    exact blockKeeps_io _ _
  unfold evictPage
  dsimp only
  split
  · exact (blockKeeps_abandonT1 e p.v true).trans (hz _)
  · exact (blockKeeps_spill e _).trans (hz (freeSpill e (fragmentPages e p)))

theorem blockKeeps_spillExhausted (e : Eng) (c : SpillClass) (v : Nat) : BlockKeeps e (spillExhausted e c v) := by
  unfold spillExhausted
  split
  · exact .refl e
  · have h1 := blockKeeps_spill e { e.spill with raised := (c.num, v) :: e.spill.raised }
    exact h1.trans (blockKeeps_raise _ _ _ _ _ _)

/-- An allocation in the spill pool (R113). -/
theorem blockKeeps_allocSpill (m : Mem) (e : Eng) (c : SpillClass) (v key : Nat) :
    BlockKeeps e (allocSpill m e c v key).2 := by
  unfold allocSpill
  dsimp only
  split
  · exact blockKeeps_spillExhausted _ _ _
  · split
    · exact blockKeeps_spill e _
    · split
      · exact (blockKeeps_evictPage m e _ _).trans (blockKeeps_spill _ _)
      · exact blockKeeps_spillExhausted _ _ _

/-! ## A received block -/

/-- A hearing changes its Valley in the peers alone, and no other Valley. -/
theorem getV_heard (e : Eng) (v i : Nat) :
    getV (heard e v i) v = { getV e v with peers := (getV (heard e v i) v).peers } := by
  obtain ⟨win, res, hh⟩ := heard_eq e v i
  have h1 : getV (heard e v i) v = { getV e v with
      peers := Tab.set (getV e v).peers i (heardPeer e (getPeer (getV e v) i)) } := by
    rw [hh]
    exact getV_updV_same e v fun x => { x with peers := Tab.set x.peers i (heardPeer e (getPeer x i)) }
  rw [h1]

theorem getV_heard_ne (e : Eng) {v w : Nat} (i : Nat) (h : w ≠ v) : getV (heard e v i) w = getV e w := by
  obtain ⟨win, res, hh⟩ := heard_eq e v i
  rw [hh]
  exact getV_updPeer_ne e i (heardPeer e) h

theorem blockKeeps_pendPage (m : Mem) (e : Eng) (v rho i : Nat) : BlockKeeps e (pendPage m e v rho i).2 := by
  unfold pendPage
  split
  · exact .refl e
  · split
    · next g e1 ha =>
      have h1 : BlockKeeps e e1 := by
        have := blockKeeps_allocSpill m e .pending v (pendKey rho i)
        rwa [ha] at this
      exact h1.trans (.of_updV e1 v (fun x => { x with pend := Tab.set x.pend (pendKey rho i) g }) fun _ => rfl)
    · next e1 ha =>
      have := blockKeeps_allocSpill m e .pending v (pendKey rho i)
      rwa [ha] at this

theorem blockKeeps_updIn (e : Eng) (v d : Nat) (f : InStream → InStream) : BlockKeeps e (updIn e v d f) :=
  .of_updV _ _ _ fun _ => rfl

theorem allocPage_eq {e f : Eng} {p g : Nat} {o : PageOwner} (h : allocPage e p o = some (g, f)) :
    f = ownPages e [g] o := by
  unfold allocPage at h
  split at h
  · obtain ⟨rfl, rfl⟩ := Prod.mk.inj (Option.some.inj h)
    rfl
  · cases h

theorem putStored_eq (e : Eng) (g i : Nat) (w : StoredWord) : putStored e g i w = { e with basin := (putStored e g i w).basin } := by
  unfold putStored
  dsimp only
  split <;> rfl

theorem writeWord_eq (e : Eng) (k : Nat) : writeWord e k = { e with basin := (writeWord e k).basin } := by
  unfold writeWord
  rw [putStored_eq]

theorem writeBytes_eq (e : Eng) (g a n : Nat) : writeBytes e g a n = { e with basin := (writeBytes e g a n).basin } := by
  have hf (ks : List Nat) (first : Nat) (e : Eng) : ks.foldl (fun e i => writeWord e (16 * g + first + i)) e =
      { e with basin := (ks.foldl (fun e i => writeWord e (16 * g + first + i)) e).basin } := by
    induction ks generalizing e with
    | nil => rfl
    | cons k r ih => rw [List.foldl_cons, ih, writeWord_eq]
  unfold writeBytes
  split
  · rfl
  · exact hf _ _ _

/-- Writing into a ring's pages changes the Basin alone. -/
theorem writeRing_eq (e : Eng) (pages : List Nat) (a n : Nat) :
    writeRing e pages a n = { e with basin := (writeRing e pages a n).basin } := by
  unfold writeRing
  induction pages.zipIdx generalizing e with
  | nil => rfl
  | cons x r ih =>
    obtain ⟨g, j⟩ := x
    rw [List.foldl_cons, ih]
    dsimp only
    rw [writeBytes_eq]

theorem blockKeeps_queueBlock {e f : Eng} {v d : Nat} {b : InBlock} (h : queueBlock e v d b = some f) : BlockKeeps e f := by
  have hput (e : Eng) (a : Nat) : BlockKeeps e (updIn (writeRing e (getIn (getV e v) d).pages a b.size) v d
      fun s => { s with waiting := s.waiting ++ [b], fill := s.fill + b.size }) := by
    rw [writeRing_eq]
    exact (blockKeeps_basin e _).trans (blockKeeps_updIn _ _ _ _)
  unfold queueBlock at h
  dsimp only at h
  split at h
  · exact Option.some.inj h ▸ hput e _
  · split at h
    · next g e1 ha =>
      have h1 : BlockKeeps e e1 := allocPage_eq ha ▸ blockKeeps_basin e _
      have h2 := h1.trans (blockKeeps_updIn e1 v d fun s => { s with pages := s.pages ++ [g] })
      rw [← Option.some.inj h]
      exact h2.trans (hput _ _)
    · cases h

theorem blockKeeps_blockIn (m : Mem) (e : Eng) (v sender : Nat) (epoch : W64) (entry : List Byte) (rdy : Bool) :
    BlockKeeps e (blockIn m e v sender epoch entry rdy) := by
  unfold blockIn
  dsimp only
  split
  · exact blockKeeps_drop _ _
  · split
    · exact blockKeeps_drop _ _
    · split
      · exact blockKeeps_drop _ _
      · split
        · exact blockKeeps_drop _ _
        · exact blockKeeps_drop _ _
        · split
          · exact blockKeeps_drop _ _
          · have hp := blockKeeps_pendPage m e v (fld (bytesWord entry) 32 17)
              ((mapBlock (getV e v).n (getV e v).k sender (getV e v).self (fld (bytesWord (entry.drop 8)) 24 22)).group *
                (getV e v).m +
              (mapBlock (getV e v).n (getV e v).k sender (getV e v).self (fld (bytesWord (entry.drop 8)) 24 22)).prow)
            split
            · next e1 heq =>
              rw [heq] at hp
              exact hp.trans (blockKeeps_drop _ _)
            · next g e1 heq =>
              rw [heq] at hp
              split
              · exact hp.trans ((blockKeeps_io _ _).trans (blockKeeps_updIn _ _ _ _))
              · split
                · next e2 hq => exact hp.trans ((blockKeeps_queueBlock hq).trans (blockKeeps_updIn _ _ _ _))
                · exact hp.trans (blockKeeps_drop _ _)

theorem blockKeeps_blocksIn (m : Mem) (v sender : Nat) (epoch : W64) (rdy : BitVec 256) :
    ∀ (n i : Nat) (body : List Byte) (e : Eng), BlockKeeps e (blocksIn m v sender epoch rdy n i body e)
  | 0, _, _, e => .refl e
  | n + 1, _, _, _ => (blockKeeps_blockIn ..).trans (blockKeeps_blocksIn m v sender epoch rdy n ..)

/-- Settles O27: one block's tests in their order, and the entries of a packet one after another. -/
theorem blocksReachPendingParity : Obligations.BlocksReachPendingParity := by
  refine ⟨fun m e v sender epoch entry r diff g => ⟨fun hr => ?_, fun hr => ⟨fun hd => ?_, fun hd hp ht => ⟨fun hs => ?_,
    fun hs => ?_, fun i hs => ⟨fun he hc => ?_, fun hopen hw hg => ?_⟩⟩⟩⟩, fun p rdy s v hacc htyp => ?_⟩
  · simp only [blockIn, hr]
  · simp only [blockIn, hr, hd]
  · simp only [blockIn, hr, hd, if_neg (not_or.2 ⟨Nat.not_le.2 hp, Nat.not_le.2 ht⟩), hs]
  · simp only [blockIn, hr, hd, if_neg (not_or.2 ⟨Nat.not_le.2 hp, Nat.not_le.2 ht⟩), hs]
  · simp only [blockIn, hr, hd, if_neg (not_or.2 ⟨Nat.not_le.2 hp, Nat.not_le.2 ht⟩), hs, he, hc, decide_true, Bool.and_self,
      if_true]
  · have hlate : (decide (epoch = (getV e v).epoch) &&
        holderClosed (getV e v) (fld (bytesWord entry) 32 17) (decide (r.cls = clsLanding))) = false := by
      rcases hopen with h | h
      · rw [decide_eq_false h, Bool.false_and]
      · rw [h, Bool.and_false]
    have hpage : pendPage m e v (fld (bytesWord entry) 32 17)
        ((mapBlock (getV e v).n (getV e v).k sender (getV e v).self (fld (bytesWord (entry.drop 8)) 24 22)).group *
          (getV e v).m +
        (mapBlock (getV e v).n (getV e v).k sender (getV e v).self (fld (bytesWord (entry.drop 8)) 24 22)).prow) =
        (some g, e) := by
      rw [pendPage, hg]
    have hin : blockIn m e v sender epoch entry true = updIn (issueBlock e v (subMod (getV e v).self sender (getV e v).n)
        { reach := fld (bytesWord entry) 32 17
          line := (mapBlock (getV e v).n (getV e v).k sender (getV e v).self
            (fld (bytesWord (entry.drop 8)) 24 22)).lineIn
          epoch := epoch, diff := diff, size := entry.length } g) v (subMod (getV e v).self sender (getV e v).n)
        fun s => markSeq s i := by
      simp only [blockIn, hr, hd, if_neg (not_or.2 ⟨Nat.not_le.2 hp, Nat.not_le.2 ht⟩), hs, hlate, hpage, hw, List.isEmpty_nil,
        Bool.and_self, if_true, Bool.false_eq_true, if_false]
    rw [hin]
    exact ⟨rfl, getIn_updIn_same _ _ _ _⟩
  · obtain ⟨win, res, hh⟩ := heard_eq s.eng v (hdrOf p).sender
    have hkeep := blockKeeps_blocksIn s.mem v (hdrOf p).sender (hdrOf p).epoch rdy (hdrOf p).count 0 (bodyOf p)
      (heard s.eng v (hdrOf p).sender)
    have hv := getV_heard s.eng v (hdrOf p).sender
    refine ⟨_, (acceptedPacketsAct.1 p rdy s v hacc).1 htyp, ?_, ?_, fun w hw => ?_, ?_, ?_, ?_, fun hn => ?_, fun hn => ?_⟩
    · rw [hkeep.lanes, hh]; rfl
    · rw [hkeep.regions, hh]; rfl
    · rw [hkeep.valley w, getV_heard_ne _ _ hw]
    · rw [hkeep.valley v, hv]
    · rw [hkeep.valley v, hv]
    · rw [hkeep.valley v, hv]
    · rw [hn]; rfl
    · rw [hn]; rfl

end Sys2Proof.Machine

/-!
Received seals (R79, R86) and resend reports (R73, R101).
-/

namespace Sys2Proof.Machine

/-! ## A seal entry -/

/-- The seals held for a Reach in the epoch that a packet names: the current one, or the next (R86). -/
def heldFor (own : Bool) (x : Valley) (rho : Nat) : HReach := Tab.get {} (if own then x.hold else x.holdNext) rho

/-- One more seal of a Reach. -/
def withSeal (d : Nat) (s : SealEnt) (h : HReach) : HReach := { h with seals := Tab.set h.seals d s }

/-- A Valley that holds one more seal. -/
def holdSeal (own : Bool) (d rho : Nat) (s : SealEnt) (x : Valley) : Valley :=
  if own then { x with hold := Tab.set x.hold rho (withSeal d s (heldFor own x rho)) }
  else { x with holdNext := Tab.set x.holdNext rho (withSeal d s (heldFor own x rho)) }

theorem getHold_eq (x : Valley) (rho : Nat) : getHold x rho = heldFor true x rho := rfl

theorem heldFor_holdSeal (own : Bool) (d rho : Nat) (s : SealEnt) (x : Valley) (j : Nat) :
    heldFor own (holdSeal own d rho s x) j = if j = rho then withSeal d s (heldFor own x rho) else heldFor own x j := by
  cases own with
  | true => exact Tab.get_set _ _ _ _ _
  | false => exact Tab.get_set _ _ _ _ _

theorem holdSeal_eq (own : Bool) (d rho : Nat) (s : SealEnt) (x : Valley) : holdSeal own d rho s x =
    { x with hold := (holdSeal own d rho s x).hold, holdNext := (holdSeal own d rho s x).holdNext } := by
  cases own <;> rfl

section
variable {e : Eng} {v sender : Nat} {epoch step : W64} {rho : Nat} {count : W32} {digest : W64}

/-- The distance of the stream that a sender has to this member. -/
def sealDist (e : Eng) (v sender : Nat) : Nat := subMod (getV e v).self sender (getV e v).n

/-- Is a packet's epoch the current one? -/
def ownEpoch (e : Eng) (v : Nat) (epoch : W64) : Bool := decide (epoch = (getV e v).epoch)

/-- A Reach or a sender that the Valley has no stream for. -/
theorem sealIn_of_bad (h : (reachList e v).length ≤ rho ∨ sealDist e v sender ∉ distances (getV e v)) :
    sealIn e v sender epoch step rho count digest = drop e 15 := by
  rw [sealIn]
  refine if_pos (h.imp_right fun hd => ?_)
  simpa [sealDist] using hd

theorem sealIn_of_good (hr : rho < (reachList e v).length) (hd : sealDist e v sender ∈ distances (getV e v)) :
    sealIn e v sender epoch step rho count digest =
      if Tab.has (heldFor (ownEpoch e v epoch) (getV e v) rho).seals (sealDist e v sender) then drop e 13
      else updV e v (holdSeal (ownEpoch e v epoch) (sealDist e v sender) rho
        { count := count, digest := digest, step := step, ts := e.side.ts }) := by
  have hok : ¬((reachList e v).length ≤ rho ∨ (!(distances (getV e v)).contains (sealDist e v sender)) = true) := by
    simp [hd, hr]
  rw [sealIn]
  exact (if_neg hok).trans rfl

/-- The second seal of a stream, Reach and epoch. -/
theorem sealIn_of_again (hr : rho < (reachList e v).length) (hd : sealDist e v sender ∈ distances (getV e v)) {s : SealEnt}
    (h : Tab.find (heldFor (ownEpoch e v epoch) (getV e v) rho).seals (sealDist e v sender) = some s) :
    sealIn e v sender epoch step rho count digest = drop e 13 := by
  rw [sealIn_of_good hr hd, Tab.has, h]
  rfl

/-- The first one is held. -/
theorem sealIn_of_first (hr : rho < (reachList e v).length) (hd : sealDist e v sender ∈ distances (getV e v))
    (h : Tab.find (heldFor (ownEpoch e v epoch) (getV e v) rho).seals (sealDist e v sender) = none) :
    sealIn e v sender epoch step rho count digest =
      updV e v (holdSeal (ownEpoch e v epoch) (sealDist e v sender) rho
        { count := count, digest := digest, step := step, ts := e.side.ts }) := by
  rw [sealIn_of_good hr hd, Tab.has, h]
  rfl

end

/-! ## The seal entries of a packet -/

/-- What taking in seals of one Valley leaves: all but its held seals and a drop counter. -/
structure SealKeeps (v : Nat) (epoch : W64) (e f : Eng) : Prop where
  side : f.side = e.side
  io : f.io = e.io
  lanes : f.lanes = e.lanes
  regions : f.regions = e.regions
  valley : getV f v = { getV e v with hold := (getV f v).hold, holdNext := (getV f v).holdNext }
  hold : epoch ≠ (getV e v).epoch → (getV f v).hold = (getV e v).hold

section
variable {v : Nat} {epoch : W64} {e f g : Eng}

theorem SealKeeps.refl (v : Nat) (epoch : W64) (e : Eng) : SealKeeps v epoch e e := ⟨rfl, rfl, rfl, rfl, rfl, fun _ => rfl⟩

theorem SealKeeps.trans (h : SealKeeps v epoch e f) (k : SealKeeps v epoch f g) : SealKeeps v epoch e g := by
  refine ⟨k.side.trans h.side, k.io.trans h.io, k.lanes.trans h.lanes, k.regions.trans h.regions, ?_, fun hne => ?_⟩
  · have hk := k.valley
    rw [h.valley] at hk
    exact hk
  · have hep : (getV f v).epoch = (getV e v).epoch := by rw [h.valley]
    exact (k.hold (by rw [hep]; exact hne)).trans (h.hold hne)

theorem SealKeeps.sealDist (h : SealKeeps v epoch e f) (sender : Nat) : sealDist f v sender = sealDist e v sender := by
  rw [Machine.sealDist, Machine.sealDist, h.valley]

theorem SealKeeps.ownEpoch (h : SealKeeps v epoch e f) : ownEpoch f v epoch = ownEpoch e v epoch := by
  rw [Machine.ownEpoch, Machine.ownEpoch, h.valley]

theorem SealKeeps.distances (h : SealKeeps v epoch e f) : distances (getV f v) = distances (getV e v) := by
  rw [h.valley]; rfl

theorem reachList_congr (h : f.regions = e.regions) (v : Nat) : reachList f v = reachList e v := by
  rw [reachList, reachList, valleyRegions, valleyRegions, h]

/-- A drop counter is no part of a Valley. -/
theorem sealKeeps_drop (v : Nat) (epoch : W64) (e : Eng) (c : Nat) : SealKeeps v epoch e (drop e c) :=
  ⟨rfl, rfl, rfl, rfl, rfl, fun _ => rfl⟩

theorem sealKeeps_hold (v : Nat) (epoch : W64) (e : Eng) (d rho : Nat) (s : SealEnt) :
    SealKeeps v epoch e (updV e v (holdSeal (Machine.ownEpoch e v epoch) d rho s)) := by
  refine ⟨rfl, rfl, rfl, rfl, ?_, fun hne => ?_⟩
  · rw [getV_updV_same]
    exact holdSeal_eq _ _ _ _ _
  · rw [getV_updV_same, Machine.ownEpoch, decide_eq_false hne]
    rfl

end

section
variable (e : Eng) (v sender : Nat) (epoch step : W64) (rho : Nat) (count : W32) (digest : W64)

theorem sealKeeps_sealIn : SealKeeps v epoch e (sealIn e v sender epoch step rho count digest) := by
  by_cases hok : rho < (reachList e v).length ∧ sealDist e v sender ∈ distances (getV e v)
  · rw [sealIn_of_good hok.1 hok.2]
    split
    · exact sealKeeps_drop _ _ _ _
    · exact sealKeeps_hold _ _ _ _ _ _
  · rw [sealIn_of_bad (by rw [← Nat.not_lt]; exact Classical.not_and_iff_not_or_not.1 hok)]
    exact sealKeeps_drop _ _ _ _

/-- The seals of another Reach, and a seal that is held already, stay. -/
theorem find_sealIn_of_kept {j : Nat} (h : j ≠ rho ∨
      (Tab.find (heldFor (ownEpoch e v epoch) (getV e v) j).seals (sealDist e v sender)).isSome = true) :
    Tab.find (heldFor (ownEpoch e v epoch) (getV (sealIn e v sender epoch step rho count digest) v) j).seals
      (sealDist e v sender) = Tab.find (heldFor (ownEpoch e v epoch) (getV e v) j).seals (sealDist e v sender) := by
  by_cases hok : rho < (reachList e v).length ∧ sealDist e v sender ∈ distances (getV e v)
  · rw [sealIn_of_good hok.1 hok.2]
    split
    · rfl
    · next hnew =>
      rw [getV_updV_same, heldFor_holdSeal, if_neg]
      rintro rfl
      exact h.elim (fun hj => hj rfl) hnew
  · rw [sealIn_of_bad (by rw [← Nat.not_lt]; exact Classical.not_and_iff_not_or_not.1 hok)]
    rfl

/-- The first seal of a stream and Reach is held. -/
theorem find_sealIn_of_first (hr : rho < (reachList e v).length) (hd : sealDist e v sender ∈ distances (getV e v))
    (h : Tab.find (heldFor (ownEpoch e v epoch) (getV e v) rho).seals (sealDist e v sender) = none) :
    Tab.find (heldFor (ownEpoch e v epoch) (getV (sealIn e v sender epoch step rho count digest) v) rho).seals
      (sealDist e v sender) = some { count := count, digest := digest, step := step, ts := e.side.ts } := by
  rw [sealIn_of_first hr hd h, getV_updV_same, heldFor_holdSeal, if_pos rfl, withSeal, Tab.find_set, if_pos rfl]

end

section
variable (v sender : Nat) (epoch step : W64) (rho : Nat → Nat) (count : Nat → W32) (digest : Nat → W64)

/-- The first `n` seal entries of a packet, one after another. -/
def sealsTo (e : Eng) (n : Nat) : Eng :=
  (List.range n).foldl (fun e i => sealIn e v sender epoch step (rho i) (count i) (digest i)) e

theorem sealsTo_succ (e : Eng) (n : Nat) : sealsTo v sender epoch step rho count digest e (n + 1) =
    sealIn (sealsTo v sender epoch step rho count digest e n) v sender epoch step (rho n) (count n) (digest n) := by
  rw [sealsTo, List.range_succ, List.foldl_append]
  rfl

theorem sealKeeps_sealsTo (e : Eng) : ∀ n, SealKeeps v epoch e (sealsTo v sender epoch step rho count digest e n)
  | 0 => .refl v epoch e
  | n + 1 => by
    rw [sealsTo_succ]
    exact (sealKeeps_sealsTo e n).trans (sealKeeps_sealIn _ _ _ _ _ _ _ _)

/-- A Reach that none of the entries names keeps its seals. -/
theorem find_sealsTo_of_other (e : Eng) {r : Nat} : ∀ n, (∀ j, j < n → rho j ≠ r) →
    Tab.find (heldFor (ownEpoch e v epoch) (getV (sealsTo v sender epoch step rho count digest e n) v) r).seals
      (sealDist e v sender) = Tab.find (heldFor (ownEpoch e v epoch) (getV e v) r).seals (sealDist e v sender)
  | 0, _ => rfl
  | n + 1, h => by
    have hk := sealKeeps_sealsTo v sender epoch step rho count digest e n
    have hn := find_sealIn_of_kept (sealsTo v sender epoch step rho count digest e n) v sender epoch step (rho n) (count n)
      (digest n) (j := r) (.inl (h n (Nat.lt_succ_self n)).symm)
    rw [hk.ownEpoch, hk.sealDist] at hn
    rw [sealsTo_succ, hn, find_sealsTo_of_other e n fun j hj => h j (Nat.lt_succ_of_lt hj)]

/-- The first entry of the packet for a Reach is held, when none was held before it. -/
theorem find_sealsTo_of_first (e : Eng) {i : Nat} (hd : sealDist e v sender ∈ distances (getV e v))
    (hr : rho i < (reachList e v).length) (hfirst : ∀ j, j < i → rho j ≠ rho i)
    (hnone : Tab.find (heldFor (ownEpoch e v epoch) (getV e v) (rho i)).seals (sealDist e v sender) = none) :
    ∀ n, i < n →
      Tab.find (heldFor (ownEpoch e v epoch) (getV (sealsTo v sender epoch step rho count digest e n) v) (rho i)).seals
        (sealDist e v sender) = some { count := count i, digest := digest i, step := step, ts := e.side.ts }
  | 0, h => absurd h (Nat.not_lt_zero i)
  | n + 1, h => by
    have hk := sealKeeps_sealsTo v sender epoch step rho count digest e n
    rw [sealsTo_succ]
    by_cases hin : i < n
    · have ih := find_sealsTo_of_first e hd hr hfirst hnone n hin
      have hn := find_sealIn_of_kept (sealsTo v sender epoch step rho count digest e n) v sender epoch step (rho n) (count n)
        (digest n) (j := rho i) (.inr (by rw [hk.ownEpoch, hk.sealDist, ih]; rfl))
      rw [hk.ownEpoch, hk.sealDist] at hn
      rw [hn, ih]
    · have heq : i = n := by omega
      subst heq
      have ho := find_sealsTo_of_other v sender epoch step rho count digest e i hfirst
      have hn := find_sealIn_of_first (sealsTo v sender epoch step rho count digest e i) v sender epoch step (rho i) (count i)
        (digest i) (by rw [reachList_congr hk.regions]; exact hr) (by rw [hk.sealDist, hk.distances]; exact hd)
        (by rw [hk.ownEpoch, hk.sealDist, ho]; exact hnone)
      rw [hk.ownEpoch, hk.sealDist, hk.side] at hn
      exact hn

end

/-! ## Resend reports -/

/-- What queuing entries on a ring leaves of an engine. -/
structure RingKeeps (v d : Nat) (e f : Eng) : Prop where
  io : f.io = e.io
  lanes : f.lanes = e.lanes
  spill : f.spill = e.spill
  next : (getOut (getV f v) d).next = (getOut (getV e v) d).next
  retained : (getV f v).retained = (getV e v).retained

theorem growDescs_spec (e : Eng) (v d : Nat) : RingKeeps v d e (growDescs e v d) ∧
    (getOut (getV (growDescs e v d) v) d).entries = (getOut (getV e v) d).entries := by
  unfold growDescs
  dsimp only
  split
  · exact ⟨⟨rfl, rfl, rfl, rfl, rfl⟩, rfl⟩
  · split
    · next g e1 ha =>
      obtain rfl := allocPage_eq ha
      have h := getOut_updOut_same (ownPages e [g] (.outRing v d)) v d fun s => { s with descs := s.descs ++ [g] }
      have hr : (getV (updOut (ownPages e [g] (.outRing v d)) v d fun s => { s with descs := s.descs ++ [g] }) v).retained =
          (getV e v).retained := (congrArg Valley.retained (getV_updV_same _ _ _)).trans rfl
      exact ⟨⟨rfl, rfl, rfl, (congrArg OutStream.next h).trans rfl, hr⟩, (congrArg OutStream.entries h).trans rfl⟩
    · exact ⟨⟨rfl, rfl, rfl, rfl, rfl⟩, rfl⟩

/-- An entry goes behind those of its ring. -/
theorem appendOut_spec (e : Eng) (v d : Nat) (t : OutEntry) : RingKeeps v d e (appendOut e v d t) ∧
    (getOut (getV (appendOut e v d t) v) d).entries = (getOut (getV e v) d).entries ++ [t] := by
  let e1 := updOut e v d fun s => { s with entries := s.entries ++ [t] }
  have h1 : getOut (getV e1 v) d = _ := getOut_updOut_same e v d fun s => { s with entries := s.entries ++ [t] }
  obtain ⟨hk, hent⟩ := growDescs_spec e1 v d
  have hr : (getV e1 v).retained = (getV e v).retained := (congrArg Valley.retained (getV_updV_same _ _ _)).trans rfl
  exact ⟨⟨hk.io, hk.lanes, hk.spill, hk.next.trans ((congrArg OutStream.next h1).trans rfl), hk.retained.trans hr⟩,
    hent.trans ((congrArg OutStream.entries h1).trans rfl)⟩

theorem foldl_appendOut (v d : Nat) (ts : List OutEntry) (e : Eng) :
    RingKeeps v d e (ts.foldl (fun e t => appendOut e v d t) e) ∧
    (getOut (getV (ts.foldl (fun e t => appendOut e v d t) e) v) d).entries = (getOut (getV e v) d).entries ++ ts := by
  induction ts generalizing e with
  | nil => exact ⟨⟨rfl, rfl, rfl, rfl, rfl⟩, (List.append_nil _).symm⟩
  | cons t r ih =>
    obtain ⟨h1, he1⟩ := appendOut_spec e v d t
    obtain ⟨h2, he2⟩ := ih (appendOut e v d t)
    refine ⟨⟨h2.io.trans h1.io, h2.lanes.trans h1.lanes, h2.spill.trans h1.spill, h2.next.trans h1.next,
      h2.retained.trans h1.retained⟩, ?_⟩
    rw [List.foldl_cons, he2, he1, List.append_assoc]
    rfl

/-- Does a ring hold a block of a sequence number? -/
def ringHolds (s : OutStream) (q : W32) : Bool := s.entries.any fun t => match t with
  | .inline s _ _ _ _ _ => decide (s = q)
  | .ref s _ _ _ => decide (s = q)
  | .sealed _ _ _ _ => false

theorem ringHolds_eq_false_iff (s : OutStream) (q : W32) : ringHolds s q = false ↔
    ∀ y ∈ s.entries, (∀ rho l w b g, y ≠ .inline q rho l w b g) ∧ (∀ rho l w, y ≠ .ref q rho l w) := by
  rw [ringHolds, List.any_eq_false]
  refine forall₂_congr fun y _ => ?_
  cases y with
  | inline s rho l w b g =>
    simp only [decide_eq_true_eq, ne_eq, OutEntry.inline.injEq, reduceCtorEq, not_false_eq_true, implies_true, and_true]
    exact ⟨fun h _ _ _ _ _ hc => h hc.1, fun h hq => h rho l w b g ⟨hq, rfl, rfl, rfl, rfl, rfl⟩⟩
  | ref s rho l w =>
    simp only [decide_eq_true_eq, ne_eq, OutEntry.ref.injEq, reduceCtorEq, not_false_eq_true, implies_true, true_and]
    exact ⟨fun h _ _ _ hc => h hc.1, fun h hq => h rho l w ⟨hq, rfl, rfl, rfl⟩⟩
  | sealed r c g st => simp

/-- The reference entries that a resend report asks for (R73). -/
def resendEntries (x : Valley) (d : Nat) (a : W32) (win : BitVec 256) : List OutEntry :=
  x.retained.flatMap fun r =>
    ((List.range x.m).filter fun p => decide (holderOf x.n x.k x.self (r.line / 16 % x.k) p = outPeer x d)).filterMap
      fun p => match r.seqs.getD p none with
        | some q =>
          if (q - a).toNat < 256 ∧ !bit win (q - a).toNat ∧ !ringHolds (getOut x d) q then
            some (OutEntry.ref q r.reach r.line p)
          else none
        | none => none

theorem resendBlocks_eq (e : Eng) (v d : Nat) (a : W32) (win : BitVec 256) :
    resendBlocks e v d a win = (resendEntries (getV e v) d a win).foldl (fun e t => appendOut e v d t) e := rfl

theorem mem_resendEntries {x : Valley} {d : Nat} {a : W32} {win : BitVec 256} {t : OutEntry} :
    t ∈ resendEntries x d a win ↔ ∃ r ∈ x.retained, ∃ p q, p < x.m ∧
      holderOf x.n x.k x.self (r.line / 16 % x.k) p = outPeer x d ∧ r.seqs.getD p none = some q ∧ (q - a).toNat < 256 ∧
      bit win (q - a).toNat = false ∧ ringHolds (getOut x d) q = false ∧ t = .ref q r.reach r.line p := by
  simp only [resendEntries, List.mem_flatMap, List.mem_filterMap, List.mem_filter, List.mem_range, decide_eq_true_eq]
  refine exists_congr fun r => and_congr_right fun _ => ⟨?_, ?_⟩
  · rintro ⟨p, ⟨hp, hh⟩, ht⟩
    split at ht
    · next q hq =>
      split at ht
      · next hc =>
        obtain ⟨hlt, hb, hr⟩ := hc
        exact ⟨p, q, hp, hh, hq, hlt, by simpa using hb, by simpa using hr, (Option.some.inj ht).symm⟩
      · cases ht
    · cases ht
  · rintro ⟨p, q, hp, hh, hq, hlt, hb, hr, rfl⟩
    refine ⟨p, ⟨hp, hh⟩, ?_⟩
    rw [hq]
    simp only [hlt, hb, hr, Bool.not_false, and_self, if_true]

/-- Settles O28: a seal is held once, and a resend report queues what its window lacks. -/
theorem sealsAndResends : Obligations.SealsAndResends := by
  refine ⟨fun e v sender epoch step rho count digest => ⟨sealIn_of_bad, fun hr hd he => ?_⟩, fun p s v hacc htyp => ?_,
    fun e v d a win t => ?_, fun p s v hacc htyp hk => ?_⟩
  · have hown : ownEpoch e v epoch = true := decide_eq_true he
    refine ⟨fun hn => ?_, fun sl hs => sealIn_of_again hr hd (by rw [hown]; exact hs)⟩
    have hf := sealIn_of_first (step := step) (count := count) (digest := digest) (epoch := epoch) hr hd
      (by rw [hown]; exact hn)
    have hheld (j : Nat) := heldFor_holdSeal true (sealDist e v sender) rho
      { count := count, digest := digest, step := step, ts := e.side.ts } (getV e v) j
    rw [hown] at hf
    rw [hf, getV_updV_same]
    refine ⟨?_, ?_, fun j hj => ?_, rfl⟩
    · have h := hheld rho
      rw [if_pos rfl] at h
      show Tab.find (heldFor true _ rho).seals _ = _
      rw [h, withSeal, Tab.find_set]
      exact if_pos rfl
    · have h := hheld rho
      rw [if_pos rfl] at h
      rw [getHold_eq, h, getHold_eq]
      rfl
    · have h := hheld j
      rw [if_neg hj] at h
      exact h
  · let x := getV s.eng v
    let rho (i : Nat) : Nat := enum (entryAt (bodyOf p) 16 i) 0 4
    let count (i : Nat) : W32 := BitVec.ofNat 32 (enum (entryAt (bodyOf p) 16 i) 4 4)
    let digest (i : Nat) : W64 := BitVec.ofNat 64 (enum (entryAt (bodyOf p) 16 i) 8 8)
    let e := heard s.eng v (hdrOf p).sender
    let f := sealsTo v (hdrOf p).sender (hdrOf p).epoch (hdrOf p).w2 rho count digest e (hdrOf p).count
    have hk : SealKeeps v (hdrOf p).epoch e f := sealKeeps_sealsTo _ _ _ _ _ _ _ _ _
    obtain ⟨win, res, hh⟩ := heard_eq s.eng v (hdrOf p).sender
    have hx : getV e v = { getV s.eng v with peers := (getV e v).peers } := getV_heard _ _ _
    have hio : e.io = s.eng.io := by rw [show e = _ from hh]; rfl
    have hlanes : e.lanes = s.eng.lanes := by rw [show e = _ from hh]; rfl
    have hregs : e.regions = s.eng.regions := by rw [show e = _ from hh]; rfl
    have hside : e.side = s.eng.side := by rw [show e = _ from hh]; rfl
    have hdist : sealDist e v (hdrOf p).sender = subMod x.self (hdrOf p).sender x.n := by rw [sealDist, hx]
    have hown : ownEpoch e v (hdrOf p).epoch = decide ((hdrOf p).epoch = x.epoch) := by rw [ownEpoch, hx]
    have hheld (own : Bool) (r : Nat) : heldFor own (getV e v) r = heldFor own x r := by
      rw [heldFor, heldFor, hx]
    refine ⟨f, (acceptedPacketsAct.1 p 0 s v hacc).2.1 htyp, hk.io.trans hio, hk.lanes.trans hlanes, hk.regions.trans hregs,
      ?_, fun hd i hi hr hfirst => ?_, fun hne => ?_⟩
    · rw [hk.valley, hx]
    · have hfind := find_sealsTo_of_first v (hdrOf p).sender (hdrOf p).epoch (hdrOf p).w2 rho count digest e (i := i)
        (by rw [hdist, hx]; exact hd) (by rw [reachList_congr hregs]; exact hr) hfirst
      rw [hown, hdist, hheld, hside] at hfind
      refine ⟨fun he hnone => ?_, fun hne hnone => ?_⟩
      · rw [decide_eq_true he] at hfind
        exact hfind hnone _ hi
      · rw [decide_eq_false hne] at hfind
        exact hfind hnone _ hi
    · have h := hk.hold (by rw [hx]; exact hne)
      rw [h, hx]
  · obtain ⟨hk, hent⟩ := foldl_appendOut v d (resendEntries (getV e v) d a win) e
    rw [← resendBlocks_eq] at hk hent
    refine ⟨hk.retained, hk.next, ⟨_, hent, ?_⟩, hk.io, hk.lanes, hk.spill⟩
    rw [mem_resendEntries]
    simp only [ringHolds_eq_false_iff]
  · have hrow := (acceptedPacketsAct.1 p 0 s v hacc).2.2.2.2.2.2.1 htyp hk
    rw [getV_heard] at hrow
    exact hrow

end Sys2Proof.Machine

/-!
ACC_DONE and ASYNC_COPY_DONE: the bytes of package memory after the accumulate that is reported done, after the coded
writes that come before it, and after a copy that has arrived (R16, R182).
-/

namespace Sys2Proof.Machine

/-! ## The oldest accumulate to a line -/

/-- The oldest request to a line stands at its place and is of that line. -/
theorem oldestAcc_spec {rs : List AccReq} {l i : Nat} {r : AccReq} (h : oldestAcc rs l = some (i, r)) :
    rs[i]? = some r ∧ r.line = l := by
  induction rs generalizing i with
  | nil => simp [oldestAcc] at h
  | cons x rest ih =>
    simp only [oldestAcc] at h
    split at h
    case isTrue hx =>
      obtain ⟨rfl, rfl⟩ := Prod.mk.inj (Option.some.inj h)
      exact ⟨rfl, hx⟩
    case isFalse =>
      obtain ⟨⟨j, y⟩, hj, hp⟩ := Option.map_eq_some_iff.1 h
      obtain ⟨rfl, rfl⟩ := Prod.mk.inj hp
      exact ih hj

theorem oldestAcc_eq_none {rs : List AccReq} {l : Nat} (h : ∀ r ∈ rs, r.line ≠ l) : oldestAcc rs l = none := by
  induction rs with
  | nil => rfl
  | cons x rest ih =>
    simp [oldestAcc, h x List.mem_cons_self, ih fun r hr => h r (List.mem_cons_of_mem _ hr)]

/-! ## The coded writes that come before it -/

/-- What a write that comes before an accumulate is: of its line, not performed yet, not the engine's own. -/
theorem of_mem_writesBefore {l : Lane} {r : AccReq} {w : LaneWrite} (h : w ∈ writesBefore l r) :
    w.line = r.line ∧ w.inMem = false ∧ w.engine = false := by
  unfold writesBefore at h
  split at h
  · exact absurd h List.not_mem_nil
  · have hp := (List.mem_filter.1 h).2
    simp only [Bool.and_eq_true, decide_eq_true_eq, Bool.not_eq_true'] at hp
    exact ⟨hp.1.1.1, hp.1.2, hp.2⟩

/-- Every write that comes before an accumulate, lane by lane. -/
def allBefore (e : Eng) (r : AccReq) : List LaneWrite := e.lanes.flatMap fun l => writesBefore l.2 r

theorem mem_allBefore {e : Eng} {r : AccReq} {w : LaneWrite} :
    w ∈ allBefore e r ↔ ∃ l ∈ e.lanes, w ∈ writesBefore l.2 r := List.mem_flatMap

theorem writesBefore_foldl {ws : List LaneWrite} (h : ∀ w ∈ ws, w.inMem = false ∧ w.engine = false)
    (m : Mem) : ws.foldl (fun m w => Mem.writeLine m w.line w.be w.new) m = ws.foldl performWrite m := by
  induction ws generalizing m with
  | nil => rfl
  | cons w ws ih =>
    obtain ⟨hm, he⟩ := h w List.mem_cons_self
    rw [List.foldl_cons, List.foldl_cons, ih fun x hx => h x (List.mem_cons_of_mem _ hx)]
    simp [performWrite, hm, he]

/-- Before the accumulate memory changes by the performed writes that come before it. -/
theorem performBefore_mem (m : Mem) (e : Eng) (r : AccReq) :
    (performBefore m e r).1 = (allBefore e r).foldl performWrite m := by
  simp only [performBefore, allBefore, List.foldl_flatMap]
  congr 1
  funext m l
  exact writesBefore_foldl (fun w hw => (of_mem_writesBefore hw).2) m

/-- A byte that none of these writes enables reads as before. -/
theorem get_performBefore_of_not {m : Mem} {e : Eng} {r : AccReq} {a : Nat}
    (h : ∀ l ∈ e.lanes, ∀ w ∈ writesBefore l.2 r, ∀ j, j < 256 → bit w.be j = true → a ≠ 256 * w.line + j) :
    Mem.get (performBefore m e r).1 a = Mem.get m a := by
  rw [performBefore_mem]
  refine get_performWrites_of_not (fun w hw => ?_) m
  obtain ⟨l, hl, hwl⟩ := mem_allBefore.1 hw
  rw [inLine_iff]
  rintro ⟨j, hj, hb, rfl⟩
  exact h l hl w hwl j hj hb rfl

/-- A byte that one of these writes enables, and no other one, reads as that write says. -/
theorem get_performBefore_of_one {m : Mem} {e : Eng} {r : AccReq} {l : Nat × Lane} {w : LaneWrite} {j : Nat}
    (hl : l ∈ e.lanes) (hw : w ∈ writesBefore l.2 r) (hj : j < 256) (hb : bit w.be j = true)
    (ho : ∀ l' ∈ e.lanes, ∀ w' ∈ writesBefore l'.2 r, w' ≠ w → bit w'.be j = false) :
    Mem.get (performBefore m e r).1 (256 * r.line + j) = Line.byte w.new j := by
  obtain ⟨hline, hm, he⟩ := of_mem_writesBefore hw
  have hmod : (256 * r.line + j) % 256 = j := by omega
  have hone := get_performWrites_of_one (ws := allBefore e r) (a := 256 * r.line + j) hm he
    (inLine_iff.2 ⟨j, hj, hb, by rw [hline]⟩) (fun x hx hne hin => ?_) m (.inl (mem_allBefore.2 ⟨l, hl, hw⟩))
  · rwa [hmod, ← performBefore_mem] at hone
  · obtain ⟨l', hl', hxl⟩ := mem_allBefore.1 hx
    have hbx := (Bool.and_eq_true_iff.1 hin).2
    rw [hmod, ho l' hl' x hxl hne] at hbx
    exact Bool.false_ne_true hbx

/-- An accumulate that changes nothing but memory and is done, while no revoke waits. -/
theorem dropAcc_of_no_revokes {e : Eng} (h : e.ctl.revokes = []) (i : Nat) :
    dropAcc e i = { e with io := { e.io with acc := e.io.acc.eraseIdx i } } := by
  have hc : { e.ctl with revokes := e.ctl.revokes.map (countBefore i) } = e.ctl := by
    rw [h, List.map_nil, ← h]
  simp only [dropAcc, hc]

/-! ## A copy that has arrived -/

/-- A byte after bytes were written from an address on. -/
theorem get_writeBytes (m : Mem) (bs : List Byte) (a p : Nat) :
    Mem.get (Mem.writeBytes m p bs) a = if p ≤ a ∧ a < p + bs.length then bs.getD (a - p) 0 else Mem.get m a := by
  induction bs generalizing m p with
  | nil => rw [Mem.writeBytes, List.length_nil, Nat.add_zero, if_neg fun h => Nat.not_lt.2 h.1 h.2]
  | cons b r ih =>
    rw [Mem.writeBytes, ih, Mem.get_put]
    rcases Nat.lt_trichotomy a p with hlt | rfl | hgt
    · rw [if_neg (by omega), if_neg (by omega), if_neg (by omega)]
    · rw [if_neg (by omega), if_pos rfl, if_pos (by simp), Nat.sub_self, List.getD_cons_zero]
    · obtain ⟨k, rfl⟩ : ∃ k, a = p + 1 + k := ⟨a - (p + 1), by omega⟩
      rw [if_neg (show p + 1 + k ≠ p by omega), List.length_cons, show p + 1 + k - (p + 1) = k by omega,
        show p + 1 + k - p = k + 1 by omega, List.getD_cons_succ]
      exact ite_congr (propext (by omega)) (fun _ => rfl) fun _ => rfl

/-- Memory after a copy for an entry that is under way has arrived. -/
theorem copyDone_mem {m : Mem} {e : Eng} {v i : Nat} {data : List Byte} {c : AsyncCopy} {r : Restore} {y : CopyEnt}
    (hc : e.io.copies.find? (fun c => decide (c.v = v)) = some c) (hlen : data.length = c.len)
    (hr : copyRestore (getV e v) c.entry = some (i, r)) (hs : r.stage = .copies) (hy : r.copies[r.entry]? = some y) :
    (copyDone m e v data).1 = Mem.writeBytes m c.dst data := by
  have hbs : (data ++ List.replicate (c.len - data.length) 0).take c.len = data := by
    rw [hlen, Nat.sub_self, List.replicate_zero, List.append_nil, ← hlen, List.take_length]
  simp only [copyDone, hc, hr, hs, hy, hbs]
  split
  · rfl
  · split <;> rfl

/-- Settles O58: the accumulate is the oldest one of its line, and memory changes by the writes before it and by its
enabled bytes (`get_performBefore_of_not`, `get_xorLine`); a copy changes memory by `get_writeBytes`. -/
theorem accumulatesAndCopiesLand : Obligations.AccumulatesAndCopiesLand := by
  intro s
  dsimp only [State.byteAt]
  refine ⟨fun line i r hr => ?_, fun line hno => ?_, fun v data c i r y hc hf hlen hr hs hy => ?_,
    fun v data hc h1 h2 h3 hno => ?_⟩
  · obtain ⟨hat, hline⟩ := oldestAcc_spec hr
    obtain ⟨m, hm⟩ : ∃ m, m = Mem.xorLine (performBefore s.mem s.eng r).1 r.line r.be r.data := ⟨_, rfl⟩
    have hx : exec (.accDone line) s =
        .next { s with mem := m, eng := advance m (accEffect m (dropAcc (performBefore s.mem s.eng r).2 i) r.why) } := by
      show execAccDone line s = _
      simp only [execAccDone, hr, hm]
    refine ⟨_, hx, hat, hline, fun j hj hb => ?_, fun a ha => ?_, fun a ha => get_performBefore_of_not ha,
      fun l hl w hw j hj hb ho => ?_, fun hwhy h1 h2 h3 => ?_⟩
    · have hin : inLine line.toNat r.be (256 * line.toNat + j) = true := inLine_iff.2 ⟨j, hj, hb, rfl⟩
      rw [hm, get_xorLine, hline, if_pos hin, show (256 * line.toNat + j) % 256 = j by omega]
    · have hin : ¬ inLine r.line r.be a = true := by
        rw [inLine_iff, hline]
        rintro ⟨j, hj, hb, rfl⟩
        exact ha j hj hb rfl
      rw [hm, get_xorLine, if_neg hin]
    · have := get_performBefore_of_one (m := s.mem) hl hw hj hb ho
      rwa [hline] at this
    · have hd := dropAcc_of_no_revokes (e := (performBefore s.mem s.eng r).2) h1 i
      show advance m (accEffect m _ r.why) = _
      rw [hwhy, hd]
      exact advance_of_no_waits m h1 h2 h3
  · show execAccDone line s = _
    simp only [execAccDone, oldestAcc_eq_none hno]
  · have hx : exec (.asyncCopyDone v data) s = .next { s with
        mem := (copyDone s.mem s.eng v.val data).1
        eng := advance (copyDone s.mem s.eng v.val data).1 (copyDone s.mem s.eng v.val data).2 } := by
      show execAsyncCopyDone v data s = _
      simp only [execAsyncCopyDone, hc, Bool.not_true, Bool.false_eq_true, if_false]
    refine ⟨_, hx, fun j hj => ?_, fun a ha => ?_⟩
    · show Mem.get _ _ = _
      rw [copyDone_mem hf hlen hr hs hy, get_writeBytes, if_pos (by omega), Nat.add_sub_cancel_left]
    · show Mem.get _ _ = _
      rw [copyDone_mem hf hlen hr hs hy, get_writeBytes, if_neg (by omega)]
  · show execAsyncCopyDone v data s = _
    simp only [execAsyncCopyDone, hc, copyDone, hno, List.find?_nil, Bool.not_true, Bool.false_eq_true, if_false,
      advance_of_no_waits s.mem h1 h2 h3]

end Sys2Proof.Machine

/-!
STORAGE_COMPLETION, PASS_COMPLETION and PORT_TIMEOUT: the descriptor that ends, and what goes on when nothing waits
(R20, R169, R201).
-/

namespace Sys2Proof.Machine

/-! ## Valleys with no work at the ports -/

/-- No Valley has a drain, a restore, an export or a survey under way. -/
def NoWork (e : Eng) : Prop :=
  ∀ w, (getV e w).t1 = none ∧ (getV e w).t2 = none ∧ (getV e w).restores = [] ∧ (getV e w).expo.jobs = [] ∧
    (getV e w).t1o.survey = none

theorem NoWork.congr {e f : Eng} (h : NoWork e) (hv : f.valleys = e.valleys) : NoWork f :=
  fun w => by rw [getV_congr hv]; exact h w

theorem surveyOn_of_none {e : Eng} {v : Nat} (h : (getV e v).t1o.survey = none) : surveyOn e v = e := by
  unfold surveyOn
  cases readFuel with
  | zero => rfl
  | succ n => simp only [runSurvey, h]

theorem runT2_of_none {e : Eng} {v : Nat} (h : (getV e v).t2 = none) : runT2 e v = e := by
  unfold runT2
  cases readFuel with
  | zero => rfl
  | succ n => simp only [readSource, h]

theorem runRestores_of_none (m : Mem) {e : Eng} {v : Nat} (h : (getV e v).restores = []) : runRestores m e v = e := by
  simp [runRestores, h]

theorem growT1_of_none {e : Eng} {v : Nat} (h : (getV e v).t1 = none) : growT1 e v = e := by simp only [growT1, h]

theorem growT2_of_none {e : Eng} {v : Nat} (h : (getV e v).t2 = none) : growT2 e v = e := by simp only [growT2, h]

theorem growExport_of_none {e : Eng} {v : Nat} (h : (getV e v).expo.jobs = []) : growExport e v = e := by
  simp only [growExport, h]

/-- A fold whose every turn leaves the state leaves it. -/
theorem foldl_of_fixed {α β : Type} {f : α → β → α} {a : α} (h : ∀ b, f a b = a) (bs : List β) : bs.foldl f a = a := by
  induction bs with
  | nil => rfl
  | cons b r ih => rw [List.foldl_cons, h, ih]

theorem growAll_of_noWork {e : Eng} (h : NoWork e) : growAll e = e := by
  refine foldl_of_fixed (fun v => ?_) _
  obtain ⟨h1, h2, hr, hj, -⟩ := h v
  simp [growT1_of_none h1, growT2_of_none h2, growExport_of_none hj, hr]

/-- With no work under way, nothing at the ports goes on. -/
theorem pokeAll_of_noWork (m : Mem) {e : Eng} (h : NoWork e) : pokeAll m e = e := by
  have hfold : (Tab.keys e.valleys).foldl (fun e v => runRestores m (runT2 (surveyOn e v) v) v) e = e := by
    refine foldl_of_fixed (fun v => ?_) _
    obtain ⟨-, h2, hr, -, hs⟩ := h v
    rw [surveyOn_of_none hs, runT2_of_none h2, runRestores_of_none m hr]
  rw [pokeAll, runExports_of_no_jobs m fun v => (h v).2.2.2.1, hfold, growAll_of_noWork h]

/-! ## Segments of a drain that is gone -/

/-- With no word to write back, a read of the engine corrects nothing. -/
theorem engineReads_of_clean {e : Eng} (h : e.basin.writeback = []) (p : Nat → Bool) : engineReads e p = e := by
  simp [engineReads, Tab.keys, h]

theorem passThrough_of_clean {α : Type} {e : Eng} {data : List α} (h : data = [] ∨ e.basin.writeback = [])
    (o : PortOwner) : passThrough e data o = e := by
  rcases h with rfl | h
  · rfl
  · unfold passThrough readOwned
    rw [engineReads_of_clean h, ite_self]

/-- A descriptor of a segment of a drain that is gone changes, when it ends, no Valley and nothing of the control
processor, and posts nothing. -/
theorem segEnd_of_noWork {m : Mem} {e : Eng} {v n : Nat} (tag : Nat) (good : Bool) (data : List W64)
    (h : (getV e v).t1 = none) (ho : e.io.oldSegs = []) :
    let f := stoOwner m e tag good data (.t1Seg v n)
    f.valleys = e.valleys ∧ f.ctl = e.ctl ∧ f.side = e.side ∧ f.io.sto = e.io.sto := by
  cases good
  · simp [stoOwner, segFailed, h, updIo]
  · simp [stoOwner, segDone, h, ho]

/-! ## A completion whose tag is not outstanding -/

theorem find_tag_eq_none {α : Type} {ds : List α} {tagOf : α → W16} {tag : W16} (h : ∀ d ∈ ds, tagOf d ≠ tag) :
    ds.find? (fun d => decide (tagOf d = tag)) = none :=
  List.find?_eq_none.2 fun d hd => by simpa using h d hd

/-- Settles O59: each row by whether its tag is outstanding; with nothing under way what follows a descriptor's end is
nothing (`pokeAll_of_noWork`). -/
theorem portCompletions : Obligations.PortCompletions := by
  intro s tag status bytes data hc
  have hsto : exec (.storageCompletion tag status data) s =
      .next { s with eng := storageDone s.mem s.eng tag status data } := by
    show execStorageCompletion tag status data s = _
    rw [execStorageCompletion, if_pos hc]
  have hpass : exec (.passCompletion tag status bytes data) s =
      .next { s with eng := passDone s.mem s.eng tag status data } := by
    show execPassCompletion tag status bytes data s = _
    rw [execPassCompletion, if_pos hc]
  have hlate (p : Port) : exec (.portTimeout p tag) s = .next { s with eng := portExpired s.mem s.eng p tag } := by
    show execPortTimeout p tag s = _
    rw [execPortTimeout, if_pos hc]
  refine ⟨fun hno => ?_, fun hno => ?_, fun d hd => ?_, fun d hd => ?_, ?_⟩
  · have hf := find_tag_eq_none (tagOf := StoDesc.tag) hno
    exact ⟨by rw [hsto]; simp only [storageDone, hf], by rw [hlate]; simp only [portExpired, hf]⟩
  · have hf := find_tag_eq_none (tagOf := PassDesc.tag) hno
    exact ⟨by rw [hpass]; simp only [passDone, hf], by rw [hlate]; simp only [portExpired, hf]⟩
  · refine ⟨?_, fun hdue => ?_, fun hdue => ?_⟩
    · rw [hsto]
      simp only [storageDone, hd, stoEnd, updIo]
    · rw [hlate]
      simp only [portExpired, hd, decide_eq_true hdue, if_true, stoEnd, updIo]
    · rw [hlate]
      simp only [portExpired, hd, decide_eq_false (Nat.not_le.2 hdue), Bool.false_eq_true, if_false]
  · refine ⟨?_, fun hdue => ?_, fun hdue => ?_⟩
    · rw [hpass]
      simp only [passDone, hd, passEnd, updIo]
    · rw [hlate]
      simp only [portExpired, hd, decide_eq_true hdue, if_true, passEnd, updIo]
    · rw [hlate]
      simp only [portExpired, hd, decide_eq_false (Nat.not_le.2 hdue), Bool.false_eq_true, if_false]
  · intro v d hd htag howner hr hs hp hdata hwork hold
    have hwork : NoWork s.eng := hwork
    obtain ⟨e, he⟩ : ∃ e, e = updIo s.eng fun io => { io with sto := io.sto.erase d } := ⟨_, rfl⟩
    have hev : e.valleys = s.eng.valleys := by rw [he]; rfl
    have hpt : passThrough e data d.owner = e := passThrough_of_clean (by rw [he]; exact hdata) _
    have hseg := segEnd_of_noWork (m := s.mem) (n := 0) d.tag.toNat (decide (status = 0)) data
      ((hwork.congr hev v).1) (by rw [he]; exact hold)
    rw [← howner] at hseg
    have hfind : s.eng.io.sto.find? (fun d => decide (d.tag = tag)) = some d := by simp [hd, htag]
    have hdone : storageDone s.mem s.eng tag status data =
        advance s.mem (pokeAll s.mem (stoOwner s.mem e d.tag.toNat (decide (status = 0)) data d.owner)) := by
      simp only [storageDone, hfind, stoEnd, ← he, hpt]
    obtain ⟨hfv, hfc, hfs, hfsto⟩ := hseg
    rw [pokeAll_of_noWork s.mem ((hwork.congr hev).congr hfv),
      advance_of_no_waits s.mem (by rw [hfc, he]; exact hr) (by rw [hfc, he]; exact hs) (by rw [hfs, he]; exact hp)] at hdone
    refine ⟨_, hsto, rfl, ?_, ?_, ?_⟩ <;> rw [hdone]
    · rw [hfsto, he]
      simp [updIo, hd]
    · exact hfv.trans hev
    · rw [hfc, he]
      rfl

end Sys2Proof.Machine

/-!
The Basin's stored words, its pages, the patrol and the upkeep of both (R98, R99, R210 to R217, R295).
-/

namespace Sys2Proof.Machine

/-! ## Tables -/

theorem Tab.get_filter {α : Type} (d : α) (t : Tab α) (P : Nat → Prop) [DecidablePred P] (k : Nat) :
    Tab.get d (t.filter fun w => decide (P w.1)) k = if P k then Tab.get d t k else d := by
  induction t with
  | nil => simp [Tab.get]
  | cons p r ih =>
    by_cases hp : P p.1
    · rw [List.filter_cons_of_pos (by simpa using hp), Tab.get, Tab.get, ih]
      by_cases hk : k = p.1
      · rw [if_pos hk, if_pos hk, if_pos (hk ▸ hp)]
      · rw [if_neg hk, if_neg hk]
    · rw [List.filter_cons_of_neg (by simpa using hp), ih, Tab.get]
      by_cases hk : k = p.1
      · rw [if_neg (hk ▸ hp), if_neg (hk ▸ hp)]
      · rw [if_neg hk]

theorem Tab.get_eq_find {α : Type} (d : α) (t : Tab α) (k : Nat) : Tab.get d t k = (Tab.find t k).getD d := by
  induction t with
  | nil => rfl
  | cons p r ih =>
    rw [Tab.get, Tab.find, ih]
    split <;> rfl

theorem leastFrom_some {p : Nat → Bool} {n i g : Nat} (h : leastFrom p n i = some g) : p g = true ∧ i ≤ g ∧ g < i + n := by
  induction n generalizing i with
  | zero => cases h
  | succ n ih =>
    rw [leastFrom] at h
    split at h
    case isTrue hi =>
      obtain rfl := Option.some.inj h
      exact ⟨hi, by omega, by omega⟩
    case isFalse =>
      obtain ⟨hg, hle, hlt⟩ := ih h
      exact ⟨hg, by omega, by omega⟩

theorem leastFrom_eq {p : Nat → Bool} {n i g : Nat} (hg : p g = true) (hi : i ≤ g) (hn : g < i + n)
    (hlow : ∀ j, i ≤ j → j < g → p j = false) : leastFrom p n i = some g := by
  induction n generalizing i with
  | zero => omega
  | succ n ih =>
    rcases Nat.eq_or_lt_of_le hi with rfl | hlt
    · rw [leastFrom, if_pos hg]
    · rw [leastFrom, hlow i (Nat.le_refl i) hlt, if_neg Bool.false_ne_true]
      exact ih hlt (by omega) fun j hj => hlow j (by omega)

/-! ## Stored words (R210, R218) -/

/-- A word listed unless it is zero. -/
def putWord (t : Tab StoredWord) (k : Nat) (w : StoredWord) : Tab StoredWord := if w = 0 then Tab.del t k else Tab.set t k w

theorem get_putWord (t : Tab StoredWord) (k : Nat) (w : StoredWord) (j : Nat) :
    Tab.get 0 (putWord t k w) j = if j = k then w else Tab.get 0 t j := by
  unfold putWord
  split
  · next hw => rw [Tab.get_del, hw]
  · rw [Tab.get_set]

theorem putStored_of_remap {e : Eng} {g r : Nat} (h : remapOf e g = some r) (i : Nat) (w : StoredWord) :
    putStored e g i w = { e with basin := { e.basin with spare := putWord e.basin.spare (16 * r + i) w } } := by
  simp only [putStored, h, putWord]

theorem putStored_of_none {e : Eng} {g : Nat} (h : remapOf e g = none) (i : Nat) (w : StoredWord) :
    putStored e g i w = { e with basin := { e.basin with words := putWord e.basin.words (16 * g + i) w } } := by
  simp only [putStored, h, putWord]

theorem storedAt_of_remap {e : Eng} {g r : Nat} (h : remapOf e g = some r) (i : Nat) :
    storedAt e g i = Tab.get 0 e.basin.spare (16 * r + i) := by
  simp only [storedAt, h]

theorem storedAt_of_none {e : Eng} {g : Nat} (h : remapOf e g = none) (i : Nat) :
    storedAt e g i = Tab.get 0 e.basin.words (16 * g + i) := by
  simp only [storedAt, h]

theorem remapOf_congr {e f : Eng} (h : f.regs.remap = e.regs.remap) (g : Nat) : remapOf f g = remapOf e g := by
  rw [remapOf, remapOf, h]

/-- A put word is the word stored there. -/
theorem storedAt_putStored_same (e : Eng) (g i : Nat) (w : StoredWord) : storedAt (putStored e g i w) g i = w := by
  have hrm := remapOf_congr (f := putStored e g i w) (e := e) (by rw [putStored_eq]) g
  cases h : remapOf e g with
  | none => rw [storedAt_of_none (hrm.trans h), putStored_of_none h]; simp only [get_putWord, if_pos]
  | some r => rw [storedAt_of_remap (hrm.trans h), putStored_of_remap h]; simp only [get_putWord, if_pos]

/-- Where a function gives no value twice, two members of the list with one value are one. -/
theorem eq_of_map_nodup {α β : Type} {f : α → β} {xs : List α} {a b : α} (hd : (xs.map f).Nodup) (ha : a ∈ xs)
    (hb : b ∈ xs) (h : f a = f b) : a = b := by
  induction xs with
  | nil => cases ha
  | cons x r ih =>
    obtain ⟨hx, hr⟩ := List.nodup_cons.1 hd
    rcases List.mem_cons.1 ha with rfl | har
    · rcases List.mem_cons.1 hb with rfl | hbr
      · rfl
      · exact absurd (List.mem_map.2 ⟨b, hbr, h.symm⟩) hx
    · rcases List.mem_cons.1 hb with rfl | hbr
      · exact absurd (List.mem_map.2 ⟨a, har, h⟩) hx
      · exact ih hr har hbr

/-- No two pages are remapped to one entry, each entry being listed once. -/
theorem remapOf_inj {e : Eng} (hd : (e.regs.remap.map (·.1)).Nodup) {g j r : Nat} (hg : remapOf e g = some r)
    (hj : remapOf e j = some r) : g = j := by
  unfold remapOf at hg hj
  obtain ⟨⟨_, x⟩, hx, rfl⟩ := Option.map_eq_some_iff.1 hg
  obtain ⟨⟨r, y⟩, hy, hr⟩ := Option.map_eq_some_iff.1 hj
  have hxy := eq_of_map_nodup hd (List.mem_of_find?_eq_some hx) (List.mem_of_find?_eq_some hy) hr.symm
  have hpx := List.find?_some hx
  have hpy := List.find?_some hy
  simp only [Bool.and_eq_true, decide_eq_true_eq] at hpx hpy
  rw [← hpx.2, ← hpy.2, (Prod.mk.inj hxy).2]

/-- The other stored words stay, each remap entry being listed once. -/
theorem storedAt_putStored_ne {e : Eng} (hd : (e.regs.remap.map (·.1)).Nodup) {g i : Nat} (w : StoredWord) {h j : Nat}
    (hi : i < 16) (hj : j < 16) (hne : (h, j) ≠ (g, i)) : storedAt (putStored e g i w) h j = storedAt e h j := by
  have hrm := remapOf_congr (f := putStored e g i w) (e := e) (by rw [putStored_eq]) h
  cases hg : remapOf e g with
  | none =>
    cases hh : remapOf e h with
    | none =>
      have hk : 16 * h + j ≠ 16 * g + i := fun heq => hne (Prod.ext (by dsimp only; omega) (by dsimp only; omega))
      rw [storedAt_of_none (hrm.trans hh), storedAt_of_none hh, putStored_of_none hg]
      simp only [get_putWord, if_neg hk]
    | some r => rw [storedAt_of_remap (hrm.trans hh), storedAt_of_remap hh, putStored_of_none hg]
  | some q =>
    cases hh : remapOf e h with
    | none => rw [storedAt_of_none (hrm.trans hh), storedAt_of_none hh, putStored_of_remap hg]
    | some r =>
      have hk : 16 * r + j ≠ 16 * q + i := fun heq => by
        obtain ⟨rfl, rfl⟩ : r = q ∧ j = i := by omega
        exact hne (by rw [remapOf_inj hd hh hg])
      rw [storedAt_of_remap (hrm.trans hh), storedAt_of_remap hh, putStored_of_remap hg]
      simp only [get_putWord, if_neg hk]

/-- Putting a word changes the words alone. -/
theorem putStored_basin (e : Eng) (g i : Nat) (w : StoredWord) : (putStored e g i w).basin =
    { e.basin with words := (putStored e g i w).basin.words, spare := (putStored e g i w).basin.spare } := by
  cases h : remapOf e g with
  | none => rw [putStored_of_none h]
  | some r => rw [putStored_of_remap h]

/-- A written word holds no error. -/
theorem storedAt_writeWord (e : Eng) (k : Nat) : storedAt (writeWord e k) (k / 16) (k % 16) = 0 :=
  storedAt_putStored_same e (k / 16) (k % 16) 0

theorem writeWord_owners (e : Eng) (k : Nat) : (writeWord e k).basin.owners = e.basin.owners := by
  show (putStored e _ _ _).basin.owners = _
  rw [putStored_basin]

/-! ## Pages (R98, R216) -/

/-- With the words of a page zero where they lie, the page reads zero. -/
theorem storedAt_zeroWords {e f : Eng} {g : Nat} (hr : f.regs.remap = e.regs.remap) {b : Basin}
    (hw : f.basin.words = (zeroWords e b g).words) (hs : f.basin.spare = (zeroWords e b g).spare) {i : Nat} (hi : i < 16) :
    storedAt f g i = 0 := by
  have hrm := remapOf_congr hr g
  cases h : remapOf e g with
  | none =>
    rw [storedAt_of_none (hrm.trans h), hw]
    show Tab.get 0 (b.words.filter fun w => decide (w.1 / 16 ≠ g)) _ = _
    rw [Tab.get_filter 0 b.words fun k => k / 16 ≠ g]
    exact if_neg (Classical.not_not.2 (by omega))
  | some r =>
    rw [storedAt_of_remap (hrm.trans h), hs]
    simp only [zeroWords, h]
    rw [Tab.get_filter 0 b.spare fun k => k / 16 ≠ r]
    exact if_neg (Classical.not_not.2 (by omega))

theorem openWords_owners (e : Eng) (b : Basin) (g : Nat) : (openWords e b g).owners = b.owners := by
  unfold openWords
  split <;> rfl

theorem openWords_valid (e : Eng) (b : Basin) (g h : Nat) :
    Tab.get false (openWords e b g).valid h = if h = g then true else Tab.get false b.valid h := by
  unfold openWords
  split
  case isTrue hg =>
    split
    · next hh => rw [hh, hg]
    · rfl
  case isFalse => exact Tab.get_set false b.valid g h true

/-- The free page that is next lies in its partition's banks. -/
theorem nextPage_spec {e : Eng} {p g : Nat} (h : nextPage e p = some g) :
    pageFree e g = true ∧ 512 * (partBanks e.regs p).1 ≤ g ∧ g < 512 * ((partBanks e.regs p).1 + (partBanks e.regs p).2) := by
  unfold nextPage at h
  split at h
  case h_1 g1 h1 =>
    obtain ⟨hf, hlo, hhi⟩ := leastFrom_some h1
    split at h
    case h_1 g2 h2 =>
      obtain rfl := Option.some.inj h
      obtain ⟨hp, hlo2, hhi2⟩ := leastFrom_some h2
      exact ⟨(Bool.and_eq_true_iff.1 hp).1, by omega, by omega⟩
    case h_2 =>
      obtain rfl := Option.some.inj h
      exact ⟨hf, hlo, by omega⟩
  case h_2 => cases h

theorem allocPage_next {e f : Eng} {p g : Nat} {o : PageOwner} (h : allocPage e p o = some (g, f)) :
    nextPage e p = some g := by
  unfold allocPage at h
  split at h
  case h_1 hn => rw [hn, (Prod.mk.inj (Option.some.inj h)).1]
  case h_2 => cases h

theorem foldl_freeOne_words (e : Eng) (gs : List Nat) (b : Basin) (k : Nat) :
    Tab.get 0 (gs.foldl (freeOne e) b).words k = if k / 16 ∈ gs then 0 else Tab.get 0 b.words k := by
  induction gs generalizing b with
  | nil => simp
  | cons g r ih =>
    rw [List.foldl_cons, ih]
    show (if k / 16 ∈ r then 0 else Tab.get 0 (b.words.filter fun w => decide (w.1 / 16 ≠ g)) k) = _
    rw [Tab.get_filter 0 b.words fun k => k / 16 ≠ g]
    by_cases hr : k / 16 ∈ r
    · rw [if_pos hr, if_pos (List.mem_cons_of_mem _ hr)]
    · simp only [List.mem_cons, hr, or_false, if_false, ne_eq, ite_not]

theorem freeOne_spare_zero {e : Eng} {b : Basin} {k : Nat} (h : Tab.get 0 b.spare k = 0) (g : Nat) :
    Tab.get 0 (freeOne e b g).spare k = 0 := by
  cases hr : remapOf e g with
  | none => simpa only [freeOne, zeroWords, hr] using h
  | some r =>
    simp only [freeOne, zeroWords, hr]
    rw [Tab.get_filter 0 b.spare fun k => k / 16 ≠ r, h, ite_self]

theorem foldl_freeOne_spare {e : Eng} {gs : List Nat} {g r i : Nat} (hr : remapOf e g = some r) (hi : i < 16) {b : Basin}
    (h : g ∈ gs ∨ Tab.get 0 b.spare (16 * r + i) = 0) : Tab.get 0 (gs.foldl (freeOne e) b).spare (16 * r + i) = 0 := by
  induction gs generalizing b with
  | nil => exact h.resolve_left List.not_mem_nil
  | cons x gs ih =>
    refine ih ?_
    by_cases hx : x = g
    · right
      simp only [hx, freeOne, zeroWords, hr]
      rw [Tab.get_filter 0 b.spare fun k => k / 16 ≠ r]
      exact if_neg (Classical.not_not.2 (by omega))
    · exact h.imp (fun hm => (List.mem_cons.1 hm).resolve_left (Ne.symm hx)) fun hz => freeOne_spare_zero hz x

theorem storedAt_freeBasin {e : Eng} {gs : List Nat} {g i : Nat} (hg : g ∈ gs) (hi : i < 16) :
    storedAt (freeBasin e gs) g i = 0 := by
  have hrm := remapOf_congr (f := freeBasin e gs) (e := e) rfl g
  cases h : remapOf e g with
  | none =>
    rw [storedAt_of_none (hrm.trans h), freeBasin_eq]
    exact (foldl_freeOne_words e gs e.basin _).trans (if_pos (by rwa [show (16 * g + i) / 16 = g by omega]))
  | some r =>
    rw [storedAt_of_remap (hrm.trans h), freeBasin_eq]
    exact foldl_freeOne_spare h hi (.inl hg)

/-! ## Reads (R211 to R217) -/

theorem basinRead_of_clean (m : Mem) {e : Eng} {g i : Nat} (hb : (readWord (storedAt e g i)).bad = 0)
    (hc : (readWord (storedAt e g i)).corr = 0) : (basinRead m e g i).2 = e := by
  simp [basinRead, hb, hc]

theorem basinRead_of_corrected (m : Mem) {e : Eng} {g i : Nat} (hb : (readWord (storedAt e g i)).bad = 0)
    (hc : (readWord (storedAt e g i)).corr = 1) : (basinRead m e g i).2 = correctedRead e g i 1 := by
  simp [basinRead, hb, hc]

theorem basinRead_of_bad (m : Mem) {e : Eng} {g i : Nat} (hb : (readWord (storedAt e g i)).bad ≠ 0) :
    (basinRead m e g i).2 = uncorrectable m e g i (readWord (storedAt e g i)).bad := by
  simp [basinRead, hb]

/-- One corrected sub-word, the first of its page, with room in the bucket: counted, marked for write-back and noted as a
candidate, and no event. -/
theorem correctedRead_of_room {e : Eng} (g i : Nat) (hroom : e.basin.level + 1 ≤ Regs.bucketSize e.regs)
    (hcand : e.basin.cand = []) (hth : 1 < Regs.remapThresh e.regs) :
    correctedRead e g i 1 = { e with
      cnt := { e.cnt with bCorr := satInc e.cnt.bCorr }
      basin := { e.basin with
        level := e.basin.level + 1, sinceEvt := min (e.basin.sinceEvt + 1) 0xFFFFFFFF
        writeback := Tab.set e.basin.writeback (16 * g + i) (g / 512), cand := [(g, 1)] } } := by
  have hcount : countCorrectedN 1 e = { e with
      cnt := { e.cnt with bCorr := satInc e.cnt.bCorr }
      basin := { e.basin with level := e.basin.level + 1, sinceEvt := min (e.basin.sinceEvt + 1) 0xFFFFFFFF } } := by
    show countCorrected e = _
    rw [countCorrected, if_neg (Nat.not_lt.2 hroom)]
  simp only [correctedRead, hcount, candidate, hcand, List.find?_nil, Option.map_none, Option.getD_none, Nat.zero_add,
    List.filter_nil, List.take_nil, if_neg (Nat.not_le.2 hth)]
  rfl

/-- An uncorrectable word of a page that nobody owns and that is remapped already: counted and reported, and the word is
lost. -/
theorem uncorrectable_of_unowned (m : Mem) {e : Eng} {g : Nat} (i mask : Nat) (ho : Tab.find e.basin.owners g = none)
    (hr : remapOf e g ≠ none) :
    uncorrectable m e g i mask = writeWord (raise { e with cnt := { e.cnt with bUncorr := satInc e.cnt.bUncorr } } evBasinFault
      stOutOfRange none (pack [(0, g), (16, partOfBank e.regs (g / 512)), (32, 0)]) (pack [(0, i), (16, mask)]))
      (16 * g + i) := by
  obtain ⟨e1, he1⟩ : ∃ e1 : Eng, e1 = { e with cnt := { e.cnt with bUncorr := satInc e.cnt.bUncorr } } := ⟨_, rfl⟩
  have ho1 : Tab.find e1.basin.owners g = none := by rw [he1]; exact ho
  obtain ⟨e2, he2⟩ : ∃ e2, e2 = raise e1 evBasinFault stOutOfRange none
    (pack [(0, g), (16, partOfBank e1.regs (g / 512)), (32, 0)]) (pack [(0, i), (16, mask)]) := ⟨_, rfl⟩
  have hev : OnlyEvents e1 e2 := by rw [he2]; exact onlyEvents_raise _ _ _ _ _ _
  have hrm : (remapOf e2 g).isSome = true := by
    have h2 : e2.regs.remap = e.regs.remap := by rw [hev.answers.regs, he1]
    rw [remapOf_congr h2 g]
    exact Option.isSome_iff_ne_none.2 hr
  have hpage : remapPage e2 g = e2 := by rw [remapPage, if_pos hrm]
  have ho2 : Tab.find e2.basin.owners g = none := by rw [hev.answers.basin]; exact ho1
  have howner : faultOwner m e2 g i = e2 := by simp only [faultOwner, ho2]
  have hne : ¬ Tab.find e.basin.owners g = some .events := by rw [ho]; exact nofun
  have hlost : lostBits e1 g i = [] := by simp [lostBits, ho1]
  have hval : faultValleys e1 g i = [] := by simp only [faultValleys, ho1]
  rw [he1] at hlost hval he2
  simp only [uncorrectable, if_neg hne, hlost, hval, List.append_nil]
  show writeWord (faultOwner m (remapPage (raise _ _ _ _ (pack [_, _, (32, 0)]) _) g) g i) _ = _
  rw [← he2, hpage, howner]

/-! ## The patrol (R213) -/

/-- With its gap over, the patrol of a bank reads its next word with the bit errors that it has taken. -/
theorem patrolRead_of_due {m : Mem} {e : Eng} {b w : Nat} (flips : StoredWord) (hc : ctlOn e = true)
    (hd : patrolDue e b = true) (hn : nextPatrol (validPages e b) (Tab.get 0 e.basin.patrolAt b) = some w) :
    patrolRead m e b flips =
      let e1 : Eng := { e with basin := { e.basin with
        patrolAt := Tab.set e.basin.patrolAt b (w + 1), patrolTs := Tab.set e.basin.patrolTs b e.side.ts } }
      advance m (basinRead m (putStored e1 (w / 16) (w % 16) (storedAt e (w / 16) (w % 16) ^^^ flips)) (w / 16) (w % 16)).2 := by
  simp [patrolRead, hc, hd, hn]

/-- The patrol's next word, before anything is made of what it holds. -/
def patrolled (e : Eng) (b w : Nat) (flips : StoredWord) : Eng :=
  putStored { e with basin := { e.basin with
    patrolAt := Tab.set e.basin.patrolAt b (w + 1), patrolTs := Tab.set e.basin.patrolTs b e.side.ts } }
    (w / 16) (w % 16) (storedAt e (w / 16) (w % 16) ^^^ flips)

theorem patrolled_eq (e : Eng) (b w : Nat) (flips : StoredWord) : patrolled e b w flips = { e with basin := { e.basin with
    patrolAt := Tab.set e.basin.patrolAt b (w + 1), patrolTs := Tab.set e.basin.patrolTs b e.side.ts
    words := (patrolled e b w flips).basin.words, spare := (patrolled e b w flips).basin.spare } } := by
  conv => lhs; rw [patrolled, putStored_eq, putStored_basin]
  rfl

/-! ## Freed spill pages (R99) -/

/-- The accumulate of a difference to a line. -/
def diffReq (e : Eng) (l : Nat) (d : Line) (why : AccWhy) : AccReq :=
  { line := l, be := nzMask d, data := d, why := why, after := e.io.writes }

theorem accumDiff_acc {d : Line} (hd : d ≠ 0) (e : Eng) (l : Nat) (why : AccWhy) :
    (accumDiff e l d why).io.acc = e.io.acc ++ [diffReq e l d why] := by
  rw [accumDiff, if_neg hd]
  rfl

/-- Accumulating lines into themselves issues accumulates of non-zero data. -/
theorem foldl_accumDiff_new (m : Mem) (ls : List Nat) (why : AccWhy) (e : Eng) :
    ∃ new, (ls.foldl (fun e l => accumDiff e l (loadLine m e l) why) e).io.acc = e.io.acc ++ new ∧
      ∀ r ∈ new, r.why = why ∧ r.data ≠ 0 := by
  induction ls generalizing e with
  | nil => exact ⟨[], (List.append_nil _).symm, fun r hr => absurd hr List.not_mem_nil⟩
  | cons l r ih =>
    obtain ⟨new, hacc, hnew⟩ := ih (accumDiff e l (loadLine m e l) why)
    by_cases hz : loadLine m e l = 0
    · refine ⟨new, ?_, hnew⟩
      rw [List.foldl_cons, hacc, accumDiff, if_pos hz]
    · refine ⟨diffReq e l (loadLine m e l) why :: new, ?_, List.forall_mem_cons.2 ⟨⟨rfl, hz⟩, hnew⟩⟩
      rw [List.foldl_cons, hacc, accumDiff_acc hz, List.append_assoc, List.singleton_append]

/-- Zeroing a range that does not read zero issues at least one accumulate. -/
theorem zeroRange_new {m : Mem} {e : Eng} {a n : Nat} (why : AccWhy) (h : readsZero m e a n = false) :
    ∃ new, (zeroRange m e a n why).io.acc = e.io.acc ++ new ∧ new ≠ [] ∧ ∀ r ∈ new, r.why = why ∧ r.data ≠ 0 := by
  unfold zeroRange
  unfold readsZero at h
  generalize touchedLines m e a n = ls at h
  induction ls with
  | nil => cases h
  | cons l r ih =>
    by_cases hz : loadLine m e l = 0
    · rw [List.foldl_cons, hz, accumDiff, if_pos rfl]
      exact ih (by rwa [List.all_cons, decide_eq_true hz, Bool.true_and] at h)
    · obtain ⟨new, hacc, hnew⟩ := foldl_accumDiff_new m r why (accumDiff e l (loadLine m e l) why)
      refine ⟨diffReq e l (loadLine m e l) why :: new, ?_, List.cons_ne_nil _ new,
        List.forall_mem_cons.2 ⟨⟨rfl, hz⟩, hnew⟩⟩
      rw [List.foldl_cons, hacc, accumDiff_acc hz, List.append_assoc, List.singleton_append]

theorem exec_spillPageZero {s : State} (hc : ctlOn s.eng = true) :
    exec .spillPageZero s = .next { s with eng := advance s.mem (zeroSpillPage s.mem s.eng) } := by
  show execSpillPageZero s = _
  rw [execSpillPageZero, if_pos hc]

/-! ## The rows -/

/-- PATROL_READ when it is due and nothing else waits: what reading the patrol's word makes of the engine. -/
theorem exec_patrolRead {bank : Fin 32} {flips : StoredWord} {s : State} {w : Nat} {t : Eng} (hc : ctlOn s.eng = true)
    (hd : patrolDue s.eng bank.val = true)
    (hn : nextPatrol (validPages s.eng bank.val) (Tab.get 0 s.eng.basin.patrolAt bank.val) = some w)
    (ht : (basinRead s.mem (patrolled s.eng bank.val w flips) (w / 16) (w % 16)).2 = t)
    (h1 : t.ctl.revokes = []) (h2 : t.ctl.stops = []) (h3 : t.side.pwrWait = none) :
    exec (.patrolRead bank flips) s = .next { s with eng := t } := by
  show Host.Outcome.next { s with eng := patrolRead s.mem s.eng bank.val flips } = _
  rw [patrolRead_of_due flips hc hd hn]
  show Host.Outcome.next { s with
    eng := advance s.mem (basinRead s.mem (patrolled s.eng bank.val w flips) (w / 16) (w % 16)).2 } = _
  rw [ht, advance_of_no_waits s.mem h1 h2 h3]

/-- BASIN_WRITEBACK with a word of the bank waiting. -/
theorem writeBack_of_some {e : Eng} {bank k b : Nat} (h : e.basin.writeback.find? (fun y => decide (y.2 = bank)) = some (k, b)) :
    writeBack e bank = { putStored e (k / 16) (k % 16) (storeWord (readWord (storedAt e (k / 16) (k % 16))).data) with
      basin := { (putStored e (k / 16) (k % 16) (storeWord (readWord (storedAt e (k / 16) (k % 16))).data)).basin with
        writeback := Tab.del (putStored e (k / 16) (k % 16)
          (storeWord (readWord (storedAt e (k / 16) (k % 16))).data)).basin.writeback k } } := by
  simp only [writeBack, h]

/-- PAGE_OPEN of a running bank with a page to open and fewer than four opened ones. -/
theorem openPage_of_lowest {e : Eng} {b g : Nat} (hc : ctlOn e = true) (hg : bit e.basin.gated b = false)
    (hs : stockOf e b < 4) (hlo : 512 * b ≤ g) (hhi : g < 512 * b + 512) (hv : pageValid e g = false)
    (hlow : ∀ j, 512 * b ≤ j → j < g → pageValid e j = true) :
    openPage e b = { e with basin := { zeroWords e e.basin g with valid := Tab.set e.basin.valid g true } } := by
  have hl : leastFrom (fun g => !pageValid e g) 512 (512 * b) = some g :=
    leastFrom_eq (by rw [hv]; rfl) hlo (by omega) fun j h1 h2 => by rw [hlow j h1 h2]; rfl
  have ho : openWords e e.basin g = { zeroWords e e.basin g with valid := Tab.set e.basin.valid g true } :=
    if_neg (by rw [show Tab.get false e.basin.valid g = false from hv]; exact Bool.false_ne_true)
  simp only [openPage, hc, hg, decide_eq_false (Nat.not_le.2 hs), hl, ho, Bool.not_true, Bool.or_self, Bool.false_eq_true,
    if_false]

/-- Settles O60: the patrol by what reading its word makes of the engine, the timers by their guards, and pages by what
owning and freeing make of the Basin. -/
theorem basinPatrolAndUpkeep : Obligations.BasinPatrolAndUpkeep := by
  refine ⟨fun bank flips s w hc => ?_, fun bank s hc => ?_, fun e f p g o ha => ?_, fun e gs => ⟨fun g hg => ?_, fun g hg => ?_⟩⟩
  · intro e1 r
    have hwb : exec (.basinWriteback bank) s = .next { s with eng := writeBack s.eng bank.val } := by
      show execBasinWriteback bank s = _
      rw [execBasinWriteback, if_pos hc]
    refine ⟨fun hd => ?_, fun hd h1 h2 h3 hn => ?_, fun hno => ?_, fun k b hdist hfind => ?_⟩
    · show Host.Outcome.next { s with eng := patrolRead s.mem s.eng bank.val flips } = _
      simp [patrolRead, hd]
    · obtain ⟨f, hf⟩ : ∃ f, f = patrolled s.eng bank.val w flips := ⟨_, rfl⟩
      have hfe := hf.trans (patrolled_eq s.eng bank.val w flips)
      have hat : readWord (storedAt f (w / 16) (w % 16)) = r := by
        rw [hf]
        exact congrArg readWord (storedAt_putStored_same e1 (w / 16) (w % 16) _)
      have hk : 16 * (w / 16) + w % 16 = w := by omega
      refine ⟨fun hb hcorr => ?_, fun hb hcorr hroom hcand hth => ?_, fun hb ho hrm => ?_⟩
      · rw [exec_patrolRead hc hd hn (basinRead_of_clean s.mem (by rw [← hf, hat, hb]) (by rw [← hf, hat, hcorr]))
          (by rw [← hf, hfe]; exact h1) (by rw [← hf, hfe]; exact h2) (by rw [← hf, hfe]; exact h3)]
        rfl
      · have hfix := correctedRead_of_room (e := f) (w / 16) (w % 16) (by rw [hfe]; exact hroom) (by rw [hfe]; exact hcand)
          (by rw [hfe]; exact hth)
        have hread := basinRead_of_corrected s.mem (e := f) (by rw [hat, hb]) (by rw [hat, hcorr])
        refine ⟨{ s with eng := correctedRead f (w / 16) (w % 16) 1 },
          exec_patrolRead hc hd hn (by rw [← hf]; exact hread) ?_ ?_ ?_, rfl, ?_, ?_, ?_, ?_, ?_, ?_⟩ <;> rw [hfix]
        · rw [hfe]
          exact h1
        · rw [hfe]
          exact h2
        · rw [hfe]
          exact h3
        · rw [hfe]
        · rw [hfe]
        · rw [Tab.has, hk, Tab.find_set, if_pos rfl]
          rfl
        · rw [hfe]
        · rw [hfe]
      · intro ev
        have hread := (basinRead_of_bad s.mem (e := f) (by rw [hat]; exact hb)).trans
          (uncorrectable_of_unowned s.mem (w % 16) _ (by rw [hfe]; exact ho)
            (by rw [remapOf_congr (by rw [hfe]) (w / 16)]; exact hrm))
        rw [hat, hk] at hread
        obtain ⟨f1, hf1⟩ : ∃ f1 : Eng, f1 = { f with cnt := { f.cnt with bUncorr := satInc f.cnt.bUncorr } } := ⟨_, rfl⟩
        obtain ⟨e2, he2⟩ : ∃ e2, e2 = raise f1 evBasinFault stOutOfRange none
          (pack [(0, w / 16), (16, partOfBank f.regs (w / 16 / 512)), (32, 0)]) (pack [(0, w % 16), (16, r.bad)]) := ⟨_, rfl⟩
        rw [← hf1, ← he2] at hread
        have hev : OnlyEvents f1 e2 := by rw [he2]; exact onlyEvents_raise _ _ _ _ _ _
        have hsame : SameEvents e2 ev := by
          rw [he2, show partOfBank f.regs (w / 16 / 512) = partOfBank s.eng.regs (w / 16 / 512) by rw [hfe]]
          exact SameEvents.raiseFn (by rw [hf1, hfe]; exact ⟨rfl, rfl, rfl, rfl, rfl, rfl, rfl, rfl, rfl⟩) _ _ _ _ _ _
        have hw := writeWord_eq e2 w
        have hctl : (writeWord e2 w).ctl = e2.ctl := by rw [hw]
        have hcnt : (writeWord e2 w).cnt = { f1.cnt with drop := e2.cnt.drop } := by
          rw [hw]
          exact congrArg Eng.cnt hev.1
        refine ⟨{ s with eng := writeWord e2 w }, exec_patrolRead hc hd hn (by rw [← hf]; exact hread) ?_ ?_ ?_, rfl, ?_, ?_, ?_,
          ?_, ?_, ?_, ?_⟩
        · rw [hctl]
          exact (congrArg (fun e : Eng => e.ctl.revokes) hev.1).trans (by rw [hf1, hfe]; exact h1)
        · rw [hctl]
          exact (congrArg (fun e : Eng => e.ctl.stops) hev.1).trans (by rw [hf1, hfe]; exact h2)
        · rw [hw]
          exact (congrArg Side.pwrWait hev.side).trans (by rw [hf1, hfe]; exact h3)
        · rw [hcnt, hf1, hfe]
        · rw [hctl]
          exact hsame.evt
        · rw [hw]
          exact hsame.hm
        · rw [hcnt, hf1, hfe]
        · rw [writeWord_owners, hev.answers.basin, hf1, hfe]
        · rw [hw]
          exact hev.valleys.trans (by rw [hf1, hfe])
        · exact storedAt_writeWord e2 w
    · rw [hwb]
      simp only [writeBack, hno]
    · have hwk := writeBack_of_some hfind
      refine ⟨_, hwb, rfl, ?_, fun g i hne hi => ?_, ?_, ?_, ?_⟩ <;> rw [hwk]
      · exact storedAt_putStored_same s.eng (k / 16) (k % 16) _
      · exact storedAt_putStored_ne hdist _ (by omega) hi hne
      · exact (Tab.find_del _ k k).trans (if_pos rfl)
      · rw [putStored_eq]
      · rw [putStored_eq]
  · intro b
    refine ⟨fun h => ?_, fun h => ?_, fun h => ?_, fun h => ?_, fun h => ?_, fun g hg hs hlo hhi hv hlow => ?_, fun hg hr => ?_,
      fun h => ?_, fun hbusy => ?_, fun g rest hz hbusy => ⟨fun hr => ?_, fun hr => ?_⟩⟩
    · show Host.Outcome.next { s with eng := leak s.eng } = _
      rw [leak, if_pos (by rw [hc]; exact decide_eq_true h)]
    · show Host.Outcome.next { s with eng := leak s.eng } = _
      rw [leak, if_neg (by rw [hc]; simpa using h)]
    · show Host.Outcome.next { s with eng := decay s.eng } = _
      rw [decay, if_pos (by rw [hc]; exact decide_eq_true h)]
    · show Host.Outcome.next { s with eng := decay s.eng } = _
      rw [decay, if_neg (by rw [hc]; simpa using h)]
    · show Host.Outcome.next { s with eng := openPage s.eng bank.val } = _
      rw [openPage, if_pos (by simpa [hc] using h)]
    · refine ⟨_, rfl, ?_, ?_, fun i hi => ?_, ?_⟩ <;> rw [openPage_of_lowest hc hg hs hlo hhi hv hlow]
      · exact Tab.get_set_same _ _ _ _
      · exact storedAt_zeroWords rfl rfl rfl hi
      · rfl
    · show Host.Outcome.next { s with eng := ungateBank s.eng bank.val } = _
      rw [ungateBank, if_pos (by rw [hc, show bit s.eng.basin.gated bank.val = true from hg]; exact decide_eq_true hr)]
    · show Host.Outcome.next { s with eng := ungateBank s.eng bank.val } = _
      rw [ungateBank, if_neg (by simpa [hc] using fun hg => h.resolve_left fun h0 => Bool.false_ne_true (h0.symm.trans hg))]
    · have hnone : s.eng.spill.zeroing.find? (fun g => !pageBusy s.eng g) = none :=
        List.find?_eq_none.2 fun g hg => by simp [hbusy g hg]
      rw [exec_spillPageZero hc]
      simp only [zeroSpillPage, hnone]
    · have hsome : s.eng.spill.zeroing.find? (fun g => !pageBusy s.eng g) = some g := by simp [hz, hbusy]
      rw [exec_spillPageZero hc]
      simp only [zeroSpillPage, hsome, hr, if_true]
    · have hsome : s.eng.spill.zeroing.find? (fun g => !pageBusy s.eng g) = some g := by simp [hz, hbusy]
      refine ⟨zeroRange s.mem s.eng (spillPageAddr s.eng g) 4096 (.zero g), ?_, ?_, zeroRange_new _ hr, ?_⟩
      · rw [exec_spillPageZero hc]
        simp only [zeroSpillPage, hsome, hr, Bool.false_eq_true, if_false]
      · rw [zeroRange_eq]
      · rw [zeroRange_eq]
  · have hnext := nextPage_spec (allocPage_next ha)
    obtain ⟨hfree, hlo, hhi⟩ := hnext
    have hown : ownPages e [g] o = { e with basin := { openWords e e.basin g with
        owners := Tab.set (openWords e e.basin g).owners g o
        gated := clrBit (openWords e e.basin g).gated (g / 512) } } := rfl
    rw [allocPage_eq ha, hown]
    refine ⟨by simpa [pageFree] using hfree, (Tab.find_set _ g g o).trans (if_pos rfl),
      (openWords_valid e e.basin g g).trans (if_pos rfl), ⟨hlo, hhi⟩, fun hv i hi => ?_, fun h hne => ⟨?_, ?_⟩⟩
    · have ho : openWords e e.basin g = { zeroWords e e.basin g with valid := Tab.set e.basin.valid g true } :=
        if_neg (by rw [show Tab.get false e.basin.valid g = false from hv]; exact Bool.false_ne_true)
      have hwords := congrArg Basin.words ho
      have hspare := congrArg Basin.spare ho
      exact storedAt_zeroWords (b := e.basin) rfl hwords hspare hi
    · exact (Tab.find_set _ g h o).trans ((if_neg hne).trans (by rw [openWords_owners]))
    · exact (openWords_valid e e.basin g h).trans (if_neg hne)
  · refine ⟨by rw [find_freeBasin_owners, if_pos hg], ?_, fun i hi => storedAt_freeBasin hg hi⟩
    rw [pageValid, Tab.get_eq_find, find_freeBasin_valid, if_pos hg, Option.getD_none]
  · refine ⟨by rw [find_freeBasin_owners, if_neg hg], ?_⟩
    rw [pageValid, Tab.get_eq_find, find_freeBasin_valid, if_neg hg, ← Tab.get_eq_find]
    rfl

end Sys2Proof.Machine

/-!
Steps that answer nothing: they leave the clock, the queues and what waits in the control processor, so an answer given
after them is an answer to the engine before them (R238, R242).
-/

namespace Sys2Proof.Machine

/-- Between two engines the side domain, the queues and the waits of the control processor are the same, and host memory
writes were only added. -/
structure Steady (e f : Eng) : Prop where
  side : f.side = e.side
  queues : f.ctl.queues = e.ctl.queues
  halt : f.ctl.cpHaltBit = e.ctl.cpHaltBit
  revokes : f.ctl.revokes = e.ctl.revokes
  stops : f.ctl.stops = e.ctl.stops
  hm : e.io.hm <:+ f.io.hm

theorem Steady.refl (e : Eng) : Steady e e := ⟨rfl, rfl, rfl, rfl, rfl, List.suffix_refl _⟩

theorem Steady.trans {e f g : Eng} (h : Steady e f) (k : Steady f g) : Steady e g :=
  ⟨k.side.trans h.side, k.queues.trans h.queues, k.halt.trans h.halt, k.revokes.trans h.revokes, k.stops.trans h.stops,
    h.hm.trans k.hm⟩

/-- A change of parts that neither the control processor nor host memory knows. -/
theorem Steady.of_same {e f : Eng} (hs : f.side = e.side) (hc : f.ctl = e.ctl) (hm : f.io.hm = e.io.hm) : Steady e f :=
  ⟨hs, by rw [hc], by rw [hc], by rw [hc], by rw [hc], hm ▸ List.suffix_refl _⟩

theorem OnlyEvents.steady {e f : Eng} (h : OnlyEvents e f) : Steady e f :=
  ⟨h.side, h.queues, h.answers.cpHaltBit, by rw [h.1], by rw [h.1], h.2⟩

theorem OnlyCorrects.steady {e f : Eng} (h : OnlyCorrects e f) : Steady e f :=
  ⟨h.side, h.queues, h.cpHaltBit, by rw [h.1], by rw [h.1], h.2⟩

theorem steady_setV (e : Eng) (v : Nat) (x : Valley) : Steady e (setV e v x) := .of_same rfl rfl rfl
theorem steady_updV (e : Eng) (v : Nat) (f : Valley → Valley) : Steady e (updV e v f) := .of_same rfl rfl rfl
theorem steady_freeBasin (e : Eng) (gs : List Nat) : Steady e (freeBasin e gs) := .of_same rfl rfl rfl
theorem steady_freeSpill (e : Eng) (gs : List Nat) : Steady e (freeSpill e gs) := .of_same rfl rfl rfl
theorem steady_raise (e : Eng) (code st : W16) (v : Option Nat) (r0 r1 : W64) : Steady e (raise e code st v r0 r1) :=
  (onlyEvents_raise _ _ _ _ _ _).steady

theorem Steady.foldl {α : Type} {g : Eng → α → Eng} (h : ∀ e x, Steady e (g e x)) (xs : List α) (e : Eng) :
    Steady e (xs.foldl g e) := by
  induction xs generalizing e with
  | nil => exact .refl e
  | cons x r ih => exact (h e x).trans (ih _)

/-! ## Answers -/

/-- While the control processor runs, an answer given after such a step is an answer to the engine before it. -/
theorem Steady.answered {e f : Eng} (h : Steady e f) (hh : e.ctl.cpHaltBit = false) (c : Cmd) (st : W16) (r0 r1 : W64) :
    Answered e (reply f c st r0 r1) c st r0 r1 := by
  have hget : getQ f c.q = getQ e c.q := by rw [getQ, getQ, h.queues]
  exact (reply_answered f c st r0 r1 (h.halt.trans hh)).earlier (by rw [h.side]) (by rw [hget]) (by rw [hget])
    (by rw [hget]) h.hm

/-- A record that was written before such a step stays written. -/
theorem Answered.after {e f g : Eng} {c : Cmd} {st : W16} {r0 r1 : W64} (h : Answered e f c st r0 r1)
    (k : Steady f g) : Answered e g c st r0 r1 := h.mono k.hm

/-- The answer of a taken command after such steps. -/
theorem Taken.answered_steady {s : State} {q op : Nat} {p : BitVec 512} (h : Taken s q op p) {g : Eng}
    (k : Steady (popHead s.eng q) g) (st : W16) (r0 r1 : W64) :
    Answered s.eng (reply g (cmdOf q p) st r0 r1) (cmdOf q p) st r0 r1 :=
  h.answered st r0 r1 (by rw [k.side, popHead_side]) k.queues (k.halt.trans (popHead_cpHaltBit _ _))
    ((popHead_hm _ _).trans k.hm)

theorem OnlyAnswers.revokes {e f : Eng} (h : OnlyAnswers e f) : f.ctl.revokes = e.ctl.revokes := by rw [h.1]
theorem OnlyAnswers.stops {e f : Eng} (h : OnlyAnswers e f) : f.ctl.stops = e.ctl.stops := by rw [h.1]

/-- Nothing waits in the control processor that `advance` would end. -/
def NoWaits (e : Eng) : Prop := e.ctl.revokes = [] ∧ e.ctl.stops = [] ∧ e.side.pwrWait = none

theorem NoWaits.advance {e : Eng} (h : NoWaits e) (m : Mem) : advance m e = e := advance_of_no_waits m h.1 h.2.1 h.2.2

theorem NoWaits.steady {e f : Eng} (h : NoWaits e) (k : Steady e f) : NoWaits f :=
  ⟨k.revokes.trans h.1, k.stops.trans h.2.1, by rw [k.side]; exact h.2.2⟩

theorem NoWaits.answers {e f : Eng} (h : NoWaits e) (k : OnlyAnswers e f) : NoWaits f :=
  ⟨k.revokes.trans h.1, k.stops.trans h.2.1, by rw [k.side]; exact h.2.2⟩

/-! ## Queues that an answer does not concern -/

theorem getQ_updQ_ne {q r : Nat} (h : r ≠ q) (e : Eng) (f : Queue → Queue) : getQ (updQ e q f) r = getQ e r :=
  Tab.get_set_ne _ _ _ _ _ h

theorem getQ_sendIrq (e : Eng) (n q : Nat) : getQ (sendIrq e n) q = getQ e q := by
  rw [getQ, getQ, (onlyEvents_sendIrq e n).queues]

/-- The answer of a command of one queue leaves the other queues as they are. -/
theorem getQ_reply_ne {q : Nat} {c : Cmd} (h : q ≠ c.q) (e : Eng) (st : W16) (r0 r1 : W64) :
    getQ (reply e c st r0 r1) q = getQ e q := by
  unfold reply
  split
  · rfl
  · unfold writeReply
    dsimp only
    rw [getQ_updQ_ne h]
    split
    · exact getQ_updQ_ne h _ _
    · exact (getQ_sendIrq _ _ _).trans (getQ_updQ_ne h _ _)

/-- The answer of a command that comes after the answer of a command of another queue. -/
theorem Steady.answered_second {e f : Eng} (h : Steady e f) (hh : e.ctl.cpHaltBit = false) {c d : Cmd} (hq : c.q ≠ d.q)
    (st su : W16) (r0 r1 t0 t1 : W64) :
    Answered e (reply (reply f d su t0 t1) c st r0 r1) c st r0 r1 := by
  have hd := onlyAnswers_reply f d su t0 t1
  have hget : getQ (reply f d su t0 t1) c.q = getQ e c.q := by rw [getQ_reply_ne hq, getQ, getQ, h.queues]
  exact (reply_answered _ c st r0 r1 ((hd.cpHaltBit.trans h.halt).trans hh)).earlier (by rw [hd.side, h.side])
    (by rw [hget]) (by rw [hget]) (by rw [hget]) (h.hm.trans hd.2)

end Sys2Proof.Machine

/-!
FENCE_TIMER, STANDIN_TRANSFER_TIMEOUT and JOIN_TIMEOUT: how each waiting command ends (R92, R142, R267).
-/

namespace Sys2Proof.Machine

/-! ## The end of a FENCE (R92, R93) -/

/-- The Valley of a FENCE that has timed out. -/
def fenceOver (x : Valley) : Valley := { x with fenceWait := none, fenced := false, summaries := [] }

/-- The engine of a FENCE that has timed out, before anything is answered. -/
def fenceExpired (e : Eng) (v : Nat) : Eng :=
  raise (updV e v fenceOver) evFenceExpired stFenceTimeout (some v) (getV (updV e v fenceOver) v).epoch
    (BitVec.ofNat 64 (failingPairs (updV e v fenceOver) v).length)

theorem steady_fenceExpired (e : Eng) (v : Nat) : Steady e (fenceExpired e v) :=
  (steady_updV _ _ _).trans (steady_raise _ _ _ _ _ _)

theorem fenceExpired_answers (e : Eng) (v : Nat) : OnlyAnswers (updV e v fenceOver) (fenceExpired e v) :=
  onlyAnswers_raise _ _ _ _ _ _

theorem getV_fenceExpired (e : Eng) (v : Nat) : getV (fenceExpired e v) v = fenceOver (getV e v) := by
  rw [(fenceExpired_answers e v).getV, getV_updV_same]

theorem fenceTimer_of_due {e : Eng} {v : Nat} {f : FenceWait} (hf : (getV e v).fenceWait = some f)
    (hd : (getV e v).fenceTimeout ≤ (e.side.ts - f.since).toNat) :
    fenceTimer e v = reply0 (closeAfterFence (fenceExpired e v) v) f.cmd stFenceTimeout := by
  have hne : ¬ stFenceTimeout = stOK := by decide
  have hdue : (getV e v).fenceTimeout ≤ since e f.since := hd
  simp only [fenceTimer, hf, if_pos hdue, endFence, decide_eq_false hne, if_neg hne]
  rfl

/-- How a CROSSING_CLOSE that waits while a FENCE ends is answered: status and result words (R93). -/
def closeAnswer (x : Valley) : W16 × W64 × W64 :=
  match x.ws with
  | some w => if w.number = x.closeEpoch then (stOK, w.number, w.step) else (stPeerTimeout, 0, 0)
  | none => (stPeerTimeout, 0, 0)

theorem closeAfterFence_of_none {e : Eng} {v : Nat} (h : (getV e v).closeWait = none) : closeAfterFence e v = e := by
  simp only [closeAfterFence, h]

theorem closeAfterFence_of_some {e : Eng} {v : Nat} {c : Cmd} (h : (getV e v).closeWait = some c) :
    closeAfterFence e v = reply (updV e v fun x => { x with closeWait := none }) c (closeAnswer (getV e v)).1
      (closeAnswer (getV e v)).2.1 (closeAnswer (getV e v)).2.2 := by
  cases hw : (getV e v).ws with
  | none => simp only [closeAfterFence, h, hw, closeAnswer, reply0]
  | some w =>
    by_cases hn : w.number = (getV e v).closeEpoch
    · simp only [closeAfterFence, h, hw, closeAnswer, if_pos hn]
    · simp only [closeAfterFence, h, hw, closeAnswer, if_neg hn, reply0]

/-- However the waiting CROSSING_CLOSE is answered, its slot waits no more; lanes and regions stay, and what waits in the
control processor does. -/
theorem closeAfterFence_keeps (e : Eng) (v : Nat) :
    getV (closeAfterFence e v) v = { getV e v with closeWait := none } ∧ (closeAfterFence e v).lanes = e.lanes ∧
      (closeAfterFence e v).regions = e.regions ∧ (NoWaits e → NoWaits (closeAfterFence e v)) := by
  cases h : (getV e v).closeWait with
  | none =>
    rw [closeAfterFence_of_none h, ← h]
    exact ⟨rfl, rfl, rfl, id⟩
  | some c =>
    rw [closeAfterFence_of_some h]
    have hans := onlyAnswers_reply (updV e v fun x => { x with closeWait := none }) c (closeAnswer (getV e v)).1
      (closeAnswer (getV e v)).2.1 (closeAnswer (getV e v)).2.2
    refine ⟨?_, hans.lanes, hans.regions, fun hw => (hw.steady (steady_updV _ _ _)).answers hans⟩
    rw [hans.getV, getV_updV_same]

/-! ## The end of a join (R267) -/

theorem steady_forgetBlocks (e : Eng) (v : Nat) (p : Nat → Bool) : Steady e (forgetBlocks e v p) := .of_same rfl rfl rfl

theorem steady_unbind (e : Eng) (v : Nat) : Steady e (unbind e v) :=
  (((steady_freeSpill _ _).trans (steady_freeBasin _ _)).trans (steady_forgetBlocks _ _ _)).trans (steady_updV _ _ _)

theorem getV_unbind (e : Eng) (v : Nat) : getV (unbind e v) v = bareValley (getV e v) := getV_updV_same _ _ _

theorem Tab.mem_of_find {α : Type} {t : Tab α} {k : Nat} {x : α} (h : Tab.find t k = some x) : (k, x) ∈ t := by
  induction t with
  | nil => cases h
  | cons p r ih =>
    obtain ⟨j, y⟩ := p
    rw [Tab.find] at h
    split at h
    case isTrue hk =>
      rw [hk, Option.some.inj h]
      exact List.mem_cons_self
    case isFalse => exact List.mem_cons_of_mem _ (ih h)

/-- Is a page one of a slot's rings, runs, control pages or staging page? -/
def slotPage (v : Nat) : PageOwner → Bool
  | .outRing w _ => decide (w = v)
  | .inRing w _ => decide (w = v)
  | .run w _ => decide (w = v)
  | .control w => decide (w = v)
  | .spillStage w => decide (w = v)
  | _ => false

/-- No page of an unbound slot's rings, runs, control pages or staging page has an owner. -/
theorem owners_unbind {e : Eng} {v g : Nat} {o : PageOwner} (h : Tab.find (unbind e v).basin.owners g = some o) :
    slotPage v o = false := by
  have hfree := find_freeBasin_owners (freeSpill e ((e.spill.pages.filter fun x =>
    decide (x.2.v = v ∧ (x.2.cls = .retention ∨ x.2.cls = .pending))).map (·.1)))
    ((e.basin.owners.filter fun o => slotPage v o.2).map (·.1)) g
  have hg : Tab.find (unbind e v).basin.owners g = _ := hfree
  rw [h] at hg
  split at hg
  case isTrue => cases hg
  case isFalse hno =>
    refine Bool.eq_false_iff.2 fun hs => hno (List.mem_map.2 ⟨(g, o), List.mem_filter.2 ⟨?_, hs⟩, rfl⟩)
    exact Tab.mem_of_find hg.symm

/-! ## The rows -/

theorem exec_fenceTimer (v : Fin 16) {s : State} (hc : cpRuns s.eng = true) :
    exec (.fenceTimer v) s = .next { s with eng := advance s.mem (fenceTimer s.eng v.val) } := by
  show execFenceTimer v s = _
  rw [execFenceTimer, if_pos hc]

theorem exec_standinTransferTimeout (v : Fin 16) {s : State} (hc : cpRuns s.eng = true) :
    exec (.standinTransferTimeout v) s = .next { s with eng := advance s.mem (spareTimeout s.eng v.val) } := by
  show execStandinTransferTimeout v s = _
  rw [execStandinTransferTimeout, if_pos hc]

theorem exec_joinTimeout (v : Fin 16) {s : State} (hc : cpRuns s.eng = true) :
    exec (.joinTimeout v) s = .next { s with eng := advance s.mem (joinTimeout s.eng v.val) } := by
  show execJoinTimeout v s = _
  rw [execJoinTimeout, if_pos hc]

/-- Settles O22: each timer by what it waits for; the fence's end answers the waiting close first. -/
theorem timeoutsEndWaits : Obligations.TimeoutsEndWaits := by
  intro v s hc h1 h2 h3 x
  have hidle : NoWaits s.eng := ⟨h1, h2, h3⟩
  have hhalt : s.eng.ctl.cpHaltBit = false := by simpa using (Bool.and_eq_true_iff.1 hc).2
  have hstill : advance s.mem s.eng = s.eng := hidle.advance s.mem
  refine ⟨fun f hf hd => ?_, fun f hf hd => ?_, fun hf => ?_, fun w hw hd => ?_, fun w hw hd => ?_, fun hw => ?_,
    fun w hw hd => ?_, fun w hw hd => ?_, fun hw => ?_⟩
  · let e1 := fenceExpired s.eng v.val
    have hst : Steady s.eng e1 := steady_fenceExpired _ _
    have hx1 : getV e1 v.val = fenceOver x := getV_fenceExpired _ _
    have hcl : (getV e1 v.val).closeWait = x.closeWait := by rw [hx1]; rfl
    obtain ⟨hx2, hlanes, hregions, hnw⟩ := closeAfterFence_keeps e1 v.val
    have hans := onlyAnswers_reply (closeAfterFence e1 v.val) f.cmd stFenceTimeout 0 0
    have hx : getV (reply0 (closeAfterFence e1 v.val) f.cmd stFenceTimeout) v.val =
        { fenceOver x with closeWait := none } := by rw [reply0, hans.getV, hx2, hx1]
    refine ⟨{ s with eng := reply0 (closeAfterFence e1 v.val) f.cmd stFenceTimeout }, ?_, rfl, ?_, ?_, ?_, ?_, ?_, ?_,
      ?_, ?_, fun hno => ?_, fun c hsome => ?_⟩
    · rw [exec_fenceTimer v hc, fenceTimer_of_due hf hd]
      exact congrArg (fun e => Host.Outcome.next { s with eng := e })
        (((hnw (hidle.steady hst)).answers hans).advance s.mem)
    · rw [hx]; rfl
    · rw [hx]; rfl
    · rw [hx]; rfl
    · rw [hx]; rfl
    · rw [hx]
    · rw [hx]; rfl
    · exact hans.lanes.trans (hlanes.trans (fenceExpired_answers _ _).lanes)
    · exact hans.regions.trans (hregions.trans (fenceExpired_answers _ _).regions)
    · rw [closeAfterFence_of_none (hcl.trans hno)]
      exact hst.answered hhalt _ _ _ _
    · have hsu : Steady s.eng (updV e1 v.val fun x => { x with closeWait := none }) := hst.trans (steady_updV _ _ _)
      have hws : (getV e1 v.val).ws = x.ws := by rw [hx1]; rfl
      have hce : (getV e1 v.val).closeEpoch = x.closeEpoch := by rw [hx1]; rfl
      dsimp only
      rw [reply0, closeAfterFence_of_some (hcl.trans hsome)]
      refine ⟨fun hq => hsu.answered_second hhalt (Ne.symm hq) _ _ _ _ _ _, fun w hw hn => ?_, fun hn => ?_⟩
      · have ha : closeAnswer (getV e1 v.val) = (stOK, w.number, w.step) := by
          simp only [closeAnswer, hws, hw, hce, if_pos hn]
        rw [ha]
        exact (hsu.answered hhalt _ _ _ _).later (onlyAnswers_reply _ _ _ _ _)
      · have ha : closeAnswer (getV e1 v.val) = (stPeerTimeout, 0, 0) := by
          cases hw : x.ws with
          | none => simp only [closeAnswer, hws, hw]
          | some w => simp only [closeAnswer, hws, hw, hce, if_neg (hn w hw)]
        rw [ha]
        exact (hsu.answered hhalt _ _ _ _).later (onlyAnswers_reply _ _ _ _ _)
  · have hf : (getV s.eng v.val).fenceWait = some f := hf
    have hno : ¬ (getV s.eng v.val).fenceTimeout ≤ since s.eng f.since := Nat.not_le.2 hd
    rw [exec_fenceTimer v hc]
    simp only [fenceTimer, hf, if_neg hno, hstill]
  · have hf : (getV s.eng v.val).fenceWait = none := hf
    rw [exec_fenceTimer v hc]
    simp only [fenceTimer, hf, hstill]
  · have hw : (getV s.eng v.val).spareWait = some w := hw
    have hdue : (getV s.eng v.val).fenceTimeout ≤ since s.eng w.since := hd
    have hst := steady_updV s.eng v.val standbyValley
    have hans := onlyAnswers_reply (updV s.eng v.val standbyValley) w.cmd stFenceTimeout 0 0
    have hx := (hans.getV v.val).trans (getV_updV_same s.eng v.val standbyValley)
    refine ⟨{ s with eng := reply0 (updV s.eng v.val standbyValley) w.cmd stFenceTimeout }, ?_, rfl, ?_, ?_, ?_,
      hst.answered hhalt _ _ _ _⟩
    · rw [exec_standinTransferTimeout v hc]
      simp only [spareTimeout, hw, if_pos hdue, endSpare]
      exact congrArg (fun e => Host.Outcome.next { s with eng := e }) (((hidle.steady hst).answers hans).advance s.mem)
    · exact congrArg Valley.slot hx
    · exact congrArg Valley.spareWait hx
    · exact congrArg Valley.live hx
  · have hw : (getV s.eng v.val).spareWait = some w := hw
    have hno : ¬ (getV s.eng v.val).fenceTimeout ≤ since s.eng w.since := Nat.not_le.2 hd
    rw [exec_standinTransferTimeout v hc]
    simp only [spareTimeout, hw, if_neg hno, hstill]
  · have hw : (getV s.eng v.val).spareWait = none := hw
    rw [exec_standinTransferTimeout v hc]
    simp only [spareTimeout, hw, hstill]
  · have hw : (getV s.eng v.val).joinWait = some w := hw
    have hdue : Regs.joinTimeout s.eng.regs ≤ since s.eng w.since := hd
    have hst := steady_unbind s.eng v.val
    have hans := onlyAnswers_reply (unbind s.eng v.val) w.cmd stPeerTimeout 0 0
    have hx := (hans.getV v.val).trans (getV_unbind s.eng v.val)
    refine ⟨{ s with eng := reply0 (unbind s.eng v.val) w.cmd stPeerTimeout }, ?_, rfl, ?_, ?_, ?_, ?_, ?_,
      hst.answered hhalt _ _ _ _, fun g o ho => ?_⟩
    · rw [exec_joinTimeout v hc]
      simp only [joinTimeout, hw, if_pos hdue, endJoin]
      exact congrArg (fun e => Host.Outcome.next { s with eng := e }) (((hidle.steady hst).answers hans).advance s.mem)
    · exact congrArg Valley.slot hx
    · exact congrArg Valley.live hx
    · exact congrArg Valley.outs hx
    · exact congrArg Valley.ins hx
    · exact congrArg Valley.joinWait hx
    · have hb : (reply0 (unbind s.eng v.val) w.cmd stPeerTimeout).basin = (unbind s.eng v.val).basin := hans.basin
      rw [hb] at ho
      have hslot := owners_unbind ho
      refine ⟨?_, ?_, fun d => ⟨?_, ?_⟩⟩ <;> rintro rfl <;> simp [slotPage] at hslot
  · have hw : (getV s.eng v.val).joinWait = some w := hw
    have hno : ¬ Regs.joinTimeout s.eng.regs ≤ since s.eng w.since := Nat.not_le.2 hd
    rw [exec_joinTimeout v hc]
    simp only [joinTimeout, hw, if_neg hno, hstill]
  · have hw : (getV s.eng v.val).joinWait = none := hw
    rw [exec_joinTimeout v hc]
    simp only [joinTimeout, hw, hstill]

end Sys2Proof.Machine

/-!
HOST_ACCESS_FAIL (R239): a queue that stops, a reply that is lost, a parameter list that cannot be read, and an event that
is held.
-/

namespace Sys2Proof.Machine

/-! ## What events count -/

theorem sendIrq_cnt (e : Eng) (n : Nat) : (sendIrq e n).cnt = e.cnt := by
  unfold sendIrq
  split <;> rfl

theorem sendIrq66_cnt (e : Eng) : (sendIrq66 e).cnt = e.cnt := by
  by_cases h : irq66Waits e
  · rw [sendIrq66_of_waits h]
  · rw [sendIrq66_of_free h]
    exact sendIrq_cnt e 66

theorem evtWrite_cnt (e : Eng) (r : EvRec) : (evtWrite e r).cnt = e.cnt := by
  unfold evtWrite
  dsimp only
  split
  · exact sendIrq66_cnt _
  · exact sendIrq_cnt _ _

theorem evtFlush_cnt (n : Nat) (e : Eng) : (evtFlush n e).cnt = e.cnt := by
  induction n generalizing e with
  | zero => rfl
  | succ n ih =>
    unfold evtFlush
    dsimp only
    split
    · rfl
    · split
      · rw [ih, evtWrite_cnt]
        rfl
      · split
        · rfl
        · rw [ih, evtWrite_cnt]
          rfl

/-- An event adds to no drop counter but that of discarded events (R244). -/
theorem raiseFn_drop {c : Nat} (hc : c ≠ 27) (e : Eng) (fn : Byte) (code st : W16) (v : Option Nat) (r0 r1 : W64) :
    Tab.get 0 (raiseFn e fn code st v r0 r1).cnt.drop c = Tab.get 0 e.cnt.drop c := by
  unfold raiseFn
  dsimp only
  split
  · rw [evtWrite_cnt]
    rfl
  · split
    · rw [evtFlush_cnt]
      rfl
    · exact Tab.get_set_ne _ _ _ _ _ hc

/-! ## A queue that stops -/

theorem getQ_updQ_same (e : Eng) (q : Nat) (f : Queue → Queue) : getQ (updQ e q f) q = f (getQ e q) :=
  Tab.get_set_same _ _ _ _

theorem queueFault_events (e : Eng) (q : Nat) (final : Bool) : OnlyEvents e (queueFault e q final) :=
  onlyEvents_raiseFn _ _ _ _ _ _ _

theorem getQ_queueFault (e : Eng) (q : Nat) (final : Bool) (r : Nat) : getQ (queueFault e q final) r = getQ e r := by
  rw [getQ, getQ, (queueFault_events e q final).queues]

theorem queueFault_drop {c : Nat} (hc : c ≠ 27) (e : Eng) (q : Nat) (final : Bool) :
    Tab.get 0 (queueFault e q final).cnt.drop c = Tab.get 0 e.cnt.drop c := raiseFn_drop hc _ _ _ _ _ _ _

/-- The final QUEUE_FAULT changes of its queue only that it is due. -/
theorem getQ_queueFinal (e : Eng) (q : Nat) : ∃ b, getQ (queueFinal e q) q = { getQ e q with finalDue := b } := by
  unfold queueFinal
  dsimp only
  split
  · exact ⟨false, by rw [getQ_queueFault, getQ_updQ_same]⟩
  · exact ⟨(getQ e q).finalDue, rfl⟩

theorem queueFinal_drop {c : Nat} (hc : c ≠ 27) (e : Eng) (q : Nat) :
    Tab.get 0 (queueFinal e q).cnt.drop c = Tab.get 0 e.cnt.drop c := by
  unfold queueFinal
  dsimp only
  split
  · rw [queueFault_drop hc]
    rfl
  · rfl

/-- A queue that stops has its error bit; beside it only its final event changes it. -/
theorem getQ_stopQueue (e : Eng) (q : Nat) (f : Queue → Queue) :
    ∃ b, getQ (stopQueue e q f) q = { f { getQ e q with error := true } with finalDue := b } := by
  obtain ⟨b, hb⟩ := getQ_queueFinal (queueFault (updQ e q fun x => f { x with error := true }) q false) q
  rw [getQ_queueFault, getQ_updQ_same] at hb
  exact ⟨b, hb⟩

theorem onlyAnswers_stopQueue (e : Eng) (q : Nat) (f : Queue → Queue) : OnlyAnswers e (stopQueue e q f) :=
  ((onlyAnswers_updQ _ _ _).trans (queueFault_events _ _ _).answers).trans (onlyAnswers_queueFinal _ _)

theorem stopQueue_drop {c : Nat} (hc : c ≠ 27) (e : Eng) (q : Nat) (f : Queue → Queue) :
    Tab.get 0 (stopQueue e q f).cnt.drop c = Tab.get 0 e.cnt.drop c := by
  unfold stopQueue
  dsimp only
  rw [queueFinal_drop hc, queueFault_drop hc]
  rfl

/-! ## A lost reply -/

/-- The newest reply of a queue is gone from host memory, and counted, and its message is taken back. -/
def replyGone (e : Eng) (q : Nat) (hm : List HmWrite) : Eng :=
  let e0 := drop (updIo e fun io => { io with hm := hm }) 26
  if (getQ e q).messaged then withdrawIrq e0 q else e0

theorem replyGone_keeps (e : Eng) (q : Nat) (hm : List HmWrite) :
    (replyGone e q hm).ctl.queues = e.ctl.queues ∧ (replyGone e q hm).io.hm = hm ∧
      Tab.get 0 (replyGone e q hm).cnt.drop 26 = satInc (Tab.get 0 e.cnt.drop 26) ∧
      (replyGone e q hm).ctl.evt = e.ctl.evt ∧ (replyGone e q hm).valleys = e.valleys := by
  have hdrop : Tab.get 0 (drop (updIo e fun io => { io with hm := hm }) 26).cnt.drop 26 =
      satInc (Tab.get 0 e.cnt.drop 26) := Tab.get_set_same _ _ _ _
  unfold replyGone withdrawIrq
  dsimp only
  split
  · split
    · exact ⟨rfl, rfl, hdrop, rfl, rfl⟩
    · exact ⟨rfl, rfl, hdrop, rfl, rfl⟩
  · exact ⟨rfl, rfl, hdrop, rfl, rfl⟩

/-- The queue of a lost reply: its ring entry is taken back. -/
def entryBack (x : Queue) : Queue :=
  if x.enabled then
    { x with reply := (x.reply + 1023) % 1024, phase := if x.reply = 0 then !x.phase else x.phase, messaged := false
             inFlight := false }
  else { x with messaged := false, inFlight := false }

theorem entryBack_of_enabled {x : Queue} (h : x.enabled = true) : entryBack x =
    { x with reply := (x.reply + 1023) % 1024, phase := if x.reply = 0 then !x.phase else x.phase, messaged := false
             inFlight := false } := if_pos h

theorem replyFails_of_running {e : Eng} {q : Nat} {w : HmWrite} {hm : List HmWrite} (hen : (getQ e q).enabled = true)
    (herr : (getQ e q).error = false) (hd : dropWrite (.reply q) e.io.hm = some (w, hm)) :
    replyFails e q = stopQueue (updQ (replyGone e q hm) q entryBack) q
      fun x => { x with failReply := true, failFetch := false, dropped := 1 } := by
  simp only [replyFails, hen, herr, hd, Bool.not_true, Bool.false_and, Bool.false_eq_true, if_false]
  rfl

theorem replyFails_of_stopped {e : Eng} {q : Nat} {w : HmWrite} {hm : List HmWrite} (hen : (getQ e q).enabled = true)
    (herr : (getQ e q).error = true) (hfin : (getQ e q).finalDue = false)
    (hd : dropWrite (.reply q) e.io.hm = some (w, hm)) :
    replyFails e q = updQ (updQ (replyGone e q hm) q entryBack) q fun x => { x with dropped := x.dropped + 1 } := by
  have hq : getQ (replyGone e q hm) q = getQ e q := by rw [getQ, getQ, (replyGone_keeps e q hm).1]
  obtain ⟨e3, he3⟩ : ∃ e3, e3 = updQ (updQ (replyGone e q hm) q entryBack) q fun x => { x with dropped := x.dropped + 1 } :=
    ⟨_, rfl⟩
  have hfin3 : (getQ e3 q).finalDue = false := by
    rw [he3, getQ_updQ_same, getQ_updQ_same, hq, entryBack_of_enabled hen]
    exact hfin
  simp only [replyFails, hen, herr, hd, Bool.not_true, Bool.false_and, Bool.false_eq_true, if_false, if_true]
  show (if (getQ (updQ (updQ (replyGone e q hm) q entryBack) q fun x => { x with dropped := x.dropped + 1 }) q).finalDue = true
    then _ else updQ (updQ (replyGone e q hm) q entryBack) q fun x => { x with dropped := x.dropped + 1 }) = _
  rw [← he3, hfin3, if_neg Bool.false_ne_true]

/-! ## The row -/

theorem exec_hostAccessFail (a : HmAccess) {s : State} (hc : ctlOn s.eng = true) :
    exec (.hostAccessFail a) s = .next { s with eng := hostFails s.eng a } := by
  show execHostAccessFail a s = _
  rw [execHostAccessFail, if_pos hc]

theorem withdrawIrq_keeps (e : Eng) (n : Nat) : (withdrawIrq e n).io.hm = e.io.hm ∧ (withdrawIrq e n).ctl.evt = e.ctl.evt ∧
    (withdrawIrq e n).valleys = e.valleys := by
  unfold withdrawIrq
  split <;> exact ⟨rfl, rfl, rfl⟩

/-- The engine whose newest event could not be written, its message taken back. -/
def eventGone (e : Eng) (hm : List HmWrite) : Eng :=
  match e.ctl.evt.messaged with
  | some v => withdrawIrq (updIo e fun io => { io with hm := hm }) v
  | none => updIo e fun io => { io with hm := hm }

theorem eventGone_keeps (e : Eng) (hm : List HmWrite) : (eventGone e hm).io.hm = hm ∧
    (eventGone e hm).ctl.evt = e.ctl.evt ∧ (eventGone e hm).valleys = e.valleys := by
  unfold eventGone
  split
  · exact withdrawIrq_keeps _ _
  · exact ⟨rfl, rfl, rfl⟩

/-- Settles O41: one case for each access that fails. -/
theorem hostAccessFails : Obligations.HostAccessFails := by
  intro q s hc
  refine ⟨fun hmay => ?_, fun w hm hen herr hd => ?_, fun w hm hen herr hfin hd => ?_, fun p hp hl hpre => ?_,
    fun w hm hd => ?_⟩
  · obtain ⟨b, hb⟩ := getQ_stopQueue s.eng q.val fun x => { x with failFetch := true, failReply := false, dropped := 0 }
    refine ⟨_, exec_hostAccessFail _ hc, rfl, ?_, ?_, ?_, ?_⟩ <;> simp only [hostFails, fetchFails, if_pos hmay]
    · rw [hb]
    · rw [hb]
    · rw [hb]
    · exact onlyAnswers_stopQueue _ _ _
  · obtain ⟨hq, -, hdrop, -, hv⟩ := replyGone_keeps s.eng q.val hm
    have hfail := replyFails_of_running hen herr hd
    obtain ⟨b, hb⟩ := getQ_stopQueue (updQ (replyGone s.eng q.val hm) q.val entryBack) q.val
      fun x => { x with failReply := true, failFetch := false, dropped := 1 }
    rw [getQ_updQ_same, show getQ (replyGone s.eng q.val hm) q.val = getQ s.eng q.val by rw [getQ, getQ, hq],
      entryBack_of_enabled hen] at hb
    refine ⟨_, exec_hostAccessFail _ hc, rfl, ?_, ?_, ?_, ?_, ?_⟩ <;> simp only [hostFails, hfail]
    · rw [hb]
    · rw [hb]
    · rw [hb]
    · rw [stopQueue_drop (by decide)]
      exact hdrop
    · exact (onlyAnswers_stopQueue _ _ _).valleys.trans hv
  · obtain ⟨hq, hhm, hdrop, hevt, hv⟩ := replyGone_keeps s.eng q.val hm
    have hfail := replyFails_of_stopped hen herr hfin hd
    refine ⟨_, exec_hostAccessFail _ hc, rfl, ?_, ?_, ?_, ?_, ?_⟩ <;> simp only [hostFails, hfail]
    · rw [getQ_updQ_same, getQ_updQ_same, show getQ (replyGone s.eng q.val hm) q.val = getQ s.eng q.val by rw [getQ, getQ, hq],
        entryBack_of_enabled hen]
    · exact hhm
    · exact hdrop
    · exact hevt
    · exact hv
  · have hfail : hostFails s.eng (.param q) =
        answerAll (reply (popHead s.eng q.val) (cmdOf q.val p) stOutOfRange 0 0x8000000000000000) := by
      simp only [hostFails, paramFails, hp, hl, hpre, Bool.not_true, Option.isSome_none, Bool.or_self, Bool.false_eq_true,
        if_false]
    obtain ⟨hb, hr, hph, -⟩ := getQ_popHead s.eng q.val (cmdOf q.val p).q
    have hans : Answered s.eng (reply (popHead s.eng q.val) (cmdOf q.val p) stOutOfRange 0 0x8000000000000000)
        (cmdOf q.val p) stOutOfRange 0 0x8000000000000000 :=
      (reply_answered _ _ _ _ _ (by rw [popHead_cpHaltBit, (headReady_runs hp).1])).earlier (by rw [popHead_side]) hb hr hph
        (popHead_hm _ _)
    refine ⟨_, exec_hostAccessFail _ hc, rfl, rfl, ?_, ?_⟩ <;> rw [hfail]
    · exact ((onlyAnswers_popHead _ _).trans (onlyAnswers_reply _ _ _ _ _)).trans (onlyAnswers_answerAll _)
    · exact hans.later (onlyAnswers_answerAll _)
  · obtain ⟨hhm, hevt, hv⟩ := eventGone_keeps s.eng hm
    refine ⟨_, exec_hostAccessFail _ hc, rfl, ?_, ?_, ?_, ?_⟩ <;> simp only [hostFails, eventFails, hd]
    · exact hhm
    · exact congrArg (fun ev : EvtRing => recOf w.data :: ev.held) hevt
    · rfl
    · exact hv

end Sys2Proof.Machine

/-!
What the register target answers to an access that it turns away (R21, R27, R276, R297, R299, R302).
-/

namespace Sys2Proof.Machine

theorem size_of_bytes (a : RegAcc) :
    a.size = 0 ∧ a.bytes ≠ 2 ∧ a.bytes ≠ 3 ∨ a.size = 4 ∧ a.bytes = 2 ∨ a.size = 8 ∧ a.bytes = 3 := by
  unfold RegAcc.size
  by_cases h2 : a.bytes = 2
  · exact .inr (.inl ⟨if_pos h2, h2⟩)
  · by_cases h3 : a.bytes = 3
    · exact .inr (.inr ⟨by rw [if_neg h2, if_pos h3], h3⟩)
    · exact .inl ⟨by rw [if_neg h2, if_neg h3], h2, h3⟩

/-- An access of no legal size, unaligned, or beyond the window is malformed (R21, R302). -/
theorem malformed_of_bytes {a : RegAcc} (h : (a.bytes ≠ 2 ∧ a.bytes ≠ 3) ∨ (a.bytes = 2 ∧ a.addr % 4 ≠ 0) ∨
    (a.bytes = 3 ∧ a.addr % 8 ≠ 0) ∨ 0x100000 ≤ a.addr) : a.malformed = true := by
  have hsize := size_of_bytes a
  simp only [RegAcc.malformed, Bool.or_eq_true, decide_eq_true_eq]
  rcases h with ⟨h2, h3⟩ | ⟨h2, ha⟩ | ⟨h3, ha⟩ | hbig
  · refine .inl (.inl ?_)
    rcases hsize with ⟨h0, -⟩ | ⟨-, hb⟩ | ⟨-, hb⟩
    · exact h0
    · exact absurd hb h2
    · exact absurd hb h3
  · exact .inl (.inr (by rw [RegAcc.size, if_pos h2]; exact ha))
  · exact .inl (.inr (by rw [RegAcc.size, if_neg (by rw [h3]; decide), if_pos h3]; exact ha))
  · exact .inr hbig

/-! ## The target, check by check -/

theorem serve_of_debug_asleep (m : Mem) {e : Eng} {a : RegAcc} (hd : a.mid = 0x81) (hs : asleep e a = true) :
    serve m e a = respond e 1 0 := if_pos ⟨hd, hs⟩

theorem serve_of_malformed (m : Mem) {e : Eng} {a : RegAcc} (hd : ¬ (a.mid = 0x81 ∧ asleep e a = true))
    (hf : a.malformed = true) : serve m e a = respond e 2 0 := by
  rw [serve, if_neg hd, if_pos hf]

theorem serve_of_asleep (m : Mem) {e : Eng} {a : RegAcc} (hf : a.malformed = false) (hs : asleep e a = true) :
    serve m e a = respond e 1 0 := by
  simp only [serve, hf, hs, Bool.false_eq_true, if_false, if_true, ite_self]

theorem serve_of_refused (m : Mem) {e : Eng} {a : RegAcc} (hf : a.malformed = false) (hs : asleep e a = false)
    (ha : accAllows e a.mid a.wr (a.addr / 0x10000) = false) (hr : sleepRead e a = false) :
    serve m e a = respond (refuseAt e 0) 1 0 := by
  simp [serve, hf, hs, ha, hr]

theorem serve_of_no_register (m : Mem) {e : Eng} {a : RegAcc} (hf : a.malformed = false) (hs : asleep e a = false)
    (ha : sleepRead e a = true ∨ accAllows e a.mid a.wr (a.addr / 0x10000) = true)
    (hl : locate (a.addr / 8 * 8) = none) : serve m e a = respond (dropStaged e a) 0 0 := by
  rcases ha with ha | ha <;> simp [serve, hf, hs, ha, hl]

theorem atReg_responds (m : Mem) (e : Eng) (a : RegAcc) (r : Reg) : ∃ f err data, atReg m e a r = respond f err data := by
  unfold atReg
  split
  · exact ⟨_, _, _, rfl⟩
  · split
    · exact ⟨_, _, _, rfl⟩
    · split
      · exact ⟨_, _, _, rfl⟩
      · exact ⟨_, _, _, rfl⟩

/-- Every access that the target takes gets a response. -/
theorem serve_responds (m : Mem) (e : Eng) (a : RegAcc) : ∃ f err data, serve m e a = respond f err data := by
  unfold serve
  split
  · exact ⟨_, _, _, rfl⟩
  · split
    · exact ⟨_, _, _, rfl⟩
    · split
      · exact ⟨_, _, _, rfl⟩
      · split
        · exact ⟨_, _, _, rfl⟩
        · dsimp only
          split
          · exact ⟨_, _, _, rfl⟩
          · exact atReg_responds _ _ _ _

theorem dropStaged_keeps (e : Eng) (a : RegAcc) : (dropStaged e a).regs = e.regs ∧ (dropStaged e a).valleys = e.valleys ∧
    (dropStaged e a).cnt = e.cnt := by
  unfold dropStaged
  split
  · split <;> exact ⟨rfl, rfl, rfl⟩
  · exact ⟨rfl, rfl, rfl⟩

/-- Settles O42: the checks of the target, one after another. -/
theorem registerAccessErrors : Obligations.RegisterAccessErrors := by
  intro mid addr bytes data s wr hon a c awake debugRead answer
  have hexec : exec c s = .next { s with eng := serve s.mem s.eng a } := by
    have hacc : access s.mem s.eng a = serve s.mem s.eng a := if_pos hon
    cases wr
    · show Host.Outcome.next { s with eng := access s.mem s.eng a } = _
      rw [hacc]
    · show Host.Outcome.next { s with eng := access s.mem s.eng a } = _
      rw [hacc]
  have hawake : awake → asleep s.eng a = false := by
    rintro (h | h)
    · rw [asleep, decide_eq_false h, Bool.false_and]
    · show (_ && !retentionGroup (addr.toNat / 0x10000)) = false
      rw [h, Bool.not_true, Bool.and_false]
  have hasleep : ¬ awake → asleep s.eng a = true := by
    intro h
    obtain ⟨hp, hg⟩ := not_or.1 h
    show (decide _ && !retentionGroup (addr.toNat / 0x10000)) = true
    rw [decide_eq_true (Classical.not_not.1 hp), Bool.eq_false_iff.2 hg]
    rfl
  refine ⟨fun hbad hok => ?_, fun hf hs => ?_, fun hf hw hd ha => ?_, fun hf hw hda hl => ?_, ?_⟩
  · have hno : ¬ (a.mid = 0x81 ∧ asleep s.eng a = true) := by
      rintro ⟨hm, hs⟩
      exact Bool.false_ne_true ((hawake (hok.resolve_left (Classical.not_not.2 hm))).symm.trans hs)
    rw [hexec, serve_of_malformed s.mem hno (malformed_of_bytes hbad)]
    rfl
  · rw [hexec]
    rcases hf with hf | hm
    · rw [serve_of_asleep s.mem hf (hasleep hs)]
      rfl
    · rw [serve_of_debug_asleep s.mem hm (hasleep hs)]
      rfl
  · have hsr : sleepRead s.eng a = false := by
      refine Bool.eq_false_iff.2 fun h => hd ?_
      simp only [sleepRead, Bool.and_eq_true, decide_eq_true_eq] at h
      obtain ⟨⟨⟨hp, hm, hwr⟩, hlvl⟩, -⟩ := h
      exact ⟨hp, hm, hwr, hlvl⟩
    rw [hexec, serve_of_refused s.mem hf (hawake hw) ha hsr]
    rfl
  · have hallow : sleepRead s.eng a = true ∨ accAllows s.eng a.mid a.wr (a.addr / 0x10000) = true := by
      refine hda.imp_left ?_
      rintro ⟨hp, hm, hwr, hlvl⟩
      have hg : retentionGroup (a.addr / 0x10000) = true := hw.resolve_left (Classical.not_not.2 hp)
      have hpm : s.eng.side.pwrState = 2 ∧ a.mid = 0x81 ∧ a.wr = false := ⟨hp, hm, hwr⟩
      rw [sleepRead, decide_eq_true hpm, decide_eq_true hlvl, hg]
      rfl
    obtain ⟨hregs, hv, hcnt⟩ := dropStaged_keeps s.eng a
    refine ⟨_, hexec, ?_, rfl, ?_, ?_, ?_⟩ <;> rw [serve_of_no_register s.mem hf (hawake hw) hallow hl]
    · rfl
    · exact hregs
    · exact hv
    · exact hcnt
  · obtain ⟨f, err, x, hx⟩ := serve_responds s.mem s.eng a
    refine ⟨_, (err, x), hexec, ?_, rfl⟩
    rw [hx]
    rfl

end Sys2Proof.Machine

/-!
Writes of configuration registers (R253, R256, R303, R305).
-/

namespace Sys2Proof.Machine

/-! ## Registers with configuration fields -/

theorem wideRc_of_fields {r : Reg} (h : r.fields ≠ []) : r.wideRc = false := by
  unfold Reg.wideRc
  split
  · exact absurd rfl h
  · exact absurd rfl h
  · rfl

/-- A register with configuration fields takes a write by its fields. -/
theorem store_of_fields {r : Reg} (h : r.fields ≠ []) (m : Mem) (e : Eng) (mid : Byte) (full raw : W64) :
    Reg.store m e mid r full raw = Reg.write e r full := by
  have hne : ¬ r.fields.isEmpty = true := fun hz => h (List.isEmpty_iff.1 hz)
  unfold Reg.store
  split
  case h_16 => exact if_neg hne
  all_goals exact absurd rfl h

/-! ## Judgement of the written word -/

/-- Do the rules of a register and those between fields admit the word? -/
def wordGood (e : Eng) (r : Reg) (w : W64) : Prop :=
  Reg.rangeOk r w = true ∧ Reg.entryOk e r w = true ∧ Reg.crossOk e (Reg.put e r w) r = true ∧
    Reg.nsOk (Reg.put e r w) r = true ∧ Reg.lbaOk (Reg.put e r w) r = true

/-- Is the word refused, as the register judges it? -/
def wordBad (e : Eng) (r : Reg) (w : W64) : Bool :=
  !Reg.rangeOk r w || !Reg.entryOk e r w || !Reg.crossOk e (Reg.put e r w) r || !Reg.nsOk (Reg.put e r w) r ||
    !Reg.lbaOk (Reg.put e r w) r

theorem wordBad_of_good {e : Eng} {r : Reg} {w : W64} (h : wordGood e r w) : wordBad e r w = false := by
  obtain ⟨h1, h2, h3, h4, h5⟩ := h
  rw [wordBad, h1, h2, h3, h4, h5]
  rfl

theorem wordBad_of_not_good {e : Eng} {r : Reg} {w : W64} (h : ¬ wordGood e r w) : wordBad e r w = true := by
  refine Classical.byContradiction fun hb => h ?_
  simpa [wordBad, wordGood, and_assoc] using hb

theorem write_of_locked {e : Eng} {r : Reg} {d : W64} (hl : Reg.locks e r (d &&& r.mask) = true)
    (hg : wordGood e r (d &&& r.mask)) : Reg.write e r d = cfgLock e := by
  show (if _ then (if wordBad e r (d &&& r.mask) = true then _ else _) else _) = _
  rw [if_pos hl, wordBad_of_good hg, if_neg Bool.false_ne_true]

theorem write_of_both {e : Eng} {r : Reg} {d : W64} (hl : Reg.locks e r (d &&& r.mask) = true)
    (hg : ¬ wordGood e r (d &&& r.mask)) : Reg.write e r d = cfgError (cfgLock e) := by
  show (if _ then (if wordBad e r (d &&& r.mask) = true then _ else _) else _) = _
  rw [if_pos hl, if_pos (wordBad_of_not_good hg)]

theorem write_of_refused {e : Eng} {r : Reg} {d : W64} (hl : Reg.locks e r (d &&& r.mask) = false)
    (hg : ¬ wordGood e r (d &&& r.mask)) : Reg.write e r d = cfgError e := by
  show (if _ then _ else if wordBad e r (d &&& r.mask) = true then _ else _) = _
  rw [hl, if_neg Bool.false_ne_true, if_pos (wordBad_of_not_good hg)]

theorem write_of_taken {e : Eng} {r : Reg} {d : W64} (hl : Reg.locks e r (d &&& r.mask) = false)
    (hg : wordGood e r (d &&& r.mask)) : Reg.write e r d = flushAll (Reg.put e r (d &&& r.mask)) := by
  show (if _ then _ else if wordBad e r (d &&& r.mask) = true then _ else _) = _
  rw [hl, if_neg Bool.false_ne_true, wordBad_of_good hg, if_neg Bool.false_ne_true]

/-- An 8-byte write of a configuration register at its place. -/
theorem exec_writeFields {s : State} {mid : BitVec 8} {addr : BitVec 24} {r : Reg} (data : W64)
    (h : Reaches s mid true addr.toNat) (ha : addr.toNat % 8 = 0) (hmax : addr.toNat < 0x100000)
    (hg : addr.toNat / 0x10000 ≠ 6) (hl : locate addr.toNat = some r) (hf : r.fields ≠ [])
    (hown : mayOwn s.eng mid r = true) :
    exec (.registerWrite mid addr 3 data) s = .next { s with eng := respond (Reg.write s.eng r data) 0 0 } := by
  have hbus := busWrite_eight data h ha hmax hg hl (wideRc_of_fields hf) hown
  rw [store_of_fields hf] at hbus
  exact congrArg Host.Outcome.next hbus

/-- Settles O43: the four cases of the word's judgement. -/
theorem configurationWrites : Obligations.ConfigurationWrites := by
  intro mid addr data s r h ha hmax hg hl hf hown w new good answer
  rw [exec_writeFields data h ha hmax hg hl hf hown]
  exact ⟨fun hlock hgood => by rw [write_of_locked hlock hgood]; rfl,
    fun hlock hbad => by rw [write_of_both hlock hbad]; rfl,
    fun hlock hbad => by rw [write_of_refused hlock hbad]; rfl,
    fun hlock hgood => by rw [write_of_taken hlock hgood]; rfl⟩

end Sys2Proof.Machine

/-!
Register accesses at the places of queues, and the half words of an access (R302, R303).
-/

namespace Sys2Proof.Machine

/-! ## Half words -/

/-- The word of a 4-byte write of the low half: the written half under the high half as it was. -/
def lowOver (old data : W64) : W64 := (old &&& 0xFFFFFFFF00000000) ||| (data &&& 0xFFFFFFFF)

theorem bit_lowMask {i : Nat} (hi : i < 32) : bit (0xFFFFFFFF : W64) i = true := by
  rw [show (0xFFFFFFFF : W64) = (BitVec.allOnes 32).setWidth 64 by decide, bit, BitVec.getLsbD_setWidth,
    BitVec.getLsbD_allOnes]
  simp [hi, show i < 64 by omega]

theorem bit_highMask {i : Nat} (hi : i < 32) : bit (0xFFFFFFFF00000000 : W64) i = false := by
  rw [show (0xFFFFFFFF00000000 : W64) = (0xFFFFFFFF : W64) <<< 32 by decide, bit, BitVec.getLsbD_shiftLeft]
  simp [hi]

theorem bit_low (data : W64) {i : Nat} (hi : i < 32) : bit (data &&& 0xFFFFFFFF) i = bit data i := by
  have h := bit_lowMask hi
  unfold bit at h ⊢
  rw [BitVec.getLsbD_and, h, Bool.and_true]

theorem bit_lowOver (old data : W64) {i : Nat} (hi : i < 32) : bit (lowOver old data) i = bit data i := by
  have h := bit_highMask hi
  have hl := bit_low data hi
  unfold bit at h hl ⊢
  rw [lowOver, BitVec.getLsbD_or, BitVec.getLsbD_and, h, Bool.and_false, Bool.false_or, hl]

theorem fld_congr {n k : Nat} {x : BitVec n} {y : BitVec k} {lo w : Nat} (h : ∀ i, i < w → bit x (lo + i) = bit y (lo + i)) :
    fld x lo w = fld y lo w := by
  unfold fld
  congr 1
  refine BitVec.eq_of_getLsbD_eq fun i hi => ?_
  rw [BitVec.getLsbD_extractLsb', BitVec.getLsbD_extractLsb']
  exact congrArg (_ && ·) (h i hi)

theorem bit_wide (data : W32) {i : Nat} (hi : i < 32) : bit (data.setWidth 64 : W64) i = bit data i := by
  unfold bit
  rw [BitVec.getLsbD_setWidth]
  simp [show i < 64 by omega]

/-- A field of the low half of a written 4-byte word is the field that was written. -/
theorem fld_lowOver_wide (old : W64) (data : W32) {lo w : Nat} (h : lo + w ≤ 32) :
    fld (lowOver old (data.setWidth 64)) lo w = fld data lo w :=
  fld_congr fun i hi => by rw [bit_lowOver _ _ (by omega), bit_wide _ (by omega)]

/-! ## Places -/

/-- Whether an access reaches a register depends on its group alone. -/
theorem Reaches.of_group {s : State} {mid : Byte} {wr : Bool} {a b : Nat} (h : Reaches s mid wr a)
    (hg : b / 0x10000 = a / 0x10000) : Reaches s mid wr b := by
  unfold Reaches at h ⊢
  rwa [hg]

theorem locate_queue {q o : Nat} (hq : q < 64) (ho : o < 0x40) : locate (queueAddr q o) = locate3 q o := by
  have h1 : queueAddr q o / 0x10000 = 3 := by unfold queueAddr; omega
  have h2 : queueAddr q o % 0x10000 = 0x40 * q + o := by unfold queueAddr; omega
  simp only [locate, h1, h2, if_pos (show 0x40 * q + o < 0x1000 by omega), show (0x40 * q + o) / 0x40 = q by omega,
    show (0x40 * q + o) % 0x40 = o by omega]

/-- A 4-byte write of a register of a queue. -/
theorem queueWrite {s : State} {mid : Byte} {q : Fin 64} {o : Nat} {r : Reg} (data : W64) (h : Reaches s mid true 0x30000)
    (ho : o < 0x40) (h8 : o % 8 = 0) (hl : locate3 q.val o = some r) (hrc : r.wideRc = false)
    (hown : mayOwn s.eng mid r = true) :
    busWrite mid (queueAddr q.val o) four data s = { s with
      eng := respond (Reg.store s.mem s.eng mid r (lowOver (Reg.before s.eng r) data) (data &&& 0xFFFFFFFF)) 0 0 } := by
  have hq := q.isLt
  have hg : queueAddr q.val o / 0x10000 = 3 := by unfold queueAddr; omega
  exact busWrite_four data (h.of_group (by rw [hg])) (by unfold queueAddr; omega) (by unfold queueAddr; omega)
    (by rw [hg]; decide) ((locate_queue hq ho).trans hl) hrc hown

end Sys2Proof.Machine

/-!
Queue doorbells, enabling and disabling of queues, and acknowledged vectors (R23, R124, R235, R236, R308).
-/

namespace Sys2Proof.Machine

/-! ## A newest reply that is written for good -/

theorem replyWritten_of_settled {e : Eng} {q : Nat} (h : (getQ e q).inFlight = false) : replyWritten e q = e := by
  rw [replyWritten, h, if_neg Bool.false_ne_true]

theorem getQ_queueFinal_ne {q r : Nat} (h : r ≠ q) (e : Eng) : getQ (queueFinal e q) r = getQ e r := by
  unfold queueFinal
  dsimp only
  split
  · rw [getQ_queueFault, getQ_updQ_ne h]
  · rfl

theorem getQ_replyWritten_ne {q r : Nat} (h : r ≠ q) (e : Eng) : getQ (replyWritten e q) r = getQ e r := by
  unfold replyWritten
  split
  · dsimp only
    rw [getQ_updQ_ne h]
    split
    · rw [getQ_queueFinal_ne h, getQ_updQ_ne h]
    · rw [getQ_updQ_ne h]
  · rfl

/-! ## Enabling and disabling (R308) -/

/-- Two engines differ in the Basin alone. -/
def BasinOnly (e f : Eng) : Prop := f = { e with basin := f.basin }

theorem BasinOnly.refl (e : Eng) : BasinOnly e e := rfl

theorem BasinOnly.trans {e f g : Eng} (h : BasinOnly e f) (k : BasinOnly f g) : BasinOnly e g := by
  have h : f = { e with basin := f.basin } := h
  have k : g = { f with basin := g.basin } := k
  unfold BasinOnly
  rw [k, h]

/-- Reserving pages changes the Basin alone. -/
theorem reservePages_basinOnly {e : Eng} {p n : Nat} {o : PageOwner} {r : List Nat × Eng}
    (h : reservePages e p n o = some r) : BasinOnly e r.2 := by
  unfold reservePages at h
  split at h
  · cases h
  · rw [← Option.some.inj h]
    rfl

/-- Pages of the command staging partition for an owner that has none, if the partition holds as many. -/
def stagePages (e : Eng) (n : Nat) (o : PageOwner) : Eng :=
  if e.basin.owners.any fun x => decide (x.2 = o) then e
  else match reservePages e 4 n o with
    | some r => r.2
    | none => e

theorem stagePages_basinOnly (e : Eng) (n : Nat) (o : PageOwner) : BasinOnly e (stagePages e n o) := by
  unfold stagePages
  split
  · exact .refl e
  · split
    · next h => exact reservePages_basinOnly h
    · exact .refl e

theorem queuePages_eq (e : Eng) (q : Nat) : queuePages e q = stagePages (stagePages e 2 (.queue q)) 256 .events := rfl

theorem queuePages_basinOnly (e : Eng) (q : Nat) : BasinOnly e (queuePages e q) := by
  rw [queuePages_eq]
  exact (stagePages_basinOnly _ _ _).trans (stagePages_basinOnly _ _ _)

/-- A queue that has just been enabled. -/
def freshQueue (x : Queue) : Queue :=
  { x with want := true, enabled := true, error := false, sub := 0, fetch := 0, cplDone := 0, reply := 0, phase := true
           buf := [], out := 0, failFetch := false, failReply := false, dropped := 0, inFlight := false }

theorem enableQueue_of_disabled {e : Eng} {q : Nat} (h : (getQ e q).enabled = false) :
    ∃ f, BasinOnly e f ∧ enableQueue e q = updQ f q freshQueue :=
  ⟨queuePages e q, queuePages_basinOnly e q, by rw [enableQueue, h, if_neg Bool.false_ne_true]; rfl⟩

theorem enableQueue_of_enabled {e : Eng} {q : Nat} (h : (getQ e q).enabled = true) : enableQueue e q = e := if_pos h

theorem queueSettle_of_empty {x : Queue} (hw : x.want = false) (he : x.enabled = true) (ho : x.out = 0) (hb : x.buf = [])
    (hf : x.finalDue = false) : queueSettle x =
      { x with enabled := false, error := false, sub := 0, fetch := 0, cplDone := 0, reply := 0, phase := true
               failFetch := false, failReply := false, dropped := 0 } :=
  if_pos (by simp [hw, he, ho, hb, hf])

theorem queueSettle_of_fetched {x : Queue} (ho : x.out ≠ 0) : queueSettle x = x := if_neg (by simp [ho])

/-! ## Writes of QCTRL and of the doorbells -/

/-- A 4-byte write of QCTRL. -/
theorem exec_writeQctrl {s : State} {mid : BitVec 8} {q : Fin 64} (data : W64) (h : Reaches s mid true 0x30000)
    (hown : mayOwn s.eng mid (.qCtrl q.val) = true) :
    busWrite mid (queueAddr q.val 0x10) four data s =
      { s with eng := respond (writeQctrl s.eng q.val (lowOver (Reg.before s.eng (.qCtrl q.val)) data)) 0 0 } :=
  queueWrite data h (by decide) (by decide) rfl rfl hown

theorem writeQctrl_enable {e : Eng} {q : Nat} {w : W64} (h0 : bit w 0 = true) (h4 : bit w 4 = false) :
    writeQctrl e q w = enableQueue (replyWritten e q) q := by
  simp only [writeQctrl, h0, h4, Bool.false_eq_true, if_false, if_true]

theorem writeQctrl_disable {e : Eng} {q : Nat} {w : W64} (h0 : bit w 0 = false) (h4 : bit w 4 = false) :
    writeQctrl e q w = updQ (replyWritten e q) q fun x => queueSettle { x with want := false } := by
  simp only [writeQctrl, h0, h4, Bool.false_eq_true, if_false, disableQueue]

theorem writeQctrl_acknowledge {e : Eng} {q : Nat} {w : W64} (h0 : bit w 0 = true) (h4 : bit w 4 = true) :
    writeQctrl e q w = enableQueue (ackIrq (replyWritten e q) (BitVec.ofNat 68 (2 ^ q))) q := by
  simp only [writeQctrl, h0, h4, if_true]

theorem doorbell_of_closed {e : Eng} {q : Nat} (f : Queue → Queue) (h : (getQ e q).enabled = false ∨ (getQ e q).want = false) :
    doorbell e q f = e := by
  rcases h with h | h <;> simp [doorbell, h]

theorem doorbell_of_open {e : Eng} {q : Nat} (f : Queue → Queue) (he : (getQ e q).enabled = true)
    (hw : (getQ e q).want = true) : doorbell e q f = updQ e q f := by
  simp [doorbell, he, hw]

theorem exec_qsubDb {s : State} {mid : BitVec 8} {q : Fin 64} (data : W32) (h : Reaches s mid true 0x30000)
    (hown : mayOwn s.eng mid (.qCtrl q.val) = true) :
    exec (.qsubDb mid q data) s =
      .next { s with eng := respond (doorbell s.eng q.val fun x => { x with sub := fld data 0 10 }) 0 0 } := by
  have hw := queueWrite (o := 0x18) (r := .qSubDb q.val) (data.setWidth 64) h (by decide) (by decide) rfl rfl hown
  rw [Reg.store, fld_lowOver_wide _ _ (by decide)] at hw
  exact congrArg Host.Outcome.next hw

theorem exec_qcplDb {s : State} {mid : BitVec 8} {q : Fin 64} (data : W32) (h : Reaches s mid true 0x30000)
    (hown : mayOwn s.eng mid (.qCtrl q.val) = true) :
    exec (.qcplDb mid q data) s =
      .next { s with eng := respond (doorbell s.eng q.val fun x => { x with cplDone := fld data 0 10 }) 0 0 } := by
  have hw := queueWrite (o := 0x20) (r := .qCplDb q.val) (data.setWidth 64) h (by decide) (by decide) rfl rfl hown
  rw [Reg.store, fld_lowOver_wide _ _ (by decide)] at hw
  exact congrArg Host.Outcome.next hw

/-! ## Acknowledged vectors (R23, R124) -/

theorem bit_clear {n : Nat} (x b : BitVec n) {i : Nat} (hi : i < n) : bit (x &&& ~~~b) i = (bit x i && !bit b i) := by
  simp only [bit, BitVec.getLsbD_and, BitVec.getLsbD_not, hi, decide_true, Bool.true_and]

theorem bit_of_le {n : Nat} (x : BitVec n) {i : Nat} (hi : n ≤ i) : bit x i = false := BitVec.getLsbD_of_ge x i hi

/-- The engine with some vectors acknowledged, and nothing more. -/
def acked (e : Eng) (bits : BitVec 68) : Eng := { e with ctl := { e.ctl with irq := e.ctl.irq &&& ~~~bits } }

theorem ackIrq_of_low {e : Eng} {bits : BitVec 68} (h : bit bits 66 = false) : ackIrq e bits = acked e bits := by
  rw [ackIrq, h, if_neg Bool.false_ne_true]
  rfl

theorem ackIrq_of_high {e : Eng} {bits : BitVec 68} (h : bit bits 66 = true) : ackIrq e bits = flushIrq66 (acked e bits) := by
  rw [ackIrq, if_pos h]
  rfl

theorem bit_acked (e : Eng) (bits : BitVec 68) (n : Nat) : bit (acked e bits).ctl.irq n = (bit e.ctl.irq n && !bit bits n) := by
  by_cases hn : n < 68
  · exact bit_clear _ _ hn
  · rw [bit_of_le _ (Nat.not_lt.1 hn), bit_of_le _ (Nat.not_lt.1 hn), Bool.false_and]

theorem flushIrq66_of_not_due {e : Eng} (h : e.ctl.irq66Due = false ∨ gapOver e = false) : flushIrq66 e = e := by
  rcases h with h | h <;> simp [flushIrq66, h]

/-- The vectors that a write of IRQ_STATUS1 acknowledges. -/
theorem bit_status1 (w : W64) (n : Nat) :
    bit (BitVec.ofNat 68 (fld w 0 4 * 2 ^ 64)) n = (decide (64 ≤ n ∧ n < 68) && bit w (n - 64)) := by
  have hf (i : Nat) : (fld w 0 4).testBit i = (decide (i < 4) && bit w i) := by
    rw [fld, BitVec.testBit_toNat, BitVec.getLsbD_extractLsb', Nat.zero_add]
    rfl
  rw [bit, BitVec.getLsbD_ofNat, Nat.testBit_mul_two_pow, hf]
  by_cases h1 : 64 ≤ n
  · by_cases h2 : n < 68
    · simp [h1, h2, show n - 64 < 4 by omega]
    · simp [h2]
  · simp [h1]

theorem exec_ackStatus0 {s : State} {mid : BitVec 8} (data : W64) (h : Reaches s mid true 0x40000) :
    exec (.irqAcknowledge mid .status0 data) s =
      .next { s with eng := respond (acked s.eng (data.setWidth 68)) 0 0 } := by
  have hw := busWrite_eight (r := .irqStatus0) (addr := 0x40020) data (h.of_group rfl) (by decide) (by decide) (by decide)
    rfl rfl (by simp [mayOwn, Reg.own])
  have hlow : bit (data.setWidth 68) 66 = false := by
    rw [bit, BitVec.getLsbD_setWidth, BitVec.getLsbD_of_ge _ _ (by decide), Bool.and_false]
  rw [Reg.store, ackIrq_of_low hlow] at hw
  exact congrArg Host.Outcome.next hw

/-- The vectors that a 4-byte write of IRQ_STATUS1 acknowledges. -/
def status1Bits (data : W64) : BitVec 68 := BitVec.ofNat 68 (fld data 0 4 * 2 ^ 64)

theorem exec_ackStatus1 {s : State} {mid : BitVec 8} (data : W64) (h : Reaches s mid true 0x40000) :
    exec (.irqAcknowledge mid .status1 data) s = .next { s with eng := respond (ackIrq s.eng (status1Bits data)) 0 0 } := by
  have hw := busWrite_four (r := .irqStatus1) (addr := 0x40028) data (h.of_group rfl) (by decide) (by decide) (by decide)
    rfl rfl (by simp [mayOwn, Reg.own])
  have hf : fld (lowOver (Reg.before s.eng .irqStatus1) data) 0 4 = fld data 0 4 :=
    fld_congr fun i hi => bit_lowOver _ _ (by omega)
  rw [← lowOver, Reg.store, hf] at hw
  exact congrArg Host.Outcome.next hw

/-- The vectors after a write of IRQ_STATUS1, before a message that was due goes out. -/
theorem bit_acked_status1 (e : Eng) (data : W64) {n : Nat} : bit (acked e (status1Bits data)).ctl.irq n =
    (bit e.ctl.irq n && !(decide (64 ≤ n ∧ n < 68) && bit data (n - 64))) := by
  rw [bit_acked, status1Bits, bit_status1]

/-- A message on vector 66 changes no other vector. -/
theorem ackStatus1_sent {e : Eng} {data : W64} (hd : e.ctl.irq66Due = true) (h2 : bit data 2 = true) (hg : gapOver e = true) :
    ∃ f, ackIrq e (status1Bits data) = f ∧ f.io.irqMsg = (66, 0) :: e.io.irqMsg ∧ f.ctl.irq66Due = false ∧
      f.ctl.irq66Ts = some e.side.ts ∧ bit f.ctl.irq 66 = true ∧
      ∀ n, n < 68 → n ≠ 66 → bit f.ctl.irq n = bit (acked e (status1Bits data)).ctl.irq n := by
  have h66 : bit (status1Bits data) 66 = true := by
    rw [status1Bits, bit_status1, h2]
    rfl
  have hfree : bit (acked e (status1Bits data)).ctl.irq 66 = false := by rw [bit_acked, h66, Bool.not_true, Bool.and_false]
  refine ⟨_, rfl, ?_⟩
  rw [ackIrq_of_high h66, flushIrq66_of_due (e := acked e (status1Bits data)) hd hg hfree, sendIrq, hfree, if_neg Bool.false_ne_true]
  refine ⟨rfl, rfl, rfl, ?_, fun n hn hne => ?_⟩
  · exact (bit_setBit _ 66 66 (by decide)).trans (by simp)
  · exact (bit_setBit _ 66 n hn).trans (by simp [hne])

theorem ackStatus1_kept {e : Eng} {data : W64} (h : e.ctl.irq66Due = false ∨ bit data 2 = false ∨ gapOver e = false) :
    ackIrq e (status1Bits data) = acked e (status1Bits data) := by
  cases h66 : bit (status1Bits data) 66 with
  | false => exact ackIrq_of_low h66
  | true =>
    have h2 : bit data 2 = true := by
      rw [status1Bits, bit_status1] at h66
      exact (Bool.and_eq_true_iff.1 h66).2
    rw [ackIrq_of_high h66]
    exact flushIrq66_of_not_due (h.imp id fun h => h.resolve_left fun h0 => Bool.false_ne_true (h0.symm.trans h2))

/-- Settles O44: QCTRL after the newest reply is written for good, the doorbells, and the three places where vectors are
acknowledged. -/
theorem queuesAndVectors : Obligations.QueuesAndVectors := by
  refine ⟨fun mid q data s h hown => ?_, fun mid q data s h4 h3 => ?_⟩
  · intro e0 x y
    have hen : exec (.queueEnable mid q) s = _ := congrArg Host.Outcome.next (exec_writeQctrl 1 h hown)
    have hdis : exec (.queueDisable mid q) s = _ := congrArg Host.Outcome.next (exec_writeQctrl 0 h hown)
    rw [writeQctrl_enable (by rw [bit_lowOver _ _ (by decide)]; decide) (by rw [bit_lowOver _ _ (by decide)]; decide)] at hen
    rw [writeQctrl_disable (by rw [bit_lowOver _ _ (by decide)]; decide) (by rw [bit_lowOver _ _ (by decide)]; decide)] at hdis
    have hans : OnlyAnswers s.eng e0 := onlyAnswers_replyWritten _ _
    have hother (r : Nat) (hr : r ≠ q.val) : getQ e0 r = getQ s.eng r := getQ_replyWritten_ne hr _
    refine ⟨replyWritten_of_settled, fun hy => ?_, fun hx => ⟨?_, ?_⟩, fun hx hw => ⟨?_, ?_⟩, fun hy ho hb hf => ?_,
      fun hy ho => ?_⟩
    · obtain ⟨f, hf, he⟩ := enableQueue_of_disabled hy
      have hf : f = { e0 with basin := f.basin } := hf
      rw [he] at hen
      refine ⟨_, hen, rfl, rfl, ?_, fun r hr => ?_, ?_, ?_, ?_, ?_⟩
      · exact (getQ_updQ_same f q.val freshQueue).trans (by rw [hf]; rfl)
      · exact (getQ_updQ_ne hr f freshQueue).trans ((by rw [hf]; rfl : getQ f r = getQ e0 r).trans (hother r hr))
      · exact (by rw [hf] : f.valleys = e0.valleys).trans hans.valleys
      · exact (by rw [hf] : f.ctl.irq = e0.ctl.irq)
      · exact (by rw [hf] : f.regions = e0.regions).trans hans.regions
      · exact (by rw [hf] : f.lanes = e0.lanes).trans hans.lanes
    · refine ⟨_, exec_qsubDb data h hown, rfl, ?_, rfl⟩
      rw [doorbell_of_closed _ hx]
      rfl
    · refine ⟨_, exec_qcplDb data h hown, rfl, ?_, rfl⟩
      rw [doorbell_of_closed _ hx]
      rfl
    · refine ⟨_, exec_qsubDb data h hown, rfl, rfl, ?_⟩
      rw [doorbell_of_open _ hx hw]
      exact ⟨getQ_updQ_same s.eng q.val fun x => { x with sub := fld data 0 10 },
        fun r hr => getQ_updQ_ne hr s.eng fun x => { x with sub := fld data 0 10 }, rfl, rfl⟩
    · refine ⟨_, exec_qcplDb data h hown, rfl, rfl, ?_⟩
      rw [doorbell_of_open _ hx hw]
      exact ⟨getQ_updQ_same s.eng q.val fun x => { x with cplDone := fld data 0 10 },
        fun r hr => getQ_updQ_ne hr s.eng fun x => { x with cplDone := fld data 0 10 }, rfl, rfl⟩
    · have hq := getQ_updQ_same e0 q.val fun x => queueSettle { x with want := false }
      rw [queueSettle_of_empty (x := { getQ e0 q.val with want := false }) rfl hy ho hb hf] at hq
      refine ⟨_, hdis, rfl, rfl, ?_, ?_, ?_, fun r hr => (getQ_updQ_ne hr e0 fun x => queueSettle { x with want := false }).trans (hother r hr), hans.valleys⟩
      · exact congrArg Queue.enabled hq
      · exact congrArg Queue.reply hq
      · exact congrArg Queue.phase hq
    · have hq := getQ_updQ_same e0 q.val fun x => queueSettle { x with want := false }
      rw [queueSettle_of_fetched (x := { getQ e0 q.val with want := false }) ho] at hq
      exact ⟨_, hdis, rfl, hq, fun r hr => (getQ_updQ_ne hr e0 fun x => queueSettle { x with want := false }).trans (hother r hr)⟩
  · intro e0
    refine ⟨?_, fun hno => ?_, fun hd h2 hg => ?_, fun hown hen => ?_⟩
    · have hb (n : Nat) : bit (data.setWidth 68) n = (decide (n < 68) && bit data n) := BitVec.getLsbD_setWidth _ _ _
      refine ⟨_, exec_ackStatus0 data h4, rfl, rfl, fun n hn => ?_, fun n hn => ?_, rfl, rfl⟩
      · refine (bit_acked s.eng _ n).trans ?_
        rw [hb, decide_eq_true (show n < 68 by omega), Bool.true_and]
      · refine (bit_acked s.eng _ n).trans ?_
        rw [hb, bit_of_le data hn, Bool.and_false, Bool.not_false, Bool.and_true]
    · have hk := ackStatus1_kept hno
      refine ⟨_, exec_ackStatus1 data h4, rfl, fun n hn => ?_, fun n hn => ?_, ?_, ?_⟩ <;> rw [hk]
      · refine (bit_acked_status1 s.eng data).trans ?_
        rw [decide_eq_true (show 64 ≤ 64 + n ∧ 64 + n < 68 by omega), Bool.true_and, Nat.add_sub_cancel_left]
      · refine (bit_acked_status1 s.eng data).trans ?_
        rw [decide_eq_false (by omega), Bool.false_and, Bool.not_false, Bool.and_true]
      · rfl
      · rfl
    · obtain ⟨f, hf, hmsg, hdue, hts, h66, hrest⟩ := ackStatus1_sent hd h2 hg
      have hx := exec_ackStatus1 data h4
      rw [hf] at hx
      refine ⟨_, hx, rfl, hmsg, h66, hdue, hts, fun n hn hne => ?_, fun n hn => ?_⟩
      · refine (hrest (64 + n) (by omega) (by omega)).trans ((bit_acked_status1 s.eng data).trans ?_)
        rw [decide_eq_true (show 64 ≤ 64 + n ∧ 64 + n < 68 by omega), Bool.true_and, Nat.add_sub_cancel_left]
      · refine (hrest n (by omega) (by omega)).trans ((bit_acked_status1 s.eng data).trans ?_)
        rw [decide_eq_false (by omega), Bool.false_and, Bool.not_false, Bool.and_true]
    · have hq := q.isLt
      have hx : exec (.irqAcknowledge mid (.qctrl q) 0x11) s = _ :=
        congrArg Host.Outcome.next (exec_writeQctrl 0x11 h3 hown)
      have hbit (n : Nat) : bit (BitVec.ofNat 68 (2 ^ q.val)) n = decide (n = q.val) := by
        rw [bit, BitVec.getLsbD_ofNat, Nat.testBit_two_pow]
        by_cases hn : n = q.val
        · simp [hn, show q.val < 68 by omega]
        · simp [hn, Ne.symm hn]
      rw [writeQctrl_acknowledge (by rw [bit_lowOver _ _ (by decide)]; decide)
        (by rw [bit_lowOver _ _ (by decide)]; decide), ackIrq_of_low (by rw [hbit]; exact decide_eq_false (by omega)),
        enableQueue_of_enabled (e := acked e0 _) hen] at hx
      refine ⟨_, hx, rfl, fun n => (bit_acked e0 _ n).trans ?_, rfl⟩
      rw [hbit, decide_not]

end Sys2Proof.Machine

/-!
The event ring: its enabling, its doorbell, and where an event goes (R244, R245, R246).
-/

namespace Sys2Proof.Machine

/-! ## Writes of the ring's registers -/

/-- With no event held or discarded, nothing goes out to the ring. -/
theorem flushAll_of_empty {e : Eng} (hh : e.ctl.evt.held = []) (hl : e.ctl.evt.lost = 0) : flushAll e = e := by
  have hr : readHeld e = e := by rw [readHeld, hh]; rfl
  rw [flushAll, hr, hh]
  show evtFlush 2 e = e
  simp only [evtFlush, hh, hl, Nat.lt_irrefl, if_false, ite_self, gt_iff_lt]

/-- A 4-byte write in the group of the ring and the vectors. -/
theorem ringWrite {s : State} {mid : Byte} {addr : Nat} {r : Reg} (data : W64) (h : Reaches s mid true 0x40000)
    (ha : addr % 8 = 0) (hg : addr / 0x10000 = 4) (hl : locate addr = some r) (hrc : r.wideRc = false)
    (hown : mayOwn s.eng mid r = true) :
    busWrite mid addr four data s = { s with
      eng := respond (Reg.store s.mem s.eng mid r (lowOver (Reg.before s.eng r) data) (data &&& 0xFFFFFFFF)) 0 0 } :=
  busWrite_four data (h.of_group hg) ha (by omega) (by omega) hl hrc hown

theorem evtCtrl_mask : Reg.mask .evtCtrl = 0x10F := by decide

theorem bit_evtCtrlMask {i : Nat} (hi : i < 4 ∨ i = 8) : bit (Reg.mask .evtCtrl) i = true := by
  rw [evtCtrl_mask]
  rcases hi with hi | rfl
  · have hall : ∀ i : Fin 4, bit (0x10F : W64) i.val = true := by decide
    exact hall ⟨i, hi⟩
  · decide

/-- The word that enabling the ring with some data writes into EVT_CTRL. -/
def ringWord (e : Eng) (data : W32) : W64 :=
  lowOver (Reg.before e .evtCtrl) ((data ||| 0x100).setWidth 64) &&& Reg.mask .evtCtrl

theorem bit_ringWord (e : Eng) (data : W32) {i : Nat} (hi : i < 4 ∨ i = 8) :
    bit (ringWord e data) i = (bit data i || decide (i = 8)) := by
  have h32 : i < 32 := by omega
  have hm := bit_evtCtrlMask hi
  have hl := (bit_lowOver (Reg.before e .evtCtrl) ((data ||| 0x100).setWidth 64) h32).trans (bit_wide _ h32)
  have ho : bit (data ||| 0x100) i = (bit data i || decide (i = 8)) := by
    have hs := bit_setBit data 8 i h32
    rw [Bool.or_comm] at hs
    exact hs
  unfold bit at hm hl ho ⊢
  rw [ringWord, BitVec.getLsbD_and, hm, Bool.and_true, hl, ho]

theorem fld_ringWord (e : Eng) (data : W32) : fld (ringWord e data) 0 4 = fld data 0 4 :=
  fld_congr fun i hi => by
    rw [bit_ringWord e data (.inl (by omega)), decide_eq_false (by omega), Bool.or_false]

theorem bit_narrow (w : W64) {i : Nat} (hi : i < 32) : bit (w.setWidth 32 : W32) i = bit w i := by
  unfold bit
  rw [BitVec.getLsbD_setWidth, decide_eq_true hi, Bool.true_and]

theorem fld_narrow (w : W64) {lo n : Nat} (h : lo + n ≤ 32) : fld (w.setWidth 32 : W32) lo n = fld w lo n :=
  fld_congr fun _ _ => bit_narrow w (by omega)

/-- Enabling the ring while nothing runs. -/
theorem exec_eventRingEnable {s : State} {mid : BitVec 8} {data : W32} (h : Reaches s mid true 0x40000)
    (hh : s.eng.ctl.evt.held = []) (hl : s.eng.ctl.evt.lost = 0) (hr : engineRuns s.eng = false)
    (hsize : 10 ≤ fld data 0 4) :
    exec (.eventRingEnable mid data) s = .next { s with
      eng := respond (updEvt s.eng fun ev => setEvtCtrl ev ((ringWord s.eng data).setWidth 32)) 0 0 } := by
  have hw := ringWrite (r := .evtCtrl) (addr := 0x40008) ((data ||| 0x100).setWidth 64) h (by decide) (by decide) rfl rfl
    (by simp [mayOwn, Reg.own])
  have hlock : Reg.locks s.eng .evtCtrl (ringWord s.eng data) = false := by simp [Reg.locks, Reg.runs, hr]
  have hlt : fld data 0 4 < 16 := (data.extractLsb' 0 4).isLt
  have hrange : Reg.rangeOk .evtCtrl (ringWord s.eng data) = true := by
    have hb : fld (ringWord s.eng data) 8 1 < 2 := ((ringWord s.eng data).extractLsb' 8 1).isLt
    simp only [Reg.rangeOk, Reg.fields, List.all_cons, List.all_nil, RField.ok, RField.get, inF, anyF, fld_ringWord,
      Bool.and_true, Bool.and_eq_true, Bool.or_eq_true, decide_eq_true_eq]
    exact ⟨.inl ⟨hsize, by omega⟩, .inl (decide_eq_true ⟨Nat.zero_le _, Nat.le_pred_of_lt hb⟩)⟩
  have hgood : wordGood s.eng .evtCtrl (ringWord s.eng data) := ⟨hrange, rfl, rfl, rfl, rfl⟩
  rw [store_of_fields (by decide), write_of_taken hlock hgood] at hw
  refine (congrArg Host.Outcome.next hw).trans ?_
  show Host.Outcome.next { s with
    eng := respond (flushAll (updEvt s.eng fun ev => setEvtCtrl ev ((ringWord s.eng data).setWidth 32))) 0 0 } = _
  rw [flushAll_of_empty (e := updEvt s.eng fun ev => setEvtCtrl ev _) hh hl]

theorem exec_evtDb {s : State} {mid : BitVec 8} (data : W32) (h : Reaches s mid true 0x40000)
    (hh : s.eng.ctl.evt.held = []) (hl : s.eng.ctl.evt.lost = 0) :
    exec (.evtDb mid data) s = .next { s with eng := respond (updEvt s.eng fun ev =>
      { ev with consumed := fld data 0 16 % 2 ^ fld ev.ctrl 0 4, stalled := false }) 0 0 } := by
  have hw := ringWrite (r := .evtDb) (addr := 0x40010) (data.setWidth 64) h (by decide) (by decide) rfl rfl
    (by simp [mayOwn, Reg.own])
  rw [Reg.store, writeEvtDb, fld_lowOver_wide _ _ (by decide),
    flushAll_of_empty (e := updEvt s.eng fun ev =>
      { ev with consumed := fld data 0 16 % 2 ^ fld ev.ctrl 0 4, stalled := false }) hh hl] at hw
  exact congrArg Host.Outcome.next hw

/-! ## Where an event goes -/

/-- The engine after an event has taken its number. -/
def numbered (e : Eng) : Eng := updEvt e fun ev => { ev with seq := (ev.seq + 1) % 32768 }

/-- With the ring open and nothing held, an event is written into it. -/
theorem raiseFn_of_open {e : Eng} (fn : Byte) (code st : W16) (v : Option Nat) (r0 r1 : W64) (ho : evtOpen e = true)
    (hh : e.ctl.evt.held = []) (hl : e.ctl.evt.lost = 0) :
    raiseFn e fn code st v r0 r1 = evtWrite (numbered e) (heldEvent e fn code st v r0 r1) := by
  have ho : evtOpen (numbered e) = true := ho
  have hh : (numbered e).ctl.evt.held = [] := hh
  have hl : (numbered e).ctl.evt.lost = 0 := hl
  have hcond : (evtOpen (numbered e) && (numbered e).ctl.evt.held.isEmpty && decide ((numbered e).ctl.evt.lost = 0)) = true := by
    rw [ho, hh, hl]
    rfl
  exact if_pos hcond

/-- With the ring shut and the hold full, an event is discarded and counted. -/
theorem raiseFn_of_lost {e : Eng} (fn : Byte) (code st : W16) (v : Option Nat) (r0 r1 : W64) (ho : evtOpen e = false)
    (hmax : evtHoldMax ≤ e.ctl.evt.held.length) :
    raiseFn e fn code st v r0 r1 = updEvt (drop (numbered e) 27) fun ev =>
      { ev with lost := ev.lost + 1, firstLost := if ev.lost = 0 then e.ctl.evt.seq else ev.firstLost } := by
  have ho : evtOpen (numbered e) = false := ho
  have hcond : ¬ (evtOpen (numbered e) && (numbered e).ctl.evt.held.isEmpty && decide ((numbered e).ctl.evt.lost = 0)) = true := by
    rw [ho]
    exact Bool.false_ne_true
  exact (if_neg hcond).trans (if_neg (Nat.not_lt.2 hmax))

theorem sendIrq_keeps (e : Eng) (n : Nat) : (sendIrq e n).io.hm = e.io.hm ∧ (sendIrq e n).ctl.evt = e.ctl.evt := by
  unfold sendIrq
  split <;> exact ⟨rfl, rfl⟩

theorem sendIrq66_keeps (e : Eng) : (sendIrq66 e).io.hm = e.io.hm ∧ (sendIrq66 e).ctl.evt = e.ctl.evt := by
  by_cases h : irq66Waits e
  · rw [sendIrq66_of_waits h]
    exact ⟨rfl, rfl⟩
  · rw [sendIrq66_of_free h]
    exact sendIrq_keeps e 66

/-- The four words of a record in the ring (R245). -/
def ringRecord (e : Eng) (r : EvRec) : HmWrite :=
  { src := .event, addr := BitVec.ofNat 64 (addrOf e.ctl.evt.base + 32 * e.ctl.evt.next)
    data := [pack [(0, r.code.toNat), (16, r.status.toNat), (32, r.valley.getD 0), (36, b2n r.valley.isSome),
      (40, r.fn.toNat), (48, r.seq), (63, b2n e.ctl.evt.phase)], r.ts, r.r0, r.r1] }

/-- The engine with a record in the ring's next entry, before its vector is sent. -/
def ringNext (e : Eng) (r : EvRec) : Eng :=
  updEvt (updIo e fun io => { io with hm := ringRecord e r :: io.hm }) fun ev =>
    { ev with next := (e.ctl.evt.next + 1) % evtSize e
              phase := if (e.ctl.evt.next + 1) % evtSize e = 0 then !ev.phase else ev.phase
              messaged := if evtVector r.code = 66 ∨ bit e.ctl.irq (evtVector r.code) then none else some (evtVector r.code) }

theorem evtWrite_eq (e : Eng) (r : EvRec) : evtWrite e r =
    if evtVector r.code = 66 then sendIrq66 (ringNext e r) else sendIrq (ringNext e r) (evtVector r.code) := rfl

/-- A record that is written stands in host memory, and its entry is taken. -/
theorem evtWrite_keeps (e : Eng) (r : EvRec) :
    (evtWrite e r).io.hm = ringRecord e r :: e.io.hm ∧ (evtWrite e r).ctl.evt = (ringNext e r).ctl.evt := by
  rw [evtWrite_eq]
  split
  · exact sendIrq66_keeps (ringNext e r)
  · exact sendIrq_keeps (ringNext e r) _

/-- Settles O45: the ring's registers while no event waits, and an event by whether the ring takes it. -/
theorem eventRing : Obligations.EventRing := by
  refine ⟨fun mid data s h hh hl => ⟨fun hoff hr hsize => ?_, ?_⟩, fun e code st v r0 r1 => ?_⟩
  · have h8 : bit (ringWord s.eng data) 8 = true := by
      rw [bit_ringWord _ _ (.inr rfl)]
      simp
    refine ⟨_, exec_eventRingEnable h hh hl hr hsize, rfl, rfl, ?_, ?_, ?_, ?_, rfl, rfl, rfl, rfl⟩
    · exact (bit_narrow _ (by decide)).trans h8
    · exact (fld_narrow _ (by decide)).trans (fld_ringWord _ _)
    · show _ % 2 ^ fld ((ringWord s.eng data).setWidth 32 : W32) 0 4 = _
      rw [fld_narrow _ (by decide), fld_ringWord]
    · show _ % 2 ^ fld ((ringWord s.eng data).setWidth 32 : W32) 0 4 = _
      rw [fld_narrow _ (by decide), fld_ringWord]
  · exact ⟨_, exec_evtDb data h hh hl, rfl, rfl, rfl, rfl, rfl⟩
  · intro f word0
    refine ⟨fun ho hh hl => ?_, fun ho hmax => ?_, fun ho hmax => ?_⟩
    · have hf : f = _ := raiseFn_of_open (getV e v).fn code st (some v) r0 r1 ho hh hl
      obtain ⟨hm, hv⟩ := evtWrite_keeps (numbered e) (heldEvent e (getV e v).fn code st (some v) r0 r1)
      rw [hf, hm, hv]
      exact ⟨rfl, rfl, rfl, rfl⟩
    · have hf : f = _ := raiseFn_of_shut (getV e v).fn code st (some v) r0 r1 ho hmax
      rw [hf]
      exact ⟨rfl, List.map_append, rfl⟩
    · have hf : f = _ := raiseFn_of_lost (getV e v).fn code st (some v) r0 r1 ho hmax
      rw [hf]
      exact ⟨rfl, rfl, rfl, Tab.get_set_same _ _ _ _⟩

end Sys2Proof.Machine

/-!
Writes of descriptors, of remap entries and of the access tables (R218, R219, R277 to R280, R309).
-/

namespace Sys2Proof.Machine

/-! ## Descriptors (R309) -/

/-- An 8-byte write of a word of a descriptor. -/
theorem descWrite {s : State} {d : Fin 1024} {w addr : Nat} (data : W64) (h : Reaches s 0 true 0x60000) (hw : w < 2)
    (haddr : addr = 0x60000 + 32 * d.val + 8 * w) :
    busWrite 0 addr eight data s = { s with
      eng := respond (Reg.store s.mem (dropStaged s.eng
        { mid := 0, wr := true, addr := addr, bytes := eight, data := data }) 0 (.desc d.val w) data data) 0 0 } := by
  have hd := d.isLt
  let a : RegAcc := { mid := 0, wr := true, addr := addr, bytes := eight, data := data }
  have hg : addr / 0x10000 = 6 := by omega
  have hf : a.malformed = false := by
    have h8 : addr % 8 = 0 := by omega
    have hmax : addr < 0x100000 := by omega
    simp [a, RegAcc.malformed, RegAcc.size, eight, h8, hmax]
  have hl : locate (a.addr / 8 * 8) = some (.desc d.val w) := by
    have h1 : a.addr / 8 * 8 = addr := by show addr / 8 * 8 = addr; omega
    have h2 : addr % 0x10000 = 32 * d.val + 8 * w := by omega
    simp only [h1, locate, hg, h2, if_pos (show 32 * d.val + 8 * w < 0x8000 by omega),
      show (32 * d.val + 8 * w) / 32 = d.val by omega, show (32 * d.val + 8 * w) % 32 / 8 = w by omega]
  have hacc := access_of_reaches (a := a) s.mem (h.of_group hg) hf hl
  rw [atReg_of_write s.mem rfl rfl rfl (by simp [a, RegAcc.size, eight]), merge_of_eight, merge_of_eight] at hacc
  show { s with eng := access s.mem s.eng a } = _
  rw [hacc]

theorem dropStaged_eq (e : Eng) (a : RegAcc) :
    dropStaged e a = { e with ctl := { e.ctl with stagedW0 := (dropStaged e a).ctl.stagedW0 } } := by
  unfold dropStaged
  split
  · split <;> rfl
  · rfl

theorem dropStaged_of_own {e : Eng} {a : RegAcc} {x : Nat × W64} (h : e.ctl.stagedW0 = some (x.1, x.2, a.mid)) :
    dropStaged e a = e := by
  simp [dropStaged, h]

theorem setFilters_eq (e : Eng) (d : Nat) (w : W64) : setFilters e d w = { e with lanes := (setFilters e d w).lanes } := rfl

/-- What a REGION_DEFINE can answer, and that it changes descriptors and filters alone. -/
theorem defineRegion_spec (e : Eng) (d : Nat) (a b : W64) :
    ((defineRegion e d a b).1 = stOK ∨ (defineRegion e d a b).1 = stConfigLocked ∨
      (defineRegion e d a b).1 = stOutOfRange) ∧
    (defineRegion e d a b).2 = { e with
      regions := (defineRegion e d a b).2.regions, lanes := (defineRegion e d a b).2.lanes } := by
  unfold defineRegion
  dsimp only
  split
  · split
    · exact ⟨.inl rfl, rfl⟩
    · exact ⟨.inr (.inl rfl), rfl⟩
  · split
    · split
      · exact ⟨.inl rfl, setFilters_eq { e with regions := Tab.del e.regions d } d 0⟩
      · exact ⟨.inr (.inr rfl), rfl⟩
    · split
      · exact ⟨.inr (.inr rfl), rfl⟩
      · exact ⟨.inl rfl, setFilters_eq { e with regions := Tab.set e.regions d _ } d (descBits0 a)⟩

/-- The engine after a REGION_DEFINE through a descriptor's word 1, by its status. -/
def statusBits (r : W16 × Eng) : Eng := if r.1 = stOK then r.2 else if r.1 = stConfigLocked then cfgLock r.2 else cfgError r.2

theorem statusBits_spec {r : W16 × Eng} (h : r.1 = stOK ∨ r.1 = stConfigLocked ∨ r.1 = stOutOfRange) :
    statusBits r = { r.2 with ctl := { r.2.ctl with
      cfgLocked := r.2.ctl.cfgLocked || decide (r.1 = stConfigLocked)
      cfgErr := r.2.ctl.cfgErr || decide (r.1 = stOutOfRange) } } := by
  have h1 : stOK ≠ stConfigLocked := by decide
  have h2 : stOK ≠ stOutOfRange := by decide
  have h3 : stConfigLocked ≠ stOutOfRange := by decide
  unfold statusBits
  rcases h with h | h | h
  · rw [h, if_pos rfl, decide_eq_false h1, decide_eq_false h2, Bool.or_false, Bool.or_false]
  · rw [h, if_neg h1.symm, if_pos rfl, decide_eq_true rfl, decide_eq_false h3, Bool.or_true, Bool.or_false]
    rfl
  · rw [h, if_neg h2.symm, if_neg h3.symm, decide_eq_true rfl, decide_eq_false h3.symm, Bool.or_false, Bool.or_true]
    rfl

/-- Word 1 of a descriptor whose word 0 the physical function has staged. -/
theorem writeWord1_of_staged {e : Eng} {d : Nat} {w0 : W64} (w1 : W64) (h : e.ctl.stagedW0 = some (d, w0, 0)) :
    writeWord1 e 0 d w1 = statusBits (defineRegion { e with ctl := { e.ctl with stagedW0 := none } } d w0 w1) := by
  have hs : stagedWord0 e d = w0 := by simp [stagedWord0, h]
  have hvf : isVf (0 : Byte) = false := by decide
  simp only [writeWord1, hs, hvf, Bool.false_and, Bool.false_eq_true, if_false]
  rfl

/-! ## Remap entries (R218, R219) -/

theorem copySpare_eq (e : Eng) (g r : Nat) : copySpare e g r = { e with basin := { e.basin with
    spare := (copySpare e g r).basin.spare, words := (copySpare e g r).basin.words
    writeback := e.basin.writeback.filter fun w => decide (w.1 / 16 ≠ g) } } := rfl

/-- The engine whose spare page holds a page that is remapped, if the page is valid. -/
def spared (e : Eng) (r g : Nat) : Eng := if pageValid e g then copySpare e g r else e

theorem spared_eq (e : Eng) (r g : Nat) : spared e r g = { e with basin := { e.basin with
    spare := (spared e r g).basin.spare, words := (spared e r g).basin.words
    writeback := (spared e r g).basin.writeback } } := by
  unfold spared
  split
  · exact copySpare_eq _ _ _
  · rfl

theorem spared_writeback {e : Eng} (h : e.basin.writeback = []) (r g : Nat) : (spared e r g).basin.writeback = [] := by
  unfold spared
  split
  · show e.basin.writeback.filter _ = []
    rw [h, List.filter_nil]
  · exact h

/-- The engine in which a remap entry maps a page, before the event. -/
def mapped (e : Eng) (r g : Nat) : Eng :=
  { spared e r g with
    regs := { (spared e r g).regs with remap := Tab.set (spared e r g).regs.remap r (BitVec.ofNat 32 (g + 2 ^ 14)) } }

theorem setRemap_eq (e : Eng) (r g : Nat) :
    setRemap e r g = raise (mapped e r g) evRowRemapped stOK none (pack [(0, g), (16, r)]) 0 := rfl

/-- After an event that nothing held came before, nothing more goes out, unless a word of the events' pages waits for its
write-back while the ring is shut. -/
theorem flushAll_raise {e : Eng} (code st : W16) (r0 r1 : W64) (hh : e.ctl.evt.held = []) (hl : e.ctl.evt.lost = 0)
    (hw : evtOpen e = true ∨ e.basin.writeback = []) :
    flushAll (raise e code st none r0 r1) = raise e code st none r0 r1 := by
  cases ho : evtOpen e with
  | true =>
    have hr : raise e code st none r0 r1 = evtWrite (numbered e) (heldEvent e 0 code st none r0 r1) :=
      raiseFn_of_open 0 code st none r0 r1 ho hh hl
    have hk := (evtWrite_keeps (numbered e) (heldEvent e 0 code st none r0 r1)).2
    rw [hr]
    exact flushAll_of_empty ((congrArg EvtRing.held hk).trans hh) ((congrArg EvtRing.lost hk).trans hl)
  | false =>
    have hb : e.basin.writeback = [] := hw.resolve_left (by rw [ho]; exact Bool.false_ne_true)
    have hr : raise e code st none r0 r1 = updEvt e fun ev => { ev with
        seq := (ev.seq + 1) % 32768, held := ev.held ++ [heldEvent e 0 code st none r0 r1] } :=
      raiseFn_of_shut 0 code st none r0 r1 ho (by rw [hh]; decide)
    have hread : readHeld (raise e code st none r0 r1) = raise e code st none r0 r1 := by
      have hwb : (raise e code st none r0 r1).basin.writeback = [] := by rw [hr]; exact hb
      rw [readHeld, readOwned, engineReads_of_clean hwb, ite_self]
    have hshut : evtOpen (raise e code st none r0 r1) = false := by rw [hr]; exact ho
    rw [flushAll, hread]
    exact evtFlush_of_shut _ hshut

theorem bit_remapMask {i : Nat} (hi : i < 15) : bit (0x7FFF : W64) i = true := by
  have hall : ∀ i : Fin 15, bit (0x7FFF : W64) i.val = true := by decide
  exact hall ⟨i, hi⟩

/-- The word that a 4-byte write of a remap entry leaves in the entry's fields. -/
def remapWord (e : Eng) (i : Nat) (data : W32) : W64 :=
  lowOver (Reg.before e (.remap i)) (data.setWidth 64) &&& Reg.mask (.remap i)

theorem bit_remapWord (e : Eng) (k : Nat) (data : W32) {i : Nat} (hi : i < 15) : bit (remapWord e k data) i = bit data i := by
  have hm : bit (Reg.mask (.remap k)) i = true := bit_remapMask hi
  have h32 : i < 32 := by omega
  have hl := (bit_lowOver (Reg.before e (.remap k)) (data.setWidth 64) h32).trans (bit_wide data h32)
  unfold bit at hm hl ⊢
  rw [remapWord, BitVec.getLsbD_and, hm, Bool.and_true, hl]

theorem fld_remapWord (e : Eng) (k : Nat) (data : W32) : fld (remapWord e k data) 0 14 = fld data 0 14 :=
  fld_congr fun i hi => bit_remapWord e k data (i := 0 + i) (by omega)

/-- A 4-byte write of a remap entry. -/
theorem exec_remapWrite {s : State} (k : Fin 16) (data : W32) (h : Reaches s 0 true 0x70000) :
    exec (.remapWrite 0 k data) s = .next { s with
      eng := respond (Reg.write s.eng (.remap k.val) (lowOver (Reg.before s.eng (.remap k.val)) (data.setWidth 64))) 0 0 } := by
  have hk := k.isLt
  have hg : (0x70100 + 8 * k.val) / 0x10000 = 7 := by omega
  have hm : (0x70100 + 8 * k.val) % 0x10000 = 0x100 + 8 * k.val := by omega
  have hne (c : Nat) (hc : c < 0x100) : 0x100 + 8 * k.val ≠ c := by omega
  have hl : locate (0x70100 + 8 * k.val) = some (.remap k.val) := by
    have h7 : locate7 (0x100 + 8 * k.val) = some (.remap k.val) := by
      unfold locate7
      split
      case h_6 => rw [if_pos (by omega), show (0x100 + 8 * k.val - 0x100) / 8 = k.val by omega]
      all_goals omega
    rw [← h7]
    simp only [locate, hg, hm]
  have hw := busWrite_four (r := .remap k.val) (data.setWidth 64) (h.of_group hg) (by omega) (by omega) (by omega) hl rfl rfl
  rw [← lowOver, store_of_fields (by simp [Reg.fields])] at hw
  exact congrArg Host.Outcome.next hw

/-- A field that takes any value is in its range. -/
theorem anyF_ok (c : FClass) (lo n : Nat) (w : W64) : RField.ok (anyF c lo n) w = true := by
  have h : fld w lo n < 2 ^ n := (w.extractLsb' lo n).isLt
  rw [RField.ok, Bool.or_eq_true]
  exact .inl (decide_eq_true ⟨Nat.zero_le _, Nat.le_pred_of_lt h⟩)

theorem remap_rangeOk (k : Nat) (w : W64) : Reg.rangeOk (.remap k) w = true := by
  simp [Reg.rangeOk, Reg.fields, anyF_ok]

theorem locks_of_idle {e : Eng} {r : Reg} (w : W64) (h : Reg.runs e r = false) : Reg.locks e r w = false := by
  rw [Reg.locks, h, Bool.false_and]

/-- While nothing runs, an entry that is not valid takes a page that no other entry maps. -/
theorem write_remap_taken {e : Eng} {k : Nat} {data : W32} (hr : engineRuns e = false) (h14 : bit data 14 = true)
    (hold : bit (Tab.get 0 e.regs.remap k) 14 = false)
    (hfree : ∀ r ∈ e.regs.remap, r.1 ≠ k → bit r.2 14 = true → fld r.2 0 14 ≠ fld data 0 14) :
    Reg.write e (.remap k) (lowOver (Reg.before e (.remap k)) (data.setWidth 64)) = flushAll (setRemap e k (fld data 0 14)) := by
  have hw14 : bit (remapWord e k data) 14 = true := (bit_remapWord e k data (by decide)).trans h14
  have hany : (e.regs.remap.any fun r => decide (r.1 ≠ k) && bit r.2 14 &&
      decide (fld r.2 0 14 = fld (remapWord e k data) 0 14)) = false := by
    rw [fld_remapWord]
    refine List.any_eq_false.2 fun r hm => ?_
    simp only [Bool.and_eq_true, decide_eq_true_eq, not_and, and_imp]
    exact hfree r hm
  have hentry : Reg.entryOk e (.remap k) (remapWord e k data) = true := by
    simp only [Reg.entryOk, remapOk, hold, hany, Bool.not_false, Bool.or_true, Bool.false_eq_true, if_false]
  have hput : Reg.put e (.remap k) (remapWord e k data) = setRemap e k (fld data 0 14) := by
    have hn : bit ((remapWord e k data).setWidth 32 : W32) 14 = true := (bit_narrow _ (by decide)).trans hw14
    have hf : fld ((remapWord e k data).setWidth 32 : W32) 0 14 = fld data 0 14 :=
      (fld_narrow _ (by decide)).trans (fld_remapWord _ _ _)
    simp only [Reg.put, setRemapReg, hn, hold, hf, Bool.not_false, Bool.and_self, if_true]
  rw [write_of_taken (locks_of_idle (r := .remap k) _ hr) ⟨remap_rangeOk _ _, hentry, rfl, rfl, rfl⟩]
  exact congrArg flushAll hput

/-- A valid entry takes no other page. -/
theorem write_remap_refused {e : Eng} {k : Nat} {data : W32} (hr : engineRuns e = false)
    (hold : bit (Tab.get 0 e.regs.remap k) 14 = true) (hne : fld (Tab.get 0 e.regs.remap k) 0 14 ≠ fld data 0 14) :
    Reg.write e (.remap k) (lowOver (Reg.before e (.remap k)) (data.setWidth 64)) = cfgError e := by
  have hentry : Reg.entryOk e (.remap k) (remapWord e k data) = false := by
    simp only [Reg.entryOk, remapOk, hold, if_true, fld_remapWord, decide_eq_false (Ne.symm hne), Bool.and_false]
  exact write_of_refused (locks_of_idle (r := .remap k) _ hr) fun hg => Bool.false_ne_true (hentry.symm.trans hg.2.1)

/-! ## Access tables (R277 to R280) -/

theorem locks_of_live {e : Eng} {r : Reg} (w : W64) (h : ∀ f ∈ r.fields, f.cls ≠ .static) : Reg.locks e r w = false := by
  have hany : (r.fields.any fun f => decide (f.cls = .static) && decide (RField.get f w ≠ RField.get f (Reg.value e r))) =
      false := List.any_eq_false.2 fun f hf => by simp [h f hf]
  rw [Reg.locks, hany, Bool.and_false]

/-- A register whose fields take any value, at once, and which no other rule names. -/
theorem write_of_free {e : Eng} {r : Reg} (d : W64) (hlive : ∀ f ∈ r.fields, f.cls ≠ .static)
    (hrange : Reg.rangeOk r (d &&& r.mask) = true) (hentry : Reg.entryOk e r (d &&& r.mask) = true)
    (hcross : ∀ new, Reg.crossOk e new r = true ∧ Reg.nsOk new r = true ∧ Reg.lbaOk new r = true) :
    Reg.write e r d = flushAll (Reg.put e r (d &&& r.mask)) :=
  write_of_taken (locks_of_live _ hlive) ⟨hrange, hentry, hcross _⟩

theorem fields_accReg {m : Nat} (h : 0x40 ≤ m ∧ m ≤ 0x80) :
    (Reg.accReg m).fields = [anyF .live 0 16, anyF .live 16 16] := if_pos h

theorem fields_accReg_of_fixed {m : Nat} (h : ¬ (0x40 ≤ m ∧ m ≤ 0x80)) : (Reg.accReg m).fields = [] := if_neg h

theorem mask_accReg {m : Nat} (h : 0x40 ≤ m ∧ m ≤ 0x80) : (Reg.accReg m).mask = 0xFFFFFFFF := by
  rw [Reg.mask, fields_accReg h]
  decide

/-- A 4-byte write of an entry of the register-file access table. -/
theorem exec_accRegWrite {s : State} (m : BitVec 8) (data : W64) (h : Reaches s 0 true 0x80000) :
    exec (.accRegWrite 0 (.reg m) data) s = .next { s with
      eng := respond (Reg.store s.mem s.eng 0 (.accReg m.toNat) (lowOver (Reg.before s.eng (.accReg m.toNat)) data)
        (data &&& 0xFFFFFFFF)) 0 0 } := by
  have hm := m.isLt
  have hg : (0x80000 + 8 * m.toNat) / 0x10000 = 8 := by omega
  have ho : (0x80000 + 8 * m.toNat) % 0x10000 = 8 * m.toNat := by omega
  have hl : locate (0x80000 + 8 * m.toNat) = some (.accReg m.toNat) := by
    simp only [locate, hg, ho, locate8, if_pos (show 8 * m.toNat < 0x800 by omega), show 8 * m.toNat / 8 = m.toNat by omega]
  have hw := busWrite_four (r := .accReg m.toNat) data (h.of_group hg) (by omega) (by omega) (by omega) hl rfl rfl
  exact congrArg Host.Outcome.next hw

/-- An 8-byte write of an entry of the storage-port access table. -/
theorem exec_accStoWrite {s : State} (f : Fin 65) (data : W64) (h : Reaches s 0 true 0x80000) :
    exec (.accRegWrite 0 (.sto f) data) s = .next { s with
      eng := respond (Reg.write s.eng (.accSto f.val) data) 0 0 } := by
  have hf := f.isLt
  have hg : (0x82000 + 8 * f.val) / 0x10000 = 8 := by omega
  have ho : (0x82000 + 8 * f.val) % 0x10000 = 0x2000 + 8 * f.val := by omega
  have hl : locate (0x82000 + 8 * f.val) = some (.accSto f.val) := by
    simp only [locate, hg, ho, locate8, if_neg (show ¬ 0x2000 + 8 * f.val < 0x800 by omega),
      if_neg (show ¬ (0x1000 ≤ 0x2000 + 8 * f.val ∧ 0x2000 + 8 * f.val < 0x1000 + 8 * 65) by omega),
      if_pos (show 0x2000 ≤ 0x2000 + 8 * f.val ∧ 0x2000 + 8 * f.val < 0x2000 + 8 * 65 by omega),
      show (0x2000 + 8 * f.val - 0x2000) / 8 = f.val by omega]
  have hw := busWrite_eight (r := .accSto f.val) data (h.of_group hg) (by omega) (by omega) (by omega) hl rfl rfl
  rw [store_of_fields (by simp [Reg.fields])] at hw
  exact congrArg Host.Outcome.next hw

/-- Settles O46: descriptors through `defineRegion_spec`, remap entries through `write_remap_taken` and its refusal, and
access tables as registers whose fields take any value. -/
theorem tablesAreWritten : Obligations.TablesAreWritten := by
  refine ⟨fun d data w0 s h => ⟨?_, fun hst => ?_⟩, fun k data s h hr hh hl h14 => ⟨fun hold hev hfree => ?_, fun hold hne => ?_⟩,
    fun m f data s h hh hl => ⟨fun hlo hhi => ?_, fun hout => ?_, ?_⟩⟩
  · have hw : exec (.descriptorWord0Stage 0 d data) s = _ :=
      congrArg Host.Outcome.next (descWrite (d := d) (w := 0) data h (by decide) rfl)
    rw [dropStaged_eq] at hw
    exact ⟨_, hw, rfl, rfl, rfl, rfl, rfl, rfl⟩
  · intro e r
    have hw : exec (.descriptorWord1Write 0 d data) s = _ :=
      congrArg Host.Outcome.next (descWrite (d := d) (w := 1) data h (by decide) (by omega))
    rw [dropStaged_of_own (x := (d.val, w0)) hst, show Reg.store s.mem s.eng 0 (.desc d.val 1) data data =
      statusBits (defineRegion e d.val w0 data) from writeWord1_of_staged data hst] at hw
    obtain ⟨hstatus, heq⟩ := defineRegion_spec e d.val w0 data
    have hctl : (defineRegion e d.val w0 data).2.ctl = e.ctl := by rw [heq]
    refine ⟨_, hw, rfl, rfl, ?_, ?_, ?_, ?_, ?_, ?_⟩ <;> rw [statusBits_spec hstatus]
    · exact congrArg Ctl.stagedW0 hctl
    · rfl
    · rfl
    · rfl
    · show (_ || _) = _
      rw [hctl]
    · show (_ || _) = _
      rw [hctl]
  · intro f
    have hx := exec_remapWrite k data h
    have hmap := spared_eq s.eng k.val (fld data 0 14)
    have hme : OnlyEvents (mapped s.eng k.val (fld data 0 14)) (setRemap s.eng k.val (fld data 0 14)) := by
      rw [setRemap_eq]
      exact onlyEvents_raise _ _ _ _ _ _
    have hsame : SameEvents (setRemap s.eng k.val (fld data 0 14)) f := by
      rw [setRemap_eq]
      refine SameEvents.raiseFn ?_ _ _ _ _ _ _
      unfold mapped
      rw [hmap]
      exact ⟨rfl, rfl, rfl, rfl, rfl, rfl, rfl, rfl, rfl⟩
    have hheld : (mapped s.eng k.val (fld data 0 14)).ctl.evt = s.eng.ctl.evt := by
      unfold mapped
      rw [hmap]
    have hopen : evtOpen (mapped s.eng k.val (fld data 0 14)) = true ∨
        (mapped s.eng k.val (fld data 0 14)).basin.writeback = [] := by
      refine hev.imp (fun ho => ?_) fun hb => spared_writeback hb _ _
      unfold mapped
      rw [hmap]
      exact ho
    have hflush : flushAll (setRemap s.eng k.val (fld data 0 14)) = setRemap s.eng k.val (fld data 0 14) := by
      rw [setRemap_eq]
      exact flushAll_raise _ _ _ _ (by rw [hheld]; exact hh) (by rw [hheld]; exact hl) hopen
    rw [write_remap_taken hr h14 hold hfree, hflush] at hx
    have hlt : fld data 0 14 < 2 ^ 14 := (data.extractLsb' 0 14).isLt
    have htab : (setRemap s.eng k.val (fld data 0 14)).regs.remap =
        Tab.set s.eng.regs.remap k.val (BitVec.ofNat 32 (fld data 0 14 + 2 ^ 14)) := by
      rw [hme.answers.regs]
      unfold mapped
      rw [hmap]
    have hentry : Tab.get 0 (setRemap s.eng k.val (fld data 0 14)).regs.remap k.val =
        BitVec.ofNat 32 (fld data 0 14 + 2 ^ 14) := by rw [htab, Tab.get_set_same]
    refine ⟨_, hx, rfl, ?_, ?_, fun j hj => ?_, hsame.evt, hsame.hm, hsame.msg, ?_, ?_⟩
    · show bit (Tab.get 0 (setRemap s.eng k.val (fld data 0 14)).regs.remap k.val) 14 = true
      rw [hentry, bit, BitVec.getLsbD_ofNat, Nat.add_comm, Nat.testBit_two_pow_add_eq, Nat.testBit_lt_two_pow hlt]
      rfl
    · show fld (Tab.get 0 (setRemap s.eng k.val (fld data 0 14)).regs.remap k.val) 0 14 = _
      rw [hentry]
      simp only [fld, BitVec.extractLsb'_toNat, BitVec.toNat_ofNat, Nat.shiftRight_zero]
      have hlt : (BitVec.extractLsb' 0 14 data).toNat < 2 ^ 14 := hlt
      rw [BitVec.extractLsb'_toNat] at hlt
      omega
    · show Tab.get 0 (setRemap s.eng k.val (fld data 0 14)).regs.remap j = _
      rw [htab, Tab.get_set_ne _ _ _ _ _ hj]
    · refine hme.valleys.trans ?_
      unfold mapped
      rw [hmap]
    · refine (congrArg Basin.owners hme.answers.basin).trans ?_
      unfold mapped
      rw [hmap]
  · have hx := exec_remapWrite k data h
    rw [write_remap_refused hr hold hne] at hx
    exact ⟨_, hx, rfl, rfl, .inl rfl⟩
  · have hx := exec_accRegWrite m data h
    have hmask := mask_accReg ⟨hlo, hhi⟩
    have hfields := fields_accReg ⟨hlo, hhi⟩
    have hw := write_of_free (e := s.eng) (r := .accReg m.toNat) (lowOver (Reg.before s.eng (.accReg m.toNat)) data)
      (by rw [hfields]; simp [anyF]) (by rw [Reg.rangeOk, hfields]; simp [anyF_ok]) rfl fun _ => ⟨rfl, rfl, rfl⟩
    rw [store_of_fields (by rw [hfields]; exact List.cons_ne_nil _ _), hw, hmask] at hx
    have hlow : ((lowOver (Reg.before s.eng (.accReg m.toNat)) data &&& 0xFFFFFFFF).setWidth 32 : W32) = data.setWidth 32 := by
      refine BitVec.eq_of_getLsbD_eq fun i hi => ?_
      have h1 := (bit_low (lowOver (Reg.before s.eng (.accReg m.toNat)) data) hi).trans (bit_lowOver _ _ hi)
      exact (bit_narrow _ hi).trans (h1.trans (bit_narrow _ hi).symm)
    have hflush : flushAll (Reg.put s.eng (.accReg m.toNat) (lowOver (Reg.before s.eng (.accReg m.toNat)) data &&& 0xFFFFFFFF)) =
        Reg.put s.eng (.accReg m.toNat) (lowOver (Reg.before s.eng (.accReg m.toNat)) data &&& 0xFFFFFFFF) :=
      flushAll_of_empty hh hl
    rw [hflush] at hx
    refine ⟨_, hx, rfl, ?_, fun j hj => Tab.get_set_ne _ _ _ _ _ hj, rfl⟩
    exact (Tab.get_set_same _ _ _ _).trans (by rw [hlow])
  · have hx := exec_accRegWrite m data h
    have hfields := fields_accReg_of_fixed (m := m.toNat) (by omega)
    have hstore : Reg.store s.mem s.eng 0 (.accReg m.toNat) (lowOver (Reg.before s.eng (.accReg m.toNat)) data)
        (data &&& 0xFFFFFFFF) = s.eng := if_pos (by rw [hfields]; rfl)
    rw [hstore] at hx
    exact ⟨_, hx, rfl, rfl, rfl⟩
  · have hx := exec_accStoWrite f data h
    have hw := write_of_free (e := s.eng) (r := .accSto f.val) data (by simp [Reg.fields, anyF])
      (by simp [Reg.rangeOk, Reg.fields, anyF_ok]) rfl fun _ => ⟨rfl, rfl, rfl⟩
    have hmask : (Reg.accSto f.val).mask = 0x1FFFFFFFF := by
      show Reg.mask (.accSto 0) = _
      decide
    rw [hw, hmask] at hx
    have hflush : flushAll (Reg.put s.eng (.accSto f.val) (data &&& 0x1FFFFFFFF)) =
        Reg.put s.eng (.accSto f.val) (data &&& 0x1FFFFFFFF) := flushAll_of_empty hh hl
    rw [hflush] at hx
    exact ⟨_, hx, rfl, Tab.get_set_same _ _ _ _, fun j hj => Tab.get_set_ne _ _ _ _ _ hj, rfl⟩

end Sys2Proof.Machine

/-!
Reads with an effect, and the debug port at level Invasive (R281, R292, R303, R306, R312).
-/

namespace Sys2Proof.Machine

/-! ## Words of a line -/

theorem bytesNat_append (xs ys : List Byte) : bytesNat (xs ++ ys) = bytesNat xs + 256 ^ xs.length * bytesNat ys := by
  induction xs with
  | nil => simp [bytesNat]
  | cons x r ih =>
    rw [List.cons_append, bytesNat, ih, bytesNat, List.length_cons, Nat.pow_succ, Nat.mul_add, Nat.add_assoc, Nat.mul_assoc,
      Nat.mul_left_comm 256]

theorem length_wordBytes (x : W64) : (wordBytes x).length = 8 := rfl

theorem bytesNat_wordBytes (x : W64) : bytesNat (wordBytes x) = x.toNat := by
  have hx := x.isLt
  have h : wordBytes x = [x.extractLsb' 0 8, x.extractLsb' 8 8, x.extractLsb' 16 8, x.extractLsb' 24 8, x.extractLsb' 32 8,
    x.extractLsb' 40 8, x.extractLsb' 48 8, x.extractLsb' 56 8] := rfl
  rw [h]
  simp only [bytesNat, BitVec.extractLsb'_toNat, Nat.shiftRight_eq_div_pow]
  omega

/-- The number that words spell: the first word is the lowest. -/
theorem bytesNat_wordsBytes_cons (x : W64) (r : List W64) :
    bytesNat (wordsBytes (x :: r)) = x.toNat + 2 ^ 64 * bytesNat (wordsBytes r) := by
  rw [wordsBytes, List.flatMap_cons, bytesNat_append, bytesNat_wordBytes, length_wordBytes]
  rfl

theorem bytesNat_wordsBytes_word (ws : List W64) {i : Nat} (hi : i < ws.length) :
    bytesNat (wordsBytes ws) / 2 ^ (64 * i) % 2 ^ 64 = ws[i].toNat := by
  induction ws generalizing i with
  | nil => exact absurd hi (Nat.not_lt_zero _)
  | cons x r ih =>
    have hx := x.isLt
    rw [bytesNat_wordsBytes_cons]
    cases i with
    | zero => simp [Nat.mod_eq_of_lt hx]
    | succ i =>
      rw [show 64 * (i + 1) = 64 + 64 * i by omega, Nat.pow_add, ← Nat.div_div_eq_div_mul,
        Nat.add_mul_div_left _ _ (Nat.two_pow_pos _), Nat.div_eq_of_lt hx, Nat.zero_add]
      exact ih (by simpa using hi)

theorem length_wordsBytes (ws : List W64) : (wordsBytes ws).length = 8 * ws.length := by
  induction ws with
  | nil => rfl
  | cons x r ih =>
    rw [wordsBytes, List.flatMap_cons, List.length_append, length_wordBytes]
    show 8 + (wordsBytes r).length = _
    rw [ih, List.length_cons]
    omega

theorem bytesNat_lt (bs : List Byte) : bytesNat bs < 2 ^ (8 * bs.length) := by
  induction bs with
  | nil => simp [bytesNat]
  | cons b r ih =>
    have hb := b.isLt
    rw [bytesNat, List.length_cons, show 8 * (r.length + 1) = 8 + 8 * r.length by omega, Nat.pow_add]
    omega

/-- A word of the line that 32 words spell. -/
theorem word_ofWords {ws : List W64} (h : ws.length = 32) {i : Nat} (hi : i < 32) :
    Line.word (Line.ofWords ws) i = ws[i] := by
  have hlen := length_wordsBytes ws
  have htake : (wordsBytes (ws.take 32)).take 256 = wordsBytes ws := by
    rw [List.take_of_length_le (l := ws) (by omega), List.take_of_length_le (by omega)]
  have hlt := bytesNat_lt (wordsBytes ws)
  rw [hlen, h] at hlt
  apply BitVec.eq_of_toNat_eq
  rw [Line.word, Line.ofWords, Line.ofBytes, htake, BitVec.extractLsb'_toNat, BitVec.toNat_ofNat,
    Nat.shiftRight_eq_div_pow, ← bytesNat_wordsBytes_word ws (by omega), Nat.mod_eq_of_lt hlt]

/-! ## Reads (R303, R306) -/

theorem atReg_of_read {e : Eng} {a : RegAcc} {r : Reg} (m : Mem) (hw : a.wr = false) (hrc : r.wideRc = false)
    (hown : mayOwn e a.mid r = true) (hhalf : (a.size = 4 && a.high && !r.wide) = false) :
    atReg m e a r = respond (Reg.read m e a.mid r (if a.size = 4 then some a.high else none)).2 0
      (a.cut (Reg.read m e a.mid r (if a.size = 4 then some a.high else none)).1) := by
  simp [atReg, hw, hrc, hown, hhalf]

/-- A 4-byte read at the place of a register. -/
theorem busRead_four {s : State} {mid : Byte} {addr : Nat} {r : Reg} (h : Reaches s mid false addr)
    (ha : addr % 8 = 0) (hmax : addr < 0x100000) (hg : addr / 0x10000 ≠ 6) (hl : locate addr = some r)
    (hrc : r.wideRc = false) (hown : mayOwn s.eng mid r = true) :
    busRead mid addr four s = { s with
      eng := respond (Reg.read s.mem s.eng mid r (some false)).2 0
        ((Reg.read s.mem s.eng mid r (some false)).1 &&& 0xFFFFFFFF) } := by
  let a : RegAcc := { mid := mid, wr := false, addr := addr, bytes := four, data := 0 }
  have hsize : a.size = 4 := by simp [a, RegAcc.size, four]
  have hhigh : a.high = false := by simp [a, RegAcc.high, ha]
  have hf : a.malformed = false := by
    have h4 : addr % 4 = 0 := by omega
    simp [a, RegAcc.malformed, RegAcc.size, four, h4, hmax]
  have h8 : a.addr / 8 * 8 = addr := by show addr / 8 * 8 = addr; omega
  have hacc := access_of_reaches (a := a) s.mem h hf (by rw [h8]; exact hl)
  rw [dropStaged_of_group hg, atReg_of_read s.mem rfl hrc hown (by rw [hhigh, Bool.and_false, Bool.false_and]), hsize,
    if_pos rfl, hhigh, RegAcc.cut, hsize, hhigh] at hacc
  show { s with eng := access s.mem s.eng a } = _
  rw [hacc]
  rfl

/-- An 8-byte read at the place of a register. -/
theorem busRead_eight {s : State} {mid : Byte} {addr : Nat} {r : Reg} (h : Reaches s mid false addr)
    (ha : addr % 8 = 0) (hmax : addr < 0x100000) (hg : addr / 0x10000 ≠ 6) (hl : locate addr = some r)
    (hrc : r.wideRc = false) (hown : mayOwn s.eng mid r = true) :
    busRead mid addr eight s = { s with
      eng := respond (Reg.read s.mem s.eng mid r none).2 0 (Reg.read s.mem s.eng mid r none).1 } := by
  let a : RegAcc := { mid := mid, wr := false, addr := addr, bytes := eight, data := 0 }
  have hsize : a.size = 8 := by simp [a, RegAcc.size, eight]
  have hf : a.malformed = false := by simp [a, RegAcc.malformed, RegAcc.size, eight, ha, hmax]
  have h8 : a.addr / 8 * 8 = addr := by show addr / 8 * 8 = addr; omega
  have hacc := access_of_reaches (a := a) s.mem h hf (by rw [h8]; exact hl)
  rw [dropStaged_of_group hg, atReg_of_read s.mem rfl hrc hown (by rw [hsize]; rfl), hsize, RegAcc.cut, hsize, if_pos rfl,
    if_neg (by decide)] at hacc
  show { s with eng := access s.mem s.eng a } = _
  rw [hacc]

/-- A read of a drop counter that the side domain does not hold. -/
theorem exec_readDrops {s : State} {mid : BitVec 8} (c : Fin 28) (h : Reaches s mid false 0x90000)
    (hvf : isVf mid = false) (hc : c.val ≠ 25) :
    exec (.rcRead mid (BitVec.ofNat 24 (0x91000 + 8 * c.val)) 2) s = .next { s with
      eng := respond { s.eng with cnt := { s.eng.cnt with drop := Tab.del s.eng.cnt.drop c.val } } 0
        ((Tab.get 0 s.eng.cnt.drop c.val).setWidth 64) } := by
  have hlt := c.isLt
  have haddr : (BitVec.ofNat 24 (0x91000 + 8 * c.val)).toNat = 0x91000 + 8 * c.val := by
    rw [BitVec.toNat_ofNat]
    omega
  have hg : (0x91000 + 8 * c.val) / 0x10000 = 9 := by omega
  have ho : (0x91000 + 8 * c.val) % 0x10000 = 0x1000 + 8 * c.val := by omega
  have hl : locate (0x91000 + 8 * c.val) = some (.drops c.val) := by
    simp only [locate, hg, ho, locate9, if_neg (show ¬ 0x1000 + 8 * c.val < 0x300 by omega),
      if_neg (show ¬ (0x800 ≤ 0x1000 + 8 * c.val ∧ 0x1000 + 8 * c.val < 0x820) by omega),
      if_pos (show 0x1000 ≤ 0x1000 + 8 * c.val ∧ 0x1000 + 8 * c.val < 0x10E0 by omega),
      show (0x1000 + 8 * c.val - 0x1000) / 8 = c.val by omega]
  have hr := busRead_four (r := .drops c.val) (h.of_group hg) (by omega) (by omega) (by omega) hl rfl
    (by rw [mayOwn, hvf]; rfl)
  have hread : Reg.read s.mem s.eng mid (.drops c.val) (some false) = ((Tab.get 0 s.eng.cnt.drop c.val).setWidth 64,
      { s.eng with cnt := { s.eng.cnt with drop := Tab.del s.eng.cnt.drop c.val } }) := by
    simp only [Reg.read, Reg.value, clearCounter, if_neg hc]
  have hcut : ((Tab.get 0 s.eng.cnt.drop c.val).setWidth 64 : W64) &&& 0xFFFFFFFF =
      (Tab.get 0 s.eng.cnt.drop c.val).setWidth 64 := by
    refine BitVec.eq_of_getLsbD_eq fun i hi => ?_
    by_cases h32 : i < 32
    · exact bit_low _ h32
    · rw [BitVec.getLsbD_and, BitVec.getLsbD_setWidth, BitVec.getLsbD_of_ge _ _ (Nat.not_lt.1 h32), Bool.and_false,
        Bool.false_and]
  rw [hread, hcut] at hr
  show Host.Outcome.next (busRead mid (BitVec.ofNat 24 (0x91000 + 8 * c.val)).toNat four s) = _
  rw [haddr, hr]

theorem exec_timestampLatch {s : State} {mid : BitVec 8} (h : Reaches s mid false 0x10000) :
    exec (.timestampLatch mid) s = .next { s with
      eng := respond { s.eng with side := { s.eng.side with
        tsLatch := Tab.set s.eng.side.tsLatch mid.toNat (s.eng.side.ts.extractLsb' 32 32) } } 0
        (s.eng.side.ts &&& 0xFFFFFFFF) } :=
  congrArg Host.Outcome.next (busRead_four (r := .timestamp) (addr := 0x10008) (h.of_group rfl) (by decide) (by decide)
    (by decide) rfl rfl (by simp [mayOwn, Reg.own]))

/-! ## The debug port (R281, R292, R312) -/

/-- A 4-byte write of CP_CTRL by the debug port. -/
theorem cpCtrlWrite {s : State} (data : W64) (h : Reaches s 0x81 true 0xD0000) :
    busWrite 0x81 0xD0000 four data s = { s with
      eng := respond (writeCp s.mem s.eng (lowOver (Reg.before s.eng .cpCtrl) data)) 0 0 } :=
  busWrite_four (r := .cpCtrl) data h (by decide) (by decide) (by decide) rfl rfl rfl

/-- A control processor that is halted takes no packet. -/
theorem headReady_of_halted {e : Eng} (h : e.ctl.cpHaltBit = true) (q : Nat) : headReady e q = none := by
  simp [headReady, cpRuns, h]

theorem writeCp_halt (m : Mem) {e : Eng} {w : W64} (h0 : bit w 0 = true) (h1 : bit w 1 = false) :
    writeCp m e w = { e with ctl := { e.ctl with cpHaltBit := true } } := by
  simp [writeCp, h0, h1]

theorem writeCp_idle (m : Mem) {e : Eng} {w : W64} (h0 : bit w 0 = false) (h1 : bit w 1 = false)
    (hh : e.ctl.cpHaltBit = false) : writeCp m e w = e := by
  simp [writeCp, h0, h1, hh]

theorem writeCp_step (m : Mem) {e : Eng} {w : W64} (h0 : bit w 0 = true) (h1 : bit w 1 = true)
    (hh : e.ctl.cpHaltBit = true) : writeCp m e w = { e with ctl := { e.ctl with
      cpHaltBit := true, cpPc := Config.freePc e.ctl.freeCount, freeCount := e.ctl.freeCount + 1 } } := by
  simp [writeCp, h0, h1, hh]

/-! ## The window on the Basin -/

/-- What a debug write makes of a page's content changes neither the Basin nor the registers. -/
theorem corrupt_keeps (e : Eng) (g i : Nat) (l : Line) : (corrupt e g i l).basin = e.basin ∧ (corrupt e g i l).regs = e.regs := by
  unfold corrupt
  split
  · exact ⟨rfl, rfl⟩
  · exact ⟨rfl, rfl⟩
  · exact ⟨rfl, rfl⟩
  · split
    · exact ⟨rfl, rfl⟩
    · exact ⟨rfl, rfl⟩
  · exact ⟨rfl, rfl⟩
  · exact ⟨rfl, rfl⟩
  · exact ⟨rfl, rfl⟩
  · exact ⟨rfl, rfl⟩
  · exact ⟨rfl, rfl⟩

theorem corrupt_of_unowned {e : Eng} {g : Nat} (i : Nat) (l : Line) (h : Tab.has e.basin.owners g = false) :
    corrupt e g i l = e := by
  have hn : Tab.find e.basin.owners g = none := by simpa [Tab.has] using h
  simp only [corrupt, hn]

/-- The word that BASIN_ADDR names. -/
def windowWord (e : Eng) : Nat := fld e.regs.basinAddr 0 18

/-- The engine with a line in the buffer of BASIN_DATA. -/
def buffered (e : Eng) (l : Line) : Eng := { e with basin := { e.basin with buffer := l } }

theorem loadBuffer_of_invalid (m : Mem) {e : Eng} (h : pageValid e (windowWord e / 16) = false) :
    loadBuffer m e = buffered e 0 := if_pos (by rw [Bool.not_eq_true']; exact h)

theorem basinRead_clean (m : Mem) {e : Eng} {g i : Nat} (hb : (readWord (storedAt e g i)).bad = 0)
    (hc : (readWord (storedAt e g i)).corr = 0) : basinRead m e g i = (some (readWord (storedAt e g i)).data, e) := by
  simp [basinRead, hb, hc]

/-- A clean word of a valid page: its data, or a free value where it holds what a page in use holds. -/
theorem loadBuffer_of_clean (m : Mem) {e : Eng} (h : pageValid e (windowWord e / 16) = true)
    (hb : (readWord (storedAt e (windowWord e / 16) (windowWord e % 16))).bad = 0)
    (hc : (readWord (storedAt e (windowWord e / 16) (windowWord e % 16))).corr = 0) :
    loadBuffer m e =
      if (Tab.has e.basin.owners (windowWord e / 16) && !e.basin.known.contains (windowWord e)) = true then
        buffered (freeLine e).2 (freeLine e).1
      else buffered e (readWord (storedAt e (windowWord e / 16) (windowWord e % 16))).data := by
  have hr := basinRead_clean m hb hc
  unfold windowWord at h hr
  simp only [loadBuffer, h, hr, Bool.not_true, Bool.false_eq_true, if_false]
  rfl

/-- The buffer with its last word written. -/
def lastWritten (l : Line) (w : W64) : Line :=
  Line.ofWords ((List.range 32).map fun j => if j = 31 then w else Line.word l j)

theorem word_lastWritten (l : Line) (w : W64) {i : Nat} (hi : i < 32) :
    Line.word (lastWritten l w) i = if i = 31 then w else Line.word l i := by
  rw [lastWritten, word_ofWords (by simp) hi]
  simp

theorem writeBasinData_last (e : Eng) (w : W64) :
    writeBasinData e 31 w = storeBuffer (buffered e (lastWritten e.basin.buffer w)) := by
  unfold writeBasinData
  exact if_pos rfl

/-- The engine after a debug write of a word of a valid page, before the content of a page in use follows it. -/
def storedWord (e : Eng) (l : Line) : Eng :=
  let k := windowWord e
  let e1 := putStored (writeWord e k) (k / 16) (k % 16) (storeWord l)
  { e1 with basin := { e1.basin with known := if Tab.has e1.basin.owners (k / 16) then k :: e1.basin.known else e1.basin.known } }

theorem storeBuffer_of_valid {e : Eng} (h : pageValid e (windowWord e / 16) = true) :
    storeBuffer e = corrupt (storedWord e e.basin.buffer) (windowWord e / 16) (windowWord e % 16) e.basin.buffer :=
  if_neg (by rw [Bool.not_eq_true', Bool.not_eq_false]; exact h)

theorem storedAt_congr {e f : Eng} (hr : f.regs.remap = e.regs.remap) (hw : f.basin.words = e.basin.words)
    (hs : f.basin.spare = e.basin.spare) (g i : Nat) : storedAt f g i = storedAt e g i := by
  rw [storedAt, storedAt, remapOf_congr hr, hw, hs]

theorem Tab.ne_of_mem_del {α : Type} {t : Tab α} {k : Nat} {y : Nat × α} (h : y ∈ Tab.del t k) : y.1 ≠ k := by
  induction t with
  | nil => exact absurd h List.not_mem_nil
  | cons p r ih =>
    obtain ⟨j, x⟩ := p
    rw [Tab.del] at h
    split at h
    · exact ih h
    · next hk =>
      rcases List.mem_cons.1 h with rfl | h
      · exact fun hj => hk hj.symm
      · exact ih h

/-- What a debug write of a word leaves: the word holds the line, no write-back of it waits, and it is known if its page is
in use; nothing beside the Basin changes. -/
theorem storedWord_spec (e : Eng) (l : Line) :
    storedAt (storedWord e l) (windowWord e / 16) (windowWord e % 16) = storeWord l ∧
    (∀ y ∈ (storedWord e l).basin.writeback, y.1 ≠ windowWord e) ∧
    (Tab.has e.basin.owners (windowWord e / 16) = true → windowWord e ∈ (storedWord e l).basin.known) ∧
    (storedWord e l).basin.owners = e.basin.owners ∧ (storedWord e l).basin.buffer = e.basin.buffer ∧
    storedWord e l = { e with basin := (storedWord e l).basin } := by
  let k := windowWord e
  let e1 := putStored (writeWord e k) (k / 16) (k % 16) (storeWord l)
  have hb1 : e1.basin = { (writeWord e k).basin with words := e1.basin.words, spare := e1.basin.spare } := putStored_basin _ _ _ _
  have howners : e1.basin.owners = e.basin.owners := by rw [hb1, ← writeWord_owners e k]
  have hwb : e1.basin.writeback = (writeWord e k).basin.writeback := by rw [hb1]
  have hbuf : (writeWord e k).basin.buffer = e.basin.buffer := by
    show (putStored e _ _ _).basin.buffer = _
    rw [putStored_basin]
  refine ⟨?_, fun y hy => ?_, fun ho => ?_, howners, ?_, ?_⟩
  · exact (storedAt_congr rfl rfl rfl _ _).trans (storedAt_putStored_same (writeWord e k) (k / 16) (k % 16) (storeWord l))
  · have hy : y ∈ e1.basin.writeback := hy
    rw [hwb] at hy
    exact Tab.ne_of_mem_del hy
  · show k ∈ if Tab.has e1.basin.owners (k / 16) then k :: e1.basin.known else e1.basin.known
    rw [howners, if_pos ho]
    exact List.mem_cons_self
  · refine Eq.trans ?_ hbuf
    show e1.basin.buffer = _
    rw [hb1]
  · have h1 : e1 = { e with basin := e1.basin } := by
      show putStored (writeWord e k) _ _ _ = { e with basin := (putStored (writeWord e k) _ _ _).basin }
      rw [putStored_eq, writeWord_eq]
    show { e1 with basin := _ } = _
    rw [h1]
    rfl

/-- Settles O47: reads by `busRead_four` and `busRead_eight`, the control processor's bits, and the window by what it
loads and stores. -/
theorem readsAndDebugPort : Obligations.ReadsAndDebugPort := by
  refine ⟨fun mid c s => ⟨fun h hvf hc => ?_, fun h => ?_⟩, fun s data hw hr hlvl => ?_⟩
  · refine ⟨_, exec_readDrops c h hvf hc, rfl, rfl, Tab.get_del_same _ _ _, fun j hj => Tab.get_del_ne _ _ _ _ hj, rfl, rfl⟩
  · exact ⟨_, exec_timestampLatch h, rfl, rfl, (Tab.find_set _ _ _ _).trans (if_pos rfl), rfl, rfl⟩
  · intro k word
    have hinv : debugInvasive s.eng = true := decide_eq_true hlvl
    have hload : exec (.basinDataLoad 0x81) s = .next { s with
        eng := respond (loadBuffer s.mem s.eng) 0 (Line.word (loadBuffer s.mem s.eng).basin.buffer 0) } := by
      have hx := busRead_eight (r := .basinData 0) (addr := 0xD0100) (hr.of_group rfl) (by decide) (by decide) (by decide) rfl
        rfl rfl
      have hread : Reg.read s.mem s.eng 0x81 (.basinData 0) none =
          (Line.word (loadBuffer s.mem s.eng).basin.buffer 0, loadBuffer s.mem s.eng) := by
        simp only [Reg.read, hinv, Bool.not_true, Bool.false_eq_true, if_false, if_true, Reg.value]
      rw [hread] at hx
      exact congrArg Host.Outcome.next hx
    refine ⟨?_, fun hh => ?_, fun hh => ?_, ?_, fun hp => ?_, fun hp hcorr hbad => ⟨fun hu => ?_, fun ho hkn => ?_⟩, fun hp => ?_⟩
    · have hx : exec (.cpHalt 0x81 true) s = _ := congrArg Host.Outcome.next (cpCtrlWrite 1 hw)
      rw [writeCp_halt s.mem (by rw [bit_lowOver _ _ (by decide)]; decide) (by rw [bit_lowOver _ _ (by decide)]; decide)] at hx
      exact ⟨_, hx, rfl, rfl, Bool.and_false _, headReady_of_halted rfl, rfl⟩
    · have hx : exec (.cpHalt 0x81 false) s = _ := congrArg Host.Outcome.next (cpCtrlWrite 0 hw)
      rw [writeCp_idle s.mem (by rw [bit_lowOver _ _ (by decide)]; decide) (by rw [bit_lowOver _ _ (by decide)]; decide) hh] at hx
      exact hx
    · have hx : exec (.cpStep 0x81) s = _ := congrArg Host.Outcome.next (cpCtrlWrite 3 hw)
      rw [writeCp_step s.mem (by rw [bit_lowOver _ _ (by decide)]; decide) (by rw [bit_lowOver _ _ (by decide)]; decide) hh] at hx
      exact ⟨_, hx, rfl, rfl, rfl, rfl⟩
    · have hx := busRead_eight (r := .istData) (addr := 0xD0018) (hr.of_group rfl) (by decide) (by decide) (by decide) rfl rfl rfl
      have hread : Reg.read s.mem s.eng 0x81 .istData none = (Reg.value s.eng .istData,
          { s.eng with ctl := { s.eng.ctl with istAddr := (s.eng.ctl.istAddr + 8) &&& 0x001FFFF8 } }) := if_pos hinv
      rw [hread] at hx
      exact ⟨_, congrArg Host.Outcome.next hx, rfl, rfl, rfl⟩
    · refine ⟨_, hload, rfl, ?_, ?_⟩ <;> rw [loadBuffer_of_invalid s.mem hp]
      · show some ((0 : BitVec 2), Line.word 0 0) = _
        rw [show Line.word 0 0 = 0 from BitVec.extractLsb'_zero]
      · rfl
    · have hused : ¬ (Tab.has s.eng.basin.owners (windowWord s.eng / 16) &&
          !s.eng.basin.known.contains (windowWord s.eng)) = true := by
        rcases hu with hu | hu
        · rw [show Tab.has s.eng.basin.owners (windowWord s.eng / 16) = false from hu]
          exact Bool.false_ne_true
        · rw [show s.eng.basin.known.contains (windowWord s.eng) = true from hu, Bool.not_true, Bool.and_false]
          exact Bool.false_ne_true
      rw [hload, loadBuffer_of_clean s.mem hp hbad hcorr, if_neg hused]
      rfl
    · have hused : (Tab.has s.eng.basin.owners (windowWord s.eng / 16) &&
          !s.eng.basin.known.contains (windowWord s.eng)) = true := by
        rw [show Tab.has s.eng.basin.owners (windowWord s.eng / 16) = true from ho,
          show s.eng.basin.known.contains (windowWord s.eng) = false from hkn]
        rfl
      refine ⟨_, hload, rfl, ?_, ?_⟩ <;> rw [loadBuffer_of_clean s.mem hp hbad hcorr, if_pos hused]
      · rfl
      · rfl
    · obtain ⟨l, hl⟩ : ∃ l, l = lastWritten s.eng.basin.buffer data := ⟨_, rfl⟩
      let e1 := buffered s.eng l
      have hx := busWrite_eight (r := .basinData 31) (addr := 0xD01F8) data (hw.of_group rfl) (by decide) (by decide) (by decide)
        rfl rfl rfl
      have hstore : storeBuffer e1 = corrupt (storedWord e1 l) (k / 16) (k % 16) l := storeBuffer_of_valid (e := e1) hp
      rw [Reg.store, writeBasinData_last, ← hl, hstore] at hx
      obtain ⟨hat, hwb, hkn, howners, hbuf, heq⟩ := storedWord_spec e1 l
      obtain ⟨hcb, hcr⟩ := corrupt_keeps (storedWord e1 l) (k / 16) (k % 16) l
      have hbuffer : (corrupt (storedWord e1 l) (k / 16) (k % 16) l).basin.buffer = l := by rw [hcb]; exact hbuf
      refine ⟨_, congrArg Host.Outcome.next hx, rfl, ?_, fun i hi => ?_, ?_, ?_, fun ho => ?_, fun ho => ?_⟩
      · refine (congrArg (Line.word · 31) hbuffer).trans ?_
        rw [hl, word_lastWritten _ _ (by decide), if_pos rfl]
      · refine (congrArg (Line.word · i) hbuffer).trans ?_
        rw [hl, word_lastWritten _ _ (by omega), if_neg (by omega)]
      · refine (storedAt_congr (e := storedWord e1 l) (congrArg Regs.remap hcr) (congrArg Basin.words hcb)
          (congrArg Basin.spare hcb) _ _).trans (hat.trans ?_)
        exact (congrArg storeWord hbuffer).symm
      · intro y hy
        refine hwb y ?_
        rw [← hcb]
        exact hy
      · show k ∈ (corrupt (storedWord e1 l) (k / 16) (k % 16) l).basin.known
        rw [hcb]
        exact hkn ho
      · have hno : Tab.has (storedWord e1 l).basin.owners (k / 16) = false := by rw [howners]; exact ho
        have hsame : corrupt (storedWord e1 l) (k / 16) (k % 16) l = { e1 with basin := (storedWord e1 l).basin } := by
          rw [corrupt_of_unowned _ _ hno]
          exact heq
        rw [hsame]
        exact ⟨rfl, rfl, rfl⟩

end Sys2Proof.Machine

/-!
How a driver command ends that answers after a step of its own (R237, R249, R250).
-/

namespace Sys2Proof.Machine

/-- The opcode's row ran its entry to `g` and then answered: nothing of memory changes, and of the engine only what answers
change beside what the entry did. -/
def Replies (s t : State) (q : Nat) (p : BitVec 512) (g : Eng) (st : W16) (r0 r1 : W64) : Prop :=
  t.mem = s.mem ∧ t.pending = s.pending ∧ OnlyAnswers g t.eng ∧ Answered s.eng t.eng (cmdOf q p) st r0 r1

/-- A taken command whose entry makes a step that answers nothing, and then replies. -/
theorem Taken.replies {s : State} {q op : Nat} {p : BitVec 512} (h : Taken s q op p) {f : Eng → Cmd → BitVec 512 → Eng}
    {g : Eng} {st : W16} {r0 r1 : W64} (k : Steady (popHead s.eng q) g)
    (hf : f (popHead s.eng q) (cmdOf q p) p = reply g (cmdOf q p) st r0 r1) :
    Replies s (runCmd q op s f) q p g st r0 r1 := by
  rw [runCmd_of_taken h, hf]
  exact ⟨rfl, rfl, (onlyAnswers_reply _ _ _ _ _).trans (onlyAnswers_answerAll _),
    (h.answered_steady k st r0 r1).later (onlyAnswers_answerAll _)⟩

/-- A reply that comes with no step of its own answers only. -/
theorem Replies.only {s t : State} {q : Nat} {p : BitVec 512} {st : W16} {r0 r1 : W64}
    (h : Replies s t q p (popHead s.eng q) st r0 r1) : OnlyReplies s t q p st r0 r1 := by
  obtain ⟨hm, hp, ho, ha⟩ := h
  exact ⟨hm, hp, (onlyAnswers_popHead _ _).trans ho, ha⟩

/-- What a taken command's entry leaves; then only answers follow. -/
theorem Taken.runs {s : State} {q op : Nat} {p : BitVec 512} (h : Taken s q op p) (f : Eng → Cmd → BitVec 512 → Eng) :
    (runCmd q op s f).mem = s.mem ∧ (runCmd q op s f).pending = s.pending ∧
      OnlyAnswers (f (popHead s.eng q) (cmdOf q p) p) (runCmd q op s f).eng :=
  runCmd_runs h.1 h.2.1 h.2.2

/-- What holds of an engine whatever answers change, and is kept by a command's entry, is kept by the command, whether it is
taken, refused or not at hand. -/
theorem runCmd_keeps {q op : Nat} {s : State} {f : Eng → Cmd → BitVec 512 → Eng} (P : Eng → Prop)
    (hans : ∀ {e g : Eng}, OnlyAnswers e g → P e → P g) (hpop : P s.eng → P (popHead s.eng q))
    (hf : ∀ c p, P (popHead s.eng q) → P (f (popHead s.eng q) c p)) (h : P s.eng) : P (runCmd q op s f).eng := by
  unfold runCmd
  split
  · exact h
  · split
    · exact h
    · refine hans (onlyAnswers_answerAll _) ?_
      split
      · exact hans (onlyAnswers_reply _ _ _ _ _) (hpop h)
      · exact hf _ _ (hpop h)

end Sys2Proof.Machine

/-!
VALLEY_DEFINE and the limits of a shape (R3, R56, R252, R253).
-/

namespace Sys2Proof.Machine

/-- The limits of R3 on the members, data positions and parity positions of a shape. -/
def ShapeOk (n k m : Nat) : Prop := 3 ≤ n ∧ n ≤ 64 ∧ 2 ≤ k ∧ k ≤ 60 ∧ 1 ≤ m ∧ m ≤ 4 ∧ k + m ≤ n

/-- Does another defined slot hold a tag? -/
def tagTaken (e : Eng) (v : Nat) (tag : W16) : Bool :=
  e.valleys.any fun y => decide (y.1 ≠ v) && isDefined y.2 && decide (y.2.tag = tag)

/-- A slot after its definition. -/
def shaped (w1 alpha : W64) (x : Valley) : Valley :=
  { emptySlot x with
      slot := .defined, tag := w1.extractLsb' 0 16, n := fld w1 16 7, k := fld w1 24 6, m := fld w1 32 3, alpha := alpha }

theorem tagTaken_iff (e : Eng) (v : Nat) (w : W64) :
    tagTaken e v (w.extractLsb' 0 16) = true ↔
      ∃ y ∈ e.valleys, y.1 ≠ v ∧ isDefined y.2 = true ∧ y.2.tag.toNat = fld w 0 16 := by
  simp [tagTaken, fld, BitVec.toNat_eq, and_assoc]

section
variable {e : Eng} {v : Nat} {w1 alpha : W64}

theorem defineValley_of_bound (h : slotBound (getV e v) = true) : defineValley e v w1 alpha = (stConfigLocked, e) := by
  simp [defineValley, h]

theorem defineValley_of_empty (h : slotBound (getV e v) = false) (hn : fld w1 16 7 = 0) :
    defineValley e v w1 alpha = if slotNamed e v then (stOutOfRange, e) else (stOK, updV e v emptySlot) := by
  simp [defineValley, h, hn]

theorem defineValley_of_unfit (h : slotBound (getV e v) = false) (hn : fld w1 16 7 ≠ 0)
    (hu : ¬ ShapeOk (fld w1 16 7) (fld w1 24 6) (fld w1 32 3) ∨ alpha = 0 ∨ tagTaken e v (w1.extractLsb' 0 16) = true) :
    defineValley e v w1 alpha = (stOutOfRange, e) := by
  unfold ShapeOk at hu
  simp only [defineValley, h, Bool.false_eq_true, if_false, if_neg hn]
  split
  · rfl
  · next hs => exact if_pos ((hu.resolve_left fun hc => hs (.inl hc)).resolve_left fun hc => hs (.inr hc))

theorem defineValley_of_fit (h : slotBound (getV e v) = false)
    (hs : ShapeOk (fld w1 16 7) (fld w1 24 6) (fld w1 32 3)) (ha : alpha ≠ 0)
    (ht : tagTaken e v (w1.extractLsb' 0 16) = false) :
    defineValley e v w1 alpha = (stOK, updV e v (shaped w1 alpha)) := by
  have hn : fld w1 16 7 ≠ 0 := by have := hs.1; omega
  unfold ShapeOk at hs
  simp only [defineValley, h, Bool.false_eq_true, if_false, if_neg hn]
  rw [if_neg (fun hc => hc.elim (fun hc => hc hs) ha)]
  exact if_neg (by rw [← Bool.not_eq_true] at ht; exact ht)

end

/-- The ways VALLEY_DEFINE can end: the engine stays, the slot is emptied, or it takes a shape within the limits. -/
theorem defineValley_cases (e : Eng) (v : Nat) (w1 alpha : W64) :
    (defineValley e v w1 alpha).2 = e ∨ (defineValley e v w1 alpha).2 = updV e v emptySlot ∨
      ShapeOk (fld w1 16 7) (fld w1 24 6) (fld w1 32 3) ∧
        (defineValley e v w1 alpha).2 = updV e v (shaped w1 alpha) := by
  cases hb : slotBound (getV e v) with
  | true => exact .inl (by rw [defineValley_of_bound hb])
  | false =>
    by_cases hn : fld w1 16 7 = 0
    · rw [defineValley_of_empty hb hn]
      split
      · exact .inl rfl
      · exact .inr (.inl rfl)
    · by_cases hu : ¬ ShapeOk (fld w1 16 7) (fld w1 24 6) (fld w1 32 3) ∨ alpha = 0 ∨
          tagTaken e v (w1.extractLsb' 0 16) = true
      · exact .inl (by rw [defineValley_of_unfit hb hn hu])
      · simp only [not_or, Classical.not_not, Bool.not_eq_true] at hu
        obtain ⟨hs, ha, ht⟩ := hu
        exact .inr (.inr ⟨hs, by rw [defineValley_of_fit hb hs ha ht]⟩)

/-- Every defined Valley has a shape within the limits. -/
def ShapesFit (e : Eng) : Prop :=
  ∀ v, isDefined (getV e v) = true → ShapeOk (getV e v).n (getV e v).k (getV e v).m

theorem ShapesFit.of_valleys {e f : Eng} (hv : f.valleys = e.valleys) (h : ShapesFit e) : ShapesFit f := fun v => by
  have hg : getV f v = getV e v := getV_congr hv v
  rw [hg]
  exact h v

/-- A slot that takes a shape within the limits, if it is defined at all, keeps every shape within them. -/
theorem ShapesFit.updV {e : Eng} (h : ShapesFit e) (v : Nat) {f : Valley → Valley}
    (hf : isDefined (f (getV e v)) = true → ShapeOk (f (getV e v)).n (f (getV e v)).k (f (getV e v)).m) :
    ShapesFit (updV e v f) := fun w => by
  by_cases hv : w = v
  · subst hv
    rw [getV_updV_same]
    exact hf
  · rw [getV_updV_ne _ _ hv]
    exact h w

theorem defineValley_shapesFit {e : Eng} (v : Nat) (w1 alpha : W64) (h : ShapesFit e) :
    ShapesFit (defineValley e v w1 alpha).2 := by
  rcases defineValley_cases e v w1 alpha with he | he | ⟨hs, he⟩
  · rw [he]
    exact h
  · rw [he]
    exact h.updV v fun hd => absurd hd (by simp [emptySlot, isDefined])
  · rw [he]
    exact h.updV v fun _ => hs

/-- Settles O35: from the cases of the definition; the reply and the packet's word leave every Valley. -/
theorem valleyDefineDefines : Obligations.ValleyDefineDefines := by
  refine ⟨fun q s p h => ?_, fun q s hfit => ⟨_, rfl, ?_⟩⟩
  · have hnext (u : Eng) (st : W16) (k : Steady (popHead s.eng q.val) u)
        (hd : defineValley (popHead s.eng q.val) (pkValley p) (pkw p 1) (pkw p 2) = (st, u)) :
        ∃ t, exec (.valleyDefine q) s = .next t ∧ Replies s t q.val p u st 0 0 :=
      ⟨_, rfl, h.replies k (by simp only [hd]; rfl)⟩
    have hstay (st : W16)
        (hd : defineValley (popHead s.eng q.val) (pkValley p) (pkw p 1) (pkw p 2) = (st, popHead s.eng q.val)) :
        ∃ t, exec (.valleyDefine q) s = .next t ∧ OnlyReplies s t q.val p st 0 0 := by
      obtain ⟨t, ht, hrep⟩ := hnext _ st (.refl _) hd
      exact ⟨t, ht, hrep.only⟩
    have hnamed : slotNamed (popHead s.eng q.val) (pkValley p) = slotNamed s.eng (pkValley p) := by
      simp [slotNamed, valleyRegions]
    have htag := tagTaken_iff (popHead s.eng q.val) (pkValley p) (pkw p 1)
    rw [popHead_valleys] at htag
    have hget := popHead_getV s.eng q.val (pkValley p)
    refine ⟨fun hb h1 h2 h3 h4 h5 h6 h7 ha ht => ?_, fun hb hn hs => ?_, fun hb => hstay _ ?_,
      fun hb hn hu => hstay _ ?_, fun hb hn hs => hstay _ ?_⟩
    · have hfree : tagTaken (popHead s.eng q.val) (pkValley p) ((pkw p 1).extractLsb' 0 16) = false := by
        rw [← Bool.not_eq_true, htag]
        rintro ⟨y, hy, hv, hdef, heq⟩
        exact ht y hy hv hdef heq
      obtain ⟨t, hx, hm, -, ho, hans⟩ := hnext _ _ (steady_updV _ _ _)
        (defineValley_of_fit (by rw [hget]; exact hb) ⟨h1, h2, h3, h4, h5, h6, h7⟩ ha hfree)
      have hsame : getV t.eng (pkValley p) = shaped (pkw p 1) (pkw p 2) (getV s.eng (pkValley p)) := by
        rw [ho.getV, getV_updV_same, hget]
      refine ⟨t, hx, hm, hans, ?_⟩
      rw [hsame]
      refine ⟨rfl, rfl, rfl, rfl, rfl, rfl, rfl, fun w hw => ?_, ?_, ?_, ?_, ?_⟩
      · rw [ho.getV, getV_updV_ne _ _ hw, popHead_getV]
      · simp [ho.regions]
      · rw [ho.basin]; rfl
      · simp [ho.lanes]
      · rw [ho.spill]; exact popHead_spill _ _
    · obtain ⟨t, hx, hm, -, ho, hans⟩ := hnext _ _ (steady_updV _ _ _)
        (by rw [defineValley_of_empty (by rw [hget]; exact hb) hn, hnamed, hs]; rfl)
      refine ⟨t, hx, hm, hans, ?_, fun w hw => ?_⟩
      · rw [ho.getV, getV_updV_same]; rfl
      · rw [ho.getV, getV_updV_ne _ _ hw, popHead_getV]
    · exact defineValley_of_bound (by rw [hget]; exact hb)
    · refine defineValley_of_unfit (by rw [hget]; exact hb) hn ?_
      rcases hu with hu | hu | hu
      · exact .inl hu
      · exact .inr (.inl hu)
      · exact .inr (.inr (htag.2 hu))
    · rw [defineValley_of_empty (by rw [hget]; exact hb) hn, hnamed, hs]; rfl
  · refine runCmd_keeps ShapesFit (fun ho hP => hP.of_valleys ho.valleys) (fun hP => hP.of_valleys (popHead_valleys _ _))
      (fun c p hP => ?_) hfit
    exact (defineValley_shapesFit _ _ _ hP).of_valleys (onlyAnswers_reply _ _ _ _ _).valleys

end Sys2Proof.Machine

/-!
REGION_DEFINE, REGION_FREEZE and REGION_THAW (R34, R35, R250, R253, R254, R268, R309).
-/

namespace Sys2Proof.Machine

/-! ## What the rules of a descriptor look at -/

theorem getR_congr {e f : Eng} (hr : f.regions = e.regions) (d : Nat) : getR f d = getR e d := by rw [getR, getR, hr]

theorem regionRuns_congr {e f : Eng} (hv : f.valleys = e.valleys) (r : Region) : regionRuns f r = regionRuns e r := by
  simp only [regionRuns, getV_congr hv]

theorem sidesKept_congr {e f : Eng} (hr : f.regions = e.regions) (d : Nat) (r : Region) :
    sidesKept f d r = sidesKept e d r := by
  simp only [sidesKept, hr]

section
variable {e f : Eng} (hv : f.valleys = e.valleys) (hr : f.regions = e.regions)
include hv hr

theorem hitsRegion_congr (a n : Nat) (but : Option Nat) : hitsRegion f a n but = hitsRegion e a n but := by
  simp only [hitsRegion, placeless, hr, getV_congr hv]

theorem parityTotal_congr (v : Nat) : parityTotal f v = parityTotal e v := by
  simp only [parityTotal, parityBefore, reachList_congr hr, getV_congr hv]

theorem hitsParity_congr (a n : Nat) (but : Option Nat) : hitsParity f a n but = hitsParity e a n but := by
  simp only [hitsParity, hv, parityTotal_congr hv hr]

theorem fnHoldsRegion_congr (fn : Byte) (d : Nat) : fnHoldsRegion f fn d = fnHoldsRegion e fn d := by
  simp only [fnHoldsRegion, fnHoldsValley, getR_congr hr, getV_congr hv]

theorem mayDefine_congr (fn : Byte) (d : Nat) (w0 w1 : W64) : mayDefine f fn d w0 w1 = mayDefine e fn d w0 w1 := by
  simp only [mayDefine, fnHoldsRegion_congr hv hr, fnHoldsValley, getR_congr hr, getV_congr hv]

theorem regionOk_congr (hs : ∀ a n, hitsSpill f a n = hitsSpill e a n) (d : Nat) (r : Region) :
    regionOk f d r = regionOk e d r := by
  simp only [regionOk, hitsRegion_congr hv hr, hitsParity_congr hv hr, hs, hr, getR_congr hr, getV_congr hv]

end

theorem hitsSpill_popHead (e : Eng) (q a n : Nat) : hitsSpill (popHead e q) a n = hitsSpill e a n := by
  have hregs : (popHead e q).regs = (readHead e q).regs := rfl
  rw [hitsSpill, hitsSpill, hregs, (onlyCorrects_readHead e q).1]
  rfl

/-! ## Filters (R11) -/

/-- A lane's filters after a descriptor's entry is loaded or emptied. -/
def filtersPut (d : Nat) (w : W64) (l : Lane) : Lane :=
  { l with filters := if w = 0 then Tab.del l.filters d else Tab.set l.filters d w }

theorem setFilters_lanes (e : Eng) (d : Nat) (w : W64) :
    (setFilters e d w).lanes = ((List.range 12).foldl (fun e i => updLane e i (filtersPut d w)) e).lanes := by
  have hfold : ∀ (ks : List Nat) (g : Eng),
      ks.foldl (fun t i => Tab.upd {} t i (filtersPut d w)) g.lanes =
        (ks.foldl (fun e i => updLane e i (filtersPut d w)) g).lanes := by
    intro ks
    induction ks with
    | nil => exact fun _ => rfl
    | cons i r ih => exact fun g => ih (updLane g i (filtersPut d w))
  exact hfold _ e

/-- Every lane holds the entry of a descriptor that was loaded. -/
theorem getLane_setFilters (e : Eng) (d : Nat) (w : W64) {i : Nat} (hi : i < 12) :
    getLane (setFilters e d w) i = filtersPut d w (getLane e i) := by
  rw [getLane_congr (setFilters_lanes e d w), getLane_foldl_updLane _ List.nodup_range]
  exact if_pos (List.mem_range.2 hi)

/-! ## The frozen field (R34, R254) -/

section
variable {e : Eng} {d : Nat} (on : Bool)

/-- The value in force in a descriptor after its frozen field is written. -/
def inForce (e : Eng) (d : Nat) (on : Bool) : Bool :=
  if (getV e (Region.valley (getR e d))).opened then (getR e d).frozen else on

theorem getR_setFrozen : getR (setFrozen e d on) d =
    { getR e d with
        w1 := if on then setBit (getR e d).w1 15 else clrBit (getR e d).w1 15, frozen := inForce e d on } :=
  getR_updR_same _ _ _

theorem getR_setFrozen_ne {j : Nat} (h : j ≠ d) : getR (setFrozen e d on) j = getR e j := Tab.get_set_ne _ _ _ _ _ h

theorem frozenBit_setFrozen : Region.frozenBit (getR (setFrozen e d on) d) = on := by
  rw [getR_setFrozen]
  show bit (if on then setBit (getR e d).w1 15 else clrBit (getR e d).w1 15) 15 = on
  cases on
  · exact (bit_clrBit _ _ _ (by omega)).trans rfl
  · exact (bit_setBit _ _ _ (by omega)).trans rfl

theorem clrBit_setBit {n : Nat} (x : BitVec n) (i : Nat) : clrBit (setBit x i) i = clrBit x i := by
  unfold clrBit setBit
  ext j
  simp only [BitVec.getElem_and, BitVec.getElem_or, BitVec.getElem_not]
  cases (BitVec.ofNat n (2 ^ i))[j] <;> simp

/-- Clearing the field leaves the same word whatever was written to it. -/
theorem clrBit_setFrozen : clrBit (getR (setFrozen e d on) d).w1 15 = clrBit (getR e d).w1 15 := by
  rw [getR_setFrozen]
  show clrBit (if on then setBit (getR e d).w1 15 else clrBit (getR e d).w1 15) 15 = _
  cases on
  · exact (BitVec.and_assoc _ _ _).trans (congrArg _ (BitVec.and_self))
  · exact clrBit_setBit _ _

end

/-! ## REGION_DEFINE by its cases (R35, R253, R309) -/

/-- The descriptor that words 0 and 1 make. -/
def described (a b : W64) : Region := { w0 := descBits0 a, w1 := descBits1 b, frozen := bit (descBits1 b) 15 }

section
variable {e : Eng} {d : Nat} {a b : W64}

theorem defineRegion_of_running (h : regionRuns e (getR e d) = true ∨ regionRuns e (described a b) = true) :
    defineRegion e d a b =
      if !Region.empty (getR e d) && decide ((getR e d).w0 = descBits0 a ∧
          clrBit (getR e d).w1 15 = clrBit (descBits1 b) 15) then (stOK, setFrozen e d (bit (descBits1 b) 15))
      else (stConfigLocked, e) := by
  unfold described at h
  simp only [defineRegion, Bool.or_eq_true, if_pos h]

theorem defineRegion_of_changed (h : regionRuns e (getR e d) = true ∨ regionRuns e (described a b) = true)
    (hc : (getR e d).w0 ≠ descBits0 a ∨ clrBit (getR e d).w1 15 ≠ clrBit (descBits1 b) 15) :
    defineRegion e d a b = (stConfigLocked, e) := by
  have hn : ¬ ((getR e d).w0 = descBits0 a ∧ clrBit (getR e d).w1 15 = clrBit (descBits1 b) 15) := by
    rintro ⟨h0, h1⟩
    exact hc.elim (· h0) (· h1)
  rw [defineRegion_of_running h, decide_eq_false hn, Bool.and_false]
  rfl

theorem defineRegion_of_frozenOnly (h : regionRuns e (getR e d) = true) (h0 : (getR e d).w0 = descBits0 a)
    (h1 : clrBit (getR e d).w1 15 = clrBit (descBits1 b) 15) :
    defineRegion e d a b = (stOK, setFrozen e d (bit (descBits1 b) 15)) := by
  have hne : Region.empty (getR e d) = false := by simp only [regionRuns, Bool.and_eq_true, Bool.not_eq_true'] at h; exact h.1
  rw [defineRegion_of_running (.inl h), decide_eq_true ⟨h0, h1⟩, hne]
  rfl

theorem defineRegion_of_idle (h : regionRuns e (getR e d) = false) (hn : regionRuns e (described a b) = false) :
    defineRegion e d a b =
      if Region.empty (described a b) then
        if sidesKept e d {} then (stOK, setFilters { e with regions := Tab.del e.regions d } d 0) else (stOutOfRange, e)
      else if !regionOk e d (described a b) || !sidesKept e d (described a b) then (stOutOfRange, e)
      else (stOK, setFilters { e with regions := Tab.set e.regions d (described a b) } d (descBits0 a)) := by
  unfold described at hn ⊢
  simp only [defineRegion, h, hn, Bool.or_self, Bool.false_eq_true, if_false]

/-- An empty descriptor runs nowhere. -/
theorem regionRuns_of_empty {r : Region} (h : Region.empty r = true) : regionRuns e r = false := by
  rw [regionRuns, h, Bool.not_true, Bool.false_and]

theorem defineRegion_of_empty (h : regionRuns e (getR e d) = false) (hn : Region.empty (described a b) = true) :
    defineRegion e d a b =
      if sidesKept e d {} then (stOK, setFilters { e with regions := Tab.del e.regions d } d 0) else (stOutOfRange, e) := by
  rw [defineRegion_of_idle h (regionRuns_of_empty hn), hn, if_pos rfl]

theorem defineRegion_of_fit (h : regionRuns e (getR e d) = false) (hn : regionRuns e (described a b) = false)
    (he : Region.empty (described a b) = false) (ho : regionOk e d (described a b) = true)
    (hs : sidesKept e d (described a b) = true) :
    defineRegion e d a b =
      (stOK, setFilters { e with regions := Tab.set e.regions d (described a b) } d (descBits0 a)) := by
  rw [defineRegion_of_idle h hn, he, ho, hs]
  rfl

theorem defineRegion_of_unfit (h : regionRuns e (getR e d) = false) (hn : regionRuns e (described a b) = false)
    (he : Region.empty (described a b) = false)
    (hu : regionOk e d (described a b) = false ∨ sidesKept e d (described a b) = false) :
    defineRegion e d a b = (stOutOfRange, e) := by
  have hc : (!regionOk e d (described a b) || !sidesKept e d (described a b)) = true := by
    rcases hu with hu | hu <;> simp [hu]
  rw [defineRegion_of_idle h hn, he, if_neg Bool.false_ne_true, if_pos hc]

end

/-! ## The commands -/

theorem steady_setFrozen (e : Eng) (d : Nat) (on : Bool) : Steady e (setFrozen e d on) := .of_same rfl rfl rfl

theorem steady_setFilters (e : Eng) (t : Tab Region) (d : Nat) (w : W64) :
    Steady e (setFilters { e with regions := t } d w) := .of_same rfl rfl rfl

/-- A region that does not run is of no Valley in standby. -/
theorem not_standby_of_idle {e : Eng} {r : Region} (h : regionRuns e r = false) :
    Region.empty r = true ∨ standby e (Region.valley r) = false := by
  rw [regionRuns, Bool.and_eq_false_iff, Bool.not_eq_false'] at h
  refine h.imp_right fun hb => decide_eq_false fun hs => ?_
  rw [slotBound, hs] at hb
  cases hb

section
variable {q : Fin 64} {s : State} {p : BitVec 512} {st : W16} {g : Eng} (h : Taken s q.val 0x18 p)
include h

/-- REGION_DEFINE by what the definition of the descriptor does, when the function may define it. -/
theorem exec_regionDefine
    (hm : mayDefine s.eng (getQ s.eng q.val).owner (pkf p 1 0 10) (pkw p 2) (pkw p 3) = true)
    (hd : defineRegion (popHead s.eng q.val) (pkf p 1 0 10) (pkw p 2) (pkw p 3) = (st, g))
    (hs : st ≠ stOK ∨ Region.empty (getR s.eng (pkf p 1 0 10)) = true ∨
      standby s.eng (Region.valley (getR s.eng (pkf p 1 0 10))) = false)
    (k : Steady (popHead s.eng q.val) g) :
    ∃ t, exec (.regionDefine q) s = .next t ∧ Replies s t q.val p g st 0 0 := by
  have hmay : mayDefine (popHead s.eng q.val) (fnOf (popHead s.eng q.val) (cmdOf q.val p)) (pkf p 1 0 10) (pkw p 2)
      (pkw p 3) = true := by
    rw [mayDefine_congr (popHead_valleys _ _) (popHead_regions _ _), fnOf_popHead]
    exact hm
  have hstand : ¬ (st = stOK ∧ (!Region.empty (getR (popHead s.eng q.val) (pkf p 1 0 10))) = true ∧
      standby (popHead s.eng q.val) (Region.valley (getR (popHead s.eng q.val) (pkf p 1 0 10))) = true) := by
    rw [popHead_getR, standby, popHead_getV]
    rintro ⟨h0, h1, h2⟩
    rcases hs with hs | hs | hs
    · exact hs h0
    · rw [hs] at h1; cases h1
    · exact Bool.false_ne_true (hs.symm.trans h2)
  refine ⟨_, rfl, h.replies k ?_⟩
  dsimp only
  rw [hmay, hd, if_neg hstand]
  rfl

/-- A function that may not define the descriptor is denied. -/
theorem exec_regionDefine_denied
    (hm : mayDefine s.eng (getQ s.eng q.val).owner (pkf p 1 0 10) (pkw p 2) (pkw p 3) = false) :
    ∃ t, exec (.regionDefine q) s = .next t ∧ OnlyReplies s t q.val p stDenied 0 0 := by
  have hmay : mayDefine (popHead s.eng q.val) (fnOf (popHead s.eng q.val) (cmdOf q.val p)) (pkf p 1 0 10) (pkw p 2)
      (pkw p 3) = false := by
    rw [mayDefine_congr (popHead_valleys _ _) (popHead_regions _ _), fnOf_popHead]
    exact hm
  refine ⟨_, rfl, h.onlyReplies ?_⟩
  dsimp only
  rw [hmay]
  rfl

end

theorem exec_freeze (q : Fin 64) (s : State) (on : Bool) :
    exec (if on then .regionFreeze q else .regionThaw q) s =
      .next (runCmd q.val (if on then 0x19 else 0x1A) s fun e c p => freezeRegion e c p on) := by
  cases on <;> rfl

/-- Settles O37: the definition by its cases, and the one field that a freeze writes. -/
theorem regionsAreDefinedAndFrozen : Obligations.RegionsAreDefinedAndFrozen := by
  refine ⟨fun q s p h => ?_, fun q s p on h => ?_⟩
  · have hv := popHead_valleys s.eng q.val
    have hr := popHead_regions s.eng q.val
    have hruns (r : Region) : regionRuns (popHead s.eng q.val) r = regionRuns s.eng r := regionRuns_congr hv r
    have hget (d : Nat) : getR (popHead s.eng q.val) d = getR s.eng d := popHead_getR _ _ _
    have hsides (d : Nat) (r : Region) : sidesKept (popHead s.eng q.val) d r = sidesKept s.eng d r :=
      sidesKept_congr hr d r
    have hok (d : Nat) (r : Region) : regionOk (popHead s.eng q.val) d r = regionOk s.eng d r :=
      regionOk_congr hv hr (hitsSpill_popHead _ _) d r
    refine ⟨exec_regionDefine_denied h, fun hm => ⟨?_, ?_, ?_, ?_, ?_, ?_⟩⟩
    · intro hold hnew hne hfit hkept
      obtain ⟨t, hx, hmem, -, ho, ha⟩ := exec_regionDefine h hm
        (defineRegion_of_fit (by rw [hruns, hget]; exact hold) (by rw [hruns]; exact hnew) hne
          (by rw [hok]; exact hfit) (by rw [hsides]; exact hkept))
        (.inr (not_standby_of_idle hold)) (steady_setFilters _ _ _ _)
      refine ⟨t, hx, hmem, ha, ?_, fun c hc => ?_, fun i => ?_, ?_, ?_, ?_⟩
      · rw [ho.getR]; exact Tab.get_set_same _ _ _ _
      · rw [ho.getR]; exact (Tab.get_set_ne _ _ _ _ _ hc).trans (hget c)
      · by_cases hw : descBits0 (pkw p 2) = 0
        · exact .inr hw
        · refine .inl ?_
          rw [ho.getLane, getLane_setFilters _ _ _ i.isLt, filtersPut, if_neg hw]
          exact (Tab.find_set _ _ _ _).trans (if_pos rfl)
      · exact ho.valleys.trans hv
      · rw [ho.basin]; rfl
      · rw [ho.regs]; rfl
    · intro hold hne hkept
      obtain ⟨t, hx, hmem, -, ho, ha⟩ := exec_regionDefine h hm
        ((defineRegion_of_empty (by rw [hruns, hget]; exact hold) hne).trans (if_pos (by rw [hsides]; exact hkept)))
        (.inr (not_standby_of_idle hold)) (steady_setFilters _ _ _ _)
      refine ⟨t, hx, hmem, ha, ?_, fun c hc => ?_, fun i => ?_, ?_⟩
      · rw [ho.getR]; exact Tab.get_del_same _ _ _
      · rw [ho.getR]; exact (Tab.get_del_ne _ _ _ _ hc).trans (hget c)
      · rw [ho.getLane, getLane_setFilters _ _ _ i.isLt, filtersPut, if_pos rfl, Tab.find_del]
        exact if_pos rfl
      · exact ho.valleys.trans hv
    · intro hrun hc
      obtain ⟨t, hx, hrep⟩ := exec_regionDefine h hm
        (defineRegion_of_changed (by rw [hruns, hruns, hget]; exact hrun) (by rw [hget]; exact hc))
        (.inl (by decide)) (.refl _)
      exact ⟨t, hx, hrep.only⟩
    · intro hrun hst h0 h1
      obtain ⟨t, hx, hmem, -, ho, ha⟩ := exec_regionDefine h hm
        (defineRegion_of_frozenOnly (by rw [hruns, hget]; exact hrun) (by rw [hget]; exact h0) (by rw [hget]; exact h1))
        (.inr (.inr (decide_eq_false hst))) (steady_setFrozen _ _ _)
      refine ⟨t, hx, hmem, ha, ?_, ?_, fun c hc => ?_, ?_, ?_⟩
      · rw [ho.getR, frozenBit_setFrozen]
      · rw [ho.getR, getR_setFrozen, hget]
      · rw [ho.getR, getR_setFrozen_ne _ hc, hget]
      · exact ho.valleys.trans hv
      · exact ho.lanes.trans (popHead_lanes _ _)
    · intro hold hnew hne hu
      obtain ⟨t, hx, hrep⟩ := exec_regionDefine h hm
        (defineRegion_of_unfit (by rw [hruns, hget]; exact hold) (by rw [hruns]; exact hnew) hne
          (by rw [hok, hsides]; exact hu))
        (.inl (by decide)) (.refl _)
      exact ⟨t, hx, hrep.only⟩
    · intro hold hne hkept
      obtain ⟨t, hx, hrep⟩ := exec_regionDefine h hm
        ((defineRegion_of_empty (by rw [hruns, hget]; exact hold) hne).trans
          (if_neg (by rw [hsides, hkept]; exact Bool.false_ne_true)))
        (.inl (by decide)) (.refl _)
      exact ⟨t, hx, hrep.only⟩
  · have hget := popHead_getR s.eng q.val (pkf p 1 0 10)
    have hfn : fnHoldsRegion (popHead s.eng q.val) (fnOf (popHead s.eng q.val) (cmdOf q.val p)) (pkf p 1 0 10) =
        fnHoldsRegion s.eng (getQ s.eng q.val).owner (pkf p 1 0 10) := by
      rw [fnHoldsRegion_congr (popHead_valleys _ _) (popHead_regions _ _), fnOf_popHead]
      rfl
    have hstand : standby (popHead s.eng q.val) (Region.valley (getR s.eng (pkf p 1 0 10))) =
        decide ((getV s.eng (Region.valley (getR s.eng (pkf p 1 0 10)))).slot = .standby) := by
      rw [standby, popHead_getV]
    dsimp only
    rw [exec_freeze]
    refine ⟨fun he hs hf => ?_, fun he hs hf => ⟨_, rfl, h.onlyReplies ?_⟩, fun hu => ⟨_, rfl, h.onlyReplies ?_⟩⟩
    · obtain ⟨hmem, -, ho, ha⟩ := h.replies (f := fun e c p => freezeRegion e c p on) (st := stOK) (r0 := 0) (r1 := 0)
        (g := setFrozen (popHead s.eng q.val) (pkf p 1 0 10) on) (steady_setFrozen _ _ _)
        (by simp only [freezeRegion, hget, hstand, he, hs, hfn, hf]; rfl)
      refine ⟨_, rfl, hmem, ha, ?_, ?_, ?_, ?_, fun j hj => ?_, ?_, ?_⟩
      · rw [ho.getR, getR_setFrozen]
        simp only [inForce, hget, popHead_getV]
      · rw [ho.getR, frozenBit_setFrozen]
      · rw [ho.getR, getR_setFrozen, hget]
      · rw [ho.getR, clrBit_setFrozen, hget]
      · rw [ho.getR, getR_setFrozen_ne _ hj, popHead_getR]
      · exact ho.valleys.trans (popHead_valleys _ _)
      · exact ho.lanes.trans (popHead_lanes _ _)
    · simp only [freezeRegion, hget, hstand, he, hs, hfn, hf]
      rfl
    · have hc : (Region.empty (getR s.eng (pkf p 1 0 10)) ||
          decide ((getV s.eng (Region.valley (getR s.eng (pkf p 1 0 10)))).slot = .standby)) = true :=
        Bool.or_eq_true_iff.2 hu
      simp only [freezeRegion, hget, hstand, hc]
      rfl

end Sys2Proof.Machine

/-!
COMMAND_FETCH, the checks before a command's entry, and WATERSHED_QUERY (R89, R236 to R240, R247 to R250).
-/

namespace Sys2Proof.Machine

/-! ## COMMAND_FETCH (R237) -/

/-- Writing the newest replies for good leaves what a queue has fetched and not answered. -/
theorem queueSettle_fetched (x : Queue) : (queueSettle x).buf = x.buf ∧ (queueSettle x).out = x.out := by
  unfold queueSettle
  split <;> exact ⟨rfl, rfl⟩

theorem queueFinal_fetched (e : Eng) (q : Nat) :
    (getQ (queueFinal e q) q).buf = (getQ e q).buf ∧ (getQ (queueFinal e q) q).out = (getQ e q).out := by
  unfold queueFinal
  dsimp only
  split
  · rw [getQ_queueFault, getQ_updQ_same]
    exact ⟨rfl, rfl⟩
  · exact ⟨rfl, rfl⟩

theorem replyWritten_fetched (e : Eng) (q r : Nat) :
    (getQ (replyWritten e q) r).buf = (getQ e r).buf ∧ (getQ (replyWritten e q) r).out = (getQ e r).out := by
  by_cases h : r = q
  · subst h
    unfold replyWritten
    split
    · obtain ⟨hb, ho⟩ := queueFinal_fetched (updQ e r fun x => { x with inFlight := false }) r
      rw [getQ_updQ_same] at hb ho
      dsimp only
      rw [getQ_updQ_same, (queueSettle_fetched _).1, (queueSettle_fetched _).2]
      split
      · exact ⟨hb, ho⟩
      · rw [getQ_updQ_same]
        exact ⟨rfl, rfl⟩
    · exact ⟨rfl, rfl⟩
  · rw [getQ_replyWritten_ne h]
    exact ⟨rfl, rfl⟩

theorem repliesWritten_fetched (e : Eng) (r : Nat) :
    (getQ (repliesWritten e) r).buf = (getQ e r).buf ∧ (getQ (repliesWritten e) r).out = (getQ e r).out := by
  have hfold : ∀ (ks : List Nat) (g : Eng),
      (getQ (ks.foldl replyWritten g) r).buf = (getQ g r).buf ∧ (getQ (ks.foldl replyWritten g) r).out = (getQ g r).out := by
    intro ks
    induction ks with
    | nil => exact fun _ => ⟨rfl, rfl⟩
    | cons k ks ih =>
      intro g
      obtain ⟨hb, ho⟩ := ih (replyWritten g k)
      obtain ⟨hb', ho'⟩ := replyWritten_fetched g k r
      exact ⟨hb.trans hb', ho.trans ho'⟩
  exact hfold _ _

theorem fetchPacket_fetched (e : Eng) (q : Nat) (p : BitVec 512) :
    (getQ (fetchPacket e q p) q).buf = (getQ e q).buf ++ [p] ∧ (getQ (fetchPacket e q p) q).out = (getQ e q).out + 1 := by
  have hword (k : Nat) : getQ (writeWord e k) q = getQ e q := by rw [writeWord_eq]; rfl
  unfold fetchPacket
  rw [getQ_updQ_same]
  split
  · rw [hword]
    exact ⟨rfl, rfl⟩
  · exact ⟨rfl, rfl⟩

/-! ## The rows of the command table (R249, R250) -/

/-- A row of the command table runs an entry on the packet of its opcode and, where `flag` says so, of its flag A. -/
def CommandRow (q op : Nat) (flag : Option Bool) (c : Instr) (s : State) : Prop :=
  ∃ f, (∀ p, headReady s.eng q = some p → (∀ a, flag = some a → pkA p = a) → exec c s = .next (runCmd q op s f)) ∧
    (∀ p a, headReady s.eng q = some p → flag = some a → pkA p ≠ a → exec c s = .next s) ∧
    (headReady s.eng q = none → exec c s = .next s)

theorem runCmd_of_none {q op : Nat} {s : State} (f : Eng → Cmd → BitVec 512 → Eng) (h : headReady s.eng q = none) :
    runCmd q op s f = s := by
  simp [runCmd, h]

theorem runCmd_of_other {q op : Nat} {s : State} {p : BitVec 512} (f : Eng → Cmd → BitVec 512 → Eng)
    (h : headReady s.eng q = some p) (ho : (pkOp p).toNat ≠ op) : runCmd q op s f = s := by
  simp [runCmd, h, ho]

/-- A packet that a check refuses is answered with the check's status. -/
theorem runCmd_refused {q op : Nat} {s : State} {p : BitVec 512} {st : W16} (f : Eng → Cmd → BitVec 512 → Eng)
    (h : headReady s.eng q = some p) (ho : (pkOp p).toNat = op) (hc : preCheck (popHead s.eng q) q p = some st) :
    OnlyReplies s (runCmd q op s f) q p st 0 0 := by
  have hrun : runCmd q op s f = { s with eng := answerAll (reply0 (popHead s.eng q) (cmdOf q p) st) } := by
    simp [runCmd, h, ho, hc]
  obtain ⟨hb, hr, hp, -⟩ := getQ_popHead s.eng q q
  have hans := (reply_answered (popHead s.eng q) (cmdOf q p) st 0 0
    ((popHead_cpHaltBit _ _).trans (headReady_runs h).1)).earlier (e := s.eng) (by simp) hb hr hp (popHead_hm _ _)
  rw [hrun]
  exact ⟨rfl, rfl, ((onlyAnswers_popHead _ _).trans (onlyAnswers_reply _ _ _ _ _)).trans (onlyAnswers_answerAll _),
    hans.later (onlyAnswers_answerAll _)⟩

/-- A row without a flag runs the command of its opcode. -/
theorem commandRow_of_run {q op : Nat} {c : Instr} {s : State} {f : Eng → Cmd → BitVec 512 → Eng}
    (h : exec c s = .next (runCmd q op s f)) : CommandRow q op none c s :=
  ⟨f, fun _ _ _ => h, fun _ _ _ ha _ => (nomatch ha), fun hn => h.trans (by rw [runCmd_of_none f hn])⟩

/-- STAND_IN on a member has flag A clear. -/
theorem commandRow_standIn (q : Fin 64) (s : State) : CommandRow q.val 0x33 (some false) (.standIn q) s := by
  refine ⟨fun e c p => standInMember s.mem e (pkValley p) c p, fun p hp ha => ?_, fun p a hp ha hne => ?_, fun hn => ?_⟩
  · show execStandIn q s = _
    simp only [execStandIn, hp, ha false rfl, Bool.false_eq_true, if_false]
  · cases ha
    show execStandIn q s = _
    simp only [execStandIn, hp, eq_true_of_ne_false hne, if_true]
  · show execStandIn q s = _
    simp only [execStandIn, hn]

/-- STAND_IN on the spare has it set. -/
theorem commandRow_standInSpare (q : Fin 64) (s : State) : CommandRow q.val 0x33 (some true) (.standInSpare q) s := by
  refine ⟨fun e c p => standInSpare e (pkValley p) c p, fun p hp ha => ?_, fun p a hp ha hne => ?_, fun hn => ?_⟩
  · show execStandInSpare q s = _
    simp only [execStandInSpare, hp, ha true rfl, if_true]
  · cases ha
    show execStandInSpare q s = _
    simp only [execStandInSpare, hp, eq_false_of_ne_true hne, Bool.false_eq_true, if_false]
  · show execStandInSpare q s = _
    simp only [execStandInSpare, hn]

/-- The rows of the command table: opcode, flag, and command. -/
def commandRows (q : Fin 64) (l k : List W64) : List (Nat × Option Bool × Instr) :=
  [(0x01, none, .negotiate q), (0x02, none, .configure q l), (0x03, none, .query q),
   (0x10, none, .valleyDefine q), (0x11, none, .valleyJoin q l), (0x12, none, .valleyLeave q),
   (0x18, none, .regionDefine q), (0x19, none, .regionFreeze q), (0x1A, none, .regionThaw q),
   (0x20, none, .crossingOpen q), (0x21, none, .crossingClose q), (0x22, none, .reachSeal q),
   (0x23, none, .watershedQuery q), (0x24, none, .rollback q), (0x28, none, .fence q),
   (0x30, none, .suspectReport q), (0x31, none, .rebuildPlan q), (0x32, none, .rebuildRun q l),
   (0x33, some false, .standIn q), (0x33, some true, .standInSpare q), (0x34, none, .contract q l),
   (0x38, none, .audit q l), (0x39, none, .digestExchange q l), (0x3A, none, .lockstep q),
   (0x40, none, .t1Drain q), (0x41, none, .t1Restore q l k), (0x44, none, .t2Drain q),
   (0x45, none, .t2Restore q l k), (0x46, none, .seedServe q), (0x50, none, .outerExport q),
   (0x51, none, .outerReanchor q), (0x60, none, .partitionGrant q), (0x61, none, .partitionRevoke q),
   (0x68, none, .scrub q), (0x70, none, .powerState q), (0x78, none, .keyLoad q l), (0x7E, none, .fwLoad q l)]

theorem commandRow_of_mem {q : Fin 64} {l k : List W64} {r : Nat × Option Bool × Instr} (h : r ∈ commandRows q l k)
    (s : State) : CommandRow q.val r.1 r.2.1 r.2.2 s := by
  simp only [commandRows, List.mem_cons, List.not_mem_nil, or_false] at h
  rcases h with rfl | rfl | rfl | rfl | rfl | rfl | rfl | rfl | rfl | rfl | rfl | rfl | rfl | rfl | rfl | rfl | rfl | rfl |
    rfl | rfl | rfl | rfl | rfl | rfl | rfl | rfl | rfl | rfl | rfl | rfl | rfl | rfl | rfl | rfl | rfl | rfl | rfl
  case inr.inr.inr.inr.inr.inr.inr.inr.inr.inr.inr.inr.inr.inr.inr.inr.inr.inr.inl => exact commandRow_standIn q s
  case inr.inr.inr.inr.inr.inr.inr.inr.inr.inr.inr.inr.inr.inr.inr.inr.inr.inr.inr.inl => exact commandRow_standInSpare q s
  all_goals exact commandRow_of_run rfl

/-! ## Records that a command writes to host memory (R241) -/

/-- An engine after a record of words was written to an address in host memory. -/
def hostWritten (e : Eng) (a : W64) (ws : List W64) : Eng :=
  updIo e fun io => { io with hm := { src := .buffer, addr := BitVec.ofNat 64 (addrOf a), data := ws } :: io.hm }

theorem writeParam_of_host (m : Mem) (e : Eng) {a : W64} (ws : List W64) (h : isHost a = true) :
    writeParam m e a ws = hostWritten e a ws := if_pos h

theorem onlyAnswers_hostWritten (e : Eng) (a : W64) (ws : List W64) : OnlyAnswers e (hostWritten e a ws) :=
  ⟨rfl, List.suffix_cons _ _⟩

theorem steady_hostWritten (e : Eng) (a : W64) (ws : List W64) : Steady e (hostWritten e a ws) :=
  ⟨rfl, rfl, rfl, rfl, rfl, List.suffix_cons _ _⟩

/-- A taken command that writes one record to host memory and replies. -/
theorem Taken.writesHost {s : State} {q op : Nat} {p : BitVec 512} (h : Taken s q op p)
    {f : Eng → Cmd → BitVec 512 → Eng} {a : W64} {ws : List W64} {st : W16} {r0 r1 : W64}
    (hf : f (popHead s.eng q) (cmdOf q p) p = reply (hostWritten (popHead s.eng q) a ws) (cmdOf q p) st r0 r1) :
    OnlyReplies s (runCmd q op s f) q p st r0 r1 ∧
      ({ src := .buffer, addr := BitVec.ofNat 64 (addrOf a), data := ws } : HmWrite) ∈ (runCmd q op s f).eng.io.hm := by
  obtain ⟨hm, hp, ho, ha⟩ := h.replies (steady_hostWritten _ _ _) hf
  refine ⟨⟨hm, hp, ((onlyAnswers_popHead _ _).trans (onlyAnswers_hostWritten _ _ _)).trans ho, ha⟩, ?_⟩
  exact ho.2.subset (List.mem_cons_self ..)

/-- Settles O38: the fetch, the rows one by one, and the query of the latest Watershed. -/
theorem commandPath : Obligations.CommandPath := by
  refine ⟨fun q s p => ⟨fun h => ?_, fun h => ?_⟩, fun q s l k r hr => ?_, fun q s p h => ⟨fun hw => ?_, fun w hw => ?_⟩⟩
  · obtain ⟨hb, ho⟩ := fetchPacket_fetched (repliesWritten s.eng) q.val p
    obtain ⟨hb', ho'⟩ := repliesWritten_fetched s.eng q.val
    rw [hb'] at hb
    rw [ho'] at ho
    refine ⟨?_, hb, ho⟩
    show execCommandFetch q p s = _
    rw [execCommandFetch, if_pos h]
  · show execCommandFetch q p s = _
    rw [execCommandFetch, h, if_neg Bool.false_ne_true]
  · obtain ⟨f, hrun, hflag, hnone⟩ := commandRow_of_mem hr s
    refine ⟨fun p st hp ho ha hc => ⟨_, hrun p hp ha, runCmd_refused f hp ho hc⟩, fun p hp ho => ?_, hnone⟩
    by_cases ha : ∃ a, r.2.1 = some a ∧ pkA p ≠ a
    · obtain ⟨a, hf, hne⟩ := ha
      exact hflag p a hp hf hne
    · have hne : (pkOp p).toNat ≠ r.1 := ho.resolve_right ha
      rw [hrun p hp fun a hf => Classical.not_not.1 fun hn => ha ⟨a, hf, hn⟩, runCmd_of_other f hp hne]
  · exact ⟨_, rfl, h.onlyReplies (by simp only [popHead_getV, hw]; rfl)⟩
  · refine ⟨fun ha => ⟨_, rfl, h.onlyReplies (by simp only [popHead_getV, hw, if_pos ha])⟩, fun ha hh hok => ⟨_, rfl, ?_⟩⟩
    refine h.writesHost ?_
    simp only [popHead_getV, hw, if_neg ha, hok, writeParam_of_host _ _ _ hh]
    rfl

end Sys2Proof.Machine

/-!
NEGOTIATE and QUERY (R247, R250, R258).
-/

namespace Sys2Proof.Machine

/-! ## NEGOTIATE (R247) -/

theorem popHead_negotiated (e : Eng) (q : Nat) : (popHead e q).ctl.negotiated = e.ctl.negotiated := by
  show (readHead e q).ctl.negotiated = _
  rw [(onlyCorrects_readHead e q).1]

theorem popHead_image (e : Eng) (q : Nat) : (popHead e q).ctl.image = e.ctl.image := by
  show (readHead e q).ctl.image = _
  rw [(onlyCorrects_readHead e q).1]

theorem highestVersion_popHead (e : Eng) (q : Nat) : highestVersion (popHead e q) = highestVersion e := by
  rw [highestVersion, highestVersion, popHead_image]

/-- An engine in which a version is in force for a function. -/
def agreed (e : Eng) (fn : Byte) (v : Nat × Nat) : Eng :=
  { e with ctl := { e.ctl with negotiated := Tab.set e.ctl.negotiated fn.toNat (v.1 + 16 * v.2) } }

theorem steady_agreed (e : Eng) (fn : Byte) (v : Nat × Nat) : Steady e (agreed e fn v) := ⟨rfl, rfl, rfl, rfl, rfl, List.suffix_rfl⟩

/-- What NEGOTIATE does on a packet that passed its checks. -/
def negotiate (e : Eng) (c : Cmd) (p : BitVec 512) : Eng :=
  if Tab.has e.ctl.negotiated (fnOf e c).toNat && decide (1 < outstanding e (fnOf e c)) then reply0 e c stOutOfRange
  else
    reply (agreed e (fnOf e c) (chooseVersion (highestVersion e) (pkf p 1 0 4, pkf p 1 4 8))) c stOK
      (versionWord (chooseVersion (highestVersion e) (pkf p 1 0 4, pkf p 1 4 8))) (versionWord (highestVersion e))

theorem exec_negotiate (q : Fin 64) (s : State) : exec (.negotiate q) s = .next (runCmd q.val 0x01 s negotiate) := rfl

theorem preCheck_of_badOffer {p : BitVec 512} (e : Eng) (q : Nat) (ho : (pkOp p).toNat = 0x01) (hv : pkf p 1 0 4 = 0) :
    preCheck e q p = some stBadVersion := by
  simp [preCheck, ho, hv]

/-! ## QUERY (R258) -/

/-- What QUERY does with the words of an item. -/
def deliverItem (m : Mem) (e : Eng) (c : Cmd) (p : BitVec 512) (ws : List W64) : Eng :=
  if !addrOk (pkw p 3) 8 (if pkf p 4 0 32 < 8 * ws.length then 0 else 8 * ws.length) pkgBytes then reply0 e c stOutOfRange
  else if pkf p 4 0 32 < 8 * ws.length then reply e c stOK 0 (BitVec.ofNat 64 (8 * ws.length))
  else reply (writeParam m e (pkw p 3) ws) c stOK (BitVec.ofNat 64 (8 * ws.length)) (BitVec.ofNat 64 (8 * ws.length))

theorem deliverItem_of_short {p : BitVec 512} {ws : List W64} (m : Mem) (e : Eng) (c : Cmd)
    (h : pkf p 4 0 32 < 8 * ws.length) (ha : addrOk (pkw p 3) 8 0 pkgBytes = true) :
    deliverItem m e c p ws = reply e c stOK 0 (BitVec.ofNat 64 (8 * ws.length)) := by
  rw [deliverItem, if_pos h, if_pos h, ha]
  rfl

theorem deliverItem_of_room {p : BitVec 512} {ws : List W64} (m : Mem) (e : Eng) (c : Cmd)
    (h : 8 * ws.length ≤ pkf p 4 0 32) (ha : addrOk (pkw p 3) 8 (8 * ws.length) pkgBytes = true) :
    deliverItem m e c p ws = reply (writeParam m e (pkw p 3) ws) c stOK (BitVec.ofNat 64 (8 * ws.length))
      (BitVec.ofNat 64 (8 * ws.length)) := by
  rw [deliverItem, if_neg (Nat.not_lt.2 h), if_neg (Nat.not_lt.2 h), ha]
  rfl

/-- The entry of QUERY. -/
def query (m : Mem) (e : Eng) (c : Cmd) (p : BitVec 512) : Eng :=
  match queryDenied e (fnOf e c) (pkf p 1 0 8) (pkw p 2).toNat with
  | some e1 => reply0 e1 c stDenied
  | none =>
    match queryItem m e (fnOf e c) (pkf p 1 0 8) (pkw p 2).toNat (pkValley p) with
    | none => reply0 e c stOutOfRange
    | some ws => deliverItem m e c p ws

theorem exec_query (q : Fin 64) (s : State) : exec (.query q) s = .next (runCmd q.val 0x03 s (query s.mem)) := rfl

section
variable {m : Mem} {e : Eng} {c : Cmd} {p : BitVec 512} {ws : List W64}
  (hd : queryDenied e (fnOf e c) (pkf p 1 0 8) (pkw p 2).toNat = none)
include hd

theorem query_of_item (hi : queryItem m e (fnOf e c) (pkf p 1 0 8) (pkw p 2).toNat (pkValley p) = some ws) :
    query m e c p = deliverItem m e c p ws := by
  simp only [query, hd, hi]

theorem query_of_noItem (hi : queryItem m e (fnOf e c) (pkf p 1 0 8) (pkw p 2).toNat (pkValley p) = none) :
    query m e c p = reply e c stOutOfRange 0 0 := by
  simp only [query, hd, hi]
  rfl

end

/-- Settles O39: NEGOTIATE changes one entry of the versions in force; QUERY reads and delivers. -/
theorem negotiateAndQuery : Obligations.NegotiateAndQuery := by
  refine ⟨fun q s p => ⟨fun h ha => ?_, fun h ha => ?_, fun hp ho hv => ?_⟩, fun q s p h => ?_⟩
  · have hfn : fnOf (popHead s.eng q.val) (cmdOf q.val p) = (getQ s.eng q.val).owner := fnOf_popHead _ _ _
    obtain ⟨hmem, -, ho, hans⟩ := h.replies (f := negotiate) (steady_agreed _ _ _)
      (by rw [negotiate, hfn, popHead_negotiated, ha, if_neg Bool.false_ne_true, highestVersion_popHead])
    rw [exec_negotiate]
    have hneg : (runCmd q.val 0x01 s negotiate).eng.ctl.negotiated = (agreed (popHead s.eng q.val)
        (getQ s.eng q.val).owner (chooseVersion (highestVersion s.eng) (pkf p 1 0 4, pkf p 1 4 8))).ctl.negotiated := by
      rw [ho.1]
    refine ⟨_, rfl, hmem, ?_, fun f hf => ?_, hans, ?_, ?_⟩
    · rw [hneg]
      exact (Tab.find_set _ _ _ _).trans (if_pos rfl)
    · rw [hneg]
      exact ((Tab.find_set _ _ _ _).trans (if_neg hf)).trans (by rw [popHead_negotiated])
    · exact ho.valleys.trans (popHead_valleys _ _)
    · exact ho.regs.trans rfl
  · have hfn : fnOf (popHead s.eng q.val) (cmdOf q.val p) = (getQ s.eng q.val).owner := fnOf_popHead _ _ _
    rw [exec_negotiate]
    refine ⟨_, rfl, h.onlyReplies ?_⟩
    rw [negotiate, hfn, popHead_negotiated, ha, if_pos rfl]
    rfl
  · rw [exec_negotiate]
    exact ⟨_, rfl, runCmd_refused _ hp ho (preCheck_of_badOffer _ _ ho hv)⟩
  · have hfn : fnOf (popHead s.eng q.val) (cmdOf q.val p) = (getQ s.eng q.val).owner := fnOf_popHead _ _ _
    rw [exec_query, ← hfn]
    refine fun hd => ⟨fun ws hi hroom haddr => ⟨fun hh => ?_, fun hh => ?_⟩, fun ws hi hshort haddr => ?_, fun hi => ?_⟩
    · refine ⟨_, rfl, h.writesHost ?_⟩
      rw [query_of_item hd hi, deliverItem_of_room _ _ _ hroom haddr, writeParam_of_host _ _ _ hh]
    · rw [runCmd_of_taken h, query_of_item hd hi, deliverItem_of_room _ _ _ hroom haddr, writeParam, hh,
        if_neg Bool.false_ne_true]
    · refine ⟨_, rfl, h.onlyReplies ?_⟩
      rw [query_of_item hd hi, deliverItem_of_short _ _ _ hshort haddr]
    · exact ⟨_, rfl, h.onlyReplies (query_of_noItem hd hi)⟩

end Sys2Proof.Machine

/-!
CONFIGURE applies its list whole or not at all (R253, R257, R276, R305).
-/

namespace Sys2Proof.Machine

/-- Does the access table deny an entry of a list? -/
def listDenied (e : Eng) (fn : Byte) (es : List (Nat × W64)) : Bool := es.any fun x => configDenied e fn x.1

/-- The engine that a list leads to, whether it changes a locked field, and whether an entry is out of range. -/
def walked (e : Eng) (es : List (Nat × W64)) : Eng × Bool × Bool := walkConfig e es e false false

/-- Is a list out of range, or against a rule between fields? -/
def listBad (e : Eng) (es : List (Nat × W64)) : Bool :=
  (walked e es).2.2 || !remapsOk e (walked e es).1 || !configCross e (walked e es).1 es || !configLba (walked e es).1 es

section
variable {e : Eng} {c : Cmd} {es : List (Nat × W64)}

theorem configure_of_denied (h : listDenied e (fnOf e c) es = true) :
    configure e c es = reply (refuseAt e 0) c stDenied 0 0 := if_pos h

variable (hd : listDenied e (fnOf e c) es = false)
include hd

theorem configure_of_allowed :
    configure e c es =
      if !configNs (walked e es).1 es then reply0 (refuseAt e 3) c stDenied
      else if (walked e es).2.1 then reply0 e c stConfigLocked
      else if listBad e es then reply0 e c stOutOfRange
      else flushAll (reply (placeRemaps e (walked e es).1) c stOK (BitVec.ofNat 64 es.length) 0) :=
  if_neg (by rw [← Bool.not_eq_true] at hd; exact hd)

theorem configure_of_namespace (h : configNs (walked e es).1 es = false) :
    configure e c es = reply (refuseAt e 3) c stDenied 0 0 := by
  rw [configure_of_allowed hd, h]
  rfl

variable (hn : configNs (walked e es).1 es = true)
include hn

theorem configure_of_locked (h : (walked e es).2.1 = true) : configure e c es = reply e c stConfigLocked 0 0 := by
  rw [configure_of_allowed hd, hn, h]
  rfl

theorem configure_of_bad (hl : (walked e es).2.1 = false) (h : listBad e es = true) :
    configure e c es = reply e c stOutOfRange 0 0 := by
  rw [configure_of_allowed hd, hn, hl, h]
  rfl

theorem configure_of_good (hl : (walked e es).2.1 = false) (h : listBad e es = false) :
    configure e c es = flushAll (reply (placeRemaps e (walked e es).1) c stOK (BitVec.ofNat 64 es.length) 0) := by
  rw [configure_of_allowed hd, hn, hl, h]
  rfl

end

/-- The entry of CONFIGURE. -/
def configureList (m : Mem) (list : List W64) (e : Eng) (c : Cmd) (p : BitVec 512) : Eng :=
  if pkf p 2 0 9 = 0 ∨ 256 < pkf p 2 0 9 ∨ !addrOk (pkw p 1) 16 (16 * pkf p 2 0 9) pkgBytes then reply0 e c stOutOfRange
  else configure e c (configEntries (paramWords m e (pkw p 1) (2 * pkf p 2 0 9) list) (pkf p 2 0 9))

theorem exec_configure (q : Fin 64) (list : List W64) (s : State) :
    exec (.configure q list) s = .next (runCmd q.val 0x02 s (configureList s.mem list)) := rfl

theorem steady_refuseAt (e : Eng) (t : Nat) : Steady e (refuseAt e t) := .of_same rfl rfl rfl

/-- A refusal by an access table is counted, and nothing else changes but answers. -/
theorem Replies.refused {s t : State} {q : Nat} {p : BitVec 512} {i : Nat}
    (h : Replies s t q p (refuseAt (popHead s.eng q) i) stDenied 0 0) :
    t.mem = s.mem ∧ t.eng.regs = (readHead s.eng q).regs ∧ t.eng.valleys = s.eng.valleys ∧
      Tab.get 0 t.eng.cnt.refuse i = satInc (Tab.get 0 s.eng.cnt.refuse i) ∧
      Answered s.eng t.eng (cmdOf q p) stDenied 0 0 := by
  obtain ⟨hm, -, ho, ha⟩ := h
  have hcnt : t.eng.cnt.refuse = (refuseAt (popHead s.eng q) i).cnt.refuse := by rw [ho.1]
  have hpop : (popHead s.eng q).cnt.refuse = s.eng.cnt.refuse := by
    show (readHead s.eng q).cnt.refuse = _
    rw [(onlyCorrects_readHead s.eng q).1]
  refine ⟨hm, ho.regs.trans rfl, ho.valleys.trans (popHead_valleys _ _), ?_, ha⟩
  rw [hcnt, ← hpop]
  exact Tab.get_set_same _ _ _ _

/-- Settles O40: the refusals in their order, and the whole list behind them. -/
theorem configureAllOrNothing : Obligations.ConfigureAllOrNothing := by
  intro q list s p h
  have hfn : fnOf (popHead s.eng q.val) (cmdOf q.val p) = (getQ s.eng q.val).owner := fnOf_popHead _ _ _
  rw [exec_configure, ← hfn]
  have hlist (hn : pkf p 2 0 9 ≠ 0) (hmax : pkf p 2 0 9 ≤ 256)
      (ha : addrOk (pkw p 1) 16 (16 * pkf p 2 0 9) pkgBytes = true) :
      configureList s.mem list (popHead s.eng q.val) (cmdOf q.val p) p = configure (popHead s.eng q.val) (cmdOf q.val p)
        (configEntries (paramWords s.mem (popHead s.eng q.val) (pkw p 1) (2 * pkf p 2 0 9) list) (pkf p 2 0 9)) :=
    if_neg (by rw [ha]; exact fun hc => hc.elim hn fun hc => hc.elim (Nat.not_lt.2 hmax) Bool.false_ne_true)
  refine ⟨fun hbad => ⟨_, rfl, h.onlyReplies ?_⟩, fun hn hmax ha => ?_⟩
  · exact if_pos (hbad.imp_right (Or.imp_right fun hc => by rw [hc]; rfl))
  · have hlist := hlist hn hmax ha
    generalize configEntries (paramWords s.mem (popHead s.eng q.val) (pkw p 1) (2 * pkf p 2 0 9) list) (pkf p 2 0 9) = es
      at hlist
    refine ⟨fun hd hns hl hb => ?_, fun hd => ?_, fun hd hns => ?_, fun hd hns hl => ?_, fun hd hns hl hb => ?_⟩
    · rw [runCmd_of_taken h, hlist, configure_of_good hd hns hl hb]
      rfl
    · exact ⟨_, rfl, (h.replies (steady_refuseAt _ _) (hlist.trans (configure_of_denied hd))).refused⟩
    · exact ⟨_, rfl, (h.replies (steady_refuseAt _ _) (hlist.trans (configure_of_namespace hd hns))).refused⟩
    · exact ⟨_, rfl, h.onlyReplies (hlist.trans (configure_of_locked hd hns hl))⟩
    · exact ⟨_, rfl, h.onlyReplies (hlist.trans (configure_of_bad hd hns hl hb))⟩

end Sys2Proof.Machine

/-!
REBUILD_PLAN (R129, R130).
-/

namespace Sys2Proof.Machine

/-- May REBUILD_PLAN keep a plan for the lost members of a packet? -/
def planFits (e : Eng) (v : Nat) (p : BitVec 512) : Bool :=
  isJoined (getV e v) && decide (1 ≤ pkf p 1 32 3 ∧ pkf p 1 32 3 ≤ 4) &&
    (planLost p).all (fun j => decide (j < (getV e v).n)) && (!unfinished e v || (planLost p).contains (getV e v).self)

/-- A Valley that keeps a plan under a number. -/
def withPlan (i : Nat) (lost : List Nat) (x : Valley) : Valley :=
  { x with
      plans := (x.plans.filter fun p => decide (p.num ≠ i)) ++ [{ num := i, lost := lost, age := x.planAge }]
      planAge := x.planAge + 1 }

theorem find_withPlan_same (i : Nat) (lost : List Nat) (x : Valley) :
    (withPlan i lost x).plans.find? (fun a => decide (a.num = i)) = some { num := i, lost := lost, age := x.planAge } := by
  have hnone : (x.plans.filter fun p => decide (p.num ≠ i)).find? (fun a => decide (a.num = i)) = none := by
    simp
  simp only [withPlan, List.find?_append, hnone, Option.none_or]
  simp

theorem find_withPlan_ne {i j : Nat} (h : j ≠ i) (lost : List Nat) (x : Valley) :
    (withPlan i lost x).plans.find? (fun a => decide (a.num = j)) = x.plans.find? (fun a => decide (a.num = j)) := by
  have hfilter : (x.plans.filter fun p => decide (p.num ≠ i)).find? (fun a => decide (a.num = j)) =
      x.plans.find? fun a => decide (a.num = j) := by
    rw [List.find?_filter]
    congr 1
    funext a
    by_cases ha : a.num = j <;> simp [ha, h]
  simp only [withPlan, List.find?_append, hfilter]
  rw [List.find?_cons_of_neg (by simpa using Ne.symm h)]
  simp

/-- The entry of REBUILD_PLAN. -/
def rebuildPlan (e : Eng) (c : Cmd) (p : BitVec 512) : Eng :=
  if !isJoined (getV e (pkValley p)) || decide (pkf p 1 32 3 = 0 ∨ 4 < pkf p 1 32 3) ||
      !(planLost p).all (fun i => decide (i < (getV e (pkValley p)).n)) ||
      (unfinished e (pkValley p) && !(planLost p).contains (getV e (pkValley p)).self) then reply0 e c stOutOfRange
  else match planSlot (getV e (pkValley p)) with
    | none => reply0 e c stOutOfRange
    | some i =>
      if tooFew (getV e (pkValley p)) (planLost p) then reply0 e c stTooFew
      else reply (updV e (pkValley p) (withPlan i (planLost p))) c stOK (BitVec.ofNat 64 i)
        (BitVec.ofNat 64 (allTargets e (pkValley p)))

theorem exec_rebuildPlan (q : Fin 64) (s : State) : exec (.rebuildPlan q) s = .next (runCmd q.val 0x31 s rebuildPlan) := rfl

section
variable {e : Eng} {c : Cmd} {p : BitVec 512} {i : Nat}

/-- The rules that stand before the choice of a number, as the model writes them. -/
theorem planFits_iff (e : Eng) (v : Nat) (p : BitVec 512) :
    (!isJoined (getV e v) || decide (pkf p 1 32 3 = 0 ∨ 4 < pkf p 1 32 3) ||
      !(planLost p).all (fun i => decide (i < (getV e v).n)) ||
      (unfinished e v && !(planLost p).contains (getV e v).self)) = !planFits e v p := by
  have hn : decide (pkf p 1 32 3 = 0 ∨ 4 < pkf p 1 32 3) = !decide (1 ≤ pkf p 1 32 3 ∧ pkf p 1 32 3 ≤ 4) := by
    rw [← decide_not]
    exact decide_eq_decide.2 (by omega)
  rw [hn, planFits]
  simp only [Bool.not_and, Bool.not_or, Bool.not_not]

theorem rebuildPlan_of_unfit (h : planFits e (pkValley p) p = false ∨ planSlot (getV e (pkValley p)) = none) :
    rebuildPlan e c p = reply e c stOutOfRange 0 0 := by
  rw [rebuildPlan, planFits_iff]
  cases hf : planFits e (pkValley p) p with
  | false => rfl
  | true =>
    have hslot := h.resolve_left (by rw [hf]; exact Bool.noConfusion)
    simp only [hslot]
    rfl

theorem rebuildPlan_of_fit (h : planFits e (pkValley p) p = true) (hs : planSlot (getV e (pkValley p)) = some i) :
    rebuildPlan e c p =
      if tooFew (getV e (pkValley p)) (planLost p) then reply0 e c stTooFew
      else reply (updV e (pkValley p) (withPlan i (planLost p))) c stOK (BitVec.ofNat 64 i)
        (BitVec.ofNat 64 (allTargets e (pkValley p))) := by
  rw [rebuildPlan, planFits_iff, h]
  simp only [hs]
  rfl

end

/-- Settles O48: the plan takes its number among those that are kept, and no other field of its Valley changes. -/
theorem rebuildPlanIsKept : Obligations.RebuildPlanIsKept := by
  intro q s p i h v x n fit
  have hget (w : Nat) := popHead_getV s.eng q.val w
  have hreach := reachList_congr (popHead_regions s.eng q.val)
  have hfit : planFits (popHead s.eng q.val) v p = fit := by
    simp only [planFits, unfinished, hget, hreach]
    rfl
  have hall : allTargets (popHead s.eng q.val) v = allTargets s.eng v := by
    simp only [allTargets, targetsBefore, hget, hreach]
  rw [exec_rebuildPlan]
  refine ⟨fun hf hs ht => ?_, fun hf hs ht => ⟨_, rfl, h.onlyReplies ?_⟩, fun hu => ⟨_, rfl, h.onlyReplies ?_⟩⟩
  · have hrun := rebuildPlan_of_fit (c := cmdOf q.val p) (hfit.trans hf) (i := i) (by rw [hget]; exact hs)
    rw [hget, if_neg (by rw [← Bool.not_eq_true] at ht; exact ht), hall] at hrun
    obtain ⟨hm, -, ho, ha⟩ := h.replies (steady_updV _ _ _) hrun
    have hv : getV (runCmd q.val 0x31 s rebuildPlan).eng v = withPlan i (planLost p) x := by
      rw [ho.getV, getV_updV_same, hget]
    refine ⟨_, rfl, hm, ha, ?_⟩
    rw [hv]
    refine ⟨find_withPlan_same _ _ _, fun j hj => find_withPlan_ne hj _ _, rfl, rfl, fun w hw => ?_, ?_, ?_, ?_⟩
    · rw [ho.getV, getV_updV_ne _ _ hw, hget]
    · exact ho.regions.trans (popHead_regions _ _)
    · exact ho.basin.trans rfl
    · exact ho.lanes.trans (popHead_lanes _ _)
  · rw [rebuildPlan_of_fit (hfit.trans hf) (by rw [hget]; exact hs), hget]
    exact if_pos ht
  · exact rebuildPlan_of_unfit (hu.imp hfit.trans fun hs => by rw [hget]; exact hs)

end Sys2Proof.Machine

/-!
What a step of a Valley leaves alone: the engine and the Valley as two views show them, and every other Valley.
-/

namespace Sys2Proof.Machine

/-- The view `ρ` shows the same engine and the view `π` the same Valley `v`; the other Valleys are the same. -/
structure Alike (ρ : Eng → Eng) (π : Valley → Valley) (v : Nat) (e f : Eng) : Prop where
  eng : ρ f = ρ e
  others : ∀ w, w ≠ v → getV f w = getV e w
  here : π (getV f v) = π (getV e v)

section
variable {ρ : Eng → Eng} {π : Valley → Valley} {v : Nat} {e f g : Eng}

theorem Alike.refl (ρ : Eng → Eng) (π : Valley → Valley) (v : Nat) (e : Eng) : Alike ρ π v e e := ⟨rfl, fun _ _ => rfl, rfl⟩

theorem Alike.trans (h : Alike ρ π v e f) (k : Alike ρ π v f g) : Alike ρ π v e g :=
  ⟨k.eng.trans h.eng, fun w hw => (k.others w hw).trans (h.others w hw), k.here.trans h.here⟩

/-- A view that shows less shows the same. -/
theorem Alike.weaken (h : Alike ρ π v e f) {ρ' : Eng → Eng} {π' : Valley → Valley} (hρ : ∀ a b, ρ a = ρ b → ρ' a = ρ' b)
    (hπ : ∀ x y, π x = π y → π' x = π' y) : Alike ρ' π' v e f :=
  ⟨hρ _ _ h.eng, h.others, hπ _ _ h.here⟩

/-- A step on the Valley itself. -/
theorem Alike.updV {k : Valley → Valley} (he : ρ (updV e v k) = ρ e) (hk : π (k (getV e v)) = π (getV e v)) :
    Alike ρ π v e (updV e v k) :=
  ⟨he, fun _ hw => getV_updV_ne _ _ hw, (congrArg π (getV_updV_same _ _ _)).trans hk⟩

/-- A step that leaves the table of the Valleys. -/
theorem Alike.of_valleys (he : ρ f = ρ e) (hv : f.valleys = e.valleys) : Alike ρ π v e f :=
  ⟨he, fun w _ => getV_congr hv w, congrArg π (getV_congr hv v)⟩

theorem Alike.foldl {α : Type} {step : Eng → α → Eng} (h : ∀ e x, Alike ρ π v e (step e x)) (xs : List α) (e : Eng) :
    Alike ρ π v e (xs.foldl step e) := by
  induction xs generalizing e with
  | nil => exact .refl _ _ _ _
  | cons x r ih => exact (h e x).trans (ih _)

end

/-! ## Reaches of a Valley (R41) -/

theorem getReach_setReach_same (x : Valley) (rho : Nat) (r : SReach) : getReach (setReach x rho r) rho = r :=
  Tab.get_set_same _ _ _ _

theorem getReach_setReach_ne {j rho : Nat} (h : j ≠ rho) (x : Valley) (r : SReach) :
    getReach (setReach x rho r) j = getReach x j := Tab.get_set_ne _ _ _ _ _ h

theorem getReach_congr {x y : Valley} (h : y.reaches = x.reaches) (j : Nat) : getReach y j = getReach x j := by
  rw [getReach, getReach, h]

theorem getReach_updReach_same (e : Eng) (v rho : Nat) (f : SReach → SReach) :
    getReach (getV (updReach e v rho f) v) rho = f (getReach (getV e v) rho) := by
  rw [updReach, getV_updV_same, getReach_setReach_same]

theorem getReach_updReach_ne {j rho : Nat} (h : j ≠ rho) (e : Eng) (v : Nat) (f : SReach → SReach) :
    getReach (getV (updReach e v rho f) v) j = getReach (getV e v) j := by
  rw [updReach, getV_updV_same, getReach_setReach_ne h]

theorem regionReaches_num (d : Nat) (r : Region) (n : Nat) :
    (regionReaches d r n).map (·.num) = (List.range (regionReaches d r n).length).map (n + ·) := by
  simp [regionReaches, Function.comp_def]

/-- The Reaches are numbered in their order. -/
theorem reachList_num (e : Eng) (v : Nat) : (reachList e v).map (·.num) = List.range (reachList e v).length := by
  have hfold : ∀ (rs : List (Nat × Region)) (acc : List ReachInfo), acc.map (·.num) = List.range acc.length →
      (rs.foldl (fun acc (d, r) => acc ++ regionReaches d r acc.length) acc).map (·.num) =
        List.range (rs.foldl (fun acc (d, r) => acc ++ regionReaches d r acc.length) acc).length := by
    intro rs
    induction rs with
    | nil => exact fun _ h => h
    | cons x rs ih =>
      refine fun acc h => ih _ ?_
      rw [List.map_append, h, regionReaches_num, List.length_append, List.range_add]
  exact hfold _ [] rfl

theorem reachList_nodup (e : Eng) (v : Nat) : ((reachList e v).map (·.num)).Nodup := by
  rw [reachList_num]
  exact List.nodup_range

/-- Two Reaches of a Valley with one number are one Reach. -/
theorem reachList_inj {e : Eng} {v : Nat} {a b : ReachInfo} (ha : a ∈ reachList e v) (hb : b ∈ reachList e v)
    (h : a.num = b.num) : a = b := eq_of_map_nodup (reachList_nodup e v) ha hb h

/-- A landing Reach is none of the others. -/
theorem not_mem_landingReaches {e : Eng} {v r : Nat} (h : r ∈ otherReaches e v) : r ∉ landingReaches e v := by
  simp only [otherReaches, landingReaches, List.mem_map, List.mem_filter, decide_eq_true_eq] at h ⊢
  rintro ⟨b, ⟨hb, hc⟩, hn⟩
  obtain ⟨a, ⟨ha, hca⟩, rfl⟩ := h
  exact hca (reachList_inj hb ha hn ▸ hc)

theorem landingReaches_congr {e f : Eng} (h : f.regions = e.regions) (v : Nat) : landingReaches f v = landingReaches e v := by
  rw [landingReaches, landingReaches, reachList_congr h]

theorem otherReaches_congr {e f : Eng} (h : f.regions = e.regions) (v : Nat) : otherReaches f v = otherReaches e v := by
  rw [otherReaches, otherReaches, reachList_congr h]

end Sys2Proof.Machine

/-!
Sealing a Reach, REACH_SEAL and HELD_SEAL_RELEASE (R85, R198).
-/

namespace Sys2Proof.Machine

/-! ## What sealing leaves -/

/-- An engine without what sealing a Reach changes: the Valleys, the Basin and the lanes' staging. -/
def sealView (e : Eng) : Eng := { e with valleys := [], basin := {}, lanes := [] }

/-- A Valley without its outbound rings. -/
def ringless (x : Valley) : Valley := { x with outs := [] }

/-- A Valley without its outbound rings and its Reaches. -/
def reachless (x : Valley) : Valley := { x with outs := [], reaches := [] }

theorem reachless_of_ringless {x y : Valley} (h : ringless x = ringless y) : reachless x = reachless y :=
  congrArg (fun z : Valley => { z with reaches := [] }) h

section
variable {e f : Eng} {v : Nat}

theorem Alike.io (h : Alike sealView reachless v e f) : f.io = e.io := (congrArg Eng.io h.eng :)
theorem Alike.spill (h : Alike sealView reachless v e f) : f.spill = e.spill := (congrArg Eng.spill h.eng :)
theorem Alike.regions (h : Alike sealView reachless v e f) : f.regions = e.regions := (congrArg Eng.regions h.eng :)
theorem Alike.ctl (h : Alike sealView reachless v e f) : f.ctl = e.ctl := (congrArg Eng.ctl h.eng :)
theorem Alike.side (h : Alike sealView reachless v e f) : f.side = e.side := (congrArg Eng.side h.eng :)

theorem Alike.reaches (h : Alike sealView ringless v e f) : (getV f v).reaches = (getV e v).reaches :=
  (congrArg Valley.reaches h.here :)

theorem Alike.reachless (h : Alike sealView ringless v e f) : Alike sealView reachless v e f :=
  h.weaken (fun _ _ h => h) fun _ _ h => reachless_of_ringless h

end

theorem alike_updOut (e : Eng) (v d : Nat) (k : OutStream → OutStream) : Alike sealView ringless v e (updOut e v d k) :=
  .updV rfl rfl

theorem alike_growDescs (e : Eng) (v d : Nat) : Alike sealView ringless v e (growDescs e v d) := by
  unfold growDescs
  dsimp only
  split
  · exact .refl _ _ _ _
  · split
    · next g e1 ha =>
      obtain rfl := allocPage_eq ha
      exact Alike.trans (f := ownPages e [g] (.outRing v d)) (.of_valleys rfl rfl) (alike_updOut _ _ _ _)
    · exact .refl _ _ _ _

theorem alike_appendOut (e : Eng) (v d : Nat) (t : OutEntry) : Alike sealView ringless v e (appendOut e v d t) :=
  (alike_updOut e v d _).trans (alike_growDescs _ v d)

theorem alike_closePartials (e : Eng) (v : Nat) : Alike sealView ringless v e (closePartials e) := .of_valleys rfl rfl

/-- A Reach once it is sealed. -/
def sealedReach (r : SReach) : SReach := { r with st := .sealed, held := false }

/-- The seal entries of a Reach that has just been sealed: one on each outbound stream to a live holder (R79). -/
def queueSeals (e : Eng) (v rho : Nat) (x : Valley) (r : SReach) : Eng :=
  (distances x).foldl (init := closePartials e) fun e d =>
    if !isLive x (outPeer x d) then e
    else appendOut e v d (.sealed rho (BitVec.ofNat 32 (if r.unbuilt then 0 else Tab.get 0 r.issued d))
      (if r.unbuilt then r.comm else r.pend) x.step)

theorem alike_queueSeals (e : Eng) (v rho : Nat) (x : Valley) (r : SReach) :
    Alike sealView ringless v e (queueSeals e v rho x r) :=
  (alike_closePartials e v).trans (Alike.foldl (fun e d => by
    split
    · exact .refl _ _ _ _
    · exact alike_appendOut _ _ _ _) _ _)

theorem sealNow_of_sealed {e : Eng} {v rho : Nat} (h : unsealed (getReach (getV e v) rho) = false) : sealNow e v rho = e := by
  simp [sealNow, h]

theorem sealNow_of_unsealed {e : Eng} {v rho : Nat} (h : unsealed (getReach (getV e v) rho) = true) :
    sealNow e v rho = if (getV e v).parity then updReach e v rho sealedReach
      else queueSeals (updReach e v rho sealedReach) v rho (getV e v) (getReach (getV e v) rho) := by
  simp only [sealNow, h, Bool.not_true, Bool.false_eq_true, if_false]
  rfl

/-- A Reach after it was to be sealed. -/
def afterSeal (r : SReach) : SReach := if unsealed r then sealedReach r else r

theorem afterSeal_idem (r : SReach) : afterSeal (afterSeal r) = afterSeal r := by
  unfold afterSeal
  cases h : unsealed r with
  | false => rw [if_neg Bool.false_ne_true, h, if_neg Bool.false_ne_true]
  | true => rw [if_pos rfl]; exact if_neg Bool.false_ne_true

theorem unsealed_afterSeal (r : SReach) : unsealed (afterSeal r) = false := by
  unfold afterSeal
  cases h : unsealed r with
  | false => rw [if_neg Bool.false_ne_true, h]
  | true => rw [if_pos rfl]; rfl

/-- Sealing folds no Reach. -/
theorem folded_afterSeal (r : SReach) : (afterSeal r).st = .folded ↔ r.st = .folded := by
  unfold afterSeal
  split
  · next h =>
    refine ⟨fun hc => ?_, fun hc => ?_⟩
    · cases hc
    · rw [unsealed, hc] at h
      cases h
  · exact Iff.rfl

theorem alike_sealNow (e : Eng) (v rho : Nat) : Alike sealView reachless v e (sealNow e v rho) := by
  cases h : unsealed (getReach (getV e v) rho) with
  | false => rw [sealNow_of_sealed h]; exact .refl _ _ _ _
  | true =>
    have hu : Alike sealView Machine.reachless v e (updReach e v rho sealedReach) := .updV rfl rfl
    rw [sealNow_of_unsealed h]
    split
    · exact hu
    · exact hu.trans (alike_queueSeals _ _ _ _ _).reachless

theorem getReach_sealNow_same (e : Eng) (v rho : Nat) :
    getReach (getV (sealNow e v rho) v) rho = afterSeal (getReach (getV e v) rho) := by
  unfold afterSeal
  cases h : unsealed (getReach (getV e v) rho) with
  | false => rw [sealNow_of_sealed h, if_neg Bool.false_ne_true]
  | true =>
    rw [sealNow_of_unsealed h, if_pos rfl]
    split
    · exact getReach_updReach_same _ _ _ _
    · exact (getReach_congr (alike_queueSeals _ _ _ _ _).reaches _).trans (getReach_updReach_same _ _ _ _)

theorem getReach_sealNow_ne {j rho : Nat} (hj : j ≠ rho) (e : Eng) (v : Nat) :
    getReach (getV (sealNow e v rho) v) j = getReach (getV e v) j := by
  cases h : unsealed (getReach (getV e v) rho) with
  | false => rw [sealNow_of_sealed h]
  | true =>
    rw [sealNow_of_unsealed h]
    split
    · exact getReach_updReach_ne hj _ _ _
    · exact (getReach_congr (alike_queueSeals _ _ _ _ _).reaches _).trans (getReach_updReach_ne hj _ _ _)

/-- Several Reaches are sealed one after another. -/
def sealList (e : Eng) (v : Nat) (rs : List Nat) : Eng := rs.foldl (fun e r => sealNow e v r) e

theorem alike_sealList (e : Eng) (v : Nat) (rs : List Nat) : Alike sealView reachless v e (sealList e v rs) :=
  .foldl (fun _ _ => alike_sealNow _ _ _) _ _

theorem getReach_sealList (v j : Nat) (rs : List Nat) (e : Eng) :
    getReach (getV (sealList e v rs) v) j =
      if j ∈ rs then afterSeal (getReach (getV e v) j) else getReach (getV e v) j := by
  induction rs generalizing e with
  | nil => rfl
  | cons r rs ih =>
    show getReach (getV (sealList (sealNow e v r) v rs) v) j = _
    rw [ih]
    by_cases h : j = r
    · subst h
      rw [getReach_sealNow_same, afterSeal_idem, ite_self, if_pos (List.mem_cons_self ..)]
    · rw [getReach_sealNow_ne h]
      simp only [List.mem_cons, h, false_or]

theorem sealAll_eq (e : Eng) (v : Nat) : sealAll e v = sealList e v ((reachList e v).map (·.num)) :=
  (List.foldl_map ..).symm

/-! ## Seals that R198 holds -/

/-- Whether a seal is held depends on which Reaches are folded, of all that sealing changes. -/
theorem sealHeld_congr {x y : Valley} (h : reachless y = reachless x)
    (hf : ∀ j, (getReach y j).st = .folded ↔ (getReach x j).st = .folded) (rho : Nat) : sealHeld y rho = sealHeld x rho := by
  have he : y.expo = x.expo := (congrArg Valley.expo h :)
  have hep : y.epoch = x.epoch := (congrArg Valley.epoch h :)
  have hm : y.crossMode = x.crossMode := (congrArg Valley.crossMode h :)
  simp only [sealHeld, he, hep, hm, ne_eq, hf]

/-- A Reach after it was to be sealed by REACH_SEAL or auto-seal. -/
def afterHold (held : Bool) (r : SReach) : SReach :=
  if unsealed r && held then { r with held := true } else afterSeal r

theorem afterHold_idem (held : Bool) (r : SReach) : afterHold held (afterHold held r) = afterHold held r := by
  cases held with
  | false => simp only [afterHold, Bool.and_false, Bool.false_eq_true, if_false, afterSeal_idem]
  | true =>
    cases h : unsealed r with
    | false =>
      have hs : afterSeal r = r := if_neg (by rw [h]; exact Bool.false_ne_true)
      simp only [afterHold, h, Bool.false_and, Bool.false_eq_true, if_false, hs]
    | true =>
      have hu : unsealed { r with held := true } = true := h
      simp only [afterHold, h, Bool.and_true, if_true, hu]

theorem folded_afterHold (held : Bool) (r : SReach) : (afterHold held r).st = .folded ↔ r.st = .folded := by
  unfold afterHold
  split
  · exact Iff.rfl
  · exact folded_afterSeal r

theorem sealReach_eq (e : Eng) (v rho : Nat) :
    sealReach e v rho =
      if unsealed (getReach (getV e v) rho) && sealHeld (getV e v) rho then updReach e v rho fun r => { r with held := true }
      else sealNow e v rho := rfl

theorem alike_sealReach (e : Eng) (v rho : Nat) : Alike sealView reachless v e (sealReach e v rho) := by
  rw [sealReach_eq]
  split
  · exact .updV rfl rfl
  · exact alike_sealNow _ _ _

theorem getReach_sealReach (e : Eng) (v rho j : Nat) :
    getReach (getV (sealReach e v rho) v) j =
      if j = rho then afterHold (sealHeld (getV e v) rho) (getReach (getV e v) rho) else getReach (getV e v) j := by
  rw [sealReach_eq]
  split
  · next h =>
    by_cases hj : j = rho
    · subst hj
      rw [getReach_updReach_same, if_pos rfl, afterHold, if_pos h]
    · rw [getReach_updReach_ne hj, if_neg hj]
  · next h =>
    by_cases hj : j = rho
    · subst hj
      rw [getReach_sealNow_same, if_pos rfl, afterHold, if_neg h]
    · rw [getReach_sealNow_ne hj, if_neg hj]

theorem folded_sealReach (e : Eng) (v rho j : Nat) :
    (getReach (getV (sealReach e v rho) v) j).st = .folded ↔ (getReach (getV e v) j).st = .folded := by
  rw [getReach_sealReach]
  split
  · next h => subst h; exact folded_afterHold _ _
  · exact Iff.rfl

/-- Several Reaches are to be sealed one after another. -/
def sealReaches (e : Eng) (v : Nat) (rs : List Nat) : Eng := rs.foldl (fun e r => sealReach e v r) e

theorem alike_sealReaches (e : Eng) (v : Nat) (rs : List Nat) : Alike sealView reachless v e (sealReaches e v rs) :=
  .foldl (fun _ _ => alike_sealReach _ _ _) _ _

theorem getReach_sealReaches (v j : Nat) (rs : List Nat) (e : Eng) :
    getReach (getV (sealReaches e v rs) v) j =
      if j ∈ rs then afterHold (sealHeld (getV e v) j) (getReach (getV e v) j) else getReach (getV e v) j := by
  induction rs generalizing e with
  | nil => rfl
  | cons r rs ih =>
    show getReach (getV (sealReaches (sealReach e v r) v rs) v) j = _
    rw [ih, sealHeld_congr (alike_sealReach e v r).here (folded_sealReach e v r), getReach_sealReach]
    by_cases h : j = r
    · subst h
      rw [if_pos rfl, afterHold_idem, ite_self, if_pos (List.mem_cons_self ..)]
    · simp only [List.mem_cons, h, false_or, if_false]

/-! ## Held seals that are released -/

/-- One Reach's held seal is made when its condition is met. -/
def releaseSeal (v : Nat) (e : Eng) (r : ReachInfo) : Eng :=
  if (getReach (getV e v) r.num).held && !sealHeld (getV e v) r.num then sealNow e v r.num else e

theorem releaseSeals_eq (e : Eng) (v : Nat) : releaseSeals e v = (reachList e v).foldl (releaseSeal v) e := rfl

/-- A Reach after its held seal was to be released. -/
def afterRelease (held : Bool) (r : SReach) : SReach := if r.held && !held then afterSeal r else r

theorem afterRelease_idem (held : Bool) (r : SReach) : afterRelease held (afterRelease held r) = afterRelease held r := by
  unfold afterRelease
  by_cases h : (r.held && !held) = true
  · rw [if_pos h, afterSeal_idem, ite_self]
  · rw [if_neg h, if_neg h]

theorem folded_afterRelease (held : Bool) (r : SReach) : (afterRelease held r).st = .folded ↔ r.st = .folded := by
  unfold afterRelease
  split
  · exact folded_afterSeal r
  · exact Iff.rfl

theorem alike_releaseSeal (v : Nat) (e : Eng) (r : ReachInfo) : Alike sealView reachless v e (releaseSeal v e r) := by
  unfold releaseSeal
  split
  · exact alike_sealNow _ _ _
  · exact .refl _ _ _ _

theorem getReach_releaseSeal (v j : Nat) (e : Eng) (r : ReachInfo) :
    getReach (getV (releaseSeal v e r) v) j =
      if j = r.num then afterRelease (sealHeld (getV e v) r.num) (getReach (getV e v) r.num) else getReach (getV e v) j := by
  unfold releaseSeal afterRelease
  by_cases hj : j = r.num
  · subst hj
    rw [if_pos rfl]
    split
    · exact getReach_sealNow_same _ _ _
    · rfl
  · rw [if_neg hj]
    split
    · exact getReach_sealNow_ne hj _ _
    · rfl

theorem folded_releaseSeal (v : Nat) (e : Eng) (r : ReachInfo) (j : Nat) :
    (getReach (getV (releaseSeal v e r) v) j).st = .folded ↔ (getReach (getV e v) j).st = .folded := by
  rw [getReach_releaseSeal]
  split
  · next h => subst h; exact folded_afterRelease _ _
  · exact Iff.rfl

theorem getReach_releaseAll (v j : Nat) (rs : List ReachInfo) (e : Eng) :
    getReach (getV (rs.foldl (releaseSeal v) e) v) j =
      if j ∈ rs.map (·.num) then afterRelease (sealHeld (getV e v) j) (getReach (getV e v) j) else getReach (getV e v) j := by
  induction rs generalizing e with
  | nil => rfl
  | cons r rs ih =>
    rw [List.foldl_cons, ih, sealHeld_congr (alike_releaseSeal v e r).here (folded_releaseSeal v e r), getReach_releaseSeal]
    by_cases h : j = r.num
    · subst h
      rw [if_pos rfl, afterRelease_idem, ite_self, List.map_cons, if_pos (List.mem_cons_self ..)]
    · simp only [List.map_cons, List.mem_cons, h, false_or, if_false]

/-! ## The commands -/

/-- The Reaches that a REACH_SEAL of a packet's range names. -/
def sealRange (e : Eng) (p : BitVec 512) : List Nat :=
  (otherReaches e (pkValley p)).filter fun r => decide (pkf p 1 0 32 ≤ r ∧ r < pkf p 1 0 32 + pkf p 2 0 32)

/-- The entry of REACH_SEAL. -/
def reachSeal (m : Mem) (e : Eng) (c : Cmd) (p : BitVec 512) : Eng :=
  if !isJoined (getV e (pkValley p)) || decide ((getV e (pkValley p)).phase ≠ .opened) || decide (pkf p 2 0 32 = 0) ||
      decide ((reachList e (pkValley p)).length < pkf p 1 0 32 + pkf p 2 0 32) then reply0 e c stOutOfRange
  else settleV m (reply0 (sealReaches e (pkValley p) (sealRange e p)) c stOK) (pkValley p)

theorem exec_reachSeal (q : Fin 64) (s : State) : exec (.reachSeal q) s = .next (runCmd q.val 0x22 s (reachSeal s.mem)) := rfl

/-- Settles O30: each Reach of the range is sealed or held on its own, and so is each held seal released. -/
theorem sealsAreMade : Obligations.SealsAreMade := by
  refine ⟨fun q s p h => ⟨fun hj hp hn hlen => ?_, fun hu => ?_⟩, fun v s hon => ⟨?_, fun r hr => ?_, ?_⟩⟩
  · have hreg := popHead_regions s.eng q.val
    have hget (w : Nat) := popHead_getV s.eng q.val w
    have halike := alike_sealReaches (popHead s.eng q.val) (pkValley p) (sealRange (popHead s.eng q.val) p)
    have hrange (r : Nat) : r ∈ sealRange (popHead s.eng q.val) p ↔
        r ∈ otherReaches s.eng (pkValley p) ∧ pkf p 1 0 32 ≤ r ∧ r < pkf p 1 0 32 + pkf p 2 0 32 := by
      simp only [sealRange, otherReaches_congr hreg, List.mem_filter, decide_eq_true_eq]
    refine ⟨sealReaches (popHead s.eng q.val) (pkValley p) (sealRange (popHead s.eng q.val) p), ?_, fun r hr hun => ⟨?_, ?_⟩,
      ?_, halike.io, ?_, halike.regions.trans hreg⟩
    · rw [exec_reachSeal, runCmd_of_taken h]
      simp only [reachSeal, hget, hj, hp, reachList_congr hreg, hn, Nat.not_lt.2 hlen, ne_eq, not_true_eq_false, decide_false,
        Bool.not_true, Bool.or_false, Bool.false_eq_true, if_false]
    · intro hlo hhi
      rw [getReach_sealReaches, if_pos ((hrange r).2 ⟨hr, hlo, hhi⟩), hget]
      refine ⟨fun hs => ?_, fun hs => ?_⟩
      · rw [hs, afterHold, Bool.and_false, if_neg Bool.false_ne_true, afterSeal, if_pos hun]
        rfl
      · rw [hs, afterHold, hun, Bool.and_true, if_pos rfl]
        exact ⟨rfl, rfl⟩
    · intro hout
      rw [getReach_sealReaches, if_neg (fun hm => by obtain ⟨-, hlo, hhi⟩ := (hrange r).1 hm; omega), hget]
    · exact (congrArg Valley.phase halike.here :).trans (by rw [hget]; exact hp)
    · exact halike.spill.trans (popHead_spill _ _)
  · rw [exec_reachSeal]
    refine ⟨_, rfl, h.onlyReplies (if_pos ?_)⟩
    rw [popHead_getV, reachList_congr (popHead_regions _ _)]
    rcases hu with hu | hu | hu <;> simp [hu]
  · show execHeldSealRelease v s = _
    rw [execHeldSealRelease, if_pos hon]
  · have hm : r.num ∈ (reachList s.eng v.val).map (·.num) := List.mem_map_of_mem hr
    rw [releaseSeals_eq, getReach_releaseAll, if_pos hm]
    refine ⟨fun hh hs hun => ?_, fun hh hs => ?_⟩
    · rw [hs, afterRelease, hh, Bool.not_false, Bool.and_true, if_pos rfl, afterSeal, if_pos hun]
      rfl
    · rw [hs, afterRelease, Bool.not_true, Bool.and_false, if_neg Bool.false_ne_true]
  · have halike : Alike sealView reachless v.val s.eng (releaseSeals s.eng v.val) :=
      .foldl (fun e r => alike_releaseSeal v.val e r) _ _
    exact ⟨halike.spill, halike.io⟩

end Sys2Proof.Machine

/-!
The warden collects, folds, closes and refuses; a refusal halts a member (R84, R87, R90).
-/

namespace Sys2Proof.Machine

/-! ## What the warden's procedure leaves -/

/-- An engine without the Valleys and the control transactions that wait. -/
def mailView (e : Eng) : Eng := { e with valleys := [], io := { e.io with ctlOut := [] } }

/-- A Valley without what its warden has broadcast. -/
def unsent (x : Valley) : Valley :=
  { x with warden := { x.warden with landingB := false, foldedB := [], crossB := false } }

/-- A Valley without what its warden has broadcast or ended. -/
def unended (x : Valley) : Valley :=
  { x with warden := { x.warden with landingB := false, foldedB := [], crossB := false, refused := none, done := false } }

theorem unended_of_unsent {x y : Valley} (h : unsent x = unsent y) : unended x = unended y :=
  congrArg (fun z : Valley => { z with warden := { z.warden with refused := none, done := false } }) h

/-- The warden's procedure sends and remembers what it sent: nothing else changes. -/
structure WardenSends (π : Valley → Valley) (v : Nat) (e f : Eng) : Prop where
  alike : Alike mailView π v e f
  more : ∃ more, f.io.ctlOut = e.io.ctlOut ++ more

section
variable {π : Valley → Valley} {v : Nat} {e f g : Eng}

theorem WardenSends.refl (π : Valley → Valley) (v : Nat) (e : Eng) : WardenSends π v e e :=
  ⟨.refl _ _ _ _, [], (List.append_nil _).symm⟩

theorem WardenSends.trans (h : WardenSends π v e f) (k : WardenSends π v f g) : WardenSends π v e g := by
  obtain ⟨ha, m, hm⟩ := h
  obtain ⟨hb, n, hn⟩ := k
  exact ⟨ha.trans hb, m ++ n, by rw [hn, hm, List.append_assoc]⟩

theorem WardenSends.foldl {α : Type} {step : Eng → α → Eng} (h : ∀ e x, WardenSends π v e (step e x)) (xs : List α)
    (e : Eng) : WardenSends π v e (xs.foldl step e) := by
  induction xs generalizing e with
  | nil => exact .refl _ _ _
  | cons x r ih => exact (h e x).trans (ih _)

theorem WardenSends.unended (h : WardenSends unsent v e f) : WardenSends unended v e f :=
  ⟨h.alike.weaken (fun _ _ h => h) fun _ _ h => unended_of_unsent h, h.more⟩

theorem WardenSends.queue (cs : List CtlOut) : WardenSends π v e (queueCtl e cs) :=
  ⟨.of_valleys rfl rfl, cs, rfl⟩

theorem WardenSends.updV {k : Valley → Valley} (h : π (k (getV e v)) = π (getV e v)) : WardenSends π v e (updV e v k) :=
  ⟨.updV rfl h, [], (List.append_nil _).symm⟩

end

/-- One transaction of the current epoch to every live member. -/
def toLive (x : Valley) (v : Nat) (g : Msg) : List CtlOut := (liveList x).map fun i => ctlTo x v i x.epoch g

theorem broadcast_eq (e : Eng) (v : Nat) (g : Msg) : broadcast e v g = queueCtl e (toLive (getV e v) v g) := by
  have hfold : ∀ (is : List Nat) (f : Eng), getV f v = getV e v →
      is.foldl (fun e i => sendCtl e v i (getV e v).epoch g) f =
        queueCtl f (is.map fun i => ctlTo (getV e v) v i (getV e v).epoch g) := by
    intro is
    induction is with
    | nil => exact fun f _ => (queueCtl_nil f).symm
    | cons i r ih =>
      intro f hf
      rw [List.foldl_cons, sendCtl_eq, ih _ (by rw [getV_queueCtl, hf]), queueCtl_queueCtl, hf]
      rfl
  exact hfold _ e rfl

theorem toLive_congr {x y : Valley} (h : unended y = unended x) (v : Nat) (g : Msg) : toLive y v g = toLive x v g :=
  (congrArg (fun z => toLive z v g) h :)

theorem wardenSends_broadcast {π : Valley → Valley} (v : Nat) (e : Eng) (g : Msg) : WardenSends π v e (broadcast e v g) := by
  rw [broadcast_eq]
  exact .queue _

/-! ## The folds of reach fold -/

/-- The landing fold that the warden's collections allow. -/
def wardenLanding (e : Eng) (v : Nat) : Eng :=
  if !(getV e v).warden.landingB && !(getV e v).landFold && coversLive (getV e v) (getV e v).warden.landing then
    broadcast (updV e v fun x => { x with warden := { x.warden with landingB := true } }) v (.landingFold false)
  else e

/-- The reach folds that are due. -/
def wardenDue (e : Eng) (v : Nat) : List Nat :=
  (otherReaches e v).filter fun r =>
    !(getV e v).warden.foldedB.contains r && decide ((getReach (getV e v) r).st ≠ .folded) &&
      coversLive (getV e v) (Tab.get 0 (getV e v).warden.readies r)

/-- The reach folds that the warden's collections allow once the landing fold is out. -/
def wardenReaches (e : Eng) (v : Nat) : Eng :=
  if !(getV e v).warden.landingB then e
  else
    (chop 28 (wardenDue e v).length (wardenDue e v)).foldl (fun e rs => broadcast e v (.reachFold false rs))
      (updV e v fun x => { x with warden := { x.warden with foldedB := x.warden.foldedB ++ wardenDue e v } })

theorem wardenFolds_eq (e : Eng) (v : Nat) :
    wardenFolds e v = if (getV e v).crossMode then e else wardenReaches (wardenLanding e v) v := rfl

theorem wardenSends_landing (e : Eng) (v : Nat) : WardenSends unsent v e (wardenLanding e v) := by
  unfold wardenLanding
  split
  · exact WardenSends.trans (.updV rfl) (wardenSends_broadcast _ _ _)
  · exact .refl _ _ _

theorem wardenSends_reaches (e : Eng) (v : Nat) : WardenSends unsent v e (wardenReaches e v) := by
  unfold wardenReaches
  split
  · exact .refl _ _ _
  · exact WardenSends.trans (.updV rfl) (.foldl (fun _ _ => wardenSends_broadcast _ _ _) _ _)

theorem wardenSends_folds (e : Eng) (v : Nat) : WardenSends unsent v e (wardenFolds e v) := by
  rw [wardenFolds_eq]
  split
  · exact .refl _ _ _
  · exact (wardenSends_landing _ _).trans (wardenSends_reaches _ _)

/-! ## The closing part -/

/-- The live members whose close the warden waits for. -/
def closers (x : Valley) : List Nat := (liveList x).filter fun i => !isParity x i

/-- Their reports. -/
def closeReps (x : Valley) : List CloseRep := (closers x).filterMap fun i => Tab.find x.warden.closes i

/-- The crossing fold that the warden's collections allow. -/
def wardenCross (e : Eng) (v : Nat) : Eng :=
  if (getV e v).crossMode && !(getV e v).warden.crossB && !(getV e v).crossFold &&
      coversLive (getV e v) (getV e v).warden.landing &&
      (otherReaches e v).all fun r => coversLive (getV e v) (Tab.get 0 (getV e v).warden.readies r) then
    broadcast (updV e v fun x => { x with warden := { x.warden with crossB := true } }) v (.crossingFold false)
  else e

/-- The warden's epoch is done: the Watershed goes to every live member. -/
def wardenEnd (e : Eng) (v : Nat) (step : W64) : Eng :=
  broadcast (updV e v fun x => { x with warden := { x.warden with done := true } }) v (.watershed step)

theorem wardenClose_eq (e : Eng) (v : Nat) :
    wardenClose e v =
      if (closeReps (getV e v)).length ≠ (closers (getV e v)).length then e
      else if (getV e v).guard && (getV e v).crossMode && (closeReps (getV e v)).any (·.poisoned) then
        wardenRefuse e v stPoisoned
      else if (closeReps (getV e v)).any fun c => decide (c.step ≠ ((closeReps (getV e v)).head?.map (·.step)).getD 0) then
        wardenRefuse e v stStepSkew
      else if coversLive (getV e v) (getV e v).warden.drained then
        wardenEnd (wardenCross e v) v (((closeReps (getV e v)).head?.map (·.step)).getD (getV e v).step)
      else wardenCross e v := rfl

theorem wardenSends_cross (e : Eng) (v : Nat) : WardenSends unsent v e (wardenCross e v) := by
  unfold wardenCross
  split
  · exact WardenSends.trans (.updV rfl) (wardenSends_broadcast _ _ _)
  · exact .refl _ _ _

theorem wardenSends_refuse (e : Eng) (v : Nat) (st : W16) : WardenSends unended v e (wardenRefuse e v st) :=
  WardenSends.trans (.updV rfl) (wardenSends_broadcast _ _ _)

theorem wardenSends_end (e : Eng) (v : Nat) (step : W64) : WardenSends unended v e (wardenEnd e v step) :=
  WardenSends.trans (.updV rfl) (wardenSends_broadcast _ _ _)

theorem wardenSends_close (e : Eng) (v : Nat) : WardenSends unended v e (wardenClose e v) := by
  rw [wardenClose_eq]
  split
  · exact .refl _ _ _
  split
  · exact wardenSends_refuse _ _ _
  split
  · exact wardenSends_refuse _ _ _
  split
  · exact (wardenSends_cross _ _).unended.trans (wardenSends_end _ _ _)
  · exact (wardenSends_cross _ _).unended

theorem wardenEnd_spec (e : Eng) (v : Nat) (step : W64) :
    (getV (wardenEnd e v step) v).warden.done = true ∧
      (wardenEnd e v step).io.ctlOut = e.io.ctlOut ++ toLive (getV e v) v (.watershed step) := by
  have hb := broadcast_eq (updV e v fun x => { x with warden := { x.warden with done := true } }) v (.watershed step)
  have hl := toLive_congr (x := getV e v) (y := getV (updV e v fun x => { x with warden := { x.warden with done := true } }) v)
    (by rw [getV_updV_same]; rfl) v (.watershed step)
  refine ⟨?_, ?_⟩
  · rw [wardenEnd, hb, getV_queueCtl, getV_updV_same]
  · rw [wardenEnd, hb, hl]
    rfl

/-- When every member that closes has reported the same step, unpoisoned, the reports are copies of one. -/
theorem closeReps_of_agree {x : Valley} {c : CloseRep}
    (h : ∀ j ∈ liveList x, isParity x j = false → Tab.find x.warden.closes j = some c) :
    closeReps x = List.replicate (closers x).length c := by
  have hall : ∀ j ∈ closers x, Tab.find x.warden.closes j = some c := fun j hj => by
    simp only [closers, List.mem_filter, Bool.not_eq_true'] at hj
    exact h j hj.1 hj.2
  unfold closeReps
  generalize closers x = js at hall
  induction js with
  | nil => rfl
  | cons j js ih =>
    rw [List.filterMap_cons_some (hall j (List.mem_cons_self ..)), ih fun k hk => hall k (List.mem_cons_of_mem _ hk)]
    rfl

/-- Every live member has drained and the closes agree: the Watershed goes out. -/
theorem wardenClose_of_agree {e : Eng} {v i : Nat} {step : W64} (hi : i ∈ liveList (getV e v))
    (hp : isParity (getV e v) i = false)
    (h : ∀ j ∈ liveList (getV e v), isParity (getV e v) j = false →
      Tab.find (getV e v).warden.closes j = some { step := step, poisoned := false })
    (hd : coversLive (getV e v) (getV e v).warden.drained = true) :
    wardenClose e v = wardenEnd (wardenCross e v) v step := by
  obtain ⟨n, hn⟩ : ∃ n, (closers (getV e v)).length = n + 1 := by
    have hmem : i ∈ closers (getV e v) := List.mem_filter.2 ⟨hi, by rw [hp]; rfl⟩
    exact Nat.exists_eq_add_one.2 (List.length_pos_of_mem hmem)
  have hr := closeReps_of_agree h
  rw [hn, List.replicate_succ] at hr
  have hpois : (closeReps (getV e v)).any (·.poisoned) = false := by
    rw [hr, ← List.replicate_succ]
    simp
  have hhead : (closeReps (getV e v)).head? = some { step := step, poisoned := false } := by rw [hr]; rfl
  have hskew : ((closeReps (getV e v)).any fun c => decide (c.step ≠ ((closeReps (getV e v)).head?.map (·.step)).getD 0)) =
      false := by
    rw [hhead, hr, ← List.replicate_succ]
    simp
  rw [wardenClose_eq, if_neg (by rw [hr, hn]; simp), hpois, Bool.and_false, if_neg Bool.false_ne_true, hskew,
    if_neg Bool.false_ne_true, if_pos hd, hhead]
  rfl

/-! ## Reports -/

/-- A report is collected. -/
def collect (e : Eng) (v : Nat) (g : Warden → Warden) : Eng := updV e v fun x => { x with warden := g x.warden }

section
variable {e : Eng} {v sender : Nat} {epoch : W64} {skew : Bool} {g : Warden → Warden}

theorem wardenReport_of_idle (h : (getV e v).self ≠ wardenOf (getV e v) ∨ epoch ≠ (getV e v).epoch ∨
    (getV e v).warden.done = true ∨ (getV e v).warden.refused ≠ none) : wardenReport e v sender epoch skew g = e := by
  unfold wardenReport
  dsimp only
  split
  · rfl
  · next hc =>
    refine if_pos ?_
    rcases h with h | h | h | h
    · exact absurd (.inl h) hc
    · exact absurd (.inr (.inl h)) hc
    · rw [h, Bool.true_or]
    · rw [Option.isSome_iff_ne_none.2 h, Bool.or_true]

theorem wardenReport_of_busy (hw : (getV e v).self = wardenOf (getV e v)) (he : epoch = (getV e v).epoch)
    (hj : isJoined (getV e v) = true) (hs : sender < 64) (hd : (getV e v).warden.done = false)
    (hr : (getV e v).warden.refused = none) : wardenReport e v sender epoch skew g = wardenRun (collect e v g) v skew := by
  unfold wardenReport
  dsimp only
  rw [if_neg (by
    rw [hj]
    exact not_or.2 ⟨not_not_intro hw, not_or.2 ⟨not_not_intro he, not_or.2 ⟨Bool.false_ne_true, Nat.not_le.2 hs⟩⟩⟩), hd, hr]
  exact if_neg Bool.false_ne_true

theorem getV_collect : getV (collect e v g) v = { getV e v with warden := g (getV e v).warden } := getV_updV_same _ _ _

variable (hd : (g (getV e v).warden).done = false) (hr : (g (getV e v).warden).refused = none)
include hd hr

theorem wardenRun_of_skew : wardenRun (collect e v g) v true = wardenRefuse (collect e v g) v stStepSkew := by
  rw [wardenRun]
  simp only [getV_collect, hd, hr]
  rfl

theorem wardenRun_of_even : wardenRun (collect e v g) v false = wardenClose (wardenFolds (collect e v g) v) v := by
  have hf := (wardenSends_folds (collect e v g) v).alike.here
  have href : (getV (wardenFolds (collect e v g) v) v).warden.refused = none :=
    (congrArg (fun z : Valley => z.warden.refused) hf :).trans (by rw [getV_collect]; exact hr)
  rw [wardenRun]
  simp only [getV_collect, hd, hr, href]
  rfl

end

theorem wardenRefuse_spec (e : Eng) (v : Nat) (st : W16) :
    (getV (wardenRefuse e v st) v).warden.refused = some st ∧
      (wardenRefuse e v st).io.ctlOut = e.io.ctlOut ++ toLive (getV e v) v (.refuse st) := by
  have hb := broadcast_eq (updV e v fun x => { x with warden := { x.warden with refused := some st } }) v (.refuse st)
  have hl := toLive_congr (x := getV e v)
    (y := getV (updV e v fun x => { x with warden := { x.warden with refused := some st } }) v)
    (by rw [getV_updV_same]; rfl) v (.refuse st)
  refine ⟨?_, ?_⟩
  · rw [wardenRefuse, hb, getV_queueCtl, getV_updV_same]
  · rw [wardenRefuse, hb, hl]
    rfl

/-- In reach fold the landing fold goes out first, when the last landing ready is in. -/
theorem wardenLanding_of_ready {e : Eng} {v : Nat} (hb : (getV e v).warden.landingB = false)
    (hf : (getV e v).landFold = false) (hc : coversLive (getV e v) (getV e v).warden.landing = true) :
    (wardenLanding e v).io.ctlOut = e.io.ctlOut ++ toLive (getV e v) v (.landingFold false) := by
  have hl := toLive_congr (x := getV e v)
    (y := getV (updV e v fun x => { x with warden := { x.warden with landingB := true } }) v)
    (by rw [getV_updV_same]; rfl) v (.landingFold false)
  rw [wardenLanding, hb, hf, hc]
  refine (congrArg (fun f : Eng => f.io.ctlOut) (broadcast_eq _ v (.landingFold false))).trans ?_
  rw [hl]
  rfl

/-! ## Refusals -/

theorem onRefuse_of_again {e : Eng} {v : Nat} (sender : Nat) (st : W16)
    (h : (getV e v).phase = .halted ∨ (getV e v).refusal ≠ none) : onRefuse e v sender st = drop e 19 := by
  refine if_pos (h.imp (fun hp => decide_eq_true hp) fun hr => ?_)
  exact Option.isSome_iff_ne_none.2 hr

/-- A Valley that is halted by a refusal. -/
def refusedValley (st : W16) (x : Valley) : Valley :=
  { x with
      refusal := some st
      phase := match x.phase with
        | .opened => .halted
        | .closing => .halted
        | p => p }

theorem onRefuse_eq {e : Eng} {v : Nat} (sender : Nat) (st : W16) (hp : (getV e v).phase ≠ .halted)
    (hr : (getV e v).refusal = none) :
    onRefuse e v sender st =
      let f := raise (updV e v (refusedValley st)) evRefused st (some v) (getV e v).epoch (BitVec.ofNat 64 sender)
      match (getV e v).closeWait with
      | some c => updV (reply0 f c st) v fun x => { x with closeWait := none }
      | none => f := by
  have hc : ¬ (ignored (getV e v) = true ∨ (getV e v).refusal.isSome = true) := by
    rw [hr]
    rintro (h | h)
    · exact hp (of_decide_eq_true h)
    · cases h
  rw [onRefuse]
  exact if_neg hc

/-- What a refusal makes of the Valley of a member that has an open or closing Crossing. -/
theorem getV_onRefuse {e : Eng} {v : Nat} (sender : Nat) (st : W16)
    (hp : (getV e v).phase = .opened ∨ (getV e v).phase = .closing) (hr : (getV e v).refusal = none) :
    getV (onRefuse e v sender st) v = { getV e v with refusal := some st, phase := .halted, closeWait := none } := by
  have hne : (getV e v).phase ≠ .halted := by rcases hp with hp | hp <;> rw [hp] <;> decide
  have hv : refusedValley st (getV e v) = { getV e v with refusal := some st, phase := .halted } := by
    rcases hp with hp | hp <;> rw [refusedValley, hp]
  have hraise : getV (raise (updV e v (refusedValley st)) evRefused st (some v) (getV e v).epoch (BitVec.ofNat 64 sender)) v =
      { getV e v with refusal := some st, phase := .halted } :=
    ((onlyEvents_raise _ _ _ _ _ _).answers.getV v).trans ((getV_updV_same _ _ _).trans hv)
  rw [onRefuse_eq sender st hne hr]
  dsimp only
  split
  · exact (getV_updV_same _ _ _).trans (congrArg (fun z : Valley => { z with closeWait := none })
      (((onlyAnswers_reply _ _ _ _ _).getV v).trans hraise))
  · next hw => exact hraise.trans (by rw [← hw])

/-! ## The rows of the fabric port -/

/-- A transaction of the commit path that reaches a warden: what it does, and then what waits in the Valley. -/
theorem deliver_refuse {m : Mem} {e : Eng} {v sender : Nat} {epoch : W64} (st : W16) (h : epoch = (getV e v).epoch) :
    deliver m e v sender epoch (.refuse st) = commitStep m (onRefuse e v sender st) v := by
  have hd : deliver m e v sender epoch (.refuse st) =
      commitStep m (if epoch = (getV e v).epoch then onRefuse e v sender st else e) v := rfl
  rw [hd, if_pos h]

/-- Settles O34: the warden's procedure in its parts, a member's refusal, and the rows that lead to them. -/
theorem skewIsRefused : Obligations.SkewIsRefused := by
  refine ⟨fun e v sender epoch st g => ⟨fun hw he hj hs hd hr hgd hgr => ?_, wardenReport_of_idle,
    onRefuse_of_again sender st, fun hp hr => ?_⟩, fun e v sender g => ?_, fun p s v hacc => ?_⟩
  · obtain ⟨h1, h2⟩ := wardenRefuse_spec (collect e v g) v stStepSkew
    rw [wardenReport_of_busy hw he hj hs hd hr, wardenRun_of_skew hgd hgr]
    refine ⟨h1, h2.trans ?_⟩
    rw [getV_collect]
    rfl
  · rw [getV_onRefuse sender st hp hr]
    exact ⟨rfl, rfl, rfl, rfl⟩
  · intro x w f all hw hj hs hd hr hgd hgr
    have hf : f = wardenClose (wardenFolds (collect e v g) v) v :=
      (wardenReport_of_busy hw rfl hj hs hd hr).trans (wardenRun_of_even hgd hgr)
    have hx : getV (collect e v g) v = { x with warden := w } := getV_collect
    have hfolds := wardenSends_folds (collect e v g) v
    have hclose := wardenSends_close (wardenFolds (collect e v g) v) v
    have hsends : WardenSends unended v (collect e v g) f := hf ▸ hfolds.unended.trans hclose
    have hhere : unended (getV f v) = unended { x with warden := w } := hsends.alike.here.trans (by rw [hx])
    have hmsg (y : Valley) (hy : unended y = unended { x with warden := w }) (msg : Msg) : toLive y v msg = all msg :=
      toLive_congr hy v msg
    have hmid : unsent (getV (wardenFolds (collect e v g) v) v) = unsent { x with warden := w } :=
      hfolds.alike.here.trans (by rw [hx])
    refine ⟨(congrArg (fun z : Valley => z.warden.readies) hhere :), (congrArg (fun z : Valley => z.warden.landing) hhere :),
      (congrArg (fun z : Valley => z.warden.closes) hhere :), (congrArg (fun z : Valley => z.warden.drained) hhere :),
      (congrArg Valley.reaches hhere :), (congrArg Valley.epoch hhere :), (congrArg Eng.lanes hsends.alike.eng :),
      (congrArg Eng.regions hsends.alike.eng :), fun hcm hb hlf hcov => ?_, fun step i _ _ hp hall hi hcov => ?_⟩
    · obtain ⟨more, hmore⟩ := hclose.more
      obtain ⟨some, hsome⟩ := (wardenSends_reaches (wardenLanding (collect e v g) v) v).more
      have hland := wardenLanding_of_ready (e := collect e v g) (v := v) (by rw [hx]; exact hb) (by rw [hx]; exact hlf)
        (by rw [hx]; exact hcov)
      have hfold : wardenFolds (collect e v g) v = wardenReaches (wardenLanding (collect e v g) v) v := by
        rw [wardenFolds_eq, hx]
        exact if_neg (by rw [← Bool.not_eq_true] at hcm; exact hcm)
      refine ⟨some ++ more, ?_⟩
      rw [hf, hmore, hfold, hsome, hland, hmsg _ (by rw [hx]), List.append_assoc, List.append_assoc, List.append_assoc]
      rfl
    · have hsame {α : Type} (k : Valley → α) (hk : ∀ z, k (unsent z) = k z) :
          k (getV (wardenFolds (collect e v g) v) v) = k { x with warden := w } := by
        rw [← hk, hmid, hk]
      have hagree := wardenClose_of_agree (e := wardenFolds (collect e v g) v) (v := v) (i := i) (step := step)
        (by rw [hsame liveList fun _ => rfl]; exact hi) (by rw [hsame (isParity · i) fun _ => rfl]; exact hp)
        (fun j hj hpj => by
          rw [hsame liveList fun _ => rfl] at hj
          rw [hsame (isParity · j) fun _ => rfl] at hpj
          exact (hsame (fun z => Tab.find z.warden.closes j) fun _ => rfl).trans (hall j hj hpj))
        (by rw [hsame (fun z => coversLive z z.warden.drained) fun _ => rfl]; exact hcov)
      have hcross := wardenSends_cross (wardenFolds (collect e v g) v) v
      obtain ⟨hdone, hout⟩ := wardenEnd_spec (wardenCross (wardenFolds (collect e v g) v) v) v step
      obtain ⟨a, ha⟩ := hfolds.more
      obtain ⟨b, hb⟩ := hcross.more
      rw [hf, hagree]
      refine ⟨hdone, a ++ b, ?_⟩
      rw [hout, hb, ha, hmsg _ (hcross.unended.alike.here.trans (unended_of_unsent hmid))]
      simp only [List.append_assoc]
      rfl
  · have hact := acceptedPacketsAct.1 p 0 s v hacc
    obtain ⟨-, -, hready, hland, hclose, hdrained, -, -, hfold, -⟩ := hact
    refine ⟨hready, hland, hclose, hdrained, fun ht hk hs he => ?_⟩
    have hep : (hdrOf p).epoch = (getV (heard s.eng v (hdrOf p).sender) v).epoch := by
      rw [getV_heard]
      exact he
    obtain ⟨-, -, -, -, -, hrefuse⟩ := hfold ht (by rw [getV_heard]; exact hs)
    rw [hrefuse hk, deliver_refuse _ hep]

end Sys2Proof.Machine

/-!
A recorded Watershed begins the next epoch (R86, R89, R95, R254, R311).
-/

namespace Sys2Proof.Machine

/-! ## Regions of the new epoch (R95, R254, R311) -/

/-- A region of the Valley whose new epoch begins: its pending frozen bit is in force, its counts are zero, and each of its
events may be raised again. -/
def regionBegun (v : Nat) (r : Region) : Region :=
  if !Region.empty r && decide (Region.valley r = v) then
    { r with frozen := Region.frozenBit r, nonfin := 0, satur := 0, zeros := 0, suppr := 0, evUncr := false
             evLate := false, evFroz := false, evNonf := false, evExp := false }
  else r

/-- A region once its Valley's values are latched. -/
def regionLatched (v : Nat) (r : Region) : Region :=
  if !Region.empty r && decide (Region.valley r = v) then
    { r with frozen := Region.frozenBit r, nonfin := 0, satur := 0, zeros := 0, suppr := 0 }
  else r

/-- A region once its events may be raised again. -/
def regionCleared (v : Nat) (r : Region) : Region :=
  if !Region.empty r && decide (Region.valley r = v) then
    { r with evUncr := false, evLate := false, evFroz := false, evNonf := false, evExp := false }
  else r

theorem latch_regions (e : Eng) (v : Nat) : (latch e v).regions = e.regions.map fun x => (x.1, regionLatched v x.2) := by
  show e.regions.map _ = _
  refine List.map_congr_left fun x _ => ?_
  obtain ⟨d, r⟩ := x
  exact (apply_ite (Prod.mk d) _ _ _).symm

theorem clearEvents_regions (e : Eng) (v : Nat) :
    (clearEvents e v).regions = e.regions.map fun x => (x.1, regionCleared v x.2) := by
  show e.regions.map _ = _
  refine List.map_congr_left fun x _ => ?_
  obtain ⟨d, r⟩ := x
  exact (apply_ite (Prod.mk d) _ _ _).symm

theorem regionCleared_latched (v : Nat) (r : Region) : regionCleared v (regionLatched v r) = regionBegun v r := by
  unfold regionLatched regionBegun
  by_cases h : (!Region.empty r && decide (Region.valley r = v)) = true
  · rw [if_pos h, if_pos h]
    exact if_pos h
  · rw [if_neg h, if_neg h]
    exact if_neg h

theorem getR_begun (e : Eng) (v d : Nat) : getR (clearEvents (latch e v) v) d = regionBegun v (getR e d) := by
  rw [getR, clearEvents_regions, Tab.get_map rfl, latch_regions, Tab.get_map rfl, regionCleared_latched]
  rfl

/-! ## What comes before the new epoch's state -/

/-- The record of the Watershed of the current epoch. -/
def watershedOf (e : Eng) (v : Nat) (step : W64) : WsRecord :=
  { number := (getV e v).epoch, step := step, ts := e.side.ts, tag := (getV e v).tag, crossing := (getV e v).crossMode
    folded := ((reachList e v).filter fun r => decide ((getReach (getV e v) r.num).st = .folded)).length }

/-- The Watershed is recorded and its event raised. -/
def wsRecorded (e : Eng) (v : Nat) (step : W64) : Eng :=
  raise (updV e v fun x => { x with ws := some (watershedOf e v step) }) evWatershed stOK (some v) (getV e v).epoch step

/-- A CROSSING_CLOSE that waits, with no FENCE beside it, is answered. -/
def closeAnswered (e : Eng) (v : Nat) (x : Valley) (step : W64) : Eng :=
  match x.closeWait, x.fenceWait with
  | some c, none => updV (reply e c stOK x.epoch step) v fun x => { x with closeWait := none }
  | _, _ => e

/-- A Valley without its waiting CROSSING_CLOSE. -/
def unclosing (x : Valley) : Valley := { x with closeWait := none }

theorem getV_wsRecorded (e : Eng) (v : Nat) (step : W64) :
    getV (wsRecorded e v step) v = { getV e v with ws := some (watershedOf e v step) } :=
  ((onlyEvents_raise _ _ _ _ _ _).answers.getV v).trans (getV_updV_same _ _ _)

theorem getV_wsRecorded_ne {v w : Nat} (h : w ≠ v) (e : Eng) (step : W64) : getV (wsRecorded e v step) w = getV e w :=
  ((onlyEvents_raise _ _ _ _ _ _).answers.getV w).trans (getV_updV_ne _ _ h)

/-- An engine without the Valleys and what answers change. -/
def answerView (e : Eng) : Eng := { side := e.side, regs := e.regs, lanes := e.lanes, regions := e.regions, spill := e.spill }

theorem OnlyAnswers.view {e f : Eng} (h : OnlyAnswers e f) : answerView f = answerView e := by
  rw [answerView, h.side, h.regs, h.lanes, h.regions, h.spill]
  rfl

theorem alike_closeAnswered (e : Eng) (v : Nat) (x : Valley) (step : W64) :
    Alike answerView unclosing v e (closeAnswered e v x step) := by
  unfold closeAnswered
  split
  · exact Alike.trans (.of_valleys (onlyAnswers_reply _ _ _ _ _).view (onlyAnswers_reply _ _ _ _ _).valleys) (.updV rfl rfl)
  · exact .refl _ _ _ _

/-! ## The new epoch's state (R86, R89) -/

/-- A Valley at the beginning of its next epoch; `e` is the engine in which the Watershed was recorded. -/
def epochBegun (e : Eng) (v : Nat) (x : Valley) : Valley :=
  { x with
      epoch := (getV e v).epoch + 1
      phase := if x.phase = .frozen then .frozen else .idle
      opened := false, openHere := false, poisoned := false, landFold := false, crossFold := false
      recorded := true, refusal := none, closeRep := none, drainSent := false, landSent := false
      warden := {}
      reaches := x.reaches.map fun (i, r) =>
        (i, { r with st := .clean, issued := [], held := false, evSealed := false, evUnreb := false })
      hold := x.holdNext, holdNext := []
      summaries := x.summaries.filter fun s => decide (s.epoch ≠ (getV e v).epoch)
      t1o := { x.t1o with wsCount := x.t1o.wsCount + 1
                          pending := x.t1o.pending || (x.t1o.heldOne && heldFree e x v)
                          heldOne := x.t1o.heldOne && !heldFree e x v }
      t2o := { x.t2o with wsCount := x.t2o.wsCount + 1, held := x.t2o.held && !drainKeyed e v } }

theorem recordWatershed_eq (m : Mem) (e : Eng) (v : Nat) (step : W64) :
    recordWatershed m e v step =
      replicaSend m (spillEpoch (updV (clearEvents (latch (closeAnswered (wsRecorded e v step) v (getV e v) step) v) v) v
        (epochBegun e v)) v) v (getV e v).epoch step := rfl

/-- Every Reach of the new epoch is clean, with nothing issued and its committed digest. -/
theorem getReach_epochBegun (e : Eng) (v : Nat) (x : Valley) (r : Nat) :
    getReach (epochBegun e v x) r =
      { getReach x r with st := .clean, issued := [], held := false, evSealed := false, evUnreb := false } :=
  Tab.get_map (d := ({} : SReach))
    (f := fun r => { r with st := .clean, issued := [], held := false, evSealed := false, evUnreb := false }) rfl _ _

/-! ## Replica digests at a Watershed (R226) -/

/-- An engine without the Valleys and the ports. -/
def portless (e : Eng) : Eng := { e with valleys := [], io := {} }

/-- A Valley without its comparisons. -/
def uncompared (x : Valley) : Valley := { x with cmp := {} }

theorem setBytes_eq (m : Mem) (e : Eng) (a : Nat) (bs : List Byte) :
    setBytes m e a bs = { e with io := (setBytes m e a bs).io } := by
  unfold setBytes
  induction spread a bs generalizing e with
  | nil => rfl
  | cons x r ih =>
    obtain ⟨l, be, d⟩ := x
    rw [List.foldl_cons, ih]
    dsimp only
    rw [setLine, accumDiff_eq]

theorem Alike.ofIo {v : Nat} {e f : Eng} (h : f = { e with io := f.io }) (π : Valley → Valley) : Alike portless π v e f :=
  .of_valleys (by rw [h]; rfl) (by rw [h])

theorem alike_replicaSend (m : Mem) (e : Eng) (v : Nat) (w step : W64) :
    Alike portless uncompared v e (replicaSend m e v w step) := by
  unfold replicaSend
  dsimp only
  split
  · exact .refl _ _ _ _
  · refine Alike.trans (.trans (.foldl (fun e r => .ofIo (setBytes_eq _ _ _ _) _) _ _) (.updV rfl rfl))
      (.foldl (fun e p => .foldl (fun e c => .ofIo rfl _) _ _) _ _)

/-! ## The whole -/

/-- The Valley of a recorded Watershed, up to its comparisons and its waiting CROSSING_CLOSE. -/
def sinceWatershed (x : Valley) : Valley := { x with cmp := {}, closeWait := none }

/-- The epoch-latched values take effect. -/
def latchValues (x : Valley) : Valley := { x with regs := { x.regs with commitF := x.regs.commit, drainF := x.regs.drain } }

theorem latch_valleys (e : Eng) (v : Nat) : (latch e v).valleys = (updV e v latchValues).valleys := rfl

theorem getV_latch (e : Eng) (v : Nat) : getV (latch e v) v = latchValues (getV e v) :=
  (getV_congr (latch_valleys e v) v).trans (getV_updV_same _ _ _)

theorem getV_latch_ne {v w : Nat} (h : w ≠ v) (e : Eng) : getV (latch e v) w = getV e w :=
  (getV_congr (latch_valleys e v) w).trans (getV_updV_ne _ _ h)

theorem getV_clearEvents (e : Eng) (v w : Nat) : getV (clearEvents e v) w = getV e w := getV_congr rfl w

/-- The Valley before its next epoch begins: the Watershed is recorded and the epoch-latched values are in force. -/
def latchedAt (e : Eng) (v : Nat) (step : W64) : Valley :=
  latchValues { getV e v with ws := some (watershedOf e v step) }

theorem getV_recordWatershed (m : Mem) (e : Eng) (v : Nat) (step : W64) :
    sinceWatershed (getV (recordWatershed m e v step) v) = sinceWatershed (epochBegun e v (latchedAt e v step)) := by
  have hclose := (alike_closeAnswered (wsRecorded e v step) v (getV e v) step).here
  rw [getV_wsRecorded] at hclose
  have hsend := (alike_replicaSend m (spillEpoch (updV (clearEvents (latch (closeAnswered (wsRecorded e v step) v (getV e v)
    step) v) v) v (epochBegun e v)) v) v (getV e v).epoch step).here
  rw [← recordWatershed_eq] at hsend
  have hbegun : getV (spillEpoch (updV (clearEvents (latch (closeAnswered (wsRecorded e v step) v (getV e v) step) v) v) v
      (epochBegun e v)) v) v = epochBegun e v (getV (latch (closeAnswered (wsRecorded e v step) v (getV e v) step) v) v) :=
    getV_updV_same _ _ _
  rw [hbegun, getV_latch] at hsend
  refine (congrArg (fun z : Valley => { z with closeWait := none }) hsend :).trans ?_
  exact (congrArg (fun z : Valley => sinceWatershed (epochBegun e v (latchValues z))) hclose :)

theorem getV_recordWatershed_ne {v w : Nat} (h : w ≠ v) (m : Mem) (e : Eng) (step : W64) :
    getV (recordWatershed m e v step) w = getV e w := by
  rw [recordWatershed_eq, (alike_replicaSend _ _ _ _ _).others w h]
  refine (getV_updV_ne _ _ h).trans ?_
  rw [getV_clearEvents, getV_latch_ne h, (alike_closeAnswered _ _ _ _).others w h, getV_wsRecorded_ne h]

theorem getR_recordWatershed (m : Mem) (e : Eng) (v d : Nat) (step : W64) :
    getR (recordWatershed m e v step) d = regionBegun v (getR e d) := by
  have hclose : (closeAnswered (wsRecorded e v step) v (getV e v) step).regions = (wsRecorded e v step).regions :=
    (congrArg Eng.regions (alike_closeAnswered (wsRecorded e v step) v (getV e v) step).eng :)
  have hev : (wsRecorded e v step).regions = e.regions := (onlyEvents_raise _ _ _ _ _ _).answers.regions
  have hsend : (recordWatershed m e v step).regions =
      (clearEvents (latch (closeAnswered (wsRecorded e v step) v (getV e v) step) v) v).regions := by
    rw [recordWatershed_eq]
    exact (congrArg Eng.regions (alike_replicaSend m (spillEpoch (updV (clearEvents (latch (closeAnswered
      (wsRecorded e v step) v (getV e v) step) v) v) v (epochBegun e v)) v) v (getV e v).epoch step).eng :)
  rw [getR_congr hsend, getR_begun, getR_congr (hclose.trans hev)]

theorem regionBegun_of_own {v : Nat} {r : Region} (he : Region.empty r = false) (hv : Region.valley r = v) :
    regionBegun v r = { r with frozen := Region.frozenBit r, nonfin := 0, satur := 0, zeros := 0, suppr := 0, evUncr := false
                               evLate := false, evFroz := false, evNonf := false, evExp := false } :=
  if_pos (by rw [he, decide_eq_true hv]; rfl)

theorem regionBegun_of_other {v : Nat} {r : Region} (hv : Region.valley r ≠ v) : regionBegun v r = r :=
  if_neg (by rw [decide_eq_false hv, Bool.and_false]; exact Bool.false_ne_true)

theorem deliver_watershed {m : Mem} {e : Eng} {v sender : Nat} {epoch : W64} (step : W64) (h : epoch = (getV e v).epoch) :
    deliver m e v sender epoch (.watershed step) = commitStep m (onWatershed m e v step) v := by
  have hd : deliver m e v sender epoch (.watershed step) =
      commitStep m (if epoch = (getV e v).epoch then onWatershed m e v step else e) v := rfl
  rw [hd, if_pos h]

theorem onWatershed_of_halted {e : Eng} {v : Nat} (m : Mem) (step : W64) (h : (getV e v).phase = .halted) :
    onWatershed m e v step = drop e 19 := if_pos (decide_eq_true h)

theorem onWatershed_of_running {e : Eng} {v : Nat} (m : Mem) (step : W64) (hh : (getV e v).phase ≠ .halted)
    (hf : (getV e v).phase ≠ .frozen) : onWatershed m e v step = recordWatershed m e v step :=
  (if_neg (by rw [ignored, decide_eq_false hh]; exact Bool.false_ne_true)).trans (if_neg hf)

/-- Settles O33: the new epoch's Valley and regions in the order in which the recording makes them. -/
theorem watershedBeginsEpoch : Obligations.WatershedBeginsEpoch := by
  refine ⟨fun m e v step => ?_, fun p s v hacc ht hk hs he => ?_⟩
  · intro x f y
    have hy : sinceWatershed y = sinceWatershed (epochBegun e v (latchedAt e v step)) := getV_recordWatershed m e v step
    have hsame {α : Type} (k : Valley → α) (hk : ∀ z, k (sinceWatershed z) = k z) :
        k y = k (epochBegun e v (latchedAt e v step)) := by rw [← hk, hy, hk]
    refine ⟨hsame Valley.epoch fun _ => rfl, hsame Valley.phase fun _ => rfl, hsame Valley.opened fun _ => rfl,
      ⟨watershedOf e v step, hsame Valley.ws fun _ => rfl, rfl, rfl, rfl, rfl⟩, fun r => ?_, hsame Valley.hold fun _ => rfl,
      hsame Valley.holdNext fun _ => rfl, hsame Valley.warden fun _ => rfl, hsame Valley.recorded fun _ => rfl,
      hsame Valley.closeRep fun _ => rfl, hsame (·.regs.commitF) fun _ => rfl, hsame (·.regs.drainF) fun _ => rfl,
      hsame Valley.retained fun _ => rfl, hsame Valley.outs fun _ => rfl, fun d hd hv => ?_, fun d _ hv => ?_,
      fun w hw => getV_recordWatershed_ne hw m e step⟩
    · rw [hsame (getReach · r) fun _ => rfl, getReach_epochBegun]
      exact ⟨rfl, rfl, rfl⟩
    · have hr : getR f d = _ := (getR_recordWatershed m e v d step).trans (regionBegun_of_own hd hv)
      rw [hr]
      exact ⟨rfl, rfl, rfl, rfl, rfl, rfl, rfl, rfl, rfl, rfl⟩
    · exact (getR_recordWatershed m e v d step).trans (regionBegun_of_other hv)
  · have hv := getV_heard s.eng v (hdrOf p).sender
    have hep : (hdrOf p).epoch = (getV (heard s.eng v (hdrOf p).sender) v).epoch := by rw [hv]; exact he
    have hphase : (getV (heard s.eng v (hdrOf p).sender) v).phase = (getV s.eng v).phase := by rw [hv]
    obtain ⟨-, -, -, -, -, -, -, -, hfold, -⟩ := acceptedPacketsAct.1 p 0 s v hacc
    obtain ⟨-, -, -, hws, -⟩ := hfold ht (by rw [hv]; exact hs)
    rw [hws hk, deliver_watershed _ hep]
    refine ⟨fun hh hf => ?_, fun hh => ?_⟩
    · rw [onWatershed_of_running _ _ (by rw [hphase]; exact hh) (by rw [hphase]; exact hf)]
    · rw [onWatershed_of_halted _ _ (by rw [hphase]; exact hh)]

end Sys2Proof.Machine

/-!
Folding Reaches, the fold transactions and the union of folds (R57, R88, R93).
-/

namespace Sys2Proof.Machine

/-! ## Steps on the way to a fold -/

/-- What a view keeps is the same wherever the view is. -/
theorem read_view {α β : Type} {π : α → α} {x y : α} (h : π y = π x) (k : α → β) (hk : ∀ z, k (π z) = k z) : k y = k x := by
  rw [← hk y, h, hk]

/-- An engine's regions alone. -/
def regionView (e : Eng) : Eng := { regions := e.regions }

/-- A change of a Valley that a view does not show. -/
theorem Alike.change {π : Valley → Valley} {v : Nat} (e : Eng) {k : Valley → Valley} (hk : ∀ x, π (k x) = π x) :
    Alike regionView π v e (Machine.updV e v k) := .updV rfl (hk _)

theorem Alike.ofSeal {π : Valley → Valley} {v : Nat} {e f : Eng} (h : Alike sealView π v e f) : Alike regionView π v e f :=
  h.weaken (fun _ _ h => (congrArg regionView h :)) fun _ _ h => h

theorem trimOut_eq (e : Eng) (v d : Nat) : ∃ k gs, trimOut e v d = freeBasin (updOut e v d k) gs := ⟨_, _, rfl⟩

theorem alike_trimOut (e : Eng) (v d : Nat) : Alike sealView ringless v e (trimOut e v d) := by
  obtain ⟨k, gs, h⟩ := trimOut_eq e v d
  rw [h]
  exact (alike_updOut e v d k).trans (.of_valleys rfl rfl)

/-- Reference entries of a Reach leave a ring (R101). -/
def dropRefs (rho : Nat) (s : OutStream) : OutStream :=
  { s with entries := s.entries.filter fun t => match t with
    | .ref _ r _ _ => decide (r ≠ rho)
    | _ => true }

/-- A Valley without the retained records of a Reach. -/
def unretained (rho : Nat) (x : Valley) : Valley :=
  { x with retained := x.retained.filter fun r => decide (r.reach ≠ rho), chains := Tab.del x.chains rho }

theorem freeRetained_eq (e : Eng) (v rho : Nat) :
    freeRetained e v rho = (distances (getV e v)).foldl (fun e d => trimOut (updOut e v d (dropRefs rho)) v d)
      (freeSpill (updV e v (unretained rho)) (Tab.get ({} : RetChain) (getV e v).chains rho).pages) := rfl

theorem alike_freeRetained (e : Eng) (v rho : Nat) :
    Alike regionView ringless v (updV e v (unretained rho)) (freeRetained e v rho) := by
  rw [freeRetained_eq]
  exact Alike.trans (f := freeSpill (updV e v (unretained rho)) (Tab.get ({} : RetChain) (getV e v).chains rho).pages)
    (.of_valleys rfl rfl) (.foldl (fun e d => ((alike_updOut e v d (dropRefs rho)).trans (alike_trimOut _ v d)).ofSeal) _ _)

/-- A Valley without the pending tiles of a Reach. -/
def unpended (rho : Nat) (x : Valley) : Valley := { x with pend := x.pend.filter fun p => decide (p.1 / 1048576 ≠ rho) }

theorem dropPending_valleys (e : Eng) (v rho : Nat) : (dropPending e v rho).valleys = (updV e v (unpended rho)).valleys := rfl

theorem pendTiles_unpended (rho : Nat) (x : Valley) : pendTiles (unpended rho x) rho = [] := by
  have h : (unpended rho x).pend.filter (fun p => decide (p.1 / 1048576 = rho)) = [] := by
    simp [unpended, List.filter_filter]
  rw [pendTiles, h]
  rfl

theorem pendTiles_congr {x y : Valley} (h : y.pend = x.pend) (rho : Nat) : pendTiles y rho = pendTiles x rho := by
  rw [pendTiles, pendTiles, h]

/-- Merging a Reach's pending tiles issues accumulates, and then the tiles are dropped. -/
theorem mergeReach_eq (m : Mem) (e : Eng) (v rho : Nat) : ∃ io, mergeReach m e v rho = dropPending { e with io := io } v rho := by
  have hline (ps : List (Nat × Nat)) (e : Eng) : ∃ io, ps.foldl (fun e (i, g) =>
      (List.range 16).foldl (fun e l => accumDiff (accumDiff e (parityAddr e v rho i / 256 + l)
        (loadLine m e (spillPageAddr e g / 256 + l)) (.merge v)) (spillPageAddr e g / 256 + l)
        (loadLine m e (spillPageAddr e g / 256 + l)) (.merge v)) e) e = { e with io := io } := by
    induction ps generalizing e with
    | nil => exact ⟨e.io, rfl⟩
    | cons p ps ih =>
      have htile (ls : List Nat) (e : Eng) : ∃ io, ls.foldl (fun e l => accumDiff (accumDiff e
          (parityAddr e v rho p.1 / 256 + l) (loadLine m e (spillPageAddr e p.2 / 256 + l)) (.merge v))
          (spillPageAddr e p.2 / 256 + l) (loadLine m e (spillPageAddr e p.2 / 256 + l)) (.merge v)) e =
          { e with io := io } := by
        induction ls generalizing e with
        | nil => exact ⟨e.io, rfl⟩
        | cons l ls ih =>
          obtain ⟨io, hio⟩ := ih (accumDiff (accumDiff e (parityAddr e v rho p.1 / 256 + l)
            (loadLine m e (spillPageAddr e p.2 / 256 + l)) (.merge v)) (spillPageAddr e p.2 / 256 + l)
            (loadLine m e (spillPageAddr e p.2 / 256 + l)) (.merge v))
          exact ⟨io, by rw [List.foldl_cons, hio, accumDiff_eq, accumDiff_eq]⟩
      obtain ⟨io, hio⟩ := htile (List.range 16) e
      obtain ⟨io', hio'⟩ := ih { e with io := io }
      exact ⟨io', by rw [List.foldl_cons]; dsimp only; rw [hio, hio']⟩
  obtain ⟨io, hio⟩ := hline (pendTiles (getV e v) rho) e
  exact ⟨io, congrArg (dropPending · v rho) hio⟩

theorem mergeReach_valleys (m : Mem) (e : Eng) (v rho : Nat) :
    (mergeReach m e v rho).valleys = (updV e v (unpended rho)).valleys ∧ (mergeReach m e v rho).regions = e.regions := by
  obtain ⟨io, h⟩ := mergeReach_eq m e v rho
  rw [h]
  exact ⟨rfl, rfl⟩

theorem putBit_eq (m : Mem) (e : Eng) (a i : Nat) (on : Bool) : putBit m e a i on = { e with io := (putBit m e a i on).io } := by
  unfold putBit
  dsimp only
  split
  · rfl
  · rw [accumBytes_eq]

theorem foldl_io {α : Type} {step : Eng → α → Eng} (h : ∀ e x, step e x = { e with io := (step e x).io }) (xs : List α)
    (e : Eng) : xs.foldl step e = { e with io := (xs.foldl step e).io } := by
  induction xs generalizing e with
  | nil => rfl
  | cons x r ih =>
    rw [List.foldl_cons, ih]
    dsimp only
    rw [h e x]

theorem lockFold_eq (m : Mem) (e : Eng) (v rho : Nat) : lockFold m e v rho = { e with io := (lockFold m e v rho).io } := by
  unfold lockFold
  dsimp only
  split
  · rw [foldl_io (fun e t => putBit_eq m e _ _ _), foldl_io fun e c => rfl]
  · rfl

theorem alike_lockFold (m : Mem) (e : Eng) (π : Valley → Valley) (v rho : Nat) : Alike regionView π v e (lockFold m e v rho) := by
  rw [lockFold_eq]
  exact .of_valleys rfl rfl

theorem getV_lockFold (m : Mem) (e : Eng) (v rho w : Nat) : getV (lockFold m e v rho) w = getV e w := by
  rw [lockFold_eq]
  rfl

/-! ## One Reach (R57, R88) -/

/-- The digests of the seals that are held for a Reach become those of their senders. -/
def sealDigests (rho : Nat) (x : Valley) : Tab W64 :=
  (getHold x rho).seals.foldl (fun t s => Tab.set t s.1 s.2.digest) (Tab.get [] x.commHold rho)

/-- A Valley that commits them. -/
def committed (rho : Nat) (x : Valley) : Valley := { x with commHold := Tab.set x.commHold rho (sealDigests rho x) }

/-- A Reach once it is folded in a Crossing of a step. -/
def foldedReach (step : W64) (r : SReach) : SReach :=
  { r with st := .folded, comm := if r.unbuilt then r.comm else r.pend, held := false, lastStep := some step }

/-- A Valley that folds a Reach. -/
def withFolded (rho : Nat) (x : Valley) : Valley := setReach x rho (foldedReach x.step (getReach x rho))

/-- A Valley once a Reach is folded, up to its rings. -/
def foldedValley (rho : Nat) (x : Valley) : Valley := withFolded rho (unretained rho (committed rho (unpended rho x)))

theorem getReach_foldedValley_same (rho : Nat) (x : Valley) :
    getReach (foldedValley rho x) rho = foldedReach x.step (getReach x rho) := getReach_setReach_same _ _ _

theorem getReach_foldedValley_ne {j rho : Nat} (h : j ≠ rho) (x : Valley) :
    getReach (foldedValley rho x) j = getReach x j := getReach_setReach_ne h _ _

theorem pendTiles_foldedValley (rho : Nat) (x : Valley) : pendTiles (foldedValley rho x) rho = [] :=
  (pendTiles_congr (x := unpended rho x)
    (by simp only [foldedValley, withFolded, setReach, unretained, committed]) rho).trans (pendTiles_unpended rho x)

theorem retained_foldedValley (rho : Nat) (x : Valley) :
    (foldedValley rho x).retained = x.retained.filter fun r => decide (r.reach ≠ rho) := rfl

theorem commHold_foldedValley (rho : Nat) (x : Valley) :
    (foldedValley rho x).commHold = Tab.set x.commHold rho (sealDigests rho x) := rfl

section
variable {m : Mem} {e : Eng} {v rho : Nat}

theorem foldReach_of_folded (h : (getReach (getV e v) rho).st = .folded) : foldReach m e v rho = e := if_pos h

theorem foldReach_of_unfolded (h : (getReach (getV e v) rho).st ≠ .folded) :
    foldReach m e v rho = lockFold m (updV (freeRetained (updV (mergeReach m e v rho) v (committed rho)) v rho) v
      (withFolded rho)) v rho := if_neg h

theorem getV_foldReach (h : (getReach (getV e v) rho).st ≠ .folded) :
    ringless (getV (foldReach m e v rho) v) = ringless (foldedValley rho (getV e v)) := by
  have hmerge : getV (mergeReach m e v rho) v = unpended rho (getV e v) :=
    (getV_congr (mergeReach_valleys m e v rho).1 v).trans (getV_updV_same _ _ _)
  have hfree := (alike_freeRetained (updV (mergeReach m e v rho) v (committed rho)) v rho).here
  rw [getV_updV_same, getV_updV_same, hmerge] at hfree
  have hlock : getV (foldReach m e v rho) v =
      withFolded rho (getV (freeRetained (updV (mergeReach m e v rho) v (committed rho)) v rho) v) := by
    rw [foldReach_of_unfolded h, getV_lockFold, getV_updV_same]
  rw [hlock]
  exact read_view hfree (fun z => ringless (withFolded rho z)) fun _ => rfl

end

/-- A Valley without what a fold changes. -/
def unfoldedView (x : Valley) : Valley :=
  { x with reaches := [], pend := [], commHold := [], retained := [], chains := [], outs := [] }

theorem alike_foldReach (m : Mem) (e : Eng) (v rho : Nat) : Alike regionView unfoldedView v e (foldReach m e v rho) := by
  by_cases h : (getReach (getV e v) rho).st = .folded
  · rw [foldReach_of_folded h]
    exact .refl _ _ _ _
  · obtain ⟨hvalleys, hregions⟩ := mergeReach_valleys m e v rho
    have hmerge : Alike regionView unfoldedView v e (mergeReach m e v rho) :=
      Alike.trans (f := updV e v (unpended rho)) (.change e (k := unpended rho) fun _ => rfl)
        (.of_valleys (congrArg (fun r => ({ regions := r } : Eng)) hregions) hvalleys)
    have hfree : Alike regionView unfoldedView v (updV (mergeReach m e v rho) v (committed rho))
        (freeRetained (updV (mergeReach m e v rho) v (committed rho)) v rho) :=
      Alike.trans (.change _ (k := unretained rho) fun _ => rfl) ((alike_freeRetained (updV (mergeReach m e v rho) v (committed rho)) v rho).weaken
        (fun _ _ h => h) fun _ _ h => read_view h unfoldedView fun _ => rfl)
    rw [foldReach_of_unfolded h]
    exact hmerge.trans (.trans (.change _ (k := committed rho) fun _ => rfl) (hfree.trans
      (.trans (.change _ (k := withFolded rho) fun _ => rfl) (alike_lockFold _ _ _ _ _))))

/-- A Reach after it was to be folded. -/
def afterFold (step : W64) (r : SReach) : SReach := if r.st = .folded then r else foldedReach step r

theorem folded_afterFold (step : W64) (r : SReach) : (afterFold step r).st = .folded := by
  unfold afterFold
  split
  · assumption
  · rfl

theorem afterFold_idem (step step' : W64) (r : SReach) : afterFold step' (afterFold step r) = afterFold step r :=
  if_pos (folded_afterFold step r)

theorem getReach_foldReach (m : Mem) (e : Eng) (v rho j : Nat) :
    getReach (getV (foldReach m e v rho) v) j =
      if j = rho then afterFold (getV e v).step (getReach (getV e v) rho) else getReach (getV e v) j := by
  by_cases h : (getReach (getV e v) rho).st = .folded
  · rw [foldReach_of_folded h, afterFold, if_pos h]
    split
    · next hj => rw [hj]
    · rfl
  · have hr : getReach (getV (foldReach m e v rho) v) j = getReach (foldedValley rho (getV e v)) j :=
      read_view (getV_foldReach (m := m) h) (getReach · j) fun _ => rfl
    rw [hr, afterFold, if_neg h]
    by_cases hj : j = rho
    · rw [hj, if_pos rfl, getReach_foldedValley_same]
    · rw [if_neg hj, getReach_foldedValley_ne hj]

/-! ## Several Reaches -/

theorem alike_foldReaches (m : Mem) (e : Eng) (v : Nat) (rs : List Nat) :
    Alike regionView unfoldedView v e (foldReaches m e v rs) := .foldl (fun _ _ => alike_foldReach _ _ _ _) _ _

theorem step_of_alike {v : Nat} {e f : Eng} (h : Alike regionView unfoldedView v e f) : (getV f v).step = (getV e v).step :=
  read_view h.here Valley.step fun _ => rfl

theorem getReach_foldReaches (m : Mem) (v j : Nat) (rs : List Nat) (e : Eng) :
    getReach (getV (foldReaches m e v rs) v) j =
      if j ∈ rs then afterFold (getV e v).step (getReach (getV e v) j) else getReach (getV e v) j := by
  induction rs generalizing e with
  | nil => rfl
  | cons r rs ih =>
    show getReach (getV (foldReaches m (foldReach m e v r) v rs) v) j = _
    rw [ih, step_of_alike (alike_foldReach m e v r), getReach_foldReach]
    by_cases h : j = r
    · subst h
      rw [if_pos rfl, afterFold_idem, ite_self, if_pos (List.mem_cons_self ..)]
    · simp only [List.mem_cons, h, false_or, if_false]

/-! ## Digests of the senders -/

theorem find_setAll (ss : Tab SealEnt) (t : Tab W64) (d : Nat) :
    (Tab.find ss d = none → Tab.find (ss.foldl (fun t s => Tab.set t s.1 s.2.digest) t) d = Tab.find t d) ∧
    ((ss.map (·.1)).Nodup → ∀ sl, Tab.find ss d = some sl →
      Tab.find (ss.foldl (fun t s => Tab.set t s.1 s.2.digest) t) d = some sl.digest) := by
  induction ss generalizing t with
  | nil => exact ⟨fun _ => rfl, fun _ sl h => by cases h⟩
  | cons y ss ih =>
    obtain ⟨k, x⟩ := y
    obtain ⟨hnone, hsome⟩ := ih (Tab.set t k x.digest)
    rw [List.foldl_cons]
    by_cases hd : d = k
    · subst hd
      have hx : Tab.find ((d, x) :: ss) d = some x := by simp [Tab.find]
      refine ⟨fun h => (nomatch hx.symm.trans h), fun hn sl h => ?_⟩
      have hrest : Tab.find ss d = none := by
        cases hr : Tab.find ss d with
        | none => rfl
        | some z => exact absurd (List.mem_map_of_mem (Tab.mem_of_find hr)) (List.nodup_cons.1 hn).1
      rw [hx] at h
      cases h
      rw [hnone hrest, Tab.find_set, if_pos rfl]
    · have hy : Tab.find ((k, x) :: ss) d = Tab.find ss d := by simp [Tab.find, hd]
      rw [hy]
      refine ⟨fun h => ?_, fun hn sl h => hsome (List.nodup_cons.1 hn).2 sl h⟩
      rw [hnone h, Tab.find_set, if_neg hd]

/-! ## Fold transactions -/

theorem deliver_reachFold {m : Mem} {e : Eng} {v sender : Nat} {epoch : W64} (b : Bool) (rs : List Nat)
    (h : epoch = (getV e v).epoch) :
    deliver m e v sender epoch (.reachFold b rs) = commitStep m (onReachFold m e v rs) v := by
  have hd : deliver m e v sender epoch (.reachFold b rs) =
      commitStep m (if epoch = (getV e v).epoch then onReachFold m e v rs else e) v := rfl
  rw [hd, if_pos h]

theorem deliver_landingFold {m : Mem} {e : Eng} {v sender : Nat} {epoch : W64} (b : Bool) (h : epoch = (getV e v).epoch) :
    deliver m e v sender epoch (.landingFold b) = commitStep m (onLandingFold m e v) v := by
  have hd : deliver m e v sender epoch (.landingFold b) =
      commitStep m (if epoch = (getV e v).epoch then onLandingFold m e v else e) v := rfl
  rw [hd, if_pos h]

theorem deliver_crossingFold {m : Mem} {e : Eng} {v sender : Nat} {epoch : W64} (b : Bool) (h : epoch = (getV e v).epoch) :
    deliver m e v sender epoch (.crossingFold b) = commitStep m (onCrossingFold m e v) v := by
  have hd : deliver m e v sender epoch (.crossingFold b) =
      commitStep m (if epoch = (getV e v).epoch then onCrossingFold m e v else e) v := rfl
  rw [hd, if_pos h]

/-- One number of a reach fold: a Reach that is not folded yet is folded. -/
def foldNamed (m : Mem) (v n : Nat) (e : Eng) (r : Nat) : Eng :=
  if n ≤ r ∨ (getReach (getV e v) r).st = .folded then drop e 19 else foldReach m e v r

theorem onReachFold_of_running {e : Eng} {v : Nat} (m : Mem) (rs : List Nat) (h : (getV e v).phase ≠ .halted) :
    onReachFold m e v rs = rs.foldl (foldNamed m v (reachList e v).length) e :=
  if_neg (by rw [ignored, decide_eq_false h]; exact Bool.false_ne_true)

theorem alike_foldNamed (m : Mem) (v n : Nat) (e : Eng) (r : Nat) :
    Alike regionView unfoldedView v e (foldNamed m v n e r) := by
  unfold foldNamed
  split
  · exact .of_valleys rfl rfl
  · exact alike_foldReach _ _ _ _

theorem getReach_foldNamed (m : Mem) (v n j : Nat) (e : Eng) (r : Nat) :
    getReach (getV (foldNamed m v n e r) v) j =
      if j = r ∧ j < n then afterFold (getV e v).step (getReach (getV e v) j) else getReach (getV e v) j := by
  unfold foldNamed
  split
  · next h =>
    show getReach (getV e v) j = _
    split
    · next hj =>
      obtain ⟨rfl, hlt⟩ := hj
      exact (if_pos (h.resolve_left (Nat.not_le.2 hlt))).symm
    · rfl
  · next h =>
    rw [not_or, Nat.not_le] at h
    rw [getReach_foldReach]
    by_cases hj : j = r
    · subst hj
      rw [if_pos rfl, if_pos ⟨rfl, h.1⟩]
    · rw [if_neg hj, if_neg fun hc => hj hc.1]

theorem getReach_foldNamedAll (m : Mem) (v n j : Nat) (rs : List Nat) (e : Eng) :
    getReach (getV (rs.foldl (foldNamed m v n) e) v) j =
      if j ∈ rs ∧ j < n then afterFold (getV e v).step (getReach (getV e v) j) else getReach (getV e v) j := by
  induction rs generalizing e with
  | nil => simp
  | cons r rs ih =>
    rw [List.foldl_cons, ih, step_of_alike (alike_foldNamed m v n e r), getReach_foldNamed]
    by_cases hn : j < n
    · simp only [hn, and_true, List.mem_cons]
      by_cases h : j = r
      · rw [if_pos h, if_pos (Or.inl h), afterFold_idem, ite_self]
      · simp only [h, false_or, if_false]
    · simp only [hn, and_false, if_false]

/-- A Valley whose landing fold is remembered, and one whose crossing fold is. -/
def landed (x : Valley) : Valley := { x with landFold := true }
def crossed (x : Valley) : Valley := { x with landFold := true, crossFold := true }

/-- The landing Reaches are folded, and all Reaches are. -/
def landingFolded (m : Mem) (e : Eng) (v : Nat) : Eng := updV (foldReaches m e v (landingReaches e v)) v landed
def crossingFolded (m : Mem) (e : Eng) (v : Nat) : Eng :=
  updV (foldReaches m e v ((reachList e v).map (·.num))) v crossed

theorem landingFolded_spec (m : Mem) (e : Eng) (v : Nat) :
    (getV (landingFolded m e v) v).landFold = true ∧
    (getV (landingFolded m e v) v).crossFold = (getV e v).crossFold ∧
    (getV (landingFolded m e v) v).epoch = (getV e v).epoch ∧
    ∀ j, getReach (getV (landingFolded m e v) v) j =
      if j ∈ landingReaches e v then afterFold (getV e v).step (getReach (getV e v) j) else getReach (getV e v) j := by
  have halike := alike_foldReaches m e v (landingReaches e v)
  rw [landingFolded, getV_updV_same]
  exact ⟨rfl, read_view halike.here Valley.crossFold fun _ => rfl, read_view halike.here Valley.epoch fun _ => rfl,
    fun j => getReach_foldReaches m v j (landingReaches e v) e⟩

theorem crossingFolded_spec (m : Mem) (e : Eng) (v : Nat) :
    (getV (crossingFolded m e v) v).landFold = true ∧ (getV (crossingFolded m e v) v).crossFold = true ∧
    (getV (crossingFolded m e v) v).epoch = (getV e v).epoch ∧
    ∀ r ∈ reachList e v, getReach (getV (crossingFolded m e v) v) r.num =
      afterFold (getV e v).step (getReach (getV e v) r.num) := by
  have halike := alike_foldReaches m e v ((reachList e v).map (·.num))
  rw [crossingFolded, getV_updV_same]
  exact ⟨rfl, rfl, read_view halike.here Valley.epoch fun _ => rfl, fun r hr =>
    (getReach_foldReaches m v r.num ((reachList e v).map fun i : ReachInfo => i.num) e).trans
      (if_pos (List.mem_map_of_mem hr))⟩

theorem onLandingFold_of_again {e : Eng} {v : Nat} (m : Mem)
    (h : (getV e v).phase = .halted ∨ (getV e v).landFold = true) : onLandingFold m e v = drop e 19 :=
  if_pos (h.imp_left fun hp => decide_eq_true hp)

theorem onLandingFold_of_first {e : Eng} {v : Nat} (m : Mem) (hp : (getV e v).phase ≠ .halted)
    (hf : (getV e v).landFold = false) :
    onLandingFold m e v = landingFolded m e v :=
  if_neg (by
    rw [ignored, decide_eq_false hp, hf]
    rintro (hc | hc) <;> cases hc)

theorem onCrossingFold_of_again {e : Eng} {v : Nat} (m : Mem)
    (h : (getV e v).phase = .halted ∨ (getV e v).crossFold = true) : onCrossingFold m e v = drop e 19 :=
  if_pos (h.imp_left fun hp => decide_eq_true hp)

theorem onCrossingFold_of_first {e : Eng} {v : Nat} (m : Mem) (hp : (getV e v).phase ≠ .halted)
    (hf : (getV e v).crossFold = false) :
    onCrossingFold m e v = crossingFolded m e v :=
  if_neg (by
    rw [ignored, decide_eq_false hp, hf]
    rintro (hc | hc) <;> cases hc)

/-- What a fold leaves of a Reach: it is folded, with the digest that it had committed or that was pending. -/
theorem afterFold_spec (step : W64) (r : SReach) : (afterFold step r).st = .folded ∧
    (r.st = .folded → afterFold step r = r) ∧
    (r.st ≠ .folded → (afterFold step r).comm = (if r.unbuilt then r.comm else r.pend)) :=
  ⟨folded_afterFold _ _, fun h => if_pos h, fun h => by rw [afterFold, if_neg h]; rfl⟩

/-! ## The union of folds (R93) -/

/-- The summaries of the current epoch from live members. -/
def unionOf (x : Valley) : List Summary := x.summaries.filter fun s => decide (s.epoch = x.epoch) && isLive x s.sender

/-- Does a summary show a Reach folded? -/
def shownIn (ss : List Summary) (r : Nat) : Bool := ss.any fun s =>
  decide (r < s.first.toNat) || (decide (s.first.toNat ≤ r) && bit s.bitmap (r - s.first.toNat))

/-- The landing Reaches are folded when a summary says so and they were not. -/
def unionLanding (m : Mem) (e : Eng) (v : Nat) : Eng :=
  if (unionOf (getV e v)).any (·.landing) && !(getV e v).landFold then
    landingFolded m e v
  else e

theorem applyUnion_of_crossing {e : Eng} {v : Nat} (m : Mem) (h : (unionOf (getV e v)).any (·.crossing) = true) :
    applyUnion m e v = crossingFolded m e v := if_pos h

theorem applyUnion_of_reaches {e : Eng} {v : Nat} (m : Mem) (h : (unionOf (getV e v)).any (·.crossing) = false) :
    applyUnion m e v = foldReaches m (unionLanding m e v) v
      (((reachList e v).map (·.num)).filter (shownIn (unionOf (getV e v)))) :=
  if_neg (by rw [← Bool.not_eq_true] at h; exact h)

theorem unionLanding_spec (m : Mem) (e : Eng) (v : Nat) :
    (getV (unionLanding m e v) v).crossFold = (getV e v).crossFold ∧
    (getV (unionLanding m e v) v).landFold = ((getV e v).landFold || (unionOf (getV e v)).any (·.landing)) ∧
    ∀ j, getReach (getV (unionLanding m e v) v) j =
      if (unionOf (getV e v)).any (·.landing) = true ∧ (getV e v).landFold = false ∧ j ∈ landingReaches e v then
        afterFold (getV e v).step (getReach (getV e v) j) else getReach (getV e v) j := by
  unfold unionLanding
  split
  · next h =>
    rw [Bool.and_eq_true, Bool.not_eq_true'] at h
    obtain ⟨hl, hf⟩ := h
    obtain ⟨hland, hcross, -, hj⟩ := landingFolded_spec m e v
    refine ⟨hcross, by rw [hland, hl, Bool.or_true], fun j => ?_⟩
    simp only [hl, hf, true_and]
    exact hj j
  · next h =>
    refine ⟨rfl, ?_, fun j => (if_neg fun hc => h (by rw [hc.1, hc.2.1]; rfl)).symm⟩
    cases hf : (getV e v).landFold with
    | true => rw [Bool.true_or]
    | false =>
      rw [hf, Bool.not_false, Bool.and_true] at h
      rw [Bool.false_or, eq_false_of_ne_true h]

/-- Settles O32: one Reach, the three fold transactions, and the union of what the summaries show. -/
theorem foldCommitsReach : Obligations.FoldCommitsReach := by
  refine ⟨fun m e v rho => ⟨foldReach_of_folded, fun h => ?_⟩, fun p s v hacc ht hs he => ?_, fun m e v => ⟨fun h => ?_, fun h => ?_⟩⟩
  · have hhere := getV_foldReach (m := m) h
    have halike := alike_foldReach m e v rho
    have hread {α : Type} (k : Valley → α) (hk : ∀ z, k (ringless z) = k z) :
        k (getV (foldReach m e v rho) v) = k (foldedValley rho (getV e v)) := read_view hhere k hk
    have hreach (j : Nat) := getReach_foldReach m e v rho j
    have hdig (d : Nat) := find_setAll (getHold (getV e v) rho).seals (Tab.get [] (getV e v).commHold rho) d
    have hcomm (j : Nat) : Tab.get [] (getV (foldReach m e v rho) v).commHold j =
        if j = rho then sealDigests rho (getV e v) else Tab.get [] (getV e v).commHold j := by
      rw [hread Valley.commHold fun _ => rfl, commHold_foldedValley, Tab.get_set]
    have hown := (hreach rho).trans ((if_pos rfl).trans (if_neg h))
    have hret : (getV (foldReach m e v rho) v).retained = (getV e v).retained.filter fun r => decide (r.reach ≠ rho) :=
      (hread Valley.retained fun _ => rfl).trans (retained_foldedValley _ _)
    rw [hown, hret]
    refine ⟨rfl, rfl, rfl, ?_, fun r hr => ?_, fun r hr hn => ?_, fun j hj => ?_, read_view halike.here Valley.epoch fun _ => rfl,
      read_view halike.here Valley.phase fun _ => rfl, fun hn d sl hf => ?_, fun d hf => ?_, fun j hj => ?_, halike.others⟩
    · rw [hread (pendTiles · rho) fun _ => rfl, pendTiles_foldedValley]
    · exact of_decide_eq_true (List.mem_filter.1 hr).2
    · exact List.mem_filter.2 ⟨hr, decide_eq_true hn⟩
    · rw [hreach, if_neg hj]
    · rw [hcomm, if_pos rfl]
      exact (hdig d).2 hn sl hf
    · rw [hcomm, if_pos rfl]
      exact (hdig d).1 hf
    · rw [hcomm, if_neg hj]
  · have hv := getV_heard s.eng v (hdrOf p).sender
    have hregs : (heard s.eng v (hdrOf p).sender).regions = s.eng.regions := by
      obtain ⟨win, res, hh⟩ := heard_eq s.eng v (hdrOf p).sender
      rw [hh]
      rfl
    have hep : (hdrOf p).epoch = (getV (heard s.eng v (hdrOf p).sender) v).epoch := by rw [hv]; exact he
    have hreach (j : Nat) : getReach (getV (heard s.eng v (hdrOf p).sender) v) j = getReach (getV s.eng v) j := by
      rw [hv]; rfl
    have hphase : (getV (heard s.eng v (hdrOf p).sender) v).phase = (getV s.eng v).phase := by rw [hv]
    have hland : (getV (heard s.eng v (hdrOf p).sender) v).landFold = (getV s.eng v).landFold := by rw [hv]
    have hcross : (getV (heard s.eng v (hdrOf p).sender) v).crossFold = (getV s.eng v).crossFold := by rw [hv]
    have hepoch : (getV (heard s.eng v (hdrOf p).sender) v).epoch = (getV s.eng v).epoch := by rw [hv]
    have hlist := reachList_congr hregs v
    have hlanding := landingReaches_congr hregs v
    obtain ⟨-, -, -, -, -, -, -, -, hfold, -⟩ := acceptedPacketsAct.1 p 0 s v hacc
    obtain ⟨hrf, hlf, hcf, -⟩ := hfold ht (by rw [hv]; exact hs)
    refine ⟨fun hk hp => ?_, fun hk hp => ?_, fun hk hp hf => ?_, fun hk hp => ?_, fun hk hp hf => ?_, fun hk hp => ?_⟩
    · have halike := Alike.foldl (fun e r => alike_foldNamed s.mem v (reachList s.eng v).length e r)
        ((entryWords p (hdrOf p).count).map fun w => fld w 0 32) (heard s.eng v (hdrOf p).sender)
      have hget (j : Nat) := getReach_foldNamedAll s.mem v (reachList s.eng v).length j
        ((entryWords p (hdrOf p).count).map fun w => fld w 0 32) (heard s.eng v (hdrOf p).sender)
      rw [hrf hk, deliver_reachFold _ _ hep, onReachFold_of_running _ _ (by rw [hphase]; exact hp), hlist]
      refine ⟨_, rfl, fun r hr hn => ?_, fun r hr => ?_, (read_view halike.here Valley.epoch fun _ => rfl).trans hepoch⟩
      · dsimp only
        rw [hget, if_pos ⟨hr, hn⟩, hreach]
        exact afterFold_spec _ _
      · rw [hget, if_neg fun hc => hr hc.1, hreach]
    · rw [hrf hk, deliver_reachFold _ _ hep]
      have hd : onReachFold s.mem (heard s.eng v (hdrOf p).sender) v ((entryWords p (hdrOf p).count).map fun w => fld w 0 32) =
          drop (heard s.eng v (hdrOf p).sender) 19 := if_pos (decide_eq_true (hphase.trans hp))
      rw [hd]
    · obtain ⟨h1, -, h3, h4⟩ := landingFolded_spec s.mem (heard s.eng v (hdrOf p).sender) v
      rw [hlanding] at h4
      rw [hlf hk, deliver_landingFold _ hep, onLandingFold_of_first _ (by rw [hphase]; exact hp) (by rw [hland]; exact hf)]
      refine ⟨_, rfl, h1, fun r hr => ?_, fun r hr => ((h4 r).trans (if_neg hr)).trans (hreach r), h3.trans hepoch⟩
      have hr' := (h4 r).trans (if_pos hr)
      rw [hreach] at hr'
      dsimp only
      rw [hr']
      exact afterFold_spec _ _
    · rw [hlf hk, deliver_landingFold _ hep, onLandingFold_of_again _ (by rw [hphase, hland]; exact hp)]
    · obtain ⟨h1, h2, h3, h4⟩ := crossingFolded_spec s.mem (heard s.eng v (hdrOf p).sender) v
      rw [hlist] at h4
      rw [hcf hk, deliver_crossingFold _ hep, onCrossingFold_of_first _ (by rw [hphase]; exact hp) (by rw [hcross]; exact hf)]
      refine ⟨_, rfl, h1, h2, fun r hr => ?_, h3.trans hepoch⟩
      have hr' := h4 r hr
      rw [hreach] at hr'
      dsimp only
      rw [hr']
      exact afterFold_spec _ _
    · rw [hcf hk, deliver_crossingFold _ hep, onCrossingFold_of_again _ (by rw [hphase, hcross]; exact hp)]
  · obtain ⟨h1, h2, -, h4⟩ := crossingFolded_spec m e v
    rw [applyUnion_of_crossing m h]
    exact ⟨h1, h2, fun r hr => by rw [h4 r hr]; exact folded_afterFold _ _⟩
  · obtain ⟨hcross, hland, hget⟩ := unionLanding_spec m e v
    have halike := alike_foldReaches m (unionLanding m e v) v
      (((reachList e v).map (·.num)).filter (shownIn (unionOf (getV e v))))
    dsimp only
    rw [applyUnion_of_reaches m h]
    refine ⟨(read_view halike.here Valley.crossFold fun _ => rfl).trans hcross,
      (read_view halike.here Valley.landFold fun _ => rfl).trans hland, fun r hr => ?_⟩
    have hmem : r.num ∈ ((reachList e v).map (·.num)).filter (shownIn (unionOf (getV e v))) ↔
        shownIn (unionOf (getV e v)) r.num = true := by
      rw [List.mem_filter, and_iff_right (List.mem_map_of_mem hr)]
    rw [getReach_foldReaches, hget]
    simp only [hmem]
    generalize getReach (getV e v) r.num = y
    by_cases hsh : shownIn (unionOf (getV e v)) r.num = true
    · rw [if_pos hsh]
      exact ⟨⟨fun _ => .inr (.inl hsh), fun _ => folded_afterFold _ _⟩, fun hn => absurd (folded_afterFold _ _) hn⟩
    · rw [if_neg hsh]
      split
      · next hl => exact ⟨⟨fun _ => .inr (.inr hl), fun _ => folded_afterFold _ _⟩, fun hn => absurd (folded_afterFold _ _) hn⟩
      · next hl => exact ⟨⟨.inl, fun hc => hc.resolve_right fun h' => h'.elim hsh hl⟩, fun _ => rfl⟩

end Sys2Proof.Machine

/-!
The end of a Valley's runs (R128, R133, R145), and what it leaves of the Valley.
-/

namespace Sys2Proof.Machine

/-- A Valley without the runs that have ended. -/
def oldless (x : Valley) : Valley := { x with oldRuns := [] }

/-- A Valley without its runs and what they count. -/
def runless (x : Valley) : Valley := { x with runs := [], oldRuns := [], hops := [] }

theorem Alike.ofAnswers {e f : Eng} (h : OnlyAnswers e f) (π : Valley → Valley) (v : Nat) : Alike answerView π v e f :=
  .of_valleys h.view h.valleys

/-- The run of a CONTRACT that takes over the pages of one that ends (R145). -/
def heirOf (x : Valley) (r : Run) : Option Run :=
  x.runs.find? fun q => decide (q.ident ≠ r.ident ∧ q.kind = .contract ∧ q.cmd = r.cmd)

/-- A Valley in which a run has ended. -/
def runEnded (r : Run) (x : Valley) : Valley :=
  { x with
      runs := (x.runs.filter fun q => decide (q.ident ≠ r.ident)).map fun q =>
        if some q.ident = (heirOf x r).map Run.ident then { q with pages := r.pages ++ q.pages } else q
      oldRuns := { r with recv := [], kept := [], pages := [] } :: x.oldRuns.filter fun q => decide (q.ident ≠ r.ident)
      hops := x.hops.filter fun h => !(r.groups.map (·.ident)).contains (h.ident / 4 * 4) }

/-- The engine in which a run has ended, before its command is answered. -/
def runOut (e : Eng) (v : Nat) (r : Run) : Eng :=
  if (heirOf (getV e v) r).isSome then updV e v (runEnded r) else freeBasin (updV e v (runEnded r)) r.pages

theorem alike_runOut (e : Eng) (v : Nat) (r : Run) : Alike answerView oldless v (updV e v (runEnded r)) (runOut e v r) := by
  unfold runOut
  split
  · exact .refl _ _ _ _
  · exact .of_valleys rfl rfl

/-- The sums of the counters of a CONTRACT's entries, which are answered together. -/
def contractSums (m : Mem) (e : Eng) (v : Nat) (c : Cmd) : List (Nat × Nat × Nat × Nat) :=
  ((getV e v).oldRuns.filter fun q => decide (q.cmd = some c)).map (runWords m e v)

/-- The command of a run that has ended is answered, that of a CONTRACT with its last entry. -/
def answerRun (m : Mem) (e : Eng) (v : Nat) (r : Run) (st : W16) : Eng :=
  match r.cmd with
  | none => e
  | some c =>
    match r.kind with
    | .contract =>
      if (getV e v).runs.any fun q => decide (q.cmd = some c) then e
      else
        reply (updV e v fun x => { x with oldRuns := x.oldRuns.map fun q => if q.cmd = some c then { q with cmd := none } else q })
          c st (pack [(0, ((contractSums m e v c).map (·.1)).sum), (32, ((contractSums m e v c).map (·.2.1)).sum)])
          (pack [(0, ((contractSums m e v c).map (·.2.2.1)).sum)])
    | _ =>
      reply e c st (pack [(0, (runWords m e v r).1), (32, (runWords m e v r).2.1)])
        (pack [(0, (runWords m e v r).2.2.1), (32, (runWords m e v r).2.2.2)])

theorem endRun_eq (m : Mem) (e : Eng) (v : Nat) (r : Run) (st : W16) :
    endRun m e v r st = answerRun m (runOut e v r) v r st := rfl

theorem alike_answerRun (m : Mem) (e : Eng) (v : Nat) (r : Run) (st : W16) :
    Alike answerView oldless v e (answerRun m e v r st) := by
  unfold answerRun
  split
  · exact .refl _ _ _ _
  · split
    · split
      · exact .refl _ _ _ _
      · exact Alike.trans (.updV rfl rfl) (.ofAnswers (onlyAnswers_reply _ _ _ _ _) _ _)
    · exact .ofAnswers (onlyAnswers_reply _ _ _ _ _) _ _

theorem alike_endRun (m : Mem) (e : Eng) (v : Nat) (r : Run) (st : W16) :
    Alike answerView oldless v (updV e v (runEnded r)) (endRun m e v r st) :=
  endRun_eq m e v r st ▸ (alike_runOut e v r).trans (alike_answerRun m _ v r st)

theorem alike_auditDigests (m : Mem) (e : Eng) (v : Nat) (r : Run) (π : Valley → Valley) :
    Alike answerView π v e (auditDigests m e v r) := by
  unfold auditDigests
  split
  · exact .refl _ _ _ _
  · refine .foldl (fun e q => ?_) _ _
    dsimp only
    split
    · exact .refl _ _ _ _
    · exact .ofAnswers (onlyEvents_raise _ _ _ _ _ _).answers _ _

theorem alike_payAudits (m : Mem) (e : Eng) (v : Nat) : Alike answerView oldless v e (payAudits m e v) :=
  Alike.trans (.updV rfl rfl) (.foldl (fun _ _ => alike_auditDigests _ _ _ _ _) _ _)

theorem Alike.ofOldless {v : Nat} {e f : Eng} (h : Alike answerView oldless v e f) : Alike answerView runless v e f :=
  h.weaken (fun _ _ h => h) fun _ _ h => (congrArg runless h :)

/-- Ending every run of a Valley changes its runs, and else only what answers change. -/
theorem alike_endRuns (m : Mem) (e : Eng) (v : Nat) (st : W16) : Alike answerView runless v e (endRuns m e v st) :=
  Alike.trans (alike_payAudits m e v).ofOldless
    (.foldl (fun e r => Alike.trans (.updV rfl rfl) (alike_endRun m e v r st).ofOldless) _ _)

/-- The runs that are left have identities of those that were there, and not those that ended. -/
theorem runs_endRunList (m : Mem) (v : Nat) (st : W16) (rs : List Run) (e : Eng) :
    ∀ q ∈ (getV (rs.foldl (fun e r => endRun m e v r st) e) v).runs,
      (∃ r ∈ (getV e v).runs, r.ident = q.ident) ∧ ∀ r ∈ rs, r.ident ≠ q.ident := by
  induction rs generalizing e with
  | nil => exact fun q hq => ⟨⟨q, hq, rfl⟩, fun r hr => (nomatch hr)⟩
  | cons r rs ih =>
    intro q hq
    have hruns : (getV (endRun m e v r st) v).runs = (runEnded r (getV e v)).runs :=
      (congrArg Valley.runs (alike_endRun m e v r st).here :).trans (congrArg Valley.runs (getV_updV_same e v (runEnded r)) :)
    obtain ⟨⟨p, hp, hpq⟩, hrest⟩ := ih (endRun m e v r st) q hq
    rw [hruns] at hp
    obtain ⟨o, ho, rfl⟩ := List.mem_map.1 hp
    obtain ⟨ho, hne⟩ := List.mem_filter.1 ho
    have hid : o.ident = q.ident := by
      rw [← hpq]
      split <;> rfl
    refine ⟨⟨o, ho, hid⟩, fun r' hr' => ?_⟩
    rcases List.mem_cons.1 hr' with rfl | hr'
    · exact fun hc => of_decide_eq_true hne (hid.trans hc.symm)
    · exact hrest r' hr'

/-- No run is left. -/
theorem runs_endRuns (m : Mem) (e : Eng) (v : Nat) (st : W16) : (getV (endRuns m e v st) v).runs = [] := by
  have hpay : (getV (payAudits m e v) v).runs = (getV e v).runs := (congrArg Valley.runs (alike_payAudits m e v).here :)
  refine List.eq_nil_iff_forall_not_mem.2 fun q hq => ?_
  obtain ⟨⟨r, hr, hid⟩, hnone⟩ := runs_endRunList m v st (getV e v).runs (payAudits m e v) q hq
  rw [hpay] at hr
  exact hnone r hr hid

theorem reaches_endRuns (m : Mem) (e : Eng) (v : Nat) (st : W16) : (getV (endRuns m e v st) v).reaches = (getV e v).reaches :=
  (congrArg Valley.reaches (alike_endRuns m e v st).here :)

theorem regions_endRuns (m : Mem) (e : Eng) (v : Nat) (st : W16) : (endRuns m e v st).regions = e.regions :=
  (congrArg Eng.regions (alike_endRuns m e v st).eng :)

theorem spill_endRuns (m : Mem) (e : Eng) (v : Nat) (st : W16) : (endRuns m e v st).spill = e.spill :=
  (congrArg Eng.spill (alike_endRuns m e v st).eng :)

end Sys2Proof.Machine

/-!
CROSSING_OPEN and CROSSING_CLOSE (R59, R63, R85, R87, R90, R127, R204).
-/

namespace Sys2Proof.Machine

/-! ## Opening (R63) -/

/-- Reading a table whose entries were all changed, each by a change of its key's own that leaves the default. -/
theorem Tab.get_mapKey {α : Type} {d : α} {f : Nat → α → α} (hd : ∀ k, f k d = d) (t : Tab α) (k : Nat) :
    Tab.get d (t.map fun y => (y.1, f y.1 y.2)) k = f k (Tab.get d t k) := by
  induction t with
  | nil => exact (hd k).symm
  | cons p r ih =>
    obtain ⟨k', x⟩ := p
    by_cases h : k = k' <;> simp [Tab.get, h, ih]

/-- A Reach when a Crossing opens: one of the `others` that has not folded is clean, with nothing issued. -/
def reachOpened (others : List Nat) (i : Nat) (r : SReach) : SReach :=
  if others.contains i && decide (r.st ≠ .folded) then { r with st := .clean, issued := [], held := false } else r

theorem reachOpened_default (others : List Nat) (i : Nat) : reachOpened others i {} = {} := by
  unfold reachOpened
  split <;> rfl

/-- A Valley when a Crossing opens. -/
def valleyOpened (others : List Nat) (step : W64) (x : Valley) : Valley :=
  { x with
      step := step, phase := .opened, opened := true, openHere := true, fenced := false
      warden := { x.warden with landingB := x.warden.landingB || x.landFold }
      reaches := x.reaches.map fun y => (y.1, reachOpened others y.1 y.2) }

theorem getReach_valleyOpened (others : List Nat) (step : W64) (x : Valley) (j : Nat) :
    getReach (valleyOpened others step x) j = reachOpened others j (getReach x j) :=
  Tab.get_mapKey (reachOpened_default others) _ _

/-- The engine in which the Crossing's state stands and no Reach is sealed yet. -/
def openedUnsealed (m : Mem) (e : Eng) (v : Nat) (step : W64) : Eng :=
  updV (endRuns m e v stOK) v (valleyOpened (otherReaches (endRuns m e v stOK) v) step)

theorem openCrossing_eq (m : Mem) (e : Eng) (v : Nat) (step : W64) :
    ∃ ctl, openCrossing m e v step =
      { sealList (openedUnsealed m e v step) v (landingReaches (openedUnsealed m e v step) v) with ctl := ctl } := by
  have hmap : ∀ (others : List Nat) (t : Tab SReach), (t.map fun (i, r) =>
      if others.contains i && decide (r.st ≠ .folded) then (i, { r with st := .clean, issued := [], held := false })
      else (i, r)) = t.map fun y => (y.1, reachOpened others y.1 y.2) := by
    intro others t
    refine List.map_congr_left fun y _ => ?_
    obtain ⟨i, r⟩ := y
    exact (apply_ite (Prod.mk i) _ _ _).symm
  have hval (others : List Nat) : (fun x : Valley => { x with
      step := step, phase := .opened, opened := true, openHere := true, fenced := false
      warden := { x.warden with landingB := x.warden.landingB || x.landFold }
      reaches := x.reaches.map fun (i, r) =>
        if others.contains i && decide (r.st ≠ .folded) then (i, { r with st := .clean, issued := [], held := false })
        else (i, r) }) = valleyOpened others step := by
    funext x
    rw [valleyOpened, ← hmap others x.reaches]
  refine ⟨{ (sealList (openedUnsealed m e v step) v (landingReaches (openedUnsealed m e v step) v)).ctl with
    opened := true }, ?_⟩
  unfold openCrossing
  dsimp only
  rw [hval]
  rfl

section
variable (m : Mem) (e : Eng) (v : Nat) (step : W64)

theorem openedUnsealed_regions : (openedUnsealed m e v step).regions = e.regions := regions_endRuns m e v stOK

theorem getV_openedUnsealed : getV (openedUnsealed m e v step) v =
    valleyOpened (otherReaches e v) step (getV (endRuns m e v stOK) v) := by
  rw [openedUnsealed, getV_updV_same, otherReaches_congr (regions_endRuns m e v stOK)]

/-- The Valley of an opened Crossing, up to its rings and Reaches. -/
theorem getV_openCrossing : reachless (getV (openCrossing m e v step) v) =
    reachless (valleyOpened (otherReaches e v) step (getV (endRuns m e v stOK) v)) := by
  obtain ⟨ctl, h⟩ := openCrossing_eq m e v step
  rw [h, ← getV_openedUnsealed]
  exact (alike_sealList _ v _).here

theorem openCrossing_valley :
    (getV (openCrossing m e v step) v).phase = .opened ∧ (getV (openCrossing m e v step) v).step = step ∧
    (getV (openCrossing m e v step) v).opened = true ∧ (getV (openCrossing m e v step) v).openHere = true ∧
    (getV (openCrossing m e v step) v).fenced = false ∧
    (getV (openCrossing m e v step) v).epoch = (getV e v).epoch ∧ (getV (openCrossing m e v step) v).live = (getV e v).live := by
  have hhere := getV_openCrossing m e v step
  have hruns := (alike_endRuns m e v stOK).here
  generalize getV (openCrossing m e v step) v = y at hhere ⊢
  generalize getV (endRuns m e v stOK) v = x at hhere hruns
  exact ⟨read_view hhere Valley.phase fun _ => rfl, read_view hhere Valley.step fun _ => rfl,
    read_view hhere Valley.opened fun _ => rfl, read_view hhere Valley.openHere fun _ => rfl,
    read_view hhere Valley.fenced fun _ => rfl,
    (read_view hhere Valley.epoch fun _ => rfl).trans (read_view hruns Valley.epoch fun _ => rfl),
    (read_view hhere Valley.live fun _ => rfl).trans (read_view hruns Valley.live fun _ => rfl)⟩

theorem getReach_openCrossing (j : Nat) : getReach (getV (openCrossing m e v step) v) j =
    if j ∈ landingReaches e v then afterSeal (reachOpened (otherReaches e v) j (getReach (getV e v) j))
    else reachOpened (otherReaches e v) j (getReach (getV e v) j) := by
  obtain ⟨ctl, h⟩ := openCrossing_eq m e v step
  have hr := getReach_sealList v j (landingReaches (openedUnsealed m e v step) v) (openedUnsealed m e v step)
  rw [landingReaches_congr (openedUnsealed_regions m e v step), getV_openedUnsealed, getReach_valleyOpened,
    getReach_congr (reaches_endRuns m e v stOK)] at hr
  rw [h]
  exact (getReach_congr rfl j).trans (by rw [landingReaches_congr (openedUnsealed_regions m e v step)]; exact hr)

theorem openCrossing_spill : (openCrossing m e v step).spill = e.spill ∧ (openCrossing m e v step).regions = e.regions := by
  obtain ⟨ctl, h⟩ := openCrossing_eq m e v step
  have hseal := alike_sealList (openedUnsealed m e v step) v (landingReaches (openedUnsealed m e v step) v)
  rw [h]
  exact ⟨hseal.spill.trans (spill_endRuns m e v stOK), hseal.regions.trans (openedUnsealed_regions m e v step)⟩

end

theorem mayOpen_congr {e f : Eng} (hv : f.valleys = e.valleys) (hr : f.regions = e.regions) (v : Nat) (step : W64) (b : Bool) :
    mayOpen f v step b = mayOpen e v step b := by
  simp only [mayOpen, demandUnbuilt, getV_congr hv, reachList_congr hr, landingReaches_congr hr]

/-- The entry of CROSSING_OPEN. -/
def crossingOpen (m : Mem) (e : Eng) (c : Cmd) (p : BitVec 512) : Eng :=
  if !mayOpen e (pkValley p) (pkw p 1) (pkA p) then reply0 e c stOutOfRange
  else settleV m (reply0 (openCrossing m e (pkValley p) (pkw p 1)) c stOK) (pkValley p)

theorem crossingOpen_of_may {m : Mem} {e : Eng} {c : Cmd} {p : BitVec 512}
    (h : mayOpen e (pkValley p) (pkw p 1) (pkA p) = true) :
    crossingOpen m e c p = settleV m (reply0 (openCrossing m e (pkValley p) (pkw p 1)) c stOK) (pkValley p) :=
  if_neg (by rw [h]; decide)

theorem exec_crossingOpen (q : Fin 64) (s : State) :
    exec (.crossingOpen q) s = .next (runCmd q.val 0x20 s (crossingOpen s.mem)) := rfl

/-! ## Closing (R85, R87) -/

/-- A Valley whose Crossing closes for a command that waits. -/
def valleyClosing (c : Cmd) (x : Valley) : Valley :=
  { x with
      phase := .closing, closeWait := some c, closeEpoch := x.epoch
      closeRep := some { step := x.step, poisoned := x.poisoned } }

theorem closeCrossing_eq (e : Eng) (v : Nat) (c : Cmd) :
    closeCrossing e v c =
      queueCtl (updV (sealAll (closePartials e) v) v (valleyClosing c))
        [ctlTo (valleyClosing c (getV (sealAll (closePartials e) v) v)) v (wardenOf (getV (sealAll (closePartials e) v) v))
          (getV (sealAll (closePartials e) v) v).epoch (.close (getV (sealAll (closePartials e) v) v).step
            (getV (sealAll (closePartials e) v) v).poisoned)] := by
  have hctl : closeCrossing e v c =
      sendCtl (updV (sealAll (closePartials e) v) v (valleyClosing c)) v (wardenOf (getV (sealAll (closePartials e) v) v))
        (getV (sealAll (closePartials e) v) v).epoch (.close (getV (sealAll (closePartials e) v) v).step
          (getV (sealAll (closePartials e) v) v).poisoned) := rfl
  rw [hctl, sendCtl_eq, getV_updV_same]

theorem alike_sealed (e : Eng) (v : Nat) : Alike sealView reachless v e (sealAll (closePartials e) v) := by
  rw [sealAll_eq]
  exact (alike_closePartials e v).reachless.trans (alike_sealList _ _ _)

/-- Every Reach of the Valley is sealed or folded. -/
theorem unsealed_sealed {e : Eng} {v : Nat} {r : ReachInfo} (h : r ∈ reachList e v) :
    unsealed (getReach (getV (sealAll (closePartials e) v) v) r.num) = false := by
  have hlist : reachList (closePartials e) v = reachList e v := reachList_congr rfl v
  rw [sealAll_eq, hlist, getReach_sealList, if_pos (List.mem_map_of_mem h)]
  exact unsealed_afterSeal _

/-- The entry of CROSSING_CLOSE. -/
def crossingClose (m : Mem) (e : Eng) (c : Cmd) (p : BitVec 512) : Eng :=
  if isJoined (getV e (pkValley p)) ∧ (getV e (pkValley p)).phase = .halted then
    reply0 e c ((getV e (pkValley p)).refusal.getD stOutOfRange)
  else if !isJoined (getV e (pkValley p)) || decide ((getV e (pkValley p)).phase ≠ .opened) || exportKeeps (getV e (pkValley p))
  then reply0 e c stOutOfRange
  else settleV m (closeCrossing e (pkValley p) c) (pkValley p)

theorem crossingClose_of_open {m : Mem} {e : Eng} {c : Cmd} {p : BitVec 512} (hj : isJoined (getV e (pkValley p)) = true)
    (hp : (getV e (pkValley p)).phase = .opened) (hx : exportKeeps (getV e (pkValley p)) = false) :
    crossingClose m e c p = settleV m (closeCrossing e (pkValley p) c) (pkValley p) :=
  (if_neg (by rw [hp]; rintro ⟨-, hc⟩; cases hc)).trans (if_neg (by rw [hj, hp, hx]; decide))

theorem exec_crossingClose (q : Fin 64) (s : State) :
    exec (.crossingClose q) s = .next (runCmd q.val 0x21 s (crossingClose s.mem)) := rfl

/-- Settles O29: the opening by its ended runs, its Valley and its seals; the closing by its seals and its report. -/
theorem crossingOpensAndCloses : Obligations.CrossingOpensAndCloses := by
  refine ⟨fun q s p h => ?_, fun q s p h => ?_⟩
  · have hv := popHead_valleys s.eng q.val
    have hr := popHead_regions s.eng q.val
    have hmay : mayOpen (popHead s.eng q.val) (pkValley p) (pkw p 1) (pkA p) =
        mayOpen s.eng (pkValley p) (pkw p 1) (pkA p) := mayOpen_congr hv hr _ _ _
    have hget (w : Nat) := popHead_getV s.eng q.val w
    rw [exec_crossingOpen]
    refine ⟨fun hm => ?_, fun hm => ⟨_, rfl, h.onlyReplies ?_⟩⟩
    · obtain ⟨h1, h2, h3, h4, h5, h6, h7⟩ := openCrossing_valley s.mem (popHead s.eng q.val) (pkValley p) (pkw p 1)
      rw [hget] at h6 h7
      have hreach (j : Nat) := getReach_openCrossing s.mem (popHead s.eng q.val) (pkValley p) (pkw p 1) j
      simp only [landingReaches_congr hr, otherReaches_congr hr, hget] at hreach
      obtain ⟨hsp, hrg⟩ := openCrossing_spill s.mem (popHead s.eng q.val) (pkValley p) (pkw p 1)
      refine ⟨openCrossing s.mem (popHead s.eng q.val) (pkValley p) (pkw p 1), ?_, h1, h2, h3, h4, h5, h6, h7,
        fun r hr => ?_, fun r hr => ?_, hsp.trans (popHead_spill _ _), hrg.trans (popHead_regions _ _)⟩
      · rw [runCmd_of_taken h, crossingOpen_of_may (hmay.trans hm)]
      · have hmem : (otherReaches s.eng (pkValley p)).contains r = true := List.contains_iff_mem.2 hr
        rw [hreach, if_neg (not_mem_landingReaches hr), reachOpened, hmem]
        by_cases hf : (getReach (getV s.eng (pkValley p)) r).st = .folded
        · rw [if_neg (by rw [hf]; decide), if_pos hf]
          exact ⟨hf, fun hn => absurd hf hn⟩
        · rw [if_pos (by rw [Bool.true_and]; exact decide_eq_true hf), if_neg hf]
          exact ⟨rfl, fun _ => rfl⟩
      · rw [hreach, if_pos hr]
        exact unsealed_afterSeal _
    · rw [crossingOpen, hmay, hm]
      rfl
  · have hget (w : Nat) := popHead_getV s.eng q.val w
    rw [exec_crossingClose]
    refine ⟨fun hj hp hx => ?_, fun hj hp => ⟨_, rfl, h.onlyReplies ?_⟩, fun ho hh => ⟨_, rfl, h.onlyReplies ?_⟩⟩
    · have halike := alike_sealed (popHead s.eng q.val) (pkValley p)
      have hread {α : Type} (k : Valley → α) (hk : ∀ z, k (reachless z) = k z) :
          k (getV (sealAll (closePartials (popHead s.eng q.val)) (pkValley p)) (pkValley p)) = k (getV s.eng (pkValley p)) :=
        (read_view halike.here k hk).trans (by rw [hget])
      have hvalley : getV (closeCrossing (popHead s.eng q.val) (pkValley p) (cmdOf q.val p)) (pkValley p) = valleyClosing
          (cmdOf q.val p) (getV (sealAll (closePartials (popHead s.eng q.val)) (pkValley p)) (pkValley p)) := by
        rw [closeCrossing_eq, getV_queueCtl, getV_updV_same]
      refine ⟨closeCrossing (popHead s.eng q.val) (pkValley p) (cmdOf q.val p), ?_, ?_⟩
      · rw [runCmd_of_taken h, crossingClose_of_open (by rw [hget]; exact hj) (by rw [hget]; exact hp) (by rw [hget]; exact hx)]
      · rw [hvalley]
        refine ⟨rfl, rfl, hread Valley.epoch fun _ => rfl, ?_, fun r hr => ?_, ?_⟩
        · exact hread (fun z => some ({ step := z.step, poisoned := z.poisoned } : CloseRep)) fun _ => rfl
        · exact (congrArg unsealed (getReach_congr rfl r.num)).trans
            (unsealed_sealed (by rw [reachList_congr (popHead_regions _ _)]; exact hr))
        · have hmsg : ctlTo (valleyClosing (cmdOf q.val p) (getV (sealAll (closePartials (popHead s.eng q.val)) (pkValley p))
              (pkValley p))) (pkValley p) (wardenOf (getV (sealAll (closePartials (popHead s.eng q.val)) (pkValley p))
              (pkValley p))) (getV (sealAll (closePartials (popHead s.eng q.val)) (pkValley p)) (pkValley p)).epoch
              (.close (getV (sealAll (closePartials (popHead s.eng q.val)) (pkValley p)) (pkValley p)).step
                (getV (sealAll (closePartials (popHead s.eng q.val)) (pkValley p)) (pkValley p)).poisoned) =
              ctlTo (getV s.eng (pkValley p)) (pkValley p) (wardenOf (getV s.eng (pkValley p))) (getV s.eng (pkValley p)).epoch
                (.close (getV s.eng (pkValley p)).step (getV s.eng (pkValley p)).poisoned) :=
            hread (fun z => ctlTo z (pkValley p) (wardenOf z) z.epoch (.close z.step z.poisoned)) fun _ => rfl
          have hout : (readHead s.eng q.val).io.ctlOut = s.eng.io.ctlOut := (onlyCorrects_readHead _ _).ctlOut
          rw [closeCrossing_eq, hmsg, ← hout]
          exact congrArg (fun io : Io => { io with ctlOut := io.ctlOut ++ [ctlTo (getV s.eng (pkValley p)) (pkValley p)
            (wardenOf (getV s.eng (pkValley p))) (getV s.eng (pkValley p)).epoch
            (.close (getV s.eng (pkValley p)).step (getV s.eng (pkValley p)).poisoned)] }) halike.io
    · rw [crossingClose, hget, if_pos ⟨hj, hp⟩]
      rfl
    · rw [crossingClose, hget, if_neg (fun hc => hh hc.2), if_pos (by rw [decide_eq_true ho]; simp)]
      rfl

end Sys2Proof.Machine

/-!
What a ROLLBACK leaves of a Valley (R94).
-/

namespace Sys2Proof.Machine

/-! ## One Reach (R94, R229) -/

theorem lockBlock_eq (m : Mem) (e : Eng) (v rho line : Nat) (d : Line) :
    lockBlock m e v rho line d = { e with io := (lockBlock m e v rho line d).io } := by
  unfold lockBlock
  dsimp only
  split
  · rfl
  · rw [putBit_eq, accumBytes_eq]

theorem rollLock_eq (m : Mem) (e : Eng) (v : Nat) (r : ReachInfo) :
    rollLock m e v r = { e with io := (rollLock m e v r).io } := by
  refine foldl_io (fun e t => ?_) _ _
  split
  · exact lockBlock_eq _ _ _ _ _ _
  · rfl

/-- A Reach that is rolled back. -/
def rolledReach (s : SReach) : SReach := { s with st := .clean, issued := [], pend := s.comm, held := false }

/-- A Valley with one Reach rolled back. -/
def resetReach (rho : Nat) (x : Valley) : Valley := setReach x rho (rolledReach (getReach x rho))

/-- A Valley without the seals that are held for a Reach. -/
def unheld (rho : Nat) (x : Valley) : Valley := { x with hold := Tab.del x.hold rho, holdNext := Tab.del x.holdNext rho }

/-- A Valley once a Reach is rolled back, up to its rings. -/
def rolledValley (rho : Nat) (x : Valley) : Valley :=
  { x with
      retained := x.retained.filter fun r => decide (r.reach ≠ rho), chains := Tab.del x.chains rho
      reaches := Tab.set x.reaches rho (rolledReach (getReach x rho))
      pend := x.pend.filter fun p => decide (p.1 / 1048576 ≠ rho)
      hold := Tab.del x.hold rho, holdNext := Tab.del x.holdNext rho }

theorem rolledValley_eq (rho : Nat) (x : Valley) :
    rolledValley rho x = unheld rho (unpended rho (resetReach rho (unretained rho x))) := by
  simp only [rolledValley, unheld, unpended, resetReach, setReach, unretained, getReach]

theorem ringless_rolledValley (rho : Nat) (x : Valley) : rolledValley rho (ringless x) = ringless (rolledValley rho x) := rfl

/-- The retained blocks of a Reach are applied to the own data again. -/
def ownAgain (e : Eng) (v : Nat) (r : ReachInfo) : Eng :=
  ((getV e v).retained.filter fun t => decide (t.reach = r.num)).foldl (fun e t =>
    match decodeBlock (typeWidth r.typ) (16 * r.tiles) t.block with
    | some d => accumDiff e (r.base / 256 + t.line) d .plain
    | none => e) e

theorem ownAgain_eq (e : Eng) (v : Nat) (r : ReachInfo) : ownAgain e v r = { e with io := (ownAgain e v r).io } := by
  refine foldl_io (fun e t => ?_) _ _
  split
  · rw [accumDiff_eq]
  · rfl

theorem rollReach_eq (e : Eng) (v : Nat) (r : ReachInfo) :
    rollReach e v r = updV (forgetBlocks (dropPending (updReach (freeRetained (ownAgain e v r) v r.num) v r.num rolledReach)
      v r.num) v fun rho => decide (rho = r.num)) v (unheld r.num) := rfl

theorem getV_forgetBlocks (e : Eng) (v w : Nat) (p : Nat → Bool) : getV (forgetBlocks e v p) w = getV e w := rfl

theorem getV_dropPending (e : Eng) (v rho : Nat) : getV (dropPending e v rho) v = unpended rho (getV e v) :=
  (getV_congr (dropPending_valleys e v rho) v).trans (getV_updV_same _ _ _)

theorem getV_resetReach (e : Eng) (v rho : Nat) :
    getV (updReach e v rho rolledReach) v = resetReach rho (getV e v) := getV_updV_same _ _ _

theorem getV_rollReach (e : Eng) (v : Nat) (r : ReachInfo) :
    ringless (getV (rollReach e v r) v) = ringless (rolledValley r.num (getV e v)) := by
  have hown : getV (ownAgain e v r) v = getV e v := by rw [ownAgain_eq]; rfl
  have hfree := (alike_freeRetained (ownAgain e v r) v r.num).here
  rw [getV_updV_same, hown] at hfree
  rw [rollReach_eq, getV_updV_same, getV_forgetBlocks, getV_dropPending, getV_resetReach, rolledValley_eq]
  exact read_view hfree (fun z => ringless (unheld r.num (unpended r.num (resetReach r.num z)))) fun _ => rfl

theorem rollReach_regions (e : Eng) (v : Nat) (r : ReachInfo) : (rollReach e v r).regions = e.regions := by
  have hfree : (freeRetained (ownAgain e v r) v r.num).regions = (ownAgain e v r).regions :=
    (congrArg Eng.regions (alike_freeRetained (ownAgain e v r) v r.num).eng :)
  have hown : (ownAgain e v r).regions = e.regions := by rw [ownAgain_eq]
  rw [← hown, ← hfree, rollReach_eq]
  generalize freeRetained (ownAgain e v r) v r.num = f
  rfl

/-! ## What is left of a Reach -/

theorem getReach_rolledValley (rho j : Nat) (x : Valley) :
    getReach (rolledValley rho x) j = if j = rho then rolledReach (getReach x j) else getReach x j := by
  by_cases h : j = rho
  · subst h
    rw [if_pos rfl]
    exact getReach_setReach_same _ _ _
  · rw [if_neg h]
    exact getReach_setReach_ne h _ _

theorem has_del {α : Type} (t : Tab α) (rho j : Nat) : Tab.has (Tab.del t rho) j = (decide (j ≠ rho) && Tab.has t j) := by
  by_cases h : j = rho
  · subst h
    simp [Tab.has, Tab.find_del]
  · simp [Tab.has, Tab.find_del, h]

theorem pendTiles_rolledValley_ne {rho j : Nat} (h : j ≠ rho) (x : Valley) :
    pendTiles (rolledValley rho x) j = pendTiles x j := by
  have hf : (x.pend.filter fun p => decide (p.1 / 1048576 ≠ rho)).filter (fun p => decide (p.1 / 1048576 = j)) =
      x.pend.filter fun p => decide (p.1 / 1048576 = j) := by
    rw [List.filter_filter]
    refine List.filter_congr fun p _ => ?_
    by_cases hp : p.1 / 1048576 = j
    · simp [hp, h]
    · simp [hp]
  rw [pendTiles, pendTiles]
  exact congrArg (List.map _) hf

/-- Nothing of the Reach that was rolled back is left to roll back, and all of the others. -/
theorem rollLeftReach_rolledValley (rho j : Nat) (x : Valley) :
    rollLeftReach (rolledValley rho x) j = if j = rho then false else rollLeftReach x j := by
  have hret : (rolledValley rho x).retained = x.retained.filter fun r => decide (r.reach ≠ rho) := rfl
  have hhold : (rolledValley rho x).hold = Tab.del x.hold rho := rfl
  have hnext : (rolledValley rho x).holdNext = Tab.del x.holdNext rho := rfl
  have hchains : (rolledValley rho x).chains = Tab.del x.chains rho := rfl
  by_cases h : j = rho
  · subst h
    have hpend : pendTiles (rolledValley j x) j = [] :=
      (pendTiles_congr (x := unpended j x) rfl j).trans (pendTiles_unpended j x)
    rw [if_pos rfl, rollLeftReach, getReach_rolledValley, if_pos rfl, hret, hhold, hnext, hchains, has_del, has_del, has_del,
      hpend]
    simp [rolledReach]
  · have hany : (x.retained.filter fun r => decide (r.reach ≠ rho)).any (fun t => decide (t.reach = j)) =
        x.retained.any fun t => decide (t.reach = j) := by
      rw [List.any_filter]
      refine congrArg (List.any x.retained) (funext fun t => ?_)
      by_cases ht : t.reach = j
      · simp [ht, h]
      · simp [ht]
    rw [if_neg h, rollLeftReach, rollLeftReach, getReach_rolledValley, if_neg h, hret, hhold, hnext, hchains, has_del,
      has_del, has_del, pendTiles_rolledValley_ne h, hany, decide_eq_true h]
    rfl

/-! ## All Reaches -/

/-- A Valley once some Reaches are rolled back, up to its rings. -/
def rolledAll (rs : List Nat) (x : Valley) : Valley := rs.foldl (fun x rho => rolledValley rho x) x

theorem getReach_rolledAll (rs : List Nat) (j : Nat) (x : Valley) :
    getReach (rolledAll rs x) j = if j ∈ rs then rolledReach (getReach x j) else getReach x j := by
  induction rs generalizing x with
  | nil => rfl
  | cons rho rs ih =>
    refine (ih (rolledValley rho x)).trans ?_
    rw [getReach_rolledValley]
    by_cases h : j = rho
    · rw [if_pos h, if_pos (List.mem_cons.2 (.inl h)), show rolledReach (rolledReach (getReach x j)) =
        rolledReach (getReach x j) from rfl, ite_self]
    · simp only [List.mem_cons, h, false_or, if_false]

theorem rollLeftReach_rolledAll (rs : List Nat) (j : Nat) (x : Valley) :
    rollLeftReach (rolledAll rs x) j = if j ∈ rs then false else rollLeftReach x j := by
  induction rs generalizing x with
  | nil => rfl
  | cons rho rs ih =>
    refine (ih (rolledValley rho x)).trans ?_
    rw [rollLeftReach_rolledValley]
    by_cases h : j = rho
    · rw [if_pos h, ite_self, if_pos (List.mem_cons.2 (.inl h))]
    · simp only [List.mem_cons, h, false_or, if_false]

/-- What of a Valley no roll back changes: all but its rings, Reaches, pending tiles, held seals and retained records. -/
def rollView (x : Valley) : Valley :=
  { x with outs := [], reaches := [], pend := [], hold := [], holdNext := [], retained := [], chains := [] }

theorem rollView_rolledValley (rho : Nat) (x : Valley) : rollView (rolledValley rho x) = rollView x := rfl

theorem rollView_rolledAll (rs : List Nat) (x : Valley) : rollView (rolledAll rs x) = rollView x := by
  induction rs generalizing x with
  | nil => rfl
  | cons rho rs ih => exact (ih (rolledValley rho x)).trans (rollView_rolledValley rho x)

theorem ringless_rolledAll (rs : List Nat) (x : Valley) : ringless (rolledAll rs (ringless x)) = ringless (rolledAll rs x) := by
  induction rs generalizing x with
  | nil => rfl
  | cons rho rs ih =>
    have h := ih (rolledValley rho x)
    rw [← ringless_rolledValley] at h
    exact h

/-- The engine with some Reaches rolled back. -/
def rollReaches (m : Mem) (e : Eng) (v : Nat) (rs : List ReachInfo) : Eng :=
  rs.foldl (fun e r => rollReach (rollLock m e v r) v r) e

theorem rollReaches_spec (m : Mem) (v : Nat) (rs : List ReachInfo) (e : Eng) :
    ringless (getV (rollReaches m e v rs) v) = ringless (rolledAll (rs.map (·.num)) (getV e v)) ∧
    (rollReaches m e v rs).regions = e.regions := by
  induction rs generalizing e with
  | nil => exact ⟨rfl, rfl⟩
  | cons r rs ih =>
    obtain ⟨hv, hr⟩ := ih (rollReach (rollLock m e v r) v r)
    have hlock : getV (rollLock m e v r) v = getV e v ∧ (rollLock m e v r).regions = e.regions := by
      rw [rollLock_eq]
      exact ⟨rfl, rfl⟩
    have hone := getV_rollReach (rollLock m e v r) v r
    rw [hlock.1] at hone
    refine ⟨hv.trans ?_, hr.trans ((rollReach_regions _ v r).trans hlock.2)⟩
    exact read_view hone (fun z => ringless (rolledAll (rs.map (·.num)) z)) fun z => ringless_rolledAll _ z

/-! ## The Reaches of a Valley whose values are latched (R41, R254) -/

theorem insertBy_map {α β : Type} {f : α → Nat} {g : β → Nat} {k : α → β} (h : ∀ a, g (k a) = f a) (x : α) (l : List α) :
    insertBy g (k x) (l.map k) = (insertBy f x l).map k := by
  induction l with
  | nil => rfl
  | cons y r ih =>
    rw [List.map_cons, insertBy, insertBy, h, h, ih]
    split <;> rfl

theorem sortBy_map {α β : Type} {f : α → Nat} {g : β → Nat} {k : α → β} (h : ∀ a, g (k a) = f a) (l : List α) :
    sortBy g (l.map k) = (sortBy f l).map k := by
  induction l with
  | nil => rfl
  | cons x r ih => exact (congrArg (insertBy g (k x)) ih).trans (insertBy_map h x _)

theorem regionLatched_words (v : Nat) (r : Region) : (regionLatched v r).w0 = r.w0 ∧ (regionLatched v r).w1 = r.w1 := by
  unfold regionLatched
  split <;> exact ⟨rfl, rfl⟩

theorem regionLatched_place (v : Nat) (r : Region) : Region.empty (regionLatched v r) = Region.empty r ∧
    Region.valley (regionLatched v r) = Region.valley r ∧ Region.slot (regionLatched v r) = Region.slot r := by
  obtain ⟨h0, h1⟩ := regionLatched_words v r
  exact ⟨congrArg (fun w => decide (fld w 32 32 = 0)) h0, congrArg (fld · 0 4) h1, congrArg (fld · 32 10) h1⟩

theorem regionReaches_latched (v d : Nat) (r : Region) (n : Nat) :
    regionReaches d (regionLatched v r) n = regionReaches d r n := by
  obtain ⟨h0, h1⟩ := regionLatched_words v r
  simp only [regionReaches, Region.reachCode, Region.tiles, Region.slot, Region.base, Region.cls, Region.typ, h0, h1]

/-- A region of a descriptor, latched. -/
def latchedEntry (v : Nat) (x : Nat × Region) : Nat × Region := (x.1, regionLatched v x.2)

theorem valleyRegions_latch (e : Eng) (v : Nat) : valleyRegions (latch e v) v = (valleyRegions e v).map (latchedEntry v) := by
  have hfilter : (latch e v).regions.filter (fun x => !Region.empty x.2 && decide (Region.valley x.2 = v)) =
      (e.regions.filter fun x => !Region.empty x.2 && decide (Region.valley x.2 = v)).map (latchedEntry v) := by
    rw [latch_regions]
    refine List.filter_map.trans (congrArg (List.map _) (List.filter_congr fun x _ => ?_))
    rw [Function.comp_apply, (regionLatched_place v x.2).1, (regionLatched_place v x.2).2.1]
  rw [valleyRegions, hfilter]
  exact sortBy_map (k := latchedEntry v) (fun x => (regionLatched_place v x.2).2.2) _

theorem reachList_latch (e : Eng) (v : Nat) : reachList (latch e v) v = reachList e v := by
  rw [reachList, valleyRegions_latch, List.foldl_map, reachList]
  simp only [latchedEntry, regionReaches_latched]

/-! ## The whole (R94) -/

/-- The Reaches of the current epoch that are folded. -/
def foldedNums (e : Eng) (v : Nat) : List Nat :=
  ((reachList e v).filter fun r => decide ((getReach (getV e v) r.num).st = .folded)).map (·.num)

/-- A Valley whose warden and reports forget what did not fold. -/
def wardenRolled (fo : List Nat) (x : Valley) : Valley :=
  { x with warden := rollWarden x fo.isEmpty fo, closeRep := none, drainSent := false, landSent := x.landSent && x.landFold }

/-- A Valley whose Crossing counts as not opened. -/
def unopened (x : Valley) : Valley := { x with opened := false, openHere := false, poisoned := false, refusal := none }

/-- A Valley at the end of a ROLLBACK, after its Reaches. -/
def rollEnd (fo : List Nat) (x : Valley) : Valley :=
  if fo.isEmpty then latchValues (unopened (wardenRolled fo x)) else wardenRolled fo x

/-- The engine with the Reaches that have not folded rolled back and the windows empty. -/
def unfoldedRolled (m : Mem) (e : Eng) (v : Nat) : Eng := emptyWindows (rollReaches m e v (unfoldedReaches e v))

theorem rollBack_eq (m : Mem) (e : Eng) (v : Nat) : rollBack m e v =
    if (foldedNums (unfoldedRolled m e v) v).isEmpty then
      latch (updV (updV (unfoldedRolled m e v) v (wardenRolled (foldedNums (unfoldedRolled m e v) v))) v unopened) v
    else updV (unfoldedRolled m e v) v (wardenRolled (foldedNums (unfoldedRolled m e v) v)) := rfl

theorem rollEnd_warden (fo : List Nat) (x : Valley) :
    (rollEnd fo x).warden = rollWarden x fo.isEmpty fo ∧ (rollEnd fo x).landFold = x.landFold ∧
    (rollEnd fo x).crossFold = x.crossFold ∧ (rollEnd fo x).closeRep = none ∧ (rollEnd fo x).drainSent = false ∧
    (rollEnd fo x).landSent = (x.landSent && x.landFold) ∧ (rollEnd fo x).phase = x.phase := by
  unfold rollEnd
  split <;> exact ⟨rfl, rfl, rfl, rfl, rfl, rfl, rfl⟩

theorem rollEnd_unopened {fo : List Nat} (h : fo.isEmpty = true) (x : Valley) :
    (rollEnd fo x).opened = false ∧ (rollEnd fo x).openHere = false ∧ (rollEnd fo x).poisoned = false ∧
    (rollEnd fo x).refusal = none := by
  rw [rollEnd, if_pos h]
  exact ⟨rfl, rfl, rfl, rfl⟩

/-- A warden that has forgotten forgets nothing more. -/
theorem rollWarden_rollEnd (fo : List Nat) (x : Valley) :
    rollWarden (rollEnd fo x) fo.isEmpty fo = (rollEnd fo x).warden := by
  obtain ⟨hw, hl, hc, -⟩ := rollEnd_warden fo x
  cases h : fo.isEmpty with
  | true => rw [hw, h]; rfl
  | false =>
    rw [h] at hw
    rw [rollWarden, hw, hl, hc]
    cases hf : x.landFold <;> simp [rollWarden, hf]

theorem rollLeftReach_rollEnd (fo : List Nat) (x : Valley) (j : Nat) :
    rollLeftReach (rollEnd fo x) j = rollLeftReach x j ∧ getReach (rollEnd fo x) j = getReach x j := by
  unfold rollEnd
  split <;> exact ⟨rfl, rfl⟩

section
variable (m : Mem) (e : Eng) (v : Nat)

theorem unfoldedRolled_spec :
    ringless (getV (unfoldedRolled m e v) v) = ringless (rolledAll ((unfoldedReaches e v).map (·.num)) (getV e v)) ∧
    (unfoldedRolled m e v).regions = e.regions := rollReaches_spec m v (unfoldedReaches e v) e

theorem mem_unfolded {r : ReachInfo} (hr : r ∈ reachList e v) :
    r.num ∈ (unfoldedReaches e v).map (·.num) ↔ (getReach (getV e v) r.num).st ≠ .folded := by
  rw [unfoldedReaches, List.mem_map]
  constructor
  · rintro ⟨a, ha, hn⟩
    rw [← hn]
    exact of_decide_eq_true (List.mem_filter.1 ha).2
  · exact fun h => ⟨r, List.mem_filter.2 ⟨hr, decide_eq_true h⟩, rfl⟩

theorem getReach_unfoldedRolled (r : Nat) : getReach (getV (unfoldedRolled m e v) v) r =
    if r ∈ (unfoldedReaches e v).map (·.num) then rolledReach (getReach (getV e v) r) else getReach (getV e v) r :=
  (read_view (unfoldedRolled_spec m e v).1 (getReach · r) fun _ => rfl).trans (getReach_rolledAll _ _ _)

theorem foldedNums_unfoldedRolled : foldedNums (unfoldedRolled m e v) v = foldedNums e v := by
  rw [foldedNums, foldedNums, reachList_congr (unfoldedRolled_spec m e v).2]
  refine congrArg (List.map _) (List.filter_congr fun r hr => ?_)
  rw [getReach_unfoldedRolled]
  split
  · next h =>
    rw [decide_eq_false ((mem_unfolded e v hr).1 h)]
    rfl
  · rfl

theorem getV_rollBack : getV (rollBack m e v) v = rollEnd (foldedNums e v) (getV (unfoldedRolled m e v) v) := by
  rw [rollBack_eq, foldedNums_unfoldedRolled, rollEnd]
  split
  · rw [getV_latch, getV_updV_same, getV_updV_same]
  · rw [getV_updV_same]

theorem reachList_rollBack : reachList (rollBack m e v) v = reachList e v := by
  rw [rollBack_eq]
  split
  · rw [reachList_latch]
    exact reachList_congr (e := e) (unfoldedRolled_spec m e v).2 v
  · exact reachList_congr (e := e) (unfoldedRolled_spec m e v).2 v

theorem getReach_rollBack (r : Nat) : getReach (getV (rollBack m e v) v) r =
    if r ∈ (unfoldedReaches e v).map (·.num) then rolledReach (getReach (getV e v) r) else getReach (getV e v) r := by
  rw [getV_rollBack, (rollLeftReach_rollEnd _ _ _).2, getReach_unfoldedRolled]

theorem foldedNums_rollBack : foldedNums (rollBack m e v) v = foldedNums e v := by
  rw [← foldedNums_unfoldedRolled m e v, foldedNums, foldedNums, reachList_rollBack,
    reachList_congr (unfoldedRolled_spec m e v).2]
  refine congrArg (List.map _) (List.filter_congr fun r _ => ?_)
  rw [getReach_rollBack, getReach_unfoldedRolled]

/-- After a ROLLBACK nothing is left to roll back. -/
theorem rollLeft_rollBack : rollLeft (rollBack m e v) v = false := by
  have hreaches : (unfoldedReaches (rollBack m e v) v).any (fun r => rollLeftReach (getV (rollBack m e v) v) r.num) = false := by
    refine List.any_eq_false.2 fun r hr => ?_
    obtain ⟨hl, hst⟩ := List.mem_filter.1 hr
    rw [reachList_rollBack] at hl
    have hmem : r.num ∈ (unfoldedReaches e v).map (·.num) := by
      refine Classical.byContradiction fun hn => ?_
      rw [getReach_rollBack, if_neg hn] at hst
      exact hn ((mem_unfolded e v hl).2 (of_decide_eq_true hst))
    rw [getV_rollBack, (rollLeftReach_rollEnd _ _ _).1,
      read_view (unfoldedRolled_spec m e v).1 (rollLeftReach · r.num) fun _ => rfl, rollLeftReach_rolledAll, if_pos hmem]
    exact Bool.false_ne_true
  have hfolded : ((reachList (rollBack m e v) v).filter fun r =>
      decide ((getReach (getV (rollBack m e v) v) r.num).st = .folded)).map (·.num) = foldedNums e v := foldedNums_rollBack m e v
  rw [rollLeft, hreaches, hfolded, getV_rollBack]
  generalize getV (unfoldedRolled m e v) v = x
  obtain ⟨-, hl, -, hclose, hdrain, hland, -⟩ := rollEnd_warden (foldedNums e v) x
  rw [rollWarden_rollEnd, hl, hclose, hdrain, hland]
  cases hf : (foldedNums e v).isEmpty with
  | false => cases x.landFold <;> simp
  | true =>
    obtain ⟨h1, h2, h3, h4⟩ := rollEnd_unopened hf x
    rw [h1, h2, h3, h4]
    cases x.landFold <;> simp

theorem rollLeft_rollback : rollLeft (rollback m e v) v = false := by
  unfold rollback
  split
  · exact rollLeft_rollBack m e v
  · next h => exact Bool.eq_false_iff.2 h

theorem rollback_of_nothingLeft (h : rollLeft e v = false) : rollback m e v = e := if_neg (by rw [h]; exact Bool.false_ne_true)

end

end Sys2Proof.Machine

/-!
FENCE (R92, R128): the streams to and from removed members, the runs, the new live set and the seals.
-/

namespace Sys2Proof.Machine

/-! ## Rings of removed members (R92, R128) -/

theorem getOut_updOut_ne {d d' : Nat} (h : d ≠ d') (e : Eng) (v : Nat) (k : OutStream → OutStream) :
    getOut (getV (updOut e v d' k) v) d = getOut (getV e v) d := by
  rw [updOut, getV_updV_same]
  exact Tab.get_set_ne _ _ _ _ _ h

theorem getIn_updIn_ne {d d' : Nat} (h : d ≠ d') (e : Eng) (v : Nat) (k : InStream → InStream) :
    getIn (getV (updIn e v d' k) v) d = getIn (getV e v) d := by
  rw [updIn, getV_updV_same]
  exact Tab.get_set_ne _ _ _ _ _ h

/-- Trimming a ring leaves its entries and the other rings. -/
theorem trimOut_entries (e : Eng) (v d d' : Nat) :
    (getOut (getV (trimOut e v d') v) d).entries = (getOut (getV e v) d).entries := by
  have h : ∃ k gs, trimOut e v d' = freeBasin (updOut e v d' k) gs ∧ ∀ s, (k s).entries = s.entries := ⟨_, _, rfl, fun _ => rfl⟩
  obtain ⟨k, gs, ht, hk⟩ := h
  have hv : getV (trimOut e v d') v = getV (updOut e v d' k) v := by rw [ht]; rfl
  rw [hv]
  by_cases hd : d = d'
  · rw [hd, getOut_updOut_same, hk]
  · rw [getOut_updOut_ne hd]

/-- A ring is emptied. -/
def emptyRing (v : Nat) (e : Eng) (d : Nat) : Eng := trimOut (updOut e v d fun s => { s with entries := [] }) v d

theorem emptyRing_entries (v d d' : Nat) (e : Eng) :
    (getOut (getV (emptyRing v e d') v) d).entries = if d = d' then [] else (getOut (getV e v) d).entries := by
  rw [emptyRing, trimOut_entries]
  by_cases hd : d = d'
  · rw [hd, getOut_updOut_same, if_pos rfl]
  · rw [getOut_updOut_ne hd, if_neg hd]

theorem emptyRings_entries (v d : Nat) (ds : List Nat) (e : Eng) :
    (getOut (getV (ds.foldl (emptyRing v) e) v) d).entries = if d ∈ ds then [] else (getOut (getV e v) d).entries := by
  induction ds generalizing e with
  | nil => rfl
  | cons d' ds ih =>
    rw [List.foldl_cons, ih, emptyRing_entries]
    by_cases h : d = d'
    · subst h
      rw [if_pos rfl, ite_self, if_pos (List.mem_cons_self ..)]
    · simp only [List.mem_cons, h, false_or, if_false]

/-- A Valley without its streams. -/
def streamless (x : Valley) : Valley := { x with outs := [], ins := [] }

theorem streamless_of_ringless {x y : Valley} (h : ringless x = ringless y) : streamless x = streamless y :=
  congrArg (fun z : Valley => { z with ins := [] }) h

theorem alike_emptyRing (v : Nat) (e : Eng) (d : Nat) : Alike regionView streamless v e (emptyRing v e d) :=
  ((alike_updOut e v d _).trans (alike_trimOut _ v d)).ofSeal.weaken (fun _ _ h => h) fun _ _ h => streamless_of_ringless h

/-- An inbound ring whose waiting blocks are dropped. -/
def unwaiting (s : InStream) : InStream := { s with waiting := [], pages := [], fill := 0 }

theorem dropWaiting_of_empty {e : Eng} {v d : Nat} (h : (getIn (getV e v) d).waiting = []) : dropWaiting e v d = e := by
  simp [dropWaiting, h]

theorem dropWaiting_of_some {e : Eng} {v d : Nat} (h : (getIn (getV e v) d).waiting ≠ []) :
    dropWaiting e v d = dropN (freeBasin (updIn e v d unwaiting) (getIn (getV e v) d).pages) 20
      (getIn (getV e v) d).waiting.length :=
  if_neg (by rw [List.isEmpty_iff]; exact h)

theorem alike_dropWaiting (e : Eng) (v d : Nat) : Alike regionView streamless v e (dropWaiting e v d) := by
  by_cases h : (getIn (getV e v) d).waiting = []
  · rw [dropWaiting_of_empty h]
    exact .refl _ _ _ _
  · rw [dropWaiting_of_some h]
    exact Alike.trans (f := updIn e v d unwaiting) (.change e fun _ => rfl) (.of_valleys rfl rfl)

theorem dropWaiting_waiting (e : Eng) (v d d' : Nat) :
    (getIn (getV (dropWaiting e v d') v) d).waiting = if d = d' then [] else (getIn (getV e v) d).waiting := by
  by_cases h : (getIn (getV e v) d').waiting = []
  · rw [dropWaiting_of_empty h]
    split
    · next hd => rw [hd, h]
    · rfl
  · rw [dropWaiting_of_some h]
    show (getIn (getV (updIn e v d' unwaiting) v) d).waiting = _
    by_cases hd : d = d'
    · rw [hd, getIn_updIn_same, if_pos rfl]
      rfl
    · rw [getIn_updIn_ne hd, if_neg hd]

theorem dropWaiting_outs (e : Eng) (v d : Nat) : (getV (dropWaiting e v d) v).outs = (getV e v).outs := by
  by_cases h : (getIn (getV e v) d).waiting = []
  · rw [dropWaiting_of_empty h]
  · rw [dropWaiting_of_some h]
    exact (congrArg Valley.outs (getV_updV_same e v fun x => { x with ins := Tab.set x.ins d (unwaiting (getIn x d)) }) :)

theorem dropWaitings_spec (v d : Nat) (ds : List Nat) (e : Eng) :
    (getIn (getV (ds.foldl (fun e d => dropWaiting e v d) e) v) d).waiting =
      (if d ∈ ds then [] else (getIn (getV e v) d).waiting) ∧
    (getV (ds.foldl (fun e d => dropWaiting e v d) e) v).outs = (getV e v).outs := by
  induction ds generalizing e with
  | nil => exact ⟨rfl, rfl⟩
  | cons d' ds ih =>
    obtain ⟨h1, h2⟩ := ih (dropWaiting e v d')
    rw [dropWaiting_waiting] at h1
    refine ⟨?_, h2.trans (dropWaiting_outs e v d')⟩
    rw [List.foldl_cons, h1]
    by_cases h : d = d'
    · subst h
      rw [if_pos rfl, ite_self, if_pos (List.mem_cons_self ..)]
    · simp only [List.mem_cons, h, false_or, if_false]

/-- The distances whose holder, and those whose sender, a live set lacks. -/
def goneOut (x : Valley) (live : W64) : List Nat := (distances x).filter fun d => !bit live (outPeer x d)
def goneIn (x : Valley) (live : W64) : List Nat := (distances x).filter fun d => !bit live (inPeer x d)

theorem dropRemoved_eq (e : Eng) (v : Nat) (live : W64) : ∃ io, dropRemoved e v live =
    { (goneIn (getV e v) live).foldl (fun e d => dropWaiting e v d) ((goneOut (getV e v) live).foldl (emptyRing v) e) with
      io := io } := ⟨_, rfl⟩

section
variable (e : Eng) (v : Nat) (live : W64)

theorem alike_dropRemoved : Alike regionView streamless v e (dropRemoved e v live) := by
  obtain ⟨io, h⟩ := dropRemoved_eq e v live
  rw [h]
  exact Alike.trans (.foldl (alike_emptyRing v) _ _)
    (.trans (.foldl (fun e d => alike_dropWaiting e v d) _ _) (.of_valleys rfl rfl))

theorem dropRemoved_out {d : Nat} (hd : d ∈ distances (getV e v)) (hl : bit live (outPeer (getV e v) d) = false) :
    (getOut (getV (dropRemoved e v live) v) d).entries = [] := by
  obtain ⟨io, h⟩ := dropRemoved_eq e v live
  have hm : d ∈ goneOut (getV e v) live := List.mem_filter.2 ⟨hd, by rw [hl]; rfl⟩
  have houts := (dropWaitings_spec v d (goneIn (getV e v) live) ((goneOut (getV e v) live).foldl (emptyRing v) e)).2
  have hv : (getV (dropRemoved e v live) v).outs = (getV ((goneOut (getV e v) live).foldl (emptyRing v) e) v).outs := by
    rw [h]
    exact houts
  rw [getOut, hv]
  exact (emptyRings_entries v d _ e).trans (if_pos hm)

theorem dropRemoved_in {d : Nat} (hd : d ∈ distances (getV e v)) (hl : bit live (inPeer (getV e v) d) = false) :
    (getIn (getV (dropRemoved e v live) v) d).waiting = [] := by
  obtain ⟨io, h⟩ := dropRemoved_eq e v live
  have hm : d ∈ goneIn (getV e v) live := List.mem_filter.2 ⟨hd, by rw [hl]; rfl⟩
  rw [h]
  exact ((dropWaitings_spec v d (goneIn (getV e v) live) _).1).trans (if_pos hm)

end

/-! ## Seals go to live holders only (R79) -/

theorem getOut_growDescs_ne {d d' : Nat} (h : d ≠ d') (e : Eng) (v : Nat) :
    getOut (getV (growDescs e v d') v) d = getOut (getV e v) d := by
  unfold growDescs
  dsimp only
  split
  · rfl
  · split
    · next g e1 ha =>
      obtain rfl := allocPage_eq ha
      exact getOut_updOut_ne h (ownPages e [g] (.outRing v d')) v _
    · rfl

theorem getOut_appendOut_ne {d d' : Nat} (h : d ≠ d') (e : Eng) (v : Nat) (t : OutEntry) :
    getOut (getV (appendOut e v d' t) v) d = getOut (getV e v) d :=
  (getOut_growDescs_ne h _ _).trans (getOut_updOut_ne h _ _ _)

theorem getOut_queueSeals {x : Valley} {d : Nat} (h : isLive x (outPeer x d) = false) (e : Eng) (v rho : Nat) (r : SReach) :
    getOut (getV (queueSeals e v rho x r) v) d = getOut (getV e v) d := by
  have hfold : ∀ (ds : List Nat) (f : Eng), getOut (getV (ds.foldl (fun e d => if !isLive x (outPeer x d) then e
      else appendOut e v d (.sealed rho (BitVec.ofNat 32 (if r.unbuilt then 0 else Tab.get 0 r.issued d))
        (if r.unbuilt then r.comm else r.pend) x.step)) f) v) d = getOut (getV f v) d := by
    intro ds
    induction ds with
    | nil => exact fun _ => rfl
    | cons d' ds ih =>
      intro f
      rw [List.foldl_cons, ih]
      split
      · rfl
      · next hl =>
        refine getOut_appendOut_ne (fun hd => hl ?_) _ _ _
        rw [← hd, h]
        rfl
  exact hfold _ (closePartials e)

theorem getOut_sealNow {e : Eng} {v d : Nat} (h : isLive (getV e v) (outPeer (getV e v) d) = false) (rho : Nat) :
    getOut (getV (sealNow e v rho) v) d = getOut (getV e v) d := by
  cases hu : unsealed (getReach (getV e v) rho) with
  | false => rw [sealNow_of_sealed hu]
  | true =>
    have hupd : getOut (getV (updReach e v rho sealedReach) v) d = getOut (getV e v) d := by
      rw [updReach, getV_updV_same]
      rfl
    rw [sealNow_of_unsealed hu]
    split
    · exact hupd
    · exact (getOut_queueSeals h _ _ _ _).trans hupd

theorem getOut_sealList {v d : Nat} (rs : List Nat) {e : Eng} (h : isLive (getV e v) (outPeer (getV e v) d) = false) :
    getOut (getV (sealList e v rs) v) d = getOut (getV e v) d := by
  induction rs generalizing e with
  | nil => rfl
  | cons r rs ih =>
    have hlive : isLive (getV (sealNow e v r) v) (outPeer (getV (sealNow e v r) v) d) =
        isLive (getV e v) (outPeer (getV e v) d) :=
      read_view (alike_sealNow e v r).here (fun z => isLive z (outPeer z d)) fun _ => rfl
    exact (ih (hlive.trans h)).trans (getOut_sealNow h r)

/-! ## The fence (R92) -/

/-- A Valley that begins a FENCE. -/
def valleyFenced (live : W64) (w : FenceWait) (x : Valley) : Valley :=
  { x with phase := .frozen, live := live, fenced := false, peers := fencePeers x live, fenceWait := some w }

/-- What waits for a FENCE. -/
def fenceWaitOf (e : Eng) (settle : Bool) (c : Cmd) : FenceWait := { cmd := c, settle := settle, since := e.side.ts, sent := false }

/-- The engine with the Valley frozen in its new live set, before the open Crossing's seals. -/
def fenceFrozen (m : Mem) (e : Eng) (v : Nat) (live : W64) (settle : Bool) (c : Cmd) : Eng :=
  updV (endRuns m (dropRemoved e v live) v stPeerTimeout) v (valleyFenced live (fenceWaitOf e settle c))

/-- The engine whose export the FENCE ends. -/
def fenceSealed (m : Mem) (e : Eng) (v : Nat) (live : W64) (settle : Bool) (c : Cmd) : Eng :=
  if (getV (fenceFrozen m e v live settle c) v).opened then sealAll (closePartials (fenceFrozen m e v live settle c)) v
  else fenceFrozen m e v live settle c

theorem beginFence_eq (m : Mem) (e : Eng) (v : Nat) (live : W64) (settle : Bool) (c : Cmd) :
    beginFence m e v live settle c = fenceExport m (fenceSealed m e v live settle c) v := rfl

theorem getPeer_fencePeers {x : Valley} {live : W64} {i : Nat} (h : bit live i = false) :
    Tab.get {} (fencePeers x live) i = ({ lastHeard := (getPeer x i).lastHeard } : Peer) := by
  have hmap := Tab.get_mapKey (d := ({} : Peer)) (f := fun k p => if bit live k then { p with acked := false }
    else { lastHeard := p.lastHeard }) (fun k => by split <;> rfl) x.peers i
  rw [if_neg (by rw [h]; exact Bool.false_ne_true)] at hmap
  exact hmap

section
variable (m : Mem) (e : Eng) (v : Nat) (live : W64) (settle : Bool) (c : Cmd)

/-- A Valley without its streams, its Reaches and its runs. -/
def fenceView (x : Valley) : Valley := { x with outs := [], ins := [], reaches := [], runs := [], oldRuns := [], hops := [] }

theorem getV_fenceFrozen : fenceView (getV (fenceFrozen m e v live settle c) v) =
    fenceView (valleyFenced live (fenceWaitOf e settle c) (getV e v)) := by
  have hdrop := (alike_dropRemoved e v live).here
  have hruns := (alike_endRuns m (dropRemoved e v live) v stPeerTimeout).here
  rw [fenceFrozen, getV_updV_same]
  generalize getV (endRuns m (dropRemoved e v live) v stPeerTimeout) v = y at hruns ⊢
  generalize getV (dropRemoved e v live) v = x at hruns hdrop
  have hx : runless (streamless y) = runless (streamless (getV e v)) :=
    (read_view hruns (fun z => runless (streamless z)) fun _ => rfl).trans (congrArg runless hdrop)
  exact read_view (π := fun z => runless (streamless z)) hx
    (fun z => fenceView (valleyFenced live (fenceWaitOf e settle c) z)) fun _ => rfl

theorem alike_fenceSealed : Alike sealView reachless v (fenceFrozen m e v live settle c) (fenceSealed m e v live settle c) := by
  unfold fenceSealed
  split
  · exact alike_sealed _ _
  · exact .refl _ _ _ _

theorem getV_fenceSealed : fenceView (getV (fenceSealed m e v live settle c) v) =
    fenceView (valleyFenced live (fenceWaitOf e settle c) (getV e v)) :=
  (read_view (alike_fenceSealed m e v live settle c).here fenceView fun _ => rfl).trans (getV_fenceFrozen m e v live settle c)

theorem fenceFrozen_runs : (getV (fenceFrozen m e v live settle c) v).runs = [] := by
  rw [fenceFrozen, getV_updV_same]
  exact runs_endRuns m _ v _

theorem fenceFrozen_streams (d : Nat) :
    getOut (getV (fenceFrozen m e v live settle c) v) d = getOut (getV (dropRemoved e v live) v) d ∧
    getIn (getV (fenceFrozen m e v live settle c) v) d = getIn (getV (dropRemoved e v live) v) d := by
  have hruns := (alike_endRuns m (dropRemoved e v live) v stPeerTimeout).here
  rw [fenceFrozen, getV_updV_same]
  exact ⟨read_view hruns (getOut · d) fun _ => rfl, read_view hruns (getIn · d) fun _ => rfl⟩

theorem fenceFrozen_live (d : Nat) :
    isLive (getV (fenceFrozen m e v live settle c) v) (outPeer (getV (fenceFrozen m e v live settle c) v) d) =
      bit live (outPeer (getV e v) d) :=
  (read_view (getV_fenceFrozen m e v live settle c) (fun z => isLive z (outPeer z d)) fun _ => rfl)

theorem fenceSealed_out {d : Nat} (h : bit live (outPeer (getV e v) d) = false) :
    getOut (getV (fenceSealed m e v live settle c) v) d = getOut (getV (dropRemoved e v live) v) d := by
  refine Eq.trans ?_ (fenceFrozen_streams m e v live settle c d).1
  unfold fenceSealed
  split
  · rw [sealAll_eq]
    exact getOut_sealList (e := closePartials (fenceFrozen m e v live settle c)) _
      ((fenceFrozen_live m e v live settle c d).trans h)
  · rfl

theorem fenceSealed_in (d : Nat) :
    getIn (getV (fenceSealed m e v live settle c) v) d = getIn (getV (dropRemoved e v live) v) d :=
  (read_view (alike_fenceSealed m e v live settle c).here (getIn · d) fun _ => rfl).trans
    (fenceFrozen_streams m e v live settle c d).2

theorem fenceFrozen_regions : (fenceFrozen m e v live settle c).regions = e.regions :=
  (regions_endRuns m _ v _).trans (congrArg Eng.regions (alike_dropRemoved e v live).eng :)

theorem unsealed_fenceSealed (ho : (getV e v).opened = true) {r : ReachInfo} (hr : r ∈ reachList e v) :
    unsealed (getReach (getV (fenceSealed m e v live settle c) v) r.num) = false := by
  have hopen : (getV (fenceFrozen m e v live settle c) v).opened = true :=
    (read_view (getV_fenceFrozen m e v live settle c) Valley.opened fun _ => rfl).trans ho
  rw [fenceSealed, if_pos hopen]
  exact unsealed_sealed (by rw [reachList_congr (fenceFrozen_regions m e v live settle c)]; exact hr)

end

/-- The entry of FENCE. -/
def fenceCmd (m : Mem) (e : Eng) (c : Cmd) (p : BitVec 512) : Eng :=
  if !mayFence (getV e (pkValley p)) (pkw p 1) then reply0 e c stOutOfRange
  else settleV m (beginFence m e (pkValley p) (pkw p 1) (pkA p) c) (pkValley p)

theorem fenceCmd_of_may {m : Mem} {e : Eng} {c : Cmd} {p : BitVec 512} (h : mayFence (getV e (pkValley p)) (pkw p 1) = true) :
    fenceCmd m e c p =
      settleV m (fenceExport m (fenceSealed m e (pkValley p) (pkw p 1) (pkA p) c) (pkValley p)) (pkValley p) := by
  rw [← beginFence_eq]
  exact if_neg (by rw [h]; exact Bool.false_ne_true)

theorem exec_fence (q : Fin 64) (s : State) : exec (.fence q) s = .next (runCmd q.val 0x28 s (fenceCmd s.mem)) := rfl

/-! ## ROLLBACK (R94, R127) -/

/-- A Valley that is thawed. -/
def thawed (x : Valley) : Valley := { x with phase := .idle, fenced := false }

/-- The engine that ROLLBACK leaves, before its reply. -/
def rolledBack (m : Mem) (e : Eng) (v : Nat) (thaw : Bool) : Eng :=
  if thaw then updV (rollback m (endRuns m e v stOK) v) v thawed else rollback m (endRuns m e v stOK) v

/-- The entry of ROLLBACK. -/
def rollbackCmd (m : Mem) (e : Eng) (c : Cmd) (p : BitVec 512) : Eng :=
  if !isJoined (getV e (pkValley p)) || decide ((getV e (pkValley p)).phase ≠ .frozen) || !(getV e (pkValley p)).fenced ||
      (pkA p && !mayThaw e (pkValley p)) then reply0 e c stOutOfRange
  else settleV m (reply0 (rolledBack m e (pkValley p) (pkA p)) c stOK) (pkValley p)

theorem rollbackCmd_of_may {m : Mem} {e : Eng} {c : Cmd} {p : BitVec 512}
    (hj : isJoined (getV e (pkValley p)) = true) (hp : (getV e (pkValley p)).phase = .frozen)
    (hf : (getV e (pkValley p)).fenced = true) (ht : pkA p = true → mayThaw e (pkValley p) = true) :
    rollbackCmd m e c p = settleV m (reply0 (rolledBack m e (pkValley p) (pkA p)) c stOK) (pkValley p) := by
  have hthaw : (pkA p && !mayThaw e (pkValley p)) = false := by
    cases ha : pkA p with
    | false => rfl
    | true => rw [ht ha]; rfl
  exact if_neg (by rw [hj, hf, hthaw, decide_eq_false (Classical.not_not.2 hp)]; exact Bool.false_ne_true)

theorem exec_rollback (q : Fin 64) (s : State) : exec (.rollback q) s = .next (runCmd q.val 0x24 s (rollbackCmd s.mem)) := rfl

theorem mayThaw_congr {e f : Eng} {v : Nat} (hv : getV f v = getV e v) (hr : f.regions = e.regions) :
    mayThaw f v = mayThaw e v := by
  rw [mayThaw, mayThaw, noneFolded, noneFolded, demandUnbuilt, demandUnbuilt, hv, reachList_congr hr]

/-- With nothing left to roll back no report stands, and each Reach is folded or clean. -/
theorem of_rollLeft {e : Eng} {v : Nat} (h : rollLeft e v = false) :
    (getV e v).closeRep = none ∧ (getV e v).drainSent = false ∧
    ∀ r ∈ reachList e v, (getReach (getV e v) r.num).st ≠ .folded → (getReach (getV e v) r.num).st = .clean ∧
      (getReach (getV e v) r.num).pend = (getReach (getV e v) r.num).comm ∧ (getReach (getV e v) r.num).issued = [] := by
  simp only [rollLeft, Bool.or_eq_false_iff] at h
  obtain ⟨⟨⟨⟨⟨hr, -⟩, hc⟩, hd⟩, -⟩, -⟩ := h
  refine ⟨by simpa using hc, hd, fun r hm hf => ?_⟩
  have hl : rollLeftReach (getV e v) r.num = false :=
    Bool.eq_false_iff.2 (List.any_eq_false.1 hr r (List.mem_filter.2 ⟨hm, decide_eq_true hf⟩))
  simp only [rollLeftReach, Bool.or_eq_false_iff, decide_eq_false_iff_not, Classical.not_not, Bool.not_eq_false',
    List.isEmpty_iff] at hl
  obtain ⟨⟨⟨⟨⟨⟨⟨⟨hst, hi⟩, hp⟩, -⟩, -⟩, -⟩, -⟩, -⟩, -⟩ := hl
  exact ⟨hst, hp, hi⟩

section
variable (m : Mem) (e : Eng) (v : Nat)

theorem rollback_phase : (getV (rollback m e v) v).phase = (getV e v).phase := by
  unfold rollback
  split
  · rw [getV_rollBack, (rollEnd_warden _ _).2.2.2.2.2.2]
    exact (read_view (unfoldedRolled_spec m e v).1 Valley.phase fun _ => rfl).trans
      (congrArg Valley.phase (rollView_rolledAll _ (getV e v)) :)
  · rfl

theorem rollback_reach {r : ReachInfo} (hr : r ∈ reachList e v) :
    ((getReach (getV e v) r.num).st ≠ .folded → (getReach (getV (rollback m e v) v) r.num).st = .clean ∧
      (getReach (getV (rollback m e v) v) r.num).pend = (getReach (getV e v) r.num).comm ∧
      (getReach (getV (rollback m e v) v) r.num).issued = []) ∧
    ((getReach (getV e v) r.num).st = .folded → (getReach (getV (rollback m e v) v) r.num).st = .folded) := by
  cases h : rollLeft e v with
  | false =>
    rw [rollback_of_nothingLeft m e v h]
    exact ⟨(of_rollLeft h).2.2 r hr, id⟩
  | true =>
    rw [rollback, if_pos h, getReach_rollBack]
    refine ⟨fun hf => ?_, fun hf => ?_⟩
    · rw [if_pos ((mem_unfolded e v hr).2 hf)]
      exact ⟨rfl, rfl, rfl⟩
    · rw [if_neg fun hm => (mem_unfolded e v hr).1 hm hf]
      exact hf

/-- What ROLLBACK leaves of its Valley. -/
theorem rolledBack_spec (thaw : Bool) (hp : (getV e v).phase = .frozen) :
    (getV (rolledBack m e v thaw) v).phase = (if thaw then .idle else .frozen) ∧
    (getV (rolledBack m e v thaw) v).closeRep = none ∧ (getV (rolledBack m e v thaw) v).drainSent = false ∧
    ∀ r, getReach (getV (rolledBack m e v thaw) v) r = getReach (getV (rollback m (endRuns m e v stOK) v) v) r := by
  obtain ⟨hc, hd, -⟩ := of_rollLeft (rollLeft_rollback m (endRuns m e v stOK) v)
  have hphase : (getV (endRuns m e v stOK) v).phase = (getV e v).phase :=
    read_view (alike_endRuns m e v stOK).here Valley.phase fun _ => rfl
  cases thaw with
  | true =>
    rw [rolledBack, if_pos rfl, getV_updV_same]
    exact ⟨rfl, hc, hd, fun _ => rfl⟩
  | false =>
    rw [rolledBack, if_neg Bool.false_ne_true]
    exact ⟨(rollback_phase _ _ _).trans (hphase.trans hp), hc, hd, fun _ => rfl⟩

end

/-! ## SETTLE_SUMMARY (R93) -/

theorem summaries_keepSummary (e : Eng) (v : Nat) (s : Summary) : (getV (keepSummary e v s) v).summaries =
    ((getV e v).summaries.filter fun t => !decide (t.sender = s.sender ∧ t.epoch = s.epoch)) ++ [s] :=
  (congrArg Valley.summaries (getV_updV_same _ _ _) :)

theorem mem_keepSummary {e : Eng} {v : Nat} {s y : Summary} : y ∈ (getV (keepSummary e v s) v).summaries ↔
    (y ∈ (getV e v).summaries ∧ ¬ (y.sender = s.sender ∧ y.epoch = s.epoch)) ∨ y = s := by
  rw [summaries_keepSummary, List.mem_append, List.mem_filter, List.mem_singleton, Bool.not_eq_true',
    decide_eq_false_iff_not]

theorem reaches_keepSummary (e : Eng) (v : Nat) (s : Summary) :
    (getV (keepSummary e v s) v).reaches = (getV e v).reaches := (congrArg Valley.reaches (getV_updV_same _ _ _) :)

theorem deliver_settle (m : Mem) (e : Eng) (v sender : Nat) (epoch : W64) (first : W32) (l c r : Bool) (b : W64) :
    deliver m e v sender epoch (.settle first l c r b) = commitStep m (keepSummary e v
      { sender := sender, epoch := epoch, first := first, landing := l, crossing := c, recorded := r, bitmap := b }) v := rfl

/-- Settles O31: FENCE by what each of its parts leaves of the Valley; ROLLBACK Reach by Reach, and after it nothing is left
to roll back; a settle summary by the list that keeps it. -/
theorem fenceAndRollback : Obligations.FenceAndRollback := by
  refine ⟨fun q s p h => ?_, fun q s p h => ?_, fun m e v => ⟨rollLeft_rollback m e v, rollback_of_nothingLeft m e v⟩,
    fun p s v hacc ht hk hs => ?_⟩
  · have hv := popHead_getV s.eng q.val (pkValley p)
    have hside := popHead_side s.eng q.val
    have hlist := reachList_congr (popHead_regions s.eng q.val) (pkValley p)
    rw [exec_fence]
    refine ⟨fun hm => ?_, fun hm => ⟨_, rfl, h.onlyReplies ?_⟩⟩
    · refine ⟨fenceSealed s.mem (popHead s.eng q.val) (pkValley p) (pkw p 1) (pkA p) (cmdOf q.val p), ?_, ?_⟩
      · rw [runCmd_of_taken h, fenceCmd_of_may (by rw [hv]; exact hm)]
      have hview := getV_fenceSealed s.mem (popHead s.eng q.val) (pkValley p) (pkw p 1) (pkA p) (cmdOf q.val p)
      have hout (d : Nat) (hd : d ∈ distances (getV (popHead s.eng q.val) (pkValley p))) hl :=
        (congrArg OutStream.entries (fenceSealed_out s.mem (popHead s.eng q.val) (pkValley p) (pkw p 1) (pkA p)
          (cmdOf q.val p) hl)).trans (dropRemoved_out _ _ _ hd hl)
      have hin (d : Nat) (hd : d ∈ distances (getV (popHead s.eng q.val) (pkValley p))) hl :=
        (congrArg InStream.waiting (fenceSealed_in s.mem (popHead s.eng q.val) (pkValley p) (pkw p 1) (pkA p)
          (cmdOf q.val p) d)).trans (dropRemoved_in _ _ _ hd hl)
      have hsealed := @unsealed_fenceSealed s.mem (popHead s.eng q.val) (pkValley p) (pkw p 1) (pkA p) (cmdOf q.val p)
      have hruns : (getV (fenceSealed s.mem (popHead s.eng q.val) (pkValley p) (pkw p 1) (pkA p) (cmdOf q.val p))
          (pkValley p)).runs = [] :=
        (read_view (alike_fenceSealed _ _ _ _ _ _).here Valley.runs fun _ => rfl).trans (fenceFrozen_runs _ _ _ _ _ _)
      rw [hv] at hview hout hin hsealed
      rw [hlist] at hsealed
      have hread {α : Type} (k : Valley → α) (hk : ∀ z, k (fenceView z) = k z) := read_view hview k hk
      refine ⟨hread Valley.phase fun _ => rfl, hread Valley.live fun _ => rfl, hread Valley.fenced fun _ => rfl, ?_,
        hread Valley.epoch fun _ => rfl, hruns, hout, hin, fun i hi => ?_, fun ho r hr => hsealed ho hr⟩
      · refine (hread Valley.fenceWait fun _ => rfl).trans ?_
        rw [← hside]
        rfl
      · exact (hread (getPeer · i) fun _ => rfl).trans (getPeer_fencePeers hi)
    · rw [fenceCmd, hv, hm]
      rfl
  · have hv := popHead_getV s.eng q.val (pkValley p)
    have hregs := popHead_regions s.eng q.val
    rw [exec_rollback]
    refine ⟨fun hj hp hf ht => ?_, fun hn => ⟨_, rfl, h.onlyReplies ?_⟩⟩
    · obtain ⟨h1, h2, h3, h4⟩ := rolledBack_spec s.mem (popHead s.eng q.val) (pkValley p) (pkA p) (by rw [hv]; exact hp)
      refine ⟨rolledBack s.mem (popHead s.eng q.val) (pkValley p) (pkA p), ?_, h1, h2, h3, fun r hr => ?_⟩
      · rw [runCmd_of_taken h, rollbackCmd_of_may (by rw [hv]; exact hj) (by rw [hv]; exact hp) (by rw [hv]; exact hf)
          fun ha => (mayThaw_congr hv hregs).trans (ht ha)]
      · have hreach := rollback_reach s.mem (endRuns s.mem (popHead s.eng q.val) (pkValley p) stOK) (pkValley p) (r := r)
          (by rw [reachList_congr ((regions_endRuns _ _ _ _).trans hregs)]; exact hr)
        have hget (j : Nat) : getReach (getV (endRuns s.mem (popHead s.eng q.val) (pkValley p) stOK) (pkValley p)) j =
            getReach (getV s.eng (pkValley p)) j :=
          getReach_congr ((reaches_endRuns _ _ _ _).trans (by rw [hv])) j
        rw [hget] at hreach
        rw [h4]
        exact hreach
    · have hno : (!isJoined (getV s.eng (pkValley p)) || decide ((getV s.eng (pkValley p)).phase ≠ .frozen) ||
          !(getV s.eng (pkValley p)).fenced || (pkA p && !mayThaw s.eng (pkValley p))) = true := by
        obtain hj | hp | hf | ⟨ha, ht⟩ := hn
        · rw [hj]; rfl
        · rw [decide_eq_true hp]; simp
        · rw [hf]; simp
        · rw [ha, ht]; simp
      rw [rollbackCmd, hv, mayThaw_congr hv hregs, hno]
      rfl
  · have hv := getV_heard s.eng v (hdrOf p).sender
    have hsums : (getV (heard s.eng v (hdrOf p).sender) v).summaries = (getV s.eng v).summaries := by rw [hv]
    have hreaches : (getV (heard s.eng v (hdrOf p).sender) v).reaches = (getV s.eng v).reaches := by rw [hv]
    obtain ⟨win, res, hh⟩ := heard_eq s.eng v (hdrOf p).sender
    obtain ⟨-, -, -, -, -, -, -, -, hfold, -⟩ := acceptedPacketsAct.1 p 0 s v hacc
    obtain ⟨-, -, -, -, hsettle, -⟩ := hfold ht (by rw [hv]; exact hs)
    rw [hsettle hk, deliver_settle]
    refine ⟨_, rfl, mem_keepSummary.2 (.inr rfl), fun y hy hy1 hy2 => ?_, fun y hy => ?_, ?_, ?_, ?_, ?_⟩
    · exact (mem_keepSummary.1 hy).resolve_left fun hc => hc.2 ⟨hy1, hy2⟩
    · rw [mem_keepSummary, hsums]
      refine ⟨fun hc => ?_, fun hc => .inl ⟨hc, fun ⟨a, b⟩ => hy.elim (· a) (· b)⟩⟩
      obtain ⟨hc, -⟩ | rfl := hc
      · exact hc
      · exact absurd hy (by simp)
    · rw [hh]; rfl
    · exact (reaches_keepSummary _ _ _).trans hreaches
    · rw [hh]; rfl
    · rw [hh]; rfl

end Sys2Proof.Machine

/-!
PARTITION_GRANT, PARTITION_REVOKE, SCRUB, KEY_LOAD and FW_LOAD (R99, R262, R271, R272, R278, R279, R284, R285, R299, R310).
-/

namespace Sys2Proof.Machine

/-! ## Answers leave the owner of a queue -/

theorem owner_updQ {k : Queue → Queue} (hk : ∀ x, (k x).owner = x.owner) (e : Eng) (q r : Nat) :
    (getQ (updQ e q k) r).owner = (getQ e r).owner := by
  by_cases h : r = q
  · rw [h, getQ_updQ_same, hk]
  · rw [getQ_updQ_ne h]

theorem owner_dropHead (e : Eng) (q r : Nat) : (getQ (dropHead e q) r).owner = (getQ e r).owner :=
  owner_updQ (k := fun x => { x with buf := x.buf.drop 1, fetch := (x.fetch + 1) % 1024 }) (fun _ => rfl) e q r

theorem owner_queueSettle (x : Queue) : (queueSettle x).owner = x.owner := by
  unfold queueSettle
  split <;> rfl

theorem owner_reply (e : Eng) (c : Cmd) (st : W16) (r0 r1 : W64) (r : Nat) :
    (getQ (reply e c st r0 r1) r).owner = (getQ e r).owner := by
  unfold reply
  split
  · rfl
  · refine (owner_updQ owner_queueSettle _ _ _).trans ?_
    split
    · refine (owner_updQ ?_ _ _ _).trans rfl
      exact fun _ => rfl
    · rw [getQ_sendIrq]
      refine (owner_updQ ?_ _ _ _).trans rfl
      exact fun _ => rfl

theorem owner_answerUnlisted (n : Nat) (e : Eng) (r : Nat) : (getQ (answerUnlisted n e) r).owner = (getQ e r).owner := by
  induction n generalizing e with
  | zero => rfl
  | succ n ih =>
    unfold answerUnlisted
    split
    · rfl
    · split
      · rfl
      · split
        · rfl
        · exact (ih _).trans ((owner_reply _ _ _ _ _ _).trans (owner_dropHead _ _ _))

theorem owner_answerAll (e : Eng) (r : Nat) : (getQ (answerAll e) r).owner = (getQ e r).owner := by
  rw [answerAll, owner_answerUnlisted]

/-! ## PARTITION_GRANT (R271) -/

theorem mem_bitsOf {w : W64} {n j : Nat} : j ∈ bitsOf w n ↔ j < n ∧ bit w j = true := by
  rw [bitsOf, List.mem_filter, List.mem_range]

/-- A queue that a function owns. -/
def ownedBy (fn : Byte) (x : Queue) : Queue := { x with owner := fn }

/-- The queues of a list, given to a function. -/
def giveQueues (fn : Byte) (qs : List Nat) (e : Eng) : Eng := qs.foldl (fun e q => updQ e q (ownedBy fn)) e

/-- The Valley slots of a list, given to a function. -/
def giveSlots (fn : Byte) (vs : List Nat) (e : Eng) : Eng := vs.foldl (fun e v => updV e v fun x => { x with fn := fn }) e

theorem getQ_giveQueues (fn : Byte) (qs : List Nat) (j : Nat) (e : Eng) :
    getQ (giveQueues fn qs e) j = if j ∈ qs then ownedBy fn (getQ e j) else getQ e j := by
  induction qs generalizing e with
  | nil => rfl
  | cons q qs ih =>
    refine (ih (updQ e q (ownedBy fn))).trans ?_
    by_cases h : j = q
    · rw [h, getQ_updQ_same, if_pos (List.mem_cons_self ..)]
      exact ite_self _
    · rw [getQ_updQ_ne h]
      simp only [List.mem_cons, h, false_or]

theorem fn_giveSlots (fn : Byte) (vs : List Nat) (v : Nat) (e : Eng) :
    (getV (giveSlots fn vs e) v).fn = if v ∈ vs then fn else (getV e v).fn := by
  induction vs generalizing e with
  | nil => rfl
  | cons w vs ih =>
    refine (ih (updV e w fun x => { x with fn := fn })).trans ?_
    by_cases h : v = w
    · rw [h, getV_updV_same, if_pos (List.mem_cons_self ..)]
      exact ite_self _
    · rw [getV_updV_ne _ _ h]
      simp only [List.mem_cons, h, false_or]

theorem giveQueues_eq (fn : Byte) (qs : List Nat) (e : Eng) :
    giveQueues fn qs e = { e with ctl := { e.ctl with queues := (giveQueues fn qs e).ctl.queues } } := by
  induction qs generalizing e with
  | nil => rfl
  | cons q qs ih => exact (ih (updQ e q (ownedBy fn))).trans rfl

theorem giveSlots_eq (fn : Byte) (vs : List Nat) (e : Eng) :
    giveSlots fn vs e = { e with valleys := (giveSlots fn vs e).valleys } := by
  induction vs generalizing e with
  | nil => rfl
  | cons v vs ih => exact (ih (updV e v fun x => { x with fn := fn })).trans rfl

/-- An engine that has granted a partition: its record and its access entries. -/
def granted (tag : W16) (f : Nat) (e : Eng) : Eng :=
  { e with
    ctl := { e.ctl with grants := e.ctl.grants ++ [{ ptag := tag, vf := f }]
                        negotiated := Tab.del e.ctl.negotiated (0x40 + f) }
    regs := { e.regs with accReg := Tab.set e.regs.accReg (0x40 + f) accFixedVf
                          accFab := Tab.set e.regs.accFab (1 + f) (tag.setWidth 32 ||| 0x10000) } }

theorem grant_eq (e : Eng) (tag : W16) (f : Nat) (qs vs : List Nat) :
    grant e tag f qs vs = granted tag f (giveSlots (vfFn f) vs (giveQueues (vfFn f) qs e)) := rfl

/-- May the tag, the function, the queues and the slots of a grant be given (R271)? -/
def mayGrant (e : Eng) (p : BitVec 512) : Bool :=
  decide ((pkw p 1).extractLsb' 0 16 ≠ 0 ∧ (pkw p 1).extractLsb' 0 16 ≠ 0xFFFF) &&
    !e.side.revoked.contains ((pkw p 1).extractLsb' 0 16) &&
    !e.ctl.grants.any (fun g => decide (g.ptag = (pkw p 1).extractLsb' 0 16 ∨ g.vf = pkf p 1 16 6)) &&
    (bitsOf (pkw p 2) 64).all (queueFree e) && (bitsOf (pkw p 3) 16).all (slotFree e)

/-- The entry of PARTITION_GRANT. -/
def grantCmd (e : Eng) (c : Cmd) (p : BitVec 512) : Eng :=
  if mayGrant e p then
    reply0 (grant e ((pkw p 1).extractLsb' 0 16) (pkf p 1 16 6) (bitsOf (pkw p 2) 64) (bitsOf (pkw p 3) 16)) c stOK
  else reply0 e c stOutOfRange

theorem exec_partitionGrant (q : Fin 64) (s : State) :
    exec (.partitionGrant q) s = .next (runCmd q.val 0x60 s grantCmd) := by
  refine congrArg (fun f => Host.Outcome.next (runCmd q.val 0x60 s f)) (funext fun e => funext fun c => funext fun p => ?_)
  have hmay : mayGrant e p = true ↔ ¬ ((pkw p 1).extractLsb' 0 16 = 0 ∨ (pkw p 1).extractLsb' 0 16 = 0xFFFF ∨
      e.side.revoked.contains ((pkw p 1).extractLsb' 0 16) = true ∨
      e.ctl.grants.any (fun g => decide (g.ptag = (pkw p 1).extractLsb' 0 16 ∨ g.vf = pkf p 1 16 6)) = true ∨
      (!(bitsOf (pkw p 2) 64).all (queueFree e)) = true ∨ (!(bitsOf (pkw p 3) 16).all (slotFree e)) = true) := by
    simp only [mayGrant, Bool.and_eq_true, decide_eq_true_eq, not_or, Bool.not_eq_true', Bool.not_eq_true, Bool.not_eq_false]
    exact ⟨fun ⟨⟨⟨⟨⟨h1, h2⟩, h3⟩, h4⟩, h5⟩, h6⟩ => ⟨h1, h2, h3, h4, h5, h6⟩,
      fun ⟨h1, h2, h3, h4, h5, h6⟩ => ⟨⟨⟨⟨⟨h1, h2⟩, h3⟩, h4⟩, h5⟩, h6⟩⟩
  unfold grantCmd
  by_cases h : mayGrant e p = true
  · rw [if_pos h]
    exact if_neg (hmay.1 h)
  · rw [if_neg h]
    exact if_pos (Classical.not_not.1 fun hn => h (hmay.2 hn))

section
variable (e : Eng) (tag : W16) (f : Nat) (qs vs : List Nat)

theorem getQ_grant (j : Nat) : getQ (grant e tag f qs vs) j = if j ∈ qs then ownedBy (vfFn f) (getQ e j) else getQ e j := by
  have h : getQ (grant e tag f qs vs) j = getQ (giveQueues (vfFn f) qs e) j := by
    rw [grant_eq, giveSlots_eq]
    rfl
  rw [h, getQ_giveQueues]

theorem fn_grant (v : Nat) : (getV (grant e tag f qs vs) v).fn = if v ∈ vs then vfFn f else (getV e v).fn := by
  have h : (getV (grant e tag f qs vs) v).fn = (getV (giveSlots (vfFn f) vs (giveQueues (vfFn f) qs e)) v).fn := rfl
  have hv : getV (giveQueues (vfFn f) qs e) v = getV e v := by
    rw [giveQueues_eq]
    rfl
  rw [h, fn_giveSlots, hv]

/-- What a grant leaves, its record and its access entries. -/
theorem grant_spec : (grant e tag f qs vs).side = e.side ∧ (grant e tag f qs vs).ctl.cpHaltBit = e.ctl.cpHaltBit ∧
    (grant e tag f qs vs).io = e.io ∧ (grant e tag f qs vs).regions = e.regions ∧ (grant e tag f qs vs).basin = e.basin ∧
    (grant e tag f qs vs).lanes = e.lanes ∧ (grant e tag f qs vs).ctl.grants = e.ctl.grants ++ [{ ptag := tag, vf := f }] ∧
    (grant e tag f qs vs).regs.accReg = Tab.set e.regs.accReg (0x40 + f) accFixedVf ∧
    (grant e tag f qs vs).regs.accFab = Tab.set e.regs.accFab (1 + f) (tag.setWidth 32 ||| 0x10000) := by
  rw [grant_eq, giveSlots_eq, giveQueues_eq]
  exact ⟨rfl, rfl, rfl, rfl, rfl, rfl, rfl, rfl, rfl⟩

end

/-! ## The control processor's state beside answers -/

/-- The control processor's state without what answers and the correction of a word change. -/
def kept (c : Ctl) : Ctl :=
  { c with queues := [], turn := 0, heldEnds := [], evt := {}, irq := 0, irq66Ts := none, irq66Due := false, freeCount := 0 }

theorem OnlyAnswers.kept {e f : Eng} (h : OnlyAnswers e f) : kept f.ctl = kept e.ctl := by rw [h.1]; rfl

theorem OnlyCorrects.kept {e f : Eng} (h : OnlyCorrects e f) : kept f.ctl = kept e.ctl := by rw [h.1]; rfl

theorem kept_dropHead (e : Eng) (q : Nat) : kept (dropHead e q).ctl = kept e.ctl := rfl

theorem kept_popHead (e : Eng) (q : Nat) : kept (popHead e q).ctl = kept e.ctl :=
  (kept_dropHead _ _).trans (onlyCorrects_readHead e q).kept

theorem popHead_grants (e : Eng) (q : Nat) : (popHead e q).ctl.grants = e.ctl.grants :=
  (congrArg Ctl.grants (kept_popHead e q) :)

theorem popHead_revokes (e : Eng) (q : Nat) : (popHead e q).ctl.revokes = e.ctl.revokes :=
  (congrArg Ctl.revokes (kept_popHead e q) :)

theorem mayGrant_popHead (e : Eng) (q : Nat) (p : BitVec 512) : mayGrant (popHead e q) p =
    (decide ((pkw p 1).extractLsb' 0 16 ≠ 0 ∧ (pkw p 1).extractLsb' 0 16 ≠ 0xFFFF) &&
      !e.side.revoked.contains ((pkw p 1).extractLsb' 0 16) &&
      !e.ctl.grants.any (fun g => decide (g.ptag = (pkw p 1).extractLsb' 0 16 ∨ g.vf = pkf p 1 16 6)) &&
      (bitsOf (pkw p 2) 64).all (queueFree (popHead e q)) && (bitsOf (pkw p 3) 16).all (slotFree e)) := by
  have hs (v : Nat) : slotFree (popHead e q) v = slotFree e v := by rw [slotFree, slotFree, popHead_getV]
  rw [mayGrant, popHead_side, popHead_grants, funext hs]

/-- The engine that a granted partition leaves, for a command that queue `q` gave. -/
theorem Taken.grants {s : State} {q : Nat} {p : BitVec 512} (h : Taken s q 0x60 p)
    (hm : mayGrant (popHead s.eng q) p = true) :
    (runCmd q 0x60 s grantCmd).mem = s.mem ∧
    Answered s.eng (runCmd q 0x60 s grantCmd).eng (cmdOf q p) stOK 0 0 ∧
    OnlyAnswers (grant (popHead s.eng q) ((pkw p 1).extractLsb' 0 16) (pkf p 1 16 6) (bitsOf (pkw p 2) 64)
      (bitsOf (pkw p 3) 16)) (runCmd q 0x60 s grantCmd).eng ∧
    ∀ j, (getQ (runCmd q 0x60 s grantCmd).eng j).owner = (getQ (grant (popHead s.eng q) ((pkw p 1).extractLsb' 0 16)
      (pkf p 1 16 6) (bitsOf (pkw p 2) 64) (bitsOf (pkw p 3) 16)) j).owner := by
  rw [runCmd_of_taken h, grantCmd, if_pos hm, reply0]
  have hspec := grant_spec (popHead s.eng q) ((pkw p 1).extractLsb' 0 16) (pkf p 1 16 6) (bitsOf (pkw p 2) 64)
    (bitsOf (pkw p 3) 16)
  have hget (j : Nat) := getQ_grant (popHead s.eng q) ((pkw p 1).extractLsb' 0 16) (pkf p 1 16 6) (bitsOf (pkw p 2) 64)
    (bitsOf (pkw p 3) 16) j
  generalize grant (popHead s.eng q) ((pkw p 1).extractLsb' 0 16) (pkf p 1 16 6) (bitsOf (pkw p 2) 64)
    (bitsOf (pkw p 3) 16) = g at hspec hget
  obtain ⟨hside, hhalt, hio, -⟩ := hspec
  obtain ⟨hb, hr, hp, -⟩ := getQ_popHead s.eng q (cmdOf q p).q
  have hqueue : (getQ g (cmdOf q p).q).baseCpl = (getQ (popHead s.eng q) (cmdOf q p).q).baseCpl ∧
      (getQ g (cmdOf q p).q).reply = (getQ (popHead s.eng q) (cmdOf q p).q).reply ∧
      (getQ g (cmdOf q p).q).phase = (getQ (popHead s.eng q) (cmdOf q p).q).phase := by
    rw [hget]
    split <;> exact ⟨rfl, rfl, rfl⟩
  have hans : OnlyAnswers g (answerAll (reply g (cmdOf q p) stOK 0 0)) :=
    (onlyAnswers_reply _ _ _ _ _).trans (onlyAnswers_answerAll _)
  have hown (j : Nat) : (getQ (answerAll (reply g (cmdOf q p) stOK 0 0)) j).owner = (getQ g j).owner :=
    (owner_answerAll _ _).trans (owner_reply _ _ _ _ _ _)
  refine ⟨rfl, ?_, hans, hown⟩
  exact ((reply_answered g (cmdOf q p) stOK 0 0 (hhalt.trans ((popHead_cpHaltBit _ _).trans h.not_halted))).earlier
    (by rw [hside, popHead_side]) (hqueue.1.trans hb) (hqueue.2.1.trans hr)
    (hqueue.2.2.trans hp) (by rw [hio]; exact popHead_hm _ _)).later (onlyAnswers_answerAll _)

/-! ## PARTITION_REVOKE (R272) -/

/-- The engine in which a revocation has begun, before its FENCEs. -/
def revokeBegun (e : Eng) (c : Cmd) (tag : W16) (f : Nat) : Eng :=
  { e with
    side := { e.side with revoked := (e.side.revoked ++ [tag]).drop (e.side.revoked.length + 1 - 64) }
    ctl := { e.ctl with revokes := e.ctl.revokes ++
      [{ cmd := c, ptag := tag, vf := f, step := 4, before := e.io.acc.length, areas := [] }] } }

theorem beginRevoke_eq (m : Mem) (e : Eng) (c : Cmd) (tag : W16) (f : Nat) :
    beginRevoke m e c tag f = (slotsOf (revokeBegun e c tag f) f).foldl (fun e v => revokeFence m e v c)
      (revokeBegun e c tag f) := rfl

/-- The entry of PARTITION_REVOKE, for the grant that holds its tag. -/
def revokeOf (m : Mem) (e : Eng) (c : Cmd) (tag : W16) : Option Grant → Eng
  | none => reply0 e c stOutOfRange
  | some g => if revoking e (vfFn g.vf) then reply0 e c stOutOfRange else runRevokes m (beginRevoke m e c tag g.vf)

theorem revokeOf_some {m : Mem} {e : Eng} {c : Cmd} {tag : W16} {g : Grant} (h : revoking e (vfFn g.vf) = false) :
    revokeOf m e c tag (some g) = runRevokes m (beginRevoke m e c tag g.vf) :=
  if_neg (by rw [h]; exact Bool.false_ne_true)

/-- The entry of PARTITION_REVOKE. -/
def revokeCmd (m : Mem) (e : Eng) (c : Cmd) (p : BitVec 512) : Eng :=
  revokeOf m e c ((pkw p 1).extractLsb' 0 16)
    (e.ctl.grants.find? fun g => decide (g.ptag = (pkw p 1).extractLsb' 0 16))

theorem exec_partitionRevoke (q : Fin 64) (s : State) :
    exec (.partitionRevoke q) s = .next (runCmd q.val 0x61 s (revokeCmd s.mem)) := by
  refine congrArg (fun f => Host.Outcome.next (runCmd q.val 0x61 s f)) (funext fun e => funext fun c => funext fun p => ?_)
  unfold revokeCmd
  dsimp only
  generalize e.ctl.grants.find? (fun g => decide (g.ptag = (pkw p 1).extractLsb' 0 16)) = o
  cases o <;> rfl

/-! ## SCRUB (R99) -/

/-- May a range be scrubbed? -/
def mayScrub (e : Eng) (p : BitVec 512) : Bool :=
  !isHost (pkw p 1) && addrOk (pkw p 1) 4096 (pkw p 2).toNat pkgBytes && decide ((pkw p 2).toNat % 4096 = 0) &&
    !scrubHits e (addrOf (pkw p 1)) (pkw p 2).toNat

/-- The engine whose accumulates zero the range of a SCRUB. -/
def scrubbing (m : Mem) (e : Eng) (p : BitVec 512) : Eng :=
  zeroRange m e (addrOf (pkw p 1)) (pkw p 2).toNat (.scrub e.ctl.scrubKey)

/-- The accumulates of a SCRUB that are under way. -/
def scrubAccs (key : Nat) (e : Eng) : List AccReq := e.io.acc.filter fun r => decide (r.why = .scrub key)

/-- A SCRUB that waits for its accumulates. -/
def scrubWaiting (c : Cmd) (key n : Nat) (e : Eng) : Eng :=
  { e with ctl := { e.ctl with scrubs := e.ctl.scrubs ++ [{ cmd := c, left := n, key := key }], scrubKey := key + 1 } }

/-- The entry of SCRUB. -/
def scrubCmd (m : Mem) (e : Eng) (c : Cmd) (p : BitVec 512) : Eng :=
  if mayScrub e p then
    if (scrubAccs e.ctl.scrubKey (scrubbing m e p)).length = 0 then reply0 (scrubbing m e p) c stOK
    else scrubWaiting c e.ctl.scrubKey (scrubAccs e.ctl.scrubKey (scrubbing m e p)).length (scrubbing m e p)
  else reply0 e c stOutOfRange

theorem scrubCmd_eq (m : Mem) (e : Eng) (c : Cmd) (p : BitVec 512) : scrubCmd m e c p = if mayScrub e p then
    if (scrubAccs e.ctl.scrubKey (scrubbing m e p)).length = 0 then reply0 (scrubbing m e p) c stOK
    else scrubWaiting c e.ctl.scrubKey (scrubAccs e.ctl.scrubKey (scrubbing m e p)).length (scrubbing m e p)
  else reply0 e c stOutOfRange := rfl

theorem exec_scrub (q : Fin 64) (s : State) : exec (.scrub q) s = .next (runCmd q.val 0x68 s (scrubCmd s.mem)) := by
  refine congrArg (fun f => Host.Outcome.next (runCmd q.val 0x68 s f)) (funext fun e => funext fun c => funext fun p => ?_)
  have hmay : mayScrub e p = !(isHost (pkw p 1) || !addrOk (pkw p 1) 4096 (pkw p 2).toNat pkgBytes ||
      decide ((pkw p 2).toNat % 4096 ≠ 0) || scrubHits e (addrOf (pkw p 1)) (pkw p 2).toNat) := by
    simp [mayScrub]
  unfold scrubCmd
  rw [hmay]
  dsimp only
  cases (isHost (pkw p 1) || !addrOk (pkw p 1) 4096 (pkw p 2).toNat pkgBytes ||
      decide ((pkw p 2).toNat % 4096 ≠ 0) || scrubHits e (addrOf (pkw p 1)) (pkw p 2).toNat) <;> rfl

theorem steady_accumDiff (e : Eng) (l : Nat) (d : Line) (why : AccWhy) : Steady e (accumDiff e l d why) := by
  unfold accumDiff
  split
  · exact .refl e
  · exact .of_same rfl rfl rfl

theorem steady_zeroRange (m : Mem) (e : Eng) (a n : Nat) (why : AccWhy) : Steady e (zeroRange m e a n why) :=
  .foldl (fun e l => steady_accumDiff e l (loadLine m e l) why) _ _

theorem scrubHits_congr {e f : Eng} (hv : f.valleys = e.valleys) (hr : f.regions = e.regions)
    (hs : ∀ a n, hitsSpill f a n = hitsSpill e a n) (a n : Nat) : scrubHits f a n = scrubHits e a n := by
  simp only [scrubHits, anyJoined, placeless, getV_congr hv, parityTotal_congr hv hr, valleyRegions, hv, hr, hs]

theorem mayScrub_popHead (e : Eng) (q : Nat) (p : BitVec 512) : mayScrub (popHead e q) p = mayScrub e p := by
  rw [mayScrub, mayScrub, scrubHits_congr (popHead_valleys _ _) (popHead_regions _ _) (hitsSpill_popHead _ _)]

/-! ## KEY_LOAD (R284, R285, R299) -/

theorem paramWords_congr {e f : Eng} (h : f.io.acc = e.io.acc) (m : Mem) (a : W64) (n : Nat) (list : List W64) :
    paramWords m f a n list = paramWords m e a n list := by
  simp only [paramWords, loadWords, loadBytes, loadLine, h]

/-- The bytes of a key blob. -/
def keyBlob (m : Mem) (e : Eng) (p : BitVec 512) (list : List W64) : List Byte :=
  wordsBytes (paramWords m e (pkw p 2) 20 list)

/-- Does a KEY_LOAD pass its checks, up to the key? -/
def mayLoad (m : Mem) (e : Eng) (p : BitVec 512) (list : List W64) : Bool :=
  decide (pkf p 3 0 16 = 160) && addrOk (pkw p 2) 8 160 pkgBytes && decide (pkf p 1 0 4 = 1 ∨ pkf p 1 0 4 = 2) &&
    decide (enum (keyBlob m e p list) 0 1 = pkf p 1 0 4 ∧
      enum (keyBlob m e p list) 2 2 = ((pkw p 1).extractLsb' 16 16).toNat) &&
    Config.p384Point (((keyBlob m e p list).drop 16).take 96) && keysAllowed e.side

/-- A key of a kind is put. -/
def putKey (kind : Nat) (key : BitVec 256) (k : Keys) : Keys :=
  if kind = 1 then { k with job := some key } else { k with exch := some key }

/-- An engine with a key put in a slot. -/
def keyPut (kind slot : Nat) (key : BitVec 256) (e : Eng) : Eng :=
  { e with ctl := { e.ctl with keys := Tab.upd {} e.ctl.keys slot (putKey kind key) } }

/-- A key, if there is one, is put in its slot, if there is one. -/
def loadKey (e : Eng) (c : Cmd) (kind : Nat) : Option Nat → Option (BitVec 256) → Eng
  | some slot, some key => reply0 (keyPut kind slot key e) c stOK
  | _, _ => reply0 e c stOutOfRange

theorem loadKey_of_none (e : Eng) (c : Cmd) (kind : Nat) {o : Option Nat} {k : Option (BitVec 256)} (h : o = none ∨ k = none) :
    loadKey e c kind o k = reply0 e c stOutOfRange := by
  obtain rfl | rfl := h
  · rfl
  · cases o <;> rfl

/-- The entry of KEY_LOAD. -/
def keyLoadCmd (m : Mem) (list : List W64) (e : Eng) (c : Cmd) (p : BitVec 512) : Eng :=
  if mayLoad m e p list then
    loadKey e c (pkf p 1 0 4) (keySlotOf e ((pkw p 1).extractLsb' 16 16)) (unwrapKey e.side.devKey (keyBlob m e p list))
  else reply0 e c stOutOfRange

theorem exec_keyLoad (q : Fin 64) (list : List W64) (s : State) :
    exec (.keyLoad q list) s = .next (runCmd q.val 0x78 s (keyLoadCmd s.mem list)) := by
  refine congrArg (fun f => Host.Outcome.next (runCmd q.val 0x78 s f)) (funext fun e => funext fun c => funext fun p => ?_)
  have hmay : (decide (pkf p 3 0 16 ≠ 160) || !addrOk (pkw p 2) 8 160 pkgBytes || decide (pkf p 1 0 4 ≠ 1 ∧ pkf p 1 0 4 ≠ 2) ||
      decide (enum (keyBlob s.mem e p list) 0 1 ≠ pkf p 1 0 4 ∨
        enum (keyBlob s.mem e p list) 2 2 ≠ ((pkw p 1).extractLsb' 16 16).toNat) ||
      !Config.p384Point (((keyBlob s.mem e p list).drop 16).take 96) || !keysAllowed e.side) = !mayLoad s.mem e p list := by
    simp only [mayLoad, Bool.not_and, ← decide_not, not_or, Classical.not_and_iff_not_or_not, ne_eq]
  show (if (decide (pkf p 3 0 16 ≠ 160) || !addrOk (pkw p 2) 8 160 pkgBytes || decide (pkf p 1 0 4 ≠ 1 ∧ pkf p 1 0 4 ≠ 2) ||
      decide (enum (keyBlob s.mem e p list) 0 1 ≠ pkf p 1 0 4 ∨
        enum (keyBlob s.mem e p list) 2 2 ≠ ((pkw p 1).extractLsb' 16 16).toNat) ||
      !Config.p384Point (((keyBlob s.mem e p list).drop 16).take 96) || !keysAllowed e.side) = true then _ else _) = _
  rw [hmay, keyLoadCmd]
  cases mayLoad s.mem e p list with
  | false => rfl
  | true =>
    refine (if_neg Bool.false_ne_true).trans (Eq.trans ?_ (if_pos rfl).symm)
    show (match keySlotOf e ((pkw p 1).extractLsb' 16 16), unwrapKey e.side.devKey (keyBlob s.mem e p list) with
      | some slot, some key => _
      | _, _ => _) = _
    generalize keySlotOf e ((pkw p 1).extractLsb' 16 16) = o
    generalize unwrapKey e.side.devKey (keyBlob s.mem e p list) = k
    cases o <;> cases k <;> rfl

/-! ## FW_LOAD (R253, R261, R262) -/

/-- The words of an image. -/
def imageWords (m : Mem) (e : Eng) (p : BitVec 512) (list : List W64) : List W64 :=
  paramWords m e (pkw p 1) ((pkf p 2 0 32 + 7) / 8) list

/-- An engine whose instruction store holds a copy. -/
def copied (ws : List W64) (e : Eng) : Eng := { e with ctl := { e.ctl with istore := ws } }

/-- An engine that runs an image. -/
def imaged (i : Image) (e : Eng) : Eng :=
  { e with ctl := { e.ctl with image := some i, bootRom := false, cpPc := i.entry } }

/-- The entry of FW_LOAD. -/
def fwLoadCmd (m : Mem) (list : List W64) (e : Eng) (c : Cmd) (p : BitVec 512) : Eng :=
  if anyBound e then reply0 e c stConfigLocked
  else if !isHost (pkw p 1) || !addrOk (pkw p 1) 8 (pkf p 2 0 32) pkgBytes then reply0 e c stOutOfRange
  else if !imageGood e (pkf p 2 0 32) (imageWords m e p list) then reply0 (copied (imageWords m e p list) e) c stOutOfRange
  else reply0 (imaged (imageOf (imageWords m e p list)) (copied (imageWords m e p list) e)) c stOK

theorem exec_fwLoad (q : Fin 64) (list : List W64) (s : State) :
    exec (.fwLoad q list) s = .next (runCmd q.val 0x7E s (fwLoadCmd s.mem list)) := rfl

theorem anyBound_popHead (e : Eng) (q : Nat) : anyBound (popHead e q) = anyBound e := by
  rw [anyBound, anyBound, popHead_valleys]

theorem keyLoad_blob (m : Mem) (e : Eng) (q : Nat) (p : BitVec 512) (list : List W64) :
    keyBlob m (popHead e q) p list = keyBlob m e p list := by
  rw [keyBlob, keyBlob, paramWords_congr (popHead_acc e q)]

theorem mayLoad_popHead (m : Mem) (e : Eng) (q : Nat) (p : BitVec 512) (list : List W64) :
    mayLoad m (popHead e q) p list = mayLoad m e p list := by
  rw [mayLoad, mayLoad, keyLoad_blob, popHead_side]

theorem keySlotOf_popHead (e : Eng) (q : Nat) (tag : W16) : keySlotOf (popHead e q) tag = keySlotOf e tag := by
  rw [keySlotOf, keySlotOf, popHead_grants]

theorem imageWords_popHead (m : Mem) (e : Eng) (q : Nat) (p : BitVec 512) (list : List W64) :
    imageWords m (popHead e q) p list = imageWords m e p list := paramWords_congr (popHead_acc e q) _ _ _ _

/-- The entry of FW_LOAD while no Valley is bound and the image's place is a host address. -/
theorem fwLoadCmd_popHead {e : Eng} {p : BitVec 512} (m : Mem) (q : Nat) (list : List W64) (c : Cmd) (hb : anyBound e = false)
    (hh : isHost (pkw p 1) = true) (ha : addrOk (pkw p 1) 8 (pkf p 2 0 32) pkgBytes = true) :
    fwLoadCmd m list (popHead e q) c p =
      if !imageGood (popHead e q) (pkf p 2 0 32) (imageWords m e p list) then
        reply0 (copied (imageWords m e p list) (popHead e q)) c stOutOfRange
      else reply0 (imaged (imageOf (imageWords m e p list)) (copied (imageWords m e p list) (popHead e q))) c stOK := by
  rw [fwLoadCmd, anyBound_popHead, imageWords_popHead, if_neg (by rw [hb]; exact Bool.false_ne_true),
    if_neg (by rw [hh, ha]; exact Bool.false_ne_true)]

section
variable {s : State} {q : Nat} {p : BitVec 512} {list : List W64}

theorem Taken.loadsImage (h : Taken s q 0x7E p) (hb : anyBound s.eng = false)
    (hh : isHost (pkw p 1) = true) (ha : addrOk (pkw p 1) 8 (pkf p 2 0 32) pkgBytes = true)
    (hg : imageGood (popHead s.eng q) (pkf p 2 0 32) (imageWords s.mem s.eng p list) = true) :
    (runCmd q 0x7E s (fwLoadCmd s.mem list)).mem = s.mem ∧
    Answered s.eng (runCmd q 0x7E s (fwLoadCmd s.mem list)).eng (cmdOf q p) stOK 0 0 ∧
    (runCmd q 0x7E s (fwLoadCmd s.mem list)).eng.ctl.image = some (imageOf (imageWords s.mem s.eng p list)) ∧
    (runCmd q 0x7E s (fwLoadCmd s.mem list)).eng.ctl.bootRom = false ∧
    (runCmd q 0x7E s (fwLoadCmd s.mem list)).eng.ctl.istore = imageWords s.mem s.eng p list ∧
    (runCmd q 0x7E s (fwLoadCmd s.mem list)).eng.ctl.cpPc = (imageOf (imageWords s.mem s.eng p list)).entry ∧
    (runCmd q 0x7E s (fwLoadCmd s.mem list)).eng.valleys = s.eng.valleys ∧
    (runCmd q 0x7E s (fwLoadCmd s.mem list)).eng.ctl.keys = s.eng.ctl.keys := by
  have hcmd := fwLoadCmd_popHead s.mem q list (cmdOf q p) hb hh ha
  rw [if_neg (by rw [hg]; exact Bool.false_ne_true)] at hcmd
  obtain ⟨hm, -, ho, hr⟩ := h.replies (g := imaged (imageOf (imageWords s.mem s.eng p list))
    (copied (imageWords s.mem s.eng p list) (popHead s.eng q))) ⟨rfl, rfl, rfl, rfl, rfl, List.suffix_rfl⟩ hcmd
  have hkeys := congrArg Ctl.keys (kept_popHead s.eng q)
  have hv := popHead_valleys s.eng q
  generalize (runCmd q 0x7E s (fwLoadCmd s.mem list)) = t at *
  generalize popHead s.eng q = e at *
  have hk := ho.kept
  generalize t.eng.ctl = c at *
  exact ⟨hm, hr, (congrArg Ctl.image hk :), (congrArg Ctl.bootRom hk :), (congrArg Ctl.istore hk :),
    (congrArg Ctl.cpPc hk :), ho.valleys.trans hv, (congrArg Ctl.keys hk).trans hkeys⟩

theorem Taken.refusesImage (h : Taken s q 0x7E p) (hb : anyBound s.eng = false)
    (hh : isHost (pkw p 1) = true) (ha : addrOk (pkw p 1) 8 (pkf p 2 0 32) pkgBytes = true)
    (hg : imageGood (popHead s.eng q) (pkf p 2 0 32) (imageWords s.mem s.eng p list) = false) :
    (runCmd q 0x7E s (fwLoadCmd s.mem list)).mem = s.mem ∧
    Answered s.eng (runCmd q 0x7E s (fwLoadCmd s.mem list)).eng (cmdOf q p) stOutOfRange 0 0 ∧
    (runCmd q 0x7E s (fwLoadCmd s.mem list)).eng.ctl.istore = imageWords s.mem s.eng p list ∧
    (runCmd q 0x7E s (fwLoadCmd s.mem list)).eng.ctl.image = s.eng.ctl.image ∧
    (runCmd q 0x7E s (fwLoadCmd s.mem list)).eng.ctl.bootRom = s.eng.ctl.bootRom ∧
    (runCmd q 0x7E s (fwLoadCmd s.mem list)).eng.ctl.cpPc = s.eng.ctl.cpPc ∧
    (runCmd q 0x7E s (fwLoadCmd s.mem list)).eng.valleys = s.eng.valleys ∧
    (runCmd q 0x7E s (fwLoadCmd s.mem list)).eng.ctl.keys = s.eng.ctl.keys := by
  have hcmd := fwLoadCmd_popHead s.mem q list (cmdOf q p) hb hh ha
  rw [if_pos (by rw [hg]; rfl)] at hcmd
  obtain ⟨hm, -, ho, hr⟩ := h.replies (g := copied (imageWords s.mem s.eng p list) (popHead s.eng q))
    ⟨rfl, rfl, rfl, rfl, rfl, List.suffix_rfl⟩ hcmd
  have hctl := kept_popHead s.eng q
  have hv := popHead_valleys s.eng q
  generalize (runCmd q 0x7E s (fwLoadCmd s.mem list)) = t at *
  generalize popHead s.eng q = e at *
  have hk := ho.kept
  generalize t.eng.ctl = c at *
  exact ⟨hm, hr, (congrArg Ctl.istore hk :), (congrArg Ctl.image hk).trans (congrArg Ctl.image hctl :),
    (congrArg Ctl.bootRom hk).trans (congrArg Ctl.bootRom hctl :), (congrArg Ctl.cpPc hk).trans (congrArg Ctl.cpPc hctl :),
    ho.valleys.trans hv, (congrArg Ctl.keys hk).trans (congrArg Ctl.keys hctl :)⟩

end

section
variable {s : State} {q : Nat} {p : BitVec 512}

/-- What PARTITION_GRANT does once it is admitted. -/
theorem Taken.givesPartition (h : Taken s q 0x60 p) (hm : mayGrant (popHead s.eng q) p = true) :
    (runCmd q 0x60 s grantCmd).mem = s.mem ∧
    Answered s.eng (runCmd q 0x60 s grantCmd).eng (cmdOf q p) stOK 0 0 ∧
    (runCmd q 0x60 s grantCmd).eng.ctl.grants = s.eng.ctl.grants ++
      [{ ptag := (pkw p 1).extractLsb' 0 16, vf := pkf p 1 16 6 }] ∧
    (∀ j, j < 64 → (getQ (runCmd q 0x60 s grantCmd).eng j).owner =
      if bit (pkw p 2) j then vfFn (pkf p 1 16 6) else (getQ s.eng j).owner) ∧
    (∀ v, v < 16 → (getV (runCmd q 0x60 s grantCmd).eng v).fn =
      if bit (pkw p 3) v then vfFn (pkf p 1 16 6) else (getV s.eng v).fn) ∧
    Tab.get 0 (runCmd q 0x60 s grantCmd).eng.regs.accReg (0x40 + pkf p 1 16 6) = 0x10681A6B ∧
    Tab.get 0 (runCmd q 0x60 s grantCmd).eng.regs.accFab (1 + pkf p 1 16 6) =
      ((pkw p 1).extractLsb' 0 16 : W16).setWidth 32 ||| 0x10000 ∧
    (∀ j, j ≠ 0x40 + pkf p 1 16 6 →
      Tab.get 0 (runCmd q 0x60 s grantCmd).eng.regs.accReg j = Tab.get 0 s.eng.regs.accReg j) ∧
    (runCmd q 0x60 s grantCmd).eng.regions = s.eng.regions ∧
    (runCmd q 0x60 s grantCmd).eng.basin = (readHead s.eng q).basin ∧
    (runCmd q 0x60 s grantCmd).eng.lanes = s.eng.lanes := by
  obtain ⟨h1, h2, h3, h4⟩ := h.grants hm
  have hspec := grant_spec (popHead s.eng q) ((pkw p 1).extractLsb' 0 16) (pkf p 1 16 6) (bitsOf (pkw p 2) 64)
    (bitsOf (pkw p 3) 16)
  have hget (j : Nat) := getQ_grant (popHead s.eng q) ((pkw p 1).extractLsb' 0 16) (pkf p 1 16 6) (bitsOf (pkw p 2) 64)
    (bitsOf (pkw p 3) 16) j
  have hfn (v : Nat) := fn_grant (popHead s.eng q) ((pkw p 1).extractLsb' 0 16) (pkf p 1 16 6) (bitsOf (pkw p 2) 64)
    (bitsOf (pkw p 3) 16) v
  generalize grant (popHead s.eng q) ((pkw p 1).extractLsb' 0 16) (pkf p 1 16 6) (bitsOf (pkw p 2) 64)
    (bitsOf (pkw p 3) 16) = g at hspec hget hfn h3 h4
  obtain ⟨-, -, -, hregions, hbasin, hlanes, hgrants, hreg, hfab⟩ := hspec
  have hacc : (popHead s.eng q).regs.accReg = s.eng.regs.accReg :=
    (congrArg Regs.accReg (onlyCorrects_readHead s.eng q).regs :)
  refine ⟨h1, h2, ?_, fun j hj => ?_, fun v hv => ?_, ?_, ?_, fun j hj => ?_, ?_, ?_, ?_⟩
  · rw [h3.grants, hgrants, popHead_grants]
  · rw [h4, hget]
    by_cases hb : bit (pkw p 2) j = true
    · rw [if_pos (mem_bitsOf.2 ⟨hj, hb⟩), if_pos hb]
      rfl
    · rw [if_neg fun hm => hb (mem_bitsOf.1 hm).2, if_neg hb, popHead_owner]
  · rw [h3.getV, hfn, popHead_getV]
    by_cases hb : bit (pkw p 3) v = true
    · rw [if_pos (mem_bitsOf.2 ⟨hv, hb⟩), if_pos hb]
    · rw [if_neg fun hm => hb (mem_bitsOf.1 hm).2, if_neg hb]
  · rw [h3.regs, hreg]
    exact Tab.get_set_same _ _ _ _
  · rw [h3.regs, hfab]
    exact Tab.get_set_same _ _ _ _
  · rw [h3.regs, hreg, ← hacc]
    exact Tab.get_set_ne _ _ _ _ _ hj
  · rw [h3.regions, hregions, popHead_regions]
  · rw [h3.basin, hbasin]
    rfl
  · rw [h3.lanes, hlanes, popHead_lanes]

/-- The entry of KEY_LOAD on the engine that its packet was taken from. -/
theorem keyLoadCmd_popHead (m : Mem) (list : List W64) (e : Eng) (q : Nat) (c : Cmd) (p : BitVec 512) :
    keyLoadCmd m list (popHead e q) c p = if mayLoad m e p list then
      loadKey (popHead e q) c (pkf p 1 0 4) (keySlotOf e ((pkw p 1).extractLsb' 16 16))
        (unwrapKey e.side.devKey (keyBlob m e p list))
      else reply0 (popHead e q) c stOutOfRange := by
  rw [keyLoadCmd, mayLoad_popHead, keyLoad_blob, keySlotOf_popHead, popHead_side]

/-- What KEY_LOAD does with an authentic key. -/
theorem Taken.loadsKey {list : List W64} (h : Taken s q 0x78 p) {slot : Nat} {key : BitVec 256}
    (hf : mayLoad s.mem s.eng p list = true) (hs : keySlotOf s.eng ((pkw p 1).extractLsb' 16 16) = some slot)
    (hk : unwrapKey s.eng.side.devKey (keyBlob s.mem s.eng p list) = some key) :
    (runCmd q 0x78 s (keyLoadCmd s.mem list)).mem = s.mem ∧
    Answered s.eng (runCmd q 0x78 s (keyLoadCmd s.mem list)).eng (cmdOf q p) stOK 0 0 ∧
    (runCmd q 0x78 s (keyLoadCmd s.mem list)).eng.ctl.keys = Tab.upd {} s.eng.ctl.keys slot (putKey (pkf p 1 0 4) key) ∧
    (runCmd q 0x78 s (keyLoadCmd s.mem list)).eng.valleys = s.eng.valleys ∧
    (runCmd q 0x78 s (keyLoadCmd s.mem list)).eng.regs = (readHead s.eng q).regs := by
  have hcmd := keyLoadCmd_popHead s.mem list s.eng q (cmdOf q p) p
  have hkeys : (popHead s.eng q).ctl.keys = s.eng.ctl.keys := (congrArg Ctl.keys (kept_popHead s.eng q) :)
  rw [if_pos hf, hs, hk] at hcmd
  obtain ⟨hm, -, ha, hr⟩ := h.replies (g := keyPut (pkf p 1 0 4) slot key (popHead s.eng q))
    ⟨rfl, rfl, rfl, rfl, rfl, List.suffix_rfl⟩ hcmd
  have hv := popHead_valleys s.eng q
  have hg : (popHead s.eng q).regs = (readHead s.eng q).regs := rfl
  generalize runCmd q 0x78 s (keyLoadCmd s.mem list) = t at *
  generalize popHead s.eng q = e at *
  rw [← hkeys, ← hv, ← hg]
  exact ⟨hm, hr, ha.keys, ha.valleys, ha.regs⟩

end

/-- Settles O57: each command by the engine that its entry leaves before its answer. -/
theorem partitionsAndLoads : Obligations.PartitionsAndLoads := by
  refine ⟨fun q s p => ⟨fun h => ?_, fun h => ?_⟩, fun q list s p => ⟨fun h => ?_, fun h => ?_, fun h => ?_⟩⟩
  · have hmay := mayGrant_popHead s.eng q.val p
    rw [exec_partitionGrant]
    refine ⟨fun hf => ⟨_, rfl, h.givesPartition (hmay.trans hf)⟩, fun hf => ⟨_, rfl, h.onlyReplies ?_⟩⟩
    · rw [grantCmd, if_neg (by rw [hmay, hf]; exact Bool.false_ne_true)]
      rfl
  · have hrevoking (fn : Byte) : revoking (popHead s.eng q.val) fn = revoking s.eng fn := by
      rw [revoking, revoking, popHead_revokes]
    rw [exec_partitionRevoke]
    refine ⟨fun g hg hr => ⟨revokeBegun (popHead s.eng q.val) (cmdOf q.val p) ((pkw p 1).extractLsb' 0 16) g.vf, ?_, ?_⟩,
      fun hn => ⟨_, rfl, h.onlyReplies ?_⟩⟩
    · rw [runCmd_of_taken h, revokeCmd, popHead_grants, hg, revokeOf_some ((hrevoking _).trans hr), beginRevoke_eq]
    · have hside := popHead_side s.eng q.val
      refine ⟨?_, ?_, ?_, popHead_valleys _ _, popHead_regions _ _, rfl, rfl⟩
      · show _ ∈ ((popHead s.eng q.val).side.revoked ++ [_]).drop ((popHead s.eng q.val).side.revoked.length + 1 - 64)
        rw [List.drop_append_of_le_length (by omega)]
        exact List.mem_append_right _ (List.mem_singleton.2 rfl)
      · show (((popHead s.eng q.val).side.revoked ++ [_]).drop ((popHead s.eng q.val).side.revoked.length + 1 - 64)).length ≤ _
        rw [hside, List.length_drop, List.length_append, List.length_singleton]
        omega
      · show (popHead s.eng q.val).ctl.revokes ++ _ = _
        rw [popHead_revokes, popHead_acc]
    · rw [revokeCmd, popHead_grants]
      cases hg : s.eng.ctl.grants.find? (fun g => decide (g.ptag = (pkw p 1).extractLsb' 0 16)) with
      | none => rfl
      | some g => exact if_pos ((hrevoking _).trans (hn g hg))
  · have hmay := mayScrub_popHead s.eng q.val p
    have hkey : (popHead s.eng q.val).ctl.scrubKey = s.eng.ctl.scrubKey := (congrArg Ctl.scrubKey (kept_popHead s.eng q.val) :)
    have hzero : scrubbing s.mem (popHead s.eng q.val) p =
        zeroRange s.mem (popHead s.eng q.val) (addrOf (pkw p 1)) (pkw p 2).toNat (.scrub s.eng.ctl.scrubKey) := by
      rw [scrubbing, hkey]
    have hio := zeroRange_eq s.mem (popHead s.eng q.val) (addrOf (pkw p 1)) (pkw p 2).toNat (.scrub s.eng.ctl.scrubKey)
    have hsteady := steady_zeroRange s.mem (popHead s.eng q.val) (addrOf (pkw p 1)) (pkw p 2).toNat
      (.scrub s.eng.ctl.scrubKey)
    have hcmd := scrubCmd_eq s.mem (popHead s.eng q.val) (cmdOf q.val p) p
    rw [hmay, hzero, hkey] at hcmd
    rw [exec_scrub]
    dsimp only
    generalize zeroRange s.mem (popHead s.eng q.val) (addrOf (pkw p 1)) (pkw p 2).toNat (.scrub s.eng.ctl.scrubKey) = f at *
    have hvalleys : f.valleys = s.eng.valleys := (congrArg Eng.valleys hio).trans (popHead_valleys _ _)
    have hregions : f.regions = s.eng.regions := (congrArg Eng.regions hio).trans (popHead_regions _ _)
    refine ⟨fun hf hn => ⟨_, rfl, ?_⟩, fun hf hn => ⟨_, rfl, ?_⟩, fun hf => ⟨_, rfl, h.onlyReplies ?_⟩⟩
    · have hfit : mayScrub s.eng p = true := hf
      have hlen : (scrubAccs s.eng.ctl.scrubKey f).length = 0 := List.length_eq_zero_iff.2 hn
      rw [if_pos hfit, if_pos hlen] at hcmd
      obtain ⟨hm, -, ha, hr⟩ := h.replies hsteady hcmd
      exact ⟨hm, hr, ha.valleys.trans hvalleys, ha.regions.trans hregions⟩
    · have hfit : mayScrub s.eng p = true := hf
      have hlen : (scrubAccs s.eng.ctl.scrubKey f).length ≠ 0 := fun h0 => hn (List.length_eq_zero_iff.1 h0)
      rw [if_pos hfit, if_neg hlen] at hcmd
      obtain ⟨hm, -, ha⟩ := h.runs (scrubCmd s.mem)
      rw [hcmd] at ha
      have hscrubs : f.ctl.scrubs = s.eng.ctl.scrubs :=
        (congrArg (fun e => e.ctl.scrubs) hio).trans (congrArg Ctl.scrubs (kept_popHead s.eng q.val) :)
      refine ⟨hm, ha.acc, (congrArg Ctl.scrubs ha.kept).trans ?_, ha.valleys.trans hvalleys, ha.regions.trans hregions⟩
      rw [← hscrubs]
      rfl
    · have hfit : mayScrub s.eng p = false := hf
      rw [hcmd]
      exact if_neg (by rw [hfit]; exact Bool.false_ne_true)
  · rw [exec_keyLoad]
    refine ⟨fun slot key hf hs hk => ⟨_, rfl, ?_⟩, fun hn => ⟨_, rfl, h.onlyReplies ?_⟩⟩
    · obtain ⟨hm, hr, hput, hv, hg⟩ := h.loadsKey hf hs hk
      refine ⟨hm, hr, ?_, fun j hj => ?_, hv, hg⟩
      · rw [hput]
        exact Tab.get_set_same _ _ _ _
      · rw [hput]
        exact Tab.get_set_ne _ _ _ _ _ hj
    · rw [keyLoadCmd_popHead]
      obtain hf | hn := hn
      · exact if_neg (by rw [show mayLoad s.mem s.eng p list = false from hf]; exact Bool.false_ne_true)
      · have hnone : keySlotOf s.eng ((pkw p 1).extractLsb' 16 16) = none ∨
            unwrapKey s.eng.side.devKey (keyBlob s.mem s.eng p list) = none := hn
        rw [loadKey_of_none _ _ _ hnone, ite_self]
        rfl
  · rw [exec_fwLoad]
    refine ⟨fun hb => ⟨_, rfl, h.onlyReplies ?_⟩, fun hb hh ha hg => ⟨_, rfl, h.loadsImage hb hh ha hg⟩,
      fun hb hn => ⟨_, rfl, h.onlyReplies ?_⟩, fun hb hh ha hg => ⟨_, rfl, h.refusesImage hb hh ha hg⟩⟩
    · exact if_pos ((anyBound_popHead _ _).trans hb)
    · have hno : (!isHost (pkw p 1) || !addrOk (pkw p 1) 8 (pkf p 2 0 32) pkgBytes) = true := by
        obtain hn | hn := hn
        · rw [hn]; rfl
        · rw [hn]; simp
      exact (if_neg (by rw [anyBound_popHead, hb]; exact Bool.false_ne_true)).trans (if_pos hno)

end Sys2Proof.Machine

/-!
VALLEY_JOIN, VALLEY_LEAVE, the orderly stop and JOIN_HELLO (R70, R254, R265 to R269, R273).
-/

namespace Sys2Proof.Machine

theorem not_of_false {b : Bool} (h : b = false) : (!b) = true := by rw [h]; rfl

theorem not_not_of_true {b : Bool} (h : b = true) : ¬ (!b) = true := by rw [h]; exact Bool.false_ne_true

/-! ## VALLEY_JOIN (R265 to R268) -/

/-- May the slot of a packet join with a member table (R265)? -/
def mayJoin (e : Eng) (p : BitVec 512) (t : List Member × W64) : Bool :=
  decide ((getV e (pkValley p)).slot = .defined) && decide (pkf p 1 0 6 < (getV e (pkValley p)).n) &&
    addrOk (pkw p 5) 8 (8 * (getV e (pkValley p)).n) pkgBytes &&
    tableGood e (getV e (pkValley p)).n (pkf p 1 0 6) (bit (pkw p 1) 6) t.1 t.2 &&
    parityAreaOk e (pkValley p) (bit (pkw p 1) 6) (pkw p 2) && slotNamed e (pkValley p)

/-- The wait of a join that has just begun. -/
def joinBegun (e : Eng) (c : Cmd) : JoinWait := { cmd := c, since := e.side.ts, helloTs := e.side.ts, matched := 0, complete := 0 }

/-- The Valley of a slot that joins or stands by, before its streams start. -/
def boundSlot (e : Eng) (c : Cmd) (p : BitVec 512) (t : List Member × W64) : Valley :=
  { bareValley (getV e (pkValley p)) with
    slot := if !bit t.2 (pkf p 1 0 6) then .standby else .joining
    self := pkf p 1 0 6, parity := bit (pkw p 1) 6, area := addrOf (pkw p 2)
    areaLen := 4096 * parityTotal e (pkValley p), members := t.1
    live := if !bit t.2 (pkf p 1 0 6) then 0 else t.2
    base := BitVec.ofNat 32 (pkf p 4 0 32), firstEpoch := pkw p 3, epoch := pkw p 3, step := 0, ws := none
    joinWait := if !bit t.2 (pkf p 1 0 6) then none else some (joinBegun e c) }

/-- The Valley of a slot that joins or stands by. -/
def boundValley (e : Eng) (c : Cmd) (p : BitVec 512) (t : List Member × W64) : Valley :=
  startStreams (boundSlot e c p t) (BitVec.ofNat 32 (pkf p 4 0 32))

/-- The engine with the slot bound and its pages reserved. -/
def slotBegun (e : Eng) (c : Cmd) (p : BitVec 512) (t : List Member × W64) : Eng :=
  bindPages (setV e (pkValley p) (boundValley e c p t)) (pkValley p)

theorem joinValley_of_may {e : Eng} {c : Cmd} {p : BitVec 512} {ws : List W64} (h : mayJoin e p (memberTable ws) = true) :
    joinValley e c p ws = if !bit (memberTable ws).2 (pkf p 1 0 6) then reply0 (slotBegun e c p (memberTable ws)) c stOK
      else sendHellos (slotBegun e c p (memberTable ws)) (pkValley p) := by
  simp only [mayJoin, Bool.and_eq_true, decide_eq_true_eq] at h
  obtain ⟨⟨⟨⟨⟨h1, h2⟩, h3⟩, h4⟩, h5⟩, h6⟩ := h
  refine (if_neg ?_).trans (if_neg ?_)
  · rintro (hc | hc | hc)
    · exact hc h1
    · exact absurd h2 (Nat.not_lt.2 hc)
    · rw [h3] at hc
      cases hc
  · rw [h4, h5, h6]
    exact Bool.false_ne_true

theorem joinValley_of_not {e : Eng} {c : Cmd} {p : BitVec 512} {ws : List W64} (h : mayJoin e p (memberTable ws) = false) :
    joinValley e c p ws = reply0 e c stOutOfRange := by
  by_cases h1 : (getV e (pkValley p)).slot ≠ .defined ∨ (getV e (pkValley p)).n ≤ pkf p 1 0 6 ∨
      (!addrOk (pkw p 5) 8 (8 * (getV e (pkValley p)).n) pkgBytes) = true
  · exact if_pos h1
  · refine (if_neg h1).trans (if_pos ?_)
    simp only [not_or, Classical.not_not, Nat.not_le, Bool.not_eq_true', Bool.not_eq_false] at h1
    obtain ⟨hs, hn, ha⟩ := h1
    rw [mayJoin, decide_eq_true hs, decide_eq_true hn, ha] at h
    simpa [Bool.and_assoc, ← Bool.not_and] using h

theorem parityAreaOk_congr {e f : Eng} (hv : f.valleys = e.valleys) (hr : f.regions = e.regions)
    (hs : ∀ a n, hitsSpill f a n = hitsSpill e a n) (v : Nat) (b : Bool) (a : W64) :
    parityAreaOk f v b a = parityAreaOk e v b a := by
  have hu : regionsUnder f v b = regionsUnder e v b := by rw [regionsUnder, regionsUnder, hr]
  simp only [parityAreaOk, parityTotal_congr hv hr, hitsParity_congr hv hr, hs]
  rw [hitsRegion_congr (e := { e with regions := regionsUnder e v b }) (f := { f with regions := regionsUnder f v b }) hv hu]

theorem mayJoin_popHead (e : Eng) (q : Nat) (p : BitVec 512) (t : List Member × W64) :
    mayJoin (popHead e q) p t = mayJoin e p t := by
  have hnode : (popHead e q).ctl.node = e.ctl.node := (congrArg Ctl.node (kept_popHead e q) :)
  rw [mayJoin, mayJoin, popHead_getV, parityAreaOk_congr (popHead_valleys _ _) (popHead_regions _ _) (hitsSpill_popHead _ _)]
  simp only [tableGood, hnode, slotNamed, valleyRegions, popHead_regions]

theorem bindPages_basinOnly (e : Eng) (v : Nat) : BasinOnly e (bindPages e v) := by
  have hstage (f : Eng) : BasinOnly f (match allocPage f 5 (.spillStage v) with
      | some (_, e2) => e2
      | none => f) := by
    split
    · next g e2 h => rw [allocPage_eq h]; rfl
    · exact .refl f
  unfold bindPages
  refine BasinOnly.trans ?_ (hstage _)
  split
  · next gs e1 h => exact reservePages_basinOnly h
  · exact .refl e

theorem BasinOnly.steady {e f : Eng} (h : BasinOnly e f) : Steady e f := by
  have h' : f = { e with basin := f.basin } := h
  rw [h']
  exact .of_same rfl rfl rfl

section
variable (e : Eng) (c : Cmd) (p : BitVec 512) (t : List Member × W64)

theorem slotBegun_eq : slotBegun e c p t =
    { setV e (pkValley p) (boundValley e c p t) with basin := (slotBegun e c p t).basin } :=
  bindPages_basinOnly _ _

theorem steady_slotBegun : Steady e (slotBegun e c p t) :=
  (steady_setV _ _ _).trans (bindPages_basinOnly _ _).steady

theorem getV_slotBegun : getV (slotBegun e c p t) (pkValley p) = boundValley e c p t := by
  rw [slotBegun_eq]
  exact Tab.get_set_same _ _ _ _

theorem getV_slotBegun_ne {w : Nat} (h : w ≠ pkValley p) : getV (slotBegun e c p t) w = getV e w := by
  rw [slotBegun_eq]
  exact Tab.get_set_ne _ _ _ _ _ h

theorem slotBegun_kept : (slotBegun e c p t).regions = e.regions ∧ (slotBegun e c p t).spill = e.spill ∧
    (slotBegun e c p t).io = e.io := by
  rw [slotBegun_eq]
  exact ⟨rfl, rfl, rfl⟩

end

theorem Tab.get_map_key {α : Type} (y d : α) {ks : List Nat} {k : Nat} (h : k ∈ ks) :
    Tab.get d (ks.map fun j => (j, y)) k = y := by
  induction ks with
  | nil => cases h
  | cons j ks ih =>
    by_cases hj : k = j
    · exact if_pos hj
    · refine (if_neg hj).trans ?_
      exact ih ((List.mem_cons.1 h).resolve_left hj)

/-- The streams of a slot that joins or stands by start at the base. -/
theorem streams_boundValley {e : Eng} {p : BitVec 512} (c : Cmd) (t : List Member × W64) {d : Nat}
    (h : d ∈ distances (getV e (pkValley p))) :
    (getOut (boundValley e c p t) d).next = BitVec.ofNat 32 (pkf p 4 0 32) ∧
    (getIn (boundValley e c p t) d).a = BitVec.ofNat 32 (pkf p 4 0 32) := by
  have hd : d ∈ distances (boundSlot e c p t) := h
  exact ⟨congrArg OutStream.next (Tab.get_map_key _ _ hd), congrArg InStream.a (Tab.get_map_key _ _ hd)⟩

theorem all_bit_zero (is : List Nat) : is.all (bit (0 : W64)) = is.isEmpty := by
  cases is with
  | nil => rfl
  | cons i is => simp [bit]

/-- A hello speaks of the regions and of the Valley's shape. -/
theorem helloOf_congr {e f : Eng} {v : Nat} (hr : f.regions = e.regions)
    (hv : { getV f v with joinWait := none } = { getV e v with joinWait := none }) (complete answer : Bool) (base : W32) :
    helloOf f v complete answer base = helloOf e v complete answer base := by
  have hshape : shapeCheck f v = shapeCheck e v := by simp only [shapeCheck, valleyRegions, hr, getR]
  have hparity : (getV f v).parity = (getV e v).parity := (congrArg Valley.parity hv :)
  have hn : (getV f v).n = (getV e v).n := (congrArg Valley.n hv :)
  have hk : (getV f v).k = (getV e v).k := (congrArg Valley.k hv :)
  have hm : (getV f v).m = (getV e v).m := (congrArg Valley.m hv :)
  have halpha : (getV f v).alpha = (getV e v).alpha := (congrArg Valley.alpha hv :)
  simp only [helloOf, hshape, reachList_congr hr, hparity, hn, hk, hm, halpha]

/-- VALLEY_JOIN once its packet is at hand. -/
def joinCmd (m : Mem) (table : List W64) (e : Eng) (c : Cmd) (p : BitVec 512) : Eng :=
  joinValley e c p (paramWords m e (pkw p 5) (getV e (pkValley p)).n table)

theorem exec_valleyJoin (q : Fin 64) (table : List W64) (s : State) :
    exec (.valleyJoin q table) s = .next (runCmd q.val 0x11 s (joinCmd s.mem table)) := rfl

/-! ## VALLEY_LEAVE (R254, R269) -/

/-- A Valley without what a leave ends: drains, exports and runs; and with its register fields as they were latched. -/
def workless (x : Valley) : Valley :=
  { x with t1 := none, t1o := {}, t2 := none, t2o := {}, expo := {}, runs := [], oldRuns := [], hops := [], regs := {} }

section
variable (e : Eng) (v : Nat)

theorem getV_raise (code st : W16) (w : Option Nat) (r0 r1 : W64) : getV (raise e code st w r0 r1) v = getV e v :=
  (onlyEvents_raise _ _ _ _ _ _).answers.getV v

theorem workless_endT1 (reason : Nat) : workless (getV (endT1 e v reason) v) = workless (getV e v) := by
  unfold endT1
  split
  · rfl
  · refine (congrArg workless (getV_raise _ _ _ _ _ _ _)).trans ?_
    rw [getV_updV_same]
    rfl

theorem workless_endT2 (reason : Nat) : workless (getV (endT2 e v reason) v) = workless (getV e v) := by
  unfold endT2
  split
  · rfl
  · refine (congrArg workless (getV_raise _ _ _ _ _ _ _)).trans ?_
    rw [getV_updV_same]
    rfl

theorem getV_drainDone (terrace reason : Nat) (full : Bool) (number : Nat) (ws : W64) :
    getV (drainDone e v terrace reason full number ws) v = getV e v := getV_raise _ _ _ _ _ _ _

theorem getV_endWaiting : getV (endWaiting e v) v = getV e v := by
  unfold endWaiting
  dsimp only
  generalize (getV e v).t1o.asked = asked
  generalize (getV e v).t2o.next = next
  cases asked with
  | none =>
    cases next with
    | none => rfl
    | some n =>
      dsimp only
      split
      · rfl
      · exact getV_drainDone _ _ _ _ _ _ _
  | some full =>
    cases next with
    | none => exact getV_drainDone _ _ _ _ _ _ _
    | some n =>
      dsimp only
      split
      · exact getV_drainDone _ _ _ _ _ _ _
      · rw [getV_drainDone, getV_drainDone]

theorem addStats_eq (j : ExpJob) : addStats e j = { e with io := (addStats e j).io } :=
  foldl_io (fun e _ => accumBytes_eq e _ _ _) _ _

theorem workless_endJob (reason : Nat) : workless (getV (endJob e v reason) v) = workless (getV e v) := by
  unfold endJob
  dsimp only
  split
  · rfl
  · next j rest _ =>
    have hstats : getV (freeBasin (addStats e j) j.pages) v = getV e v := by rw [addStats_eq]; rfl
    refine (congrArg workless (getV_raise _ _ _ _ _ _ _)).trans ?_
    rw [getV_updV_same, hstats]
    rfl

theorem workless_leaveExport : workless (getV (leaveExport e v) v) = workless (getV e v) := by
  have hjobs : ∀ (js : List ExpJob) (e : Eng),
      workless (getV (js.foldl (fun e _ => endJob e v 1) e) v) = workless (getV e v) := by
    intro js
    induction js with
    | nil => exact fun _ => rfl
    | cons j js ih => exact fun e => (ih _).trans (workless_endJob e v 1)
  unfold leaveExport
  dsimp only
  rw [getV_updV_same]
  exact (read_view (π := workless) (hjobs (getV e v).expo.jobs e) (fun z => workless { z with expo := {} }) fun _ => rfl)

theorem workless_endRuns (m : Mem) (st : W16) : workless (getV (endRuns m e v st) v) = workless (getV e v) :=
  read_view (alike_endRuns m e v st).here workless fun _ => rfl

end

/-- The engine whose drains, exports and runs a leave has ended. -/
def workEnded (m : Mem) (e : Eng) (v : Nat) : Eng :=
  endRuns m (leaveExport (endWaiting (endT2 (endT1 (latch e v) v 9) v 9) v) v) v stPeerTimeout

theorem leaveValley_eq (m : Mem) (e : Eng) (v : Nat) : leaveValley m e v =
    if isJoined (getV e v) then clearEvents (unbind (stopBeacons (workEnded m e v) v) v) v
    else unbind (stopBeacons (workEnded m e v) v) v := rfl

theorem workless_workEnded (m : Mem) (e : Eng) (v : Nat) : workless (getV (workEnded m e v) v) = workless (getV e v) := by
  rw [workEnded, workless_endRuns, workless_leaveExport, getV_endWaiting, workless_endT2, workless_endT1, getV_latch]
  rfl

theorem getV_stopBeacons (e : Eng) (v w : Nat) : getV (stopBeacons e v) w = getV e w := rfl

theorem clearEvents_basin (e : Eng) (v : Nat) : (clearEvents e v).basin = e.basin := rfl

theorem getV_leaveValley (m : Mem) (e : Eng) (v : Nat) :
    getV (leaveValley m e v) v = bareValley (getV (workEnded m e v) v) ∧
    (leaveValley m e v).basin = (unbind (stopBeacons (workEnded m e v) v) v).basin := by
  have hbare : getV (unbind (stopBeacons (workEnded m e v) v) v) v = bareValley (getV (workEnded m e v) v) := by
    rw [getV_unbind, getV_stopBeacons]
  rw [leaveValley_eq]
  split
  · exact ⟨(getV_clearEvents _ _ _).trans hbare, clearEvents_basin _ _⟩
  · exact ⟨hbare, rfl⟩

/-- The entry of VALLEY_LEAVE. -/
def leaveCmd (m : Mem) (e : Eng) (c : Cmd) (p : BitVec 512) : Eng :=
  if ((getV e (pkValley p)).slot ≠ .joined ∧ (getV e (pkValley p)).slot ≠ .standby) ∨ anyWaits (getV e (pkValley p)) then
    reply0 e c stOutOfRange
  else orderlyStop (leaveValley m e (pkValley p)) c

theorem exec_valleyLeave (q : Fin 64) (s : State) : exec (.valleyLeave q) s = .next (runCmd q.val 0x12 s (leaveCmd s.mem)) := rfl

/-! ## The orderly stop (R273) -/

/-- The spill pages that an orderly stop frees. -/
def stopPages (e : Eng) : List Nat := (e.spill.pages.filter fun x => decide ((getV e x.2.v).slot ≠ .joining)).map (·.1)

theorem orderlyStop_of_standing {e : Eng} (c : Cmd) (h : (e.valleys.any fun y => standsUp y.2) = true) :
    orderlyStop e c = reply0 e c stOK := if_pos h

theorem orderlyStop_of_last {e : Eng} (c : Cmd) (h : (e.valleys.any fun y => standsUp y.2) = false) :
    orderlyStop e c = if (freeSpill e (stopPages e)).spill.zeroing.isEmpty then stopDone (freeSpill e (stopPages e)) c
      else { freeSpill e (stopPages e) with ctl := { (freeSpill e (stopPages e)).ctl with
        stops := (freeSpill e (stopPages e)).ctl.stops ++ [{ cmd := c, pages := (freeSpill e (stopPages e)).spill.zeroing }] } } :=
  if_neg (by rw [h]; exact Bool.false_ne_true)

theorem Tab.mem_del {α : Type} {x : Nat × α} {t : Tab α} {k : Nat} (h : x ∈ Tab.del t k) : x ∈ t ∧ x.1 ≠ k := by
  induction t with
  | nil => cases h
  | cons p r ih =>
    rw [Tab.del] at h
    split at h
    · exact ⟨List.mem_cons_of_mem _ (ih h).1, (ih h).2⟩
    · next hk =>
      obtain rfl | hr := List.mem_cons.1 h
      · exact ⟨List.mem_cons_self, Ne.symm hk⟩
      · exact ⟨List.mem_cons_of_mem _ (ih hr).1, (ih hr).2⟩

theorem mem_foldl_del {α : Type} {x : Nat × α} (gs : List Nat) (t : Tab α) (h : x ∈ gs.foldl Tab.del t) : x ∈ t ∧ x.1 ∉ gs := by
  induction gs generalizing t with
  | nil => exact ⟨h, List.not_mem_nil⟩
  | cons g gs ih =>
    obtain ⟨hd, hn⟩ := ih _ h
    obtain ⟨hx, hg⟩ := Tab.mem_del hd
    exact ⟨hx, fun hc => (List.mem_cons.1 hc).elim hg hn⟩

/-- What an orderly stop leaves in use belongs to slots that join. -/
theorem slot_of_kept {e : Eng} {x : Nat × SPage} (h : x ∈ (freeSpill e (stopPages e)).spill.pages) :
    (getV e x.2.v).slot = .joining := by
  obtain ⟨hx, hn⟩ := mem_foldl_del _ _ h
  refine Classical.byContradiction fun hs => hn (List.mem_map.2 ⟨x, List.mem_filter.2 ⟨hx, decide_eq_true hs⟩, rfl⟩)

theorem stopDone_spec {e f : Eng} {c : Cmd} (k : Steady e f) (hh : e.ctl.cpHaltBit = false) :
    (stopDone f c).ctl.opened = false ∧ (stopDone f c).spill = f.spill ∧ Answered e (stopDone f c) c stOK 0 0 := by
  have hans := onlyAnswers_reply { f with ctl := { f.ctl with opened := false } } c stOK 0 0
  have hk : Steady f { f with ctl := { f.ctl with opened := false } } := ⟨rfl, rfl, rfl, rfl, rfl, List.suffix_rfl⟩
  exact ⟨(congrArg Ctl.opened hans.kept :), hans.spill, (k.trans hk).answered hh _ _ _ _⟩

/-! ## JOIN_HELLO (R267, R268) -/

/-- A Valley that has joined. -/
def joinedValley (ts : W64) (x : Valley) : Valley :=
  { x with slot := .joined, joinWait := none, phase := .idle, t1o := { x.t1o with timerTs := ts } }

/-- The engine in which a slot has joined, before its command is answered. -/
def joinedEng (e : Eng) (v : Nat) : Eng := startWatch (clearEvents (updV e v (joinedValley e.side.ts)) v) v

theorem joinOk_eq (e : Eng) (v : Nat) (w : JoinWait) : joinOk e v w = reply0 (joinedEng e v) w.cmd stOK := rfl

/-- A Valley without its peers. -/
def peerless (x : Valley) : Valley := { x with peers := [] }

/-- An engine without its Valleys. -/
def valleyless (e : Eng) : Eng := { e with valleys := [] }

theorem alike_startWatch (e : Eng) (v : Nat) : Alike valleyless peerless v e (startWatch e v) :=
  .foldl (fun _ _ => .updV rfl rfl) _ _

theorem steady_joinedEng (e : Eng) (v : Nat) : Steady e (joinedEng e v) := by
  have hwatch (f : Eng) : Steady f (startWatch f v) := .foldl (fun e _ => steady_updV e _ _) _ _
  refine Steady.trans ?_ (hwatch _)
  exact (steady_updV e v (joinedValley e.side.ts)).trans (.of_same rfl rfl rfl)

theorem getV_joinedEng (e : Eng) (v : Nat) :
    peerless (getV (joinedEng e v) v) = peerless (joinedValley e.side.ts (getV e v)) := by
  refine (alike_startWatch _ v).here.trans ?_
  rw [getV_clearEvents, getV_updV_same]

/-- The wait of a join after a hello that matches. -/
def hearHello (w : JoinWait) (sender : Nat) (complete : Bool) : JoinWait :=
  { w with matched := setBit w.matched sender, complete := if complete then setBit w.complete sender else w.complete }

section
variable {e : Eng} {v sender : Nat} {epoch : W64} {h : Hello}

theorem onHello_of_joining {w : JoinWait} (hs : (getV e v).slot = .joining) (hw : (getV e v).joinWait = some w) :
    onHello e v sender epoch h =
      if !helloMatches (helloDiff e v sender epoch (getV e v).firstEpoch (getV e v).base h) then
        endJoin (joinMismatch e v sender (helloDiff e v sender epoch (getV e v).firstEpoch (getV e v).base h) h) v stOutOfRange
      else if (othersLive (getV e v)).all (bit (hearHello w sender h.complete).complete) then
        joinOk (updV e v fun x => { x with joinWait := some (hearHello w sender h.complete) }) v (hearHello w sender h.complete)
      else updV e v fun x => { x with joinWait := some (hearHello w sender h.complete) } := by
  unfold onHello
  dsimp only
  rw [hs]
  dsimp only
  rw [hw]
  rfl

theorem onHello_of_joined (hs : (getV e v).slot = .joined) : onHello e v sender epoch h =
    if h.answer then e
    else queueCtl e [ctlTo (getV e v) v sender (getV e v).firstEpoch (.hello (helloOf e v true true (getV e v).base))] := by
  unfold onHello
  dsimp only
  rw [hs]
  rfl

end

theorem endJoin_of_some {e : Eng} {v : Nat} {w : JoinWait} (h : (getV e v).joinWait = some w) (st : W16) :
    endJoin e v st = reply0 (unbind e v) w.cmd st := by simp only [endJoin, h]

/-- A join whose peer differs ends. -/
theorem mismatch_spec {e : Eng} {v : Nat} {w : JoinWait} (hw : (getV e v).joinWait = some w) (hh : e.ctl.cpHaltBit = false)
    (sender : Nat) (ds : List (Nat × Nat)) (h : Hello) :
    (getV (endJoin (joinMismatch e v sender ds h) v stOutOfRange) v).slot = .defined ∧
    (getV (endJoin (joinMismatch e v sender ds h) v stOutOfRange) v).joinWait = none ∧
    Answered e (endJoin (joinMismatch e v sender ds h) v stOutOfRange) w.cmd stOutOfRange 0 0 := by
  have hv : getV (joinMismatch e v sender ds h) v = getV e v := getV_raise _ _ _ _ _ _ _
  have hk : Steady e (unbind (joinMismatch e v sender ds h) v) := (steady_raise _ _ _ _ _ _).trans (steady_unbind _ _)
  have hget : getV (reply0 (unbind (joinMismatch e v sender ds h) v) w.cmd stOutOfRange) v =
      bareValley (getV (joinMismatch e v sender ds h) v) :=
    ((onlyAnswers_reply _ _ _ _ _).getV v).trans (getV_unbind _ _)
  rw [endJoin_of_some (by rw [hv]; exact hw), hget]
  exact ⟨rfl, rfl, hk.answered hh _ _ _ _⟩

/-- A join that is complete returns OK. -/
theorem joinOk_spec {e : Eng} {v : Nat} {w : JoinWait} (hh : e.ctl.cpHaltBit = false) :
    (getV (joinOk e v w) v).slot = .joined ∧ (getV (joinOk e v w) v).joinWait = none ∧
    (getV (joinOk e v w) v).phase = .idle ∧ (getV (joinOk e v w) v).live = (getV e v).live ∧
    Answered e (joinOk e v w) w.cmd stOK 0 0 := by
  have hget : getV (reply0 (joinedEng e v) w.cmd stOK) v = getV (joinedEng e v) v := (onlyAnswers_reply _ _ _ _ _).getV v
  have hread {α : Type} (k : Valley → α) (hk : ∀ z, k (peerless z) = k z) := read_view (getV_joinedEng e v) k hk
  rw [joinOk_eq, hget]
  exact ⟨hread Valley.slot fun _ => rfl, hread Valley.joinWait fun _ => rfl, hread Valley.phase fun _ => rfl,
    hread Valley.live fun _ => rfl, (steady_joinedEng e v).answered hh _ _ _ _⟩

theorem steady_heard (e : Eng) (v i : Nat) : Steady e (heard e v i) := by
  obtain ⟨win, res, hh⟩ := heard_eq e v i
  rw [hh]
  exact ⟨rfl, rfl, rfl, rfl, rfl, List.suffix_rfl⟩

/-- A packet's differences do not depend on when its sender was last heard. -/
theorem helloDiff_heard (e : Eng) (v i sender : Nat) (epoch expected : W64) (base : W32) (h : Hello) :
    helloDiff (heard e v i) v sender epoch expected base h = helloDiff e v sender epoch expected base h := by
  have hv := getV_heard e v i
  have hregs : (heard e v i).regions = e.regions := by
    obtain ⟨win, res, hh⟩ := heard_eq e v i
    rw [hh]
    rfl
  have hshape : shapeCheck (heard e v i) v = shapeCheck e v := by simp only [shapeCheck, valleyRegions, hregs, getR]
  have hwait : peerless (getV (heard e v i) v) = peerless (getV e v) := by rw [hv]; rfl
  have hmember : isParity (getV (heard e v i) v) sender = isParity (getV e v) sender :=
    read_view hwait (isParity · sender) fun _ => rfl
  have hparity : (getV (heard e v i) v).parity = (getV e v).parity := (congrArg Valley.parity hwait :)
  have hn : (getV (heard e v i) v).n = (getV e v).n := (congrArg Valley.n hwait :)
  have hk : (getV (heard e v i) v).k = (getV e v).k := (congrArg Valley.k hwait :)
  have hm : (getV (heard e v i) v).m = (getV e v).m := (congrArg Valley.m hwait :)
  have halpha : (getV (heard e v i) v).alpha = (getV e v).alpha := (congrArg Valley.alpha hwait :)
  simp only [helloDiff, helloOf, hshape, reachList_congr hregs, hmember, hparity, hn, hk, hm, halpha]
  rfl

/-- A hello reads the slot and the regions, which a hearing leaves. -/
theorem helloOf_heard (e : Eng) (v i : Nat) (complete answer : Bool) (base : W32) :
    helloOf (heard e v i) v complete answer base = helloOf e v complete answer base := by
  have hregs : (heard e v i).regions = e.regions := by
    obtain ⟨win, res, hh⟩ := heard_eq e v i
    rw [hh]
    rfl
  have hwait : peerless (getV (heard e v i) v) = peerless (getV e v) := by rw [getV_heard]; rfl
  have hshape : shapeCheck (heard e v i) v = shapeCheck e v := by simp only [shapeCheck, valleyRegions, hregs, getR]
  have hparity : (getV (heard e v i) v).parity = (getV e v).parity := (congrArg Valley.parity hwait :)
  have hn : (getV (heard e v i) v).n = (getV e v).n := (congrArg Valley.n hwait :)
  have hk : (getV (heard e v i) v).k = (getV e v).k := (congrArg Valley.k hwait :)
  have hm : (getV (heard e v i) v).m = (getV e v).m := (congrArg Valley.m hwait :)
  have halpha : (getV (heard e v i) v).alpha = (getV e v).alpha := (congrArg Valley.alpha hwait :)
  simp only [helloOf, hshape, reachList_congr hregs, hparity, hn, hk, hm, halpha]

/-! ## The four parts -/

section
variable {s : State} {q : Nat} {p : BitVec 512} {table : List W64}

/-- The member table of a VALLEY_JOIN. -/
def joinTable (m : Mem) (e : Eng) (p : BitVec 512) (table : List W64) : List Member × W64 :=
  memberTable (paramWords m e (pkw p 5) (getV e (pkValley p)).n table)

theorem joinTable_popHead (m : Mem) (e : Eng) (q : Nat) (p : BitVec 512) (table : List W64) :
    joinTable m (popHead e q) p table = joinTable m e p table := by
  rw [joinTable, joinTable, popHead_getV, paramWords_congr (popHead_acc e q)]

theorem joinCmd_of_may {m : Mem} {e : Eng} {c : Cmd} (h : mayJoin e p (joinTable m e p table) = true) :
    joinCmd m table e c p = if !bit (joinTable m e p table).2 (pkf p 1 0 6) then
      reply0 (slotBegun e c p (joinTable m e p table)) c stOK
      else sendHellos (slotBegun e c p (joinTable m e p table)) (pkValley p) := joinValley_of_may h

/-- A Valley without its waiting join. -/
def joinless (x : Valley) : Valley := { x with joinWait := none }

/-- What of a bound slot a join or a stand-by leaves, up to its waiting join. -/
theorem Taken.binds (h : Taken s q 0x11 p) (hm : mayJoin s.eng p (joinTable s.mem s.eng p table) = true) :
    joinless (getV (runCmd q 0x11 s (joinCmd s.mem table)).eng (pkValley p)) =
      joinless (boundValley (popHead s.eng q) (cmdOf q p) p (joinTable s.mem s.eng p table)) ∧
    (∀ w, w ≠ pkValley p → getV (runCmd q 0x11 s (joinCmd s.mem table)).eng w = getV s.eng w) ∧
    (runCmd q 0x11 s (joinCmd s.mem table)).eng.regions = s.eng.regions ∧
    (runCmd q 0x11 s (joinCmd s.mem table)).eng.spill = s.eng.spill := by
  have htable := joinTable_popHead s.mem s.eng q p table
  have hcmd : joinCmd s.mem table (popHead s.eng q) (cmdOf q p) p = _ :=
    joinCmd_of_may (by rw [htable, mayJoin_popHead]; exact hm)
  obtain ⟨-, -, ha⟩ := h.runs (joinCmd s.mem table)
  obtain ⟨hr, hs, -⟩ := slotBegun_kept (popHead s.eng q) (cmdOf q p) p (joinTable s.mem s.eng p table)
  have hv := getV_slotBegun (popHead s.eng q) (cmdOf q p) p (joinTable s.mem s.eng p table)
  have hne (w : Nat) (hw : w ≠ pkValley p) := getV_slotBegun_ne (popHead s.eng q) (cmdOf q p) p (joinTable s.mem s.eng p table) hw
  rw [hcmd, htable] at ha
  rw [← popHead_regions s.eng q, ← popHead_spill s.eng q, ← hr, ← hs, ← hv]
  simp only [popHead_getV] at hne
  generalize slotBegun (popHead s.eng q) (cmdOf q p) p (joinTable s.mem s.eng p table) = f at ha hne ⊢
  split at ha
  · have hans : OnlyAnswers f _ := (onlyAnswers_reply _ _ _ _ _).trans ha
    exact ⟨congrArg joinless (hans.getV _), fun w hw => (hans.getV w).trans (hne w hw), hans.regions, hans.spill⟩
  · cases hw : (getV f (pkValley p)).joinWait with
    | none =>
      have hsend : sendHellos f (pkValley p) = f := by simp only [sendHellos, hw]
      rw [hsend] at ha
      exact ⟨congrArg joinless (ha.getV _), fun w hw => (ha.getV w).trans (hne w hw), ha.regions, ha.spill⟩
    | some w =>
      rw [sendHellos_of_wait hw] at ha
      refine ⟨?_, fun w hw => (ha.getV w).trans ((getV_updV_ne _ _ hw).trans (hne w hw)), ha.regions, ha.spill⟩
      rw [ha.getV, getV_updV_same]
      rfl

theorem joinWait_boundValley (e : Eng) (c : Cmd) {t : List Member × W64} (hb : bit t.2 (pkf p 1 0 6) = true) :
    (boundValley e c p t).joinWait = some (joinBegun e c) := if_neg (by rw [hb]; exact Bool.false_ne_true)

/-- A joining slot sends one hello to every other live member. -/
theorem Taken.joins (h : Taken s q 0x11 p) (hm : mayJoin s.eng p (joinTable s.mem s.eng p table) = true)
    (hb : bit (joinTable s.mem s.eng p table).2 (pkf p 1 0 6) = true) :
    ((getV (runCmd q 0x11 s (joinCmd s.mem table)).eng (pkValley p)).joinWait.map (·.cmd)) = some (cmdOf q p) ∧
    (runCmd q 0x11 s (joinCmd s.mem table)).eng.io.ctlOut = s.eng.io.ctlOut ++
      (othersLive (getV (runCmd q 0x11 s (joinCmd s.mem table)).eng (pkValley p))).map fun i =>
        ({ v := pkValley p, node := nodeOf (getV (runCmd q 0x11 s (joinCmd s.mem table)).eng (pkValley p)) i
           tag := (getV s.eng (pkValley p)).tag, from_ := pkf p 1 0 6, dest := i, epoch := pkw p 3
           msg := .hello (helloOf (runCmd q 0x11 s (joinCmd s.mem table)).eng (pkValley p)
             (othersLive (getV (runCmd q 0x11 s (joinCmd s.mem table)).eng (pkValley p))).isEmpty false
             (BitVec.ofNat 32 (pkf p 4 0 32))) } : CtlOut) := by
  obtain ⟨hview, -, hregs, -⟩ := h.binds hm
  have htable := joinTable_popHead s.mem s.eng q p table
  have hcmd : joinCmd s.mem table (popHead s.eng q) (cmdOf q p) p = _ :=
    joinCmd_of_may (by rw [htable, mayJoin_popHead]; exact hm)
  obtain ⟨-, -, ha⟩ := h.runs (joinCmd s.mem table)
  obtain ⟨hr, -, hio⟩ := slotBegun_kept (popHead s.eng q) (cmdOf q p) p (joinTable s.mem s.eng p table)
  have hv := getV_slotBegun (popHead s.eng q) (cmdOf q p) p (joinTable s.mem s.eng p table)
  have hwait := joinWait_boundValley (p := p) (popHead s.eng q) (cmdOf q p) hb
  have htag : (boundValley (popHead s.eng q) (cmdOf q p) p (joinTable s.mem s.eng p table)).tag =
      (getV s.eng (pkValley p)).tag := (congrArg Valley.tag (popHead_getV s.eng q (pkValley p)) :)
  have hout : (popHead s.eng q).io.ctlOut = s.eng.io.ctlOut := (onlyCorrects_readHead s.eng q).ctlOut
  have hself : (boundValley (popHead s.eng q) (cmdOf q p) p (joinTable s.mem s.eng p table)).self = pkf p 1 0 6 := rfl
  have hfirst : (boundValley (popHead s.eng q) (cmdOf q p) p (joinTable s.mem s.eng p table)).firstEpoch = pkw p 3 := rfl
  have hbase : (boundValley (popHead s.eng q) (cmdOf q p) p (joinTable s.mem s.eng p table)).base =
    BitVec.ofNat 32 (pkf p 4 0 32) := rfl
  rw [hcmd, htable, if_neg (by rw [hb]; exact Bool.false_ne_true)] at ha
  rw [popHead_regions] at hr
  rw [← hv] at hview hwait htag hself hfirst hbase
  generalize slotBegun (popHead s.eng q) (cmdOf q p) p (joinTable s.mem s.eng p table) = f at *
  generalize (runCmd q 0x11 s (joinCmd s.mem table)).eng = g at *
  rw [sendHellos_of_wait hwait] at ha
  have hothers : othersLive (getV g (pkValley p)) = othersLive (getV f (pkValley p)) :=
    read_view hview othersLive fun _ => rfl
  have hnode (i : Nat) : nodeOf (getV g (pkValley p)) i = nodeOf (getV f (pkValley p)) i :=
    read_view hview (nodeOf · i) fun _ => rfl
  have hhello := helloOf_congr (e := f) (f := g) (hregs.trans hr.symm) hview
  refine ⟨?_, ha.ctlOut.trans ?_⟩
  · rw [ha.getV, getV_updV_same]
    rfl
  · show f.io.ctlOut ++ _ = _
    rw [hio, hout, hothers]
    refine congrArg _ (List.map_congr_left fun i _ => ?_)
    rw [hnode, hhello, ← htag, ← hself, ← hfirst, ← hbase]
    exact congrArg (fun b => ctlTo (getV f (pkValley p)) (pkValley p) i (getV f (pkValley p)).firstEpoch
      (.hello (helloOf f (pkValley p) b false (getV f (pkValley p)).base))) (all_bit_zero _)

/-- A member whose own live bit is clear stands by and is answered at once. -/
theorem Taken.standsBy (h : Taken s q 0x11 p) (hm : mayJoin s.eng p (joinTable s.mem s.eng p table) = true)
    (hb : bit (joinTable s.mem s.eng p table).2 (pkf p 1 0 6) = false) :
    Answered s.eng (runCmd q 0x11 s (joinCmd s.mem table)).eng (cmdOf q p) stOK 0 0 ∧
    (runCmd q 0x11 s (joinCmd s.mem table)).eng.io.ctlOut = s.eng.io.ctlOut := by
  have htable := joinTable_popHead s.mem s.eng q p table
  have hcmd : joinCmd s.mem table (popHead s.eng q) (cmdOf q p) p = _ :=
    joinCmd_of_may (by rw [htable, mayJoin_popHead]; exact hm)
  rw [htable, if_pos (by rw [hb]; rfl)] at hcmd
  obtain ⟨-, -, ha, hr⟩ := h.replies (steady_slotBegun _ _ _ _) hcmd
  obtain ⟨-, -, hio⟩ := slotBegun_kept (popHead s.eng q) (cmdOf q p) p (joinTable s.mem s.eng p table)
  exact ⟨hr, ha.ctlOut.trans (by rw [hio]; exact (onlyCorrects_readHead s.eng q).ctlOut)⟩

end

/-- What a leave makes of its Valley, and of the Basin's pages. -/
theorem leaveValley_spec (m : Mem) (e : Eng) (v : Nat) :
    (getV (leaveValley m e v) v).slot = .defined ∧ (getV (leaveValley m e v) v).outs = [] ∧
    (getV (leaveValley m e v) v).ins = [] ∧ (getV (leaveValley m e v) v).retained = [] ∧
    (getV (leaveValley m e v) v).pend = [] ∧ (getV (leaveValley m e v) v).live = 0 ∧
    (getV (leaveValley m e v) v).t1 = none ∧ (getV (leaveValley m e v) v).runs = [] ∧
    (getV (leaveValley m e v) v).epoch = (getV e v).epoch ∧ (getV (leaveValley m e v) v).step = (getV e v).step ∧
    (getV (leaveValley m e v) v).ws = (getV e v).ws ∧ (getV (leaveValley m e v) v).tag = (getV e v).tag ∧
    ∀ g d, Tab.find (leaveValley m e v).basin.owners g ≠ some (.outRing v d) ∧
      Tab.find (leaveValley m e v).basin.owners g ≠ some (.inRing v d) := by
  obtain ⟨hv, hb⟩ := getV_leaveValley m e v
  have hwork := workless_workEnded m e v
  have howner (g : Nat) {o : PageOwner} (ho : slotPage v o = true) : Tab.find (leaveValley m e v).basin.owners g ≠ some o := by
    rw [hb]
    exact fun h => absurd ((owners_unbind h).symm.trans ho) Bool.false_ne_true
  rw [hv]
  generalize getV (workEnded m e v) v = x at hwork ⊢
  refine ⟨rfl, rfl, rfl, rfl, rfl, rfl, rfl, rfl, read_view hwork Valley.epoch fun _ => rfl,
    read_view hwork Valley.step fun _ => rfl, read_view hwork Valley.ws fun _ => rfl, read_view hwork Valley.tag fun _ => rfl,
    fun g d => ⟨howner g (decide_eq_true rfl), howner g (decide_eq_true rfl)⟩⟩

/-- The orderly stop (R273). -/
theorem orderlyStop_spec (e : Eng) (c : Cmd) (hh : e.ctl.cpHaltBit = false) (h : ∀ y ∈ e.valleys, standsUp y.2 = false) :
    (∀ y ∈ (orderlyStop e c).spill.pages, (getV e y.2.v).slot = .joining) ∧
    ((orderlyStop e c).spill.zeroing = [] →
      (orderlyStop e c).ctl.opened = false ∧ Answered e (orderlyStop e c) c stOK 0 0) ∧
    ((orderlyStop e c).spill.zeroing ≠ [] → (orderlyStop e c).io = e.io ∧
      (orderlyStop e c).ctl.stops = e.ctl.stops ++ [{ cmd := c, pages := (orderlyStop e c).spill.zeroing }]) := by
  have hany : (e.valleys.any fun y => standsUp y.2) = false :=
    List.any_eq_false.2 fun y hy => by rw [h y hy]; exact Bool.false_ne_true
  obtain ⟨ho, hs, hr⟩ := stopDone_spec (c := c) (steady_freeSpill e (stopPages e)) hh
  rw [orderlyStop_of_last c hany]
  split
  · next hz =>
    rw [hs]
    exact ⟨fun y hy => slot_of_kept hy, fun _ => ⟨ho, hr⟩, fun hn => absurd (List.isEmpty_iff.1 hz) hn⟩
  · next hz =>
    exact ⟨fun y hy => slot_of_kept hy, fun hn => absurd (List.isEmpty_iff.2 hn) hz, fun _ => ⟨rfl, rfl⟩⟩

theorem endStop_of_done {e : Eng} {w : StopWait} (h : ∀ g ∈ w.pages, g ∉ e.spill.zeroing) :
    endStop e w = stopDone { e with ctl := { e.ctl with stops := e.ctl.stops.erase w } } w.cmd :=
  if_neg fun hc => by
    obtain ⟨g, hg, hz⟩ := List.any_eq_true.1 hc
    exact h g hg (List.contains_iff_mem.1 hz)

/-- A stop that is taken off the list replies like any other. -/
theorem stopDone_erased (e : Eng) (c : Cmd) (l : List StopWait) (hh : e.ctl.cpHaltBit = false) :
    (stopDone { e with ctl := { e.ctl with stops := l } } c).ctl.opened = false ∧
    Answered e (stopDone { e with ctl := { e.ctl with stops := l } } c) c stOK 0 0 := by
  refine ⟨(stopDone_spec (e := { e with ctl := { e.ctl with stops := l } }) (.refl _) hh).1, ?_⟩
  exact (reply_answered { e with ctl := { e.ctl with stops := l, opened := false } } c stOK 0 0 hh).earlier rfl rfl rfl rfl
    List.suffix_rfl

/-- A join hello that passed its checks. -/
theorem accepted_joinHello {p : RxPacket} {s : State} {v : Nat} (h : rxChecks s.eng p = .accepted v) (ht : (hdrOf p).typ = 6)
    (hk : (hdrOf p).kind = 5) : exec (.joinHello p) s = .next { s with
      eng := advance s.mem (onHello (heard s.eng v (hdrOf p).sender) v (hdrOf p).sender (hdrOf p).epoch (helloIn p (hdrOf p))) } := by
  obtain ⟨-, -, -, -, -, -, -, -, -, -, -, -, hhello⟩ := acceptedPacketsAct.1 p 0 s v h
  exact hhello ht hk

/-- An answer after steps that leave the queues is an answer before them. -/
theorem Steady.answers_before {e f g : Eng} {c : Cmd} {st : W16} {r0 r1 : W64} (k : Steady e f) (h : Answered f g c st r0 r1) :
    Answered e g c st r0 r1 := by
  have hget : getQ f c.q = getQ e c.q := by rw [getQ, getQ, k.queues]
  exact h.earlier (by rw [k.side]) (by rw [hget]) (by rw [hget]) (by rw [hget]) k.hm

/-- Settles O36: VALLEY_JOIN by the slot that it binds, VALLEY_LEAVE by what it ends and unbinds, the orderly stop by the
pages that it frees, and JOIN_HELLO by the state of the slot. -/
theorem valleyJoinAndLeave : Obligations.ValleyJoinAndLeave := by
  refine ⟨fun q table s p h => ⟨fun hf => ⟨_, exec_valleyJoin q table s, ?_⟩,
    fun hf => ⟨_, exec_valleyJoin q table s, h.onlyReplies ?_⟩⟩, fun q s p h => ?_,
    fun e c w hh => ⟨fun hs => ?_, fun hs => orderlyStop_spec e c hh hs, fun hp => if_pos ?_, fun hp => ?_⟩,
    fun p s v hacc ht hk => ?_⟩
  · have hm : mayJoin s.eng p (joinTable s.mem s.eng p table) = true := hf
    obtain ⟨hview, hne, hr, hs⟩ := h.binds hm
    obtain ⟨hmem, -, -⟩ := h.runs (joinCmd s.mem table)
    have hread {α : Type} (k : Valley → α) (hk : ∀ z, k (joinless z) = k z) := read_view hview k hk
    have hstreams (d : Nat) (hd : d ∈ distances (getV (popHead s.eng q.val) (pkValley p))) :=
      streams_boundValley (cmdOf q.val p) (joinTable s.mem s.eng p table) hd
    rw [popHead_getV] at hstreams
    refine ⟨hmem, hread Valley.self fun _ => rfl, hread Valley.members fun _ => rfl, hread Valley.area fun _ => rfl,
      hread Valley.parity fun _ => rfl, hread Valley.epoch fun _ => rfl, hread Valley.firstEpoch fun _ => rfl,
      hread Valley.step fun _ => rfl, hread Valley.ws fun _ => rfl, fun d hd => ⟨?_, ?_⟩, hne, hr, hs,
      fun hb => ⟨?_, ?_, h.joins hm hb⟩, fun hb => ⟨?_, ?_, h.standsBy hm hb⟩⟩
    · exact (hread (fun z => (getOut z d).next) fun _ => rfl).trans (hstreams d hd).1
    · exact (hread (fun z => (getIn z d).a) fun _ => rfl).trans (hstreams d hd).2
    · exact (hread Valley.slot fun _ => rfl).trans (if_neg (not_not_of_true hb))
    · exact (hread Valley.live fun _ => rfl).trans (if_neg (not_not_of_true hb))
    · exact (hread Valley.slot fun _ => rfl).trans (if_pos (not_of_false hb))
    · exact (hread Valley.live fun _ => rfl).trans (if_pos (not_of_false hb))
  · have hm : mayJoin s.eng p (joinTable s.mem s.eng p table) = false := hf
    have htable := joinTable_popHead s.mem s.eng q.val p table
    refine joinValley_of_not (ws := paramWords s.mem (popHead s.eng q.val) (pkw p 5)
      (getV (popHead s.eng q.val) (pkValley p)).n table) ?_
    exact (congrArg (mayJoin _ p) htable).trans ((mayJoin_popHead _ _ _ _).trans hm)
  · have hv := popHead_getV s.eng q.val (pkValley p)
    rw [exec_valleyLeave]
    refine ⟨fun hs hw => ⟨leaveValley s.mem (popHead s.eng q.val) (pkValley p), ?_, ?_⟩,
      fun hn => ⟨_, rfl, h.onlyReplies (if_pos ?_)⟩⟩
    · have hno : ¬ (((getV (popHead s.eng q.val) (pkValley p)).slot ≠ .joined ∧
          (getV (popHead s.eng q.val) (pkValley p)).slot ≠ .standby) ∨
          anyWaits (getV (popHead s.eng q.val) (pkValley p)) = true) := by
        rw [hv, hw]
        rintro (⟨h1, h2⟩ | hc)
        · exact hs.elim h1 h2
        · cases hc
      rw [runCmd_of_taken h, leaveCmd, if_neg hno]
    · have hspec := leaveValley_spec s.mem (popHead s.eng q.val) (pkValley p)
      rw [hv] at hspec
      exact hspec
    · rw [hv]
      exact hn
  · rw [orderlyStop_of_standing c (List.any_eq_true.2 hs)]
    exact reply_answered e c stOK 0 0 hh
  · obtain ⟨g, hg, hz⟩ := hp
    exact List.any_eq_true.2 ⟨g, hg, List.contains_iff_mem.2 hz⟩
  · rw [endStop_of_done hp]
    exact stopDone_erased e w.cmd _ hh
  · have hv : peerless (getV (heard s.eng v (hdrOf p).sender) v) = peerless (getV s.eng v) := by rw [getV_heard]; rfl
    have hread {α : Type} (k : Valley → α) (hk : ∀ z, k (peerless z) = k z) := read_view hv k hk
    have hslot := hread Valley.slot fun _ => rfl
    have hfirst := hread Valley.firstEpoch fun _ => rfl
    have hbase := hread Valley.base fun _ => rfl
    have hothers := hread othersLive fun _ => rfl
    have hsteady := steady_heard s.eng v (hdrOf p).sender
    have hio : (heard s.eng v (hdrOf p).sender).io = s.eng.io := by
      obtain ⟨win, res, hh⟩ := heard_eq s.eng v (hdrOf p).sender
      rw [hh]
      rfl
    have hexec : exec (.joinHello p) s = .next { s with
        eng := advance s.mem (onHello (heard s.eng v (hdrOf p).sender) v (hdrOf p).sender (hdrOf p).epoch (helloIn p (hdrOf p))) } :=
      accepted_joinHello hacc ht hk
    rw [hexec]
    refine ⟨fun w hs hw hh => ⟨_, rfl, ?_⟩, fun hs ha => ⟨_, rfl, ?_⟩, fun hs ha => ?_⟩
    · have hjoin := onHello_of_joining (sender := (hdrOf p).sender) (epoch := (hdrOf p).epoch) (h := helloIn p (hdrOf p))
        (hslot.trans hs) ((hread Valley.joinWait fun _ => rfl).trans hw)
      rw [helloDiff_heard, hfirst, hbase, hothers] at hjoin
      refine ⟨fun hm => ?_, fun hm ha => ?_, fun hm ha => ?_⟩
      · rw [hjoin, if_pos (by rw [hm]; rfl)]
        obtain ⟨h1, h2, h3⟩ := mismatch_spec ((hread Valley.joinWait fun _ => rfl).trans hw) (hsteady.halt.trans hh)
          (hdrOf p).sender (helloDiff s.eng v (hdrOf p).sender (hdrOf p).epoch (getV s.eng v).firstEpoch (getV s.eng v).base
            (helloIn p (hdrOf p))) (helloIn p (hdrOf p))
        exact ⟨h1, h2, hsteady.answers_before h3⟩
      · have hall : (othersLive (getV s.eng v)).all
            (bit (hearHello w (hdrOf p).sender (helloIn p (hdrOf p)).complete).complete) = false := ha
        rw [hjoin, if_neg (by rw [hm]; exact Bool.false_ne_true), if_neg (by rw [hall]; exact Bool.false_ne_true)]
        refine ⟨?_, ?_, hio⟩
        · rw [getV_updV_same]
          exact hslot.trans hs
        · rw [getV_updV_same]
          rfl
      · have hall : (othersLive (getV s.eng v)).all
            (bit (hearHello w (hdrOf p).sender (helloIn p (hdrOf p)).complete).complete) = true := ha
        rw [hjoin, if_neg (by rw [hm]; exact Bool.false_ne_true), if_pos hall]
        have hhalt := (hsteady.trans (steady_updV _ v fun x => { x with
          joinWait := some (hearHello w (hdrOf p).sender (helloIn p (hdrOf p)).complete) })).halt.trans hh
        obtain ⟨h1, h2, h3, h4, h5⟩ := joinOk_spec (v := v)
          (w := hearHello w (hdrOf p).sender (helloIn p (hdrOf p)).complete) hhalt
        refine ⟨h1, h2, h3, h4.trans ?_, (hsteady.trans (steady_updV _ _ _)).answers_before h5⟩
        rw [getV_updV_same]
        exact hread Valley.live fun _ => rfl
    · rw [onHello_of_joined (hslot.trans hs), if_neg (by rw [ha]; exact Bool.false_ne_true), helloOf_heard]
      have hmsg : ctlTo (getV (heard s.eng v (hdrOf p).sender) v) v (hdrOf p).sender
          (getV (heard s.eng v (hdrOf p).sender) v).firstEpoch
          (.hello (helloOf s.eng v true true (getV (heard s.eng v (hdrOf p).sender) v).base)) =
          ctlTo (getV s.eng v) v (hdrOf p).sender (getV s.eng v).firstEpoch
            (.hello (helloOf s.eng v true true (getV s.eng v).base)) :=
        hread (fun z => ctlTo z v (hdrOf p).sender z.firstEpoch (.hello (helloOf s.eng v true true z.base))) fun _ => rfl
      refine ⟨?_, hslot.trans hs⟩
      rw [hmsg, ← hio]
      rfl
    · rw [onHello_of_joined (hslot.trans hs), if_pos ha]

end Sys2Proof.Machine

/-!
REBUILD_RUN, AUDIT and CONTRACT: which runs are taken, and how they begin (R133, R135, R139, R145, R220).
-/

namespace Sys2Proof.Machine

/-! ## Pages of a partition (R98, R105) -/

theorem partBanks_congr {r t : Regs} (h : t.basinPart = r.basinPart) (p : Nat) : partBanks t p = partBanks r p := by
  simp only [partBanks, Regs.banks, h]

section
variable {e f : Eng}

theorem freePages_congr (ho : f.basin.owners = e.basin.owners) (hv : f.basin.valid = e.basin.valid)
    (hr : f.regs.basinPart = e.regs.basinPart) (p : Nat) : freePages f p = freePages e p := by
  have hfree (g : Nat) : pageFree f g = pageFree e g := by rw [pageFree, pageFree, ho]
  have hvalid (g : Nat) : pageValid f g = pageValid e g := by rw [pageValid, pageValid, hv]
  simp only [freePages, bankFree, partBanks_congr hr, hvalid, funext hfree, funext hvalid]

theorem freeCount_congr (ho : f.basin.owners = e.basin.owners) (hr : f.regs.basinPart = e.regs.basinPart) (p : Nat) :
    freeCount f p = freeCount e p := by
  have hbanks : partBanks f.regs = partBanks e.regs := funext (partBanks_congr hr)
  have hbank (b : Nat) : partOfBank f.regs b = partOfBank e.regs b := by rw [partOfBank, partOfBank, hbanks]
  simp only [freeCount, hbanks, hbank, ho]

end

theorem popHead_basinPart (e : Eng) (q : Nat) : (popHead e q).regs.basinPart = e.regs.basinPart :=
  (congrArg Regs.basinPart (onlyCorrects_readHead e q).regs :)

theorem freePages_popHead (e : Eng) (q p : Nat) : freePages (popHead e q) p = freePages e p :=
  freePages_congr (popHead_owners _ _) (onlyCorrects_readHead e q).valid (popHead_basinPart _ _) p

theorem freeCount_popHead (e : Eng) (q p : Nat) : freeCount (popHead e q) p = freeCount e p :=
  freeCount_congr (popHead_owners _ _) (popHead_basinPart _ _) p

theorem reservePages_of_room {e : Eng} {p n : Nat} (o : PageOwner) (h : n ≤ freeCount e p) :
    reservePages e p n o = some ((freePages e p).take n, ownPages e ((freePages e p).take n) o) :=
  if_neg (Nat.not_lt.2 h)

theorem reservePages_of_full {e : Eng} {p n : Nat} (o : PageOwner) (h : freeCount e p < n) : reservePages e p n o = none :=
  if_pos h

/-- The pages that are taken belong to their owner, and the others to whom they did. -/
theorem find_ownPages (e : Eng) (gs : List Nat) (o : PageOwner) (g : Nat) :
    Tab.find (ownPages e gs o).basin.owners g = if g ∈ gs then some o else Tab.find e.basin.owners g := by
  have hfold : ∀ (gs : List Nat) (b : Basin), Tab.find (gs.foldl (fun b g =>
      { openWords e b g with owners := Tab.set (openWords e b g).owners g o
                             gated := clrBit (openWords e b g).gated (g / 512) }) b).owners g =
        if g ∈ gs then some o else Tab.find b.owners g := by
    intro gs
    induction gs with
    | nil => exact fun _ => rfl
    | cons h gs ih =>
      intro b
      rw [List.foldl_cons, ih]
      by_cases hg : g = h
      · subst hg
        rw [if_pos (List.mem_cons_self ..), openWords_owners]
        rw [Tab.find_set, if_pos rfl, ite_self]
      · have hset : Tab.find (Tab.set (openWords e b h).owners h o) g = Tab.find b.owners g := by
          rw [openWords_owners, Tab.find_set, if_neg hg]
        simp only [List.mem_cons, hg, false_or, hset]
  exact hfold gs e.basin

/-! ## A run that begins (R133, R135) -/

/-- A Valley with one more run. -/
def runBegun (r : Run) (x : Valley) : Valley :=
  { x with runs := x.runs ++ [r], oldRuns := x.oldRuns.filter fun o => decide (o.ident ≠ r.ident) }

theorem startRun_of_room {m : Mem} {e : Eng} {v : Nat} {c : Cmd} {r : Run}
    (h : runPages (getV e v) r.window ≤ freeCount e 2) :
    startRun m e v c r = stepRuns m (updV (ownPages e ((freePages e 2).take (runPages (getV e v) r.window)) (.run v r.ident)) v
      (runBegun { r with pages := (freePages e 2).take (runPages (getV e v) r.window) })) v := by
  simp only [startRun, reservePages_of_room _ h]
  rfl

theorem startRun_of_full {m : Mem} {e : Eng} {v : Nat} {c : Cmd} {r : Run}
    (h : freeCount e 2 < runPages (getV e v) r.window) : startRun m e v c r = reply0 e c stOutOfRange := by
  simp only [startRun, reservePages_of_full _ h]

/-- Do the rules that all runs share admit a run (R133, R135)? -/
def mayRun (e : Eng) (p : BitVec 512) (sc : List (Nat × Nat)) : Bool :=
  scopeAddrOk p && runMay e (pkValley p) (pkw p 2) sc && identFree (getV e (pkValley p)) (pkf p 1 16 16) &&
    decide (16 ≤ windowOf_ p ∧ windowOf_ p ≤ 1024)

theorem mayRun_popHead (e : Eng) (q : Nat) (p : BitVec 512) (sc : List (Nat × Nat)) :
    mayRun (popHead e q) p sc = mayRun e p sc := by
  simp only [mayRun, runMay, scopeReaches, popHead_getV, reachList_congr (popHead_regions e q)]

/-! ## REBUILD_RUN (R135, R139) -/

/-- The run of a REBUILD_RUN. -/
def rebuildOf (e : Eng) (c : Cmd) (p : BitVec 512) (sc : List (Nat × Nat)) (a : Plan) : Run :=
  { kind := .rebuild, cmd := some c, plan := a.num, lost := a.lost, dest := pkf p 1 8 6, tgt := pkf p 1 8 6
    groups := [{ ident := pkf p 1 16 16, excl := [] }], epoch := (getV e (pkValley p)).epoch, scope := sc
    window := windowOf_ p, demand := pkB p }

/-- May a REBUILD_RUN of a plan be taken? -/
def mayRebuild (e : Eng) (p : BitVec 512) (sc : List (Nat × Nat)) (a : Plan) : Bool :=
  mayRun e p sc && decide (pkf p 5 0 2 = 0) && a.lost.contains (pkf p 1 8 6)

/-- What REBUILD_RUN does with its plan, if it is kept. -/
def rebuildWith (m : Mem) (e : Eng) (c : Cmd) (p : BitVec 512) (sc : List (Nat × Nat)) : Option Plan → Eng
  | none => reply0 e c stOutOfRange
  | some a => if mayRebuild e p sc a then startRun m e (pkValley p) c (rebuildOf e c p sc a) else reply0 e c stOutOfRange

/-- The entry of REBUILD_RUN. -/
def rebuildCmd (m : Mem) (list : List W64) (e : Eng) (c : Cmd) (p : BitVec 512) : Eng :=
  if pkA p then resumeCmd m e (pkValley p) c p
  else rebuildWith m e c p (scopeOf list (pkf p 4 0 13))
    ((getV e (pkValley p)).plans.find? fun a => decide (a.num = pkf p 1 0 2))

theorem exec_rebuildRun (q : Fin 64) (list : List W64) (s : State) :
    exec (.rebuildRun q list) s = .next (runCmd q.val 0x32 s (rebuildCmd s.mem list)) := by
  refine congrArg (fun f => Host.Outcome.next (runCmd q.val 0x32 s f)) (funext fun e => funext fun c => funext fun p => ?_)
  unfold rebuildCmd
  dsimp only
  split
  · rfl
  · generalize (getV e (pkValley p)).plans.find? (fun a => decide (a.num = pkf p 1 0 2)) = o
    cases o with
    | none => rfl
    | some a =>
      have hmay : (!scopeAddrOk p || !runMay e (pkValley p) (pkw p 2) (scopeOf list (pkf p 4 0 13)) ||
          !identFree (getV e (pkValley p)) (pkf p 1 16 16) || decide (pkf p 5 0 2 ≠ 0) ||
          !a.lost.contains (pkf p 1 8 6) || decide (windowOf_ p < 16 ∨ 1024 < windowOf_ p)) =
          !mayRebuild e p (scopeOf list (pkf p 4 0 13)) a := by
        simp only [mayRebuild, mayRun, Bool.not_and, ← decide_not, Classical.not_and_iff_not_or_not, Nat.not_le, ne_eq]
        ac_rfl
      dsimp only [rebuildWith]
      rw [hmay]
      cases mayRebuild e p (scopeOf list (pkf p 4 0 13)) a <;> rfl

/-! ## AUDIT (R220) -/

/-- The run of an AUDIT. -/
def auditOf (e : Eng) (c : Cmd) (p : BitVec 512) (sc : List (Nat × Nat)) : Run :=
  { kind := .audit, cmd := some c, plan := 0, lost := [], dest := pkf p 1 0 6, tgt := pkf p 1 0 6
    groups := [{ ident := pkf p 1 16 16, excl := [] }], epoch := (getV e (pkValley p)).epoch, scope := sc
    window := windowOf_ p, correct := pkA p, digest := pkB p }

/-- May an AUDIT be taken, if its pages are free? -/
def mayAudit (e : Eng) (p : BitVec 512) (sc : List (Nat × Nat)) : Bool :=
  mayRun e p sc && decide (pkf p 1 0 6 < (getV e (pkValley p)).n) &&
    (List.range (getV e (pkValley p)).n).all (isLive (getV e (pkValley p))) && !unfinished e (pkValley p) &&
    !(pkA p && (getV e (pkValley p)).t1.isSome)

/-- A correcting audit holds a pending trigger. -/
def auditHolds (p : BitVec 512) (e : Eng) : Eng := if pkA p then holdIfBusy e (pkValley p) else e

/-- The entry of AUDIT. -/
def auditCmd (m : Mem) (list : List W64) (e : Eng) (c : Cmd) (p : BitVec 512) : Eng :=
  if mayAudit e p (scopeOf list (pkf p 4 0 13)) && decide (runPages (getV e (pkValley p)) (windowOf_ p) ≤ freeCount e 2) then
    auditHolds p (startRun m e (pkValley p) c (auditOf e c p (scopeOf list (pkf p 4 0 13))))
  else reply0 e c stOutOfRange

theorem exec_audit (q : Fin 64) (list : List W64) (s : State) :
    exec (.audit q list) s = .next (runCmd q.val 0x38 s (auditCmd s.mem list)) := by
  refine congrArg (fun f => Host.Outcome.next (runCmd q.val 0x38 s f)) (funext fun e => funext fun c => funext fun p => ?_)
  have hmay : (!scopeAddrOk p || !runMay e (pkValley p) (pkw p 2) (scopeOf list (pkf p 4 0 13)) ||
      !identFree (getV e (pkValley p)) (pkf p 1 16 16) || decide ((getV e (pkValley p)).n ≤ pkf p 1 0 6) ||
      !(List.range (getV e (pkValley p)).n).all (isLive (getV e (pkValley p))) || unfinished e (pkValley p) ||
      (pkA p && (getV e (pkValley p)).t1.isSome) || decide (windowOf_ p < 16 ∨ 1024 < windowOf_ p) ||
      decide (freeCount e 2 < runPages (getV e (pkValley p)) (windowOf_ p))) =
      !(mayAudit e p (scopeOf list (pkf p 4 0 13)) &&
        decide (runPages (getV e (pkValley p)) (windowOf_ p) ≤ freeCount e 2)) := by
    simp only [mayAudit, mayRun, Bool.not_and, Bool.not_or, Bool.not_not, ← decide_not, Classical.not_and_iff_not_or_not, Nat.not_le, Nat.not_lt]
    ac_rfl
  unfold auditCmd
  dsimp only
  rw [hmay]
  cases (mayAudit e p (scopeOf list (pkf p 4 0 13)) &&
    decide (runPages (getV e (pkValley p)) (windowOf_ p) ≤ freeCount e 2)) <;> rfl

/-! ## CONTRACT (R145) -/

/-- The runs of a CONTRACT, one for each entry of its map; the last one holds the pages. -/
def contractRuns (e : Eng) (c : Cmd) (p : BitVec 512) (a : Plan) (es : List (Nat × Nat × Nat × W64)) (gs : List Nat) :
    List Run :=
  es.zipIdx.map fun t =>
    { kind := .contract, cmd := some c, plan := a.num, lost := a.lost, dest := t.1.2.2.1, tgt := a.lost.headD 0
      groups := [{ ident := pkf p 1 16 16 + 4 * t.2, excl := [] }], epoch := (getV e (pkValley p)).epoch
      scope := [(t.1.1, t.1.2.1)], window := 128, base := addrOf t.1.2.2.2
      pages := if t.2 + 1 = pkf p 3 0 7 then gs else [] }

/-- A Valley with the runs of a CONTRACT. -/
def contractBegun (runs : List Run) (x : Valley) : Valley :=
  { x with runs := x.runs ++ runs
           oldRuns := x.oldRuns.filter fun o => !runs.any fun r => decide (r.ident = o.ident) }

/-- May a CONTRACT with a destination map be taken? -/
def mayContract (m : Mem) (e : Eng) (p : BitVec 512) (es : List (Nat × Nat × Nat × W64)) : Bool :=
  isJoined (getV e (pkValley p)) && decide ((getV e (pkValley p)).phase = .frozen) &&
    decide (1 ≤ pkf p 3 0 7 ∧ pkf p 3 0 7 ≤ 64) && decide (pkf p 1 16 16 + 4 * pkf p 3 0 7 ≤ 0xFFFF) &&
    addrOk (pkw p 2) 32 (32 * pkf p 3 0 7) pkgBytes &&
    (List.range (pkf p 3 0 7)).all (fun i => identFree (getV e (pkValley p)) (pkf p 1 16 16 + 4 * i)) &&
    es.all (mapEntryOk m e (pkValley p))

/-- A CONTRACT whose pages were sought goes to work. -/
def contractOn (m : Mem) (e : Eng) (c : Cmd) (p : BitVec 512) (a : Plan) (es : List (Nat × Nat × Nat × W64)) :
    Option (List Nat × Eng) → Eng
  | none => reply0 e c stOutOfRange
  | some r => stepRuns m (updV r.2 (pkValley p) (contractBegun (contractRuns e c p a es r.1))) (pkValley p)

theorem contractOn_of_room {m : Mem} {e : Eng} {c : Cmd} {p : BitVec 512} {a : Plan} {es : List (Nat × Nat × Nat × W64)}
    (h : runPages (getV e (pkValley p)) 128 ≤ freeCount e 2) :
    contractOn m e c p a es (reservePages e 2 (runPages (getV e (pkValley p)) 128) (.run (pkValley p) (pkf p 1 16 16))) =
      stepRuns m (updV (ownPages e ((freePages e 2).take (runPages (getV e (pkValley p)) 128))
        (.run (pkValley p) (pkf p 1 16 16))) (pkValley p) (contractBegun (contractRuns e c p a es
          ((freePages e 2).take (runPages (getV e (pkValley p)) 128))))) (pkValley p) := by
  rw [reservePages_of_room _ h]
  rfl

/-- The destination map of a CONTRACT. -/
def contractList (m : Mem) (list : List W64) (e : Eng) (p : BitVec 512) : List (Nat × Nat × Nat × W64) :=
  contractMap (paramWords m e (pkw p 2) (4 * pkf p 3 0 7) list) (pkf p 3 0 7)

/-- What CONTRACT does with its plan, if it is kept. -/
def contractWith (m : Mem) (list : List W64) (e : Eng) (c : Cmd) (p : BitVec 512) : Option Plan → Eng
  | none => reply0 e c stOutOfRange
  | some a =>
    if mayContract m e p (contractList m list e p) then
      contractOn m e c p a (contractList m list e p)
        (reservePages e 2 (runPages (getV e (pkValley p)) 128) (.run (pkValley p) (pkf p 1 16 16)))
    else reply0 e c stOutOfRange

/-- The entry of CONTRACT. -/
def contractCmd (m : Mem) (list : List W64) (e : Eng) (c : Cmd) (p : BitVec 512) : Eng :=
  contractWith m list e c p ((getV e (pkValley p)).plans.find? fun a => decide (a.num = pkf p 1 0 2))

theorem exec_contract (q : Fin 64) (list : List W64) (s : State) :
    exec (.contract q list) s = .next (runCmd q.val 0x34 s (contractCmd s.mem list)) := by
  refine congrArg (fun f => Host.Outcome.next (runCmd q.val 0x34 s f)) (funext fun e => funext fun c => funext fun p => ?_)
  have hzero (n : Nat) : decide (n = 0 ∨ 64 < n) = !decide (1 ≤ n ∧ n ≤ 64) := by
    rw [← decide_not, decide_eq_decide]
    omega
  have hmay : (!isJoined (getV e (pkValley p)) || decide ((getV e (pkValley p)).phase ≠ .frozen) ||
      decide (pkf p 3 0 7 = 0 ∨ 64 < pkf p 3 0 7) || decide (0xFFFF < pkf p 1 16 16 + 4 * pkf p 3 0 7) ||
      !addrOk (pkw p 2) 32 (32 * pkf p 3 0 7) pkgBytes ||
      !(List.range (pkf p 3 0 7)).all (fun i => identFree (getV e (pkValley p)) (pkf p 1 16 16 + 4 * i)) ||
      !(contractList s.mem list e p).all (mapEntryOk s.mem e (pkValley p))) = !mayContract s.mem e p (contractList s.mem list e p) := by
    simp only [mayContract, hzero, Bool.not_and, ← decide_not, Nat.not_le, ne_eq]
  unfold contractCmd
  dsimp only
  generalize (getV e (pkValley p)).plans.find? (fun a => decide (a.num = pkf p 1 0 2)) = o
  cases o with
  | none => rfl
  | some a =>
    dsimp only [contractWith]
    refine Eq.trans (ite_congr (congrArg (· = true) hmay) (fun _ => rfl) fun _ => rfl) ?_
    cases mayContract s.mem e p (contractList s.mem list e p) with
    | false => rfl
    | true =>
      refine (if_neg Bool.false_ne_true).trans (Eq.trans ?_ (if_pos rfl).symm)
      generalize reservePages e 2 (runPages (getV e (pkValley p)) 128) (.run (pkValley p) (pkf p 1 16 16)) = r
      cases r <;> rfl

theorem clearRange_popHead (e : Eng) (q a n : Nat) : clearRange (popHead e q) a n = clearRange e a n := by
  rw [clearRange, clearRange, hitsRegion_congr (popHead_valleys _ _) (popHead_regions _ _),
    hitsParity_congr (popHead_valleys _ _) (popHead_regions _ _), hitsSpill_popHead]

theorem readsZero_popHead (m : Mem) (e : Eng) (q a n : Nat) : readsZero m (popHead e q) a n = readsZero m e a n := by
  have hline : loadLine m (popHead e q) = loadLine m e := funext fun l => by rw [loadLine, loadLine, popHead_acc]
  have hlines : touchedLines m (popHead e q) a n = touchedLines m e a n := by rw [touchedLines, touchedLines, popHead_acc]
  rw [readsZero, readsZero, hlines, hline]

theorem mapEntryOk_popHead (m : Mem) (e : Eng) (q v : Nat) : mapEntryOk m (popHead e q) v = mapEntryOk m e v := by
  funext t
  simp only [mapEntryOk, mapBytesOf, scopeReaches, reachList_congr (popHead_regions e q), popHead_getV,
    clearRange_popHead, readsZero_popHead]

theorem contractList_popHead (m : Mem) (list : List W64) (e : Eng) (q : Nat) (p : BitVec 512) :
    contractList m list (popHead e q) p = contractList m list e p := by
  rw [contractList, contractList, paramWords_congr (popHead_acc e q)]

theorem mayContract_popHead (m : Mem) (e : Eng) (q : Nat) (p : BitVec 512) (es : List (Nat × Nat × Nat × W64)) :
    mayContract m (popHead e q) p es = mayContract m e p es := by
  simp only [mayContract, popHead_getV, mapEntryOk_popHead]

/-! ## A resume (R139) -/

/-- May a resume go on with a run? -/
def mayResume (x : Valley) (p : BitVec 512) (r : Run) : Bool :=
  isJoined x && decide (pkw p 2 = x.epoch) && decide (r.kind ≠ .audit) && decide (pkf p 1 16 2 = 0) &&
    identFree x (pkf p 5 0 16) && decide (pkf p 5 16 6 < x.n)

/-- The members that a resume leaves out. -/
def resumeLost (p : BitVec 512) (r : Run) : List Nat :=
  r.lost ++ (r.groups.getLast?.map (·.excl)).getD [] ++ [pkf p 5 16 6]

theorem resumeCmd_of_run {m : Mem} {e : Eng} {v : Nat} {p : BitVec 512} {r : Run} (c : Cmd)
    (h : runAt (getV e v) (pkf p 1 16 16) = some r) : resumeCmd m e v c p =
      if mayResume (getV e v) p r then
        if tooFew (getV e v) (resumeLost p r) then reply0 e c stTooFew
        else resumeRun m (reply0 e c stOK) v r (pkf p 5 0 16) (pkf p 5 16 6)
      else reply0 e c stOutOfRange := by
  have hmay : (!isJoined (getV e v) || decide (pkw p 2 ≠ (getV e v).epoch) || decide (r.kind = .audit) ||
      decide (pkf p 1 16 2 ≠ 0) || !identFree (getV e v) (pkf p 5 0 16) || decide ((getV e v).n ≤ pkf p 5 16 6)) =
      !mayResume (getV e v) p r := by
    simp only [mayResume, Bool.not_and, ← decide_not, Nat.not_lt, ne_eq, Classical.not_not]
  simp only [resumeCmd, h]
  rw [hmay]
  cases mayResume (getV e v) p r <;> rfl

/-! ## The commands -/

section
variable {s : State} {q : Nat} {p : BitVec 512} {a : Plan} {list : List W64}

/-- A run that begins on the engine a packet was taken from. -/
theorem startRun_popHead {m : Mem} {e : Eng} {v : Nat} {c : Cmd} {r : Run} (q : Nat)
    (h : runPages (getV e v) r.window ≤ freeCount e 2) : ∃ f, startRun m (popHead e q) v c r = stepRuns m f v ∧
      (getV f v).runs = (getV e v).runs ++ [{ r with pages := (freePages e 2).take (runPages (getV e v) r.window) }] ∧
      ∀ g ∈ (freePages e 2).take (runPages (getV e v) r.window), Tab.find f.basin.owners g = some (.run v r.ident) := by
  have hroom : runPages (getV (popHead e q) v) r.window ≤ freeCount (popHead e q) 2 := by
    rw [popHead_getV, freeCount_popHead]
    exact h
  refine ⟨_, startRun_of_room hroom, ?_, fun g hg => ?_⟩
  · rw [getV_updV_same]
    show (getV (popHead e q) v).runs ++ _ = _
    rw [popHead_getV, freePages_popHead]
  · refine (find_ownPages _ _ _ _).trans (if_pos ?_)
    rw [popHead_getV, freePages_popHead]
    exact hg

theorem startRun_popHead_of_full {m : Mem} {e : Eng} {v : Nat} {c : Cmd} {r : Run} (q : Nat)
    (h : freeCount e 2 < runPages (getV e v) r.window) :
    startRun m (popHead e q) v c r = reply0 (popHead e q) c stOutOfRange :=
  startRun_of_full (by rw [popHead_getV, freeCount_popHead]; exact h)

theorem mayRebuild_popHead (e : Eng) (q : Nat) (p : BitVec 512) (sc : List (Nat × Nat)) (a : Plan) :
    mayRebuild (popHead e q) p sc a = mayRebuild e p sc a := by rw [mayRebuild, mayRebuild, mayRun_popHead]

theorem mayAudit_popHead (e : Eng) (q : Nat) (p : BitVec 512) (sc : List (Nat × Nat)) :
    mayAudit (popHead e q) p sc = mayAudit e p sc := by
  simp only [mayAudit, mayRun_popHead, unfinished, popHead_getV, reachList_congr (popHead_regions e q)]

theorem Taken.rebuilds (h : Taken s q 0x32 p) (ha : pkA p = false)
    (hp : (getV s.eng (pkValley p)).plans.find? (fun y => decide (y.num = pkf p 1 0 2)) = some a)
    (hm : mayRebuild s.eng p (scopeOf list (pkf p 4 0 13)) a = true)
    (hr : runPages (getV s.eng (pkValley p)) (windowOf_ p) ≤ freeCount s.eng 2) :
    ∃ f, runCmd q 0x32 s (rebuildCmd s.mem list) = { s with eng := answerAll (stepRuns s.mem f (pkValley p)) } ∧
      (getV f (pkValley p)).runs = (getV s.eng (pkValley p)).runs ++
        [{ rebuildOf s.eng (cmdOf q p) p (scopeOf list (pkf p 4 0 13)) a with
           pages := (freePages s.eng 2).take (runPages (getV s.eng (pkValley p)) (windowOf_ p)) }] ∧
      ∀ g ∈ (freePages s.eng 2).take (runPages (getV s.eng (pkValley p)) (windowOf_ p)),
        Tab.find f.basin.owners g = some (.run (pkValley p) (pkf p 1 16 16)) := by
  obtain ⟨f, hf, hruns, hpages⟩ := startRun_popHead (m := s.mem) (c := cmdOf q p)
    (r := rebuildOf s.eng (cmdOf q p) p (scopeOf list (pkf p 4 0 13)) a) q hr
  have hrun : rebuildOf (popHead s.eng q) (cmdOf q p) p (scopeOf list (pkf p 4 0 13)) a =
      rebuildOf s.eng (cmdOf q p) p (scopeOf list (pkf p 4 0 13)) a := by rw [rebuildOf, rebuildOf, popHead_getV]
  refine ⟨f, ?_, hruns, hpages⟩
  rw [runCmd_of_taken h, rebuildCmd, if_neg (by rw [ha]; exact Bool.false_ne_true), popHead_getV, hp, rebuildWith,
    mayRebuild_popHead, if_pos hm, hrun, hf]

theorem Taken.audits (h : Taken s q 0x38 p) (hm : mayAudit s.eng p (scopeOf list (pkf p 4 0 13)) = true)
    (hr : runPages (getV s.eng (pkValley p)) (windowOf_ p) ≤ freeCount s.eng 2) :
    ∃ f, runCmd q 0x38 s (auditCmd s.mem list) =
        { s with eng := answerAll (auditHolds p (stepRuns s.mem f (pkValley p))) } ∧
      (getV f (pkValley p)).runs = (getV s.eng (pkValley p)).runs ++
        [{ auditOf s.eng (cmdOf q p) p (scopeOf list (pkf p 4 0 13)) with
           pages := (freePages s.eng 2).take (runPages (getV s.eng (pkValley p)) (windowOf_ p)) }] := by
  obtain ⟨f, hf, hruns, -⟩ := startRun_popHead (m := s.mem) (c := cmdOf q p)
    (r := auditOf s.eng (cmdOf q p) p (scopeOf list (pkf p 4 0 13))) q hr
  have hrun : auditOf (popHead s.eng q) (cmdOf q p) p (scopeOf list (pkf p 4 0 13)) =
      auditOf s.eng (cmdOf q p) p (scopeOf list (pkf p 4 0 13)) := by rw [auditOf, auditOf, popHead_getV]
  refine ⟨f, ?_, hruns⟩
  rw [runCmd_of_taken h, auditCmd, mayAudit_popHead, hm, popHead_getV, freeCount_popHead, decide_eq_true hr,
    if_pos (Bool.and_true _), hrun, hf]

theorem Taken.contracts (h : Taken s q 0x34 p)
    (hp : (getV s.eng (pkValley p)).plans.find? (fun y => decide (y.num = pkf p 1 0 2)) = some a)
    (hm : mayContract s.mem s.eng p (contractList s.mem list s.eng p) = true)
    (hr : runPages (getV s.eng (pkValley p)) 128 ≤ freeCount s.eng 2) :
    ∃ f gs, runCmd q 0x34 s (contractCmd s.mem list) = { s with eng := answerAll (stepRuns s.mem f (pkValley p)) } ∧
      (getV f (pkValley p)).runs = (getV s.eng (pkValley p)).runs ++
        contractRuns (popHead s.eng q) (cmdOf q p) p a (contractList s.mem list s.eng p) gs := by
  have hroom : runPages (getV (popHead s.eng q) (pkValley p)) 128 ≤ freeCount (popHead s.eng q) 2 := by
    rw [popHead_getV, freeCount_popHead]
    exact hr
  have hon := contractOn_of_room (m := s.mem) (c := cmdOf q p) (p := p) (a := a) (es := contractList s.mem list s.eng p) hroom
  have hruns (f : Eng) (v : Nat) (rs : List Run) : (getV (updV f v (contractBegun rs)) v).runs = (getV f v).runs ++ rs := by
    rw [getV_updV_same]
    rfl
  have hrun := runCmd_of_taken h (contractCmd s.mem list)
  rw [contractCmd, popHead_getV, hp, contractWith, contractList_popHead, mayContract_popHead, if_pos hm, hon] at hrun
  exact ⟨_, _, hrun, (hruns _ _ _).trans (congrArg (fun x : Valley => x.runs ++ contractRuns _ _ _ _ _ _)
    (popHead_getV s.eng q (pkValley p)))⟩

end

/-- Settles O49: each command by the run that it begins; the runs of a CONTRACT entry by entry. -/
theorem runsAreTaken : Obligations.RunsAreTaken := by
  intro q list s p a v x sc win common pages rebuildFit auditFit
  have hv := popHead_getV s.eng q.val v
  have hrebuild : rebuildFit = mayRebuild s.eng p sc a := rfl
  have haudit : auditFit = mayAudit s.eng p sc := rfl
  rw [exec_rebuildRun, exec_audit, exec_contract]
  refine ⟨fun h ha hp => ⟨fun hf hr => ?_, fun hn => ⟨_, rfl, h.onlyReplies ?_⟩⟩, fun h ha hp => ⟨_, rfl, h.onlyReplies ?_⟩,
    fun r h ha hr => ?_, fun h => ⟨fun hf hr => ?_, fun hn => ⟨_, rfl, h.onlyReplies ?_⟩⟩,
    fun h hp => ⟨fun hf hr => ?_, fun hn => ⟨_, rfl, h.onlyReplies ?_⟩⟩⟩
  · obtain ⟨f, hrun, hruns, hpages⟩ := h.rebuilds ha hp (hrebuild ▸ hf) hr
    exact ⟨f, congrArg _ hrun, hruns, hpages⟩
  · rw [rebuildCmd, if_neg (by rw [ha]; exact Bool.false_ne_true), hv, hp, rebuildWith, mayRebuild_popHead]
    by_cases hf : mayRebuild s.eng p (scopeOf list (pkf p 4 0 13)) a = true
    · rw [if_pos hf]
      exact startRun_popHead_of_full q.val (hn.resolve_left fun h0 => absurd (hrebuild ▸ h0) (by rw [hf]; decide))
    · rw [if_neg hf]
      rfl
  · rw [rebuildCmd, if_neg (by rw [ha]; exact Bool.false_ne_true), hv, hp]
    rfl
  · have hresume := resumeCmd_of_run (m := s.mem) (p := p) (cmdOf q.val p) ((congrArg (runAt · (pkf p 1 16 16)) hv).trans hr)
    have hcmd : rebuildCmd s.mem list (popHead s.eng q.val) (cmdOf q.val p) p = _ := (if_pos ha).trans hresume
    rw [hv] at hcmd
    refine ⟨fun hf ht => ?_, fun hf ht => ⟨_, rfl, h.onlyReplies ?_⟩, fun hf => ⟨_, rfl, h.onlyReplies ?_⟩⟩
    · have hfit : mayResume (getV s.eng v) p r = true := hf
      have hfew : tooFew (getV s.eng v) (resumeLost p r) = false := ht
      rw [if_pos hfit, if_neg (by rw [hfew]; exact Bool.false_ne_true)] at hcmd
      refine ⟨reply0 (popHead s.eng q.val) (cmdOf q.val p) stOK, ?_,
        (onlyAnswers_popHead _ _).trans (onlyAnswers_reply _ _ _ _ _), h.answered_steady (.refl _) _ _ _⟩
      rw [runCmd_of_taken h, hcmd]
    · have hfit : mayResume (getV s.eng v) p r = true := hf
      rw [hcmd, if_pos hfit]
      exact if_pos ht
    · have hfit : mayResume (getV s.eng v) p r = false := hf
      rw [hcmd]
      exact if_neg (by rw [hfit]; exact Bool.false_ne_true)
  · obtain ⟨f, hrun, hruns⟩ := h.audits (haudit ▸ hf) hr
    exact ⟨f, congrArg _ hrun, hruns⟩
  · have hno : (mayAudit s.eng p (scopeOf list (pkf p 4 0 13)) &&
        decide (runPages (getV s.eng (pkValley p)) (windowOf_ p) ≤ freeCount s.eng 2)) = false := by
      obtain hf | hr := hn
      · rw [show mayAudit s.eng p (scopeOf list (pkf p 4 0 13)) = false from hf, Bool.false_and]
      · rw [decide_eq_false (Nat.not_le.2 hr), Bool.and_false]
    rw [auditCmd, mayAudit_popHead, popHead_getV, freeCount_popHead, hno]
    rfl
  · obtain ⟨f, gs, hrun, hruns⟩ := h.contracts hp hf hr
    exact ⟨f, _, congrArg _ hrun, hruns, by simp only [contractRuns, List.map_map]; rfl⟩
  · rw [contractCmd, hv, hp, contractWith, contractList_popHead, mayContract_popHead, hv]
    by_cases hf : mayContract s.mem s.eng p (contractList s.mem list s.eng p) = true
    · have hr : freeCount s.eng 2 < runPages (getV s.eng (pkValley p)) 128 :=
        hn.resolve_left fun h0 => absurd (show mayContract s.mem s.eng p (contractList s.mem list s.eng p) = false from h0)
          (by rw [hf]; decide)
      rw [if_pos hf, reservePages_of_full _ (by rw [freeCount_popHead]; exact hr)]
      rfl
    · rw [if_neg hf]
      rfl

end Sys2Proof.Machine

/-!
STAND_IN on a member and on the spare, and STANDIN_DIGESTS (R141, R142, R268).
-/

namespace Sys2Proof.Machine

/-! ## STAND_IN on a member (R141) -/

/-- A member that is bound to another node. -/
def rebound (u : Nat) (node : W16) (b : Member × Nat) : Member := if b.2 = u then { b.1 with node := node } else b.1

/-- A Valley whose lost index is bound to the spare's node; its two streams start at a number. -/
def spareBound (u : Nat) (node : W16) (dOut dIn : Nat) (s : W32) (ts : W64) (y : Valley) : Valley :=
  { y with
    members := y.members.zipIdx.map (rebound u node)
    outs := if (distances y).contains dOut then Tab.set y.outs dOut { next := s } else y.outs
    ins := if (distances y).contains dIn then Tab.set y.ins dIn { a := s } else y.ins
    live := setBit y.live u
    peers := Tab.set y.peers u { watchFrom := ts } }

section
variable (u : Nat) (node : W16) (dOut dIn : Nat) (s : W32) (ts : W64) (y : Valley)

theorem isLive_spareBound (hu : u < 64) : isLive (spareBound u node dOut dIn s ts y) u = true := by
  have h := bit_setBit y.live u u hu
  rw [decide_eq_true rfl, Bool.true_or] at h
  exact h

theorem members_spareBound (i : Nat) : (spareBound u node dOut dIn s ts y).members[i]? =
    (y.members[i]?).map fun b => if i = u then { b with node := node } else b := by
  show (y.members.zipIdx.map (rebound u node))[i]? = _
  rw [List.getElem?_map, List.getElem?_zipIdx, Option.map_map, Nat.zero_add]
  rfl

theorem nodeOf_eq (x : Valley) (i : Nat) : nodeOf x i = ((x.members[i]?).map (·.node)).getD 0 := by
  unfold nodeOf
  cases x.members[i]? <;> rfl

theorem nodeOf_spareBound_same (h : u < y.members.length) : nodeOf (spareBound u node dOut dIn s ts y) u = node := by
  rw [nodeOf_eq, members_spareBound, List.getElem?_eq_getElem h, Option.map_some, if_pos rfl]
  rfl

theorem nodeOf_spareBound_ne {i : Nat} (h : i ≠ u) : nodeOf (spareBound u node dOut dIn s ts y) i = nodeOf y i := by
  rw [nodeOf_eq, nodeOf_eq, members_spareBound]
  simp only [if_neg h, Option.map_id']

theorem getOut_spareBound (h : dOut ∈ distances y) : getOut (spareBound u node dOut dIn s ts y) dOut = { next := s } :=
  (congrArg (Tab.get _ · dOut) (if_pos (List.contains_iff_mem.2 h))).trans (Tab.get_set_same _ _ _ _)

theorem getIn_spareBound (h : dIn ∈ distances y) : getIn (spareBound u node dOut dIn s ts y) dIn = { a := s } :=
  (congrArg (Tab.get _ · dIn) (if_pos (List.contains_iff_mem.2 h))).trans (Tab.get_set_same _ _ _ _)

end

/-- May a member bind a spare (R141)? -/
def mayStandIn (e : Eng) (p : BitVec 512) : Bool :=
  isJoined (getV e (pkValley p)) && decide ((getV e (pkValley p)).phase = .frozen) &&
    decide (pkf p 1 0 6 < (getV e (pkValley p)).n) && !isLive (getV e (pkValley p)) (pkf p 1 0 6) &&
    decide (fld ((pkw p 1).extractLsb' 16 16 : W16) 13 3 = 0) && decide ((pkw p 1).extractLsb' 16 16 ≠ e.ctl.node) &&
    !(liveList (getV e (pkValley p))).any (fun i => decide (nodeOf (getV e (pkValley p)) i = (pkw p 1).extractLsb' 16 16)) &&
    (getV e (pkValley p)).retained.isEmpty

/-- The Valley of a member whose packet binds the spare. -/
def boundBy (e : Eng) (p : BitVec 512) (y : Valley) : Valley :=
  spareBound (pkf p 1 0 6) ((pkw p 1).extractLsb' 16 16)
    (subMod (pkf p 1 0 6) (getV e (pkValley p)).self (getV e (pkValley p)).n)
    (subMod (getV e (pkValley p)).self (pkf p 1 0 6) (getV e (pkValley p)).n) (BitVec.ofNat 32 (pkf p 2 0 32)) e.side.ts y

/-- The member's engine once it has answered. -/
def memberBound (e : Eng) (c : Cmd) (p : BitVec 512) : Eng := reply0 (updV e (pkValley p) (boundBy e p)) c stOK

/-- The designated reporter sends the state transfer. -/
def transferSent (e : Eng) (c : Cmd) (p : BitVec 512) : Eng :=
  if reporterOf (getV (memberBound e c p) (pkValley p)) (pkf p 1 0 6) = some (getV e (pkValley p)).self then
    sendTransfer (memberBound e c p) (pkValley p) (pkf p 1 0 6) (BitVec.ofNat 32 (pkf p 2 0 32))
  else memberBound e c p

theorem standInMember_eq (m : Mem) (e : Eng) (c : Cmd) (p : BitVec 512) : standInMember m e (pkValley p) c p =
    if mayStandIn e p then settleV m (transferSent e c p) (pkValley p) else reply0 e c stOutOfRange := by
  have hmay : (!isJoined (getV e (pkValley p)) || decide ((getV e (pkValley p)).phase ≠ .frozen) ||
      decide ((getV e (pkValley p)).n ≤ pkf p 1 0 6) || isLive (getV e (pkValley p)) (pkf p 1 0 6) ||
      decide (fld ((pkw p 1).extractLsb' 16 16 : W16) 13 3 ≠ 0) || decide ((pkw p 1).extractLsb' 16 16 = e.ctl.node) ||
      (liveList (getV e (pkValley p))).any (fun i => decide (nodeOf (getV e (pkValley p)) i = (pkw p 1).extractLsb' 16 16)) ||
      !(getV e (pkValley p)).retained.isEmpty) = !mayStandIn e p := by
    simp only [mayStandIn, Bool.not_and, Bool.not_not, ← decide_not, Nat.not_lt, ne_eq, Classical.not_not]
  unfold standInMember
  dsimp only
  rw [hmay]
  cases mayStandIn e p <;> rfl

theorem sendTransfer_eq (e : Eng) (v u : Nat) (s : W32) : ∃ cs, sendTransfer e v u s = queueCtl e cs := by
  have hfold : ∀ (l : List (List DigEnt)) (e : Eng) (epoch step : W64), ∃ cs,
      l.foldl (fun e c => sendCtl e v u epoch (.digests 1 step c)) e = queueCtl e cs := by
    intro l
    induction l with
    | nil => exact fun e _ _ => ⟨[], (queueCtl_nil e).symm⟩
    | cons c l ih =>
      intro e epoch step
      obtain ⟨cs, h⟩ := ih (sendCtl e v u epoch (.digests 1 step c)) epoch step
      rw [sendCtl_eq, queueCtl_queueCtl] at h
      exact ⟨_, h⟩
  unfold sendTransfer
  dsimp only
  generalize List.map _ (List.range (reachList e v).length) = es
  obtain ⟨cs, h⟩ := hfold (chop 126 es.length es) (sendCtl e v u (getV e v).epoch (.hello (helloOf e v true true s)))
    (getV e v).epoch (getV e v).step
  rw [h, sendSummary, sendCtl_eq, sendCtl_eq, queueCtl_queueCtl, queueCtl_queueCtl]
  exact ⟨_, rfl⟩

theorem transferSent_eq (e : Eng) (c : Cmd) (p : BitVec 512) : ∃ cs, transferSent e c p = queueCtl (memberBound e c p) cs := by
  unfold transferSent
  split
  · exact sendTransfer_eq _ _ _ _
  · exact ⟨[], (queueCtl_nil _).symm⟩

/-! ## STAND_IN on the spare (R142) -/

/-- May a standby slot stand in (R142)? -/
def maySpare (e : Eng) (p : BitVec 512) : Bool :=
  decide ((getV e (pkValley p)).slot = .standby) && decide (pkf p 1 0 6 = (getV e (pkValley p)).self) &&
    !isHost (pkw p 5) && addrOk (pkw p 5) 8 ((allTargets e (pkValley p) + 7) / 8) pkgBytes

/-- The Reaches of a spare, all unrebuilt. -/
def unbuiltReaches (rs : List Nat) : Tab SReach := rs.foldl (fun t r => Tab.set t r { unbuilt := true }) []

/-- The Valley of a spare that enters, before its streams start. -/
def spareEntered (rs : List Nat) (c : Cmd) (p : BitVec 512) (ts : W64) (y : Valley) : Valley :=
  { y with
    slot := .spare, phase := .frozen, epoch := pkw p 3, step := pkw p 4, standIn := true, rmap := addrOf (pkw p 5)
    live := BitVec.ofNat 64 (2 ^ y.n - 1), reaches := unbuiltReaches rs
    spareWait := some { cmd := c, since := ts, base := BitVec.ofNat 32 (pkf p 2 0 32), hello := false, got := []
                        summary := none } }

/-- The Valley of a spare that enters. -/
def spareValley (rs : List Nat) (c : Cmd) (p : BitVec 512) (ts : W64) (y : Valley) : Valley :=
  startStreams (spareEntered rs c p ts y) (BitVec.ofNat 32 (pkf p 2 0 32))

theorem standInSpare_eq (e : Eng) (c : Cmd) (p : BitVec 512) : standInSpare e (pkValley p) c p =
    if maySpare e p then
      updV e (pkValley p) (spareValley ((reachList e (pkValley p)).map (·.num)) c p e.side.ts)
    else reply0 e c stOutOfRange := by
  by_cases h : maySpare e p = true
  · rw [if_pos h]
    simp only [maySpare, Bool.and_eq_true, decide_eq_true_eq, Bool.not_eq_true'] at h
    obtain ⟨⟨⟨h1, h2⟩, h3⟩, h4⟩ := h
    refine if_neg ?_
    rintro (hc | hc | hc | hc)
    · exact hc h1
    · exact hc h2
    · rw [h3] at hc
      cases hc
    · rw [h4] at hc
      cases hc
  · rw [if_neg h]
    refine if_pos ?_
    refine Classical.byContradiction fun hn => ?_
    simp only [not_or, Classical.not_not, Bool.not_eq_true, Bool.not_eq_false'] at hn
    obtain ⟨h1, h2, h3, h4⟩ := hn
    refine h ?_
    rw [maySpare, decide_eq_true h1, decide_eq_true h2, h3, h4]
    rfl

theorem get_unbuiltReaches {rs : List Nat} {r : Nat} (h : r ∈ rs) : Tab.get {} (unbuiltReaches rs) r = { unbuilt := true } := by
  have hfold : ∀ (rs : List Nat) (t : Tab SReach), Tab.get {} (rs.foldl (fun t r => Tab.set t r { unbuilt := true }) t) r =
      if r ∈ rs then { unbuilt := true } else Tab.get {} t r := by
    intro rs
    induction rs with
    | nil => exact fun _ => rfl
    | cons k rs ih =>
      intro t
      rw [List.foldl_cons, ih, Tab.get_set]
      by_cases hk : r = k
      · rw [if_pos hk, if_pos (List.mem_cons.2 (.inl hk)), ite_self]
      · simp only [List.mem_cons, hk, false_or, if_false]
  exact (hfold rs []).trans (if_pos h)

theorem streams_spareValley {rs : List Nat} {c : Cmd} {p : BitVec 512} {ts : W64} {y : Valley} {d : Nat} (h : d ∈ distances y) :
    getOut (spareValley rs c p ts y) d = { next := BitVec.ofNat 32 (pkf p 2 0 32) } ∧
    getIn (spareValley rs c p ts y) d = { a := BitVec.ofNat 32 (pkf p 2 0 32) } := by
  have hd : d ∈ distances (spareEntered rs c p ts y) := h
  exact ⟨Tab.get_map_key _ _ hd, Tab.get_map_key _ _ hd⟩

/-! ## STANDIN_DIGESTS (R142) -/

/-- A Reach that takes its digest. -/
def digestTaken (d : DigEnt) (y : SReach) : SReach := { y with comm := d.digest, pend := d.digest }

/-- The Reaches that take the digests of a packet. -/
def digestsTaken (es : List DigEnt) (t : Tab SReach) : Tab SReach :=
  es.foldl (fun t d => Tab.upd {} t d.reach (digestTaken d)) t

/-- What a spare waits for, after the digests of a packet. -/
def waitTaken (w : SpareWait) (es : List DigEnt) : SpareWait := { w with got := (w.got ++ es.map (·.reach)).eraseDups }

/-- A spare that takes the digests of a packet. -/
def spareTaken (w : SpareWait) (es : List DigEnt) (x : Valley) : Valley :=
  { x with spareWait := some (waitTaken w es), reaches := digestsTaken es x.reaches }

theorem onStandinDigests_of_wait {m : Mem} {e : Eng} {v : Nat} {w : SpareWait} (h : (getV e v).spareWait = some w)
    (es : List DigEnt) : onStandinDigests m e v es = spareDone m (updV e v (spareTaken w es)) v := by
  simp only [onStandinDigests, h]
  rfl

theorem get_digestsTaken_of_absent {es : List DigEnt} {r : Nat} (h : ∀ d ∈ es, d.reach ≠ r) (t : Tab SReach) :
    Tab.get {} (digestsTaken es t) r = Tab.get {} t r := by
  induction es generalizing t with
  | nil => rfl
  | cons d es ih =>
    refine (ih (fun d hd => h d (List.mem_cons_of_mem _ hd)) _).trans ?_
    exact Tab.get_set_ne _ _ _ _ _ (h d List.mem_cons_self).symm

/-- Whatever digests a Reach takes, the rest of it stays. -/
theorem unbuilt_digestsTaken (es : List DigEnt) (r : Nat) (t : Tab SReach) :
    (Tab.get {} (digestsTaken es t) r).unbuilt = (Tab.get {} t r).unbuilt := by
  induction es generalizing t with
  | nil => rfl
  | cons d es ih =>
    refine (ih _).trans ?_
    by_cases hr : r = d.reach
    · have hget : Tab.get {} (Tab.upd {} t d.reach (digestTaken d)) d.reach = digestTaken d (Tab.get {} t d.reach) :=
        Tab.get_set_same _ _ _ _
      rw [hr]
      exact (congrArg SReach.unbuilt hget :)
    · exact congrArg SReach.unbuilt (Tab.get_set_ne _ _ _ _ _ hr)

theorem get_digestsTaken {es : List DigEnt} {d : DigEnt} (hd : d ∈ es) (h : ∀ d' ∈ es, d'.reach = d.reach → d' = d)
    (t : Tab SReach) : (Tab.get {} (digestsTaken es t) d.reach).comm = d.digest ∧
      (Tab.get {} (digestsTaken es t) d.reach).pend = d.digest := by
  induction es generalizing t with
  | nil => cases hd
  | cons d' es ih =>
    have hrest : ∀ c ∈ es, c.reach = d.reach → c = d := fun c hc => h c (List.mem_cons_of_mem _ hc)
    by_cases hin : d ∈ es
    · exact ih hin hrest _
    · obtain rfl := (List.mem_cons.1 hd).resolve_right hin
      have habs : ∀ c ∈ es, c.reach ≠ d.reach := fun c hc hr => hin (hrest c hc hr ▸ hc)
      have hget : Tab.get {} (digestsTaken (d :: es) t) d.reach = digestTaken d (Tab.get {} t d.reach) :=
        (get_digestsTaken_of_absent habs _).trans (Tab.get_set_same _ _ _ _)
      rw [hget]
      exact ⟨rfl, rfl⟩

/-- Does a settle summary show a Reach folded? -/
def showsFolded (s : Summary) (r : Nat) : Bool :=
  decide (r < s.first.toNat) || (decide (s.first.toNat ≤ r) && bit s.bitmap (r - s.first.toNat))

/-- A Reach as a settle summary shows it. -/
def settledReach (b : Bool) (y : SReach) : SReach := { y with st := if b then .folded else .clean }

/-- The Reaches of a list as a settle summary shows them. -/
def settledReaches (s : Summary) (rs : List Nat) (t : Tab SReach) : Tab SReach :=
  rs.foldl (fun t r => Tab.upd {} t r (settledReach (showsFolded s r))) t

theorem get_settledReaches (s : Summary) (rs : List Nat) (r : Nat) (t : Tab SReach) :
    Tab.get {} (settledReaches s rs t) r =
      if r ∈ rs then settledReach (showsFolded s r) (Tab.get {} t r) else Tab.get {} t r := by
  induction rs generalizing t with
  | nil => rfl
  | cons k rs ih =>
    refine (ih _).trans ?_
    by_cases hk : r = k
    · subst hk
      have hget : Tab.get {} (Tab.upd {} t r (settledReach (showsFolded s r))) r =
          settledReach (showsFolded s r) (Tab.get {} t r) := Tab.get_set_same _ _ _ _
      rw [if_pos (List.mem_cons_self ..), hget]
      exact ite_self _
    · have hget : Tab.get {} (Tab.upd {} t k (settledReach (showsFolded s k))) r = Tab.get {} t r :=
        Tab.get_set_ne _ _ _ _ _ hk
      simp only [List.mem_cons, hk, false_or, hget]

/-- A spare that has joined. -/
def spareJoined (s : Summary) (rs : List Nat) (ts : W64) (x : Valley) : Valley :=
  { x with
    slot := .joined, spareWait := none, fenced := true, openHere := true
    landFold := s.landing || s.crossing, crossFold := s.crossing, recorded := false
    warden := { x.warden with landingB := s.landing || s.crossing, crossB := s.crossing }
    opened := s.landing || s.crossing || rs.any (showsFolded s)
    reaches := settledReaches s rs x.reaches, t1o := { x.t1o with timerTs := ts } }

/-- The engine in which a spare has joined. -/
def spareIn (e : Eng) (v : Nat) (s : Summary) : Eng :=
  startWatch (clearEvents (updV e v (spareJoined s ((reachList e v).map (·.num)) e.side.ts)) v) v

/-- The engine in which a spare has joined, once it has answered. -/
def spareAnswered (e : Eng) (v : Nat) (w : SpareWait) (s : Summary) : Eng := reply0 (spareIn e v s) w.cmd stOK

section
variable {m : Mem} {e : Eng} {v : Nat} {w : SpareWait}

theorem spareDone_of_waiting (hw : (getV e v).spareWait = some w)
    (h : w.summary = none ∨ ((reachList e v).map (·.num)).all (w.got.contains ·) = false) : spareDone m e v = e := by
  simp only [spareDone, hw]
  split
  · rfl
  · next s hs =>
    obtain hn | ha := h
    · rw [hn] at hs
      cases hs
    · rw [ha]
      rfl

theorem spareDone_of_complete {s : Summary} (hw : (getV e v).spareWait = some w) (hs : w.summary = some s)
    (h : ((reachList e v).map (·.num)).all (w.got.contains ·) = true) :
    spareDone m e v = settleV m (spareAnswered e v w s) v := by
  unfold spareDone
  dsimp only
  rw [hw]
  dsimp only
  rw [hs]
  dsimp only
  rw [h]
  exact if_neg Bool.false_ne_true

end

/-! ## The commands through `exec` -/

theorem mayStandIn_popHead (e : Eng) (q : Nat) (p : BitVec 512) : mayStandIn (popHead e q) p = mayStandIn e p := by
  have hnode : (popHead e q).ctl.node = e.ctl.node := (congrArg Ctl.node (kept_popHead e q) :)
  rw [mayStandIn, mayStandIn, popHead_getV, hnode]

theorem boundBy_popHead (e : Eng) (q : Nat) (p : BitVec 512) (y : Valley) : boundBy (popHead e q) p y = boundBy e p y := by
  rw [boundBy, boundBy, popHead_getV, popHead_side]

theorem maySpare_popHead (e : Eng) (q : Nat) (p : BitVec 512) : maySpare (popHead e q) p = maySpare e p := by
  simp only [maySpare, allTargets, targetsBefore, popHead_getV, reachList_congr (popHead_regions e q)]

section
variable {s : State} {q : Fin 64} {p : BitVec 512}

theorem exec_standIn (h : headReady s.eng q.val = some p) (ha : pkA p = false) :
    exec (.standIn q) s = .next (runCmd q.val 0x33 s fun e c p => standInMember s.mem e (pkValley p) c p) := by
  show execStandIn q s = _
  unfold execStandIn
  rw [h]
  exact if_neg (by rw [ha]; exact Bool.false_ne_true)

theorem exec_standInSpare (h : headReady s.eng q.val = some p) (ha : pkA p = true) :
    exec (.standInSpare q) s = .next (runCmd q.val 0x33 s fun e c p => standInSpare e (pkValley p) c p) := by
  show execStandInSpare q s = _
  unfold execStandInSpare
  rw [h]
  exact if_pos ha

theorem standInMember_of_may {e : Eng} (m : Mem) (c : Cmd) (hm : mayStandIn e p = true) :
    standInMember m e (pkValley p) c p = settleV m (transferSent e c p) (pkValley p) :=
  (standInMember_eq m e c p).trans (if_pos hm)

theorem standInMember_of_not {e : Eng} (m : Mem) (c : Cmd) (hm : mayStandIn e p = false) :
    standInMember m e (pkValley p) c p = reply0 e c stOutOfRange :=
  (standInMember_eq m e c p).trans (if_neg (by rw [hm]; exact Bool.false_ne_true))

theorem standInSpare_of_not {e : Eng} (c : Cmd) (hm : maySpare e p = false) :
    standInSpare e (pkValley p) c p = reply0 e c stOutOfRange :=
  (standInSpare_eq e c p).trans (if_neg (by rw [hm]; exact Bool.false_ne_true))

/-- The engine of a member that has bound the spare. -/
theorem transferSent_spec (e : Eng) (c : Cmd) (p : BitVec 512) :
    getV (transferSent e c p) (pkValley p) = boundBy e p (getV e (pkValley p)) ∧
    (∀ w, w ≠ pkValley p → getV (transferSent e c p) w = getV e w) ∧
    (transferSent e c p).regions = e.regions ∧ (transferSent e c p).lanes = e.lanes ∧
    (memberBound e c p).io.hm <:+ (transferSent e c p).io.hm := by
  obtain ⟨cs, hsent⟩ := transferSent_eq e c p
  have hans : OnlyAnswers (updV e (pkValley p) (boundBy e p)) (memberBound e c p) := onlyAnswers_reply _ _ _ _ _
  rw [hsent]
  exact ⟨(hans.getV _).trans (getV_updV_same _ _ _), fun w hw => (hans.getV w).trans (getV_updV_ne _ _ hw),
    hans.regions, hans.lanes, List.suffix_rfl⟩

/-- The spare that enters keeps the command until the transfer ends. -/
theorem Taken.entersSpare (h : Taken s q.val 0x33 p) (hm : maySpare s.eng p = true) :
    OnlyAnswers (updV (popHead s.eng q.val) (pkValley p)
        (spareValley ((reachList s.eng (pkValley p)).map (·.num)) (cmdOf q.val p) p s.eng.side.ts))
      (runCmd q.val 0x33 s fun e c p => standInSpare e (pkValley p) c p).eng := by
  obtain ⟨-, -, hans⟩ := h.runs fun e c p => standInSpare e (pkValley p) c p
  have heq := (standInSpare_eq (popHead s.eng q.val) (cmdOf q.val p) p).trans
    (if_pos ((maySpare_popHead _ _ _).trans hm))
  rw [popHead_side, reachList_congr (popHead_regions s.eng q.val)] at heq
  rw [← heq]
  exact hans

end

/-! ## The digests of a transfer -/

section
variable {e f : Eng} {v : Nat} {w : SpareWait} {es : List DigEnt}

/-- A packet's digests become the committed and the pending ones of their Reaches, and nothing else of the Valley or of
another changes but whether it has joined. -/
structure DigestsTaken (e : Eng) (v : Nat) (es : List DigEnt) (f : Eng) : Prop where
  /-- The Reaches are those with the digests, but for their state. -/
  reaches : ∀ r, ∃ st, getReach (getV f v) r = { Tab.get {} (digestsTaken es (getV e v).reaches) r with st := st }
  phase : (getV f v).phase = (getV e v).phase
  epoch : (getV f v).epoch = (getV e v).epoch
  step : (getV f v).step = (getV e v).step
  others : ∀ u, u ≠ v → getV f u = getV e u

theorem digestsTaken_spareTaken (e : Eng) (v : Nat) (w : SpareWait) (es : List DigEnt) :
    DigestsTaken e v es (updV e v (spareTaken w es)) := by
  have hget := getV_updV_same e v (spareTaken w es)
  exact ⟨fun r => ⟨_, by rw [hget]; rfl⟩, by rw [hget]; rfl, by rw [hget]; rfl, by rw [hget]; rfl,
    fun u hu => getV_updV_ne _ _ hu⟩

/-- What a packet's digests leave, as the obligation states it. -/
theorem DigestsTaken.spec (h : DigestsTaken e v es f) :
    (∀ d ∈ es, (∀ d' ∈ es, d'.reach = d.reach → d' = d) →
      (getReach (getV f v) d.reach).comm = d.digest ∧ (getReach (getV f v) d.reach).pend = d.digest ∧
      (getReach (getV f v) d.reach).unbuilt = (getReach (getV e v) d.reach).unbuilt) ∧
    (∀ r, (∀ d ∈ es, d.reach ≠ r) → (getReach (getV f v) r).comm = (getReach (getV e v) r).comm) ∧
    (getV f v).phase = (getV e v).phase ∧ (getV f v).epoch = (getV e v).epoch ∧ (getV f v).step = (getV e v).step ∧
    (∀ u, u ≠ v → getV f u = getV e u) := by
  refine ⟨fun d hd hu => ?_, fun r hr => ?_, h.phase, h.epoch, h.step, h.others⟩
  · obtain ⟨st, hst⟩ := h.reaches d.reach
    obtain ⟨hcomm, hpend⟩ := get_digestsTaken hd hu (getV e v).reaches
    rw [hst]
    exact ⟨hcomm, hpend, unbuilt_digestsTaken es d.reach _⟩
  · obtain ⟨st, hst⟩ := h.reaches r
    rw [hst]
    exact (congrArg SReach.comm (get_digestsTaken_of_absent hr _) :)

/-- Hearing the sender is no part of what a packet's digests change. -/
theorem DigestsTaken.of_heard {i : Nat} (h : DigestsTaken (heard e v i) v es f) : DigestsTaken e v es f := by
  have hv : peerless (getV (heard e v i) v) = peerless (getV e v) := by rw [getV_heard]; rfl
  have hread {α : Type} (k : Valley → α) (hk : ∀ z, k (peerless z) = k z) := read_view hv k hk
  obtain ⟨hr, hp, he, hs, ho⟩ := h
  refine ⟨fun r => ?_, hp.trans (hread Valley.phase fun _ => rfl), he.trans (hread Valley.epoch fun _ => rfl),
    hs.trans (hread Valley.step fun _ => rfl), fun u hu => (ho u hu).trans (getV_heard_ne _ _ hu)⟩
  rw [← hread Valley.reaches fun _ => rfl]
  exact hr r

theorem mem_waitTaken (r : Nat) : r ∈ (waitTaken w es).got ↔ r ∈ w.got ∨ ∃ d ∈ es, d.reach = r := by
  rw [waitTaken, List.mem_eraseDups, List.mem_append, List.mem_map]

theorem all_waitTaken (rs : List Nat) :
    rs.all ((waitTaken w es).got.contains ·) = true ↔ ∀ r ∈ rs, r ∈ w.got ∨ ∃ d ∈ es, d.reach = r := by
  simp only [List.all_eq_true, List.contains_iff_mem, mem_waitTaken]

theorem steady_startWatch (e : Eng) (v : Nat) : Steady e (startWatch e v) := .foldl (fun e _ => steady_updV e _ _) _ _

/-- The engine in which the spare has joined. -/
theorem spareAnswered_spec (e : Eng) (v : Nat) (w : SpareWait) (s : Summary) (hh : e.ctl.cpHaltBit = false) :
    peerless (getV (spareAnswered e v w s) v) =
      peerless (spareJoined s ((reachList e v).map (·.num)) e.side.ts (getV e v)) ∧
    (∀ u, u ≠ v → getV (spareAnswered e v w s) u = getV e u) ∧
    (spareAnswered e v w s).io.ctlOut = e.io.ctlOut ∧ Answered e (spareAnswered e v w s) w.cmd stOK 0 0 := by
  have hk : Steady e (spareIn e v s) := by
    refine Steady.trans ?_ (steady_startWatch _ v)
    exact (steady_updV e v (spareJoined s ((reachList e v).map (·.num)) e.side.ts)).trans (.of_same rfl rfl rfl)
  have halike : Alike valleyless peerless v _ (spareIn e v s) := alike_startWatch _ v
  have hans : OnlyAnswers (spareIn e v s) (spareAnswered e v w s) := onlyAnswers_reply (spareIn e v s) w.cmd stOK 0 0
  refine ⟨?_, fun u hu => ?_, ?_, hk.answered hh _ _ _ _⟩
  · rw [hans.getV, halike.here, getV_clearEvents, getV_updV_same]
  · rw [hans.getV, halike.others u hu, getV_clearEvents, getV_updV_ne _ _ hu]
  · rw [hans.ctlOut]
    exact (congrArg (fun g => g.io.ctlOut) halike.eng :)

theorem getReach_spareJoined (s : Summary) (rs : List Nat) (ts : W64) (x : Valley) (r : Nat) :
    getReach (spareJoined s rs ts x) r =
      if r ∈ rs then settledReach (showsFolded s r) (getReach x r) else getReach x r := get_settledReaches _ _ _ _

end

/-- Settles O50: STAND_IN on a member by the Valley it binds, on the spare by the Valley it enters, and the digests of the
transfer by whether they complete it. -/
theorem standInBinds : Obligations.StandInBinds := by
  refine ⟨fun q s p h => ⟨fun ha hf hu => ?_, fun ha hf => ⟨_, exec_standIn h.1 ha, h.onlyReplies ?_⟩,
    fun ha hs hu hb hr => ⟨_, exec_standInSpare h.1 ha, ?_⟩,
    fun ha hn => ⟨_, exec_standInSpare h.1 ha, h.onlyReplies (standInSpare_of_not _ ?_)⟩⟩,
    fun p s v w hacc ht hk hw => ?_⟩
  · have hm : mayStandIn (popHead s.eng q.val) p = true := (mayStandIn_popHead _ _ _).trans hf
    have hrun := runCmd_of_taken h fun e c p => standInMember s.mem e (pkValley p) c p
    rw [standInMember_of_may s.mem _ hm] at hrun
    obtain ⟨hget, hne, hr, hl, hhm⟩ := transferSent_spec (popHead s.eng q.val) (cmdOf q.val p) p
    rw [popHead_getV, boundBy_popHead] at hget
    have hans : Answered s.eng (memberBound (popHead s.eng q.val) (cmdOf q.val p) p) (cmdOf q.val p) stOK 0 0 :=
      h.answered_steady (steady_updV _ _ _) stOK 0 0
    refine ⟨transferSent (popHead s.eng q.val) (cmdOf q.val p) p, (exec_standIn h.1 ha).trans (congrArg _ hrun),
      hans.mono hhm, ?_⟩
    rw [hget]
    refine ⟨isLive_spareBound _ _ _ _ _ _ _ (BitVec.isLt ((pkw p 1).extractLsb' 0 6)), nodeOf_spareBound_same _ _ _ _ _ _ _ hu,
      fun i hi => nodeOf_spareBound_ne _ _ _ _ _ _ _ hi, getOut_spareBound _ _ _ _ _ _ _,
      getIn_spareBound _ _ _ _ _ _ _, ?_, rfl, rfl, fun w hw => (hne w hw).trans (popHead_getV _ _ _),
      hr.trans (popHead_regions _ _), hl.trans (popHead_lanes _ _)⟩
    have hm' : mayStandIn s.eng p = true := hf
    simp only [mayStandIn, Bool.and_eq_true, decide_eq_true_eq] at hm'
    obtain ⟨⟨⟨⟨⟨⟨⟨-, hph⟩, -⟩, -⟩, -⟩, -⟩, -⟩, -⟩ := hm'
    exact hph
  · exact standInMember_of_not s.mem _ ((mayStandIn_popHead _ _ _).trans hf)
  · have hm : maySpare s.eng p = true := by
      rw [maySpare, decide_eq_true hs, decide_eq_true hu, hb, hr]
      rfl
    obtain ⟨hmem, -, -⟩ := h.runs fun e c p => standInSpare e (pkValley p) c p
    have hans := h.entersSpare hm
    have hget := (hans.getV (pkValley p)).trans (getV_updV_same _ _ _)
    rw [popHead_getV] at hget
    refine ⟨hmem, ?_⟩
    rw [hget]
    refine ⟨rfl, rfl, rfl, rfl, rfl, rfl, rfl, fun r hr => ?_, fun d hd => streams_spareValley hd, fun w hw => ?_, ?_, ?_⟩
    · exact congrArg SReach.unbuilt (get_unbuiltReaches (List.mem_map_of_mem hr))
    · rw [hans.getV, getV_updV_ne _ _ hw, popHead_getV]
    · exact hans.regions.trans (popHead_regions _ _)
    · rw [hans.ctlOut]
      show (popHead s.eng q.val).io.ctlOut = _
      rw [popHead_io]
  · rw [maySpare_popHead, ← Bool.not_eq_true]
    intro hm
    simp only [maySpare, Bool.and_eq_true, decide_eq_true_eq, Bool.not_eq_true'] at hm
    obtain ⟨⟨⟨h1, h2⟩, h3⟩, h4⟩ := hm
    obtain hc | hc | hc | hc := hn
    · exact hc h1
    · exact hc h2
    · rw [h3] at hc
      cases hc
    · rw [h4] at hc
      cases hc
  · have hexec : exec (.standinDigests p) s = .next { s with eng := advance s.mem (onStandinDigests s.mem
        (heard s.eng v (hdrOf p).sender) v (digEntries p (hdrOf p).count)) } := by
      obtain ⟨-, -, -, -, -, -, -, -, -, -, hdig, -, -⟩ := acceptedPacketsAct.1 p 0 s v hacc
      exact hdig ht hk
    rw [hexec]
    have hv : peerless (getV (heard s.eng v (hdrOf p).sender) v) = peerless (getV s.eng v) := by rw [getV_heard]; rfl
    have hsteady := steady_heard s.eng v (hdrOf p).sender
    obtain ⟨win, res, hh⟩ := heard_eq s.eng v (hdrOf p).sender
    have hio : (heard s.eng v (hdrOf p).sender).io = s.eng.io := by rw [hh]; rfl
    have hregions : (heard s.eng v (hdrOf p).sender).regions = s.eng.regions := by rw [hh]; rfl
    have hof := fun f => DigestsTaken.of_heard (e := s.eng) (v := v) (i := (hdrOf p).sender)
      (es := digEntries p (hdrOf p).count) (f := f)
    clear hh hexec
    have hwait : (getV (heard s.eng v (hdrOf p).sender) v).spareWait = some w :=
      (read_view hv Valley.spareWait fun _ => rfl).trans hw
    have hslot : (getV (heard s.eng v (hdrOf p).sender) v).slot = (getV s.eng v).slot :=
      read_view hv Valley.slot fun _ => rfl
    rw [onStandinDigests_of_wait hwait]
    generalize heard s.eng v (hdrOf p).sender = e at *
    generalize digEntries p (hdrOf p).count = es at *
    have hget := getV_updV_same e v (spareTaken w es)
    have hreach : reachList (updV e v (spareTaken w es)) v = reachList s.eng v := reachList_congr hregions v
    have htaken := digestsTaken_spareTaken e v w es
    have hwt : (getV (updV e v (spareTaken w es)) v).spareWait = some (waitTaken w es) := by rw [hget]; rfl
    have hsteady' := hsteady.trans (steady_updV e v (spareTaken w es))
    refine ⟨fun hopen => ?_, fun y hy hall hhalt => ?_⟩
    · have hnot : spareDone s.mem (updV e v (spareTaken w es)) v = updV e v (spareTaken w es) := by
        refine spareDone_of_waiting hwt (hopen.imp id fun ⟨r, hr, hn⟩ => ?_)
        rw [hreach, ← Bool.not_eq_true, all_waitTaken]
        exact fun hc => hn (hc r hr)
      rw [hnot]
      refine ⟨_, waitTaken w es, rfl, (hof _ htaken).spec, ?_, hwt, rfl, rfl, mem_waitTaken, hio, hregions⟩
      rw [hget]
      exact hslot
    · have hdone := spareDone_of_complete (m := s.mem) (s := y) hwt hy (by rw [hreach, all_waitTaken]; exact hall)
      obtain ⟨hhere, hne, hout, hans⟩ := spareAnswered_spec (updV e v (spareTaken w es)) v (waitTaken w es) y
        (hsteady'.halt.trans hhalt)
      have hread {α : Type} (k : Valley → α) (hk : ∀ z, k (peerless z) = k z) := read_view hhere k hk
      rw [hdone]
      refine ⟨_, rfl, (hof _ ?_).spec, hsteady'.answers_before hans, ?_⟩
      · obtain ⟨-, hp, he, hs, ho⟩ := htaken
        refine ⟨fun r => ?_, (hread Valley.phase fun _ => rfl).trans hp, (hread Valley.epoch fun _ => rfl).trans he,
          (hread Valley.step fun _ => rfl).trans hs, fun u hu => (hne u hu).trans (ho u hu)⟩
        rw [hread (getReach · r) fun _ => rfl, getReach_spareJoined, hget]
        split
        · exact ⟨_, rfl⟩
        · exact ⟨_, rfl⟩
      · refine ⟨hread Valley.slot fun _ => rfl, hread Valley.spareWait fun _ => rfl, hread Valley.landFold fun _ => rfl,
          hread Valley.crossFold fun _ => rfl, fun r hr => ?_, hout.trans (congrArg Io.ctlOut hio :)⟩
        rw [hread (getReach · r) fun _ => rfl, getReach_spareJoined, hreach, if_pos hr]
        refine ⟨fun hfold => if_pos ?_, fun hfold => if_neg fun hc => hfold ?_⟩
        · simpa only [showsFolded, Bool.or_eq_true, Bool.and_eq_true, decide_eq_true_eq] using hfold
        · simpa only [showsFolded, Bool.or_eq_true, Bool.and_eq_true, decide_eq_true_eq] using hc

end Sys2Proof.Machine

/-!
T1_DRAIN and T2_DRAIN (R153, R154, R171, R276).
-/

namespace Sys2Proof.Machine

/-! ## What the fetch of a command leaves -/

section
variable (m : Mem) (e : Eng) (q : Nat) (v : Nat) (p : BitVec 512)

theorem popHead_accSto : (popHead e q).regs.accSto = e.regs.accSto :=
  (congrArg Regs.accSto (onlyCorrects_readHead e q).regs :)

theorem nsAllowed_popHead : nsAllowed (popHead e q) v = nsAllowed e v := by
  rw [nsAllowed, nsAllowed, popHead_getV, popHead_accSto]

theorem storageDenied_popHead : storageDenied (popHead e q) v = storageDenied e v := by
  rw [storageDenied, storageDenied, popHead_getV, nsAllowed_popHead]

theorem jobKey_popHead (fn : Byte) : jobKey (popHead e q) fn = jobKey e fn := by
  have hkeys : (popHead e q).ctl.keys = e.ctl.keys := (congrArg Ctl.keys (kept_popHead e q) :)
  rw [jobKey, jobKey, hkeys]

theorem drainMay_popHead : drainMay (popHead e q) v = drainMay e v := by
  rw [drainMay, drainMay, jobKeyed, jobKeyed, popHead_getV, jobKey_popHead, keysEnding, keysEnding, popHead_side]

theorem anyUnbuilt_popHead : anyUnbuilt (popHead e q) v = anyUnbuilt e v := by
  rw [anyUnbuilt, anyUnbuilt, popHead_getV, reachList_congr (popHead_regions e q)]

theorem layoutOk_popHead (a n : Nat) : layoutOk m (popHead e q) v a n = layoutOk m e v a n := by
  have hent : layoutEntOk (popHead e q) v = layoutEntOk e v := by
    funext t
    simp only [layoutEntOk, regionOfSlot, valleyRegions, popHead_regions]
  have hat : layoutAt m (popHead e q) a n = layoutAt m e a n := by
    simp only [layoutAt, loadWords, loadBytes, loadLine, popHead_acc]
  rw [layoutOk, layoutOk, hent, hat]

theorem layoutParamOk_popHead : layoutParamOk m (popHead e q) v p = layoutParamOk m e v p := by
  rw [layoutParamOk, layoutParamOk, layoutOk_popHead]

end

/-! ## The entries of the drain commands -/

/-- The entry of T1_DRAIN. -/
def t1Cmd (m : Mem) (e : Eng) (c : Cmd) (p : BitVec 512) : Eng :=
  if storageDenied e (pkValley p) then denyStorage e c
  else if pkf p 1 0 4 = 0 ∨ 4 < pkf p 1 0 4 ∨ !isJoined (getV e (pkValley p)) ∨ !hasArea (getV e (pkValley p)) ∨
      anyUnbuilt e (pkValley p) then reply0 e c stOutOfRange
  else t1Action m e (pkValley p) c (pkf p 1 0 4) (pkA p)

/-- The entry of T2_DRAIN. -/
def t2Cmd (m : Mem) (e : Eng) (c : Cmd) (p : BitVec 512) : Eng :=
  if storageDenied e (pkValley p) then denyStorage e c
  else if pkf p 1 0 4 = 0 ∨ 4 < pkf p 1 0 4 ∨ !isJoined (getV e (pkValley p)) ∨ !hasArea (getV e (pkValley p)) then
    reply0 e c stOutOfRange
  else t2Action m e (pkValley p) c p (pkf p 1 0 4)

theorem exec_t1Drain (q : Fin 64) (s : State) : exec (.t1Drain q) s = .next (runCmd q.val 0x40 s (t1Cmd s.mem)) := rfl

theorem exec_t2Drain (q : Fin 64) (s : State) : exec (.t2Drain q) s = .next (runCmd q.val 0x44 s (t2Cmd s.mem)) := rfl

/-- A Valley whose area the storage port gives its partition. -/
def storeReady (e : Eng) (v : Nat) : Bool := isJoined (getV e v) && hasArea (getV e v) && nsAllowed e v

theorem not_storageDenied {e : Eng} {v : Nat} (h : storeReady e v = true) : storageDenied e v = false := by
  simp only [storeReady, Bool.and_eq_true] at h
  rw [storageDenied, h.2, Bool.not_true, Bool.and_false]

section
variable {m : Mem} {e : Eng} {q : Nat} {c : Cmd} {p : BitVec 512}

theorem t1Cmd_of_denied (h : storageDenied e (pkValley p) = true) :
    t1Cmd m (popHead e q) c p = denyStorage (popHead e q) c := if_pos ((storageDenied_popHead _ _ _).trans h)

theorem t1Cmd_of_bad (hd : storageDenied e (pkValley p) = false) (h : pkf p 1 0 4 = 0 ∨ 4 < pkf p 1 0 4 ∨
      isJoined (getV e (pkValley p)) = false ∨ hasArea (getV e (pkValley p)) = false ∨ anyUnbuilt e (pkValley p) = true) :
    t1Cmd m (popHead e q) c p = reply0 (popHead e q) c stOutOfRange := by
  unfold t1Cmd
  rw [storageDenied_popHead, popHead_getV, anyUnbuilt_popHead, if_neg (Bool.eq_false_iff.1 hd), if_pos]
  simpa only [Bool.not_eq_true'] using h

theorem t2Cmd_of_bad (hd : storageDenied e (pkValley p) = false) (h : pkf p 1 0 4 = 0 ∨ 4 < pkf p 1 0 4 ∨
      isJoined (getV e (pkValley p)) = false ∨ hasArea (getV e (pkValley p)) = false) :
    t2Cmd m (popHead e q) c p = reply0 (popHead e q) c stOutOfRange := by
  unfold t2Cmd
  rw [storageDenied_popHead, popHead_getV, if_neg (Bool.eq_false_iff.1 hd), if_pos]
  simpa only [Bool.not_eq_true'] using h

theorem t1Cmd_of_ready {a : Nat} (h : storeReady e (pkValley p) = true) (hu : anyUnbuilt e (pkValley p) = false)
    (ha : pkf p 1 0 4 = a) (h0 : a ≠ 0) (h4 : a ≤ 4) :
    t1Cmd m (popHead e q) c p = t1Action m (popHead e q) (pkValley p) c a (pkA p) := by
  have hd := not_storageDenied h
  simp only [storeReady, Bool.and_eq_true] at h
  obtain ⟨⟨hj, hs⟩, -⟩ := h
  unfold t1Cmd
  rw [storageDenied_popHead, popHead_getV, anyUnbuilt_popHead, if_neg (Bool.eq_false_iff.1 hd), if_neg, ha]
  rw [hj, hs, hu, ha]
  exact not_or.2 ⟨h0, not_or.2 ⟨Nat.not_lt.2 h4, not_or.2 ⟨Bool.false_ne_true,
    not_or.2 ⟨Bool.false_ne_true, Bool.false_ne_true⟩⟩⟩⟩

theorem t2Cmd_of_ready {a : Nat} (h : storeReady e (pkValley p) = true) (ha : pkf p 1 0 4 = a) (h0 : a ≠ 0) (h4 : a ≤ 4) :
    t2Cmd m (popHead e q) c p = t2Action m (popHead e q) (pkValley p) c p a := by
  have hd := not_storageDenied h
  simp only [storeReady, Bool.and_eq_true] at h
  obtain ⟨⟨hj, hs⟩, -⟩ := h
  unfold t2Cmd
  rw [storageDenied_popHead, popHead_getV, if_neg (Bool.eq_false_iff.1 hd), if_neg, ha]
  rw [hj, hs, ha]
  exact not_or.2 ⟨h0, not_or.2 ⟨Nat.not_lt.2 h4, not_or.2 ⟨Bool.false_ne_true, Bool.false_ne_true⟩⟩⟩

end

/-! ## T1_DRAIN (R154, R155) -/

/-- A Valley that remembers a drain command. -/
def t1Asked (full : Bool) (x : Valley) : Valley := { x with t1o := { x.t1o with asked := some (full || x.t1o.asked.getD false) } }

/-- A Valley whose standing order is set or cleared. -/
def t1Standing (on : Bool) (x : Valley) : Valley := { x with t1o := { x.t1o with standing := on } }

/-- May a drain of Terrace 1 be ordered now (R153)? -/
def mayDrainNow (e : Eng) (v : Nat) : Bool := !(getV e v).t1.isSome && drainMay e v && !decide (freeCount e 3 < 1024)

section
variable {m : Mem} {e : Eng} {v : Nat} {c : Cmd} {full : Bool}

theorem t1Action_now (h : mayDrainNow e v = true) : t1Action m e v c 1 full =
    tryStartT1 m (updV (reply0 e c stAccepted) v (t1Asked full)) v := by
  simp only [mayDrainNow, Bool.and_eq_true, Bool.not_eq_true'] at h
  obtain ⟨⟨h1, h2⟩, h3⟩ := h
  exact if_neg (by rw [h1, h2, h3]; exact Bool.false_ne_true)

theorem t1Action_now_of_not (h : mayDrainNow e v = false) : t1Action m e v c 1 full = reply0 e c stOutOfRange := by
  refine if_pos ?_
  have hor := congrArg not h
  rwa [mayDrainNow, Bool.not_and, Bool.not_and, Bool.not_not, Bool.not_not] at hor

theorem t1Action_standing (h : drainMay e v = true) : t1Action m e v c 2 full =
    tryStartT1 m (holdIfBusy (readTable (updV (reply0 e c stAccepted) v (t1Standing true)) v) v) v :=
  if_neg (by rw [h]; exact Bool.false_ne_true)

theorem t1Action_clear : t1Action m e v c 3 full = reply0 (updV e v (t1Standing false)) c stOK := rfl

theorem t1Action_cancel : t1Action m e v c 4 full = endT1 (reply0 e c stOK) v 6 := rfl

theorem steady_drainDone (e : Eng) (v terrace reason : Nat) (full : Bool) (number : Nat) (ws : W64) :
    Steady e (drainDone e v terrace reason full number ws) := steady_raise _ _ _ _ _ _

theorem steady_endT1 (e : Eng) (v reason : Nat) : Steady e (endT1 e v reason) := by
  unfold endT1
  split
  · exact .refl e
  · refine Steady.trans ?_ (steady_drainDone _ _ _ _ _ _ _)
    exact .of_same rfl rfl rfl

/-- A drain that ends is gone, and its pages are owned by nobody (R170). -/
theorem endT1_ends (e : Eng) (v reason : Nat) : (getV (endT1 e v reason) v).t1 = none ∧
    (∀ r, (getV e v).t1 = some r → ∀ g ∈ r.pages, Tab.find (endT1 e v reason).basin.owners g = none) := by
  unfold endT1
  cases ht : (getV e v).t1 with
  | none => exact ⟨ht, nofun⟩
  | some r =>
    dsimp only
    refine ⟨?_, fun r' hr' g hg => ?_⟩
    · rw [getV_drainDone, getV_updV_same]
    · obtain rfl : r = r' := Option.some.inj hr'
      rw [drainDone, (onlyEvents_raise _ _ _ _ _ _).answers.basin]
      exact (find_freeBasin_owners _ _ _).trans (if_pos hg)

theorem steady_endT2 (e : Eng) (v reason : Nat) : Steady e (endT2 e v reason) := by
  unfold endT2
  split
  · exact .refl e
  · refine Steady.trans ?_ (steady_drainDone _ _ _ _ _ _ _)
    exact .of_same rfl rfl rfl

theorem t2_endT2 (e : Eng) (v reason : Nat) : (getV (endT2 e v reason) v).t2 = none := by
  unfold endT2
  cases ht : (getV e v).t2 with
  | none => exact ht
  | some r =>
    dsimp only
    rw [getV_drainDone, getV_updV_same]

end

/-! ## T2_DRAIN (R154, R156) -/

/-- A Valley that remembers a Terrace 2 drain command. -/
def t2Asked (p : BitVec 512) (x : Valley) : Valley :=
  { x with t2o := { x.t2o with next := some (pkf p 2 0 32, addrOf (pkw p 3), pkf p 4 0 25), held := false } }

/-- A Valley whose standing order is set or cleared. -/
def t2Standing (lay : Option (Nat × Nat)) (x : Valley) : Valley := { x with t2o := { x.t2o with standing := lay } }

/-- May a drain of Terrace 2 be ordered now (R153, R172)? -/
def mayDrainT2Now (m : Mem) (e : Eng) (v : Nat) (p : BitVec 512) : Bool :=
  !t2Running (getV e v) && drainMay e v && layoutParamOk m e v p && !decide (freeCount e 3 < 512)

section
variable {m : Mem} {e : Eng} {v : Nat} {c : Cmd} {p : BitVec 512}

theorem t2Action_now (h : mayDrainT2Now m e v p = true) : t2Action m e v c p 1 =
    tryStartT2 m (updV (reply0 e c stAccepted) v (t2Asked p)) v := by
  simp only [mayDrainT2Now, Bool.and_eq_true, Bool.not_eq_true'] at h
  obtain ⟨⟨⟨h1, h2⟩, h3⟩, h4⟩ := h
  exact if_neg (by rw [h1, h2, h3, h4]; exact Bool.false_ne_true)

theorem t2Action_standing (h : drainMay e v = true) (hl : layoutParamOk m e v p = true) : t2Action m e v c p 2 =
    updV (reply0 e c stAccepted) v (t2Standing (some (addrOf (pkw p 3), pkf p 4 0 25))) :=
  if_neg (by rw [h, hl]; exact Bool.false_ne_true)

theorem t2Action_clear : t2Action m e v c p 3 = reply0 (updV e v (t2Standing none)) c stOK := rfl

theorem t2Action_cancel : t2Action m e v c p 4 = cancelT2 (reply0 e c stOK) v := rfl

theorem cancelT2_ends (e : Eng) (v : Nat) : Steady e (cancelT2 e v) ∧ (getV (cancelT2 e v) v).t2 = none := by
  unfold cancelT2
  dsimp only
  cases ht : (getV e v).t2 with
  | some r => exact ⟨steady_endT2 e v 6, t2_endT2 e v 6⟩
  | none =>
    cases hn : (getV e v).t2o.next with
    | none => exact ⟨.refl e, ht⟩
    | some n =>
      dsimp only
      split
      · exact ⟨.refl e, ht⟩
      · refine ⟨(steady_updV e v fun x => { x with
          t2o := { x.t2o with next := none } }).trans (steady_raise _ _ _ _ _ _), ?_⟩
        rw [getV_drainDone, getV_updV_same]
        exact ht

end

/-! ## The whole -/

section
variable {s : State} {q op : Nat} {p : BitVec 512}

/-- A command that the storage port's table denies. -/
theorem Taken.denied (h : Taken s q op p) {f : Eng → Cmd → BitVec 512 → Eng}
    (hf : f (popHead s.eng q) (cmdOf q p) p = denyStorage (popHead s.eng q) (cmdOf q p)) :
    (runCmd q op s f).mem = s.mem ∧
    Tab.get 0 (runCmd q op s f).eng.cnt.refuse 3 = satInc (Tab.get 0 s.eng.cnt.refuse 3) ∧
    (runCmd q op s f).eng.valleys = s.eng.valleys ∧
    Answered s.eng (runCmd q op s f).eng (cmdOf q p) stDenied 0 0 := by
  obtain ⟨hm, -, hv, hc, ha⟩ := Replies.refused (h.replies (steady_refuseAt _ 3) hf)
  exact ⟨hm, hc, hv, ha⟩

/-- A command that answers once it has changed its Valley. -/
theorem Taken.answersFor (h : Taken s q op p) (v : Nat) {k : Valley → Valley} {st : W16} {f : Eng → Cmd → BitVec 512 → Eng}
    (hf : f (popHead s.eng q) (cmdOf q p) p = reply0 (updV (popHead s.eng q) v k) (cmdOf q p) st) :
    (runCmd q op s f).mem = s.mem ∧ Answered s.eng (runCmd q op s f).eng (cmdOf q p) st 0 0 ∧
    getV (runCmd q op s f).eng v = k (getV s.eng v) ∧ (runCmd q op s f).eng.basin = (readHead s.eng q).basin := by
  obtain ⟨hm, -, ho, ha⟩ := h.replies (steady_updV _ v k) hf
  exact ⟨hm, ha, by rw [ho.getV, getV_updV_same, popHead_getV], ho.basin⟩

/-- A command that is answered before it changes its Valley. -/
theorem Taken.acceptedFor (h : Taken s q op p) (v : Nat) (k : Valley → Valley) (st : W16) :
    Answered s.eng (updV (reply0 (popHead s.eng q) (cmdOf q p) st) v k) (cmdOf q p) st 0 0 ∧
    getV (updV (reply0 (popHead s.eng q) (cmdOf q p) st) v k) v = k (getV s.eng v) ∧
    (∀ w, w ≠ v → getV (updV (reply0 (popHead s.eng q) (cmdOf q p) st) v k) w = getV s.eng w) ∧
    (updV (reply0 (popHead s.eng q) (cmdOf q p) st) v k).basin = (readHead s.eng q).basin ∧
    (updV (reply0 (popHead s.eng q) (cmdOf q p) st) v k).spill = s.eng.spill := by
  have hans : OnlyAnswers (popHead s.eng q) (reply0 (popHead s.eng q) (cmdOf q p) st) := onlyAnswers_reply _ _ _ _ _
  have ha : Answered s.eng (reply0 (popHead s.eng q) (cmdOf q p) st) (cmdOf q p) st 0 0 :=
    h.answered_steady (.refl _) st 0 0
  generalize reply0 (popHead s.eng q) (cmdOf q p) st = e at *
  refine ⟨ha.after (steady_updV e v k), ?_, fun w hw => ?_, hans.basin, hans.spill.trans (popHead_spill _ _)⟩
  · rw [getV_updV_same, hans.getV, popHead_getV]
  · rw [getV_updV_ne _ _ hw, hans.getV, popHead_getV]

/-- A command that is answered and then ends something. -/
theorem Taken.answersThen (h : Taken s q op p) {f : Eng → Cmd → BitVec 512 → Eng} {st : W16} {g : Eng → Eng}
    (hg : ∀ e, Steady e (g e)) (hf : f (popHead s.eng q) (cmdOf q p) p = g (reply0 (popHead s.eng q) (cmdOf q p) st)) :
    (runCmd q op s f).mem = s.mem ∧ Answered s.eng (runCmd q op s f).eng (cmdOf q p) st 0 0 ∧
    ∃ e, (∀ v, getV e v = getV s.eng v) ∧ OnlyAnswers (g e) (runCmd q op s f).eng := by
  obtain ⟨hm, -, ho⟩ := h.runs f
  have hans : OnlyAnswers (popHead s.eng q) (reply0 (popHead s.eng q) (cmdOf q p) st) := onlyAnswers_reply _ _ _ _ _
  have ha : Answered s.eng (reply0 (popHead s.eng q) (cmdOf q p) st) (cmdOf q p) st 0 0 :=
    h.answered_steady (.refl _) st 0 0
  rw [hf] at ho
  exact ⟨hm, (ha.after (hg _)).later ho, _, fun v => (hans.getV v).trans (popHead_getV _ _ _), ho⟩

theorem mayDrainNow_popHead (e : Eng) (q v : Nat) : mayDrainNow (popHead e q) v = mayDrainNow e v := by
  rw [mayDrainNow, mayDrainNow, popHead_getV, drainMay_popHead, freeCount_popHead]

theorem mayDrainT2Now_popHead (m : Mem) (e : Eng) (q v : Nat) (p : BitVec 512) :
    mayDrainT2Now m (popHead e q) v p = mayDrainT2Now m e v p := by
  rw [mayDrainT2Now, mayDrainT2Now, popHead_getV, drainMay_popHead, freeCount_popHead, layoutParamOk_popHead]

end

/-- Settles O52: by the storage port's table, and then by the action of the order. -/
theorem drainOrders : Obligations.DrainOrders := by
  intro q s p v x a lay ready
  refine ⟨fun h => ⟨fun hd => ⟨_, exec_t1Drain q s, h.denied (t1Cmd_of_denied hd)⟩, fun hready hu =>
      ⟨fun ha ht hm hfree => ?_, fun ha hm => ?_, fun ha => ⟨_, exec_t1Drain q s, ?_⟩, fun ha => ⟨_, exec_t1Drain q s, ?_⟩,
        fun ha hn => ⟨_, exec_t1Drain q s, h.onlyReplies ?_⟩⟩,
      fun hd hn => ⟨_, exec_t1Drain q s, h.onlyReplies (t1Cmd_of_bad hd hn)⟩⟩,
    fun h => ⟨fun hready => ⟨fun ha ht hm hl hfree => ?_, fun ha hm hl => ⟨_, exec_t2Drain q s, ?_⟩,
        fun ha => ⟨_, exec_t2Drain q s, ?_⟩, fun ha => ⟨_, exec_t2Drain q s, ?_⟩⟩,
      fun hd hn => ⟨_, exec_t2Drain q s, h.onlyReplies (t2Cmd_of_bad hd hn)⟩⟩⟩
  · have hnow : mayDrainNow s.eng v = true := by
      rw [mayDrainNow, hm, decide_eq_false (Nat.not_lt.2 hfree)]
      show (!x.t1.isSome && _ && _) = true
      rw [ht]
      rfl
    have hrun := runCmd_of_taken h (t1Cmd s.mem)
    rw [t1Cmd_of_ready hready hu ha (by decide) (by decide),
      t1Action_now ((mayDrainNow_popHead _ _ _).trans hnow)] at hrun
    exact ⟨_, (exec_t1Drain q s).trans (congrArg _ hrun), h.acceptedFor v (t1Asked (pkA p)) stAccepted⟩
  · have hrun := runCmd_of_taken h (t1Cmd s.mem)
    rw [t1Cmd_of_ready hready hu ha (by decide) (by decide),
      t1Action_standing ((drainMay_popHead _ _ _).trans hm)] at hrun
    obtain ⟨hans, hget, -⟩ := h.acceptedFor v (t1Standing true) stAccepted
    exact ⟨_, (exec_t1Drain q s).trans (congrArg _ hrun), hans, hget⟩
  · exact h.answersFor v ((t1Cmd_of_ready hready hu ha (by decide) (by decide)).trans t1Action_clear)
  · obtain ⟨hmem, hans, e, he, ho⟩ := h.answersThen (f := t1Cmd s.mem) (steady_endT1 · v 6)
      ((t1Cmd_of_ready hready hu ha (by decide) (by decide)).trans t1Action_cancel)
    obtain ⟨hnone, hpages⟩ := endT1_ends e v 6
    rw [he] at hpages
    refine ⟨hmem, hans, by rw [ho.getV]; exact hnone, fun r hr g hg => ?_⟩
    rw [ho.basin]
    exact hpages r hr g hg
  · refine (t1Cmd_of_ready hready hu ha (by decide) (by decide)).trans (t1Action_now_of_not ?_)
    rw [mayDrainNow_popHead, mayDrainNow]
    obtain hn | hn | hn := hn
    · rw [Option.isSome_iff_ne_none.2 hn]
      rfl
    · rw [hn, Bool.and_false]
      rfl
    · rw [decide_eq_true hn, Bool.not_true, Bool.and_false]
  · have hnow : mayDrainT2Now s.mem s.eng v p = true := by
      rw [mayDrainT2Now, hm, hl, decide_eq_false (Nat.not_lt.2 hfree)]
      show (!t2Running x && _ && _ && _) = true
      rw [ht]
      rfl
    have hrun := runCmd_of_taken h (t2Cmd s.mem)
    rw [t2Cmd_of_ready hready ha (by decide) (by decide),
      t2Action_now ((mayDrainT2Now_popHead _ _ _ _ _).trans hnow)] at hrun
    obtain ⟨hans, hget, -⟩ := h.acceptedFor v (t2Asked p) stAccepted
    exact ⟨_, (exec_t2Drain q s).trans (congrArg _ hrun), hans, hget⟩
  · obtain ⟨hmem, -, ho⟩ := h.runs (t2Cmd s.mem)
    rw [t2Cmd_of_ready hready ha (by decide) (by decide), t2Action_standing ((drainMay_popHead _ _ _).trans hm)
      ((layoutParamOk_popHead _ _ _ _ _).trans hl)] at ho
    obtain ⟨hans, hget, -⟩ := h.acceptedFor v (t2Standing (some (addrOf (pkw p 3), pkf p 4 0 25))) stAccepted
    exact ⟨hmem, hans.later ho, (ho.getV v).trans hget⟩
  · obtain ⟨hmem, hans, hget, -⟩ := h.answersFor v (f := t2Cmd s.mem)
      ((t2Cmd_of_ready hready ha (by decide) (by decide)).trans t2Action_clear)
    exact ⟨hmem, hans, hget⟩
  · obtain ⟨hmem, hans, e, -, ho⟩ := h.answersThen (f := t2Cmd s.mem) (fun e => (cancelT2_ends e v).1)
      ((t2Cmd_of_ready hready ha (by decide) (by decide)).trans t2Action_cancel)
    exact ⟨hmem, hans, by rw [ho.getV]; exact (cancelT2_ends e v).2⟩

end Sys2Proof.Machine

/-!
OUTER_EXPORT and OUTER_REANCHOR (R186, R187, R202, R204, R205, R287).
-/

namespace Sys2Proof.Machine

/-! ## What the fetch of a command leaves -/

section
variable (m : Mem) (e : Eng) (q v : Nat)

theorem expTable_popHead (a n : Nat) : expTable m (popHead e q) a n = expTable m e a n := by
  simp only [expTable, loadWords, loadBytes, loadLine, popHead_acc]

theorem tableOk_popHead (ts : List ExpEnt) (ex : Bool) : tableOk (popHead e q) v ts ex = tableOk e v ts ex := by
  have hent : entRegions (popHead e q) v = entRegions e v := by
    funext t
    simp only [entRegions, slotRegion, valleyRegions, popHead_regions]
  simp only [tableOk, popHead_getV, hent]

theorem exchKey_popHead (fn : Byte) : exchKey (popHead e q) fn = exchKey e fn := by
  have hkeys : (popHead e q).ctl.keys = e.ctl.keys := (congrArg Ctl.keys (kept_popHead e q) :)
  rw [exchKey, exchKey, hkeys]

end

/-! ## OUTER_EXPORT (R202) -/

/-- Is the round of an export in order: the last one again, or a later one? -/
def roundOk (x : Valley) (p : BitVec 512) : Bool :=
  if pkA p then decide (pkw p 1 = x.expo.round)
  else decide (x.expo.round.toNat < (pkw p 1).toNat) && decide (x.expo.st ≠ .incomplete)

/-- May an OUTER_EXPORT be taken, apart from its table, its key and its working set? -/
def mayExport (e : Eng) (p : BitVec 512) : Bool :=
  isJoined (getV e (pkValley p)) && decide ((getV e (pkValley p)).phase = .opened) &&
    (getV e (pkValley p)).expo.jobs.isEmpty && tableParamOk p && !isHost (pkw p 6) &&
    addrOk (pkw p 6) 8 131072 pkgBytes && !keysEnding e && roundOk (getV e (pkValley p)) p

/-- The parameters of an export. -/
def exportParams (x : Valley) (p : BitVec 512) : ExpParams :=
  { seed := pkw p 2, step := x.step, round := pkw p 1, sparse := ((pkw p 3).extractLsb' 32 8).toInt
    stoch := bit (pkw p 3) 40 }

/-- The export table of a packet. -/
def exportTable (m : Mem) (e : Eng) (p : BitVec 512) : List ExpEnt := expTable m e (addrOf (pkw p 4)) (pkf p 5 0 21)

/-- An export that starts: its command is answered, then its first step. -/
def beginExport (m : Mem) (e f : Eng) (p : BitVec 512) (key : BitVec 256) (gs : List Nat) : Eng :=
  settleV m (growExport (startExport m f (pkValley p) (exportParams (getV e (pkValley p)) p) (BitVec.ofNat 32 (pkf p 3 0 32))
    (pkA p) (roundKey key (pkw p 1) (getV e (pkValley p)).tag (getV e (pkValley p)).self) (exportTable m e p)
    (addrOf (pkw p 6)) gs) (pkValley p)) (pkValley p)

/-- What OUTER_EXPORT does with the verdict on its table, its key and its working set. -/
def exportWith (m : Mem) (e : Eng) (c : Cmd) (p : BitVec 512) : Bool → Option (BitVec 256) → Option (List Nat × Eng) → Eng
  | true, some key, some (gs, e1) => beginExport m e (reply0 e1 c stAccepted) p key gs
  | _, _, _ => reply0 e c stOutOfRange

/-- The entry of OUTER_EXPORT. -/
def exportCmd (m : Mem) (e : Eng) (c : Cmd) (p : BitVec 512) : Eng :=
  if mayExport e p then
    exportWith m e c p (tableOk e (pkValley p) (exportTable m e p) true) (exchKey e (getV e (pkValley p)).fn)
      (reservePages e 3 256 (.work (pkValley p) 4))
  else reply0 e c stOutOfRange

theorem exec_outerExport (q : Fin 64) (s : State) :
    exec (.outerExport q) s = .next (runCmd q.val 0x50 s (exportCmd s.mem)) := by
  refine congrArg (fun f => Host.Outcome.next (runCmd q.val 0x50 s f)) (funext fun e => funext fun c => funext fun p => ?_)
  have hround : (if pkA p then decide (pkw p 1 ≠ (getV e (pkValley p)).expo.round)
      else decide ((pkw p 1).toNat ≤ (getV e (pkValley p)).expo.round.toNat) ||
        decide ((getV e (pkValley p)).expo.st = .incomplete)) = !roundOk (getV e (pkValley p)) p := by
    unfold roundOk
    cases pkA p
    · simp only [Bool.false_eq_true, if_false, Bool.not_and, ← decide_not, Nat.not_lt, ne_eq, Classical.not_not]
    · simp only [if_true, ← decide_not, ne_eq]
  have hmay : (!isJoined (getV e (pkValley p)) || decide ((getV e (pkValley p)).phase ≠ .opened) ||
      !(getV e (pkValley p)).expo.jobs.isEmpty || !tableParamOk p || isHost (pkw p 6) ||
      !addrOk (pkw p 6) 8 131072 pkgBytes || keysEnding e || !roundOk (getV e (pkValley p)) p) = !mayExport e p := by
    simp only [mayExport, Bool.not_and, Bool.not_not, ← decide_not, ne_eq]
  unfold exportCmd
  dsimp only
  rw [hround, hmay]
  cases mayExport e p <;> rfl

section
variable {m : Mem} {e : Eng} {c : Cmd} {p : BitVec 512}

theorem exportCmd_of_may {key : BitVec 256} (hm : mayExport e p = true)
    (ht : tableOk e (pkValley p) (exportTable m e p) true = true) (hk : exchKey e (getV e (pkValley p)).fn = some key)
    (hf : 256 ≤ freeCount e 3) : exportCmd m e c p =
      beginExport m e (reply0 (ownPages e ((freePages e 3).take 256) (.work (pkValley p) 4)) c stAccepted) p key
        ((freePages e 3).take 256) := by
  refine (if_pos hm).trans ?_
  rw [ht, hk, reservePages_of_room _ hf]
  rfl

theorem exportCmd_of_not (h : mayExport e p = false ∨ tableOk e (pkValley p) (exportTable m e p) true = false ∨
      exchKey e (getV e (pkValley p)).fn = none ∨ freeCount e 3 < 256) : exportCmd m e c p = reply0 e c stOutOfRange := by
  unfold exportCmd
  split
  · next hm =>
    obtain h | h | h | h := h
    · rw [h] at hm
      cases hm
    · rw [h]
      rfl
    · rw [h]
      cases tableOk e (pkValley p) (exportTable m e p) true <;> rfl
    · rw [reservePages_of_full _ h]
      cases tableOk e (pkValley p) (exportTable m e p) true
      · rfl
      · cases exchKey e (getV e (pkValley p)).fn <;> rfl
  · rfl

theorem mayExport_popHead (e : Eng) (q : Nat) (p : BitVec 512) : mayExport (popHead e q) p = mayExport e p := by
  rw [mayExport, mayExport, popHead_getV, keysEnding, keysEnding, popHead_side]

theorem exportTable_popHead (m : Mem) (e : Eng) (q : Nat) (p : BitVec 512) :
    exportTable m (popHead e q) p = exportTable m e p := expTable_popHead _ _ _ _ _

end

/-! ## OUTER_REANCHOR (R205) -/

/-- May an OUTER_REANCHOR be taken? -/
def mayReanchor (m : Mem) (e : Eng) (p : BitVec 512) : Bool :=
  isJoined (getV e (pkValley p)) && decide ((getV e (pkValley p)).phase = .opened) && !exportRunning (getV e (pkValley p)) &&
    decide ((getV e (pkValley p)).expo.st ≠ .incomplete) && tableParamOk p &&
    tableOk e (pkValley p) (exportTable m e p) false

/-- The entry of OUTER_REANCHOR. -/
def reanchorCmd (m : Mem) (e : Eng) (c : Cmd) (p : BitVec 512) : Eng :=
  if mayReanchor m e p then
    settleV m (startReanchor m (reply0 e c stAccepted) (pkValley p) (pkw p 1) (exportTable m e p)) (pkValley p)
  else reply0 e c stOutOfRange

theorem exec_outerReanchor (q : Fin 64) (s : State) :
    exec (.outerReanchor q) s = .next (runCmd q.val 0x51 s (reanchorCmd s.mem)) := by
  refine congrArg (fun f => Host.Outcome.next (runCmd q.val 0x51 s f)) (funext fun e => funext fun c => funext fun p => ?_)
  have hmay : (!isJoined (getV e (pkValley p)) || decide ((getV e (pkValley p)).phase ≠ .opened) ||
      exportRunning (getV e (pkValley p)) || decide ((getV e (pkValley p)).expo.st = .incomplete) || !tableParamOk p ||
      !tableOk e (pkValley p) (expTable s.mem e (addrOf (pkw p 4)) (pkf p 5 0 21)) false) = !mayReanchor s.mem e p := by
    simp only [mayReanchor, exportTable, Bool.not_and, Bool.not_not, ← decide_not, ne_eq, Classical.not_not]
  unfold reanchorCmd
  dsimp only
  rw [hmay]
  cases mayReanchor s.mem e p <;> rfl

theorem mayReanchor_popHead (m : Mem) (e : Eng) (q : Nat) (p : BitVec 512) :
    mayReanchor m (popHead e q) p = mayReanchor m e p := by
  rw [mayReanchor, mayReanchor, popHead_getV, exportTable_popHead, tableOk_popHead]

/-! ## The whole -/

section
variable {s : State} {q : Nat} {p : BitVec 512}

/-- The engine in which an export has its working set and its command is answered. -/
theorem Taken.exportAnswered (h : Taken s q 0x50 p) :
    Answered s.eng (reply0 (ownPages (popHead s.eng q) ((freePages s.eng 3).take 256) (.work (pkValley p) 4)) (cmdOf q p)
      stAccepted) (cmdOf q p) stAccepted 0 0 ∧
    (reply0 (ownPages (popHead s.eng q) ((freePages s.eng 3).take 256) (.work (pkValley p) 4)) (cmdOf q p)
      stAccepted).valleys = s.eng.valleys ∧
    (∀ g ∈ (freePages s.eng 3).take 256, Tab.find (reply0 (ownPages (popHead s.eng q) ((freePages s.eng 3).take 256)
      (.work (pkValley p) 4)) (cmdOf q p) stAccepted).basin.owners g = some (.work (pkValley p) 4)) := by
  generalize (freePages s.eng 3).take 256 = gs
  have hk : Steady (popHead s.eng q) (ownPages (popHead s.eng q) gs (.work (pkValley p) 4)) := .of_same rfl rfl rfl
  have hans : OnlyAnswers (ownPages (popHead s.eng q) gs (.work (pkValley p) 4)) _ :=
    onlyAnswers_reply _ (cmdOf q p) stAccepted 0 0
  refine ⟨h.answered_steady hk stAccepted 0 0, hans.valleys.trans (popHead_valleys _ _), fun g hg => ?_⟩
  rw [reply0, hans.basin]
  exact (find_ownPages _ _ _ _).trans (if_pos hg)

end

/-- Settles O56: an export by its table, its key and its working set, and a reanchor by its table. -/
theorem outerExchangeStarts : Obligations.OuterExchangeStarts := by
  intro q s p key v x ts fit
  refine ⟨fun h => ⟨fun hf ht hk hfree => ?_, fun hn => ⟨_, exec_outerExport q s, h.onlyReplies (exportCmd_of_not ?_)⟩⟩,
    fun h => ⟨fun hf => ?_, fun hf => ⟨_, exec_outerReanchor q s, h.onlyReplies (if_neg ?_)⟩⟩⟩
  · have hrun := runCmd_of_taken h (exportCmd s.mem)
    rw [exportCmd_of_may (key := key) ((mayExport_popHead _ _ _).trans hf)
      (by rw [exportTable_popHead, tableOk_popHead]; exact ht) (by rw [exchKey_popHead, popHead_getV]; exact hk)
      (by rw [freeCount_popHead]; exact hfree), beginExport, popHead_getV, exportTable_popHead, freePages_popHead] at hrun
    exact ⟨_, (exec_outerExport q s).trans (congrArg _ hrun), h.exportAnswered⟩
  · rw [mayExport_popHead, exportTable_popHead, tableOk_popHead, exchKey_popHead, popHead_getV, freeCount_popHead]
    exact hn
  · have hrun := runCmd_of_taken h (reanchorCmd s.mem)
    rw [reanchorCmd, if_pos ((mayReanchor_popHead _ _ _ _).trans hf), exportTable_popHead] at hrun
    exact ⟨_, (exec_outerReanchor q s).trans (congrArg _ hrun),
      (onlyAnswers_popHead _ _).trans (onlyAnswers_reply _ _ _ _ _), h.answered_steady (.refl _) stAccepted 0 0⟩
  · rw [mayReanchor_popHead]
    exact Bool.eq_false_iff.1 hf

end Sys2Proof.Machine

/-!
T1_RESTORE, T2_RESTORE and SEED_SERVE (R175 to R178, R181, R268, R276).
-/

namespace Sys2Proof.Machine

/-! ## What the fetch of a command leaves -/

section
variable (m : Mem) (e : Eng) (q v : Nat)

theorem jobKeyed_popHead : jobKeyed (popHead e q) v = jobKeyed e v := by
  rw [jobKeyed, jobKeyed, popHead_getV, jobKey_popHead, keysEnding, keysEnding, popHead_side]

theorem destOk_popHead (a n : Nat) : destOk m (popHead e q) a n = destOk m e a n := by
  rw [destOk, destOk, clearRange_popHead, readsZero_popHead]

theorem mapEntOk_popHead : mapEntOk m (popHead e q) v = mapEntOk m e v := by
  funext t
  simp only [mapEntOk, reachList_congr (popHead_regions e q), destOk_popHead]

theorem copyEntOk_popHead : copyEntOk m (popHead e q) = copyEntOk m e := by
  funext c
  simp only [copyEntOk, destOk_popHead]

theorem copiesAt_popHead (a n : Nat) : copiesAt m (popHead e q) a n = copiesAt m e a n := by
  simp only [copiesAt, loadWords, loadBytes, loadLine, popHead_acc]

theorem seedOk_popHead (a : W64) (n : Nat) : seedOk m (popHead e q) a n = seedOk m e a n := by
  rw [seedOk, seedOk, destOk_popHead]

end

/-! ## A restore goes to work -/

/-- The working set that a restore takes. -/
def restorePages (r : Restore) : Nat := if r.terrace = 1 then 1024 else 512

/-- A restore with its number and its working set. -/
def restoreOf (x : Valley) (r : Restore) (gs : List Nat) : Restore := { r with id := x.nextJob, pages := gs }

/-- A Valley that has one restore more. -/
def restoreBegun (r : Restore) (x : Valley) : Valley := { x with restores := x.restores ++ [r], nextJob := x.nextJob + 1 }

/-- The engine in which a restore has its working set and is answered. -/
def restoreTaken (e : Eng) (v : Nat) (c : Cmd) (r : Restore) (gs : List Nat) : Eng :=
  updV (reply0 (ownPages e gs (.work v 3)) c stAccepted) v (restoreBegun (restoreOf (getV e v) r gs))

section
variable {m : Mem} {e : Eng} {v : Nat} {c : Cmd} {r : Restore}

theorem startRestore_of_room (h : restorePages r ≤ freeCount e 3) : startRestore m e v c r =
    if r.terrace = 3 then
      readSeeds (restoreTaken e v c r ((freePages e 3).take (restorePages r))) v
        (restoreOf (getV e v) r ((freePages e 3).take (restorePages r))) 0
    else runRestore m (restoreTaken e v c r ((freePages e 3).take (restorePages r))) v (getV e v).restores.length := by
  unfold startRestore
  dsimp only
  rw [show reservePages e 3 (if r.terrace = 1 then 1024 else 512) (.work v 3) = _ from reservePages_of_room _ h]
  rfl

theorem startRestore_of_full (h : freeCount e 3 < restorePages r) : startRestore m e v c r = reply0 e c stOutOfRange := by
  unfold startRestore
  dsimp only
  rw [show reservePages e 3 (if r.terrace = 1 then 1024 else 512) (.work v 3) = _ from reservePages_of_full _ h]

end

section
variable {s : State} {q op : Nat} {p : BitVec 512}

/-- A restore that is taken: its answer, its entry and its working set. -/
theorem Taken.restoreAnswered (h : Taken s q op p) (v : Nat) (r : Restore) (gs : List Nat) :
    Answered s.eng (restoreTaken (popHead s.eng q) v (cmdOf q p) r gs) (cmdOf q p) stAccepted 0 0 ∧
    (getV (restoreTaken (popHead s.eng q) v (cmdOf q p) r gs) v).restores =
      (getV s.eng v).restores ++ [restoreOf (getV s.eng v) r gs] ∧
    (∀ g ∈ gs, Tab.find (restoreTaken (popHead s.eng q) v (cmdOf q p) r gs).basin.owners g = some (.work v 3)) := by
  have hk : Steady (popHead s.eng q) (ownPages (popHead s.eng q) gs (.work v 3)) := .of_same rfl rfl rfl
  have hans : OnlyAnswers (ownPages (popHead s.eng q) gs (.work v 3)) _ := onlyAnswers_reply _ (cmdOf q p) stAccepted 0 0
  have ha : Answered s.eng (reply0 (ownPages (popHead s.eng q) gs (.work v 3)) (cmdOf q p) stAccepted) (cmdOf q p)
      stAccepted 0 0 := h.answered_steady hk stAccepted 0 0
  have hget : getV (reply0 (ownPages (popHead s.eng q) gs (.work v 3)) (cmdOf q p) stAccepted) v = getV s.eng v :=
    (hans.getV v).trans (popHead_getV _ _ _)
  have hown (g : Nat) (hg : g ∈ gs) : Tab.find
      (reply0 (ownPages (popHead s.eng q) gs (.work v 3)) (cmdOf q p) stAccepted).basin.owners g = some (.work v 3) := by
    rw [reply0, hans.basin]
    exact (find_ownPages _ _ _ _).trans (if_pos hg)
  rw [restoreTaken, popHead_getV]
  generalize reply0 (ownPages (popHead s.eng q) gs (.work v 3)) (cmdOf q p) stAccepted = f at *
  refine ⟨ha.after (steady_updV _ _ _), ?_, hown⟩
  rw [getV_updV_same, hget]
  rfl

end

/-! ## T1_RESTORE (R175 to R177) -/

/-- The candidates of a packet. -/
def restoreCands (m : Mem) (e : Eng) (p : BitVec 512) (list : List W64) : List (W64 × W32) :=
  candsOf (paramWords m e (pkw p 2) (2 * pkf p 1 8 4) list) (pkf p 1 8 4)

/-- The destination map of a packet. -/
def restoreMap (m : Mem) (e : Eng) (p : BitVec 512) (list : List W64) : List (MapEnt × W64) :=
  mapOf (paramWords m e (pkw p 3) (4 * pkf p 4 0 7) list) (pkf p 4 0 7)

/-- May a T1_RESTORE be taken? -/
def mayRestore1 (m : Mem) (e : Eng) (p : BitVec 512) (list : List W64) : Bool :=
  restoreParamsOk p && isJoined (getV e (pkValley p)) && hasArea (getV e (pkValley p)) && jobKeyed e (pkValley p) &&
    decide (1 ≤ pkf p 4 0 7 ∧ pkf p 4 0 7 ≤ 64) && addrOk (pkw p 3) 32 (32 * pkf p 4 0 7) pkgBytes &&
    (restoreMap m e p list).all (mapEntOk m e (pkValley p))

/-- The restore of a T1_RESTORE. -/
def restore1 (m : Mem) (e : Eng) (p : BitVec 512) (l1 l2 : List W64) : Restore :=
  { id := 0, terrace := 1, self := (getV e (pkValley p)).self, alpha := (getV e (pkValley p)).alpha
    probe := decide (pkf p 1 0 4 = 1), cands := restoreCands m e p l1, map := (restoreMap m e p l2).map (·.1)
    stage := .table }

/-- The entry of T1_RESTORE. -/
def restore1Cmd (m : Mem) (l1 l2 : List W64) (e : Eng) (c : Cmd) (p : BitVec 512) : Eng :=
  if storageDenied e (pkValley p) then denyStorage e c
  else if mayRestore1 m e p l2 then startRestore m e (pkValley p) c (restore1 m e p l1 l2) else reply0 e c stOutOfRange

theorem exec_t1Restore (q : Fin 64) (l1 l2 : List W64) (s : State) :
    exec (.t1Restore q l1 l2) s = .next (runCmd q.val 0x41 s (restore1Cmd s.mem l1 l2)) := by
  refine congrArg (fun f => Host.Outcome.next (runCmd q.val 0x41 s f)) (funext fun e => funext fun c => funext fun p => ?_)
  have hzero (n : Nat) : decide (n = 0 ∨ 64 < n) = !decide (1 ≤ n ∧ n ≤ 64) := by
    rw [← decide_not, decide_eq_decide]
    omega
  have hmay : (!restoreParamsOk p || !isJoined (getV e (pkValley p)) || !hasArea (getV e (pkValley p)) ||
      !jobKeyed e (pkValley p) || decide (pkf p 4 0 7 = 0 ∨ 64 < pkf p 4 0 7) ||
      !addrOk (pkw p 3) 32 (32 * pkf p 4 0 7) pkgBytes ||
      !(restoreMap s.mem e p l2).all (mapEntOk s.mem e (pkValley p))) = !mayRestore1 s.mem e p l2 := by
    simp only [mayRestore1, hzero, Bool.not_and]
  unfold restore1Cmd
  dsimp only
  split
  · rfl
  · refine Eq.trans (ite_congr (congrArg (· = true) hmay) (fun _ => rfl) fun _ => rfl) ?_
    cases mayRestore1 s.mem e p l2 <;> rfl

section
variable (m : Mem) (e : Eng) (q : Nat) (p : BitVec 512) (l1 l2 : List W64)

theorem restoreCands_popHead : restoreCands m (popHead e q) p l1 = restoreCands m e p l1 := by
  rw [restoreCands, restoreCands, paramWords_congr (popHead_acc e q)]

theorem restoreMap_popHead : restoreMap m (popHead e q) p l2 = restoreMap m e p l2 := by
  rw [restoreMap, restoreMap, paramWords_congr (popHead_acc e q)]

theorem mayRestore1_popHead : mayRestore1 m (popHead e q) p l2 = mayRestore1 m e p l2 := by
  rw [mayRestore1, mayRestore1, popHead_getV, jobKeyed_popHead, restoreMap_popHead, mapEntOk_popHead]

theorem restore1_popHead : restore1 m (popHead e q) p l1 l2 = restore1 m e p l1 l2 := by
  rw [restore1, restore1, popHead_getV, restoreCands_popHead, restoreMap_popHead]

end

/-! ## T2_RESTORE (R178, R181) -/

/-- Are the parameters in order that every T2_RESTORE has? -/
def restore2Base (m : Mem) (e : Eng) (p : BitVec 512) : Bool :=
  restoreParamsOk p && isDefined (getV e (pkValley p)) && decide ((getV e (pkValley p)).slot ≠ .standby) &&
    decide (1 ≤ pkf p 4 0 25 ∧ pkf p 4 0 25 ≤ 16777216) && !isHost (pkw p 3) &&
    addrOk (pkw p 3) 64 (64 * pkf p 4 0 25) pkgBytes &&
    (copiesAt m e (addrOf (pkw p 3)) (pkf p 4 0 25)).all (copyEntOk m e)

/-- Are the parameters of a peer load in order? -/
def peerOk (p : BitVec 512) : Bool :=
  decide (pkf p 1 8 4 = 1) && decide (pkf p 7 13 3 = 0) && !isHost (pkw p 6) && addrOk (pkw p 6) 64 0 pkgBytes

/-- Are the parameters of a load from the area in order? -/
def areaLoadOk (m : Mem) (e : Eng) (p : BitVec 512) : Bool :=
  jobKeyed e (pkValley p) && (decide (pkw p 6 = 0) || seedOk m e (pkw p 6) (pkf p 4 0 25))

/-- May a T2_RESTORE be taken? -/
def mayRestore2 (m : Mem) (e : Eng) (p : BitVec 512) : Bool :=
  restore2Base m e p && if pkA p then peerOk p else areaLoadOk m e p

/-- The restore of a T2_RESTORE. -/
def restore2 (m : Mem) (e : Eng) (p : BitVec 512) (l1 : List W64) : Restore :=
  { id := 0, terrace := if pkA p then 3 else 2, self := (getV e (pkValley p)).self, alpha := pkw p 5
    probe := decide (pkf p 1 0 4 = 1), cands := restoreCands m e p l1
    copies := copiesAt m e (addrOf (pkw p 3)) (pkf p 4 0 25), seedAt := addrOf (pkw p 6)
    node := (pkw p 7).extractLsb' 0 16, stage := if pkA p then .table else .headers }

/-- The entry of T2_RESTORE. -/
def restore2Cmd (m : Mem) (l1 : List W64) (e : Eng) (c : Cmd) (p : BitVec 512) : Eng :=
  if mayRestore2 m e p then startRestore m e (pkValley p) c (restore2 m e p l1) else reply0 e c stOutOfRange

/-- Three refusals in a row are one. -/
theorem refusals_joined {α : Type} (base peer peerFit ownFit : Bool) (no yes : α) :
    (if !base then no else if peer && !peerFit then no else if !peer && !ownFit then no else yes) =
      if base && (if peer then peerFit else ownFit) then yes else no := by
  cases base
  · rfl
  · cases peer
    · cases ownFit <;> rfl
    · cases peerFit <;> rfl

theorem exec_t2Restore (q : Fin 64) (l1 l2 : List W64) (s : State) :
    exec (.t2Restore q l1 l2) s = .next (runCmd q.val 0x45 s (restore2Cmd s.mem l1)) := by
  refine congrArg (fun f => Host.Outcome.next (runCmd q.val 0x45 s f)) (funext fun e => funext fun c => funext fun p => ?_)
  have hzero (n : Nat) : decide (n = 0 ∨ 16777216 < n) = !decide (1 ≤ n ∧ n ≤ 16777216) := by
    rw [← decide_not, decide_eq_decide]
    omega
  have hbase : (!restoreParamsOk p || !isDefined (getV e (pkValley p)) || decide ((getV e (pkValley p)).slot = .standby) ||
      decide (pkf p 4 0 25 = 0 ∨ 16777216 < pkf p 4 0 25) || isHost (pkw p 3) ||
      !addrOk (pkw p 3) 64 (64 * pkf p 4 0 25) pkgBytes ||
      !(copiesAt s.mem e (addrOf (pkw p 3)) (pkf p 4 0 25)).all (copyEntOk s.mem e)) = !restore2Base s.mem e p := by
    simp only [restore2Base, hzero, Bool.not_and, Bool.not_not, ← decide_not, ne_eq, Classical.not_not]
  have hpeer : (decide (pkf p 1 8 4 ≠ 1) || decide (pkf p 7 13 3 ≠ 0) || isHost (pkw p 6) ||
      !addrOk (pkw p 6) 64 0 pkgBytes) = !peerOk p := by
    simp only [peerOk, Bool.not_and, Bool.not_not, ← decide_not, ne_eq]
  have hown : (!jobKeyed e (pkValley p) || (decide (pkw p 6 ≠ 0) && !seedOk s.mem e (pkw p 6) (pkf p 4 0 25))) =
      !areaLoadOk s.mem e p := by
    simp only [areaLoadOk, Bool.not_and, Bool.not_or, ← decide_not, ne_eq]
  unfold restore2Cmd mayRestore2
  dsimp only
  rw [hbase, hpeer, hown]
  exact refusals_joined _ _ _ _ _ _

section
variable (m : Mem) (e : Eng) (q : Nat) (p : BitVec 512) (l1 : List W64)

theorem mayRestore2_popHead : mayRestore2 m (popHead e q) p = mayRestore2 m e p := by
  rw [mayRestore2, mayRestore2, restore2Base, restore2Base, areaLoadOk, areaLoadOk, popHead_getV, jobKeyed_popHead,
    copiesAt_popHead, copyEntOk_popHead, seedOk_popHead]

theorem restore2_popHead : restore2 m (popHead e q) p l1 = restore2 m e p l1 := by
  rw [restore2, restore2, popHead_getV, restoreCands_popHead, copiesAt_popHead]

end

/-! ## SEED_SERVE (R181) -/

/-- A seed table with another ready flag and other pages. -/
def seedSet (base : Nat) (on : Bool) (gs : List Nat) (y : SeedTab) : SeedTab :=
  if y.base = base then { y with ready := on, pages := gs } else y

theorem steady_setBytes (m : Mem) (e : Eng) (a : Nat) (bs : List Byte) : Steady e (setBytes m e a bs) :=
  .foldl (fun e (x : Nat × BitVec 256 × Line) =>
    steady_accumDiff e x.1 ((loadLine m e x.1 ^^^ x.2.2) &&& beMask x.2.1) .plain) _ _

/-- Setting the ready flag of a table changes the tables, and of the rest only what accumulates change. -/
theorem setReady_eq (m : Mem) (e : Eng) (t : SeedTab) (on : Bool) (gs : List Nat) :
    ∃ io, setReady m e t on gs = { e with io := io, seeds := e.seeds.map (seedSet t.base on gs) } := by
  have hset := setBytes_eq m e t.base [if on then 1 else 0]
  unfold setReady
  dsimp only
  rw [hset]
  exact ⟨_, rfl⟩

theorem steady_setReady (m : Mem) (e : Eng) (t : SeedTab) (on : Bool) (gs : List Nat) : Steady e (setReady m e t on gs) := by
  obtain ⟨h1, h2, h3, h4, h5, h6⟩ := steady_setBytes m e t.base [if on then 1 else 0]
  exact ⟨h1, h2, h3, h4, h5, h6⟩

/-- What SEED_SERVE does for a table with what its working set becomes. -/
def servePages (m : Mem) (e : Eng) (c : Cmd) (t : SeedTab) : Option (List Nat × Eng) → Eng
  | none => reply0 e c stOutOfRange
  | some (gs, e1) => setReady m (reply0 e1 c stAccepted) t true gs

/-- What SEED_SERVE does with the table that it names. -/
def serveWith (m : Mem) (e : Eng) (c : Cmd) (p : BitVec 512) : Option SeedTab → Eng
  | none => reply0 e c stOutOfRange
  | some t =>
    if (getV e (pkValley p)).slot = .standby then reply0 e c stOutOfRange
    else if pkA p then reply0 (stopSeed m e t) c stOK
    else if t.ready then reply0 e c stAccepted
    else servePages m e c t (reservePages e 3 256 (.work (pkValley p) 5))

/-- The seed table that a packet names. -/
def seedNamed (e : Eng) (p : BitVec 512) : Option SeedTab :=
  e.seeds.find? fun t => decide (BitVec.ofNat 64 t.base = pkw p 1 ∧ t.v = pkValley p)

/-- The entry of SEED_SERVE. -/
def seedCmd (m : Mem) (e : Eng) (c : Cmd) (p : BitVec 512) : Eng := serveWith m e c p (seedNamed e p)

theorem exec_seedServe (q : Fin 64) (s : State) : exec (.seedServe q) s = .next (runCmd q.val 0x46 s (seedCmd s.mem)) := by
  refine congrArg (fun f => Host.Outcome.next (runCmd q.val 0x46 s f)) (funext fun e => funext fun c => funext fun p => ?_)
  unfold seedCmd seedNamed
  dsimp only
  generalize e.seeds.find? (fun t => decide (BitVec.ofNat 64 t.base = pkw p 1 ∧ t.v = pkValley p)) = o
  cases o with
  | none => rfl
  | some t =>
    dsimp only [serveWith]
    generalize reservePages e 3 256 (.work (pkValley p) 5) = r
    cases r <;> rfl

theorem seedNamed_popHead (e : Eng) (q : Nat) (p : BitVec 512) : seedNamed (popHead e q) p = seedNamed e p := by
  rw [seedNamed, seedNamed, popHead_seeds]

section
variable {s : State} {q : Nat} {p : BitVec 512} {t0 : SeedTab}

theorem seedCmd_popHead (m : Mem) (q : Nat) (c : Cmd) (h : seedNamed s.eng p = some t0) (hs : (getV s.eng (pkValley p)).slot ≠ .standby) :
    seedCmd m (popHead s.eng q) c p =
      if pkA p then reply0 (stopSeed m (popHead s.eng q) t0) c stOK
      else if t0.ready then reply0 (popHead s.eng q) c stAccepted
      else servePages m (popHead s.eng q) c t0 (reservePages (popHead s.eng q) 3 256 (.work (pkValley p) 5)) := by
  rw [seedCmd, seedNamed_popHead, h]
  exact if_neg (by rw [popHead_getV]; exact hs)

/-- A service that stops. -/
theorem Taken.stopsSeed (h : Taken s q 0x46 p) (hn : seedNamed s.eng p = some t0)
    (hs : (getV s.eng (pkValley p)).slot ≠ .standby) (ha : pkA p = true) :
    (runCmd q 0x46 s (seedCmd s.mem)).mem = s.mem ∧
    Answered s.eng (runCmd q 0x46 s (seedCmd s.mem)).eng (cmdOf q p) stOK 0 0 ∧
    (runCmd q 0x46 s (seedCmd s.mem)).eng.seeds = s.eng.seeds.map (seedSet t0.base false []) ∧
    (∀ g ∈ t0.pages, Tab.find (runCmd q 0x46 s (seedCmd s.mem)).eng.basin.owners g = none) ∧
    (runCmd q 0x46 s (seedCmd s.mem)).eng.valleys = s.eng.valleys := by
  have hk : Steady (popHead s.eng q) (stopSeed s.mem (popHead s.eng q) t0) :=
    (steady_freeBasin _ _).trans (steady_setReady _ _ _ _ _)
  obtain ⟨hm, -, ho, hans⟩ := h.replies hk ((seedCmd_popHead s.mem q (cmdOf q p) hn hs).trans (if_pos ha))
  obtain ⟨io, hio⟩ := setReady_eq s.mem (freeBasin (popHead s.eng q) t0.pages) t0 false []
  have hstop : stopSeed s.mem (popHead s.eng q) t0 = _ := hio
  rw [hstop] at ho
  refine ⟨hm, hans, ho.seeds.trans ?_, fun g hg => ?_, ho.valleys.trans (popHead_valleys _ _)⟩
  · show (popHead s.eng q).seeds.map _ = _
    rw [popHead_seeds]
  · rw [ho.basin]
    exact (find_freeBasin_owners _ _ _).trans (if_pos hg)

/-- A table that is served from now on. -/
theorem Taken.servesSeed (h : Taken s q 0x46 p) (hn : seedNamed s.eng p = some t0)
    (hs : (getV s.eng (pkValley p)).slot ≠ .standby) (ha : pkA p = false) (hr : t0.ready = false)
    (hf : 256 ≤ freeCount s.eng 3) :
    (runCmd q 0x46 s (seedCmd s.mem)).mem = s.mem ∧
    Answered s.eng (runCmd q 0x46 s (seedCmd s.mem)).eng (cmdOf q p) stAccepted 0 0 ∧
    (runCmd q 0x46 s (seedCmd s.mem)).eng.seeds =
      s.eng.seeds.map (seedSet t0.base true ((freePages s.eng 3).take 256)) ∧
    (runCmd q 0x46 s (seedCmd s.mem)).eng.valleys = s.eng.valleys := by
  have hcmd := seedCmd_popHead s.mem q (cmdOf q p) hn hs
  rw [if_neg (Bool.eq_false_iff.1 ha), if_neg (Bool.eq_false_iff.1 hr),
    reservePages_of_room _ (by rw [freeCount_popHead]; exact hf), freePages_popHead] at hcmd
  obtain ⟨hm, -, ho⟩ := h.runs (seedCmd s.mem)
  generalize (freePages s.eng 3).take 256 = gs at *
  have hk : Steady (popHead s.eng q) (ownPages (popHead s.eng q) gs (.work (pkValley p) 5)) := .of_same rfl rfl rfl
  have hreply : OnlyAnswers (ownPages (popHead s.eng q) gs (.work (pkValley p) 5)) _ :=
    onlyAnswers_reply _ (cmdOf q p) stAccepted 0 0
  have hans : Answered s.eng (reply0 (ownPages (popHead s.eng q) gs (.work (pkValley p) 5)) (cmdOf q p) stAccepted)
      (cmdOf q p) stAccepted 0 0 := h.answered_steady hk stAccepted 0 0
  have hseeds : (reply0 (ownPages (popHead s.eng q) gs (.work (pkValley p) 5)) (cmdOf q p) stAccepted).seeds = s.eng.seeds :=
    hreply.seeds.trans (popHead_seeds _ _)
  have hvalleys : (reply0 (ownPages (popHead s.eng q) gs (.work (pkValley p) 5)) (cmdOf q p) stAccepted).valleys =
      s.eng.valleys := hreply.valleys.trans (popHead_valleys _ _)
  rw [hcmd, servePages] at ho
  generalize reply0 (ownPages (popHead s.eng q) gs (.work (pkValley p) 5)) (cmdOf q p) stAccepted = f at *
  have hset := (hans.after (steady_setReady s.mem f t0 true gs)).later ho
  obtain ⟨io, hio⟩ := setReady_eq s.mem f t0 true gs
  rw [hio] at ho
  exact ⟨hm, hset, ho.seeds.trans (congrArg (List.map (seedSet t0.base true gs)) hseeds), ho.valleys.trans hvalleys⟩

end

/-- Settles O55: the restores by what admits them, and a seed table by whether it is served and stops. -/
theorem restoresAndSeeds : Obligations.RestoresAndSeeds := by
  intro q l1 l2 s p
  refine ⟨fun h => ⟨fun hd hf hfree => ?_, fun hd hn => ⟨_, exec_t1Restore q l1 l2 s, h.onlyReplies ?_⟩,
      fun hd => ⟨_, exec_t1Restore q l1 l2 s, h.denied (if_pos ((storageDenied_popHead _ _ _).trans hd))⟩⟩,
    fun h => ⟨fun hf hfree => ?_, fun hn => ⟨_, exec_t2Restore q l1 l2 s, h.onlyReplies ?_⟩⟩,
    fun h => ⟨fun t0 hn => ⟨fun hs ha => ⟨_, exec_seedServe q s, h.stopsSeed hn hs ha⟩,
        fun hs ha hr hfree => ⟨_, exec_seedServe q s, h.servesSeed hn hs ha hr hfree⟩,
        fun hs ha hr => ⟨_, exec_seedServe q s, h.onlyReplies ?_⟩,
        fun hn' => ⟨_, exec_seedServe q s, h.onlyReplies ?_⟩⟩,
      fun hn => ⟨_, exec_seedServe q s, h.onlyReplies ?_⟩⟩⟩
  · have hm : mayRestore1 s.mem s.eng p l2 = true := hf
    have hroom : restorePages (restore1 s.mem s.eng p l1 l2) ≤ freeCount (popHead s.eng q.val) 3 := by
      rw [freeCount_popHead]
      exact hfree
    have hrun := runCmd_of_taken h (restore1Cmd s.mem l1 l2)
    rw [restore1Cmd, storageDenied_popHead, if_neg (Bool.eq_false_iff.1 hd), mayRestore1_popHead, if_pos hm,
      restore1_popHead, startRestore_of_room hroom, popHead_getV] at hrun
    obtain ⟨hans, hget, hown⟩ := h.restoreAnswered (pkValley p) (restore1 s.mem s.eng p l1 l2)
      ((freePages (popHead s.eng q.val) 3).take (restorePages (restore1 s.mem s.eng p l1 l2)))
    exact ⟨_, _, (exec_t1Restore q l1 l2 s).trans (congrArg _ hrun), hans, hget, rfl, rfl, rfl, rfl, rfl, hown⟩
  · rw [restore1Cmd, storageDenied_popHead, if_neg (Bool.eq_false_iff.1 hd), mayRestore1_popHead]
    split
    · next hm =>
      obtain hn | hn := hn
      · have hm' : mayRestore1 s.mem s.eng p l2 = false := hn
        rw [hm'] at hm
        cases hm
      · exact startRestore_of_full (by rw [freeCount_popHead]; exact hn)
    · rfl
  · have hm : mayRestore2 s.mem s.eng p = true := hf
    have hpages : restorePages (restore2 s.mem s.eng p l1) = 512 := by
      unfold restorePages restore2
      dsimp only
      cases pkA p <;> rfl
    have hroom : restorePages (restore2 s.mem s.eng p l1) ≤ freeCount (popHead s.eng q.val) 3 := by
      rw [freeCount_popHead, hpages]
      exact hfree
    have hrun := runCmd_of_taken h (restore2Cmd s.mem l1)
    rw [restore2Cmd, mayRestore2_popHead, if_pos hm, restore2_popHead, startRestore_of_room hroom, popHead_getV] at hrun
    obtain ⟨hans, hget, hown⟩ := h.restoreAnswered (pkValley p) (restore2 s.mem s.eng p l1)
      ((freePages (popHead s.eng q.val) 3).take (restorePages (restore2 s.mem s.eng p l1)))
    refine ⟨_, _, (exec_t2Restore q l1 l2 s).trans ((congrArg _ hrun).trans ?_), hans, hget, rfl, rfl, rfl, rfl, rfl, rfl, hown⟩
    have hpeer : ((restore2 s.mem s.eng p l1).terrace = 3) ↔ pkA p = true := by
      unfold restore2
      dsimp only
      cases pkA p <;> decide
    rw [ite_congr (propext hpeer) (fun _ => rfl) fun _ => rfl]
  · rw [restore2Cmd, mayRestore2_popHead]
    split
    · next hm =>
      obtain hn | hn := hn
      · have hm' : mayRestore2 s.mem s.eng p = false := hn
        rw [hm'] at hm
        cases hm
      · refine startRestore_of_full ?_
        rw [freeCount_popHead, restorePages, restore2]
        cases pkA p <;> exact hn
    · rfl
  · exact (seedCmd_popHead s.mem q.val _ hn hs).trans ((if_neg (Bool.eq_false_iff.1 ha)).trans (if_pos hr))
  · by_cases hs : (getV s.eng (pkValley p)).slot = .standby
    · rw [seedCmd, seedNamed_popHead, show seedNamed s.eng p = some t0 from hn]
      exact if_pos (by rw [popHead_getV]; exact hs)
    · obtain ⟨ha, hr, hf⟩ := hn'.resolve_left hs
      rw [seedCmd_popHead s.mem q.val _ hn hs, if_neg (Bool.eq_false_iff.1 ha), if_neg (Bool.eq_false_iff.1 hr),
        reservePages_of_full _ (by rw [freeCount_popHead]; exact hf)]
      rfl
  · rw [seedCmd, seedNamed_popHead, show seedNamed s.eng p = none from hn]
    rfl

end Sys2Proof.Machine

/-!
T1_TRIGGER, T2_TRIGGER and DRAIN_START (R152, R155 to R157, R163, R166).
-/

namespace Sys2Proof.Machine

/-! ## The triggers (R155, R156) -/

/-- A Valley whose Terrace 1 trigger has fired. -/
def t1Pending (x : Valley) : Valley := { x with t1o := { x.t1o with pending := true } }

/-- A Valley whose Terrace 2 trigger has fired. -/
def t2Pending (x : Valley) : Valley := { x with t2o := { x.t2o with pending := true } }

section
variable {s : State} (v : Fin 16)

theorem exec_t1Trigger (hc : ctlOn s.eng = true) :
    exec (.t1Trigger v) s = .next { s with eng := t1Trigger s.mem s.eng v.val } := by
  show execT1Trigger v s = _
  rw [execT1Trigger, if_pos hc]

theorem exec_t2Trigger (hc : ctlOn s.eng = true) :
    exec (.t2Trigger v) s = .next { s with eng := t2Trigger s.eng v.val } := by
  show execT2Trigger v s = _
  rw [execT2Trigger, if_pos hc]

theorem exec_drainStart (hc : ctlOn s.eng = true) :
    exec (.drainStart v) s = .next { s with eng := tryStartT2 s.mem (tryStartT1 s.mem s.eng v.val) v.val } := by
  show execDrainStart v s = _
  rw [execDrainStart, if_pos hc]

end

section
variable {m : Mem} {e : Eng} {v : Nat}

theorem t1Trigger_of_fires (hj : isJoined (getV e v) = true) (hf : t1Fires e (getV e v) = true)
    (hp : (getV e v).t1o.pending = false) (hh : (getV e v).t1o.heldOne = false) :
    t1Trigger m e v = tryStartT1 m (holdIfBusy (updV e v t1Pending) v) v :=
  if_neg (by rw [hj, hf, hp, hh]; exact Bool.false_ne_true)

theorem t1Trigger_of_quiet (h : isJoined (getV e v) = false ∨ t1Fires e (getV e v) = false ∨ (getV e v).t1o.pending = true ∨
    (getV e v).t1o.heldOne = true) : t1Trigger m e v = e := by
  refine if_pos ?_
  simp only [Bool.or_eq_true, Bool.not_eq_true', or_assoc]
  exact h

theorem t2Trigger_of_fires (hj : isJoined (getV e v) = true) (hn : Valley.t2EveryWs (getV e v) ≠ 0)
    (hc : Valley.t2EveryWs (getV e v) ≤ (getV e v).t2o.wsCount) : t2Trigger e v = updV e v t2Pending :=
  if_pos (by rw [hj, decide_eq_true ⟨hn, hc⟩]; rfl)

theorem t2Trigger_of_quiet (h : isJoined (getV e v) = false ∨ Valley.t2EveryWs (getV e v) = 0 ∨
    (getV e v).t2o.wsCount < Valley.t2EveryWs (getV e v)) : t2Trigger e v = e := by
  refine if_neg ?_
  rw [Bool.and_eq_true, decide_eq_true_eq]
  rintro ⟨hj, hn, hc⟩
  obtain h | h | h := h
  · rw [h] at hj
    cases hj
  · exact hn h
  · exact Nat.not_lt.2 hc h

/-! ## A drain starts (R152, R162 to R166) -/

theorem readTable_of_some (h : (getV e v).t1o.table.isSome = true) : readTable e v = e :=
  if_pos (by rw [h]; rfl)

theorem tryStartT2_of_none (h : (getV e v).t2o.next = none) : tryStartT2 m e v = e := by simp only [tryStartT2, h]

/-- Is a start of Terrace 1 asked for or due? -/
def t1Due (x : Valley) : Bool := x.t1o.asked.isSome || (x.t1o.pending && x.t1o.standing)

theorem tryStartT1_of_none (h : t1Due (getV e v) = false) : tryStartT1 m e v = e := by
  have hor := h
  rw [t1Due, Bool.or_eq_false_iff] at hor
  obtain ⟨h1, h2⟩ := hor
  refine if_pos ?_
  rw [h2, Option.isNone_iff_eq_none.2 (by simpa using h1), Bool.not_false, Bool.and_true, Bool.or_true]
  rfl

/-- What starts a drain whose table is read: nothing, while the survey goes on. -/
theorem tryStartT1_of_survey {full : Bool} (ha : (getV e v).t1o.asked = some full)
    (ht : (getV e v).t1o.table.isSome = true) (hs : (getV e v).t1o.survey ≠ none) : tryStartT1 m e v = e := by
  have hsurvey : (getV e v).t1o.survey.isSome = true := Option.isSome_iff_ne_none.2 hs
  unfold tryStartT1
  dsimp only
  rw [readTable_of_some ht, hsurvey, ha]
  split
  · rfl
  · split
    · rfl
    · split
      · exact if_pos (.inl rfl)
      · rfl

/-- Does nothing hold a start (R152, R153)? -/
def t1Free (e : Eng) (v : Nat) : Bool :=
  isJoined (getV e v) && hasArea (getV e v) && nsAllowed e v && drainKeyed e v && decide ((getV e v).phase = .idle) &&
    !anyUnbuilt e v && !correcting (getV e v)

theorem tryStartT1_of_free {full : Bool} {ws : WsRecord} {job : BitVec 256} (ha : (getV e v).t1o.asked = some full)
    (h1 : (getV e v).t1 = none) (hw : (getV e v).ws = some ws) (ht : (getV e v).t1o.table.isSome = true)
    (hk : jobKey e (getV e v).fn = some job) (hs : (getV e v).t1o.survey = none) (hf : t1Free e v = true) :
    tryStartT1 m e v = startT1 m e v ws job := by
  simp only [t1Free, Bool.and_eq_true, decide_eq_true_eq, Bool.not_eq_true'] at hf
  obtain ⟨⟨⟨⟨⟨⟨hj, harea⟩, hns⟩, hkey⟩, hph⟩, hu⟩, hcor⟩ := hf
  obtain ⟨table, htable⟩ := Option.isSome_iff_exists.1 ht
  unfold tryStartT1
  dsimp only
  rw [readTable_of_some ht, ha, h1, hj, harea, hns, hkey, hw, htable, hk, hs, hph, hu, hcor]
  exact (if_neg Bool.false_ne_true).trans ((if_neg Bool.false_ne_true).trans (if_neg (by simp)))

end

/-- What a bad drain left in the work map is merged, if it left something (R162). -/
def merged (m : Mem) (e : Eng) (v : Nat) (x : Valley) : Eng :=
  if decide (Valley.drainMap x ≠ 0) && x.t1o.workLeft then mergeWork m e v else e

theorem merged_eq (m : Mem) (e : Eng) (v : Nat) (x : Valley) : merged m e v x = { e with io := (merged m e v x).io } := by
  unfold merged
  split
  · unfold mergeWork
    dsimp only
    refine foldl_io (fun e l => ?_) _ _
    rw [accumDiff_eq, accumDiff_eq]
  · rfl

/-- A Valley whose drain starts: the order is done, counter and timer restart, and the maps swap (R155, R162). -/
def t1Begun (mapped : Bool) (ts : W64) (y : Valley) : Valley :=
  { y with
    t1o := { y.t1o with
      asked := none, pending := false, wsCount := 0, timerTs := ts, ranSince := true, workLeft := mapped
      curB := if mapped then !y.t1o.curB else y.t1o.curB } }

/-- The engine in which a drain has its working set and the maps are swapped. -/
def drainBegun (m : Mem) (e : Eng) (v : Nat) (gs : List Nat) : Eng :=
  updV (merged m (ownPages e gs (.work v 1)) v (getV e v)) v (t1Begun (decide (Valley.drainMap (getV e v) ≠ 0)) e.side.ts)

/-- Is a drain full that starts now? -/
def startsFull (e : Eng) (v : Nat) : Bool :=
  nextFull e v ((getV e v).t2o.pending && (getV e v).t2o.standing.isSome)

/-- The number of the next drain (R164). -/
def nextNumber (x : Valley) : Nat := ((x.t1o.table.getD []).map (·.number)).foldl max 0 + 1

/-- The drain that starts, with the working set `gs`, seen from the engine `f` in which the maps are swapped. -/
def startedRun (m : Mem) (e f : Eng) (v : Nat) (ws : WsRecord) (job : BitVec 256) (gs : List Nat) : T1Run :=
  { number := nextNumber (getV e v), full := startsFull e v
    forT2 := (getV e v).t2o.pending && (getV e v).t2o.standing.isSome
    base := if startsFull e v then nextNumber (getV e v)
            else ((baseChain e v).head?.map (·.number)).getD (nextNumber (getV e v))
    ws := ws.number, step := ws.step, lineage := (getV e v).regs.lineage, shape := shapeCheck e v
    nonce := (drawNonce f).1, key := drainKey job (drawNonce f).1, ns := (getV e v).regs.t1ns
    lba := nextStart (getV e v) ((getV e v).t1o.table.getD [])
    left := if startsFull e v then (drainReaches f v).flatMap fun r => (List.range r.tiles).map fun t => (r.num, t)
            else workTiles m f v
    digests := (drainReaches f v).map fun r => (r.num, (getReach (getV e v) r.num).comm), pages := gs }

/-- A Valley with a running drain. -/
def t1Runs (r : T1Run) (x : Valley) : Valley := { x with t1 := some r }

/-- The engine in which a drain runs. -/
def drainRuns (m : Mem) (e : Eng) (v : Nat) (ws : WsRecord) (job : BitVec 256) (gs : List Nat) : Eng :=
  updV (drawNonce (drainBegun m e v gs)).2 v (t1Runs (startedRun m e (drainBegun m e v gs) v ws job gs))

section
variable {m : Mem} {e : Eng} {v : Nat} {ws : WsRecord} {job : BitVec 256} {gs : List Nat}

theorem startT1_of_room (h : 1024 ≤ freeCount e 3) :
    startT1 m e v ws job = drainRuns m e v ws job ((freePages e 3).take 1024) := by
  unfold startT1
  dsimp only
  rw [reservePages_of_room _ h]
  rfl

theorem regions_drainBegun : (drainBegun m e v gs).regions = e.regions := by
  unfold drainBegun
  rw [merged_eq]
  rfl

theorem getV_drainRuns : getV (drainRuns m e v ws job gs) v =
    t1Runs (startedRun m e (drainBegun m e v gs) v ws job gs)
      (t1Begun (decide (Valley.drainMap (getV e v) ≠ 0)) e.side.ts (getV e v)) := by
  have hnonce : getV (drawNonce (drainBegun m e v gs)).2 v = getV (drainBegun m e v gs) v := rfl
  have hmerged : getV (merged m (ownPages e gs (.work v 1)) v (getV e v)) v = getV e v := by
    rw [merged_eq]
    rfl
  rw [drainRuns, getV_updV_same, hnonce, drainBegun, getV_updV_same, hmerged]

theorem owners_drainRuns {g : Nat} (h : g ∈ gs) :
    Tab.find (drainRuns m e v ws job gs).basin.owners g = some (.work v 1) := by
  have hbasin : (drainRuns m e v ws job gs).basin = (ownPages e gs (.work v 1)).basin := by
    show (merged m (ownPages e gs (.work v 1)) v (getV e v)).basin = _
    rw [merged_eq]
  rw [hbasin]
  exact (find_ownPages _ _ _ _).trans (if_pos h)

theorem digests_startedRun : (startedRun m e (drainBegun m e v gs) v ws job gs).digests =
    (drainReaches e v).map fun y => (y.num, (getReach (getV e v) y.num).comm) := by
  have hreaches : drainReaches (drainBegun m e v gs) v = drainReaches e v := by
    rw [drainReaches, drainReaches, reachList_congr regions_drainBegun]
  show (drainReaches (drainBegun m e v gs) v).map _ = _
  rw [hreaches]

/-- A drain that was ordered full is full (R163). -/
theorem startsFull_of_asked (h : (getV e v).t1o.asked = some true) : startsFull e v = true := by
  rw [startsFull, nextFull, decide_eq_true h]
  rfl

end

/-- Settles O53: a trigger by whether it fires, and a start by whether anything holds it. -/
theorem drainsStart : Obligations.DrainsStart := by
  intro v s hc x
  refine ⟨fun hj hf hp hh => ⟨updV s.eng v.val t1Pending, ?_, getV_updV_same _ _ _, rfl, rfl⟩, fun h => ?_,
    fun hj hn hcount => ⟨_, exec_t2Trigger v hc, rfl, ?_⟩, fun h => ?_,
    fun full ws table job ha h1 hw ht hk hj harea hns hkey hph hu hcor hs hfree =>
      ⟨drainRuns s.mem s.eng v.val ws job ((freePages s.eng 3).take 1024), startedRun s.mem s.eng
        (drainBegun s.mem s.eng v.val ((freePages s.eng 3).take 1024)) v.val ws job ((freePages s.eng 3).take 1024), ?_, ?_⟩,
    fun full table ha ht hs hnext => ?_, fun ha hp hnext => ?_⟩
  · rw [exec_t1Trigger v hc, t1Trigger_of_fires hj hf hp hh]
  · rw [exec_t1Trigger v hc, t1Trigger_of_quiet h]
  · rw [t2Trigger_of_fires hj hn hcount]
    exact ⟨getV_updV_same _ _ _, fun w hw => getV_updV_ne _ _ hw, rfl⟩
  · rw [exec_t2Trigger v hc, t2Trigger_of_quiet h]
  · have hfree' : t1Free s.eng v.val = true := by
      show (isJoined x && hasArea x && nsAllowed s.eng v.val && drainKeyed s.eng v.val && decide (x.phase = .idle) &&
        !anyUnbuilt s.eng v.val && !correcting x) = true
      rw [hj, harea, hns, hkey, decide_eq_true hph, hu, hcor]
      rfl
    rw [exec_drainStart v hc, tryStartT1_of_free ha h1 hw (Option.isSome_iff_exists.2 ⟨table, ht⟩) hk hs hfree',
      startT1_of_room hfree]
  · have hnumber : nextNumber x = (table.map (·.number)).foldl max 0 + 1 := by rw [nextNumber, ht]; rfl
    rw [getV_drainRuns]
    refine ⟨rfl, rfl, rfl, rfl, hnumber, rfl, rfl, digests_startedRun, rfl, fun hfull => ?_, fun hfull => if_pos hfull,
      fun b more hfull hb => (if_neg (Bool.eq_false_iff.1 hfull)).trans ?_, rfl, fun g hg => owners_drainRuns hg,
      rfl, rfl, rfl, rfl, rfl⟩
    · rw [hfull] at ha
      exact startsFull_of_asked ha
    · rw [hb]
      rfl
  · rw [exec_drainStart v hc, tryStartT1_of_survey ha (Option.isSome_iff_exists.2 ⟨table, ht⟩) hs, tryStartT2_of_none hnext]
  · have hdue : t1Due (getV s.eng v.val) = false := by
      show (x.t1o.asked.isSome || (x.t1o.pending && x.t1o.standing)) = false
      rw [ha, hp]
      rfl
    rw [exec_drainStart v hc, tryStartT1_of_none hdue, tryStartT2_of_none hnext]

end Sys2Proof.Machine

/-!
TILE_TAKEN, SEGMENT_BEGIN and HOLDUP_WAIT_EXPIRED (R105, R158, R160, R168, R170).
-/

namespace Sys2Proof.Machine

section
variable {s : State} (v : Fin 16)

theorem exec_tileTaken (hc : ctlOn s.eng = true) :
    exec (.tileTaken v) s = .next { s with eng := growT1 (takeTile s.mem s.eng v.val) v.val } := by
  show execTileTaken v s = _
  rw [execTileTaken, if_pos hc]

theorem exec_segmentBegin (hc : ctlOn s.eng = true) :
    exec (.segmentBegin v) s = .next { s with eng := segmentBegin s.eng v.val } := by
  show execSegmentBegin v s = _
  rw [execSegmentBegin, if_pos hc]

theorem exec_holdupWaitExpired (hc : ctlOn s.eng = true) :
    exec (.holdupWaitExpired v) s = .next { s with eng := holdupExpired s.eng v.val } := by
  show execHoldupWaitExpired v s = _
  rw [execHoldupWaitExpired, if_pos hc]

end

/-! ## A working set grows (R105) -/

/-- The pages by which a working set grows. -/
def grownBy (e : Eng) (pages : List Nat) (bytes : Nat) : List Nat :=
  (freePages e 3).take ((bytes + 4095) / 4096 - pages.length)

theorem growPages_eq (e : Eng) (o : PageOwner) (pages : List Nat) (bytes : Nat) :
    growPages e o pages bytes = (pages ++ grownBy e pages bytes, ownPages e (grownBy e pages bytes) o) := by
  unfold growPages
  split
  · next h =>
    have hnone : (bytes + 4095) / 4096 - pages.length = 0 := by omega
    have hmore : grownBy e pages bytes = [] := by rw [grownBy, hnone, List.take_zero]
    rw [hmore, List.append_nil]
    rfl
  · rfl

/-- What a Terrace 1 drain holds, in bytes. -/
def heldBytes (r : T1Run) : Nat :=
  4096 * (r.taken.length + ((r.segs.filter fun g => decide (g.st ≠ .done)).map fun g => g.lbas + 1).sum)

section
variable {m : Mem} {e : Eng} {v : Nat} {run : T1Run}

theorem growT1_of_run (h : (getV e v).t1 = some run) : growT1 e v =
    updT1 (ownPages e (grownBy e run.pages (heldBytes run)) (.work v 1)) v
      (fun r => { r with pages := run.pages ++ grownBy e run.pages (heldBytes run) }) := by
  have hgrow := growPages_eq e (.work v 1) run.pages (heldBytes run)
  unfold growT1
  rw [h]
  dsimp only
  rw [show growPages e (.work v 1) run.pages (4096 * (run.taken.length +
    ((run.segs.filter fun g => decide (g.st ≠ .done)).map fun g => g.lbas + 1).sum)) = _ from hgrow]

/-- A drain whose record changes. -/
theorem t1_updT1 (h : (getV e v).t1 = some run) (f : T1Run → T1Run) : (getV (updT1 e v f) v).t1 = some (f run) := by
  rw [updT1, getV_updV_same, h]
  rfl

theorem getV_updT1_ne (f : T1Run → T1Run) {w : Nat} (h : w ≠ v) : getV (updT1 e v f) w = getV e w := getV_updV_ne _ _ h

/-! ## A tile is taken (R158, R160) -/

theorem takeTile_of_empty (h : (getV e v).t1 = some run) (hl : run.left = []) : takeTile m e v = formT1 e v := by
  unfold takeTile
  dsimp only
  rw [h]
  dsimp only
  rw [hl]

theorem takeTile_of_formed (h : (getV e v).t1 = some run) (hl : run.left ≠ []) (hf : ∃ g ∈ run.segs, g.st = .formed) :
    takeTile m e v = e := by
  obtain ⟨g, hg, hst⟩ := hf
  have hany : run.segs.any (fun g => decide (g.st = .formed)) = true := List.any_eq_true.2 ⟨g, hg, decide_eq_true hst⟩
  unfold takeTile
  dsimp only
  rw [h]
  dsimp only
  cases hleft : run.left with
  | nil => exact absurd hleft hl
  | cons a rest => exact if_pos (by rw [hany, Bool.or_true])

/-- The drain after its next tile. -/
def tileIn (m : Mem) (e : Eng) (r : ReachInfo) (rho t : Nat) (rest : List (Nat × Nat)) (run q : T1Run) : T1Run :=
  { q with left := rest, taken := q.taken ++ [(rho, t, cutLines m e run r t)], tiles := q.tiles + 1
           shadow := Tab.del q.shadow (tileKey rho t) }

/-- The engine without the shadow of a taken tile. -/
def shadowFreed (e : Eng) : Option (Nat × BitVec 16) → Eng
  | some (g, _) => freeSpill e [g]
  | none => e

/-- The engine in which the drain has its next tile. -/
def tileTaken (m : Mem) (e : Eng) (v : Nat) (r : ReachInfo) (rho t : Nat) (rest : List (Nat × Nat)) (run : T1Run) : Eng :=
  clearWork m (updT1 (shadowFreed e (Tab.find run.shadow (tileKey rho t))) v (tileIn m e r rho t rest run)) v rho t

theorem takeTile_of_next {rho t : Nat} {rest : List (Nat × Nat)} {r : ReachInfo} (h : (getV e v).t1 = some run)
    (hl : run.left = (rho, t) :: rest) (hb : shadowBusy e run (tileKey rho t) = false)
    (hf : ∀ g ∈ run.segs, g.st ≠ .formed) (hr : reachAt e v rho = some r) :
    takeTile m e v = formT1 (tileTaken m e v r rho t rest run) v := by
  have hany : run.segs.any (fun g => decide (g.st = .formed)) = false :=
    List.any_eq_false.2 fun g hg => by rw [decide_eq_false (hf g hg)]; exact Bool.false_ne_true
  unfold takeTile tileTaken
  dsimp only
  rw [h]
  dsimp only
  rw [hl]
  dsimp only
  rw [hb, hany, hr]
  refine (if_neg Bool.false_ne_true).trans ?_
  cases Tab.find run.shadow (tileKey rho t) <;> rfl

theorem clearWork_eq (m : Mem) (e : Eng) (v rho t : Nat) : clearWork m e v rho t = { e with io := (clearWork m e v rho t).io } := by
  unfold clearWork putBit
  dsimp only
  split
  · rfl
  · split
    · rfl
    · exact accumBytes_eq _ _ _ _

theorem shadowFreed_eq (e : Eng) (o : Option (Nat × BitVec 16)) : ∃ sp, shadowFreed e o = { e with spill := sp } := by
  cases o with
  | none => exact ⟨e.spill, rfl⟩
  | some g => exact ⟨_, rfl⟩

theorem tileTaken_spec (r : ReachInfo) (rho t : Nat) (rest : List (Nat × Nat)) (h : (getV e v).t1 = some run) :
    (getV (tileTaken m e v r rho t rest run) v).t1 = some (tileIn m e r rho t rest run run) ∧
    (∀ g b, Tab.find run.shadow (tileKey rho t) = some (g, b) →
      Tab.find (tileTaken m e v r rho t rest run).spill.pages g = none) ∧
    (tileTaken m e v r rho t rest run).basin = e.basin ∧ (tileTaken m e v r rho t rest run).lanes = e.lanes := by
  obtain ⟨sp, hsp⟩ := shadowFreed_eq e (Tab.find run.shadow (tileKey rho t))
  have hrun : (getV (shadowFreed e (Tab.find run.shadow (tileKey rho t))) v).t1 = some run := by
    rw [hsp]
    exact h
  refine ⟨?_, fun g b hg => ?_, ?_, ?_⟩
  · rw [tileTaken, clearWork_eq]
    exact t1_updT1 hrun _
  · rw [tileTaken, clearWork_eq, hg]
    exact (Tab.find_del _ _ _).trans (if_pos rfl)
  · rw [tileTaken, clearWork_eq, hsp]
    rfl
  · rw [tileTaken, clearWork_eq, hsp]
    rfl

/-! ## A drain ends (R170) -/

theorem find_foldl_del {α : Type} (gs : List Nat) (t : Tab α) {k : Nat} (h : k ∈ gs ∨ Tab.find t k = none) :
    Tab.find (gs.foldl Tab.del t) k = none := by
  induction gs generalizing t with
  | nil => exact h.resolve_left List.not_mem_nil
  | cons g gs ih =>
    refine ih _ ?_
    rw [Tab.find_del]
    by_cases hg : k = g
    · exact .inr (if_pos hg)
    · obtain h | h := h
      · exact .inl ((List.mem_cons.1 h).resolve_left hg)
      · exact .inr ((if_neg hg).trans h)

/-- The engine in which a drain's pages are free, before its end is reported. -/
def t1Freed (e : Eng) (v reason : Nat) (r : T1Run) : Eng :=
  updV (updIo (freeBasin (freeSpill e (r.shadow.map fun x => x.2.1)) r.pages) fun io =>
      { io with oldSegs := io.oldSegs ++ r.segs.filter Seg.live }) v fun x =>
    { x with t1 := none, t1o := { x.t1o with workLeft := x.t1o.workLeft || decide (reason ≠ 0) } }

theorem endT1_of_run (h : (getV e v).t1 = some run) (reason : Nat) :
    endT1 e v reason = drainDone (t1Freed e v reason run) v 1 reason run.full run.number run.ws := by
  unfold endT1
  rw [h]
  rfl

/-- The same event of a Valley, raised in two engines that the ring does not tell apart. -/
theorem SameEvents.raise {e f : Eng} (h : SameEvents e f) (hfn : (getV e v).fn = (getV f v).fn) (code st : W16) (r0 r1 : W64) :
    SameEvents (raise e code st (some v) r0 r1) (raise f code st (some v) r0 r1) := by
  show SameEvents (Machine.raiseFn e (getV e v).fn code st (some v) r0 r1) (Machine.raiseFn f (getV f v).fn code st (some v) r0 r1)
  rw [hfn]
  exact h.raiseFn _ _ _ _ _ _

/-- What the end of a drain leaves, and what it reports. -/
theorem endT1_spec (h : (getV e v).t1 = some run) (reason : Nat) {st : W16}
    (hst : st = if reason = 0 ∨ reason = 6 then stOK else if reason = 3 then stHoldupLow else stOutOfRange) :
    let ev := raise e evDrainDone st (some v)
      (pack [(0, v), (4, 1), (8, reason), (12, b2n run.full), (32, run.number)]) run.ws
    (getV (endT1 e v reason) v).t1 = none ∧ (endT1 e v reason).ctl.evt = ev.ctl.evt ∧ (endT1 e v reason).io.hm = ev.io.hm ∧
    (∀ g ∈ run.pages, Tab.find (endT1 e v reason).basin.owners g = none) ∧
    (∀ y ∈ run.shadow, Tab.find (endT1 e v reason).spill.pages y.2.1 = none) := by
  obtain ⟨hnone, hpages⟩ := endT1_ends e v reason
  have hsame : SameEvents (t1Freed e v reason run) e := ⟨rfl, rfl, rfl, rfl, rfl, rfl, rfl, rfl, rfl⟩
  have hfn : (getV (t1Freed e v reason run) v).fn = (getV e v).fn := (congrArg Valley.fn (getV_updV_same _ _ _) :)
  have hev : SameEvents (endT1 e v reason) (raise e evDrainDone st (some v)
      (pack [(0, v), (4, 1), (8, reason), (12, b2n run.full), (32, run.number)]) run.ws) := by
    rw [endT1_of_run h, drainDone, ← hst]
    exact hsame.raise hfn _ _ _ _
  refine ⟨hnone, hev.evt, hev.hm, hpages run h, fun y hy => ?_⟩
  rw [endT1_of_run h, drainDone, (onlyEvents_raise _ _ _ _ _ _).answers.spill]
  exact find_foldl_del _ _ (.inl (List.mem_map_of_mem hy))

theorem holdupExpired_of_due {t0 : W64} (h : (getV e v).t1 = some run) (hw : run.waitFrom = some t0)
    (hd : Regs.holdupWait e.regs ≤ (e.side.ts - t0).toNat) : holdupExpired e v = endT1 e v 3 := by
  unfold holdupExpired
  rw [h]
  dsimp only
  rw [hw]
  exact if_pos hd

theorem holdupExpired_of_early {t0 : W64} (h : (getV e v).t1 = some run) (hw : run.waitFrom = some t0)
    (hd : (e.side.ts - t0).toNat < Regs.holdupWait e.regs) : holdupExpired e v = e := by
  unfold holdupExpired
  rw [h]
  dsimp only
  rw [hw]
  exact if_neg (Nat.not_le.2 hd)

theorem holdupExpired_of_none (h : (getV e v).t1 = some run) (hw : run.waitFrom = none) : holdupExpired e v = e := by
  unfold holdupExpired
  rw [h]
  dsimp only
  rw [hw]

/-! ## A segment begins (R168) -/

/-- What the storage port shows of a descriptor. -/
def stoShape (d : StoDesc) : Byte × W32 × W64 × W32 := (d.op, d.ns, d.lba, d.lbas)

/-- The payload writes of a segment, one run of LBAs after another. -/
def postSegRun (v : Nat) (g : Seg) (acc : Eng × List Nat × Nat) (run : Nat × Nat) : Eng × List Nat × Nat :=
  let p := postSto acc.1 1 false g.ns run.1 run.2 ((g.data.drop (4096 * acc.2.2)).take (4096 * run.2)) (.t1Seg v g.num)
  (p.1, acc.2.1 ++ [p.2], acc.2.2 + run.2)

theorem onlyCorrects_passThrough {α : Type} (e : Eng) (data : List α) (o : PortOwner) : OnlyCorrects e (passThrough e data o) := by
  unfold passThrough
  split
  · exact .refl e
  · exact onlyCorrects_readOwned _ _

theorem postSto_spec (e : Eng) (op : Byte) (fua : Bool) (ns : W32) (lba lbas : Nat) (data : List Byte) (o : PortOwner) :
    (postSto e op fua ns lba lbas data o).1.valleys = e.valleys ∧ (postSto e op fua ns lba lbas data o).1.lanes = e.lanes ∧
    (postSto e op fua ns lba lbas data o).1.io.sto.map stoShape =
      e.io.sto.map stoShape ++ [(op, ns, BitVec.ofNat 64 lba, BitVec.ofNat 32 lbas)] := by
  have hpass := onlyCorrects_passThrough e data o
  refine ⟨hpass.valleys, hpass.lanes, ?_⟩
  show ((passThrough e data o).io.sto ++ [_]).map stoShape = _
  rw [List.map_append, hpass.io]
  rfl

theorem foldl_postSegRun (g : Seg) (runs : List (Nat × Nat)) (acc : Eng × List Nat × Nat) :
    (runs.foldl (postSegRun v g) acc).1.valleys = acc.1.valleys ∧ (runs.foldl (postSegRun v g) acc).1.lanes = acc.1.lanes ∧
    (runs.foldl (postSegRun v g) acc).1.io.sto.map stoShape =
      acc.1.io.sto.map stoShape ++ runs.map fun l => (1, g.ns, BitVec.ofNat 64 l.1, BitVec.ofNat 32 l.2) := by
  induction runs generalizing acc with
  | nil => exact ⟨rfl, rfl, (List.append_nil _).symm⟩
  | cons l runs ih =>
    obtain ⟨hv, hl, hs⟩ := ih (postSegRun v g acc l)
    obtain ⟨kv, kl, ks⟩ := postSto_spec acc.1 1 false g.ns l.1 l.2 ((g.data.drop (4096 * acc.2.2)).take (4096 * l.2)) (.t1Seg v g.num)
    refine ⟨hv.trans kv, hl.trans kl, hs.trans ?_⟩
    rw [show (postSegRun v g acc l).1.io.sto.map stoShape = _ from ks, List.append_assoc]
    rfl

/-- The runs of LBAs of a segment's payload. -/
def payloadRuns (x : Valley) (g : Seg) : List (Nat × Nat) := lbaRuns (logLo x) (logLen x) (g.lbas + 2) g.lba g.lbas

/-- A segment whose payload is under way. -/
def underWay (g : Seg) (waits : List Nat) : Seg := { g with st := .payload, waits := waits }

/-- A drain with a segment replaced. -/
def segPut (g : Seg) (r : T1Run) : T1Run := { r with segs := r.segs.map fun q => if q.num = g.num then g else q }

/-- The engine in which a segment's payload is posted. -/
def payloadPosted (e : Eng) (v : Nat) (g : Seg) : Eng × List Nat × Nat :=
  (payloadRuns (getV e v) g).foldl (postSegRun v g) (e, [], 0)

theorem beginSeg_eq (e : Eng) (v : Nat) (g : Seg) : beginSeg e v g =
    updT1 (updV (payloadPosted e v g).1 v fun x => overwrite x g) v (segPut (underWay g (payloadPosted e v g).2.1)) := rfl

theorem beginSeg_spec {g : Seg} (h : (getV e v).t1 = some run) (hg : g ∈ run.segs) :
    (∃ r, (getV (beginSeg e v g) v).t1 = some r ∧ r.waitFrom = run.waitFrom ∧
      (∃ k ∈ r.segs, k.num = g.num ∧ k.st = .payload)) ∧
    (beginSeg e v g).io.sto.map stoShape = e.io.sto.map stoShape ++
      (payloadRuns (getV e v) g).map (fun l => (1, g.ns, BitVec.ofNat 64 l.1, BitVec.ofNat 32 l.2)) ∧
    (beginSeg e v g).lanes = e.lanes := by
  obtain ⟨hv, hl, hs⟩ := foldl_postSegRun (v := v) g (payloadRuns (getV e v) g) (e, [], 0)
  rw [beginSeg_eq]
  have hv' : (payloadPosted e v g).1.valleys = e.valleys := hv
  have hl' : (payloadPosted e v g).1.lanes = e.lanes := hl
  have hs' : (payloadPosted e v g).1.io.sto.map stoShape = e.io.sto.map stoShape ++
      (payloadRuns (getV e v) g).map (fun l => (1, g.ns, BitVec.ofNat 64 l.1, BitVec.ofNat 32 l.2)) := hs
  generalize payloadPosted e v g = p at *
  have hrun : (getV (updV p.1 v fun x => overwrite x g) v).t1 = some run := by
    rw [getV_updV_same]
    exact (congrArg Valley.t1 (getV_congr hv' v)).trans h
  refine ⟨⟨_, t1_updT1 hrun _, rfl, underWay g p.2.1, List.mem_map.2 ⟨g, hg, if_pos rfl⟩, rfl, rfl⟩, hs', hl'⟩

/-- A drain that waits for energy no more. -/
def waitOver (r : T1Run) : T1Run := { r with waitFrom := none }

/-- A drain that waits for energy. -/
def energyWait (ts : W64) (r : T1Run) : T1Run := { r with waitFrom := some (r.waitFrom.getD ts), paused := true }

/-- What SEGMENT_BEGIN does for a segment that the storage port has room for. -/
def segmentStep (e : Eng) (v : Nat) (run : T1Run) (g : Seg) : Eng :=
  if areaFull e v run g then endT1 e v 4
  else if holdupNeed e g ≤ 10 * availableEnergy e.side then beginSeg (updT1 e v waitOver) v g
  else if run.paused then updT1 e v (energyWait e.side.ts)
  else raise (updT1 e v (energyWait e.side.ts)) evHoldupPause stHoldupLow (some v)
    (pack [(0, fld e.side.hRecord 0 16), (16, b2n (bit e.side.hRecord 31))]) (BitVec.ofNat 64 (holdupNeed e g))

theorem segmentBegin_of_room {g : Seg} (h : (getV e v).t1 = some run)
    (hf : run.segs.find? (fun g => decide (g.st = .formed)) = some g)
    (hl : (run.segs.filter Seg.live).length < Valley.segInflight (getV e v)) (hr : retentionHold e = false)
    (hs : e.io.sto.length + (payloadRuns (getV e v) g).length ≤ 256) : segmentBegin e v = segmentStep e v run g := by
  unfold segmentBegin
  dsimp only
  rw [h]
  dsimp only
  rw [hf]
  refine if_neg ?_
  rw [hr]
  rintro (hc | hc | hc)
  · exact Nat.not_le.2 hl hc
  · exact Bool.false_ne_true hc
  · exact Nat.not_lt.2 hs hc

end

/-- Settles O54: a tile by what the drain has left, a segment by its area and the energy, and a wait by its time. -/
theorem drainTakesAndBegins : Obligations.DrainTakesAndBegins := by
  intro v s run hc hrun x ended
  refine ⟨fun rho t rest r hl hb hf hr => ⟨tileTaken s.mem s.eng v.val r rho t rest run, ?_,
      tileTaken_spec r rho t rest hrun⟩, fun hl hf => ?_, fun hl => ?_, ?_, fun g hg _ hlive hret hsto => ?_,
    fun t0 hw => ⟨fun hd => ⟨_, exec_holdupWaitExpired v hc, rfl, ?_⟩, fun hd => ?_⟩, fun hw => ?_⟩
  · rw [exec_tileTaken v hc, takeTile_of_next hrun hl hb hf hr]
  · rw [exec_tileTaken v hc, takeTile_of_formed hrun hl hf]
  · rw [exec_tileTaken v hc, takeTile_of_empty hrun hl]
  · intro held more f
    have hgrow : f = updT1 (ownPages s.eng more (.work v.val 1)) v.val (fun r => { r with pages := run.pages ++ more }) :=
      growT1_of_run hrun
    rw [hgrow]
    refine ⟨t1_updT1 hrun _, fun g hg => ?_, fun g hg => ?_, fun w hw => getV_updT1_ne _ hw, rfl, rfl, rfl⟩
    · exact (find_ownPages _ _ _ _).trans (if_pos hg)
    · exact (find_ownPages _ _ _ _).trans (if_neg hg)
  · have hstep : segmentBegin s.eng v.val = segmentStep s.eng v.val run g := segmentBegin_of_room hrun hg hlive hret hsto
    rw [exec_segmentBegin v hc, hstep]
    refine ⟨fun ha => ⟨_, rfl, rfl, ?_⟩, fun ha he => ?_, fun ha he => ?_⟩
    · rw [segmentStep, if_pos ha]
      exact endT1_spec hrun 4 rfl
    · have hbegin : segmentStep s.eng v.val run g = beginSeg (updT1 s.eng v.val waitOver) v.val g :=
        (if_neg (Bool.eq_false_iff.1 ha)).trans (if_pos he)
      obtain ⟨⟨r, hr, hwait, hseg⟩, hports, hlanes⟩ := beginSeg_spec (g := g) (t1_updT1 (f := waitOver) hrun)
        (List.mem_of_find?_eq_some hg)
      have hlog : payloadRuns (getV (updT1 s.eng v.val waitOver) v.val) g = payloadRuns x g := by
        rw [updT1, getV_updV_same]
        rfl
      rw [hlog] at hports
      rw [hbegin]
      exact ⟨_, r, rfl, rfl, hr, hwait, hseg, hports, hlanes⟩
    · have hwaits : segmentStep s.eng v.val run g = if run.paused then updT1 s.eng v.val (energyWait s.eng.side.ts)
          else raise (updT1 s.eng v.val (energyWait s.eng.side.ts)) evHoldupPause stHoldupLow (some v.val)
            (pack [(0, fld s.eng.side.hRecord 0 16), (16, b2n (bit s.eng.side.hRecord 31))])
            (BitVec.ofNat 64 (holdupNeed s.eng g)) :=
        (if_neg (Bool.eq_false_iff.1 ha)).trans (if_neg (Nat.not_le.2 he))
      have ht1 := t1_updT1 (f := energyWait s.eng.side.ts) hrun
      rw [hwaits]
      cases hp : run.paused with
      | true => exact ⟨_, rfl, rfl, ht1, rfl, fun _ => rfl, nofun⟩
      | false =>
        have hevents := onlyEvents_raise (updT1 s.eng v.val (energyWait s.eng.side.ts)) evHoldupPause stHoldupLow (some v.val)
          (pack [(0, fld s.eng.side.hRecord 0 16), (16, b2n (bit s.eng.side.hRecord 31))]) (BitVec.ofNat 64 (holdupNeed s.eng g))
        have hsame : SameEvents (updT1 s.eng v.val (energyWait s.eng.side.ts)) s.eng :=
          ⟨rfl, rfl, rfl, rfl, rfl, rfl, rfl, rfl, rfl⟩
        have hev := hsame.raise (v := v.val) (congrArg Valley.fn (getV_updV_same _ _ _) :) evHoldupPause stHoldupLow
          (pack [(0, fld s.eng.side.hRecord 0 16), (16, b2n (bit s.eng.side.hRecord 31))]) (BitVec.ofNat 64 (holdupNeed s.eng g))
        refine ⟨_, rfl, rfl, ?_, ?_, nofun, fun _ => ⟨hev.evt, hev.hm⟩⟩
        · rw [if_neg Bool.false_ne_true, hevents.answers.getV]
          exact ht1
        · rw [if_neg Bool.false_ne_true, hevents.corrects.io]
          rfl
  · rw [holdupExpired_of_due hrun hw hd]
    exact endT1_spec hrun 3 rfl
  · rw [exec_holdupWaitExpired v hc, holdupExpired_of_early hrun hw hd]
  · rw [exec_holdupWaitExpired v hc, holdupExpired_of_none hrun hw]

end Sys2Proof.Machine

/-!
HOP_RESEND, REBUILD_STALL, HOP_ACKNOWLEDGE, REBUILD_HOP and AUDIT_CORRECTION (R82, R133 to R135, R138, R223).
-/

namespace Sys2Proof.Machine

/-! ## What targets and turns depend on -/

/-- A Valley without its peers, its runs and the hops that wait. -/
def stripeView (x : Valley) : Valley := { x with peers := [], runs := [], oldRuns := [], hops := [] }

section
variable {e f : Eng} {v : Nat} (hr : f.regions = e.regions) (hv : stripeView (getV f v) = stripeView (getV e v))
include hr

theorem reachAt_of_regions (rho : Nat) : reachAt f v rho = reachAt e v rho := by
  rw [reachAt, reachAt, reachList_congr hr]

theorem scopeReaches_of_regions (scope : List (Nat × Nat)) : scopeReaches f v scope = scopeReaches e v scope := by
  rw [scopeReaches, scopeReaches, reachList_congr hr]

include hv

theorem targetPos_of_stripes (t : Target) : targetPos f v t = targetPos e v t := by
  have hpos : stripePos (getV f v) = stripePos (getV e v) := read_view hv stripePos fun _ => rfl
  rw [targetPos, targetPos, reachAt_of_regions hr, hpos]

theorem parityAddr_of_stripes (rho i : Nat) : parityAddr f v rho i = parityAddr e v rho i := by
  have harea : (getV f v).area = (getV e v).area := read_view hv Valley.area fun _ => rfl
  have hm : (getV f v).m = (getV e v).m := read_view hv Valley.m fun _ => rfl
  have hk : (getV f v).k = (getV e v).k := read_view hv Valley.k fun _ => rfl
  simp only [parityAddr, parityBefore, reachList_congr hr, harea, hm, hk]

theorem runTargets_of_stripes (r : Run) : runTargets f v r = runTargets e v r := by
  have htargets : reachTargets (getV f v) = reachTargets (getV e v) := read_view hv reachTargets fun _ => rfl
  have hstripes : reachStripes (getV f v) = reachStripes (getV e v) := read_view hv reachStripes fun _ => rfl
  have hin : targetsIn (getV f v) = targetsIn (getV e v) := read_view hv targetsIn fun _ => rfl
  have hn : (getV f v).n = (getV e v).n := read_view hv Valley.n fun _ => rfl
  have hk : (getV f v).k = (getV e v).k := read_view hv Valley.k fun _ => rfl
  simp only [runTargets, scopeReaches_of_regions hr, reachList_congr hr, targetsBefore, htargets, hstripes, hin, hn, hk]

theorem hopTarget_of_stripes (r : Run) (p : HopIn) : hopTarget f v r p = hopTarget e v r p := by
  have hstripe : stripeOf (getV f v) = stripeOf (getV e v) := read_view hv stripeOf fun _ => rfl
  rw [hopTarget, hopTarget, runTargets_of_stripes hr hv, hstripe]

theorem turnOf_of_stripes (r : Run) : turnOf f v r = turnOf e v r := by
  have hexcl : excludedHere (getV f v) = excludedHere (getV e v) := read_view hv excludedHere fun _ => rfl
  have hself : (getV f v).self = (getV e v).self := read_view hv Valley.self fun _ => rfl
  simp only [turnOf, hexcl, runTargets_of_stripes hr hv, takesPart, ringOf, targetPos_of_stripes hr hv, hself]

end

/-- How often packets have arrived is no part of a run's targets and turn. -/
theorem turnOf_arrivals (e : Eng) (v : Nat) (r : Run) (a : Tab Nat) : turnOf e v { r with arrivals := a } = turnOf e v r := rfl

theorem hopTarget_arrivals (e : Eng) (v : Nat) (r : Run) (a : Tab Nat) (p : HopIn) :
    hopTarget e v { r with arrivals := a } p = hopTarget e v r p := rfl

/-! ## Live runs -/

/-- Has a run an identity among its groups? -/
def ofIdent (ident : Nat) (r : Run) : Bool := r.groups.any fun g => decide (g.ident = ident / 4 * 4)

/-- A Valley whose live runs of an identity are replaced. -/
def runPut (r : Run) (x : Valley) : Valley := { x with runs := x.runs.map fun q => if q.ident = r.ident then r else q }

theorem putRun_eq (e : Eng) (v : Nat) (r : Run) : putRun e v r = updV e v (runPut r) := rfl

theorem mem_runPut {x : Valley} {ident : Nat} {r r1 : Run} (h : runAt x ident = some r) (hi : r1.ident = r.ident) :
    r1 ∈ (runPut r1 x).runs :=
  List.mem_map.2 ⟨r, List.mem_of_find?_eq_some h, if_pos hi.symm⟩

theorem mem_putRun {e : Eng} {v ident : Nat} {r r1 : Run} (h : runAt (getV e v) ident = some r) (hi : r1.ident = r.ident) :
    r1 ∈ (getV (putRun e v r1) v).runs := by
  rw [putRun_eq, getV_updV_same]
  exact mem_runPut h hi

/-! ## HOP_RESEND and REBUILD_STALL (R135, R138) -/

section
variable {s : State} (v : Fin 16) (ident : W16)

theorem exec_hopResend (hc : ctlOn s.eng = true) :
    exec (.hopResend v ident) s = .next { s with eng := hopResend s.eng v.val ident.toNat } := by
  show execHopResend v ident s = _
  rw [execHopResend, if_pos hc]

theorem exec_rebuildStall (succ : Fin 64) (hc : ctlOn s.eng = true) :
    exec (.rebuildStall v ident succ) s = .next { s with eng := rebuildStall s.eng v.val ident.toNat succ.val } := by
  show execRebuildStall v ident succ s = _
  rw [execRebuildStall, if_pos hc]

end

/-- Has a quarter of HOP_TIMEOUT passed since a kept unit of an identity went out? -/
def hopDue (e : Eng) (v ident : Nat) (r : Run) (k : Kept) : Bool :=
  decide (k.ident = ident / 4 * 4) && !r.stalled.contains k.succ && decide ((getV e v).hopTimeout ≤ 4 * since e k.last)

/-- The packets of a kept unit. -/
def keptPackets (e : Eng) (v : Nat) (r : Run) (k : Kept) : List HopOut :=
  match keptTarget e v r k with
  | some t => unitPackets k.succ k.ident k.hop t k.rows
  | none => []

/-- A run whose due units have gone out again. -/
def resent (e : Eng) (v ident : Nat) (r : Run) : Run :=
  { r with kept := r.kept.map fun k => if hopDue e v ident r k then { k with last := e.side.ts } else k }

/-- Some more hops wait. -/
def hopsQueued (outs : List HopOut) (x : Valley) : Valley := { x with hops := x.hops ++ outs }

section
variable {e : Eng} {v ident : Nat} {r : Run}

theorem hopResend_of_run (h : runAt (getV e v) ident = some r) : ∃ f, OnlyCorrects e f ∧
    hopResend e v ident = updV (putRun f v (resent e v ident r)) v
      (hopsQueued ((r.kept.filter (hopDue e v ident r)).flatMap (keptPackets e v r))) := by
  unfold hopResend
  dsimp only
  rw [h]
  exact ⟨_, onlyCorrects_engineReads _ _, rfl⟩

/-- A unit that is kept alone goes out again. -/
theorem hopResend_spec {k : Kept} {tg : Target} (h : runAt (getV e v) ident = some r) (hk : r.kept = [k])
    (hi : k.ident = ident / 4 * 4) (hs : k.succ ∉ r.stalled) (hd : (getV e v).hopTimeout ≤ 4 * since e k.last)
    (ht : keptTarget e v r k = some tg) :
    (getV (hopResend e v ident) v).hops = (getV e v).hops ++ unitPackets k.succ k.ident k.hop tg k.rows ∧
    { r with kept := [{ k with last := e.side.ts }] } ∈ (getV (hopResend e v ident) v).runs := by
  obtain ⟨f, hf, heq⟩ := hopResend_of_run h
  have hnot : r.stalled.contains k.succ = false := by
    rw [← Bool.not_eq_true, List.contains_iff_mem]
    exact hs
  have hdue : hopDue e v ident r k = true := by
    rw [hopDue, decide_eq_true hi, hnot, decide_eq_true hd]
    rfl
  have hresent : resent e v ident r = { r with kept := [{ k with last := e.side.ts }] } := by
    rw [resent, hk, List.map_singleton, if_pos hdue]
  have houts : (r.kept.filter (hopDue e v ident r)).flatMap (keptPackets e v r) =
      unitPackets k.succ k.ident k.hop tg k.rows := by
    rw [hk, List.filter_cons_of_pos hdue, List.filter_nil, List.flatMap_singleton, keptPackets, ht]
  have hrun : runAt (getV f v) ident = some r := by rw [hf.getV, h]
  rw [heq, houts, hresent, getV_updV_same]
  refine ⟨?_, mem_putRun hrun rfl⟩
  rw [putRun_eq, getV_updV_same, hf.getV]
  rfl

/-- A run whose successor counts as stalled. -/
def stalledRun (succ : Nat) (r : Run) : Run := { r with stalled := succ :: r.stalled }

theorem rebuildStall_of_due {k : Kept} {succ : Nat} (h : runAt (getV e v) ident = some r) (hk : k ∈ r.kept)
    (hsucc : k.succ = succ) (hs : succ ∉ r.stalled) (hd : (getV e v).hopTimeout ≤ since e k.first) :
    ∃ w0 w1, rebuildStall e v ident succ = raise (putRun e v (stalledRun succ r)) evRebuildStall stPeerTimeout (some v) w0 w1 := by
  have hnot : r.stalled.contains succ = false := by
    rw [← Bool.not_eq_true, List.contains_iff_mem]
    exact hs
  have hany : (r.kept.filter fun k => decide (k.succ = succ)).any (fun k => decide ((getV e v).hopTimeout ≤ since e k.first)) = true :=
    List.any_eq_true.2 ⟨k, List.mem_filter.2 ⟨hk, decide_eq_true hsucc⟩, decide_eq_true hd⟩
  unfold rebuildStall
  dsimp only
  rw [h]
  dsimp only
  rw [hnot, hany]
  exact ⟨_, _, rfl⟩

theorem rebuildStall_of_stalled {succ : Nat} (h : runAt (getV e v) ident = some r) (hs : succ ∈ r.stalled) :
    rebuildStall e v ident succ = e := by
  unfold rebuildStall
  dsimp only
  rw [h]
  exact if_pos (by rw [List.contains_iff_mem.2 hs]; rfl)

/-! ## HOP_ACKNOWLEDGE (R134) -/

/-- Does an acknowledge cover a kept unit? -/
def ackCovers (sender ident : Nat) (lines : W32) (k : Kept) : Bool :=
  decide (k.succ = sender ∧ k.ident = ident / 4 * 4 ∧ (lines - k.upto).toNat < 2 ^ 31)

theorem onHopAck_of_none {m : Mem} {sender : Nat} {lines : W32} (h : runAt (getV e v) ident = none) :
    onHopAck m e v sender ident lines = e := by
  unfold onHopAck
  rw [h]

/-- The run after an acknowledge: the covered units are freed, and a correction among them counts as made. -/
theorem onHopAck_of_run {m : Mem} {sender : Nat} {lines : W32} (h : runAt (getV e v) ident = some r) :
    ∃ f r1, onHopAck m e v sender ident lines = stepRuns m f v ∧ OnlyAnswers (putRun e v r1) f ∧ r1.ident = r.ident ∧
      r1.kept = r.kept.filter (fun k => !ackCovers sender ident lines k) ∧ r1.recv = r.recv ∧ r1.finished = r.finished ∧
      r1.nCorr = r.nCorr + ((r.kept.filter (ackCovers sender ident lines)).filter fun k => decide (k.hop = 255)).length := by
  unfold onHopAck
  rw [h]
  refine ⟨_, _, rfl, onlyAnswers_foldl _ (fun e c => (onlyEvents_raise e _ _ _ _ _).answers) _ _, rfl, rfl, rfl, rfl, ?_⟩
  exact congrArg (r.nCorr + ·) (List.length_map _)

end

/-! ## A packet arrives (R82) -/

/-- A run with one packet more of an identity. -/
def arrived (ident : Nat) (r : Run) : Run := { r with arrivals := Tab.upd 0 r.arrivals ident (· + 1) }

/-- A run with one packet more, if the identity is its own. -/
def arrivedIf (ident : Nat) (r : Run) : Run := if ofIdent ident r then arrived ident r else r

/-- A Valley that has counted a packet. -/
def counted (ident : Nat) (x : Valley) : Valley :=
  if (runAt x ident).isSome then { x with runs := x.runs.map (arrivedIf ident) }
  else { x with oldRuns := x.oldRuns.map (arrivedIf ident) }

theorem find_arrivedIf (ident : Nat) (rs : List Run) :
    (rs.map (arrivedIf ident)).find? (ofIdent ident) = (rs.find? (ofIdent ident)).map (arrived ident) := by
  induction rs with
  | nil => rfl
  | cons r rs ih =>
    rw [List.map_cons]
    cases h : ofIdent ident r with
    | true =>
      have harr : arrivedIf ident r = arrived ident r := if_pos h
      rw [harr, List.find?_cons_of_pos (show ofIdent ident (arrived ident r) = true from h), List.find?_cons_of_pos h]
      rfl
    | false =>
      have harr : arrivedIf ident r = r := if_neg (Bool.eq_false_iff.1 h)
      rw [harr, List.find?_cons_of_neg (Bool.eq_false_iff.1 h), List.find?_cons_of_neg (Bool.eq_false_iff.1 h), ih]

/-- A packet of an identity is heard and counted: its runs count it, and nothing else that a hop reads changes. -/
structure HopArrived (e f : Eng) (v ident : Nat) : Prop where
  regions : f.regions = e.regions
  view : stripeView (getV f v) = stripeView (getV e v)
  io : f.io = e.io
  cnt : f.cnt = e.cnt
  side : f.side = e.side
  live : runAt (getV f v) ident = (runAt (getV e v) ident).map (arrived ident)
  ended : runAt (getV e v) ident = none →
    (getV f v).oldRuns.find? (ofIdent ident) = ((getV e v).oldRuns.find? (ofIdent ident)).map (arrived ident)

theorem runAt_counted (ident : Nat) (x : Valley) : runAt (counted ident x) ident = (runAt x ident).map (arrived ident) := by
  have hfind : runAt x ident = x.runs.find? (ofIdent ident) := rfl
  rw [counted, hfind]
  cases hr : x.runs.find? (ofIdent ident) with
  | none => exact hr
  | some r =>
    refine (find_arrivedIf ident x.runs).trans ?_
    rw [hr]

theorem hopArrived_countArrival (e : Eng) (v i ident : Nat) : HopArrived e (countArrival (heard e v i) v ident) v ident := by
  have hh := getV_heard e v i
  have hget : getV (countArrival (heard e v i) v ident) v = counted ident (getV (heard e v i) v) := getV_updV_same _ _ _
  have hruns : (getV (heard e v i) v).runs = (getV e v).runs := by rw [hh]
  have hold : (getV (heard e v i) v).oldRuns = (getV e v).oldRuns := by rw [hh]
  have hat : runAt (getV (heard e v i) v) ident = runAt (getV e v) ident := congrArg (List.find? (ofIdent ident)) hruns
  have hview : stripeView (getV (heard e v i) v) = stripeView (getV e v) := by rw [hh]; rfl
  obtain ⟨win, res, heq⟩ := heard_eq e v i
  refine ⟨by rw [heq]; rfl, ?_, by rw [heq]; rfl, by rw [heq]; rfl, by rw [heq]; rfl, ?_, fun hn => ?_⟩
  · rw [hget, ← hview, counted]
    split <;> rfl
  · rw [hget, runAt_counted, hat]
  · rw [hget, counted, hat, hn, ← hold]
    exact find_arrivedIf ident _

/-! ## REBUILD_HOP (R133, R134) -/

/-- The unit that a packet begins. -/
def newUnit (e : Eng) (t : Target) (p : HopIn) : RUnit :=
  { target := t.num, ident := p.ident / 4 * 4, sender := p.sender, rows := [(p.ident % 4, p.tile)], ts := e.side.ts }

/-- A run that holds a unit more. -/
def unitHeld (x : Valley) (r : Run) (u : RUnit) : Run :=
  { r with recv := r.recv ++ [u], nRecv := if (unitRows x u).isSome then r.nRecv + 1 else r.nRecv }

/-- An ended run that acknowledges sixteen lines more. -/
def lateAcked (r : Run) (p : HopIn) : Run :=
  { r with acked := Tab.upd 0 r.acked (countKey p.sender (p.ident / 4 * 4)) (· + 16)
           nDrop := if p.ident % 4 = 0 then r.nDrop + 1 else r.nDrop }

/-- A Valley whose ended runs of an identity are replaced. -/
def oldRunPut (old r : Run) (x : Valley) : Valley :=
  { x with oldRuns := x.oldRuns.map fun q => if q.ident = old.ident then r else q }

section
variable {m : Mem} {e : Eng} {v : Nat} {p : HopIn} {r : Run} {t : Target}

theorem unitIn_of_stray (h : runAt (getV e v) p.ident = none)
    (ho : (getV e v).oldRuns.find? (ofIdent p.ident) = none) : unitIn m e v p = dropPackets e 1 := by
  unfold unitIn
  dsimp only
  rw [h]
  dsimp only
  rw [show (getV e v).oldRuns.find? (fun r => r.groups.any fun g => decide (g.ident = p.ident / 4 * 4)) = none from ho]

theorem unitIn_of_ended (h : runAt (getV e v) p.ident = none)
    (ho : (getV e v).oldRuns.find? (ofIdent p.ident) = some r) : unitIn m e v p =
      ackAgain (updV (dropPackets e 1) v (oldRunPut r (lateAcked r p))) v (lateAcked r p) p.sender (p.ident / 4 * 4) := by
  unfold unitIn
  dsimp only
  rw [h]
  dsimp only
  rw [show (getV e v).oldRuns.find? (fun r => r.groups.any fun g => decide (g.ident = p.ident / 4 * 4)) = some r from ho]
  rfl

section
variable (h : runAt (getV e v) p.ident = some r) (ht : hopTarget e v r p = some t) (hm : p.ident % 4 < (getV e v).m)
include h ht hm

theorem unitIn_of_finished (hf : r.finished.contains (t.num, p.ident / 4 * 4) = true) :
    unitIn m e v p = ackAgain e v r p.sender (p.ident / 4 * 4) := by
  unfold unitIn
  dsimp only
  rw [h]
  dsimp only
  rw [ht]
  exact (if_neg (Nat.not_le.2 hm)).trans (if_pos hf)

variable (hf : r.finished.contains (t.num, p.ident / 4 * 4) = false)
  (hn : r.recv.find? (fun u => decide (u.target = t.num ∧ u.ident = p.ident / 4 * 4)) = none)
include hf hn

theorem unitIn_of_unheld : unitIn m e v p =
    if !decide ((turnOf e v r).map (·.num) = some t.num) && decide (r.window ≤ r.recv.length) then
      dropUnitPacket e v r (p.ident % 4)
    else stepRuns m (putRun (writeRow e v r r.recv.length (p.ident % 4)) v (unitHeld (getV e v) r (newUnit e t p))) v := by
  unfold unitIn
  dsimp only
  rw [h]
  dsimp only
  rw [ht]
  refine (if_neg (Nat.not_le.2 hm)).trans ((if_neg (Bool.eq_false_iff.1 hf)).trans ?_)
  rw [hn]
  rfl

theorem unitIn_of_room (hr : (turnOf e v r).map (·.num) = some t.num ∨ r.recv.length < r.window) : unitIn m e v p =
    stepRuns m (putRun (writeRow e v r r.recv.length (p.ident % 4)) v (unitHeld (getV e v) r (newUnit e t p))) v := by
  refine (unitIn_of_unheld h ht hm hf hn).trans (if_neg ?_)
  rw [Bool.and_eq_true, Bool.not_eq_true', decide_eq_false_iff_not, decide_eq_true_eq]
  rintro ⟨hturn, hwin⟩
  exact hr.elim hturn (Nat.not_lt.2 hwin)

theorem unitIn_of_full (hturn : (turnOf e v r).map (·.num) ≠ some t.num) (hw : r.window ≤ r.recv.length) :
    unitIn m e v p = dropUnitPacket e v r (p.ident % 4) := by
  refine (unitIn_of_unheld h ht hm hf hn).trans (if_pos ?_)
  rw [decide_eq_false hturn, decide_eq_true hw]
  rfl

end

theorem writeRow_eq (e : Eng) (v : Nat) (r : Run) (place row : Nat) :
    writeRow e v r place row = { e with basin := (writeRow e v r place row).basin } := by
  have hwords : ∀ (ks : List Nat) (g : Nat) (e : Eng), ks.foldl (fun e i => writeWord e (16 * g + 0 + i)) e =
      { e with basin := (ks.foldl (fun e i => writeWord e (16 * g + 0 + i)) e).basin } := by
    intro ks g
    induction ks with
    | nil => exact fun _ => rfl
    | cons k ks ih =>
      intro e
      rw [List.foldl_cons, ih, writeWord_eq]
  unfold writeRow
  split
  · exact hwords _ _ _
  · rfl

theorem ackAgain_eq (e : Eng) (v : Nat) (r : Run) (sender ident : Nat) : ackAgain e v r sender ident =
    queueCtl e [ctlTo (getV e v) v sender (getV e v).epoch
      (.hopAck (BitVec.ofNat 16 ident) (Tab.get 0 r.acked (countKey sender ident)))] := rfl

end

theorem cnt_dropPackets {e g : Eng} (hc : g.cnt = e.cnt) : (dropPackets g 1).cnt = (dropN e 21 1).cnt := by
  show { g.cnt with drop := Tab.upd 0 g.cnt.drop 21 (satAdd · 1) } = _
  rw [hc]
  rfl

/-- The acknowledge of a hop to its sender. -/
def hopAckTo (x : Valley) (v : Nat) (p : HopIn) (n : W32) : CtlOut :=
  ctlTo x v p.sender x.epoch (.hopAck (BitVec.ofNat 16 (p.ident / 4 * 4)) n)

theorem hopAckTo_of_stripes {x y : Valley} (h : stripeView y = stripeView x) (v : Nat) (p : HopIn) (n : W32) :
    hopAckTo y v p n = hopAckTo x v p n := read_view h (fun z => hopAckTo z v p n) fun _ => rfl

section
variable {s : State} {v : Nat} {p : RxPacket} {m : Mem} {e f : Eng} {h : HopIn} {r : Run} {t : Target}

theorem exec_rebuildHop (hacc : rxChecks s.eng p = .accepted v) (ht : (hdrOf p).typ = 5) :
    ∃ f, HopArrived s.eng f v (hopOf p (hdrOf p)).ident ∧
      exec (.rebuildHop p) s = .next { s with eng := advance s.mem (if (hopOf p (hdrOf p)).hop = 255 then
        correctionIn s.mem f v (hopOf p (hdrOf p)) else unitIn s.mem f v (hopOf p (hdrOf p))) } ∧
      exec (.auditCorrection p) s = .next { s with eng := advance s.mem (if (hopOf p (hdrOf p)).hop = 255 then
        correctionIn s.mem f v (hopOf p (hdrOf p)) else unitIn s.mem f v (hopOf p (hdrOf p))) } := by
  obtain ⟨-, -, -, -, -, -, -, -, -, hhop, -⟩ := acceptedPacketsAct.1 p 0 s v hacc
  obtain ⟨h1, h2⟩ := hhop ht
  exact ⟨_, hopArrived_countArrival s.eng v (hdrOf p).sender _, h1, h2⟩

namespace HopArrived

variable (a : HopArrived e f v h.ident)
include a

theorem hopTarget : Machine.hopTarget f v (arrived h.ident r) h = Machine.hopTarget e v r h :=
  (hopTarget_arrivals _ _ _ _ _).trans (hopTarget_of_stripes a.regions a.view _ _)

theorem turnOf : Machine.turnOf f v (arrived h.ident r) = Machine.turnOf e v r :=
  (turnOf_arrivals _ _ _ _).trans (turnOf_of_stripes a.regions a.view _)

theorem runAt_some (hr : runAt (getV e v) h.ident = some r) : runAt (getV f v) h.ident = some (arrived h.ident r) := by
  rw [a.live, hr]
  rfl

theorem runAt_none (hr : runAt (getV e v) h.ident = none) : runAt (getV f v) h.ident = none := by
  rw [a.live, hr]
  rfl

theorem parityRows : (getV f v).m = (getV e v).m := read_view a.view Valley.m fun _ => rfl

/-- The acknowledge that is queued again. -/
theorem ctlOut_ackAgain (q : Run) : (ackAgain f v q h.sender (h.ident / 4 * 4)).io.ctlOut =
    e.io.ctlOut ++ [hopAckTo (getV e v) v h (Tab.get 0 q.acked (countKey h.sender (h.ident / 4 * 4)))] := by
  rw [ackAgain_eq, ← hopAckTo_of_stripes a.view, ← a.io]
  rfl

/-- A packet of a unit that is new is held, and the runs go on. -/
theorem holds (hr : runAt (getV e v) h.ident = some r) (ht : Machine.hopTarget e v r h = some t)
    (hm : h.ident % 4 < (getV e v).m) (hf : r.finished.contains (t.num, h.ident / 4 * 4) = false)
    (hn : r.recv.find? (fun u => decide (u.target = t.num ∧ u.ident = h.ident / 4 * 4)) = none)
    (hroom : (Machine.turnOf e v r).map (·.num) = some t.num ∨ r.recv.length < r.window) :
    ∃ g r', unitIn m f v h = stepRuns m g v ∧ r' ∈ (getV g v).runs ∧ Run.ident r' = Run.ident r ∧
      r'.recv = r.recv ++ [{ target := t.num, ident := h.ident / 4 * 4, sender := h.sender
                             rows := [(h.ident % 4, h.tile)], ts := e.side.ts }] ∧
      Tab.get 0 r'.arrivals h.ident = Tab.get 0 r.arrivals h.ident + 1 ∧ r'.kept = r.kept ∧
      r'.finished = r.finished ∧ g.io.ctlOut = e.io.ctlOut ∧ g.io.acc = e.io.acc := by
  have heq := unitIn_of_room (m := m) (a.runAt_some hr) (a.hopTarget.trans ht) (by rw [a.parityRows]; exact hm) hf hn
    (by rw [a.turnOf]; exact hroom)
  have hrun : runAt (getV (writeRow f v (arrived h.ident r) (arrived h.ident r).recv.length (h.ident % 4)) v) h.ident =
      some (arrived h.ident r) := by
    rw [writeRow_eq]
    exact a.runAt_some hr
  have hio : (putRun (writeRow f v (arrived h.ident r) (arrived h.ident r).recv.length (h.ident % 4)) v
      (unitHeld (getV f v) (arrived h.ident r) (newUnit f t h))).io = e.io := by
    rw [writeRow_eq]
    exact a.io
  refine ⟨_, unitHeld (getV f v) (arrived h.ident r) (newUnit f t h), heq, mem_putRun hrun rfl, rfl, ?_,
    Tab.get_set_same _ _ _ _, rfl, rfl, (congrArg Io.ctlOut hio :), (congrArg Io.acc hio :)⟩
  show r.recv ++ [newUnit f t h] = _
  rw [newUnit, a.side]

theorem finished_acked (hr : runAt (getV e v) h.ident = some r) (ht : Machine.hopTarget e v r h = some t)
    (hm : h.ident % 4 < (getV e v).m) (hf : r.finished.contains (t.num, h.ident / 4 * 4) = true) :
    (unitIn m f v h).io.ctlOut = e.io.ctlOut ++
      [hopAckTo (getV e v) v h (Tab.get 0 r.acked (countKey h.sender (h.ident / 4 * 4)))] ∧
    (unitIn m f v h).io.acc = e.io.acc ∧ (unitIn m f v h).cnt = e.cnt := by
  rw [unitIn_of_finished (a.runAt_some hr) (a.hopTarget.trans ht) (by rw [a.parityRows]; exact hm) hf]
  exact ⟨a.ctlOut_ackAgain _, (congrArg Io.acc a.io :), a.cnt⟩

theorem full_dropped (hr : runAt (getV e v) h.ident = some r) (ht : Machine.hopTarget e v r h = some t)
    (hm : h.ident % 4 < (getV e v).m) (hf : r.finished.contains (t.num, h.ident / 4 * 4) = false)
    (hn : r.recv.find? (fun u => decide (u.target = t.num ∧ u.ident = h.ident / 4 * 4)) = none)
    (hturn : (Machine.turnOf e v r).map (·.num) ≠ some t.num) (hw : r.window ≤ r.recv.length) :
    (unitIn m f v h).cnt = (dropN e 21 1).cnt ∧ (unitIn m f v h).io = e.io := by
  rw [unitIn_of_full (a.runAt_some hr) (a.hopTarget.trans ht) (by rw [a.parityRows]; exact hm) hf hn
    (by rw [a.turnOf]; exact hturn) hw, dropUnitPacket]
  split
  · exact ⟨cnt_dropPackets a.cnt, a.io⟩
  · exact ⟨cnt_dropPackets a.cnt, a.io⟩

theorem ended_acked (hr : runAt (getV e v) h.ident = none) (ho : (getV e v).oldRuns.find? (ofIdent h.ident) = some r) :
    (unitIn m f v h).cnt = (dropN e 21 1).cnt ∧ (unitIn m f v h).io.acc = e.io.acc ∧
    (unitIn m f v h).io.ctlOut = e.io.ctlOut ++
      [hopAckTo (getV e v) v h (Tab.get 0 r.acked (countKey h.sender (h.ident / 4 * 4)) + 16)] := by
  have hold : (getV f v).oldRuns.find? (ofIdent h.ident) = some (arrived h.ident r) := by
    rw [a.ended hr, ho]
    rfl
  rw [unitIn_of_ended (a.runAt_none hr) hold]
  refine ⟨cnt_dropPackets a.cnt, (congrArg Io.acc a.io :), ?_⟩
  have hview : stripeView (getV (updV (dropPackets f 1) v (oldRunPut (arrived h.ident r) (lateAcked (arrived h.ident r) h))) v) =
      stripeView (getV e v) := by
    rw [getV_updV_same]
    exact a.view
  have hacked : Tab.get 0 (lateAcked (arrived h.ident r) h).acked (countKey h.sender (h.ident / 4 * 4)) =
      Tab.get 0 r.acked (countKey h.sender (h.ident / 4 * 4)) + 16 := Tab.get_set_same _ _ _ _
  rw [ackAgain_eq, hacked, ← hopAckTo_of_stripes hview, ← a.io]
  rfl

theorem stray_dropped (hr : runAt (getV e v) h.ident = none) (ho : (getV e v).oldRuns.find? (ofIdent h.ident) = none) :
    (unitIn m f v h).cnt = (dropN e 21 1).cnt ∧ (unitIn m f v h).io = e.io := by
  rw [unitIn_of_stray (a.runAt_none hr) (by rw [a.ended hr, ho]; rfl)]
  exact ⟨cnt_dropPackets a.cnt, a.io⟩

theorem anyRunAt : Machine.anyRunAt (getV f v) h.ident = (Machine.anyRunAt (getV e v) h.ident).map (arrived h.ident) := by
  unfold Machine.anyRunAt
  rw [a.live]
  cases hr : runAt (getV e v) h.ident with
  | some r => rfl
  | none => exact a.ended hr

end HopArrived

end

/-! ## AUDIT_CORRECTION (R223) -/

/-- A run that has made a correction and acknowledged its lines. -/
def correctionMade (r : Run) (t : Target) (p : HopIn) : Run :=
  { r with finished := (t.num, p.ident / 4 * 4 + 65536) :: r.finished
           acked := Tab.upd 0 r.acked (countKey p.sender (p.ident / 4 * 4)) (· + 16) }

/-- A Valley whose runs of an identity, live or ended, are replaced. -/
def anyRunPut (old r : Run) (x : Valley) : Valley :=
  { x with runs := x.runs.map fun q => if q.ident = old.ident then r else q
           oldRuns := x.oldRuns.map fun q => if q.ident = old.ident then r else q }

section
variable {m : Mem} {e : Eng} {v : Nat} {p : HopIn} {r : Run} {t : Target} {i : Pos}

theorem correctionIn_of_none (h : anyRunAt (getV e v) p.ident = none) : correctionIn m e v p = dropPackets e 1 := by
  unfold correctionIn
  dsimp only
  rw [h]

section
variable (h : anyRunAt (getV e v) p.ident = some r) (hk : r.kind = .audit) (he : r.epoch = (getV e v).epoch)
  (hp : (getV e v).phase = .idle ∨ (getV e v).phase = .frozen) (h1 : (getV e v).t1 = none)
  (ht : hopTarget e v r p = some t) (hi : (targetPos e v t).find? (fun i => decide (i.mem = (getV e v).self)) = some i)
include h hk he hp h1 ht hi

theorem correctionIn_of_owner : correctionIn m e v p =
    if r.finished.contains (t.num, p.ident / 4 * 4 + 65536) then ackAgain e v r p.sender (p.ident / 4 * 4)
    else ackAgain (updV (applyCorrection m e v t i p.tile) v (anyRunPut r (correctionMade r t p))) v (correctionMade r t p)
      p.sender (p.ident / 4 * 4) := by
  have hfit : (decide (r.kind = .audit ∧ r.epoch = (getV e v).epoch ∧ ((getV e v).phase = .idle ∨ (getV e v).phase = .frozen)) &&
      (getV e v).t1.isNone) = true := by
    rw [decide_eq_true ⟨hk, he, hp⟩, h1]
    rfl
  unfold correctionIn
  dsimp only
  rw [h]
  dsimp only
  rw [hfit, ht]
  dsimp only
  rw [hi]
  rfl

end

/-- The accumulates that write a tile's error. -/
def tileAccums (e : Eng) (a : Nat) (err : List Line) : Eng :=
  err.zipIdx.foldl (fun e y => accumDiff e (a / 256 + y.2) y.1 .plain) e

theorem applyCorrection_of_parity {y : ReachInfo} (hr : reachAt e v t.reach = some y) (hi : i.parity = true) (err : List Line) :
    applyCorrection m e v t i err =
      tileAccums e (parityAddr e v t.reach (t.group * (getV e v).m + i.idx)) err := by
  unfold applyCorrection
  dsimp only
  rw [hr]
  dsimp only
  rw [hi]
  exact (if_pos rfl).trans (if_neg (by rw [Bool.not_true, Bool.and_false]; exact Bool.false_ne_true))

theorem accum_ctlOut (e : Eng) (l : Nat) (d : Line) (why : AccWhy) : (accumDiff e l d why).io.ctlOut = e.io.ctlOut := by
  unfold accumDiff
  split <;> rfl

theorem tileAccums_spec (a : Nat) (err : List Line) : ∀ e : Eng, tileAccums e a err = { e with io := (tileAccums e a err).io } ∧
    (tileAccums e a err).io.ctlOut = e.io.ctlOut := by
  unfold tileAccums
  refine fun e => ⟨foldl_io (fun e y => accumDiff_eq _ _ _ _) _ _, ?_⟩
  induction err.zipIdx generalizing e with
  | nil => rfl
  | cons y ys ih => exact (ih _).trans (accum_ctlOut _ _ _ _)

theorem tileAccums_congr {e f : Eng} (h : f.io = e.io) (a : Nat) (err : List Line) :
    (tileAccums f a err).io.acc = (tileAccums e a err).io.acc := by
  have hfold : ∀ (ys : List (Line × Nat)) (e f : Eng), f.io.acc = e.io.acc → f.io.writes = e.io.writes →
      (ys.foldl (fun e y => accumDiff e (a / 256 + y.2) y.1 .plain) f).io.acc =
        (ys.foldl (fun e y => accumDiff e (a / 256 + y.2) y.1 .plain) e).io.acc := by
    intro ys
    induction ys with
    | nil => exact fun _ _ ha _ => ha
    | cons y ys ih =>
      intro e f ha hw
      obtain ⟨ha', hw'⟩ := accumDiff_congr ha hw (a / 256 + y.2) y.1 .plain
      exact ih _ _ ha' hw'
  exact hfold _ _ _ (congrArg Io.acc h) (congrArg Io.writes h)

end

section
variable {m : Mem} {e f : Eng} {v : Nat} {h : HopIn} {r : Run} {t : Target} {i : Pos}

/-- The owner of a wrong parity tile and its correction, when the packet has been counted. -/
theorem HopArrived.correction (a : HopArrived e f v h.ident) (hr : Machine.anyRunAt (getV e v) h.ident = some r)
    (hk : r.kind = .audit) (he : r.epoch = (getV e v).epoch) (hp : (getV e v).phase = .idle ∨ (getV e v).phase = .frozen)
    (h1 : (getV e v).t1 = none) (ht : Machine.hopTarget e v r h = some t)
    (hi : (targetPos e v t).find? (fun i => decide (i.mem = (getV e v).self)) = some i) : correctionIn m f v h =
      if r.finished.contains (t.num, h.ident / 4 * 4 + 65536) then ackAgain f v (arrived h.ident r) h.sender (h.ident / 4 * 4)
      else ackAgain (updV (applyCorrection m f v t i h.tile) v (anyRunPut (arrived h.ident r)
        (correctionMade (arrived h.ident r) t h))) v (correctionMade (arrived h.ident r) t h) h.sender (h.ident / 4 * 4) := by
  have hread {α : Type} (k : Valley → α) (hk : ∀ z, k (stripeView z) = k z) := read_view a.view k hk
  refine correctionIn_of_owner (r := arrived h.ident r) (t := t) (i := i) ?_ hk
    (he.trans (hread Valley.epoch fun _ => rfl).symm) ?_ ((hread Valley.t1 fun _ => rfl).trans h1) (a.hopTarget.trans ht) ?_
  · rw [a.anyRunAt, hr]
    rfl
  · rw [hread Valley.phase fun _ => rfl]
    exact hp
  · rw [targetPos_of_stripes a.regions a.view, hread Valley.self fun _ => rfl]
    exact hi

theorem HopArrived.corrects (a : HopArrived e f v h.ident) {y : ReachInfo} (hy : reachAt e v t.reach = some y)
    (hi : i.parity = true) (hr : correctionIn m f v h = ackAgain (updV (applyCorrection m f v t i h.tile) v
      (anyRunPut (arrived h.ident r) (correctionMade (arrived h.ident r) t h))) v (correctionMade (arrived h.ident r) t h)
      h.sender (h.ident / 4 * 4)) :
    (correctionIn m f v h).io.acc =
      (tileAccums e (parityAddr e v t.reach (t.group * (getV e v).m + i.idx)) h.tile).io.acc ∧
    (correctionIn m f v h).io.ctlOut = e.io.ctlOut ++
      [hopAckTo (getV e v) v h (Tab.get 0 r.acked (countKey h.sender (h.ident / 4 * 4)) + 16)] ∧
    (correctionIn m f v h).cnt = e.cnt := by
  have happly := applyCorrection_of_parity (m := m) (err := h.tile)
    ((reachAt_of_regions a.regions t.reach).trans hy) hi
  rw [parityAddr_of_stripes a.regions a.view, a.parityRows] at happly
  obtain ⟨heq, hout⟩ := tileAccums_spec (parityAddr e v t.reach (t.group * (getV e v).m + i.idx)) h.tile f
  have hacc := tileAccums_congr a.io (parityAddr e v t.reach (t.group * (getV e v).m + i.idx)) h.tile
  have hacked : Tab.get 0 (correctionMade (arrived h.ident r) t h).acked (countKey h.sender (h.ident / 4 * 4)) =
      Tab.get 0 r.acked (countKey h.sender (h.ident / 4 * 4)) + 16 := Tab.get_set_same _ _ _ _
  rw [hr, happly]
  generalize tileAccums f (parityAddr e v t.reach (t.group * (getV e v).m + i.idx)) h.tile = g at *
  have hget : getV g v = getV f v := by rw [heq]; rfl
  have hview : stripeView (getV (updV g v (anyRunPut (arrived h.ident r) (correctionMade (arrived h.ident r) t h))) v) =
      stripeView (getV e v) := by
    rw [getV_updV_same, hget]
    exact a.view
  refine ⟨hacc, ?_, ?_⟩
  · rw [ackAgain_eq, hacked, ← hopAckTo_of_stripes hview, ← a.io, ← hout]
    rfl
  · show g.cnt = _
    rw [heq]
    exact a.cnt

end

/-- Settles O23: the kept units by what is due, an acknowledge by the units it covers, and a hop by the run that has its
identity. -/
theorem keptUnitsAgain : Obligations.KeptUnitsAgain := by
  refine ⟨fun v ident succ s r hc hr => ⟨fun k tg hk hi hs hd ht => ⟨_, exec_hopResend v ident hc, rfl,
      hopResend_spec hr hk hi hs hd ht⟩, fun k hk hsucc hs hd => ⟨_, exec_rebuildStall v ident succ hc, rfl, ?_⟩,
      fun hs => ?_⟩,
    fun p s v hacc ht hk => ?_, fun p s v hacc ht => ?_⟩
  · obtain ⟨w0, w1, heq⟩ := rebuildStall_of_due hr hk hsucc hs hd
    have hget := (onlyEvents_raise (putRun s.eng v.val (stalledRun succ.val r)) evRebuildStall stPeerTimeout (some v.val)
      w0 w1).answers.getV v.val
    rw [heq, hget]
    refine ⟨mem_putRun hr rfl, ?_⟩
    rw [putRun_eq, getV_updV_same]
    rfl
  · rw [exec_rebuildStall v ident succ hc, rebuildStall_of_stalled hr hs]
  · have hexec : exec (.hopAcknowledge p) s = .next { s with eng := advance s.mem (onHopAck s.mem
        (heard s.eng v (hdrOf p).sender) v (hdrOf p).sender (fld (hdrOf p).w3 0 16)
        (BitVec.ofNat 32 (fld (hdrOf p).w3 16 32))) } := by
      obtain ⟨-, -, -, -, -, -, -, hack, -⟩ := acceptedPacketsAct.1 p 0 s v hacc
      exact hack ht hk
    have hh := getV_heard s.eng v (hdrOf p).sender
    have hat : runAt (getV (heard s.eng v (hdrOf p).sender) v) (fld (hdrOf p).w3 0 16) =
        runAt (getV s.eng v) (fld (hdrOf p).w3 0 16) := by rw [hh]; rfl
    have hhops : (getV (heard s.eng v (hdrOf p).sender) v).hops = (getV s.eng v).hops := by rw [hh]
    obtain ⟨win, res, heq⟩ := heard_eq s.eng v (hdrOf p).sender
    have hio : (heard s.eng v (hdrOf p).sender).io = s.eng.io := by rw [heq]; rfl
    have hlanes : (heard s.eng v (hdrOf p).sender).lanes = s.eng.lanes := by rw [heq]; rfl
    have hregions : (heard s.eng v (hdrOf p).sender).regions = s.eng.regions := by rw [heq]; rfl
    refine ⟨fun r hr => ?_, fun hn => ?_⟩
    · have hr' := hat.trans hr
      obtain ⟨f, r1, hf, hans, hi, hkept, hrecv, hfin, hcorr⟩ := onHopAck_of_run (m := s.mem) (sender := (hdrOf p).sender)
        (lines := BitVec.ofNat 32 (fld (hdrOf p).w3 16 32)) hr'
      refine ⟨f, r1, hexec.trans (by rw [hf]), ?_, hi, hkept, hrecv, hfin, hcorr, ?_, ?_, ?_, ?_, ?_⟩
      · rw [hans.getV]
        exact mem_putRun hr' hi
      · rw [hans.getV, putRun_eq, getV_updV_same]
        exact hhops
      · exact hans.ctlOut.trans (congrArg Io.ctlOut hio)
      · exact hans.acc.trans (congrArg Io.acc hio)
      · exact hans.lanes.trans hlanes
      · exact hans.regions.trans hregions
    · rw [hexec, onHopAck_of_none (hat.trans hn)]
  · obtain ⟨f, a, hhop, hcor⟩ := exec_rebuildHop hacc ht
    refine ⟨fun hne => ?_, fun heq => ?_⟩
    · rw [if_neg hne] at hhop
      refine ⟨fun r t hr htgt hm => ⟨fun hf hn hroom => ?_, fun hf => ⟨_, hhop, a.finished_acked hr htgt hm hf⟩,
        fun hf hn hturn hw => ⟨_, hhop, a.full_dropped hr htgt hm hf hn hturn hw⟩⟩,
        fun r hr ho => ⟨_, hhop, a.ended_acked hr ho⟩, fun hr ho => ⟨_, hhop, a.stray_dropped hr ho⟩⟩
      obtain ⟨g, r', hunit, hspec⟩ := a.holds (m := s.mem) hr htgt hm hf hn hroom
      exact ⟨g, r', hhop.trans (by rw [hunit]), hspec⟩
    · rw [if_pos heq] at hcor
      refine ⟨fun r t i y hr hk he hp h1 htgt hi hy => ⟨fun hf hpar => ⟨_, hcor, ?_⟩, fun hf => ⟨_, hcor, ?_⟩⟩,
        fun hn => ⟨_, hcor, ?_⟩⟩
      · exact a.corrects hy hpar ((a.correction hr hk he hp h1 htgt hi).trans (if_neg (Bool.eq_false_iff.1 hf)))
      · rw [(a.correction hr hk he hp h1 htgt hi).trans (if_pos hf)]
        exact ⟨(congrArg Io.acc a.io :), a.ctlOut_ackAgain _, a.cnt⟩
      · rw [correctionIn_of_none (by rw [a.anyRunAt, hn]; rfl)]
        exact ⟨cnt_dropPackets a.cnt, a.io⟩

end Sys2Proof.Machine
